-- ==== Sys2Proof/Word.lean ====
section
/-! DEFINITION. The word types of the Drulen 2 (R4, R51, R75): nothing but names for widths. -/

namespace Sys2Proof

/-- A scalar register, an address or a CSR: 64 bits (R49, R51). -/
abbrev Word := BitVec 64
/-- An instruction word, a literal word or a vector lane: 32 bits (R29, R75). -/
abbrev W32 := BitVec 32
/-- A byte of memory (R4). -/
abbrev Byte := BitVec 8
/-- The 64 lanes of a vector register, lane 0 first; a lane that is not listed is zero (R75). -/
abbrev Lanes := List W32
/-- Bytes of memory by address: Host cells (R186). -/
abbrev Memory := List Host.Cell

end Sys2Proof
end

