-- ==== Sys2Proof/Syntax.lean ====
section
/-! DEFINITION. The syntax: every operand form of spec/03 and one constructor of `Instr` for each row of
spec/opcode_table.json: the encoded instructions first, then the device's own steps, then what comes to the device from
outside, which have no encoding (spec/95). -/

namespace Sys2Proof

/-- A scalar or vector register number (R34). -/
abbrev Reg := Fin 32
/-- A predicate register number (R34). -/
abbrev PReg := Fin 8
/-- A residue quad v4k, by its k (R34, R146). -/
abbrev Quad := Fin 8
/-- A lookahead of 0 to 15 (R33). -/
abbrev La := Fin 16

/-- Rounding codes (R36). -/
inductive Rm where
  | rne | rtz | rdn | rup | rna
  deriving DecidableEq, Repr

/-- Type codes 0x0 to 0xD (R35). -/
inductive Ty where
  | i8 | i16 | i32 | i64 | n8 | n16 | n32 | n64 | f32 | f16 | b16 | dx7 | dx4 | dx2
  deriving DecidableEq, Repr

/-- Integer type codes 0x0 to 0x7 (R39). -/
inductive IntTy where
  | i8 | i16 | i32 | i64 | n8 | n16 | n32 | n64
  deriving DecidableEq, Repr

/-- The dx formats (R102). -/
inductive Dx where
  | dx7 | dx4 | dx2
  deriving DecidableEq, Repr

/-- Operand b of format S (R38). -/
inductive SrcB where
  | reg (r : Reg)
  | imm (v : BitVec 5)
  | lit (w : W32)
  | lit2 (lo hi : W32)
  deriving DecidableEq, Repr

/-- The replaceable operand of a float form: a register, or an fp32 literal (R38, R60). -/
inductive FSrc where
  | reg (r : Reg)
  | lit (w : W32)
  deriving DecidableEq, Repr

/-- Operand b of a branch or of a pair's scalar half (R40, R42). -/
inductive RegImm where
  | reg (r : Reg)
  | imm (v : BitVec 5)
  deriving DecidableEq, Repr

/-- Branch offset, in words (R40). -/
inductive BrOff where
  | near (o : BitVec 9)
  | far (w : W32)
  deriving DecidableEq, Repr

/-- Jump offset, in words (R40). -/
inductive JOff where
  | near (o : BitVec 17)
  | far (w : W32)
  deriving DecidableEq, Repr

/-- Branch hint (R40). -/
inductive Hint where
  | none | notTaken | taken
  deriving DecidableEq, Repr

/-- Branch conditions (R64). -/
inductive BrCond where
  | eq | ne | lt | ge | ltn | gen
  deriving DecidableEq, Repr

/-- Source size of `sext` and `zext` (R38). -/
inductive ExtSize where
  | b8 | b16 | b32
  deriving DecidableEq, Repr

/-- `fcmp` conditions (R38). -/
inductive FCmp where
  | eq | lt | le | uo
  deriving DecidableEq, Repr

/-- Sign operations of `fsgn` and `vfsgn` (R38, R44). -/
inductive SgnOp where
  | copy | neg | xor
  deriving DecidableEq, Repr

/-- Order field of format M (R39). -/
inductive LdOrder where
  | plain | acq
  deriving DecidableEq, Repr

/-- Order field of format M for stores (R39). -/
inductive StOrder where
  | plain | rel
  deriving DecidableEq, Repr

/-- Memory offset of format M (R39). -/
abbrev MemOff := Option W32

/-- How many literals a `nop` skips (R68). -/
inductive NopLits where
  | l0 | l1 | l3 | l7
  deriving DecidableEq, Repr

/-- Scalar forms that may stand in a pair: class 00 majors 0x01 to 0x20 (R42). -/
inductive SOp where
  | add | sub | and | or | xor | andn | sll | srl | sra | rol | slt | sltn | min | max | minn | maxn
  | mul | mulh | mulhn | div | divn | rem | remn
  | clz | ctz | popc | sext (s : ExtSize) | zext (s : ExtSize)
  | bext | bins | sel | lim (unsigned : Bool)
  deriving DecidableEq, Repr

/-- The scalar half of a pair (R42). -/
structure ScalarHalf where
  op : SOp
  d : Reg
  a : Reg
  b : RegImm
  deriving DecidableEq, Repr

/-- Operand b of a binary vector form (R44, R77). -/
inductive VSrc where
  | v (r : Reg)
  | x (r : Reg)
  | lit (w : W32)
  deriving DecidableEq, Repr

/-- The source of a unary VL form: va, or xa broadcast (R44). -/
inductive VSrc1 where
  | v (r : Reg)
  | x (r : Reg)
  deriving DecidableEq, Repr

/-- Modes of `vadd` and `vsub` (R83). -/
inductive SatMode where
  | wrap | sat | satn
  deriving DecidableEq, Repr

/-- Binary vector operations with a vector destination (R83, R86, R90 to R93). -/
inductive VBin where
  | vadd (m : SatMode) | vsub (m : SatMode) | vmul | vmulh (unsigned : Bool) | vmac
  | vand | vor | vxor | vsll | vsrl | vsra | vmin | vmax | vminn | vmaxn
  | vfadd (r : Rm) | vfsub (r : Rm) | vfmul (r : Rm) | vfma (r : Rm) | vfmin | vfmax
  | vfsgn (o : SgnOp) | vfdiv (r : Rm)
  | vsel (p : PReg) | vperm (scatter : Bool) | vslide (down : Bool) | vzip | vunzip
  deriving DecidableEq, Repr

/-- `vcmp` conditions (R89). -/
inductive ICond where
  | eq | ne | lt | ge | ltn | gen
  deriving DecidableEq, Repr

/-- `vfcmp` conditions (R89). -/
inductive FCond where
  | eq | ne | lt | le | uo
  deriving DecidableEq, Repr

/-- Reduction operations (R94). -/
inductive RedOp where
  | add | fadd | min | max | minn | maxn | fmin | fmax | and | or | xor
  deriving DecidableEq, Repr

/-- `plog` operations (R97). -/
inductive PLog where
  | and | or | xor | andn | not
  deriving DecidableEq, Repr

/-- Function-unit forms (R113). -/
inductive FuOp where
  | exp2 | log2 | rcp | rsq
  deriving DecidableEq, Repr

/-- Addressing of a vector access (R197): contiguous, strided by xb, indexed by vb. -/
inductive VAddr where
  | unit
  | stride (xb : Reg)
  | index (vb : Reg)
  deriving DecidableEq, Repr

/-- Operand b of `radd` and `rmul` (R156). -/
inductive RSrc where
  | q (k : Quad)
  | x (r : Reg)
  deriving DecidableEq, Repr

/-- Class 01 forms, without their guard (R43, R44). A layout word is the span of R194. -/
inductive VecForm where
  | bin (op : VBin) (d a : Reg) (b : VSrc)
  | cmp (c : ICond) (p : PReg) (a : Reg) (b : VSrc)
  | fcmp (c : FCond) (p : PReg) (a : Reg) (b : VSrc)
  | abs (d a : Reg)
  | mov (d a : Reg)
  | cls (d a : Reg)
  | sqrt (d : Reg) (s : VSrc1) (la : La)
  | fu (op : FuOp) (d : Reg) (s : VSrc1) (la : La)
  | bcast (d : Reg) (s : FSrc)
  | red (op : RedOp) (d a : Reg)
  | scan (op : RedOp) (d a : Reg)
  | pset (p : PReg) (a : Reg)
  | plog (op : PLog) (p a b : PReg)
  | pcnt (d : Reg) (a : PReg)
  | pfirst (d : Reg) (a : PReg)
  | cvt (dst src : Ty) (r : Rm) (d a : Reg)
  | quant (f : Dx) (d a : Reg)
  | load (m : VAddr) (d a : Reg) (lay : Option (BitVec 3)) (la : La)
  | store (m : VAddr) (d a : Reg) (lay : Option (BitVec 3))
  | rfwd (wide : Bool) (d : Quad) (a : Reg) (la : La)
  | rrev (d : Fin 16) (a : Quad) (b : Reg) (la : La)
  | rchk (d : Reg) (a : Quad) (la : La)
  | radd (d a : Quad) (b : RSrc)
  | rmul (d a : Quad) (b : RSrc)
  | rbase (d a : Quad) (band : Fin 4) (la : La)
  deriving DecidableEq, Repr

/-- Residue mode named by `rsel` (R143, R160). -/
inductive RMode where
  | normal
  | ufull (l : Fin 4)
  | cred (l : Fin 3)
  deriving DecidableEq, Repr

/-- Operations of `amo` (R45, R201). -/
inductive AmoOp where
  | add | and | or | xor | min | max | minn | maxn | swap
  deriving DecidableEq, Repr

/-- Size field of `amo` and `cas` (R45). -/
inductive AmoTy where
  | i32 | i64 | n32 | n64
  deriving DecidableEq, Repr

/-- Scopes (R207). -/
inductive Scope where
  | core | course | die | device | system
  deriving DecidableEq, Repr

/-- Command word of `mload` (R133). -/
structure MloadCmd where
  tag : BitVec 16
  stride : W32
  swz : BitVec 3
  deriving DecidableEq, Repr

/-- Command word of `mgo` (R134). -/
structure MgoCmd where
  tag : BitVec 16
  rows : BitVec 16
  groups : BitVec 8
  bands : BitVec 4
  astride : W32
  ostride : W32
  scale : W32
  aswz : BitVec 3
  oswz : BitVec 3
  deriving DecidableEq, Repr

/-- Command word of `mdecl` (R236). -/
structure MdeclCmd where
  tag : BitVec 16
  states : BitVec 6
  esize : BitVec 2
  slot : BitVec 2
  skip : Word
  table : Word
  count : BitVec 22
  deriving DecidableEq, Repr

/-- Command word of `smode` (R272): counts and strides of the four dimensions, dimension 0 first. -/
structure StreamCmd where
  tag : BitVec 16
  dims : BitVec 2
  swz : BitVec 3
  n0 : BitVec 16
  n1 : BitVec 16
  n2 : BitVec 16
  n3 : BitVec 16
  s0 : W32
  s1 : W32
  s2 : W32
  s3 : W32
  deriving DecidableEq, Repr

/-- Command word of `copy` (R279); dims and esize are bits 3:0 of the instruction word. -/
structure CopyCmd where
  tag : BitVec 16
  dims : BitVec 2
  esize : BitVec 2
  n0 : BitVec 16
  n1 : BitVec 16
  n2 : BitVec 16
  n3 : BitVec 16
  t1 : BitVec 22
  t2 : BitVec 22
  t3 : BitVec 22
  u1 : BitVec 22
  u2 : BitVec 22
  u3 : BitVec 22
  sswz : BitVec 3
  dswz : BitVec 3
  /-- Bits 255:250, reserved; a nonzero value is refused at issue (R281). -/
  rsv : BitVec 6
  deriving DecidableEq, Repr

/-- Collectives (R283). -/
inductive CollOp where
  | allreduce | allgather | reducescatter | broadcast | alltoall
  deriving DecidableEq, Repr

/-- Reductions of a collective (R283). -/
inductive CollRed where
  | add | min | max
  deriving DecidableEq, Repr

/-- Element types of a collective (R283). -/
inductive CollTy where
  | i32 | i64 | n32 | n64 | f32
  deriving DecidableEq, Repr

/-- Command word of `coll` (R283). -/
structure CollCmd where
  tag : BitVec 16
  ranks : BitVec 12
  rank : BitVec 12
  ty : CollTy
  red : CollRed
  n : W32
  out : Word
  root : BitVec 11
  deriving DecidableEq, Repr

/-- Wait kinds of `swait` (R234). -/
inductive WaitKind where
  | next | delay (vb : Reg) | wake (vb : Reg) | done
  deriving DecidableEq, Repr

/-- An index operand that is xb or vb (R246). -/
inductive XV where
  | x (r : Reg)
  | v (r : Reg)
  deriving DecidableEq, Repr

/-- Operations of `vote` (R363). -/
inductive VoteOp where
  | and | or | min | max
  deriving DecidableEq, Repr

/-- Who executes instructions: a context of a compute core (course index, core in the course, context), the quoin of a
course, or the plinth (R18, R19, R21). A course index is ashlar x 32 + the index of R338. -/
inductive Agent where
  | ctx (course core tid : Nat)
  | quoin (course : Nat)
  | plinth
  deriving DecidableEq, Repr

/-- Unit kinds of R178. -/
inductive UnitKind where
  | sram | band | regfile | plumb | quoinMem | link | hbm | queue
  deriving DecidableEq, Repr

/-- An error as the hardware detects it (R179). -/
structure ErrorEvent where
  uncorrectable : Bool
  kind : UnitKind
  index : BitVec 8
  core : Fin 8
  syndrome : BitVec 16
  addr : BitVec 57
  deriving DecidableEq, Repr

/-- Outcomes of a targeted self-test (R181). -/
inductive TestOutcome where
  | pass
  | failedBand (b : Fin 4)
  | failedUnit
  deriving DecidableEq, Repr

/-- How the quoin answers a miss notice or a page request (R322, R323). -/
inductive MissAnswer where
  | entry (e : Word)
  | absent
  | request
  deriving DecidableEq, Repr

/-- An inbound access of a host-link requester (R387). -/
inductive InboundOp where
  | write (bytes : List Byte)
  | read (n : Nat)
  deriving DecidableEq, Repr

/-- What an arriving Gweam flit asks for at an HBM address (R392, R393). -/
inductive GweamOp where
  | store (addr : Nat) (bytes : List Byte)
  | load (addr n : Nat)
  /-- An atomic, or a `cas` where no operation is given. -/
  | amo (op : Option AmoOp) (t : AmoTy) (addr : Nat) (cmp new : Word)
  | faddx (addr : Nat) (x : W32)
  | cellrd (addr : Nat)
  | mon (addr : Nat)
  deriving DecidableEq, Repr

/-- Traffic classes (R255). -/
inductive FlitClass where
  | request | reply | control
  deriving DecidableEq, Repr

/-- A packet at a Gweam port: its class, its source and destination device numbers, and what a request asks for (R392). -/
structure Flit where
  cls : FlitClass
  src : BitVec 10
  dst : BitVec 10
  op : GweamOp
  deriving DecidableEq, Repr

/-- One site's words in an observer update (R368). -/
structure SiteReport where
  site : Nat
  est : BitVec 16
  pred : BitVec 16
  mw : W32
  deriving DecidableEq, Repr

/-- A firmware image by its SHA3-512 digest, and its ML-DSA-87 signature (R399). -/
structure Firmware where
  digest : BitVec 512
  signature : List Byte
  deriving DecidableEq, Repr

/-- A failing unit found at bring-up (R398). -/
structure FailRecord where
  kind : UnitKind
  ashlar : Fin 16
  site : Fin 32
  index : BitVec 8
  deriving DecidableEq, Repr

/-- A register that a step writes (R7): a CSR of an agent, or the target register of a function of the host link (R387). -/
inductive WriteReg where
  | csr (a : Agent) (n : BitVec 12)
  | target (fn : Nat)
  /-- The PASID in a virtual function's configuration space (R385). -/
  | pasid (fn : Nat)
  deriving DecidableEq, Repr

/-- The instructions, one constructor for each row of spec/opcode_table.json. -/
inductive Instr where
  -- class 00, integer (R54 to R59)
  | add (d a : Reg) (b : SrcB)
  | sub (d a : Reg) (b : SrcB)
  | and (d a : Reg) (b : SrcB)
  | or (d a : Reg) (b : SrcB)
  | xor (d a : Reg) (b : SrcB)
  | andn (d a : Reg) (b : SrcB)
  | sll (d a : Reg) (b : SrcB)
  | srl (d a : Reg) (b : SrcB)
  | sra (d a : Reg) (b : SrcB)
  | rol (d a : Reg) (b : SrcB)
  | slt (d a : Reg) (b : SrcB)
  | sltn (d a : Reg) (b : SrcB)
  | min (d a : Reg) (b : SrcB)
  | max (d a : Reg) (b : SrcB)
  | minn (d a : Reg) (b : SrcB)
  | maxn (d a : Reg) (b : SrcB)
  | mul (d a : Reg) (b : SrcB) (la : La)
  | mulh (d a : Reg) (b : SrcB) (la : La)
  | mulhn (d a : Reg) (b : SrcB) (la : La)
  | div (d a : Reg) (b : SrcB) (la : La)
  | divn (d a : Reg) (b : SrcB) (la : La)
  | rem (d a : Reg) (b : SrcB) (la : La)
  | remn (d a : Reg) (b : SrcB) (la : La)
  | clz (d a : Reg)
  | ctz (d a : Reg)
  | popc (d a : Reg)
  | sext (s : ExtSize) (d a : Reg)
  | zext (s : ExtSize) (d a : Reg)
  | bext (d a : Reg) (b : SrcB)
  | bins (d a : Reg) (b : SrcB)
  | sel (d a : Reg) (b : SrcB)
  | lim (unsigned : Bool) (d a : Reg) (b : SrcB)
  | addpc (d : Reg) (b : SrcB)
  | lea (d a : Reg) (b : SrcB) (s : Fin 4)
  -- class 00, float (R60 to R63)
  | fadd (r : Rm) (d a : Reg) (b : FSrc) (la : La)
  | fsub (r : Rm) (d a : Reg) (b : FSrc) (la : La)
  | fmul (r : Rm) (d a : Reg) (b : FSrc) (la : La)
  | fma (r : Rm) (d a : Reg) (b : FSrc) (la : La)
  | fmin (d a : Reg) (b : FSrc) (la : La)
  | fmax (d a : Reg) (b : FSrc) (la : La)
  | fcmp (c : FCmp) (d a : Reg) (b : FSrc) (la : La)
  | fcvt (dst src : Ty) (r : Rm) (d a : Reg)
  | fclass (d : Reg) (a : FSrc) (la : La)
  | fsgn (o : SgnOp) (d a : Reg) (b : FSrc) (la : La)
  -- class 00, control (R64 to R71)
  | beq (a : Reg) (b : RegImm) (o : BrOff) (h : Hint)
  | bne (a : Reg) (b : RegImm) (o : BrOff) (h : Hint)
  | blt (a : Reg) (b : RegImm) (o : BrOff) (h : Hint)
  | bge (a : Reg) (b : RegImm) (o : BrOff) (h : Hint)
  | bltn (a : Reg) (b : RegImm) (o : BrOff) (h : Hint)
  | bgen (a : Reg) (b : RegImm) (o : BrOff) (h : Hint)
  | jal (d : Reg) (o : JOff)
  | jalr (d a : Reg) (b : SrcB)
  | jtab (a b : Reg) (bound : W32)
  | rep (n : Reg) (b : SrcB)
  | nop (l : NopLits)
  -- class 00, CSR (R72)
  | csrr (d : Reg) (csr : BitVec 12)
  | csrw (d a : Reg) (csr : BitVec 12)
  | csrs (d a : Reg) (csr : BitVec 12)
  | csrc (d a : Reg) (csr : BitVec 12)
  -- class 00, memory (R195)
  | ld (t : IntTy) (o : LdOrder) (d a : Reg) (off : MemOff) (la : La)
  | st (t : IntTy) (o : StOrder) (d a : Reg) (off : MemOff)
  -- pairs (R42)
  | pairWord (g : PReg) (s : ScalarHalf) (v : VecForm)
  -- class 01 (R43, R44)
  | vadd (m : SatMode) (d a : Reg) (b : VSrc) (g : PReg)
  | vsub (m : SatMode) (d a : Reg) (b : VSrc) (g : PReg)
  | vmul (d a : Reg) (b : VSrc) (g : PReg)
  | vmulh (unsigned : Bool) (d a : Reg) (b : VSrc) (g : PReg)
  | vmac (d a : Reg) (b : VSrc) (g : PReg)
  | vand (d a : Reg) (b : VSrc) (g : PReg)
  | vor (d a : Reg) (b : VSrc) (g : PReg)
  | vxor (d a : Reg) (b : VSrc) (g : PReg)
  | vsll (d a : Reg) (b : VSrc) (g : PReg)
  | vsrl (d a : Reg) (b : VSrc) (g : PReg)
  | vsra (d a : Reg) (b : VSrc) (g : PReg)
  | vmin (d a : Reg) (b : VSrc) (g : PReg)
  | vmax (d a : Reg) (b : VSrc) (g : PReg)
  | vminn (d a : Reg) (b : VSrc) (g : PReg)
  | vmaxn (d a : Reg) (b : VSrc) (g : PReg)
  | vabs (d a : Reg) (g : PReg)
  | vfadd (r : Rm) (d a : Reg) (b : VSrc) (g : PReg)
  | vfsub (r : Rm) (d a : Reg) (b : VSrc) (g : PReg)
  | vfmul (r : Rm) (d a : Reg) (b : VSrc) (g : PReg)
  | vfma (r : Rm) (d a : Reg) (b : VSrc) (g : PReg)
  | vfmin (d a : Reg) (b : VSrc) (g : PReg)
  | vfmax (d a : Reg) (b : VSrc) (g : PReg)
  | vfsgn (o : SgnOp) (d a : Reg) (b : VSrc) (g : PReg)
  | vfdiv (r : Rm) (d a : Reg) (b : VSrc) (g : PReg)
  | vsqrt (d : Reg) (s : VSrc1) (la : La) (g : PReg)
  | vcmp (c : ICond) (p : PReg) (a : Reg) (b : VSrc) (g : PReg)
  | vfcmp (c : FCond) (p : PReg) (a : Reg) (b : VSrc) (g : PReg)
  | vsel (p : PReg) (d a : Reg) (b : VSrc) (g : PReg)
  | vmov (d a : Reg) (g : PReg)
  | vbcast (d : Reg) (s : FSrc) (g : PReg)
  | vperm (scatter : Bool) (d a : Reg) (b : VSrc) (g : PReg)
  | vslide (down : Bool) (d a : Reg) (b : VSrc) (g : PReg)
  | vzip (d a : Reg) (b : VSrc) (g : PReg)
  | vunzip (d a : Reg) (b : VSrc) (g : PReg)
  | vred (op : RedOp) (d a : Reg) (g : PReg)
  | vscan (op : RedOp) (d a : Reg) (g : PReg)
  | vclass (d a : Reg) (g : PReg)
  | pset (p : PReg) (a : Reg) (g : PReg)
  | plog (op : PLog) (p a b : PReg) (g : PReg)
  | pcnt (d : Reg) (a : PReg) (g : PReg)
  | pfirst (d : Reg) (a : PReg) (g : PReg)
  | vcvt (dst src : Ty) (r : Rm) (d a : Reg) (g : PReg)
  | vquant (f : Dx) (d a : Reg) (g : PReg)
  | vexp2 (d : Reg) (s : VSrc1) (la : La) (g : PReg)
  | vlog2 (d : Reg) (s : VSrc1) (la : La) (g : PReg)
  | vrcp (d : Reg) (s : VSrc1) (la : La) (g : PReg)
  | vrsq (d : Reg) (s : VSrc1) (la : La) (g : PReg)
  | vld (d a : Reg) (lay : Option (BitVec 3)) (la : La) (g : PReg)
  | vlds (d a b : Reg) (lay : Option (BitVec 3)) (la : La) (g : PReg)
  | vldx (d a b : Reg) (lay : Option (BitVec 3)) (la : La) (g : PReg)
  | vst (d a : Reg) (lay : Option (BitVec 3)) (g : PReg)
  | vsts (d a b : Reg) (lay : Option (BitVec 3)) (g : PReg)
  | vstx (d a b : Reg) (lay : Option (BitVec 3)) (g : PReg)
  | rfwd (wide : Bool) (d : Quad) (a : Reg) (la : La) (g : PReg)
  | rrev (d : Fin 16) (a : Quad) (b : Reg) (la : La) (g : PReg)
  | rchk (d : Reg) (a : Quad) (la : La) (g : PReg)
  | radd (d a : Quad) (b : RSrc) (g : PReg)
  | rmul (d a : Quad) (b : RSrc) (g : PReg)
  | rbase (d a : Quad) (band : Fin 4) (la : La) (g : PReg)
  -- class 10 (R45)
  | rsel (m : RMode) (g : PReg)
  | mload (d a : Reg) (c : MloadCmd) (g : PReg)
  | mswap (g : PReg)
  | mgo (transpose acc : Bool) (d a b : Reg) (c : MgoCmd) (g : PReg)
  | mshape (d a : Reg) (g : PReg)
  | mstat (d a : Reg) (g : PReg)
  | ecall (g : PReg)
  | ebreak (g : PReg)
  | eret (g : PReg)
  | wfi (g : PReg)
  | amo (op : AmoOp) (t : AmoTy) (d a b : Reg) (g : PReg)
  | cas (t : AmoTy) (d a b : Reg) (g : PReg)
  | faddx (a : Reg) (b : XV) (g : PReg)
  | cellrd (d a : Reg) (la : La) (g : PReg)
  | fence (s : Scope) (g : PReg)
  | chunk (g : PReg)
  | ifence (g : PReg)
  | mdecl (d a b : Reg) (c : MdeclCmd) (g : PReg)
  | sweep (d a : Reg) (g : PReg)
  | swstepImmediate (state : BitVec 6) (g : PReg)
  | swstepVector (b : Reg) (g : PReg)
  | swait (k : WaitKind) (g : PReg)
  | swake (a : Reg) (b : XV) (g : PReg)
  | skipset (set : Bool) (a b : Reg) (g : PReg)
  | send (mc : Bool) (a b : Reg) (ctx : Fin 11) (tag : BitVec 16) (g : PReg)
  | recv (d a : Reg) (g : PReg)
  | peek (d a : Reg) (g : PReg)
  | mon (d a b : Reg) (g : PReg)
  | mwait (d a : Reg) (g : PReg)
  | smodeX (n : Fin 4) (a : Reg) (t : IntTy) (c : StreamCmd) (g : PReg)
  | smodeV (n : Fin 4) (a : Reg) (c : StreamCmd) (g : PReg)
  | sexit (vector : Bool) (n : Fin 4) (g : PReg)
  | copy (d a b : Reg) (c : CopyCmd) (g : PReg)
  | coll (op : CollOp) (a b : Reg) (c : CollCmd) (g : PReg)
  | barinit (a b : Reg) (g : PReg)
  | bararr (a b : Reg) (g : PReg)
  | barwait (d a : Reg) (g : PReg)
  | hstart (d a : Reg) (off : W32) (g : PReg)
  | hend (g : PReg)
  | gang (a : Reg) (g : PReg)
  | split (g : PReg)
  | live (a : Reg) (g : PReg)
  | yield (g : PReg)
  | tlbw (a b : Reg) (g : PReg)
  | tlbi (a : Reg) (g : PReg)
  | tlbiAll (g : PReg)
  | replay (g : PReg)
  | xphase (g : PReg)
  | ssync (g : PReg)
  | vote (op : VoteOp) (d a : Reg) (g : PReg)
  -- the device's steps: replies to the host (R389)
  | replyWordRead (fn : Nat)
  -- fabric, inboxes, watches (R219, R255 to R269)
  | farAccessAtHome (i : Nat)
  | replySink (i : Nat)
  | sendDelivery (i : Nat)
  | sendVerdict (i : Nat)
  | sendResend (i : Nat)
  | spillRefill (core : Nat)
  | recvWake (a : Agent)
  | watchReport (core entry : Nat)
  | watchTimeout (core entry : Nat)
  | mwaitWake (a : Agent)
  -- chunks and registers (R211 to R214, R291)
  | chunkCommit (a : Agent)
  | chunkLimitClose (a : Agent)
  | registerFill (a : Agent) (xs vs : List Reg)
  -- traps and stops (R165 to R177)
  | trap (a : Agent) (cause sub : BitVec 8) (faddr : Word)
  | contextResume (a : Agent)
  | contextEnd (a : Agent)
  | preemption (rid : Nat)
  | preemptionResume (rid : Nat) (courses : List Nat)
  -- errors (R178 to R185)
  | errorBankClear (course : Nat)
  | targetedSelfTest (course : Nat) (o : TestOutcome)
  | rollback (rid : Nat)
  | regionFault (rid : Nat)
  -- supersteps, votes, barriers (R286 to R288, R353, R354, R363)
  | keystoneCompletion (rid : Nat)
  | superstepWatchdog (rid : Nat)
  | voteCompletion (rid k : Nat)
  | parkedBararrArrival (a : Agent)
  | barwaitWake (a : Agent)
  | barwaitTimeout (a : Agent)
  -- the array (R124 to R141, R372)
  | arrayJobStart (course i : Nat)
  | arrayJobCompletion (course i : Nat)
  | arraySwap (course i : Nat)
  | arrayAbandon (course : Nat)
  | arrayJoinRetry (a : Agent)
  | bandSwitchOn (course : Nat) (band : Fin 4)
  | bandPendingClear (course : Nat) (band : Fin 4)
  | bandPowerOff (course : Nat) (band : Fin 4)
  -- the copy unit, streams, collectives (R271 to R283)
  | copyElement (course i : Nat)
  | copyCompletion (course i : Nat)
  | copyEntryRetry (a : Agent)
  | streamRefill (a : Agent) (r : Fin 8)
  | streamBindingRetry (a : Agent)
  | collectiveStart (rid : Nat) (tag : BitVec 16)
  | collectiveCompletion (rid : Nat) (tag : BitVec 16) (rank : Nat)
  | reservationRetry (a : Agent)
  -- the screed engine (R239 to R250)
  | sweepStart (core : Nat)
  | sweepDispatch (core : Nat)
  | sweepStripWriteback (core : Nat)
  | sweepCompletion (core : Nat)
  | swakeApply (i : Nat)
  | skipsetApply (i : Nat)
  -- rotation (R335 to R346)
  | rotationTick
  | rotationDeferredPost (ashlar : Fin 8)
  | rotationStop (ashlar : Fin 8)
  | rotationMove (ashlar : Fin 8)
  | rotationRestart (ashlar : Fin 8)
  -- power, thermal control, boost (R366 to R382)
  | currentControl
  | boostBoundary
  | slotsUpdate (ashlar : Fin 8)
  | powerGateEntry (core : Nat)
  | hbmHeatLevel (stack : Fin 8)
  | shortfallUpdate (pkey : BitVec 16) (stack : Fin 8) (requested : Nat)
  -- bring-up and the rest (R7, R293, R295, R397, R400)
  | pendingResultLanding (a : Agent) (i : Nat)
  | fetchBufferFill (core : Nat) (line : Word)
  | arrayInjection (course i : Nat)
  | collectiveElement (rid : Nat) (tag : BitVec 16)
  | collectiveJoinRetry (a : Agent)
  -- what the host, other devices, the supervisor, the plinth, sensors and errors bring (R25, R168, R180, R322, R387 to R400)
  | launch (fn : Nat) (msg : BitVec 128) (courses : List Nat)
  | teardown (fn : Nat) (msg : BitVec 128)
  | partitionReset (fn : Nat) (msg : BitVec 128)
  | functionLevelReset (fn : Nat)
  | migrationStop (fn : Nat) (msg : BitVec 128)
  | migrationResume (fn : Nat) (msg : BitVec 128) (courses : List Nat)
  | inboundBar2Access (fn off requester : Nat) (op : InboundOp)
  | gweamFlitArrival (port : Fin 32) (pkey : BitVec 16) (op : Flit)
  | atsInvalidation (pkey : BitVec 16) (vas : List Word)
  | priResponse (course : Nat) (va : Word) (ans : MissAnswer)
  | missNotice (course : Nat) (ans : MissAnswer)
  | errorRecord (course : Nat) (e : ErrorEvent)
  | errorContainment (course : Nat) (pinned : Option Nat)
  | warmReset (lost : List Nat)
  | standbyTakeover
  | cadenceWrite (site : Nat) (v : Word)
  | issuegapWrite (site : Nat) (v : Word)
  | rstatWrite (course : Nat) (v : Word)
  | rotationControlWrite (v : Word)
  | observerUpdate (rs : List SiteReport) (models : List (Nat × BitVec 16))
  | sensorReport (i : Fin 76) (reading : BitVec 16)
  | boostWrite (v : Word)
  | bringUp (failedStage : Fin 6) (fails : List FailRecord) (images : List Firmware)
  | spdmRequest (nonce : BitVec 256)
  | registerWrite (r : WriteReg) (v : Word)
  | supervisorMessage (core tid : Nat) (tag : BitVec 16) (payload : Word)
  | atsTranslationCompletion (course : Nat) (va : Word) (ans : MissAnswer)
  | partitionCreation (fn : Nat) (pkey : BitVec 16) (ports : List (Fin 32))
  deriving DecidableEq, Repr

end Sys2Proof
end

