-- ==== Sys2Proof/WellFormed.lean ====
section
/-! DEFINITION. Well-formed instructions: what the encodings admit and the types of Sys2Proof/Syntax.lean do not say. -/

namespace Sys2Proof

/-- A 2-bit rounding field holds codes 000 to 011 (R36). -/
def Rm.wf2 (r : Rm) : Bool := r != .rna

/-- A predicate destination is not p0 (R34). -/
def PReg.wfDst (p : PReg) : Bool := p != 0

/-- Type classes of R63 and R110. -/
def Ty.isInt : Ty → Bool
  | .i8 | .i16 | .i32 | .i64 | .n8 | .n16 | .n32 | .n64 => true
  | _ => false

/-- f32, f16 and b16 (R63). -/
def Ty.isFloat : Ty → Bool
  | .f32 | .f16 | .b16 => true
  | _ => false

/-- The dx types (R35). -/
def Ty.isDx : Ty → Bool
  | .dx7 | .dx4 | .dx2 => true
  | _ => false

/-- 64-bit integer types, which `vcvt` does not take (R110). -/
def Ty.is64 : Ty → Bool
  | .i64 | .n64 => true
  | _ => false

/-- The pairs `fcvt` accepts (R63). -/
def fcvtPair (dst src : Ty) : Bool :=
  (dst.isInt && src.isFloat) || (dst.isFloat && src.isInt) || (dst.isFloat && src.isFloat)

/-- The pairs and rounding codes `vcvt` accepts (R110). -/
def vcvtPair (dst src : Ty) (r : Rm) : Bool :=
  (!dst.is64 && !src.is64 && fcvtPair dst src) || (dst == .f32 && src.isDx && r == .rne)

/-- Rounding of a binary vector operation stands in fn (R85). -/
def VBin.wf : VBin → Bool
  | .vfadd r | .vfsub r | .vfmul r | .vfma r | .vfdiv r => r.wf2
  | _ => true

/-- Class 01 forms (R44). -/
def VecForm.wf : VecForm → Bool
  | .bin op _ _ _ => op.wf
  | .cmp _ p _ _ | .fcmp _ p _ _ | .pset p _ => PReg.wfDst p
  | .plog op p _ b => PReg.wfDst p && (op != .not || b == 0)
  | .cvt dst src r _ _ => vcvtPair dst src r
  | .rfwd w _ a _ => !w || a.val % 2 == 0
  | _ => true

/-- A class 01 form that carries no literal (R42). -/
def VecForm.noLiteral : VecForm → Bool
  | .bin _ _ _ (.lit _) | .cmp _ _ _ (.lit _) | .fcmp _ _ _ (.lit _) | .bcast _ (.lit _) => false
  | .load _ _ _ (some _) _ | .store _ _ _ (some _) => false
  | _ => true

/-- The forms marked "no b" (R38). -/
def SOp.unary : SOp → Bool
  | .clz | .ctz | .popc | .sext _ | .zext _ => true
  | _ => false

/-- Scalar half of a pair (R42). -/
def ScalarHalf.wf (s : ScalarHalf) : Bool := !s.op.unary || s.b == .reg 0

/-- Counts and strides above the dimensions in use are zero (R272). -/
def StreamCmd.wf (c : StreamCmd) : Bool :=
  (decide (1 ≤ c.dims.toNat) || (c.n1 == 0 && c.s1 == 0)) &&
  (decide (2 ≤ c.dims.toNat) || (c.n2 == 0 && c.s2 == 0)) &&
  (decide (3 ≤ c.dims.toNat) || (c.n3 == 0 && c.s3 == 0))

/-- Counts and strides above the dimensions in use are zero, and the reserved bits (R279): a check of the issue (R281). -/
def CopyCmd.clean (c : CopyCmd) : Bool :=
  c.rsv == 0 && (decide (1 ≤ c.dims.toNat) || (c.n1 == 0 && c.t1 == 0 && c.u1 == 0)) &&
  (decide (2 ≤ c.dims.toNat) || (c.n2 == 0 && c.t2 == 0 && c.u2 == 0)) &&
  (decide (3 ≤ c.dims.toNat) || (c.n3 == 0 && c.t3 == 0 && c.u3 == 0))

/-- Names of contexts that exist (R15, R19). -/
def Agent.wf : Agent → Bool
  | .ctx c k t => decide (c < 256) && decide (k < 8) && decide (t < 11)
  | .quoin c => decide (c < 256)
  | .plinth => true

/-- Names of registers that exist (R386). -/
def WriteReg.wf : WriteReg → Bool
  | .csr a _ => a.wf
  | .target f | .pasid f => decide (f ≤ 64)

/-- Well-formed instructions and steps. -/
def Instr.wf : Instr → Bool
  | .fadd r _ _ _ _ | .fsub r _ _ _ _ | .fmul r _ _ _ _ | .fma r _ _ _ _ => r.wf2
  | .vfadd r _ _ _ _ | .vfsub r _ _ _ _ | .vfmul r _ _ _ _ | .vfma r _ _ _ _ | .vfdiv r _ _ _ _ => r.wf2
  | .fcvt dst src _ _ _ => fcvtPair dst src
  | .vcvt dst src r _ _ _ => vcvtPair dst src r
  | .rfwd w _ a _ _ => !w || a.val % 2 == 0
  | .pairWord _ s v => s.wf && v.wf && v.noLiteral
  | .vcmp _ p _ _ _ | .vfcmp _ p _ _ _ | .pset p _ _ => PReg.wfDst p
  | .plog op p _ b _ => PReg.wfDst p && (op != .not || b == 0)
  | .smodeX _ _ _ c _ | .smodeV _ _ c _ => c.wf
  | .recvWake a | .mwaitWake a | .chunkCommit a | .chunkLimitClose a | .registerFill a _ _ | .trap a _ _ _
  | .contextResume a | .contextEnd a | .parkedBararrArrival a | .barwaitWake a | .barwaitTimeout a | .arrayJoinRetry a
  | .copyEntryRetry a | .streamRefill a _ | .streamBindingRetry a | .reservationRetry a
  | .pendingResultLanding a _ | .collectiveJoinRetry a => a.wf
  | .priResponse c _ _ | .missNotice c _ | .errorRecord c _ | .errorBankClear c | .targetedSelfTest c _
  | .errorContainment c _ | .arrayJobStart c _ | .arrayJobCompletion c _ | .arraySwap c _ | .arrayAbandon c
  | .bandSwitchOn c _ | .bandPendingClear c _ | .bandPowerOff c _ | .rstatWrite c _ | .copyElement c _
  | .copyCompletion c _ | .arrayInjection c _ | .atsTranslationCompletion c _ _ => decide (c < 256)
  | .spillRefill k | .watchReport k _ | .watchTimeout k _ | .sweepStart k | .sweepDispatch k
  | .sweepStripWriteback k | .sweepCompletion k | .powerGateEntry k | .fetchBufferFill k _ => decide (k < 2048)
  | .supervisorMessage k _ _ _ => decide (k < 2048 ∨ (0x10000 ≤ k ∧ k < 0x10000 + 2 ^ 27))
  | .cadenceWrite s _ | .issuegapWrite s _ => decide (s < 256)
  | .launch f _ _ | .teardown f _ | .partitionReset f _ | .functionLevelReset f | .migrationStop f _
  | .migrationResume f _ _ | .replyWordRead f | .inboundBar2Access f _ _ _ | .partitionCreation f _ _ => decide (f ≤ 64)
  | .registerWrite r _ => r.wf
  | _ => true

end Sys2Proof
end

