-- ==== Sys2Proof/Decode.lean ====
section
/-! DEFINITION. The decoder, total on any words and refusing by name (spec/03), and after it the encoder, written from the
same encoding tables. A word is cut once into the eight fields that every format of R30 is made of. -/

namespace Sys2Proof

/-- Why a word is no instruction. Each raises cause 0x02 at step 3 of R47. -/
inductive DecodeError where
  | unassignedMajor | badLength | reservedField | reservedLiteral | badFunction | badType | badRounding
  | badHint | badOrder | badSize | badRegister | badPair | badCount
  deriving DecidableEq, Repr

/-- The fields of a word: 31:30, 29:24, 23:19, 18:14, 13:9, 8:6, 5:4, 3:0 (R30). -/
structure Fields where
  cls : Nat
  major : Nat
  d : Nat
  a : Nat
  b : Nat
  mid : Nat
  l : Nat
  low : Nat
  deriving DecidableEq, Repr

/-- Cut a word into its fields. -/
def unpack (w : W32) : Fields :=
  let n := w.toNat
  { cls := n / 2 ^ 30 % 4, major := n / 2 ^ 24 % 64, d := n / 2 ^ 19 % 32, a := n / 2 ^ 14 % 32,
    b := n / 2 ^ 9 % 32, mid := n / 2 ^ 6 % 8, l := n / 2 ^ 4 % 4, low := n % 16 }

/-- The word made of the fields. -/
def pack (f : Fields) : W32 :=
  BitVec.ofNat 32 (f.cls * 2 ^ 30 + f.major * 2 ^ 24 + f.d * 2 ^ 19 + f.a * 2 ^ 14 + f.b * 2 ^ 9 + f.mid * 2 ^ 6 +
    f.l * 2 ^ 4 + f.low)

/-- Literal i (R31). -/
def lit (rest : List W32) (i : Nat) : W32 := rest.getD i 0

/-- Two literals as one 64-bit value, low word first (R38). -/
def lit64 (lo hi : W32) : Word := hi ++ lo

/-- A register number (R34). -/
def regOf (n : Nat) : Reg := Fin.ofNat 32 n
/-- A predicate number (R34). -/
def pregOf (n : Nat) : PReg := Fin.ofNat 8 n
/-- A lookahead (R33). -/
def laOf (n : Nat) : La := Fin.ofNat 16 n

/-- Go on if a condition holds; refuse by name otherwise. -/
def need {α : Type} (c : Bool) (e : DecodeError) (k : Except DecodeError α) : Except DecodeError α :=
  if c then k else .error e

/-- Number of literal words an L value names (R31). -/
def litsOfL : Nat → Nat
  | 0 => 0
  | 1 => 1
  | 2 => 3
  | _ => 7

/-! ### Fields that carry codes -/

/-- Rounding code (R36). -/
def rmOf : Nat → Option Rm
  | 0 => some .rne | 1 => some .rtz | 2 => some .rdn | 3 => some .rup | 4 => some .rna
  | _ => none

/-- Code of a rounding mode (R36). -/
def Rm.code : Rm → Nat
  | .rne => 0 | .rtz => 1 | .rdn => 2 | .rup => 3 | .rna => 4

/-- Type code (R35). -/
def tyOf : Nat → Option Ty
  | 0 => some .i8 | 1 => some .i16 | 2 => some .i32 | 3 => some .i64 | 4 => some .n8 | 5 => some .n16
  | 6 => some .n32 | 7 => some .n64 | 8 => some .f32 | 9 => some .f16 | 10 => some .b16 | 11 => some .dx7
  | 12 => some .dx4 | 13 => some .dx2
  | _ => none

/-- Code of a type (R35). -/
def Ty.code : Ty → Nat
  | .i8 => 0 | .i16 => 1 | .i32 => 2 | .i64 => 3 | .n8 => 4 | .n16 => 5 | .n32 => 6 | .n64 => 7
  | .f32 => 8 | .f16 => 9 | .b16 => 10 | .dx7 => 11 | .dx4 => 12 | .dx2 => 13

/-- Integer type code (R39). -/
def intTyOf : Nat → IntTy
  | 0 => .i8 | 1 => .i16 | 2 => .i32 | 3 => .i64 | 4 => .n8 | 5 => .n16 | 6 => .n32 | _ => .n64

/-- Code of an integer type (R39). -/
def IntTy.code : IntTy → Nat
  | .i8 => 0 | .i16 => 1 | .i32 => 2 | .i64 => 3 | .n8 => 4 | .n16 => 5 | .n32 => 6 | .n64 => 7

/-- Size code of `sext` and `zext` (R38). -/
def extOf : Nat → Option ExtSize
  | 0 => some .b8 | 1 => some .b16 | 2 => some .b32
  | _ => none

/-- Code of an extension size. -/
def ExtSize.code : ExtSize → Nat
  | .b8 => 0 | .b16 => 1 | .b32 => 2

/-- `fcmp` condition (R38). -/
def fcmpOf : Nat → FCmp
  | 0 => .eq | 1 => .lt | 2 => .le | _ => .uo

/-- Code of an `fcmp` condition. -/
def FCmp.code : FCmp → Nat
  | .eq => 0 | .lt => 1 | .le => 2 | .uo => 3

/-- Sign operation (R38, R44). -/
def sgnOf : Nat → Option SgnOp
  | 0 => some .copy | 1 => some .neg | 2 => some .xor
  | _ => none

/-- Code of a sign operation. -/
def SgnOp.code : SgnOp → Nat
  | .copy => 0 | .neg => 1 | .xor => 2

/-- Branch hint (R40). -/
def hintOf : Nat → Option Hint
  | 0 => some .none | 1 => some .notTaken | 2 => some .taken
  | _ => Option.none

/-- Code of a hint. -/
def Hint.code : Hint → Nat
  | .none => 0 | .notTaken => 1 | .taken => 2

/-- Mode of `vadd` and `vsub` (R44). -/
def satOf : Nat → Option SatMode
  | 0 => some .wrap | 1 => some .sat | 2 => some .satn
  | _ => none

/-- Code of a mode. -/
def SatMode.code : SatMode → Nat
  | .wrap => 0 | .sat => 1 | .satn => 2

/-- `vcmp` condition (R89). -/
def icondOf : Nat → Option ICond
  | 0 => some .eq | 1 => some .ne | 2 => some .lt | 3 => some .ge | 4 => some .ltn | 5 => some .gen
  | _ => none

/-- Code of a `vcmp` condition. -/
def ICond.code : ICond → Nat
  | .eq => 0 | .ne => 1 | .lt => 2 | .ge => 3 | .ltn => 4 | .gen => 5

/-- `vfcmp` condition (R89). -/
def fcondOf : Nat → Option FCond
  | 0 => some .eq | 1 => some .ne | 2 => some .lt | 3 => some .le | 4 => some .uo
  | _ => none

/-- Code of a `vfcmp` condition. -/
def FCond.code : FCond → Nat
  | .eq => 0 | .ne => 1 | .lt => 2 | .le => 3 | .uo => 4

/-- Reduction operation (R94). -/
def redOf : Nat → Option RedOp
  | 0 => some .add | 1 => some .fadd | 2 => some .min | 3 => some .max | 4 => some .minn | 5 => some .maxn
  | 6 => some .fmin | 7 => some .fmax | 8 => some .and | 9 => some .or | 10 => some .xor
  | _ => none

/-- Code of a reduction. -/
def RedOp.code : RedOp → Nat
  | .add => 0 | .fadd => 1 | .min => 2 | .max => 3 | .minn => 4 | .maxn => 5 | .fmin => 6 | .fmax => 7
  | .and => 8 | .or => 9 | .xor => 10

/-- `plog` operation (R97). -/
def plogOf : Nat → Option PLog
  | 0 => some .and | 1 => some .or | 2 => some .xor | 3 => some .andn | 4 => some .not
  | _ => none

/-- Code of a `plog` operation. -/
def PLog.code : PLog → Nat
  | .and => 0 | .or => 1 | .xor => 2 | .andn => 3 | .not => 4

/-- Code of a dx format in `vquant` (R112). -/
def dxOf : Nat → Option Dx
  | 11 => some .dx7 | 12 => some .dx4 | 13 => some .dx2
  | _ => none

/-- Code of a dx format. -/
def Dx.code : Dx → Nat
  | .dx7 => 11 | .dx4 => 12 | .dx2 => 13

/-- `amo` operation (R45). -/
def amoOf : Nat → Option AmoOp
  | 0 => some .add | 1 => some .and | 2 => some .or | 3 => some .xor | 4 => some .min | 5 => some .max
  | 6 => some .minn | 7 => some .maxn | 8 => some .swap
  | _ => none

/-- Code of an `amo` operation. -/
def AmoOp.code : AmoOp → Nat
  | .add => 0 | .and => 1 | .or => 2 | .xor => 3 | .min => 4 | .max => 5 | .minn => 6 | .maxn => 7 | .swap => 8

/-- Size field of `amo` and `cas` (R45). -/
def amoTyOf : Nat → AmoTy
  | 0 => .i32 | 1 => .i64 | 2 => .n32 | _ => .n64

/-- Code of a size. -/
def AmoTy.code : AmoTy → Nat
  | .i32 => 0 | .i64 => 1 | .n32 => 2 | .n64 => 3

/-- Scope (R207). -/
def scopeOf : Nat → Option Scope
  | 0 => some .core | 1 => some .course | 2 => some .die | 3 => some .device | 4 => some .system
  | _ => none

/-- Code of a scope. -/
def Scope.code : Scope → Nat
  | .core => 0 | .course => 1 | .die => 2 | .device => 3 | .system => 4

/-- Collective (R283). -/
def collOpOf : Nat → Option CollOp
  | 0 => some .allreduce | 1 => some .allgather | 2 => some .reducescatter | 3 => some .broadcast | 4 => some .alltoall
  | _ => none

/-- Code of a collective. -/
def CollOp.code : CollOp → Nat
  | .allreduce => 0 | .allgather => 1 | .reducescatter => 2 | .broadcast => 3 | .alltoall => 4

/-- Reduction of a collective (R283). -/
def collRedOf : Nat → Option CollRed
  | 0 => some .add | 1 => some .min | 2 => some .max
  | _ => none

/-- Code of a collective's reduction. -/
def CollRed.code : CollRed → Nat
  | .add => 0 | .min => 1 | .max => 2

/-- Element type of a collective (R283). -/
def collTyOf : Nat → Option CollTy
  | 2 => some .i32 | 3 => some .i64 | 6 => some .n32 | 7 => some .n64 | 8 => some .f32
  | _ => none

/-- Code of a collective's element type. -/
def CollTy.code : CollTy → Nat
  | .i32 => 2 | .i64 => 3 | .n32 => 6 | .n64 => 7 | .f32 => 8

/-- `vote` operation (R363). -/
def voteOf : Nat → VoteOp
  | 0 => .and | 1 => .or | 2 => .min | _ => .max

/-- Code of a `vote` operation. -/
def VoteOp.code : VoteOp → Nat
  | .and => 0 | .or => 1 | .min => 2 | .max => 3

/-- Literals of a `nop` (R68). -/
def nopOf : Nat → NopLits
  | 0 => .l0 | 1 => .l1 | 2 => .l3 | _ => .l7

/-- L code of a `nop`. -/
def NopLits.code : NopLits → Nat
  | .l0 => 0 | .l1 => 1 | .l3 => 2 | .l7 => 3

/-- An optional code, refused by name where it is not listed. -/
def code {α β : Type} (o : Option α) (e : DecodeError) (k : α → Except DecodeError β) : Except DecodeError β :=
  match o with
  | some v => k v
  | none => .error e

/-! ### How many words are fetched (R31, R42, R70) -/

/-- Which majors of class 00 have an L field in bits 5:4, and which L values they accept given I (R37, R38). The first
component says whether the form has an L field; the second whether it accepts this L. -/
def lField00 (f : Fields) : Bool × Bool :=
  let i := f.mid / 4
  let s := decide (f.l = 0 ∨ (i = 1 ∧ f.l ≤ 2))
  let m := f.major
  if (1 ≤ m ∧ m ≤ 0x17) ∨ (0x1D ≤ m ∧ m ≤ 0x22) ∨ m = 0x34 ∨ m = 0x36 then (true, s)
  else if 0x18 ≤ m ∧ m ≤ 0x1C then (true, decide (f.l = 0))
  else if (0x23 ≤ m ∧ m ≤ 0x29) ∨ m = 0x2B ∨ m = 0x2C then
    (true, decide ((i = 0 ∧ f.l = 0) ∨ (i = 1 ∧ f.l = 1)))
  else if (0x2D ≤ m ∧ m ≤ 0x33) ∨ m = 0x3C ∨ m = 0x3D then (true, decide (f.l ≤ 1))
  else if m = 0x35 then (true, decide (f.l = 1))
  else if m = 0x37 then (true, true)
  else (false, false)

/-- The same for class 01 (R43). -/
def lField01 (f : Fields) : Bool × Bool :=
  let m := f.major
  if m = 0 ∨ 0x3C ≤ m ∨ m = 0x2A ∨ m = 0x2B then (false, false)
  else if (1 ≤ m ∧ m ≤ 0x0F) ∨ (0x11 ≤ m ∧ m ≤ 0x18) ∨ (0x1A ≤ m ∧ m ≤ 0x1C) ∨ m = 0x1E ∨
      (0x1F ≤ m ∧ m ≤ 0x22) ∨ (0x30 ≤ m ∧ m ≤ 0x35) then (true, decide (f.l ≤ 1))
  else (true, decide (f.l = 0))

/-- The same for class 10 (R45). -/
def lField10 (f : Fields) : Bool × Bool :=
  let m := f.major
  if m = 0 ∨ 0x30 ≤ m ∨ m = 0x0B ∨ m = 0x0C then (false, false)
  else if m = 0x01 ∨ m = 0x03 ∨ m = 0x12 ∨ m = 0x1D ∨ m = 0x1F ∨ m = 0x20 then (true, decide (f.l = 3))
  else if m = 0x18 ∨ m = 0x24 then (true, decide (f.l = 1))
  else (true, decide (f.l = 0))

/-- L field of a word of class 00, 01 or 10. -/
def lField (f : Fields) : Bool × Bool :=
  match f.cls with
  | 0 => lField00 f
  | 1 => lField01 f
  | 2 => lField10 f
  | _ => (false, false)

/-- How many words are fetched after the word at A (R31, R42). -/
def extraWords (w : W32) : Nat :=
  let f := unpack w
  if f.cls = 3 then 1
  else if (lField f).1 && (lField f).2 then litsOfL f.l else 0

/-- How many words a skipped body instruction takes (R70). -/
def skipWords (w : W32) : Nat :=
  let f := unpack w
  if f.cls = 3 then 2
  else if (lField f).1 then 1 + litsOfL f.l else 1

/-! ### Operands -/

/-- Operand b of format S (R38). -/
def srcB (f : Fields) (rest : List W32) : Except DecodeError SrcB :=
  if f.mid / 4 = 0 then need (decide (f.l = 0)) .badLength (.ok (.reg (regOf f.b)))
  else if f.l = 0 then .ok (.imm (BitVec.ofNat 5 f.b))
  else if f.l = 1 then need (decide (f.b = 0)) .reservedField (.ok (.lit (lit rest 0)))
  else if f.l = 2 then
    need (decide (f.b = 0)) .reservedField
      (need (lit rest 2 == 0) .reservedLiteral (.ok (.lit2 (lit rest 0) (lit rest 1))))
  else .error .badLength

/-- Operand b of the float majors (R38). -/
def fsrcB (f : Fields) (rest : List W32) : Except DecodeError FSrc :=
  if f.mid / 4 = 0 then need (decide (f.l = 0)) .badLength (.ok (.reg (regOf f.b)))
  else need (decide (f.l = 1)) .badLength (need (decide (f.b = 0)) .reservedField (.ok (.lit (lit rest 0))))

/-- Operand b of a binary VA form (R44). -/
def vsrc (f : Fields) (rest : List W32) : Except DecodeError VSrc :=
  if f.l = 0 then .ok (if f.low / 8 = 0 then .v (regOf f.b) else .x (regOf f.b))
  else need (decide (f.l = 1)) .badLength
    (need (decide (f.b = 0) && decide (f.low / 8 = 0)) .reservedField (.ok (.lit (lit rest 0))))

/-- Source of a unary VL form (R44). -/
def vsrc1 (f : Fields) : Except DecodeError VSrc1 :=
  need (decide (f.b % 16 = 0)) .reservedField
    (need (decide (f.l = 0)) .badLength (.ok (if f.b / 16 = 0 then .v (regOf f.a) else .x (regOf f.a))))

/-- Layout word of a vector access (R194). -/
def layout (f : Fields) (rest : List W32) : Except DecodeError (Option (BitVec 3)) :=
  if f.l = 0 then .ok none
  else need (decide (f.l = 1)) .badLength
    (need (decide ((lit rest 0).toNat < 8)) .reservedLiteral (.ok (some (BitVec.ofNat 3 (lit rest 0).toNat))))

/-- A quad field: a multiple of 4 (R34). -/
def quadOf (n : Nat) (k : Quad → Except DecodeError α) : Except DecodeError α :=
  need (decide (n % 4 = 0)) .badRegister (k (Fin.ofNat 8 (n / 4)))

/-! ### Class 00 -/

/-- Integer forms with operand b and no lookahead (R37, R38). -/
def decInt (mk : Reg → Reg → SrcB → Instr) (f : Fields) (rest : List W32) : Except DecodeError Instr :=
  need (decide (f.mid % 4 = 0) && decide (f.low = 0)) .reservedField
    (match srcB f rest with
     | .ok b => .ok (mk (regOf f.d) (regOf f.a) b)
     | .error e => .error e)

/-- Integer forms with lookahead (R37). -/
def decIntLa (mk : Reg → Reg → SrcB → La → Instr) (f : Fields) (rest : List W32) : Except DecodeError Instr :=
  need (decide (f.mid % 4 = 0)) .reservedField
    (match srcB f rest with
     | .ok b => .ok (mk (regOf f.d) (regOf f.a) b (laOf f.low))
     | .error e => .error e)

/-- Forms marked "no b" (R38); k takes the size field. -/
def decUn (f : Fields) (k : Nat → Except DecodeError Instr) : Except DecodeError Instr :=
  need (decide (f.b = 0) && decide (f.mid / 4 = 0) && decide (f.low = 0)) .reservedField
    (need (decide (f.l = 0)) .badLength (k (f.mid % 4)))

/-- Float forms (R38); k takes f2 and operand b. -/
def decFloat (f : Fields) (rest : List W32) (k : Nat → FSrc → Except DecodeError Instr) : Except DecodeError Instr :=
  match fsrcB f rest with
  | .ok b => k (f.mid % 4) b
  | .error e => .error e

/-- Branches (R40). -/
def decBranch (mk : Reg → RegImm → BrOff → Hint → Instr) (f : Fields) (rest : List W32) : Except DecodeError Instr :=
  code (hintOf (f.mid / 2)) .badHint fun h =>
    let b : RegImm := if f.mid % 2 = 0 then .reg (regOf f.b) else .imm (BitVec.ofNat 5 f.b)
    if f.l = 0 then .ok (mk (regOf f.a) b (.near (BitVec.ofNat 9 (f.d * 16 + f.low))) h)
    else need (decide (f.l = 1)) .badLength
      (need (decide (f.d = 0) && decide (f.low = 0)) .reservedField (.ok (mk (regOf f.a) b (.far (lit rest 0)) h)))

/-- CSR number of format C (R41). -/
def csrOf (f : Fields) : BitVec 12 := BitVec.ofNat 12 ((f.b * 8 + f.mid) * 16 + f.low)

/-- Class 00 (R37 to R41). -/
def decode00 (f : Fields) (rest : List W32) : Except DecodeError Instr :=
  match f.major with
  | 0x01 => decInt .add f rest
  | 0x02 => decInt .sub f rest
  | 0x03 => decInt .and f rest
  | 0x04 => decInt .or f rest
  | 0x05 => decInt .xor f rest
  | 0x06 => decInt .andn f rest
  | 0x07 => decInt .sll f rest
  | 0x08 => decInt .srl f rest
  | 0x09 => decInt .sra f rest
  | 0x0A => decInt .rol f rest
  | 0x0B => decInt .slt f rest
  | 0x0C => decInt .sltn f rest
  | 0x0D => decInt .min f rest
  | 0x0E => decInt .max f rest
  | 0x0F => decInt .minn f rest
  | 0x10 => decInt .maxn f rest
  | 0x11 => decIntLa .mul f rest
  | 0x12 => decIntLa .mulh f rest
  | 0x13 => decIntLa .mulhn f rest
  | 0x14 => decIntLa .div f rest
  | 0x15 => decIntLa .divn f rest
  | 0x16 => decIntLa .rem f rest
  | 0x17 => decIntLa .remn f rest
  | 0x18 => decUn f fun s => need (decide (s = 0)) .reservedField (.ok (.clz (regOf f.d) (regOf f.a)))
  | 0x19 => decUn f fun s => need (decide (s = 0)) .reservedField (.ok (.ctz (regOf f.d) (regOf f.a)))
  | 0x1A => decUn f fun s => need (decide (s = 0)) .reservedField (.ok (.popc (regOf f.d) (regOf f.a)))
  | 0x1B => decUn f fun s => code (extOf s) .badSize fun e => .ok (.sext e (regOf f.d) (regOf f.a))
  | 0x1C => decUn f fun s => code (extOf s) .badSize fun e => .ok (.zext e (regOf f.d) (regOf f.a))
  | 0x1D => decInt .bext f rest
  | 0x1E => decInt .bins f rest
  | 0x1F => decInt .sel f rest
  | 0x20 =>
    need (decide (f.low = 0)) .reservedField
      (need (decide (f.mid % 4 < 2)) .badFunction
        (match srcB f rest with
         | .ok b => .ok (.lim (decide (f.mid % 4 = 1)) (regOf f.d) (regOf f.a) b)
         | .error e => .error e))
  | 0x21 =>
    need (decide (f.a = 0)) .reservedField (decInt (fun d _ b => .addpc d b) f rest)
  | 0x22 =>
    need (decide (f.low = 0)) .reservedField
      (match srcB f rest with
       | .ok b => .ok (.lea (regOf f.d) (regOf f.a) b (Fin.ofNat 4 (f.mid % 4)))
       | .error e => .error e)
  | 0x23 => decFloat f rest fun s b => code (rmOf s) .badRounding fun r => .ok (.fadd r (regOf f.d) (regOf f.a) b (laOf f.low))
  | 0x24 => decFloat f rest fun s b => code (rmOf s) .badRounding fun r => .ok (.fsub r (regOf f.d) (regOf f.a) b (laOf f.low))
  | 0x25 => decFloat f rest fun s b => code (rmOf s) .badRounding fun r => .ok (.fmul r (regOf f.d) (regOf f.a) b (laOf f.low))
  | 0x26 => decFloat f rest fun s b => code (rmOf s) .badRounding fun r => .ok (.fma r (regOf f.d) (regOf f.a) b (laOf f.low))
  | 0x27 => decFloat f rest fun s b => need (decide (s = 0)) .reservedField (.ok (.fmin (regOf f.d) (regOf f.a) b (laOf f.low)))
  | 0x28 => decFloat f rest fun s b => need (decide (s = 0)) .reservedField (.ok (.fmax (regOf f.d) (regOf f.a) b (laOf f.low)))
  | 0x29 => decFloat f rest fun s b => .ok (.fcmp (fcmpOf s) (regOf f.d) (regOf f.a) b (laOf f.low))
  | 0x2A =>
    need (decide (f.l = 0) && decide (f.low < 8)) .reservedField
      (code (tyOf (f.b / 2)) .badType fun dst =>
        code (tyOf (f.b % 2 * 8 + f.mid)) .badType fun src =>
          code (rmOf f.low) .badRounding fun r =>
            need (fcvtPair dst src) .badType (.ok (.fcvt dst src r (regOf f.d) (regOf f.a))))
  | 0x2B =>
    need (decide (f.mid % 4 = 0) && decide (f.b = 0)) .reservedField
      (if f.mid / 4 = 0 then need (decide (f.l = 0)) .badLength (.ok (.fclass (regOf f.d) (.reg (regOf f.a)) (laOf f.low)))
       else need (decide (f.l = 1)) .badLength
        (need (decide (f.a = 0)) .reservedField (.ok (.fclass (regOf f.d) (.lit (lit rest 0)) (laOf f.low)))))
  | 0x2C => decFloat f rest fun s b => code (sgnOf s) .badFunction fun o => .ok (.fsgn o (regOf f.d) (regOf f.a) b (laOf f.low))
  | 0x2D => decBranch .beq f rest
  | 0x2E => decBranch .bne f rest
  | 0x2F => decBranch .blt f rest
  | 0x30 => decBranch .bge f rest
  | 0x31 => decBranch .bltn f rest
  | 0x32 => decBranch .bgen f rest
  | 0x33 =>
    if f.l = 0 then
      .ok (.jal (regOf f.d) (.near (BitVec.ofNat 17 (((f.a * 32 + f.b) * 8 + f.mid) * 16 + f.low))))
    else need (decide (f.l = 1)) .badLength
      (need (decide (f.a = 0) && decide (f.b = 0) && decide (f.mid = 0) && decide (f.low = 0)) .reservedField
        (.ok (.jal (regOf f.d) (.far (lit rest 0)))))
  | 0x34 => decInt .jalr f rest
  | 0x35 =>
    need (decide (f.l = 1)) .badLength
      (need (decide (f.d = 0) && decide (f.mid = 0) && decide (f.low = 0)) .reservedField
        (.ok (.jtab (regOf f.a) (regOf f.b) (lit rest 0))))
  | 0x36 =>
    need (decide (f.a = 0)) .reservedField (decInt (fun d _ b => .rep d b) f rest)
  | 0x37 =>
    need (decide (f.d = 0) && decide (f.a = 0) && decide (f.b = 0) && decide (f.mid = 0) && decide (f.low = 0))
      .reservedField
      (.ok (.nop (nopOf f.l)))
  | 0x38 =>
    need (decide (f.a = 0) && decide (f.l = 0)) .reservedField (.ok (.csrr (regOf f.d) (csrOf f)))
  | 0x39 => need (decide (f.l = 0)) .reservedField (.ok (.csrw (regOf f.d) (regOf f.a) (csrOf f)))
  | 0x3A => need (decide (f.l = 0)) .reservedField (.ok (.csrs (regOf f.d) (regOf f.a) (csrOf f)))
  | 0x3B => need (decide (f.l = 0)) .reservedField (.ok (.csrc (regOf f.d) (regOf f.a) (csrOf f)))
  | 0x3C =>
    need (decide (f.mid = 0)) .reservedField
      (need (decide (f.l ≤ 1)) .badLength
        (need (decide (f.b % 4 < 2)) .badOrder
          (.ok (.ld (intTyOf (f.b / 4)) (if f.b % 4 = 0 then .plain else .acq) (regOf f.d) (regOf f.a)
            (if f.l = 0 then none else some (lit rest 0)) (laOf f.low)))))
  | 0x3D =>
    need (decide (f.mid = 0) && decide (f.low = 0)) .reservedField
      (need (decide (f.l ≤ 1)) .badLength
        (need (decide (f.b % 4 = 0) || decide (f.b % 4 = 2)) .badOrder
          (.ok (.st (intTyOf (f.b / 4)) (if f.b % 4 = 0 then .plain else .rel) (regOf f.d) (regOf f.a)
            (if f.l = 0 then none else some (lit rest 0))))))
  | _ => .error .unassignedMajor

/-! ### Class 01 -/

/-- Binary forms whose fn is given by k (R44). -/
def decVBin (f : Fields) (rest : List W32) (o : Option VBin) : Except DecodeError VecForm :=
  code o .badFunction fun op =>
    match vsrc f rest with
    | .ok b => .ok (.bin op (regOf f.d) (regOf f.a) b)
    | .error e => .error e

/-- An operation with no function field. -/
def noFn (f : Fields) (op : VBin) : Option VBin := if f.low % 8 = 0 then some op else none

/-- The dynamic rounding of a float form: fn 000 to 011 (R85). -/
def rm2 (f : Fields) (mk : Rm → VBin) : Option VBin :=
  if f.low % 8 < 4 then (rmOf (f.low % 8)).map mk else none

/-- A predicate destination (R34). -/
def pdst (f : Fields) (k : PReg → Except DecodeError VecForm) : Except DecodeError VecForm :=
  need (decide (f.d < 8) && decide (f.d ≠ 0)) .badRegister (k (pregOf f.d))

/-- Unary VA forms: b, bs and fn reserved, L 00 (R44). -/
def decVUn (f : Fields) (k : Except DecodeError VecForm) : Except DecodeError VecForm :=
  need (decide (f.b = 0) && decide (f.low = 0)) .reservedField (need (decide (f.l = 0)) .badLength k)

/-- Class 01 (R43, R44). -/
def decodeVec (f : Fields) (rest : List W32) : Except DecodeError VecForm :=
  match f.major with
  | 0x01 => decVBin f rest ((satOf (f.low % 8)).map .vadd)
  | 0x02 => decVBin f rest ((satOf (f.low % 8)).map .vsub)
  | 0x03 => decVBin f rest (noFn f .vmul)
  | 0x04 => decVBin f rest (if f.low % 8 < 2 then some (.vmulh (decide (f.low % 8 = 1))) else none)
  | 0x05 => decVBin f rest (noFn f .vmac)
  | 0x06 => decVBin f rest (noFn f .vand)
  | 0x07 => decVBin f rest (noFn f .vor)
  | 0x08 => decVBin f rest (noFn f .vxor)
  | 0x09 => decVBin f rest (noFn f .vsll)
  | 0x0A => decVBin f rest (noFn f .vsrl)
  | 0x0B => decVBin f rest (noFn f .vsra)
  | 0x0C => decVBin f rest (noFn f .vmin)
  | 0x0D => decVBin f rest (noFn f .vmax)
  | 0x0E => decVBin f rest (noFn f .vminn)
  | 0x0F => decVBin f rest (noFn f .vmaxn)
  | 0x10 => decVUn f (.ok (.abs (regOf f.d) (regOf f.a)))
  | 0x11 => decVBin f rest (rm2 f .vfadd)
  | 0x12 => decVBin f rest (rm2 f .vfsub)
  | 0x13 => decVBin f rest (rm2 f .vfmul)
  | 0x14 => decVBin f rest (rm2 f .vfma)
  | 0x15 => decVBin f rest (noFn f .vfmin)
  | 0x16 => decVBin f rest (noFn f .vfmax)
  | 0x17 => decVBin f rest ((sgnOf (f.low % 8)).map .vfsgn)
  | 0x18 => decVBin f rest (rm2 f .vfdiv)
  | 0x19 =>
    (match vsrc1 f with
     | .ok s => .ok (.sqrt (regOf f.d) s (laOf f.low))
     | .error e => .error e)
  | 0x1A => pdst f fun p => code (icondOf (f.low % 8)) .badFunction fun c =>
    (match vsrc f rest with
     | .ok b => .ok (.cmp c p (regOf f.a) b)
     | .error e => .error e)
  | 0x1B => pdst f fun p => code (fcondOf (f.low % 8)) .badFunction fun c =>
    (match vsrc f rest with
     | .ok b => .ok (.fcmp c p (regOf f.a) b)
     | .error e => .error e)
  | 0x1C => decVBin f rest (some (.vsel (pregOf (f.low % 8))))
  | 0x1D => decVUn f (.ok (.mov (regOf f.d) (regOf f.a)))
  | 0x1E =>
    need (decide (f.b = 0) && decide (f.low = 0)) .reservedField
      (if f.l = 0 then .ok (.bcast (regOf f.d) (.reg (regOf f.a)))
       else need (decide (f.l = 1)) .badLength
        (need (decide (f.a = 0)) .reservedField (.ok (.bcast (regOf f.d) (.lit (lit rest 0))))))
  | 0x1F => decVBin f rest (if f.low % 8 < 2 then some (.vperm (decide (f.low % 8 = 1))) else none)
  | 0x20 => decVBin f rest (if f.low % 8 < 2 then some (.vslide (decide (f.low % 8 = 1))) else none)
  | 0x21 => decVBin f rest (noFn f .vzip)
  | 0x22 => decVBin f rest (noFn f .vunzip)
  | 0x23 =>
    need (decide (f.low = 0)) .reservedField (need (decide (f.l = 0)) .badLength
      (code (redOf f.b) .badFunction fun op => .ok (.red op (regOf f.d) (regOf f.a))))
  | 0x24 =>
    need (decide (f.low = 0)) .reservedField (need (decide (f.l = 0)) .badLength
      (code (redOf f.b) .badFunction fun op => .ok (.scan op (regOf f.d) (regOf f.a))))
  | 0x25 => decVUn f (.ok (.cls (regOf f.d) (regOf f.a)))
  | 0x26 => decVUn f (pdst f fun p => .ok (.pset p (regOf f.a)))
  | 0x27 =>
    need (decide (f.l = 0)) .badLength
      (need (decide (f.a < 8) && decide (f.b < 8) && decide (f.low < 8)) .reservedField
        (pdst f fun p => code (plogOf f.low) .badFunction fun op =>
          need (op != .not || decide (f.b = 0)) .reservedField (.ok (.plog op p (pregOf f.a) (pregOf f.b)))))
  | 0x28 => decVUn f (need (decide (f.a < 8)) .reservedField (.ok (.pcnt (regOf f.d) (pregOf f.a))))
  | 0x29 => decVUn f (need (decide (f.a < 8)) .reservedField (.ok (.pfirst (regOf f.d) (pregOf f.a))))
  | 0x2A =>
    code (tyOf (f.b / 2)) .badType fun dst =>
      code (tyOf f.low) .badType fun src =>
        code (rmOf (f.b % 2 * 4 + f.l)) .badRounding fun r =>
          need (vcvtPair dst src r) .badType (.ok (.cvt dst src r (regOf f.d) (regOf f.a)))
  | 0x2B =>
    need (decide (f.b % 2 = 0) && decide (f.l = 0) && decide (f.low = 0)) .reservedField
      (code (dxOf (f.b / 2)) .badType fun x => .ok (.quant x (regOf f.d) (regOf f.a)))
  | 0x2C => (match vsrc1 f with
     | .ok s => .ok (.fu .exp2 (regOf f.d) s (laOf f.low))
     | .error e => .error e)
  | 0x2D => (match vsrc1 f with
     | .ok s => .ok (.fu .log2 (regOf f.d) s (laOf f.low))
     | .error e => .error e)
  | 0x2E => (match vsrc1 f with
     | .ok s => .ok (.fu .rcp (regOf f.d) s (laOf f.low))
     | .error e => .error e)
  | 0x2F => (match vsrc1 f with
     | .ok s => .ok (.fu .rsq (regOf f.d) s (laOf f.low))
     | .error e => .error e)
  | 0x30 => need (decide (f.b = 0)) .reservedField
    (match layout f rest with
     | .ok y => .ok (.load .unit (regOf f.d) (regOf f.a) y (laOf f.low))
     | .error e => .error e)
  | 0x31 => (match layout f rest with
     | .ok y => .ok (.load (.stride (regOf f.b)) (regOf f.d) (regOf f.a) y (laOf f.low))
     | .error e => .error e)
  | 0x32 => (match layout f rest with
     | .ok y => .ok (.load (.index (regOf f.b)) (regOf f.d) (regOf f.a) y (laOf f.low))
     | .error e => .error e)
  | 0x33 => need (decide (f.b = 0) && decide (f.low = 0)) .reservedField
    (match layout f rest with
     | .ok y => .ok (.store .unit (regOf f.d) (regOf f.a) y)
     | .error e => .error e)
  | 0x34 => need (decide (f.low = 0)) .reservedField
    (match layout f rest with
     | .ok y => .ok (.store (.stride (regOf f.b)) (regOf f.d) (regOf f.a) y)
     | .error e => .error e)
  | 0x35 => need (decide (f.low = 0)) .reservedField
    (match layout f rest with
     | .ok y => .ok (.store (.index (regOf f.b)) (regOf f.d) (regOf f.a) y)
     | .error e => .error e)
  | 0x36 =>
    need (decide (f.l = 0)) .badLength (need (decide (f.b = 2) || decide (f.b = 3)) .badType
      (quadOf f.d fun q =>
        need (decide (f.b = 2) || decide (f.a % 2 = 0)) .badRegister
          (.ok (.rfwd (decide (f.b = 3)) q (regOf f.a) (laOf f.low)))))
  | 0x37 =>
    need (decide (f.l = 0)) .badLength (need (decide (f.d % 2 = 0)) .badRegister
      (quadOf f.a fun q => .ok (.rrev (Fin.ofNat 16 (f.d / 2)) q (regOf f.b) (laOf f.low))))
  | 0x38 =>
    need (decide (f.l = 0)) .badLength (need (decide (f.b = 0)) .reservedField
      (quadOf f.a fun q => .ok (.rchk (regOf f.d) q (laOf f.low))))
  | 0x39 =>
    need (decide (f.l = 0)) .badLength (need (decide (f.low % 8 = 0)) .badFunction
      (quadOf f.d fun d => quadOf f.a fun a =>
        if f.low / 8 = 0 then quadOf f.b fun b => .ok (.radd d a (.q b)) else .ok (.radd d a (.x (regOf f.b)))))
  | 0x3A =>
    need (decide (f.l = 0)) .badLength (need (decide (f.low % 8 = 0)) .badFunction
      (quadOf f.d fun d => quadOf f.a fun a =>
        if f.low / 8 = 0 then quadOf f.b fun b => .ok (.rmul d a (.q b)) else .ok (.rmul d a (.x (regOf f.b)))))
  | 0x3B =>
    need (decide (f.l = 0)) .badLength (need (decide (f.b < 4)) .reservedField
      (quadOf f.d fun d => quadOf f.a fun a => .ok (.rbase d a (Fin.ofNat 4 f.b) (laOf f.low))))
  | _ => .error .unassignedMajor

/-- The instruction of a class 01 form under guard g. -/
def Instr.ofVec (v : VecForm) (g : PReg) : Instr :=
  match v with
  | .bin op d a b =>
    match op with
    | .vadd m => .vadd m d a b g
    | .vsub m => .vsub m d a b g
    | .vmul => .vmul d a b g
    | .vmulh u => .vmulh u d a b g
    | .vmac => .vmac d a b g
    | .vand => .vand d a b g
    | .vor => .vor d a b g
    | .vxor => .vxor d a b g
    | .vsll => .vsll d a b g
    | .vsrl => .vsrl d a b g
    | .vsra => .vsra d a b g
    | .vmin => .vmin d a b g
    | .vmax => .vmax d a b g
    | .vminn => .vminn d a b g
    | .vmaxn => .vmaxn d a b g
    | .vfadd r => .vfadd r d a b g
    | .vfsub r => .vfsub r d a b g
    | .vfmul r => .vfmul r d a b g
    | .vfma r => .vfma r d a b g
    | .vfmin => .vfmin d a b g
    | .vfmax => .vfmax d a b g
    | .vfsgn o => .vfsgn o d a b g
    | .vfdiv r => .vfdiv r d a b g
    | .vsel p => .vsel p d a b g
    | .vperm s => .vperm s d a b g
    | .vslide s => .vslide s d a b g
    | .vzip => .vzip d a b g
    | .vunzip => .vunzip d a b g
  | .cmp c p a b => .vcmp c p a b g
  | .fcmp c p a b => .vfcmp c p a b g
  | .abs d a => .vabs d a g
  | .mov d a => .vmov d a g
  | .cls d a => .vclass d a g
  | .sqrt d s la => .vsqrt d s la g
  | .fu .exp2 d s la => .vexp2 d s la g
  | .fu .log2 d s la => .vlog2 d s la g
  | .fu .rcp d s la => .vrcp d s la g
  | .fu .rsq d s la => .vrsq d s la g
  | .bcast d s => .vbcast d s g
  | .red op d a => .vred op d a g
  | .scan op d a => .vscan op d a g
  | .pset p a => .pset p a g
  | .plog op p a b => .plog op p a b g
  | .pcnt d a => .pcnt d a g
  | .pfirst d a => .pfirst d a g
  | .cvt dst src r d a => .vcvt dst src r d a g
  | .quant f d a => .vquant f d a g
  | .load .unit d a y la => .vld d a y la g
  | .load (.stride b) d a y la => .vlds d a b y la g
  | .load (.index b) d a y la => .vldx d a b y la g
  | .store .unit d a y => .vst d a y g
  | .store (.stride b) d a y => .vsts d a b y g
  | .store (.index b) d a y => .vstx d a b y g
  | .rfwd w d a la => .rfwd w d a la g
  | .rrev d a b la => .rrev d a b la g
  | .rchk d a la => .rchk d a la g
  | .radd d a b => .radd d a b g
  | .rmul d a b => .rmul d a b g
  | .rbase d a n la => .rbase d a n la g

/-! ### Class 10 -/

/-- Forms with L 00 and bits 3:0 zero; the flags say which of d, a, b are reserved (R45). -/
def decE (f : Fields) (dz az bz : Bool) (k : PReg → Except DecodeError Instr) : Except DecodeError Instr :=
  need (decide (f.l = 0)) .badLength
    (need ((!dz || decide (f.d = 0)) && (!az || decide (f.a = 0)) && (!bz || decide (f.b = 0)) && decide (f.low = 0))
      .reservedField (k (pregOf f.mid)))

/-- A bit field of a literal. -/
def litBits (w : W32) (lo n : Nat) : Nat := w.toNat / 2 ^ lo % 2 ^ n

/-- Command word of `mload` (R133). -/
def decMload (f : Fields) (r : List W32) : Except DecodeError Instr :=
  need (decide (f.b = 0) && decide (f.low = 0)) .reservedField
    (need (decide (litBits (lit r 0) 16 16 = 0) && decide (litBits (lit r 2) 3 29 = 0) && (lit r 3 == 0) && (lit r 4 == 0) &&
        (lit r 5 == 0) && (lit r 6 == 0)) .reservedLiteral
      (.ok (.mload (regOf f.d) (regOf f.a)
        { tag := BitVec.ofNat 16 (litBits (lit r 0) 0 16), stride := lit r 1, swz := BitVec.ofNat 3 (litBits (lit r 2) 0 3) }
        (pregOf f.mid))))

/-- Command word of `mgo` (R134). -/
def decMgo (f : Fields) (r : List W32) : Except DecodeError Instr :=
  need (decide (f.low < 4)) .reservedField
    (need (decide (litBits (lit r 1) 12 20 = 0) && decide (litBits (lit r 5) 6 26 = 0) && (lit r 6 == 0)) .reservedLiteral
      (.ok (.mgo (decide (f.low % 2 = 1)) (decide (f.low / 2 = 1)) (regOf f.d) (regOf f.a) (regOf f.b)
        { tag := BitVec.ofNat 16 (litBits (lit r 0) 0 16), rows := BitVec.ofNat 16 (litBits (lit r 0) 16 16),
          groups := BitVec.ofNat 8 (litBits (lit r 1) 0 8), bands := BitVec.ofNat 4 (litBits (lit r 1) 8 4),
          astride := lit r 2, ostride := lit r 3, scale := lit r 4,
          aswz := BitVec.ofNat 3 (litBits (lit r 5) 0 3), oswz := BitVec.ofNat 3 (litBits (lit r 5) 3 3) }
        (pregOf f.mid))))

/-- Command word of `mdecl` (R236). -/
def decMdecl (f : Fields) (r : List W32) : Except DecodeError Instr :=
  need (decide (f.low = 0)) .reservedField
    (need (decide (litBits (lit r 0) 26 6 = 0) && decide (litBits (lit r 5) 22 10 = 0) && (lit r 6 == 0)) .reservedLiteral
      (.ok (.mdecl (regOf f.d) (regOf f.a) (regOf f.b)
        { tag := BitVec.ofNat 16 (litBits (lit r 0) 0 16), states := BitVec.ofNat 6 (litBits (lit r 0) 16 6),
          esize := BitVec.ofNat 2 (litBits (lit r 0) 22 2), slot := BitVec.ofNat 2 (litBits (lit r 0) 24 2),
          skip := lit64 (lit r 1) (lit r 2), table := lit64 (lit r 3) (lit r 4),
          count := BitVec.ofNat 22 (litBits (lit r 5) 0 22) } (pregOf f.mid))))

/-- Command word of `smode` (R272). -/
def streamCmd (r : List W32) (k : StreamCmd → Except DecodeError Instr) : Except DecodeError Instr :=
  let c : StreamCmd :=
    { tag := BitVec.ofNat 16 (litBits (lit r 0) 0 16), dims := BitVec.ofNat 2 (litBits (lit r 0) 16 2),
      swz := BitVec.ofNat 3 (litBits (lit r 0) 21 3),
      n0 := BitVec.ofNat 16 (litBits (lit r 1) 0 16), n1 := BitVec.ofNat 16 (litBits (lit r 1) 16 16),
      n2 := BitVec.ofNat 16 (litBits (lit r 2) 0 16), n3 := BitVec.ofNat 16 (litBits (lit r 2) 16 16),
      s0 := lit r 3, s1 := lit r 4, s2 := lit r 5, s3 := lit r 6 }
  need (decide (litBits (lit r 0) 18 3 = 0) && decide (litBits (lit r 0) 24 8 = 0) && c.wf) .reservedLiteral (k c)

/-- Command bits 255:48 of `copy` as one number: literal 0's upper half, then literals 1 to 6. -/
def cmdNat (r : List W32) : Nat :=
  (lit r 0).toNat / 2 ^ 16 + 2 ^ 16 * ((lit r 1).toNat + 2 ^ 32 * ((lit r 2).toNat + 2 ^ 32 * ((lit r 3).toNat +
    2 ^ 32 * ((lit r 4).toNat + 2 ^ 32 * ((lit r 5).toNat + 2 ^ 32 * (lit r 6).toNat)))))

/-- Command word of `copy` (R279): positions are those of the command word, less 48. -/
def decCopy (f : Fields) (r : List W32) : Except DecodeError Instr :=
  let n := cmdNat r
  let fld (lo w : Nat) : Nat := n / 2 ^ (lo - 48) % 2 ^ w
  let c : CopyCmd :=
    { tag := BitVec.ofNat 16 (litBits (lit r 0) 0 16), dims := BitVec.ofNat 2 (f.low / 4), esize := BitVec.ofNat 2 (f.low % 4),
      n0 := BitVec.ofNat 16 (fld 48 16), n1 := BitVec.ofNat 16 (fld 64 16),
      n2 := BitVec.ofNat 16 (fld 80 16), n3 := BitVec.ofNat 16 (fld 96 16),
      t1 := BitVec.ofNat 22 (fld 112 22), t2 := BitVec.ofNat 22 (fld 134 22), t3 := BitVec.ofNat 22 (fld 156 22),
      u1 := BitVec.ofNat 22 (fld 178 22), u2 := BitVec.ofNat 22 (fld 200 22), u3 := BitVec.ofNat 22 (fld 222 22),
      sswz := BitVec.ofNat 3 (fld 244 3), dswz := BitVec.ofNat 3 (fld 247 3), rsv := BitVec.ofNat 6 (fld 250 6) }
  .ok (.copy (regOf f.d) (regOf f.a) (regOf f.b) c (pregOf f.mid))

/-- Command word of `coll` (R283). -/
def decColl (f : Fields) (r : List W32) : Except DecodeError Instr :=
  need (decide (f.d = 0)) .reservedField
    (code (collOpOf f.low) .badFunction fun op =>
      need (decide (litBits (lit r 0) 28 4 = 0) && decide (litBits (lit r 1) 12 4 = 0) && decide (litBits (lit r 1) 22 10 = 0) &&
          decide (litBits (lit r 5) 11 21 = 0) && (lit r 6 == 0)) .reservedLiteral
        (code (collTyOf (litBits (lit r 1) 16 4)) .badType fun ty =>
          code (collRedOf (litBits (lit r 1) 20 2)) .badFunction fun red =>
            .ok (.coll op (regOf f.a) (regOf f.b)
              { tag := BitVec.ofNat 16 (litBits (lit r 0) 0 16), ranks := BitVec.ofNat 12 (litBits (lit r 0) 16 12),
                rank := BitVec.ofNat 12 (litBits (lit r 1) 0 12), ty := ty, red := red, n := lit r 2,
                out := lit64 (lit r 3) (lit r 4), root := BitVec.ofNat 11 (litBits (lit r 5) 0 11) } (pregOf f.mid))))

/-- Class 10 (R45). -/
def decode10 (f : Fields) (r : List W32) : Except DecodeError Instr :=
  match f.major with
  | 0x01 => need (decide (f.l = 3)) .badLength (decMload f r)
  | 0x02 => decE f true true true fun g => .ok (.mswap g)
  | 0x03 => need (decide (f.l = 3)) .badLength (decMgo f r)
  | 0x04 => decE f false false true fun g => .ok (.mshape (regOf f.d) (regOf f.a) g)
  | 0x05 => decE f false false true fun g => .ok (.mstat (regOf f.d) (regOf f.a) g)
  | 0x06 =>
    need (decide (f.l = 0)) .badLength
      (need (decide (f.d = 0) && decide (f.a = 0) && decide (f.b = 0)) .reservedField
        (match f.low % 4 with
         | 0 => need (decide (f.low / 4 = 0)) .badFunction (.ok (.rsel .normal (pregOf f.mid)))
         | 1 => .ok (.rsel (.ufull (Fin.ofNat 4 (f.low / 4))) (pregOf f.mid))
         | 2 => need (decide (f.low / 4 < 3)) .badFunction (.ok (.rsel (.cred (Fin.ofNat 3 (f.low / 4))) (pregOf f.mid)))
         | _ => .error .badFunction))
  | 0x07 => decE f true true true fun g => .ok (.ecall g)
  | 0x08 => decE f true true true fun g => .ok (.ebreak g)
  | 0x09 => decE f true true true fun g => .ok (.eret g)
  | 0x0A => decE f true true true fun g => .ok (.wfi g)
  | 0x0B => code (amoOf f.low) .badFunction fun op =>
    .ok (.amo op (amoTyOf f.l) (regOf f.d) (regOf f.a) (regOf f.b) (pregOf f.mid))
  | 0x0C => need (decide (f.low = 0)) .reservedField
    (.ok (.cas (amoTyOf f.l) (regOf f.d) (regOf f.a) (regOf f.b) (pregOf f.mid)))
  | 0x0D =>
    need (decide (f.l = 0)) .badLength (need (decide (f.d = 0) && decide (f.low < 2)) .reservedField
      (.ok (.faddx (regOf f.a) (if f.low = 0 then .x (regOf f.b) else .v (regOf f.b)) (pregOf f.mid))))
  | 0x0E =>
    need (decide (f.l = 0)) .badLength (need (decide (f.b = 0)) .reservedField
      (.ok (.cellrd (regOf f.d) (regOf f.a) (laOf f.low) (pregOf f.mid))))
  | 0x0F =>
    need (decide (f.l = 0)) .badLength (need (decide (f.d = 0) && decide (f.a = 0) && decide (f.b = 0)) .reservedField
      (code (scopeOf f.low) .badFunction fun s => .ok (.fence s (pregOf f.mid))))
  | 0x10 => decE f true true true fun g => .ok (.chunk g)
  | 0x11 => decE f true true true fun g => .ok (.ifence g)
  | 0x12 => need (decide (f.l = 3)) .badLength (decMdecl f r)
  | 0x13 => decE f false false true fun g => .ok (.sweep (regOf f.d) (regOf f.a) g)
  | 0x14 =>
    need (decide (f.l = 0)) .badLength (need (decide (f.d = 0) && decide (f.low < 2)) .reservedField
      (if f.low = 0 then
        need (decide (f.a < 2)) .reservedField (.ok (.swstepImmediate (BitVec.ofNat 6 (f.a * 32 + f.b)) (pregOf f.mid)))
       else need (decide (f.a = 0)) .reservedField (.ok (.swstepVector (regOf f.b) (pregOf f.mid)))))
  | 0x15 =>
    need (decide (f.l = 0)) .badLength (need (decide (f.d = 0) && decide (f.a = 0) && decide (f.low < 4)) .reservedField
      (match f.low with
       | 0 => need (decide (f.b = 0)) .reservedField (.ok (.swait .next (pregOf f.mid)))
       | 1 => .ok (.swait (.delay (regOf f.b)) (pregOf f.mid))
       | 2 => .ok (.swait (.wake (regOf f.b)) (pregOf f.mid))
       | _ => need (decide (f.b = 0)) .reservedField (.ok (.swait .done (pregOf f.mid)))))
  | 0x16 =>
    need (decide (f.l = 0)) .badLength (need (decide (f.d = 0) && decide (f.low < 2)) .reservedField
      (.ok (.swake (regOf f.a) (if f.low = 0 then .x (regOf f.b) else .v (regOf f.b)) (pregOf f.mid))))
  | 0x17 =>
    need (decide (f.l = 0)) .badLength (need (decide (f.d = 0) && decide (f.low < 2)) .reservedField
      (.ok (.skipset (decide (f.low = 1)) (regOf f.a) (regOf f.b) (pregOf f.mid))))
  | 0x18 =>
    need (decide (f.l = 1)) .badLength (need (decide (f.d = 0) && decide (f.low < 2)) .reservedField
      (need (decide (litBits (lit r 0) 20 12 = 0)) .reservedLiteral
        (need (decide (litBits (lit r 0) 16 4 < 11)) .badFunction
          (.ok (.send (decide (f.low = 1)) (regOf f.a) (regOf f.b) (Fin.ofNat 11 (litBits (lit r 0) 16 4))
            (BitVec.ofNat 16 (litBits (lit r 0) 0 16)) (pregOf f.mid))))))
  | 0x19 => decE f false false true fun g => .ok (.recv (regOf f.d) (regOf f.a) g)
  | 0x1A => decE f false false true fun g => .ok (.peek (regOf f.d) (regOf f.a) g)
  | 0x1B => decE f false false false fun g => .ok (.mon (regOf f.d) (regOf f.a) (regOf f.b) g)
  | 0x1C => decE f false false true fun g => .ok (.mwait (regOf f.d) (regOf f.a) g)
  | 0x1D =>
    need (decide (f.l = 3)) .badLength (need (decide (24 ≤ f.d) && decide (f.d < 28)) .badRegister
      (if f.b = 0 then
        need (decide (f.low < 8)) .badType
          (streamCmd r fun c => .ok (.smodeX (Fin.ofNat 4 (f.d - 24)) (regOf f.a) (intTyOf f.low) c (pregOf f.mid)))
       else
        need (decide (f.b = 1) && decide (f.low = 0)) .reservedField
          (streamCmd r fun c => .ok (.smodeV (Fin.ofNat 4 (f.d - 24)) (regOf f.a) c (pregOf f.mid)))))
  | 0x1E =>
    need (decide (f.l = 0)) .badLength (need (decide (24 ≤ f.d) && decide (f.d < 28)) .badRegister
      (need (decide (f.a = 0) && decide (f.b < 2) && decide (f.low = 0)) .reservedField
        (.ok (.sexit (decide (f.b = 1)) (Fin.ofNat 4 (f.d - 24)) (pregOf f.mid)))))
  | 0x1F => need (decide (f.l = 3)) .badLength (decCopy f r)
  | 0x20 => need (decide (f.l = 3)) .badLength (decColl f r)
  | 0x21 => decE f true false false fun g => .ok (.barinit (regOf f.a) (regOf f.b) g)
  | 0x22 => decE f true false false fun g => .ok (.bararr (regOf f.a) (regOf f.b) g)
  | 0x23 => decE f false false true fun g => .ok (.barwait (regOf f.d) (regOf f.a) g)
  | 0x24 =>
    need (decide (f.l = 1)) .badLength (need (decide (f.b = 0) && decide (f.low = 0)) .reservedField
      (.ok (.hstart (regOf f.d) (regOf f.a) (lit r 0) (pregOf f.mid))))
  | 0x25 => decE f true true true fun g => .ok (.hend g)
  | 0x26 => decE f true false true fun g => .ok (.gang (regOf f.a) g)
  | 0x27 => decE f true true true fun g => .ok (.split g)
  | 0x28 => decE f true false true fun g => .ok (.live (regOf f.a) g)
  | 0x29 => decE f true true true fun g => .ok (.yield g)
  | 0x2A => decE f true false false fun g => .ok (.tlbw (regOf f.a) (regOf f.b) g)
  | 0x2B =>
    need (decide (f.l = 0)) .badLength (need (decide (f.d = 0) && decide (f.b = 0) && decide (f.low < 2)) .reservedField
      (if f.low = 0 then .ok (.tlbi (regOf f.a) (pregOf f.mid))
       else need (decide (f.a = 0)) .reservedField (.ok (.tlbiAll (pregOf f.mid)))))
  | 0x2C => decE f true true true fun g => .ok (.replay g)
  | 0x2D => decE f true true true fun g => .ok (.xphase g)
  | 0x2E => decE f true true true fun g => .ok (.ssync g)
  | 0x2F =>
    need (decide (f.l = 0)) .badLength (need (decide (f.b = 0) && decide (f.low < 4)) .reservedField
      (.ok (.vote (voteOf f.low) (regOf f.d) (regOf f.a) (pregOf f.mid))))
  | _ => .error .unassignedMajor

/-! ### Pairs -/

/-- The scalar half of a pair (R42): majors 0x01 to 0x20, I in bit 5, f2 in bits 4:3. -/
def decHalf (f : Fields) : Except DecodeError ScalarHalf :=
  let i := f.l / 2
  let f2 := f.l % 2 * 2 + f.low / 8
  let mk (op : SOp) : Except DecodeError ScalarHalf :=
    need (decide (f.low % 8 = 0)) .reservedField
      (.ok { op := op, d := regOf f.d, a := regOf f.a,
             b := if i = 0 then .reg (regOf f.b) else .imm (BitVec.ofNat 5 f.b) })
  let bin (op : SOp) := need (decide (f2 = 0)) .reservedField (mk op)
  let un (op : SOp) := need (decide (i = 0) && decide (f.b = 0)) .reservedField (mk op)
  match f.major with
  | 0x01 => bin .add
  | 0x02 => bin .sub
  | 0x03 => bin .and
  | 0x04 => bin .or
  | 0x05 => bin .xor
  | 0x06 => bin .andn
  | 0x07 => bin .sll
  | 0x08 => bin .srl
  | 0x09 => bin .sra
  | 0x0A => bin .rol
  | 0x0B => bin .slt
  | 0x0C => bin .sltn
  | 0x0D => bin .min
  | 0x0E => bin .max
  | 0x0F => bin .minn
  | 0x10 => bin .maxn
  | 0x11 => bin .mul
  | 0x12 => bin .mulh
  | 0x13 => bin .mulhn
  | 0x14 => bin .div
  | 0x15 => bin .divn
  | 0x16 => bin .rem
  | 0x17 => bin .remn
  | 0x18 => need (decide (f2 = 0)) .reservedField (un .clz)
  | 0x19 => need (decide (f2 = 0)) .reservedField (un .ctz)
  | 0x1A => need (decide (f2 = 0)) .reservedField (un .popc)
  | 0x1B => code (extOf f2) .badSize fun s => un (.sext s)
  | 0x1C => code (extOf f2) .badSize fun s => un (.zext s)
  | 0x1D => bin .bext
  | 0x1E => bin .bins
  | 0x1F => bin .sel
  | 0x20 => need (decide (f2 < 2)) .badFunction (mk (.lim (decide (f2 = 1))))
  | _ => .error .badPair

/-- A class 11 word and the word after it (R42). -/
def decodePair (f : Fields) (rest : List W32) : Except DecodeError Instr :=
  let f2 := unpack (lit rest 0)
  match decHalf f with
  | .error e => .error e
  | .ok s =>
    need (decide (f2.cls = 1) && decide (f2.mid = 0)) .badPair
      (need (!(lField01 f2).1 || decide (f2.l = 0)) .badPair
        (match decodeVec f2 [] with
         | .ok v => .ok (.pairWord (pregOf f.mid) s v)
         | .error e => .error e))

/-- The instruction at a word, given the words fetched after it (R29 to R47). -/
def decodeWords (w : W32) (rest : List W32) : Except DecodeError Instr :=
  let f := unpack w
  match f.cls with
  | 0 => decode00 f rest
  | 1 =>
    (match decodeVec f rest with
     | .ok v => .ok (Instr.ofVec v (pregOf f.mid))
     | .error e => .error e)
  | 2 => decode10 f rest
  | _ => decodePair f rest

/-- Bytes a decoded word takes: itself and the words fetched after it (R29). -/
def instrBytes (w : W32) : Nat := 4 * (1 + extraWords w)

/-- Word i of an instruction written as one number, the first word lowest. -/
def wordOfNat (w i : Nat) : W32 := BitVec.ofNat 32 (w / 2 ^ (32 * i))

/-- What the decoder reads from the bits of w, bits from nbits upward being zero. -/
def decodeTableWord (nbits w : Nat) : Option Instr :=
  let n := w % 2 ^ nbits
  match decodeWords (wordOfNat n 0) ((List.range 7).map fun i => wordOfNat n (i + 1)) with
  | .ok i => some i
  | .error _ => none

/-! ### The encoder -/

/-- Fields of format S for operand b: field b, I, L and the literals (R38). -/
def SrcB.enc : SrcB → Nat × Nat × Nat × List W32
  | .reg r => (r.val, 0, 0, [])
  | .imm v => (v.toNat, 1, 0, [])
  | .lit w => (0, 1, 1, [w])
  | .lit2 lo hi => (0, 1, 2, [lo, hi, 0])

/-- The same for the float majors. -/
def FSrc.enc : FSrc → Nat × Nat × Nat × List W32
  | .reg r => (r.val, 0, 0, [])
  | .lit w => (0, 1, 1, [w])

/-- A format S word (R30). -/
def encS (major d a : Nat) (b : Nat × Nat × Nat × List W32) (f2 low : Nat) : List W32 :=
  pack { cls := 0, major := major, d := d, a := a, b := b.1, mid := b.2.1 * 4 + f2, l := b.2.2.1, low := low } :: b.2.2.2

/-- A format S word with no b. -/
def encUn (major d a f2 : Nat) : List W32 :=
  [pack { cls := 0, major := major, d := d, a := a, b := 0, mid := f2, l := 0, low := 0 }]

/-- A format B word (R40). -/
def encB (major a : Nat) (b : RegImm) (o : BrOff) (h : Hint) : List W32 :=
  let bi : Nat × Nat := match b with
    | .reg r => (r.val, 0)
    | .imm v => (v.toNat, 1)
  match o with
  | .near o => [pack { cls := 0, major := major, d := o.toNat / 16, a := a, b := bi.1, mid := h.code * 2 + bi.2, l := 0,
                       low := o.toNat % 16 }]
  | .far w => [pack { cls := 0, major := major, d := 0, a := a, b := bi.1, mid := h.code * 2 + bi.2, l := 1, low := 0 }, w]

/-- A format C word (R41). -/
def encC (major d a : Nat) (csr : BitVec 12) : List W32 :=
  [pack { cls := 0, major := major, d := d, a := a, b := csr.toNat / 128, mid := csr.toNat / 16 % 8, l := 0,
          low := csr.toNat % 16 }]

/-- A format M word (R39). -/
def encM (major d a ty order : Nat) (off : MemOff) (low : Nat) : List W32 :=
  match off with
  | none => [pack { cls := 0, major := major, d := d, a := a, b := ty * 4 + order, mid := 0, l := 0, low := low }]
  | some w => [pack { cls := 0, major := major, d := d, a := a, b := ty * 4 + order, mid := 0, l := 1, low := low }, w]

/-- A class 01 word. -/
def encV (major d a b g l low : Nat) : W32 :=
  pack { cls := 1, major := major, d := d, a := a, b := b, mid := g, l := l, low := low }

/-- A binary VA word (R44). -/
def encVB (major d a : Nat) (b : VSrc) (g fn : Nat) : List W32 :=
  match b with
  | .v r => [encV major d a r.val g 0 fn]
  | .x r => [encV major d a r.val g 0 (8 + fn)]
  | .lit w => [encV major d a 0 g 1 fn, w]

/-- A unary VL word (R44). -/
def encVL (major d : Nat) (s : VSrc1) (g la : Nat) : List W32 :=
  match s with
  | .v r => [encV major d r.val 0 g 0 la]
  | .x r => [encV major d r.val 16 g 0 la]

/-- A VM word (R194). -/
def encVM (major d a b : Nat) (y : Option (BitVec 3)) (g low : Nat) : List W32 :=
  match y with
  | none => [encV major d a b g 0 low]
  | some s => [encV major d a b g 1 low, BitVec.ofNat 32 s.toNat]

/-- Major and fn of a binary vector operation (R43, R44). -/
def VBin.enc : VBin → Nat × Nat
  | .vadd m => (0x01, m.code)
  | .vsub m => (0x02, m.code)
  | .vmul => (0x03, 0)
  | .vmulh u => (0x04, if u then 1 else 0)
  | .vmac => (0x05, 0)
  | .vand => (0x06, 0)
  | .vor => (0x07, 0)
  | .vxor => (0x08, 0)
  | .vsll => (0x09, 0)
  | .vsrl => (0x0A, 0)
  | .vsra => (0x0B, 0)
  | .vmin => (0x0C, 0)
  | .vmax => (0x0D, 0)
  | .vminn => (0x0E, 0)
  | .vmaxn => (0x0F, 0)
  | .vfadd r => (0x11, r.code)
  | .vfsub r => (0x12, r.code)
  | .vfmul r => (0x13, r.code)
  | .vfma r => (0x14, r.code)
  | .vfmin => (0x15, 0)
  | .vfmax => (0x16, 0)
  | .vfsgn o => (0x17, o.code)
  | .vfdiv r => (0x18, r.code)
  | .vsel p => (0x1C, p.val)
  | .vperm s => (0x1F, if s then 1 else 0)
  | .vslide s => (0x20, if s then 1 else 0)
  | .vzip => (0x21, 0)
  | .vunzip => (0x22, 0)

/-- Operand b of `radd` and `rmul`: field b and bs (R44). -/
def RSrc.enc : RSrc → Nat × Nat
  | .q k => (k.val * 4, 0)
  | .x r => (r.val, 8)

/-- The words of a class 01 form under guard g. -/
def VecForm.encode (v : VecForm) (g : Nat) : List W32 :=
  match v with
  | .bin op d a b => encVB op.enc.1 d.val a.val b g op.enc.2
  | .cmp c p a b => encVB 0x1A p.val a.val b g c.code
  | .fcmp c p a b => encVB 0x1B p.val a.val b g c.code
  | .abs d a => [encV 0x10 d.val a.val 0 g 0 0]
  | .mov d a => [encV 0x1D d.val a.val 0 g 0 0]
  | .cls d a => [encV 0x25 d.val a.val 0 g 0 0]
  | .sqrt d s la => encVL 0x19 d.val s g la.val
  | .fu .exp2 d s la => encVL 0x2C d.val s g la.val
  | .fu .log2 d s la => encVL 0x2D d.val s g la.val
  | .fu .rcp d s la => encVL 0x2E d.val s g la.val
  | .fu .rsq d s la => encVL 0x2F d.val s g la.val
  | .bcast d (.reg a) => [encV 0x1E d.val a.val 0 g 0 0]
  | .bcast d (.lit w) => [encV 0x1E d.val 0 0 g 1 0, w]
  | .red op d a => [encV 0x23 d.val a.val op.code g 0 0]
  | .scan op d a => [encV 0x24 d.val a.val op.code g 0 0]
  | .pset p a => [encV 0x26 p.val a.val 0 g 0 0]
  | .plog op p a b => [encV 0x27 p.val a.val b.val g 0 op.code]
  | .pcnt d a => [encV 0x28 d.val a.val 0 g 0 0]
  | .pfirst d a => [encV 0x29 d.val a.val 0 g 0 0]
  | .cvt dst src r d a => [encV 0x2A d.val a.val (dst.code * 2 + r.code / 4) g (r.code % 4) src.code]
  | .quant f d a => [encV 0x2B d.val a.val (f.code * 2) g 0 0]
  | .load .unit d a y la => encVM 0x30 d.val a.val 0 y g la.val
  | .load (.stride b) d a y la => encVM 0x31 d.val a.val b.val y g la.val
  | .load (.index b) d a y la => encVM 0x32 d.val a.val b.val y g la.val
  | .store .unit d a y => encVM 0x33 d.val a.val 0 y g 0
  | .store (.stride b) d a y => encVM 0x34 d.val a.val b.val y g 0
  | .store (.index b) d a y => encVM 0x35 d.val a.val b.val y g 0
  | .rfwd w d a la => [encV 0x36 (d.val * 4) a.val (if w then 3 else 2) g 0 la.val]
  | .rrev d a b la => [encV 0x37 (d.val * 2) (a.val * 4) b.val g 0 la.val]
  | .rchk d a la => [encV 0x38 d.val (a.val * 4) 0 g 0 la.val]
  | .radd d a b => [encV 0x39 (d.val * 4) (a.val * 4) b.enc.1 g 0 b.enc.2]
  | .rmul d a b => [encV 0x3A (d.val * 4) (a.val * 4) b.enc.1 g 0 b.enc.2]
  | .rbase d a n la => [encV 0x3B (d.val * 4) (a.val * 4) n.val g 0 la.val]

/-- A class 10 word. -/
def encE (major d a b : Nat) (g : PReg) (l low : Nat) : W32 :=
  pack { cls := 2, major := major, d := d, a := a, b := b, mid := g.val, l := l, low := low }

/-- Major and f2 of a pair's scalar half. -/
def SOp.enc : SOp → Nat × Nat
  | .add => (0x01, 0) | .sub => (0x02, 0) | .and => (0x03, 0) | .or => (0x04, 0) | .xor => (0x05, 0) | .andn => (0x06, 0)
  | .sll => (0x07, 0) | .srl => (0x08, 0) | .sra => (0x09, 0) | .rol => (0x0A, 0) | .slt => (0x0B, 0) | .sltn => (0x0C, 0)
  | .min => (0x0D, 0) | .max => (0x0E, 0) | .minn => (0x0F, 0) | .maxn => (0x10, 0) | .mul => (0x11, 0) | .mulh => (0x12, 0)
  | .mulhn => (0x13, 0) | .div => (0x14, 0) | .divn => (0x15, 0) | .rem => (0x16, 0) | .remn => (0x17, 0)
  | .clz => (0x18, 0) | .ctz => (0x19, 0) | .popc => (0x1A, 0) | .sext s => (0x1B, s.code) | .zext s => (0x1C, s.code)
  | .bext => (0x1D, 0) | .bins => (0x1E, 0) | .sel => (0x1F, 0) | .lim u => (0x20, if u then 1 else 0)

/-- The first word of a pair (R42). -/
def encHalf (g : PReg) (s : ScalarHalf) : W32 :=
  let bi : Nat × Nat := match s.b with
    | .reg r => (r.val, 0)
    | .imm v => (v.toNat, 1)
  pack { cls := 3, major := s.op.enc.1, d := s.d.val, a := s.a.val, b := bi.1, mid := g.val,
         l := bi.2 * 2 + s.op.enc.2 / 2, low := s.op.enc.2 % 2 * 8 }

/-- A literal made of two fields of 16 bits. -/
def lit16 (lo hi : Nat) : W32 := BitVec.ofNat 32 (lo + hi * 2 ^ 16)

/-- The low and the high word of 64 bits. -/
def loWord (w : Word) : W32 := BitVec.ofNat 32 w.toNat
/-- The high word of 64 bits. -/
def hiWord (w : Word) : W32 := BitVec.ofNat 32 (w.toNat / 2 ^ 32)

/-- Literals of an `smode` command word (R272). -/
def StreamCmd.lits (c : StreamCmd) : List W32 :=
  [BitVec.ofNat 32 (c.tag.toNat + c.dims.toNat * 2 ^ 16 + c.swz.toNat * 2 ^ 21), lit16 c.n0.toNat c.n1.toNat,
   lit16 c.n2.toNat c.n3.toNat, c.s0, c.s1, c.s2, c.s3]

/-- Bits 255:32 of a `copy` command word as one number (R279). -/
def CopyCmd.num (c : CopyCmd) : Nat :=
  c.tag.toNat + 2 ^ 16 * (c.n0.toNat + 2 ^ 16 * (c.n1.toNat + 2 ^ 16 * (c.n2.toNat + 2 ^ 16 * (c.n3.toNat + 2 ^ 16 *
    (c.t1.toNat + 2 ^ 22 * (c.t2.toNat + 2 ^ 22 * (c.t3.toNat + 2 ^ 22 * (c.u1.toNat + 2 ^ 22 * (c.u2.toNat + 2 ^ 22 *
      (c.u3.toNat + 2 ^ 22 * (c.sswz.toNat + 2 ^ 3 * (c.dswz.toNat + 2 ^ 3 * c.rsv.toNat))))))))))))

/-- The words of an instruction, literals last (R29 to R46); a device step has none. -/
def encode : Instr → List W32
  | .add d a b => encS 0x01 d.val a.val b.enc 0 0
  | .sub d a b => encS 0x02 d.val a.val b.enc 0 0
  | .and d a b => encS 0x03 d.val a.val b.enc 0 0
  | .or d a b => encS 0x04 d.val a.val b.enc 0 0
  | .xor d a b => encS 0x05 d.val a.val b.enc 0 0
  | .andn d a b => encS 0x06 d.val a.val b.enc 0 0
  | .sll d a b => encS 0x07 d.val a.val b.enc 0 0
  | .srl d a b => encS 0x08 d.val a.val b.enc 0 0
  | .sra d a b => encS 0x09 d.val a.val b.enc 0 0
  | .rol d a b => encS 0x0A d.val a.val b.enc 0 0
  | .slt d a b => encS 0x0B d.val a.val b.enc 0 0
  | .sltn d a b => encS 0x0C d.val a.val b.enc 0 0
  | .min d a b => encS 0x0D d.val a.val b.enc 0 0
  | .max d a b => encS 0x0E d.val a.val b.enc 0 0
  | .minn d a b => encS 0x0F d.val a.val b.enc 0 0
  | .maxn d a b => encS 0x10 d.val a.val b.enc 0 0
  | .mul d a b la => encS 0x11 d.val a.val b.enc 0 la.val
  | .mulh d a b la => encS 0x12 d.val a.val b.enc 0 la.val
  | .mulhn d a b la => encS 0x13 d.val a.val b.enc 0 la.val
  | .div d a b la => encS 0x14 d.val a.val b.enc 0 la.val
  | .divn d a b la => encS 0x15 d.val a.val b.enc 0 la.val
  | .rem d a b la => encS 0x16 d.val a.val b.enc 0 la.val
  | .remn d a b la => encS 0x17 d.val a.val b.enc 0 la.val
  | .clz d a => encUn 0x18 d.val a.val 0
  | .ctz d a => encUn 0x19 d.val a.val 0
  | .popc d a => encUn 0x1A d.val a.val 0
  | .sext s d a => encUn 0x1B d.val a.val s.code
  | .zext s d a => encUn 0x1C d.val a.val s.code
  | .bext d a b => encS 0x1D d.val a.val b.enc 0 0
  | .bins d a b => encS 0x1E d.val a.val b.enc 0 0
  | .sel d a b => encS 0x1F d.val a.val b.enc 0 0
  | .lim u d a b => encS 0x20 d.val a.val b.enc (if u then 1 else 0) 0
  | .addpc d b => encS 0x21 d.val 0 b.enc 0 0
  | .lea d a b s => encS 0x22 d.val a.val b.enc s.val 0
  | .fadd r d a b la => encS 0x23 d.val a.val b.enc r.code la.val
  | .fsub r d a b la => encS 0x24 d.val a.val b.enc r.code la.val
  | .fmul r d a b la => encS 0x25 d.val a.val b.enc r.code la.val
  | .fma r d a b la => encS 0x26 d.val a.val b.enc r.code la.val
  | .fmin d a b la => encS 0x27 d.val a.val b.enc 0 la.val
  | .fmax d a b la => encS 0x28 d.val a.val b.enc 0 la.val
  | .fcmp c d a b la => encS 0x29 d.val a.val b.enc c.code la.val
  | .fcvt dst src r d a =>
    [pack { cls := 0, major := 0x2A, d := d.val, a := a.val, b := dst.code * 2 + src.code / 8, mid := src.code % 8, l := 0,
            low := r.code }]
  | .fclass d (.reg a) la => encS 0x2B d.val a.val (0, 0, 0, []) 0 la.val
  | .fclass d (.lit w) la => encS 0x2B d.val 0 (0, 1, 1, [w]) 0 la.val
  | .fsgn o d a b la => encS 0x2C d.val a.val b.enc o.code la.val
  | .beq a b o h => encB 0x2D a.val b o h
  | .bne a b o h => encB 0x2E a.val b o h
  | .blt a b o h => encB 0x2F a.val b o h
  | .bge a b o h => encB 0x30 a.val b o h
  | .bltn a b o h => encB 0x31 a.val b o h
  | .bgen a b o h => encB 0x32 a.val b o h
  | .jal d (.near o) =>
    [pack { cls := 0, major := 0x33, d := d.val, a := o.toNat / 2 ^ 12, b := o.toNat / 2 ^ 7 % 32, mid := o.toNat / 16 % 8,
            l := 0, low := o.toNat % 16 }]
  | .jal d (.far w) => [pack { cls := 0, major := 0x33, d := d.val, a := 0, b := 0, mid := 0, l := 1, low := 0 }, w]
  | .jalr d a b => encS 0x34 d.val a.val b.enc 0 0
  | .jtab a b w => [pack { cls := 0, major := 0x35, d := 0, a := a.val, b := b.val, mid := 0, l := 1, low := 0 }, w]
  | .rep n b => encS 0x36 n.val 0 b.enc 0 0
  | .nop l =>
    pack { cls := 0, major := 0x37, d := 0, a := 0, b := 0, mid := 0, l := l.code, low := 0 } ::
      List.replicate (litsOfL l.code) 0
  | .csrr d c => encC 0x38 d.val 0 c
  | .csrw d a c => encC 0x39 d.val a.val c
  | .csrs d a c => encC 0x3A d.val a.val c
  | .csrc d a c => encC 0x3B d.val a.val c
  | .ld t o d a off la => encM 0x3C d.val a.val t.code (match o with | .plain => 0 | .acq => 1) off la.val
  | .st t o d a off => encM 0x3D d.val a.val t.code (match o with | .plain => 0 | .rel => 2) off 0
  | .pairWord g s v => encHalf g s :: VecForm.encode v 0
  | .vadd m d a b g => VecForm.encode (.bin (.vadd m) d a b) g.val
  | .vsub m d a b g => VecForm.encode (.bin (.vsub m) d a b) g.val
  | .vmul d a b g => VecForm.encode (.bin .vmul d a b) g.val
  | .vmulh u d a b g => VecForm.encode (.bin (.vmulh u) d a b) g.val
  | .vmac d a b g => VecForm.encode (.bin .vmac d a b) g.val
  | .vand d a b g => VecForm.encode (.bin .vand d a b) g.val
  | .vor d a b g => VecForm.encode (.bin .vor d a b) g.val
  | .vxor d a b g => VecForm.encode (.bin .vxor d a b) g.val
  | .vsll d a b g => VecForm.encode (.bin .vsll d a b) g.val
  | .vsrl d a b g => VecForm.encode (.bin .vsrl d a b) g.val
  | .vsra d a b g => VecForm.encode (.bin .vsra d a b) g.val
  | .vmin d a b g => VecForm.encode (.bin .vmin d a b) g.val
  | .vmax d a b g => VecForm.encode (.bin .vmax d a b) g.val
  | .vminn d a b g => VecForm.encode (.bin .vminn d a b) g.val
  | .vmaxn d a b g => VecForm.encode (.bin .vmaxn d a b) g.val
  | .vabs d a g => VecForm.encode (.abs d a) g.val
  | .vfadd r d a b g => VecForm.encode (.bin (.vfadd r) d a b) g.val
  | .vfsub r d a b g => VecForm.encode (.bin (.vfsub r) d a b) g.val
  | .vfmul r d a b g => VecForm.encode (.bin (.vfmul r) d a b) g.val
  | .vfma r d a b g => VecForm.encode (.bin (.vfma r) d a b) g.val
  | .vfmin d a b g => VecForm.encode (.bin .vfmin d a b) g.val
  | .vfmax d a b g => VecForm.encode (.bin .vfmax d a b) g.val
  | .vfsgn o d a b g => VecForm.encode (.bin (.vfsgn o) d a b) g.val
  | .vfdiv r d a b g => VecForm.encode (.bin (.vfdiv r) d a b) g.val
  | .vsqrt d s la g => VecForm.encode (.sqrt d s la) g.val
  | .vcmp c p a b g => VecForm.encode (.cmp c p a b) g.val
  | .vfcmp c p a b g => VecForm.encode (.fcmp c p a b) g.val
  | .vsel p d a b g => VecForm.encode (.bin (.vsel p) d a b) g.val
  | .vmov d a g => VecForm.encode (.mov d a) g.val
  | .vbcast d s g => VecForm.encode (.bcast d s) g.val
  | .vperm s d a b g => VecForm.encode (.bin (.vperm s) d a b) g.val
  | .vslide s d a b g => VecForm.encode (.bin (.vslide s) d a b) g.val
  | .vzip d a b g => VecForm.encode (.bin .vzip d a b) g.val
  | .vunzip d a b g => VecForm.encode (.bin .vunzip d a b) g.val
  | .vred op d a g => VecForm.encode (.red op d a) g.val
  | .vscan op d a g => VecForm.encode (.scan op d a) g.val
  | .vclass d a g => VecForm.encode (.cls d a) g.val
  | .pset p a g => VecForm.encode (.pset p a) g.val
  | .plog op p a b g => VecForm.encode (.plog op p a b) g.val
  | .pcnt d a g => VecForm.encode (.pcnt d a) g.val
  | .pfirst d a g => VecForm.encode (.pfirst d a) g.val
  | .vcvt dst src r d a g => VecForm.encode (.cvt dst src r d a) g.val
  | .vquant f d a g => VecForm.encode (.quant f d a) g.val
  | .vexp2 d s la g => VecForm.encode (.fu .exp2 d s la) g.val
  | .vlog2 d s la g => VecForm.encode (.fu .log2 d s la) g.val
  | .vrcp d s la g => VecForm.encode (.fu .rcp d s la) g.val
  | .vrsq d s la g => VecForm.encode (.fu .rsq d s la) g.val
  | .vld d a y la g => VecForm.encode (.load .unit d a y la) g.val
  | .vlds d a b y la g => VecForm.encode (.load (.stride b) d a y la) g.val
  | .vldx d a b y la g => VecForm.encode (.load (.index b) d a y la) g.val
  | .vst d a y g => VecForm.encode (.store .unit d a y) g.val
  | .vsts d a b y g => VecForm.encode (.store (.stride b) d a y) g.val
  | .vstx d a b y g => VecForm.encode (.store (.index b) d a y) g.val
  | .rfwd w d a la g => VecForm.encode (.rfwd w d a la) g.val
  | .rrev d a b la g => VecForm.encode (.rrev d a b la) g.val
  | .rchk d a la g => VecForm.encode (.rchk d a la) g.val
  | .radd d a b g => VecForm.encode (.radd d a b) g.val
  | .rmul d a b g => VecForm.encode (.rmul d a b) g.val
  | .rbase d a n la g => VecForm.encode (.rbase d a n la) g.val
  | .rsel .normal g => [encE 0x06 0 0 0 g 0 0]
  | .rsel (.ufull l) g => [encE 0x06 0 0 0 g 0 (l.val * 4 + 1)]
  | .rsel (.cred l) g => [encE 0x06 0 0 0 g 0 (l.val * 4 + 2)]
  | .mload d a c g => [encE 0x01 d.val a.val 0 g 3 0, lit16 c.tag.toNat 0, c.stride, BitVec.ofNat 32 c.swz.toNat, 0, 0, 0, 0]
  | .mswap g => [encE 0x02 0 0 0 g 0 0]
  | .mgo t acc d a b c g =>
    [encE 0x03 d.val a.val b.val g 3 ((if acc then 2 else 0) + (if t then 1 else 0)), lit16 c.tag.toNat c.rows.toNat,
     BitVec.ofNat 32 (c.groups.toNat + c.bands.toNat * 2 ^ 8), c.astride, c.ostride, c.scale,
     BitVec.ofNat 32 (c.aswz.toNat + c.oswz.toNat * 8), 0]
  | .mshape d a g => [encE 0x04 d.val a.val 0 g 0 0]
  | .mstat d a g => [encE 0x05 d.val a.val 0 g 0 0]
  | .ecall g => [encE 0x07 0 0 0 g 0 0]
  | .ebreak g => [encE 0x08 0 0 0 g 0 0]
  | .eret g => [encE 0x09 0 0 0 g 0 0]
  | .wfi g => [encE 0x0A 0 0 0 g 0 0]
  | .amo op t d a b g => [encE 0x0B d.val a.val b.val g t.code op.code]
  | .cas t d a b g => [encE 0x0C d.val a.val b.val g t.code 0]
  | .faddx a (.x b) g => [encE 0x0D 0 a.val b.val g 0 0]
  | .faddx a (.v b) g => [encE 0x0D 0 a.val b.val g 0 1]
  | .cellrd d a la g => [encE 0x0E d.val a.val 0 g 0 la.val]
  | .fence s g => [encE 0x0F 0 0 0 g 0 s.code]
  | .chunk g => [encE 0x10 0 0 0 g 0 0]
  | .ifence g => [encE 0x11 0 0 0 g 0 0]
  | .mdecl d a b c g =>
    [encE 0x12 d.val a.val b.val g 3 0,
     BitVec.ofNat 32 (c.tag.toNat + c.states.toNat * 2 ^ 16 + c.esize.toNat * 2 ^ 22 + c.slot.toNat * 2 ^ 24),
     loWord c.skip, hiWord c.skip, loWord c.table, hiWord c.table, BitVec.ofNat 32 c.count.toNat, 0]
  | .sweep d a g => [encE 0x13 d.val a.val 0 g 0 0]
  | .swstepImmediate s g => [encE 0x14 0 (s.toNat / 32) (s.toNat % 32) g 0 0]
  | .swstepVector b g => [encE 0x14 0 0 b.val g 0 1]
  | .swait .next g => [encE 0x15 0 0 0 g 0 0]
  | .swait (.delay b) g => [encE 0x15 0 0 b.val g 0 1]
  | .swait (.wake b) g => [encE 0x15 0 0 b.val g 0 2]
  | .swait .done g => [encE 0x15 0 0 0 g 0 3]
  | .swake a (.x b) g => [encE 0x16 0 a.val b.val g 0 0]
  | .swake a (.v b) g => [encE 0x16 0 a.val b.val g 0 1]
  | .skipset s a b g => [encE 0x17 0 a.val b.val g 0 (if s then 1 else 0)]
  | .send mc a b ctx tag g => [encE 0x18 0 a.val b.val g 1 (if mc then 1 else 0), lit16 tag.toNat ctx.val]
  | .recv d a g => [encE 0x19 d.val a.val 0 g 0 0]
  | .peek d a g => [encE 0x1A d.val a.val 0 g 0 0]
  | .mon d a b g => [encE 0x1B d.val a.val b.val g 0 0]
  | .mwait d a g => [encE 0x1C d.val a.val 0 g 0 0]
  | .smodeX n a t c g => encE 0x1D (24 + n.val) a.val 0 g 3 t.code :: c.lits
  | .smodeV n a c g => encE 0x1D (24 + n.val) a.val 1 g 3 0 :: c.lits
  | .sexit v n g => [encE 0x1E (24 + n.val) 0 (if v then 1 else 0) g 0 0]
  | .copy d a b c g =>
    encE 0x1F d.val a.val b.val g 3 (c.dims.toNat * 4 + c.esize.toNat) ::
      (List.range 7).map fun i => BitVec.ofNat 32 (c.num / 2 ^ (32 * i))
  | .coll op a b c g =>
    [encE 0x20 0 a.val b.val g 3 op.code, lit16 c.tag.toNat c.ranks.toNat,
     BitVec.ofNat 32 (c.rank.toNat + c.ty.code * 2 ^ 16 + c.red.code * 2 ^ 20), c.n, loWord c.out, hiWord c.out,
     BitVec.ofNat 32 c.root.toNat, 0]
  | .barinit a b g => [encE 0x21 0 a.val b.val g 0 0]
  | .bararr a b g => [encE 0x22 0 a.val b.val g 0 0]
  | .barwait d a g => [encE 0x23 d.val a.val 0 g 0 0]
  | .hstart d a o g => [encE 0x24 d.val a.val 0 g 1 0, o]
  | .hend g => [encE 0x25 0 0 0 g 0 0]
  | .gang a g => [encE 0x26 0 a.val 0 g 0 0]
  | .split g => [encE 0x27 0 0 0 g 0 0]
  | .live a g => [encE 0x28 0 a.val 0 g 0 0]
  | .yield g => [encE 0x29 0 0 0 g 0 0]
  | .tlbw a b g => [encE 0x2A 0 a.val b.val g 0 0]
  | .tlbi a g => [encE 0x2B 0 a.val 0 g 0 0]
  | .tlbiAll g => [encE 0x2B 0 0 0 g 0 1]
  | .replay g => [encE 0x2C 0 0 0 g 0 0]
  | .xphase g => [encE 0x2D 0 0 0 g 0 0]
  | .ssync g => [encE 0x2E 0 0 0 g 0 0]
  | .vote op d a g => [encE 0x2F d.val a.val 0 g 0 op.code]
  | _ => []

/-- The instructions that have an encoding: all but the device's steps. -/
def Instr.encoded (i : Instr) : Bool := !(encode i).isEmpty

end Sys2Proof
end

