-- ==== Sys2Proof/Config.lean ====
section
/-! DEFINITION. What the specification leaves to the device or leaves open: constants with no body, so that no proof can
see a value of them (notes/assumptions). Each is applied to what it may depend on. -/

namespace Sys2Proof.Config

/-- Whether the images of two different 64-byte lines share a bit of a 1024-bit signature (R211, R213; log entry 7). -/
opaque sigHit : Nat → Nat → Bool

/-- Which of the fp32 values that its bound admits a function-unit form writes, by operation and operand (R113, R114;
log entry 8). -/
opaque fuPick : Nat → BitVec 32 → Nat

/-- The SHA3-512 digest used by R399 and R400, of a message given as a list of bytes (log entry 16). -/
opaque sha3 : List (BitVec 8) → BitVec 512

/-- The ML-DSA-87 signature of R400 over a message (log entry 16). -/
opaque sign : List (BitVec 8) → List (BitVec 8)

/-- The verifying key fused into Immund (R399; log entry 16). -/
opaque verifyKey : List (BitVec 8)

/-- Whether an ML-DSA-87 signature over a digest verifies under a key (R399; log entry 16). -/
opaque verifies : List (BitVec 8) → BitVec 512 → List (BitVec 8) → Bool

/-- The firmware image that the device holds for a bring-up stage where BRING_UP names none: its digest and its signature (R399, R400; log
entry 16). -/
opaque firmware : Nat → BitVec 512 × List (BitVec 8)

/-- A value that nothing constrains, by the index of its use (log entry 18). -/
opaque freeWord : Nat → BitVec 64

/-- What a word of the array's accumulators holds after an injection, by the index of the injection, row and column (R48; log
entry 68). -/
opaque freeAcc : Nat → Nat → Nat → BitVec 32

/-- A weight that a plane holds after its contents are lost or undefined, by the index of the loss, row and column (R133, R138; log
entry 35). -/
opaque freeWeight : Nat → Nat → Nat → BitVec 32

/-- An 8-byte word of the rest of the array's capture in a matrix save area, by the index of the capture and the word's offset
(R141; log entry 39). -/
opaque freeArea : Nat → Nat → BitVec 64

/-- Which of two behaviours that the spec leaves open is shown, by the index of its use (R280, R371, R382; log entry 19). -/
opaque freeBit : Nat → Bool

/-- Where in HBM the plinth writes the device root at bring-up, in blocks of 256 bytes (R329; log entry 42). -/
opaque rootBlock : Nat

/-- Whether the Gweam ports of a device of the load-store domain hold a partition key in their key sets, by device number and key
(R393; log entry 52). -/
opaque peerAdmits : Nat → BitVec 16 → Bool

end Sys2Proof.Config
end

