-- ==== Sys2Proof/Machine/Map.lean ====
section
/-! DEFINITION. Tables held as plain data: lists of keys and values, read with a default and written by key, and the
canonical form of memory. -/

namespace Sys2Proof

variable {κ α : Type} [DecidableEq κ]

/-- The value at a key, or the default where the key is not listed. -/
def Map.get (d : α) : List (κ × α) → κ → α
  | [], _ => d
  | (k, v) :: m, j => if k = j then v else Map.get d m j

/-- The value at a key, if it is listed. -/
def Map.find : List (κ × α) → κ → Option α
  | [], _ => none
  | (k, v) :: m, j => if k = j then some v else Map.find m j

/-- Writes the value at a key. -/
def Map.set : List (κ × α) → κ → α → List (κ × α)
  | [], k, v => [(k, v)]
  | (k', v') :: m, k, v => if k' = k then (k, v) :: m else (k', v') :: Map.set m k v

/-- Removes a key. -/
def Map.erase : List (κ × α) → κ → List (κ × α)
  | [], _ => []
  | (k', v') :: m, k => if k' = k then Map.erase m k else (k', v') :: Map.erase m k

/-- The byte at an address; an unlisted byte reads zero (R190; log entry 5). -/
def Memory.get (m : Memory) (a : Nat) : Byte := Map.get 0 m a

/-- Inserts a byte in address order. -/
def Memory.insert : Memory → Nat → Byte → Memory
  | [], a, b => [(a, b)]
  | (a', b') :: m, a, b =>
    if a' = a then (a, b) :: m
    else if a < a' then (a, b) :: (a', b') :: m
    else (a', b') :: Memory.insert m a b

/-- Writes one byte; a zero byte is not listed. -/
def Memory.put (m : Memory) (a : Nat) (b : Byte) : Memory :=
  if b = 0 then Map.erase m a else Memory.insert m a b

/-- Writes consecutive bytes. -/
def Memory.write : Memory → Nat → List Byte → Memory
  | m, _, [] => m
  | m, a, b :: bs => Memory.write (Memory.put m a b) (a + 1) bs

/-- Every address listed is at or above a bound, addresses rise strictly, and no zero byte is listed. -/
def Memory.wfFrom : Nat → Memory → Bool
  | _, [] => true
  | n, (a, b) :: m => decide (n ≤ a) && b != 0 && Memory.wfFrom (a + 1) m

/-- The canonical form of memory. -/
def Memory.wf (m : Memory) : Bool := Memory.wfFrom 0 m

/-- The little-endian number of a list of bytes (R4). -/
def bytesNat : List Byte → Nat
  | [] => 0
  | b :: bs => b.toNat + 256 * bytesNat bs

/-- The n low bytes of a number, lowest first (R4). -/
def natBytes : Nat → Nat → List Byte
  | 0, _ => []
  | n + 1, v => BitVec.ofNat 8 v :: natBytes n (v / 256)

end Sys2Proof
end

