-- ==== Sys2Proof/Machine/State.lean ====
section
/-! DEFINITION. The state of the device: plain data, holding everything spec/00 to spec/25 give it, and the state after
reset (R9, R397). -/

namespace Sys2Proof.Machine

open Sys2Proof

/-- Why a step can stop. Safe: the specification gives the steps named here no meaning at all. -/
inductive Fault where
  /-- Raised by `step` when the agenda names a step or an agent that does not exist on the device (a course above 255, a
  site above 255). Safe: no device performs such a step. -/
  | illFormedStep
  deriving DecidableEq, Repr

/-- Why an instruction can have no meaning. -/
inductive Refusal where
  /-- An instruction that the model gives no meaning yet; raised by its arm in `exec` only. Safe. -/
  | notModelled (mnemonic : String)
  deriving DecidableEq, Repr

/-- Register classes of a pending or set-aside result (R174, R295). -/
inductive RKind where
  | x | v | p
  deriving DecidableEq, Repr

/-- A result that has not landed: its destination, its value, the lanes it writes, the instructions still to be counted,
whether the operation has completed, its header slot where it was set aside at a trap or stop, and the registers that its
instruction keeps in the register file until it completes (R165, R174, R291, R295). -/
structure Pending where
  kind : RKind
  reg : Nat
  x : Word
  v : Lanes
  mask : Word
  left : Nat
  done : Bool
  aside : Option Nat
  pins : List (RKind × Nat)
  deriving DecidableEq, Repr

/-- A stream register's record (R278). -/
structure Stream where
  bound : Bool
  done : Bool
  base : Word
  strides : List W32
  counts : List Nat
  index : List Nat
  swz : BitVec 3
  dims : Nat
  ty : IntTy
  /-- Bit 3 of the type field, which names no type (R278). -/
  hi : Bool
  deriving DecidableEq, Repr

/-- A stream register that is not in stream mode (R278). -/
def Stream.off : Stream := ⟨false, false, 0, [0, 0, 0, 0], [0, 0, 0, 0], [0, 0, 0, 0], 0, 0, .i8, false⟩

/-- An entry fetched ahead of a stream's pops (R274, R275). -/
inductive Fetched where
  | x (v : Word)
  | v (l : Lanes)
  | fault (cause sub : BitVec 8) (faddr : Word)
  deriving DecidableEq, Repr

/-- The registers of a context that a squash returns to their values at the chunk's start (R213): x, v and p registers,
pc, liveness, repetition, pending results, stream positions, entries popped in this chunk, and the outcomes a screed
routine has recorded since its dispatch: lane, whether the element waits, new mark (R243, R244). -/
structure Arch where
  xs : List (Nat × Word)
  vs : List (Nat × Lanes)
  ps : List (Nat × Word)
  pc : Word
  live : Word
  loopActive : Bool
  loopIndex : BitVec 5
  loopLen : BitVec 5
  loopLeft : BitVec 32
  loopa : Word
  pend : List Pending
  streams : List (Nat × Stream)
  taken : List (Nat × Nat)
  outs : List (Nat × Bool × W32)
  deriving DecidableEq, Repr

/-- Registers as launch, `hstart` and a sweep leave them: everything zero, every register live (R13, R304, R240). -/
def Arch.zero (pc : Word) : Arch :=
  ⟨[], [], [], pc, BitVec.allOnes 64, false, 0, 0, 0, 0, [], [], [], []⟩

/-- A store as it is held or in flight: the location of its first byte, its bytes, the window it was made through, and the
bytes of each of its elements, which are single writes, plus 2^16 where they are made in descending order; 0 where it is one write
(R108, R198, R219, R220). -/
structure Write where
  loc : Nat
  data : List Byte
  win : Nat
  elem : Nat
  deriving DecidableEq, Repr

/-- The open chunk of a context (R211): instructions, lines read and written near, held near and far stores in program
order, registers at its start (none while it is empty), successive squashes, and whether it is closed and waits for the
arbiter. -/
structure Chunk where
  count : Nat
  reads : List Nat
  writes : List Nat
  near : List Write
  far : List Write
  start : Option Arch
  squashes : Nat
  closed : Bool
  deriving DecidableEq, Repr

/-- A chunk just opened (R211). -/
def Chunk.empty : Chunk := ⟨0, [], [], [], [], none, 0, false⟩

/-- What a parked context waits for (R289). -/
inductive Park where
  | recv
  | mwait (entry : Nat)
  | barwait (loc : Nat) (addr : Word) (e0 : W32) (deadline : Option Nat) (d a : Reg) (g : PReg)
  | bararr (loc : Nat) (addr : Word) (bytes : Word) (a b : Reg) (g : PReg)
  | gang (mask : BitVec 8) (a : Reg) (g : PReg)
  | ssync (g : PReg)
  | vote (k : Nat) (op : VoteOp) (d a : Reg) (g : PReg)
  /-- `mon` waits for the home's acknowledgement of the entry it has armed (R268). -/
  | mon (entry : Nat) (d a b : Reg) (g : PReg)
  /-- `sweep` waits while the routine table is read (R239). -/
  | sweep (d a : Reg) (g : PReg)
  /-- `hend` waits off the issue slot (R305, R311). -/
  | hend
  | array
  | copy
  | stream
  | reserve
  | coll
  | miss (vas : List Word)
  deriving DecidableEq, Repr

/-- How a helper context was started (R305). -/
inductive Origin where
  | none | hstart | sweep
  deriving DecidableEq, Repr

/-- A hardware context: 11 per compute core, and the quoin's and the plinth's (R19, R289). -/
structure Ctx where
  arch : Arch
  deleg : BitVec 32
  run : BitVec 2
  nested : Bool
  intrap : Bool
  cause : Word
  epc : Word
  faddr : Word
  chunk : Chunk
  park : Option Park
  /-- The last issue found a condition of R293 unmet; the instruction was not performed. -/
  stalled : Bool
  /-- The exchange phase (R351). -/
  exchange : Bool
  voteOrd : Nat
  arrRec : Option (Word × W32)
  ahead : List (Nat × W32)
  bufs : List (Nat × List Fetched)
  /-- Far stores of committed chunks that wait in the core for a reply slot (R256). -/
  unsent : List Write
  /-- Words that the supervisor has stored in the set-aside headers that are not in use and in their value slots, by offset (R174). -/
  spare : List (Nat × Word)
  /-- The slots of x and v registers in the context area, as the last write-back or the supervisor left them (R186, R291). -/
  slotX : List (Nat × Word)
  slotV : List (Nat × Lanes)
  resume : Word
  origin : Origin
  /-- Cause 0x10 to be raised, with its subcode, and whether the instruction at which the gang dissolved has been
  completed (R169). -/
  lost : Option (BitVec 8 × Bool)
  deriving DecidableEq, Repr

/-- A context that runs from an address (R13, R162). -/
def Ctx.start (pc : Word) (deleg : BitVec 32) : Ctx :=
  ⟨Arch.zero pc, deleg, 0, false, false, 0, 0, 0, Chunk.empty, none, false, false, 0, none, [], [], [], [], [], [], 0, .none, none⟩

/-- A free context (R162, R289). -/
def Ctx.free : Ctx := { Ctx.start 0 0 with run := 3 }

/-- A 16-byte message of an inbox sequence, with the context it is addressed to (R258, R259). -/
structure Msg where
  ctx : Nat
  header : Word
  payload : Word
  deriving DecidableEq, Repr

/-- A watch entry (R263, R264): owner, line, page of its translation, deadline in nanoseconds, latched status. -/
structure Watch where
  owner : Nat
  line : Nat
  page : Word
  deadline : Option Nat
  latch : Option Nat
  deriving DecidableEq, Repr

/-- A TLB entry: owner's rid (0: no owner), page base, and the value of R319. -/
structure TlbEntry where
  owner : BitVec 16
  base : Word
  e : Word
  deriving DecidableEq, Repr

/-- A declared tensor (R236). -/
structure Desc where
  elem : Word
  mark : Word
  skip : Word
  table : Word
  count : Nat
  esize : BitVec 2
  states : Nat
  tag : BitVec 16
  deriving DecidableEq, Repr

/-- A wake or skip-map command at a screed engine (R246, R248). -/
inductive ScreedCmd where
  | wake (j : Nat)
  | skip (strip : Nat) (set : Bool)
  deriving DecidableEq, Repr

/-- A running sweep (R242): slot, helper, issuing context, routine table, next strip, open strip, its element words, marks
and steps, masks of touched, active and stepped lanes, the dispatches of the round still to make, the state and step mask of the
routine that runs, buffered commands, counts, and the status that ends it early. -/
structure Sweep where
  slot : Nat
  helper : Nat
  issuer : Nat
  table : List Word
  next : Nat
  cur : Option Nat
  elems : List Lanes
  marks : List W32
  steps : List Nat
  touched : Word
  active : Word
  stepped : Word
  round : List (Nat × Word)
  running : Option (Nat × Word)
  first : Bool
  buffered : List ScreedCmd
  nStrips : Nat
  nStepped : Nat
  nFaulted : Nat
  ending : Option Nat
  deriving DecidableEq, Repr

/-- An entry of an arrival trace ring (R220) as its 64-bit word. -/
abbrev TraceEntry := Word

/-- A superstep journal (R355): lines with their pre-images, pieces first marked, and the status flags. -/
structure Journal where
  lines : List (Nat × List Byte)
  pieces : List Nat
  overflow : Bool
  far : Bool
  array : Bool
  rolled : Bool
  deriving DecidableEq, Repr

/-- A journal just cleared (R355). -/
def Journal.clear : Journal := ⟨[], [], false, false, false, false⟩

/-- What a request asks its home for (R219, R246, R248, R256, R265). A `send` and a screed command name their target core by
its `cid` in the region `rid`. -/
inductive ReqOp where
  | store (w : Write)
  | amo (op : Option AmoOp) (t : AmoTy) (loc win : Nat) (cmp new : Word) (d : Reg)
  | cell (loc : Nat) (f : W32)
  | send (target ctx : Nat) (rid : BitVec 16) (header payload : Word)
  | screed (target slot : Nat) (rid : BitVec 16) (c : ScreedCmd)
  deriving DecidableEq, Repr

/-- A request in flight. -/
structure Req where
  src : Agent
  op : ReqOp
  deriving DecidableEq, Repr

/-- An entry of the register file: the register it holds, whether its value is not yet in its slot, and whether it was
filled for an instruction that has not issued (R291). -/
structure RegEntry where
  tid : Nat
  kind : RKind
  reg : Nat
  dirty : Bool
  pinned : Bool
  deriving DecidableEq, Repr

/-- A write that has arrived at a slice port and waits there behind the commit token (R214): a request of an agent, or a
posted write of a requester of the host link. -/
inductive Arrival where
  | req (r : Req)
  | outside (requester : Nat) (w : Write)
  deriving DecidableEq, Repr

/-- What a slice's matrix save area holds (R141): 32 weight rows of the stationary and of the shadow plane, at 4 bytes a
weight, and one eighth of the rest of the capture, whose layout the spec does not give: the index of the free value that the
capture left there, and the 8-byte words that the supervisor has stored since, by offset (log entry 39). -/
structure Matrix where
  station : List Lanes
  shadow : List Lanes
  rest : Option Nat
  words : List (Nat × Word)
  deriving DecidableEq, Repr

/-- A matrix save area that holds no capture. -/
def Matrix.empty : Matrix := ⟨[], [], none, []⟩

/-- A compute core with its slice's port (R18). -/
structure Core where
  inbox : List Msg
  spill : List Msg
  resv : Nat
  watches : List (Nat × Watch)
  policy : Bool
  order : List Nat
  current : Option Nat
  counts : List (Nat × Nat)
  rr : Nat
  passes : List Nat
  /-- Cycles of `ltime` in 80ths, advanced by the clock step in force (R357). -/
  ltime80 : Nat
  gated : Bool
  /-- Device time since which R373 has held, in tenths of a nanosecond. -/
  idleFrom : Option Nat
  /-- Entries of the register file, the least recently referenced first, and the contexts that wait for a fill, the oldest
  request first (R291). -/
  rfile : List RegEntry
  fillQ : List Nat
  /-- The cycle in which the core last issued (R294). -/
  issuedAt : Option Nat
  /-- The cycle in which relief held this core's gang back, until the gang issues (R301). -/
  held : Option Nat
  /-- Writes that wait at the slice port, in order of arrival (R214). -/
  port : List Arrival
  fetch : List (Nat × List Byte)
  l1 : List TlbEntry
  slots : List (Nat × Desc)
  dropped : List (Nat × Nat)
  sweep : Option Sweep
  gang : Option (BitVec 8)
  tags : List (Nat × BitVec 3)
  foot : Nat
  journal : Journal
  ring : List (Nat × TraceEntry)
  ringHead : BitVec 9
  /-- The slice's matrix save area (R141, R189). -/
  matrix : Matrix
  /-- The inbox image of context 0's area, as the last stop with a step 7 wrote it (R173, R174). -/
  image : List Msg
  /-- Words that the supervisor has stored in the inbox image and the inbox spill area where they hold no message, by slice offset
  (R174, R189). -/
  spare : List (Nat × Word)
  deriving DecidableEq, Repr

/-- A core as launch leaves it (R27, R162, R189, R220, R235, R298, R355, R356). -/
def Core.fresh : Core :=
  ⟨[], [], 0, [], false, [0], some 0, [], 0, [], 0, false, none, [], [], none, none, [], [], [], [], [], none, none, [], 0,
    Journal.clear, [], 0, Matrix.empty, [], []⟩

/-- A plane of the array (R123): format tag by window, band-empty bits, and for each reduction index its row of 256 weights,
each as its exact fp32 value, its i32 value, or its residue word (R116, R117, R148). -/
structure Plane where
  fmt : Option Nat
  empty : BitVec 4
  w : List Lanes
  deriving DecidableEq, Repr

/-- An empty plane (R123). -/
def Plane.none : Plane := ⟨Option.none, BitVec.allOnes 4, []⟩

/-- Entry kinds of the array's queue (R124). -/
inductive JobKind where
  | load | product | swap
  deriving DecidableEq, Repr

/-- One core's join (R125), by the core's number in its course. -/
structure Join where
  core : Nat
  tid : Nat
  a : Word
  b : Word
  stride : W32
  ostride : W32
  scale : W32
  aswz : BitVec 3
  oswz : BitVec 3
  deriving DecidableEq, Repr

/-- An entry of the array's queue (R124, R125, R130, R141, R153). -/
structure Job where
  id : BitVec 12
  kind : JobKind
  tag : BitVec 16
  transpose : Bool
  acc : Bool
  rows : Nat
  groups : BitVec 8
  bands : BitVec 4
  awin : Nat
  owin : Nat
  disagree : Bool
  joins : List Join
  started : Bool
  /-- Status fixed at the start, 0 where the job runs on. -/
  status : Nat
  effGroups : BitVec 8
  effBands : BitVec 4
  /-- Next operand row to inject. -/
  row : Nat
  startCycle : Nat
  /-- `rinject` was armed at the start, and the injection taken (R153). -/
  armed : Bool
  inject : Option Word
  deriving DecidableEq, Repr

/-- A running copy (R279 to R282): its number, who issued it, its command, bases, barrier, the elements performed in ascending
order, the bytes that destination elements have replaced, the status that ends it early with its address, the element at which it is
parked for a page (R321), and whether it was issued after its core's `ssync` (R222). -/
structure CopyJob where
  id : Nat
  who : Agent
  cmd : CopyCmd
  dst : Word
  src : Word
  bar : Option Word
  performed : List Nat
  pre : List (Nat × Byte)
  ended : Option (Nat × Word)
  parked : Option Nat
  after : Bool
  deriving DecidableEq, Repr

/-- The operation of an engine whose access is parked (R321): a copy, the refill of a stream, or the join of a collective. -/
inductive EngineOp where
  | copy (id : Nat)
  | stream (j : Nat)
  | coll (tag : BitVec 16)
  deriving DecidableEq, Repr

/-- A missed access parked in the course's miss table, of a context or of an engine for it, with the missing virtual address, and
whether it was issued after its core's `ssync` (R222, R321, R322). -/
structure Miss where
  who : Agent
  engine : Option EngineOp
  va : Word
  access : BitVec 2
  after : Bool
  deriving DecidableEq, Repr

/-- A notice to a quoin (R167, R180, R182, R184, R322, R323), or the completion of a copy of its own (R281, R328). A trap's
names the region of the context, by which the quoin knows it once the course has another owner. -/
inductive Notice where
  | trap (rid : BitVec 16) (core tid : Nat) (cause faddr : Word)
  | error (e : ErrorEvent)
  | miss (header payload : Word)
  | done (header payload : Word)
  | regionFault (rid : BitVec 16) (cause : BitVec 8) (unit : BitVec 8)
  /-- The host's answer to a page request that came while the quoin waited (R323). -/
  | host (va : Word) (ans : MissAnswer)
  deriving DecidableEq, Repr

/-- A unit that an error implicates: its kind, its index within the kind, and its core (R178, R181). -/
structure TestUnit where
  kind : BitVec 8
  index : BitVec 8
  core : BitVec 3
  deriving DecidableEq, Repr

/-- A course (R18), by its course index (R338). -/
structure Course where
  present : BitVec 4
  on : BitVec 4
  pending : BitVec 4
  /-- Bands that wait to switch on and bands that switch on, each with the device time and the course's clock at which their `mshape`
  performed or their switching on began (R131, R372). -/
  switching : List (Nat × Nat × Nat)
  began : List (Nat × Nat × Nat)
  /-- Cycles of the course's clock in 80ths, at the steps that were in force (R6, R377). -/
  clock80 : Nat
  /-- Model's own: the index of the next free value of a band's lost weights (log entry 35). -/
  lost : Nat
  /-- Bands switched off whose power is not yet removed (R138). -/
  leaving : BitVec 4
  station : Plane
  shadow : Plane
  /-- The 256 × 256 accumulators (R48); the spec gives their changers, and no value that they hold (log entry 68). -/
  acc : List Lanes
  jobs : List Job
  nextId : BitVec 12
  rmode : RMode
  rstat : Word
  rinject : Word
  rotnCount : BitVec 32
  tlb : List TlbEntry
  /-- Bytes of entries that a `tlbi` has removed and whose accesses it waits for: first location, number (R326). -/
  shot : List (Nat × Nat)
  /-- Parked accesses that a `replay` has still to retry, the oldest first; none where no `replay` is under way (R327). -/
  replay : Option (List Miss)
  miss : List Miss
  copies : List CopyJob
  nextCopy : Nat
  bank0 : Word
  bank1 : Word
  /-- The context that holds the commit token (R214). -/
  token : Option Agent
  notices : List Notice
  /-- Stopped for a rotation, a self-test or a pre-emption (R173, R181, R339). -/
  stopped : Bool
  /-- Units whose targeted self-test is due, the one to test next first, and whether the course is stopped for it (R181). -/
  tests : List TestUnit
  testing : Bool
  step : Nat
  permits : Nat
  idle : Nat
  coolUntil : Nat
  sprintFrom : Option Nat
  sprintEnd : Bool
  deriving DecidableEq, Repr

/-- A course as launch leaves it, with the bands healthy at its site (R123, R131, R143, R151, R347, R377). -/
def Course.fresh (present : BitVec 4) : Course :=
  ⟨present, present, 0, [], [], 0, 0, 0, Plane.none, Plane.none, [], [], 0, .normal, 0, 0, 0, [], [], none, [], [], 0, 0, 0, none, [], false,
    [], false, 0, 64, 0, 0, none, false⟩

/-- A site map entry (R338). -/
structure SiteEntry where
  valid : Bool
  fixed : Bool
  rid : BitVec 16
  ocn : BitVec 8
  circuit : BitVec 5
  position : BitVec 3
  site : BitVec 5
  deriving DecidableEq, Repr

/-- A site block of the plinth's register block, with the site's demand and floor and the bands healthy there
(R365, R370, R371, R131). -/
structure SiteBlock where
  cadence : BitVec 5
  gap : BitVec 3
  thermal : Word
  power : Word
  demand : Nat
  floor : Nat
  healthy : BitVec 4
  /-- Units whose self-test has failed; a site that has one is unusable for owners (R181). -/
  failed : List TestUnit
  deriving DecidableEq, Repr

/-- Whether owners may be given a site (R181, R346). -/
def SiteBlock.usable (b : SiteBlock) : Bool := b.failed.isEmpty

/-- A site block after reset, with the thermal word's valid bit at an enabled site (R132, R374, R368). -/
def SiteBlock.fresh (enabled : Bool) : SiteBlock :=
  ⟨1, 0, if enabled then 0x8000000000000000 else 0, 0, 1, 1, BitVec.allOnes 4, []⟩

/-- A sensor (R366, R367, R369). -/
structure Sensor where
  reading : BitVec 16
  model : BitVec 16
  suspect : Bool
  reason : BitVec 2
  /-- First reading and time of the present 50 ms window, whether a neighbour has moved by more than 2 °C in it, the
  neighbours' readings at its start, time since which it has been sound, and times at which it became suspect. -/
  first : BitVec 16
  firstAt : Nat
  moved : Bool
  neighbours : List (Nat × BitVec 16)
  /-- The sensor has reported since reset. -/
  seen : Bool
  soundFrom : Option Nat
  became : List Nat
  deriving DecidableEq, Repr

/-- A sensor after reset (R367). -/
def Sensor.fresh : Sensor := ⟨0, 0, false, 0, 0, 0, false, [], false, none, []⟩

/-- A join of a collective (R283). -/
structure CollJoin where
  who : Agent
  op : CollOp
  cmd : CollCmd
  inp : Word
  bar : Option Word
  /-- Elements of this rank's output written so far, in ascending order, and how the rank ended. -/
  written : List Nat
  ended : Option (Nat × Word)
  posted : Bool
  /-- Issued after its core's `ssync` (R222). -/
  after : Bool
  deriving DecidableEq, Repr

/-- A collective: the joins that carry one tag, the bytes that its outputs have replaced, and the rank and element at which it is
parked for a page (R283, R321). -/
structure Coll where
  tag : BitVec 16
  joins : List CollJoin
  started : Bool
  pre : List (Nat × Byte)
  parked : Option (Nat × Nat)
  deriving DecidableEq, Repr

/-- What a reply carries back (R256, R260). -/
inductive ReplyOp where
  | ack (loc : Nat)
  | value (d : Reg) (x : Word)
  /-- The home's acknowledgement of a `mon` (R268). -/
  | watched
  | accepted
  | dropped
  | busy (r : ReqOp)
  | resend (r : ReqOp) (at80 : Nat)
  deriving DecidableEq, Repr

/-- A reply in flight, or a verdict that waits for its resend, with the port from which it comes, as a line of watch registrations
names it (R255). -/
structure Reply where
  dst : Agent
  op : ReplyOp
  port : Nat
  deriving DecidableEq, Repr

/-- A pending vote (R363): its ordinal and the values that have arrived, by core. -/
structure Vote where
  ord : Nat
  vals : List (Nat × Word)
  deriving DecidableEq, Repr

/-- What a keystone records of one core (R183, R252). -/
structure CoreSnap where
  inbox : List Msg
  spill : List Msg
  resv : Nat
  watches : List (Nat × Watch)
  slots : List (Nat × Desc)
  dropped : List (Nat × Nat)
  sweep : Option Sweep
  tags : List (Nat × BitVec 3)
  order : List Nat
  gang : Option (BitVec 8)
  deriving DecidableEq, Repr

/-- The snapshot point of a region (R183), by owner-relative numbers: contexts, cores, and the array's queue and next
identifier of each course. -/
structure Snapshot where
  ctxs : List (Agent × Ctx)
  cores : List (Nat × CoreSnap)
  jobs : List (Nat × List Job × BitVec 12)
  deriving DecidableEq, Repr

/-- A registration in a home's watch filter, oldest first (R254, R263), and whether a write of the line has been performed
since, whose report is on its way. -/
structure Registration where
  line : Nat
  core : Nat
  entry : Nat
  hit : Bool
  deriving DecidableEq, Repr

/-- A pre-empted region's image (R173 to R175), by owner-relative numbers: contexts, cores, courses, collectives, the sends and
screed commands of its contexts that are still under way, and the registrations of its entries in the filters of its own
slices (R263). -/
structure Saved where
  ctxs : List (Agent × Ctx)
  cores : List (Nat × Core)
  courses : List (Nat × Course)
  colls : List Coll
  reqs : List Req
  replies : List Reply
  watched : List Registration
  deriving DecidableEq, Repr

/-- Whether a region runs, stops for a pre-emption or migration whose notice has been posted, is pre-empted, or has been
stopped for its migration (R173, R396). -/
inductive RegionRun where
  | running | stopping | preempted | migrating
  deriving DecidableEq, Repr

/-- The effective fields of a region control block (R329, R331). -/
structure Effective where
  trap : Word
  deleg : BitVec 32
  priority : BitVec 8
  fdom : BitVec 16
  courses : BitVec 16
  hbm : Word
  slice : BitVec 32
  share : BitVec 16
  ranks : Word
  root : Word
  save : Word
  watchdog : BitVec 32
  trace : Bool
  deriving DecidableEq, Repr

/-- A live region (R22, R24, R329, R351 to R359). -/
structure Region where
  fn : Nat
  rcb : Word
  entry : Word
  pkey : BitVec 16
  eff : Effective
  /-- Its block and the blocks above it, up to the root: HBM address, effective course budget, effective HBM budget. -/
  chain : List (Nat × Nat × Nat)
  /-- Courses held, in owner course number order, as ashlar × 32 + course index. -/
  courses : List Nat
  run : RegionRun
  /-- A stop is due, and begins once no course of the region's ashlars is in a pause (R177, R345). -/
  due : Bool
  /-- The function whose migration stop the stop is for; none for a pre-emption (R389, R396). -/
  migration : Option Nat
  /-- `gtime` and `pausedns` in tenths of a nanosecond. -/
  gtime10 : Nat
  paused10 : Nat
  /-- Time for which region time stands still in the stop in progress; `pausedns` takes it when the stop ends (R359). -/
  still10 : Nat
  /-- Device time at which its time slice began (R329), and whether no context of it has issued since it was resumed (R388). -/
  slice10 : Nat
  quiet : Bool
  sscount : Word
  dropcnt : Word
  arrived : List Nat
  votes : List Vote
  /-- `gtime` in tenths of a nanosecond at the first arrival, and whether the watchdog has fired. -/
  wdFrom : Option Nat
  wdFired : Bool
  snap : Option Snapshot
  supSince : List (Nat × Msg)
  colls : List Coll
  saved : Option Saved
  /-- A region fault has held every context (R184). -/
  faulted : Bool
  deriving DecidableEq, Repr

/-- Phases of an ashlar's rotation (R339): none; the notice is posted (step 1); every course has stopped (steps 2 to 5); the
lines move (step 6). -/
inductive RotPhase where
  | none | posted | stopped | moved
  deriving DecidableEq, Repr

/-- An ashlar (R15, R332 to R346); its ingress gates are open where `phase` and `moving` leave them so (R340, `State.gatedFrom`). -/
structure Ashlar where
  circuits : List (Nat × Word)
  sites : List (Nat × SiteEntry)
  phase : RotPhase
  /-- Course indices whose restart has not ended, while the lines move (R343, R344). -/
  moving : List Nat
  deferred : Bool
  slots : Nat
  lastGrant : Option Nat
  deriving DecidableEq, Repr

/-- An ashlar after reset (R337, R338, R340, R378). -/
def Ashlar.fresh : Ashlar := ⟨[], [], .none, [], false, 14, none⟩

/-- What a mortar buffer holds (R341): a message of the inbox sequence, a reply, or a control message: the completion of a
keystone, or the result of a vote. -/
inductive MortarItem where
  | msg (m : Msg)
  | reply (r : Reply)
  | keystone
  | vote (k : Nat) (x : Word)
  deriving DecidableEq, Repr

/-- A mortar buffer in use, for a core whose course moves (R341). -/
structure Mortar where
  core : Nat
  item : MortarItem
  deriving DecidableEq, Repr

/-- Requests of the host to the plinth (R389, R391). -/
inductive HostOp where
  | launch (courses : List Nat)
  | teardown
  | reset
  | flr
  | stop
  | resume (courses : List Nat)
  deriving DecidableEq, Repr

/-- A request that the plinth has taken and not yet answered, as it waits for the end of a pause or stop (R28, R345, R390). -/
structure HostReq where
  fn : Nat
  msg : BitVec 128
  op : HostOp
  deriving DecidableEq, Repr

/-- An access of the host link that has arrived at a function's BAR2 and waits at the ingress (R224, R340, R387, R388). -/
structure Inbound where
  fn : Nat
  off : Nat
  requester : Nat
  op : InboundOp
  deriving DecidableEq, Repr

/-- An ATS invalidation whose completion has not been returned to the host: the pages it names, and the courses whose quoins
have not completed their `tlbi`, each with whether it has removed the pages' entries and waits (R323, R326). -/
structure Invalidation where
  vas : List Word
  waits : List (Nat × Bool)
  deriving DecidableEq, Repr

/-- A function of the host link (R386, R387, R389), with the PASID that its configuration space assigns and the pages whose requests
are outstanding, by course (R385). -/
structure Fn where
  target : Word
  reply : Word
  enabled : Bool
  pasid : BitVec 20
  pri : List (Nat × Word)
  deriving DecidableEq, Repr

/-- A function before its first request (R385, R386). -/
def Fn.fresh : Fn := ⟨0, 0, true, 0, []⟩

/-- A partition (R382, R394): its function, its rank table, its shortfall, and the ports whose key sets hold its key. -/
structure Partition where
  fn : Nat
  ranks : List (Nat × Word)
  shortfall : Word
  ports : List Nat
  /-- Effective bandwidth share of the partition's block, and for a stack and a microsecond the bytes that the partition requested,
  where `shortfall` has not counted them yet, the oldest first (R329, R382). -/
  share : BitVec 16
  asked : List (Nat × Nat × Nat)
  /-- What the partition has been told: region faults with cause and unit (R184), and for each region ended by a warm reset
  whether its pages were preserved (R185). -/
  faults : List (BitVec 16 × BitVec 8 × BitVec 8)
  kept : List (BitVec 16 × Bool)
  deriving DecidableEq, Repr

/-- A Gweam port (R393). -/
structure Port where
  keys : List (BitVec 16)
  refused : BitVec 32
  deriving DecidableEq, Repr

/-- A refused inbound access, as AER logs it (R385, R387). -/
structure AerEntry where
  fn : Nat
  off : Nat
  write : Bool
  deriving DecidableEq, Repr

/-- The plinth's and the corbels' state (R335 to R400). -/
structure Device where
  rotEnable : Bool
  rotLayout : BitVec 3
  rotInterval : BitVec 10
  rotTicks : BitVec 32
  prevTick : Nat
  nextTick : Option Nat
  launched : Bool
  observerSeq : Word
  /-- The last 4 µs boundaries at which current control and boost have run (R371, R378). -/
  controlAt : Nat
  boostAt : Nat
  tsensSel : BitVec 8
  boostEnable : Bool
  boostSel : BitVec 8
  quiet : Nat
  raised : List Nat
  heat : List (Nat × Nat)
  heatSince : List (Nat × Nat)
  /-- The standby plinth of corbel die 1 has taken over (R20). -/
  standby : Bool
  /-- The takeover is under way: no request is answered, and no rotation is posted (R20, R336). -/
  takeover : Bool
  statusState : BitVec 4
  statusStage : BitVec 4
  fails : List Word
  /-- Firmware images by bring-up stage, where BRING_UP has named one, and the measurement registers (R399, R400). -/
  images : List (Nat × Firmware)
  measure : List (Nat × BitVec 512)
  aer : List AerEntry
  spdm : List (BitVec 8)
  plinthWatches : List (Nat × Watch)
  /-- The standard circuits whose sites the fuses of DRL2-P8G-D disable, by ashlar (R334); none on the other codes. -/
  fuses : List (BitVec 3)
  /-- Requests that have arrived at the Gweam ports and wait there, in order of arrival (R392). -/
  flits : List (Nat × Flit)
  deriving DecidableEq, Repr

/-- HBM that a partition's quoins have mapped (R331, R387; log entry 20): first byte, size, the partition's key, the region
it is mapped for, 0 once that has ended, and the page's virtual address. -/
structure Grant where
  base : Nat
  size : Nat
  pkey : BitVec 16
  rid : BitVec 16
  va : Nat
  deriving DecidableEq, Repr

/-- What the agenda names: a step of the device, or a context whose next instruction issues (log entry 2). -/
inductive Pick where
  | event (i : Instr)
  | issue (a : Agent)
  deriving DecidableEq, Repr

/-- One entry of the agenda: the time the step takes, in tenths of a nanosecond, whether its result completes later than
its issue, the contexts that are not ready in it for a control-transfer bubble, a commit check or a busy unit (R293), and what it
is. -/
structure Slot where
  elapsed : Nat
  late : Bool
  busy : List Agent
  pick : Pick
  deriving DecidableEq, Repr

/-- What the leader of a gang did with a control transfer: where it went, its repetition state (R303). -/
structure Lead where
  jumped : Bool
  pc : Word
  active : Bool
  index : BitVec 5
  len : BitVec 5
  left : BitVec 32
  loopa : Word
  deriving DecidableEq, Repr

/-- The state of the device. -/
structure State where
  /-- The agent whose instruction is being performed (the model's own). -/
  cur : Agent
  /-- Model's own: the coming steps, the core that issues next, whether an engine goes first, the next free value, whether
  the present result completes late, the contexts that the present step holds back, and the leader's transfer while a gang's members
  follow it. -/
  agenda : List Slot
  turn : Nat
  engineTurn : Bool
  freeCount : Nat
  late : Bool
  busy : List Agent
  lead : Option Lead
  /-- Model's own: a gang's members perform an instruction, and a trap of one leaves the others to it (R303). -/
  together : Bool
  /-- Device time in tenths of a nanosecond (R358). -/
  devTime : Nat
  mem : Memory
  /-- Bank words and lines that hold an uncorrectable error, by location / 8 (R191). -/
  poison : List Nat
  ctxs : List (Agent × Ctx)
  cores : List (Nat × Core)
  courses : List (Nat × Course)
  ashlars : List (Nat × Ashlar)
  regions : List (BitVec 16 × Region)
  siteBlocks : List (Nat × SiteBlock)
  sensors : List (Nat × Sensor)
  fabric : List Req
  replies : List Reply
  mortar : List Mortar
  /-- Accesses of the host link that wait at the ingress, in order of arrival (R224, R388). -/
  inbound : List Inbound
  /-- Requests of the host that wait, in order of arrival (R28, R345). -/
  waiting : List HostReq
  filters : List Registration
  /-- ATS invalidations under way (R323). -/
  invals : List Invalidation
  fns : List (Nat × Fn)
  partitions : List (BitVec 16 × Partition)
  ports : List (Nat × Port)
  /-- HBM given to a partition (R331, R387; log entry 20). -/
  grants : List Grant
  dev : Device
  deriving DecidableEq, Repr

/-- The context of an agent that has no entry: the quoins and the plinth run their firmware from reset; `run` is 00 in
context 0 of a core and 11 in its helpers (R19, R162; log entry 14). A context of a course without an owner issues nothing. -/
def Ctx.initial : Agent → Ctx
  | .ctx _ _ t => if t = 0 then Ctx.start 0 0 else Ctx.free
  | .quoin _ | .plinth => Ctx.start 0 0

/-- The site map entry of a course index after reset: the course exists, is free, and stands on the site of its index
(R338; log entry 4). -/
def SiteEntry.initial (c : Nat) : SiteEntry := ⟨true, false, 0, 0, 0, 0, BitVec.ofNat 5 c⟩

/-- The corbels' state after reset. -/
def Device.reset : Device :=
  ⟨true, 0, 100, 0, 0, none, false, 0, 0, 0, 0, true, 0, 0, [], [], [], false, false, 0, 0, [], [], [], [], [], [], [], []⟩

/-- The device right after reset (R9): power-on self-test has completed, and the device is bringing up (R397, R398); no region lives,
and nothing is listed in memory. -/
def State.reset : State where
  cur := .plinth
  agenda := []
  turn := 0
  engineTurn := false
  freeCount := 0
  late := false
  busy := []
  lead := none
  together := false
  devTime := 0
  mem := []
  poison := []
  ctxs := []
  cores := []
  courses := []
  ashlars := []
  regions := []
  siteBlocks := []
  sensors := []
  fabric := []
  replies := []
  mortar := []
  inbound := []
  waiting := []
  filters := []
  invals := []
  fns := []
  partitions := []
  ports := []
  grants := []
  dev := Device.reset

end Sys2Proof.Machine
end

