-- ==== Sys2Proof/Machine/Access.lean ====
section
/-! DEFINITION. Reading and writing the parts of the state by name; locations of bytes; names of cores, courses and owners
(R17, R22, R23, R186, R188, R189). -/

namespace Sys2Proof

/-- Number of a compute core on the device: course index × 8 + core (R18, R338). -/
def coreId (course k : Nat) : Nat := course * 8 + k

/-- The compute core of an agent. -/
def Agent.core? : Agent → Option Nat
  | .ctx c k _ => some (coreId c k)
  | _ => none

/-- The course of an agent. -/
def Agent.course? : Agent → Option Nat
  | .ctx c _ _ | .quoin c => some c
  | .plinth => none

/-- The context number of an agent (R23); the quoin and the plinth have one context. -/
def Agent.tid : Agent → Nat
  | .ctx _ _ t => t
  | _ => 0

/-- Whether an agent runs at program level (R21). -/
def Agent.program : Agent → Bool
  | .ctx _ _ _ => true
  | _ => false

/-- Context t of a core named by its number on the device. -/
def ctxOf (core t : Nat) : Agent := .ctx (core / 8) (core % 8) t

/-- Where a byte has its home (R186, R206, R364): a slice, HBM, a quoin's private memory, plinth memory, the plinth's
register block, host memory, or a peer device. -/
inductive Home where
  | slice (core off : Nat)
  | hbm (a : Nat)
  | quoin (course off : Nat)
  | plinth (off : Nat)
  | regs (off : Nat)
  | host (a : Nat)
  | peer (dev a : Nat)
  deriving DecidableEq, Repr

/-- The number of a home's byte: one line of natural numbers holds every byte of every memory. -/
def Home.loc : Home → Nat
  | .slice core off => core * 0x400000 + off
  | .hbm a => 0x10000000000 + a
  | .quoin c o => 0x20000000000 + c * 0x80000 + o
  | .plinth o => 0x40000000000 + o
  | .regs o => 0x50000000000 + o
  | .host a => 0x10000000000000000 + a
  | .peer d a => 0x20000000000000000 + d * 0x40000000000 + a

/-- The home of a byte by its number. -/
def homeOf (l : Nat) : Home :=
  if l < 0x10000000000 then .slice (l / 0x400000) (l % 0x400000)
  else if l < 0x20000000000 then .hbm (l - 0x10000000000)
  else if l < 0x40000000000 then .quoin ((l - 0x20000000000) / 0x80000) ((l - 0x20000000000) % 0x80000)
  else if l < 0x50000000000 then .plinth (l - 0x40000000000)
  else if l < 0x10000000000000000 then .regs (l - 0x50000000000)
  else if l < 0x20000000000000000 then .host (l - 0x10000000000000000)
  else .peer ((l - 0x20000000000000000) / 0x40000000000) ((l - 0x20000000000000000) % 0x40000000000)

/-- The 64-byte line of a byte (R211). -/
def lineOf (l : Nat) : Nat := l / 64

/-- First byte of the SRAM aperture (R187). -/
def apBase : Nat := 0x400000000000
/-- End of the SRAM aperture (R187). -/
def apEnd : Nat := 0x401000000000
/-- First byte of a slice beyond its program part (R189). -/
def progEnd : Nat := 0x370000

/-- Whether an address lies in the SRAM aperture (R187). -/
def inAperture (va : Word) : Bool := decide (apBase ≤ va.toNat) && decide (va.toNat < apEnd)
/-- Window of an aperture address (R188). -/
def apWin (va : Word) : Nat := (va.toNat - apBase) / 0x200000000
/-- Owner-relative core of an aperture address (R188). -/
def apCore (va : Word) : Nat := (va.toNat - apBase) / 0x400000 % 0x800
/-- Slice offset of an aperture address (R188). -/
def apOff (va : Word) : Nat := (va.toNat - apBase) % 0x400000
/-- The window of an access (R199): that of its aperture address, or 0. -/
def winOf (va : Word) : Nat := if inAperture va then apWin va else 0

namespace Machine

/-- The context of an agent. -/
def State.ctx (s : State) (a : Agent) : Ctx := Map.get (Ctx.initial a) s.ctxs a
/-- Replaces the context of an agent. -/
def State.setCtx (s : State) (a : Agent) (c : Ctx) : State := { s with ctxs := Map.set s.ctxs a c }
/-- Changes the context of an agent. -/
def State.modCtx (s : State) (a : Agent) (f : Ctx → Ctx) : State := s.setCtx a (f (s.ctx a))
/-- Changes the registers of an agent. -/
def State.modArch (s : State) (a : Agent) (f : Arch → Arch) : State :=
  s.modCtx a fun c => { c with arch := f c.arch }

/-- A compute core by its number on the device. -/
def State.core (s : State) (n : Nat) : Core := Map.get Core.fresh s.cores n
/-- Replaces a core. -/
def State.setCore (s : State) (n : Nat) (c : Core) : State := { s with cores := Map.set s.cores n c }
/-- Changes a core. -/
def State.modCore (s : State) (n : Nat) (f : Core → Core) : State := s.setCore n (f (s.core n))

/-- An ashlar. -/
def State.ashlar (s : State) (n : Nat) : Ashlar := Map.get Ashlar.fresh s.ashlars n
/-- Changes an ashlar. -/
def State.modAshlar (s : State) (n : Nat) (f : Ashlar → Ashlar) : State :=
  { s with ashlars := Map.set s.ashlars n (f (s.ashlar n)) }

/-- Site number within an ashlar (R17, R333). -/
def siteNo (p : Nat × Nat) : Nat := p.1 * 4 + p.2

/-- The standard layout, in ring order, as (row, column) (R333). -/
def standardLayout : List (List (Nat × Nat)) :=
  [[(0,0), (1,1), (3,1), (2,0)], [(0,1), (1,0), (3,0), (2,1)], [(4,0), (5,1), (7,1), (6,0)], [(4,1), (5,0), (7,0), (6,1)],
   [(0,3), (1,2), (3,2), (2,3)], [(0,2), (1,3), (3,3), (2,2)], [(4,3), (5,2), (7,2), (6,3)], [(4,2), (5,3), (7,3), (6,2)]]

/-- Whether a physical site is enabled: DRL2-P8G-D disables the sites of the standard circuit that the fuse of their ashlar names
(R2, R334). -/
def State.siteEnabled (s : State) (site : Nat) : Bool :=
  !(s.dev.fuses[site / 32]?.any fun f => ((standardLayout.getD f.toNat []).map siteNo).contains (site % 32))

/-- The site map entry of a course (R338). -/
def State.site (s : State) (c : Nat) : SiteEntry :=
  Map.get { SiteEntry.initial (c % 32) with valid := s.siteEnabled c } (s.ashlar (c / 32)).sites (c % 32)
/-- Changes the site map entry of a course. -/
def State.modSite (s : State) (c : Nat) (f : SiteEntry → SiteEntry) : State :=
  s.modAshlar (c / 32) fun x => { x with sites := Map.set x.sites (c % 32) (f (s.site c)) }
/-- The physical site on which a course stands (R17, R338). -/
def State.siteOf (s : State) (c : Nat) : Nat := c / 32 * 32 + (s.site c).site.toNat
/-- A site block (R365). -/
def State.block (s : State) (n : Nat) : SiteBlock := Map.get (SiteBlock.fresh (s.siteEnabled n)) s.siteBlocks n
/-- Changes a site block. -/
def State.modBlock (s : State) (n : Nat) (f : SiteBlock → SiteBlock) : State :=
  { s with siteBlocks := Map.set s.siteBlocks n (f (s.block n)) }

/-- A course by its index. -/
def State.course (s : State) (n : Nat) : Course := Map.get (Course.fresh (s.block (s.siteOf n)).healthy) s.courses n
/-- Replaces a course. -/
def State.setCourse (s : State) (n : Nat) (c : Course) : State := { s with courses := Map.set s.courses n c }
/-- Changes a course. -/
def State.modCourse (s : State) (n : Nat) (f : Course → Course) : State := s.setCourse n (f (s.course n))

/-- A live region by its rid. -/
def State.region? (s : State) (rid : BitVec 16) : Option Region := Map.find s.regions rid
/-- Changes a live region. -/
def State.modRegion (s : State) (rid : BitVec 16) (f : Region → Region) : State :=
  match s.region? rid with
  | some r => { s with regions := Map.set s.regions rid (f r) }
  | none => s

/-- The rid of a course's owner, or 0 for a free course (R338). -/
def State.ownerRid (s : State) (c : Nat) : BitVec 16 := (s.site c).rid
/-- The region that owns a course. -/
def State.ownerRegion (s : State) (c : Nat) : Option Region := s.region? (s.ownerRid c)
/-- The rid of an agent's region: 0 for the quoin's and the plinth's own (R24). -/
def State.ridOf (s : State) (a : Agent) : BitVec 16 :=
  match a with
  | .ctx c _ _ => s.ownerRid c
  | _ => 0
/-- The region of a program context. -/
def State.regionOf (s : State) (a : Agent) : Option Region :=
  match a.course? with
  | some c => s.ownerRegion c
  | none => none

/-- Owner-relative number of a core on the device (R23). -/
def State.cidOf (s : State) (core : Nat) : Nat := (s.site (core / 8)).ocn.toNat * 8 + core % 8
/-- The core an owner names by a `cid` (R22, R23). -/
def Region.coreOf (r : Region) (cid : Nat) : Option Nat := (r.courses[cid / 8]?).map fun c => c * 8 + cid % 8
/-- Cores of a region, in the order of their `cid`. -/
def Region.cores (r : Region) : List Nat := r.courses.flatMap fun c => (List.range 8).map fun k => c * 8 + k

/-- The members of the gang of a core, leader first (R303); the core alone where it is in none. -/
def State.gangCores (s : State) (core : Nat) : List Nat :=
  match (s.core core).gang with
  | some m => (List.range 8).filterMap fun k => if m.getLsbD k then some (core / 8 * 8 + k) else none
  | none => [core]

/-- The agents that share an agent's chunk (R216): every control context of a gang, or the agent alone. -/
def State.group (s : State) (a : Agent) : List Agent :=
  match a with
  | .ctx c k 0 => (s.gangCores (coreId c k)).map fun n => ctxOf n 0
  | _ => [a]

/-- Takes the next index of a free value. -/
def State.tick (s : State) : State := { s with freeCount := s.freeCount + 1 }

end Machine
end Sys2Proof
end

