-- ==== Sys2Proof/Machine/Regs.lean ====
section
/-! DEFINITION. Reading and writing the registers of a context: x0 and p0, dead registers (R292), registers in stream mode
(R274, R277), pending results and their windows (R295, R296). -/

namespace Sys2Proof.Machine

open Sys2Proof

/-- A register an instruction names: its class and number. -/
abbrev RegRef := RKind × Nat

/-- Lane i of a vector value. -/
def lane (l : Lanes) (i : Nat) : W32 := l.getD i 0

/-- The 64 lanes a function of the lane number gives (R75). -/
def lanesOf (f : Nat → W32) : Lanes := (List.range 64).map f

/-- Number of the stream record of a register (R278): x24 to x27 are 0 to 3, v24 to v27 are 4 to 7. -/
def streamNo (k : RKind) (r : Nat) : Option Nat :=
  match k with
  | .x => if 24 ≤ r && r ≤ 27 then some (r - 24) else none
  | .v => if 24 ≤ r && r ≤ 27 then some (r - 20) else none
  | .p => none

/-- A stream record of a context (R278). -/
def Ctx.stream (c : Ctx) (j : Nat) : Stream := Map.get Stream.off c.arch.streams j

/-- The stream record of a register, where the register is in stream mode (R271). -/
def Ctx.bound? (c : Ctx) (k : RKind) (r : Nat) : Option Nat :=
  match streamNo k r with
  | some j => if (c.stream j).bound then some j else none
  | none => none

/-- The entry that the next pop of a stream takes, where it has arrived (R274). -/
def Ctx.head? (c : Ctx) (j : Nat) : Option Fetched :=
  (Map.get [] c.bufs j)[Map.get 0 c.arch.taken j]?

/-- Whether x register r, or v register r as 32 + r, is live (R292). -/
def Ctx.isLive (c : Ctx) (i : Nat) : Bool := c.arch.live.getLsbD i

/-- What an x register reads: x0 reads 0 (R51), a register in stream mode the element popped, zero past the end (R273), a
dead register zero (R292). -/
def Ctx.x (c : Ctx) (r : Nat) : Word :=
  if r = 0 then 0
  else match c.bound? .x r with
    | some j =>
      if (c.stream j).done then 0
      else match c.head? j with
        | some (.x v) => v
        | _ => 0
    | none => if c.isLive r then Map.get 0 c.arch.xs r else 0

/-- What a v register reads (R75, R273, R292). -/
def Ctx.v (c : Ctx) (r : Nat) : Lanes :=
  match c.bound? .v r with
  | some j =>
    if (c.stream j).done then []
    else match c.head? j with
      | some (.v l) => l
      | _ => []
  | none => if c.isLive (32 + r) then Map.get [] c.arch.vs r else []

/-- What a predicate reads: p0 is all ones (R76). -/
def Ctx.p (c : Ctx) (r : Nat) : Word := if r = 0 then BitVec.allOnes 64 else Map.get 0 c.arch.ps r

/-- Writes an x register and makes it live; a write of x0 is discarded (R51, R292). -/
def Ctx.setX (c : Ctx) (r : Nat) (v : Word) : Ctx :=
  if r = 0 then c
  else { c with arch := { c.arch with xs := Map.set c.arch.xs r v, live := c.arch.live ||| (1#64 <<< r) } }

/-- Lanes of `new` where the mask is on, of `old` elsewhere (R32, R75). -/
def mergeLanes (mask : Word) (new old : Lanes) : Lanes :=
  lanesOf fun i => if mask.getLsbD i then lane new i else lane old i

/-- The value a v register holds, 0 where it is dead, whatever its stream mode. -/
def Ctx.vRaw (c : Ctx) (r : Nat) : Lanes := if c.isLive (32 + r) then Map.get [] c.arch.vs r else []

/-- Writes the lanes of a v register that a mask names, and makes the register live (R32, R292). -/
def Ctx.setV (c : Ctx) (r : Nat) (mask : Word) (v : Lanes) : Ctx :=
  { c with arch := { c.arch with vs := Map.set c.arch.vs r (mergeLanes mask v (c.vRaw r)),
                                 live := c.arch.live ||| (1#64 <<< (32 + r)) } }

/-- Writes a predicate register; p0 keeps all ones (R76). -/
def Ctx.setP (c : Ctx) (r : Nat) (v : Word) : Ctx :=
  if r = 0 then c else { c with arch := { c.arch with ps := Map.set c.arch.ps r v } }

/-- A result of an instruction: the register it goes to, its value, and its lookahead (R33). -/
structure Result where
  kind : RKind
  reg : Nat
  x : Word
  v : Lanes
  mask : Word
  la : Nat
  deriving DecidableEq, Repr

/-- A result for an x register. -/
def Result.toX (r : Nat) (v : Word) (la : Nat := 0) : Result := ⟨.x, r, v, [], 0, la⟩
/-- A result for the lanes of a v register. -/
def Result.toV (r : Nat) (mask : Word) (v : Lanes) (la : Nat := 0) : Result := ⟨.v, r, 0, v, mask, la⟩
/-- A result for a predicate register. -/
def Result.toP (r : Nat) (v : Word) : Result := ⟨.p, r, v, [], 0, 0⟩

/-- Writes a result to its register. -/
def Ctx.write (c : Ctx) (r : Result) : Ctx :=
  match r.kind with
  | .x => c.setX r.reg r.x
  | .v => c.setV r.reg r.mask r.v
  | .p => c.setP r.reg r.x

/-- The result a pending entry holds. -/
def Pending.result (p : Pending) : Result := ⟨p.kind, p.reg, p.x, p.v, p.mask, 0⟩

/-- A pending entry for a result whose window covers the next k counted instructions, of an instruction that names some
registers. -/
def Result.pending (r : Result) (k : Nat) (done : Bool) (pins : List RegRef) : Pending :=
  ⟨r.kind, r.reg, r.x, r.v, r.mask, k, done, none, pins⟩

/-- Whether a pending result lands now: its window has closed and its operation has completed (R295). -/
def Pending.lands (p : Pending) : Bool := p.left == 0 && p.done

/-- Replaces the pending results. -/
def Ctx.withPend (c : Ctx) (ps : List Pending) : Ctx := { c with arch := { c.arch with pend := ps } }

/-- Lands every pending result that is due, in order (R295). -/
def Ctx.settle (c : Ctx) : Ctx :=
  (c.arch.pend.filter Pending.lands).foldl (fun c p => c.write p.result)
    (c.withPend (c.arch.pend.filter fun p => !p.lands))

/-- Counts one performed instruction toward every open window; none counts while the context runs its program handler
(R166, R295). -/
def Ctx.count (c : Ctx) : Ctx :=
  if c.intrap then c
  else (c.withPend (c.arch.pend.map fun p => { p with left := p.left - 1 })).settle

/-- Results with open windows (R296). -/
def Ctx.openWindows (c : Ctx) : Nat := (c.arch.pend.filter fun p => decide (0 < p.left)).length

/-- The window a result opens: k, but 0 in the program handler and where 15 windows are open (R166, R296). -/
def Ctx.window (c : Ctx) (k : Nat) : Nat := if c.intrap || decide (15 ≤ c.openWindows) then 0 else k

/-- Takes a result of an instruction: it is written at once where its window is 0 and its operation has completed, and
becomes a pending result otherwise (R295). -/
def Ctx.take (late : Bool) (pins : List RegRef) (c : Ctx) (r : Result) : Ctx :=
  if c.window r.la = 0 && !late then c.write r
  else c.withPend (c.arch.pend ++ [r.pending (c.window r.la) (!late) pins])

/-- The results of one instruction: an instruction that would open a 16th window issues with k treated as 0 (R296). -/
def Ctx.limit (c : Ctx) (rs : List Result) : List Result :=
  if c.openWindows + (rs.filter fun r => decide (0 < r.la)).length ≤ 15 then rs else rs.map fun r => { r with la := 0 }

/-- Takes the results of one instruction that names some registers. -/
def Ctx.takeAll (late : Bool) (pins : List RegRef) (c : Ctx) (rs : List Result) : Ctx := (c.limit rs).foldl (Ctx.take late pins) c

/-- Closes every open window and lands every completed result, the set-aside ones included (R296). -/
def Ctx.closeWindows (c : Ctx) : Ctx :=
  (c.withPend (c.arch.pend.map fun p => { p with left := 0 })).settle

/-- Sets pending results aside at a trap or stop: every operation completes, and results whose windows are open keep their
counts; every header is written (R165, R173, R174). -/
def Ctx.setAside (c : Ctx) : Ctx :=
  let d := (c.withPend (c.arch.pend.map fun p => { p with done := true })).settle
  { d.withPend (d.arch.pend.zipIdx.map fun p => { p.1 with aside := some p.2 }) with
    spare := d.spare.filter fun e => decide (0x2500 ≤ e.1) }

/-- Whether a result that blocks a register has not landed: its window has closed and its operation has not completed
(R295). x0 and p0 hold no result. -/
def Ctx.blocked (c : Ctx) (r : RegRef) : Bool :=
  c.arch.pend.any fun p => p.left == 0 && !p.done && p.kind == r.1 && p.reg == r.2 && (r.1 == .v || r.2 != 0)

/-- Results set aside that have not landed (R162). -/
def Ctx.npend (c : Ctx) : Nat := (c.arch.pend.filter fun p => p.aside.isSome).length

end Sys2Proof.Machine
end

