-- ==== Sys2Proof/Machine/Flags.lean ====
section
/-! DEFINITION. The words of status, control and counter registers, each composed from the fields State holds for it, in
the bit places of its field table, and the fields a write of it changes (R7, R8). -/

namespace Sys2Proof.Machine

open Sys2Proof

/-- A number placed at a bit. -/
def at' (n b : Nat) : Nat := n * 2 ^ b
/-- One bit placed at a bit position. -/
def bit' (f : Bool) (b : Nat) : Nat := if f then 2 ^ b else 0
/-- Bits b + n − 1 to b of a word. -/
def fld (w : Word) (b n : Nat) : Nat := w.toNat / 2 ^ b % 2 ^ n

/-- Causes a region may deliver to its program handler (R161). -/
def delegable : BitVec 32 := 0x131C6#32

/-- `status` (R162). -/
def Ctx.status (c : Ctx) : Word :=
  BitVec.ofNat 64 (at' c.deleg.toNat 32 + at' (c.npend % 16) 20 + at' c.run.toNat 16 + bit' c.nested 1 + bit' c.intrap 0)

/-- Whether a program write of `status` would change a field of access SV: deleg or run (R162). -/
def Ctx.statusDenied (c : Ctx) (w : Word) : Bool :=
  (BitVec.ofNat 32 (fld w 32 32) &&& delegable) != c.deleg || BitVec.ofNat 2 (fld w 16 2) != c.run

/-- Writes nested, W1C (R7, R162): `clr` holds the bits presented to W1C fields. -/
def Ctx.writeNested (c : Ctx) (clr : Word) : Ctx := { c with nested := c.nested && !clr.getLsbD 1 }

/-- `cause` (R163). -/
def causeWord (cause sub : BitVec 8) : Word := BitVec.ofNat 64 (at' sub.toNat 16 + cause.toNat)

/-- `loopc` (R69). -/
def Ctx.loopc (c : Ctx) : Word :=
  BitVec.ofNat 64 (bit' c.arch.loopActive 63 + at' c.arch.loopIndex.toNat 37 + at' c.arch.loopLen.toNat 32 +
    c.arch.loopLeft.toNat)

/-- Whether a supervisor's write of `loopc` sets index above len (R69). -/
def badLoopc (w : Word) : Bool := decide (fld w 32 5 < fld w 37 5)

/-- Writes `loopc` from a supervisor: an index above len changes nothing (R69). -/
def Ctx.setLoopc (c : Ctx) (w : Word) : Ctx :=
  if badLoopc w then c
  else { c with arch := { c.arch with loopActive := w.getLsbD 63, loopIndex := BitVec.ofNat 5 (fld w 37 5),
                                      loopLen := BitVec.ofNat 5 (fld w 32 5), loopLeft := BitVec.ofNat 32 (fld w 0 32) } }

/-- Writes `live`: bit 0 stays 1; a register that is dead holds zero from now on (R292, R308). A squash returns to the
registers of the chunk's start, which it keeps whole. -/
def Ctx.setLive (c : Ctx) (w : Word) : Ctx :=
  { c with arch := { c.arch with
      live := w ||| 1#64
      xs := c.arch.xs.filter fun e => w.getLsbD e.1 || e.1 == 0
      vs := c.arch.vs.filter fun e => w.getLsbD (32 + e.1) } }

/-- `ibstat` (R261). -/
def Core.ibstat (k : Core) : Word :=
  let seq := k.inbox ++ k.spill
  let mask := ((List.range 11).map fun i => bit' (seq.any fun m => m.ctx == i) (48 + i)).sum
  BitVec.ofNat 64 (mask + at' (k.resv % 2 ^ 13) 32 + at' (k.inbox.length % 2 ^ 7) 16 + k.spill.length % 2 ^ 13)

/-- `ipolicy` (R297). -/
def Core.ipolicy (k : Core) : Word := if k.policy then 1 else 0

/-- `ashape` (R131). -/
def Course.ashape (c : Course) : Word :=
  BitVec.ofNat 64 (at' c.pending.toNat 8 + at' c.on.toNat 4 + c.present.toNat)

/-- Courses on a circuit: its length less its relays (R337, R347). -/
def circuitCourses (w : Word) : Nat :=
  fld w 48 4 - ((List.range 8).filter fun j => w.getLsbD (40 + j)).length

/-- `rotn` (R347). -/
def State.rotn (s : State) (c : Nat) : Word :=
  let e := s.site c
  let w := Map.get 0 (s.ashlar (c / 32)).circuits e.circuit.toNat
  let len := if e.fixed || !w.getLsbD 63 then 0 else circuitCourses w
  BitVec.ofNat 64 (at' len 32 + (s.course c).rotnCount.toNat)

/-- `cadence` of a site (R132). -/
def SiteBlock.cadenceWord (b : SiteBlock) : Word := BitVec.ofNat 64 b.cadence.toNat
/-- `issuegap` of a site (R374). -/
def SiteBlock.gapWord (b : SiteBlock) : Word := BitVec.ofNat 64 b.gap.toNat

/-- `ltime` (R356). -/
def Core.ltime (k : Core) : Word := BitVec.ofNat 64 (k.ltime80 / 80)
/-- `gtime` (R356). -/
def Region.gtime (r : Region) : Word := BitVec.ofNat 64 (r.gtime10 / 10)
/-- `pausedns` (R356). -/
def Region.pausedns (r : Region) : Word := BitVec.ofNat 64 (r.paused10 / 10)

/-- Journal status (R355). -/
def Journal.status (j : Journal) : Word :=
  BitVec.ofNat 64 (bit' j.overflow 63 + bit' j.far 62 + bit' j.array 61 + bit' j.rolled 60 + j.lines.length % 2 ^ 13)

/-- The rotation control word (R335). -/
def Device.rotation (d : Device) : Word :=
  BitVec.ofNat 64 (bit' d.rotEnable 63 + at' d.rotLayout.toNat 60 + at' d.rotInterval.toNat 32 + d.rotTicks.toNat)

/-- The word of the plinth's register block at an offset (R365). -/
def State.regWord (s : State) (off : Nat) : Word :=
  if off = 0 then s.dev.rotation
  else if off = 8 then s.dev.observerSeq
  else if off < 0x10000 then 0
  else
    let b := s.block ((off - 0x10000) / 64)
    match (off - 0x10000) % 64 with
    | 0 => b.cadenceWord
    | 8 => b.gapWord
    | 16 => b.thermal
    | 24 => b.power
    | _ => 0

/-- `tsens` (R367). -/
def State.tsens (s : State) : Word :=
  let n := s.dev.tsensSel
  let e := Map.get Sensor.fresh s.sensors n.toNat
  BitVec.ofNat 64 (bit' e.suspect 63 + at' e.reason.toNat 61 + at' n.toNat 48 + at' e.model.toNat 16 + e.reading.toNat)

/-- The course that stands on a physical site (R338). -/
def State.courseAt (s : State) (site : Nat) : Option Nat :=
  ((List.range 32).map fun i => site / 32 * 32 + i).find? fun c => (s.site c).valid && s.siteOf c == site

/-- Whether a course claims boost at this boundary (R378). -/
def State.claims (s : State) (c : Nat) : Bool :=
  let k := s.course c
  (k.jobs.any fun j => j.kind == .product && decide (8 ≤ j.joins.length)) && decide (1 ≤ k.permits) &&
    decide (k.coolUntil ≤ s.devTime) && (s.block (s.siteOf c)).gap == 0 && s.dev.boostEnable

/-- `permits` (R380); at a site on which no course stands it reads 0, as do the fields of `boost` that speak of a course, which is the
model's choice (log entry 80). -/
def State.permitsWord (s : State) : Word :=
  match s.courseAt s.dev.boostSel.toNat with
  | some c => BitVec.ofNat 64 (s.course c).permits
  | none => 0

/-- `boost` (R380). -/
def State.boostWord (s : State) : Word :=
  let c := s.courseAt s.dev.boostSel.toNat
  let step := match c with | some c => (s.course c).step | none => 0
  let cool := match c with | some c => decide (s.devTime < (s.course c).coolUntil) | none => false
  let claim := match c with | some c => s.claims c | none => false
  BitVec.ofNat 64 (bit' s.dev.boostEnable 63 + at' s.dev.boostSel.toNat 48 +
    at' ((s.ashlar (s.dev.boostSel.toNat / 32)).slots % 16) 44 + at' (step % 4) 38 + bit' cool 37 + bit' claim 36)

/-- The control word of a stream record (R278). -/
def Stream.control (t : Stream) : Word :=
  let ty := match t.ty with | .i8 => 0 | .i16 => 1 | .i32 => 2 | .i64 => 3 | .n8 => 4 | .n16 => 5 | .n32 => 6 | .n64 => 7
  BitVec.ofNat 64 (bit' t.bound 63 + bit' t.done 9 + at' t.swz.toNat 6 + at' (t.dims % 4) 4 + bit' t.hi 3 + ty)

/-- The header word of a set-aside result; a register number of 64 and above stands for one of the reserved kind 11 (R174). -/
def Pending.header (p : Pending) : Word :=
  let k := match p.kind with | .x => 0 | .v => 1 | .p => if p.reg < 64 then 2 else 3
  BitVec.ofNat 64 (at' (p.left % 32) 8 + at' 1 7 + at' k 5 + p.reg % 32)

/-- Header of an inbox message (R259). -/
def msgHeader (src ctx kind tag : Nat) : Word :=
  BitVec.ofNat 64 (at' (src % 2 ^ 11) 53 + at' (ctx % 16) 49 + at' (kind % 16) 40 + tag % 2 ^ 16)

end Sys2Proof.Machine
end

