-- ==== Sys2Proof/Machine/Areas.lean ====
section
/-! DEFINITION. The reserved part of a slice as the supervisor reads it (R174, R189, R278): context areas, journal and inbox
spill area are views of the state; the supervisor writes the context areas. -/

namespace Sys2Proof.Machine

open Sys2Proof

/-- Two 32-bit words as one 64-bit word, the lower one first. -/
def pairWord (lo hi : W32) : Word := hi ++ lo

/-- A stream record's 8-byte words (R278). -/
def Stream.word (t : Stream) (i : Nat) : Word :=
  let cnt (l : List Nat) := BitVec.ofNat 64
    (l.getD 0 0 % 2 ^ 16 + at' (l.getD 1 0 % 2 ^ 16) 16 + at' (l.getD 2 0 % 2 ^ 16) 32 + at' (l.getD 3 0 % 2 ^ 16) 48)
  match i with
  | 0 => t.base
  | 1 => pairWord (t.strides.getD 0 0) (t.strides.getD 1 0)
  | 2 => pairWord (t.strides.getD 2 0) (t.strides.getD 3 0)
  | 3 => cnt t.counts
  | 4 => cnt t.index
  | _ => t.control

/-- The result set aside in a header slot (R174). -/
def Ctx.asideAt (c : Ctx) (i : Nat) : Option Pending := c.arch.pend.find? fun p => p.aside == some i

/-- The word at an offset of a list of 16-byte messages, header first (R174, R189). -/
def msgWord (ms : List Msg) (off : Nat) : Word :=
  match ms[off / 16]? with
  | some m => if off % 16 < 8 then m.header else m.payload
  | none => 0

/-- The 8-byte word at an offset of a context's area, the inbox image apart (R174); reserved words read zero. The slots of x and v
registers hold what was last written to them (R291); predicates and CSRs are read as they are (log entry 77). -/
def Ctx.areaWord (c : Ctx) (off : Nat) : Word :=
  let i := off / 8
  if off < 0x2000 then
    let l := Map.get [] c.slotV (off / 256)
    pairWord (lane l (2 * (i % 32))) (lane l (2 * (i % 32) + 1))
  else if off < 0x2100 then
    let r := (off - 0x2000) / 8
    if r = 0 then 0 else Map.get 0 c.slotX r
  else if off < 0x2140 then c.p ((off - 0x2100) / 8)
  else if off < 0x2180 then
    match (off - 0x2140) / 8 with
    | 0 => c.status
    | 1 => c.cause
    | 2 => c.epc
    | 3 => c.faddr
    | 4 => c.arch.live
    | 5 => c.loopc
    | 6 => c.arch.loopa
    | _ => c.resume
  else if off < 0x21C0 then 0
  else if off < 0x2238 then
    match c.asideAt ((off - 0x21C0) / 8) with
    | some p => p.header
    | none => Map.get 0 c.spare (off / 8 * 8)
  else if off < 0x2240 then 0
  else if off < 0x23C0 then (c.stream ((off - 0x2240) / 48)).word ((off - 0x2240) % 48 / 8)
  else if off < 0x23D0 then
    match c.arrRec, (off - 0x23C0) / 8 with
    | some r, 0 => r.1
    | some r, _ => r.2.setWidth 64
    | none, _ => 0
  else if off < 0x2500 then 0
  else if off < 0x3400 then
    match c.asideAt ((off - 0x2500) / 256) with
    | some p =>
      let j := (off - 0x2500) % 256 / 8
      match p.kind with
      | .v => pairWord (lane p.v (2 * j)) (lane p.v (2 * j + 1))
      | _ => if j = 0 then p.x else 0
    | none => Map.get 0 c.spare (off / 8 * 8)
  else 0

/-- The byte at an offset of the superstep journal's lines (R189, R355). -/
def Core.journalByte (k : Core) (off : Nat) : Byte :=
  match k.journal.lines[off / 64]? with
  | some (_, bs) => bs.getD (off % 64) 0
  | none => 0

/-- Bytes of a plane's rows in a matrix save area: 32 rows of 256 weights of 4 bytes (R141). -/
def planeBytes : Nat := 0x8000

/-- The word at an offset of a matrix save area (R141): the stationary plane's rows, the shadow plane's, then the rest; the order
of these parts, and the lane that stands for a weight, are the model's (log entry 39). -/
def Matrix.word (m : Matrix) (off : Nat) : Word :=
  let row (p : List Lanes) (o : Nat) : Word :=
    pairWord (lane (p.getD (o / 1024) []) (o % 1024 / 4)) (lane (p.getD (o / 1024) []) (o % 1024 / 4 + 1))
  if off < planeBytes then row m.station off
  else if off < 2 * planeBytes then row m.shadow (off - planeBytes)
  else match Map.find m.words off with
    | some w => w
    | none => match m.rest with | some i => Config.freeArea i off | none => 0

/-- Puts a word into a weight row's two columns. -/
def putPair (p : List Lanes) (o : Nat) (w : Word) : List Lanes :=
  (List.range 32).map fun r =>
    if r = o / 1024 then (List.range 256).map fun n =>
      if n = o % 1024 / 4 then w.setWidth 32 else if n = o % 1024 / 4 + 1 then (w >>> 32).setWidth 32 else lane (p.getD r []) n
    else p.getD r []

/-- A supervisor's write of a word of a matrix save area (R141, R189). -/
def Matrix.write (m : Matrix) (off : Nat) (w : Word) : Matrix :=
  if off < planeBytes then { m with station := putPair m.station off w }
  else if off < 2 * planeBytes then { m with shadow := putPair m.shadow (off - planeBytes) w }
  else { m with words := Map.set m.words off w }

/-- The byte at an offset of the reserved part of a slice (R189), of a core with its contexts and its inbox image. -/
def areaView (ctx : Nat → Ctx) (k : Core) (image : List Msg) (off : Nat) : Byte :=
  let byteOf (w : Word) := BitVec.ofNat 8 (w.toNat / 2 ^ (8 * (off % 8)))
  if off < 0x39C000 then
    let t := (off - 0x370000) / 0x4000
    let o := (off - 0x370000) % 0x4000 / 8 * 8
    byteOf (if t = 0 && 0x3400 ≤ o && o < 0x3800 then
        (if (o - 0x3400) / 16 < image.length then msgWord image (o - 0x3400) else Map.get 0 k.spare (0x370000 + o))
      else (ctx t).areaWord o)
  else if off < 0x3DC000 then k.journalByte (off - 0x39C000)
  else if off < 0x3F0000 then byteOf (k.matrix.word ((off - 0x3DC000) / 8 * 8))
  else
    let o := (off - 0x3F0000) / 8 * 8
    byteOf (if o / 16 < k.spill.length then msgWord k.spill o else Map.get 0 k.spare (0x3F0000 + o))

/-- The byte the supervisor reads in the reserved part of a slice (R189). -/
def State.areaByte (s : State) (core off : Nat) : Byte :=
  areaView (fun t => s.ctx (ctxOf core t)) (s.core core) (s.core core).image off

/-- A core of a pre-empted region's image. -/
def Saved.core (v : Saved) (cid : Nat) : Core := Map.get Core.fresh v.cores cid

/-- A context of a pre-empted region's image. -/
def Saved.ctx (v : Saved) (cid t : Nat) : Ctx := Map.get (Ctx.initial (ctxOf cid t)) v.ctxs (ctxOf cid t)

/-- Where an HBM byte lies in the reserved parts of a pre-empted region's saved slices: the region, its image, the owner-relative
core and the slice offset (R173 to R175, R388). -/
def State.savedAt (s : State) (a : Nat) : Option (BitVec 16 × Saved × Nat × Nat) :=
  s.regions.findSome? fun e =>
    match e.2.saved with
    | some v =>
      let o := a - e.2.eff.save.toNat
      if decide (e.2.eff.save.toNat ≤ a) && decide (o / 0x400000 < 8 * v.courses.length) && decide (progEnd ≤ o % 0x400000) then
        some (e.1, v, o / 0x400000, o % 0x400000)
      else none
    | none => none

/-- A context as its saved image shows it: the cause of one that ran is pre-emption, 0x20, which is never written to the context's own
`cause` (R161, R177; log entry 76). -/
def Ctx.inImage (c : Ctx) : Ctx := if c.run = 0 then { c with cause := 0x20 } else c

/-- The byte that the supervisor reads in the reserved part of a saved slice: the saved inbox is the inbox image (R174, R175). -/
def Saved.byte (v : Saved) (cid off : Nat) : Byte := areaView (fun t => (v.ctx cid t).inImage) (v.core cid) (v.core cid).inbox off

/-- The register class that a header's kind names; kind 11 names none, and its register n is kept as 64 + n (R174). -/
def headerKind (w : Word) : RKind := match fld w 5 2 with | 0 => .x | 1 => .v | _ => .p

/-- The register that a header names. -/
def headerReg (w : Word) : Nat := if fld w 5 2 = 3 then 64 + fld w 0 5 else fld w 0 5

/-- A supervisor's write of a set-aside header (R174): valid 0 frees the slot and keeps the other fields, valid 1 makes or changes
its entry, whose value is that of its value slot. -/
def Ctx.writeHeader (c : Ctx) (i : Nat) (w : Word) : Ctx :=
  if !w.getLsbD 7 then
    { c.withPend (c.arch.pend.filter fun p => p.aside != some i) with
      spare := Map.set c.spare (0x21C0 + 8 * i) (BitVec.ofNat 64 (at' (fld w 8 5) 8 + at' (fld w 5 2) 5 + fld w 0 5)) }
  else match c.asideAt i with
    | some _ => c.withPend (c.arch.pend.map fun p =>
        if p.aside = some i then { p with left := fld w 8 5, kind := headerKind w, reg := headerReg w } else p)
    | none =>
      let word (j : Nat) : Word := Map.get 0 c.spare (0x2500 + 256 * i + 8 * j)
      let v := (List.range 32).flatMap fun j => [(word j).setWidth 32, (word j >>> 32).setWidth 32]
      c.withPend (c.arch.pend ++
        [⟨headerKind w, headerReg w, word 0, v, BitVec.allOnes 64, fld w 8 5, true, some i, []⟩])

/-- A supervisor's write of a word of a value slot (R174). -/
def Ctx.writeValue (c : Ctx) (off : Nat) (w : Word) : Ctx :=
  let i := (off - 0x2500) / 256
  let j := (off - 0x2500) % 256 / 8
  match c.asideAt i with
  | some _ => c.withPend (c.arch.pend.map fun p =>
      if p.aside != some i then p
      else match p.kind with
        | .v => { p with v := lanesOf fun n =>
            if n = 2 * j then w.setWidth 32 else if n = 2 * j + 1 then (w >>> 32).setWidth 32 else lane p.v n }
        | _ => if j = 0 then { p with x := w } else p)
  | none => { c with spare := Map.set c.spare (off / 8 * 8) w }

/-- A supervisor's write of one 8-byte word of a stream record (R278). -/
def Stream.setWord (t : Stream) (i : Nat) (w : Word) : Stream :=
  let cnt := (List.range 4).map fun j => fld w (16 * j) 16
  let lo := BitVec.ofNat 32 w.toNat
  let hi := BitVec.ofNat 32 (w.toNat / 2 ^ 32)
  match i with
  | 0 => { t with base := w }
  | 1 => { t with strides := [lo, hi, t.strides.getD 2 0, t.strides.getD 3 0] }
  | 2 => { t with strides := [t.strides.getD 0 0, t.strides.getD 1 0, lo, hi] }
  | 3 => { t with counts := cnt }
  | 4 => { t with index := cnt }
  | _ => { t with bound := w.getLsbD 63, done := w.getLsbD 9, swz := BitVec.ofNat 3 (fld w 6 3), dims := fld w 4 2, hi := w.getLsbD 3,
                  ty := match fld w 0 3 with
                    | 0 => .i8 | 1 => .i16 | 2 => .i32 | 3 => .i64 | 4 => .n8 | 5 => .n16 | 6 => .n32 | _ => .n64 }

/-- Offsets of the words of a context's area, the inbox image apart, that can be other than zero. -/
def Ctx.areaOffsets (c : Ctx) : List Nat :=
  (c.slotV.flatMap fun e => (List.range 32).map fun i => e.1 * 256 + 8 * i) ++ (c.slotX.map fun e => 0x2000 + 8 * e.1) ++
    ((List.range 16).map fun i => 0x2100 + 8 * i) ++ ((List.range 15).map fun i => 0x21C0 + 8 * i) ++
    ((List.range 48).map fun i => 0x2240 + 8 * i) ++ [0x23C0, 0x23C8] ++
    (c.arch.pend.flatMap fun p => match p.aside with
      | some i => (List.range 32).map fun j => 0x2500 + 256 * i + 8 * j
      | none => []) ++ c.spare.map (·.1)

/-- Offsets of the words of the reserved part of a slice that can be other than zero, of a core with its contexts and its inbox
image (R189). -/
def areaOffsets (ctx : Nat → Ctx) (k : Core) (image : List Msg) : List Nat :=
  ((List.range 11).flatMap fun t => (ctx t).areaOffsets.map fun o => 0x370000 + t * 0x4000 + o) ++
    ((List.range (2 * image.length)).map fun i => 0x373400 + 8 * i) ++
    ((List.range (8 * k.journal.lines.length)).map fun i => 0x39C000 + 8 * i) ++
    ((List.range (128 * k.matrix.station.length)).map fun i => 0x3DC000 + 8 * i) ++
    ((List.range (128 * k.matrix.shadow.length)).map fun i => 0x3E4000 + 8 * i) ++
    (if k.matrix.rest.isSome then (List.range 0x800).map fun i => 0x3EC000 + 8 * i else []) ++
    (k.matrix.words.map fun e => 0x3DC000 + e.1) ++ ((List.range (2 * k.spill.length)).map fun i => 0x3F0000 + 8 * i) ++
    k.spare.map (·.1)

/-- A supervisor's write of the arrival record (R278): its address, or its epoch. -/
def Ctx.writeArrival (c : Ctx) (i : Nat) (w : Word) : Ctx :=
  let r := c.arrRec.getD (0, 0)
  { c with arrRec := some (if i = 0 then (w, r.2) else (r.1, w.setWidth 32)) }

/-- A word written into the slot of an x or v register (R174, R186). -/
def Ctx.writeSlot (c : Ctx) (off : Nat) (w : Word) : Ctx :=
  if off < 0x2000 then
    let j := off / 8 % 32
    let old := Map.get [] c.slotV (off / 256)
    { c with slotV := Map.set c.slotV (off / 256) (lanesOf fun n =>
        if n = 2 * j then w.setWidth 32 else if n = 2 * j + 1 then (w >>> 32).setWidth 32 else lane old n) }
  else if off < 0x2008 then c
  else { c with slotX := Map.set c.slotX ((off - 0x2000) / 8) w }

/-- The register whose slot holds an offset of a context area. -/
def slotReg? (off : Nat) : Option RegRef :=
  if off < 0x2000 then some (.v, off / 256) else if off < 0x2100 then some (.x, (off - 0x2000) / 8) else none

/-- The registers of a context are written to their slots, dead ones as zero, but for those that a test names (R291, R292). -/
def Ctx.flush (c : Ctx) (but : RegRef → Bool) : Ctx :=
  { c with slotX := (c.arch.xs.filter fun e => c.isLive e.1 && !but (.x, e.1)) ++ c.slotX.filter fun e => but (.x, e.1),
           slotV := (c.arch.vs.filter fun e => c.isLive (32 + e.1) && !but (.v, e.1)) ++ c.slotV.filter fun e => but (.v, e.1) }

/-- The slot of a register takes the register's value (R291). -/
def Ctx.sinkSlot (c : Ctx) (r : RegRef) : Ctx :=
  match r.1 with
  | .x => { c with slotX := Map.set c.slotX r.2 (Map.get 0 c.arch.xs r.2) }
  | .v => { c with slotV := Map.set c.slotV r.2 (Map.get [] c.arch.vs r.2) }
  | .p => c

/-- The x and v registers of a context whose values an earlier state of it did not have. -/
def Ctx.changed (c old : Ctx) : List RegRef :=
  (c.arch.xs.filter fun e => Map.get 0 old.arch.xs e.1 != e.2).map (fun e => (RKind.x, e.1)) ++
    (c.arch.vs.filter fun e => Map.get [] old.arch.vs e.1 != e.2).map fun e => (RKind.v, e.1)

/-- A supervisor's 8-byte write into a context area, the status slot apart (R162, R164, R168, R174); a register takes its slot's new
value. -/
def Ctx.writeArea (c : Ctx) (off : Nat) (w : Word) : Ctx :=
  let c := if off < 0x2100 then c.writeSlot off w else c
  let i := off / 8
  let lo := BitVec.ofNat 32 w.toNat
  let hi := BitVec.ofNat 32 (w.toNat / 2 ^ 32)
  if off < 0x2000 then
    let j := i % 32
    c.setV (off / 256) (BitVec.ofNat 64 (2 ^ (2 * j) + 2 ^ (2 * j + 1)))
      (lanesOf fun n => if n = 2 * j then lo else hi)
  else if off < 0x2100 then c.setX ((off - 0x2000) / 8) w
  else if off < 0x2140 then c.setP ((off - 0x2100) / 8) w
  else if off < 0x2180 then
    match (off - 0x2140) / 8 with
    | 1 => { c with cause := causeWord (BitVec.ofNat 8 w.toNat) (BitVec.ofNat 8 (fld w 16 8)) }
    | 2 => if fld w 0 2 = 0 then { c with epc := w } else c
    | 3 => { c with faddr := w }
    | 4 => c.setLive w
    | 5 => c.setLoopc w
    | 6 => if fld w 0 2 = 0 then { c with arch := { c.arch with loopa := w } } else c
    | 7 => { c with resume := w }
    | _ => c
  else if 0x21C0 ≤ off && off < 0x2238 then
    c.writeHeader ((off - 0x21C0) / 8) w
  else if 0x2240 ≤ off && off < 0x23C0 then
    let j := (off - 0x2240) / 48
    { c with arch := { c.arch with
      streams := Map.set c.arch.streams j ((c.stream j).setWord ((off - 0x2240) % 48 / 8) w) } }
  else if 0x23C0 ≤ off && off < 0x23D0 then c.writeArrival ((off - 0x23C0) / 8) w
  else if 0x2500 ≤ off && off < 0x3400 then c.writeValue off w
  else c

end Sys2Proof.Machine
end

