-- ==== Sys2Proof/Machine/Ops.lean ====
section
/-! DEFINITION. Operations over memory, registers and contexts that the instructions share: messages and watches, landing a
write at its home, chunks and squashes (R211 to R217), translation (R187, R188, R318 to R320), taking a trap (R165 to R169)
and returning from one (R171), resuming and ending a context (R168). -/

namespace Sys2Proof.Machine

open Sys2Proof

/-! ### Messages and watches -/

/-- Spilled entries move into the inbox while it has room, the oldest first (R258). -/
def Core.refill (k : Core) : Core :=
  { k with inbox := (k.inbox ++ k.spill).take 64, spill := (k.inbox ++ k.spill).drop 64 }

/-- Appends a message to a core's inbox sequence: to the inbox where it has room after the moves from the spill area that are
still due, else to the end of the spill area (R258). -/
def Core.push (k : Core) (m : Msg) : Core := { k with spill := k.spill ++ [m] }.refill

/-- Entries and reservations of a core's sequence (R258). -/
def Core.places (k : Core) : Nat := k.inbox.length + k.spill.length + k.resv

/-- Whether a course is in a stop: a rotation pause, a self-test pause, or a pre-emption or migration stop (R345, R358). -/
def State.inStop (s : State) (c : Nat) : Bool :=
  (s.course c).stopped || match s.ownerRegion c with | some r => r.run == .stopping | none => false

/-- Whether a core's course moves: the lines of its ashlar move, and its own restart has not ended (R341, R344). -/
def State.gated (s : State) (core : Nat) : Bool :=
  (s.ashlar (core / 256)).phase == .moved && (s.ashlar (core / 256)).moving.contains (core / 8 % 32)

/-- Puts a message into a core's sequence; while the core's course moves, the message sinks into a mortar buffer (R341). -/
def State.push (s : State) (core : Nat) (m : Msg) : State :=
  if s.gated core then { s with mortar := s.mortar ++ [⟨core, .msg m⟩] }
  else s.modCore core fun k => k.push m

/-- Posts a message into a place reserved for it (R260). -/
def State.postReserved (s : State) (core : Nat) (m : Msg) : State :=
  (s.modCore core fun k => { k with resv := k.resv - 1 }).push core m

/-- Posts an engine completion to the context that issued the command (R259, R260). -/
def State.complete (s : State) (core tid : Nat) (tag : BitVec 16) (payload : Word) : State :=
  s.postReserved core ⟨tid, msgHeader (s.cidOf core) tid 2 tag.toNat, payload⟩

/-- The first event that reaches a watch entry is latched; a write replaces any other status (R264). -/
def Watch.latchWith (w : Watch) (st : Nat) : Watch :=
  { w with latch := match w.latch with
      | none => some st
      | some o => if st = 0 then some 0 else some o }

/-- Number that stands for the plinth in watch registrations (R364). -/
def plinthCore : Nat := 2048

/-- Number that stands in watch registrations for a peer device, whose entries are no state of this one (R268, R392). -/
def peerCore (device : BitVec 10) : Nat := 0x1000 + device.toNat

/-- Number that stands in watch registrations for a core of a pre-empted region, by its `cid` (R263). -/
def imageCore (rid : BitVec 16) (cid : Nat) : Nat := 0x10000 + rid.toNat * 2048 + cid

/-- The core in a pre-empted region's image for which a number stands. -/
def imageOf? (core : Nat) : Option (BitVec 16 × Nat) :=
  if core < 0x10000 then none else some (BitVec.ofNat 16 ((core - 0x10000) / 2048), (core - 0x10000) % 2048)

/-- The watch table of a core, of a core in a pre-empted region's image, or the plinth's (R263, R364). -/
def State.watchesOf (s : State) (core : Nat) : List (Nat × Watch) :=
  match imageOf? core with
  | some (rid, cid) =>
    match (s.region? rid).bind (·.saved) with
    | some v => (Map.get Core.fresh v.cores cid).watches
    | none => []
  | none => if core = plinthCore then s.dev.plinthWatches else (s.core core).watches

/-- Replaces the watch table of a core, of a core in an image, or the plinth's. -/
def State.setWatches (s : State) (core : Nat) (ws : List (Nat × Watch)) : State :=
  match imageOf? core with
  | some (rid, cid) => s.modRegion rid fun r => { r with saved := r.saved.map fun v =>
      { v with cores := Map.set v.cores cid { Map.get Core.fresh v.cores cid with watches := ws } } }
  | none =>
    if core = plinthCore then { s with dev := { s.dev with plinthWatches := ws } }
    else if plinthCore < core then s
    else s.modCore core fun k => { k with watches := ws }

/-- Latches a status in the watch entries that a test selects. -/
def State.latchWhere (s : State) (core : Nat) (p : Nat → Watch → Bool) (st : Nat) : State :=
  s.setWatches core ((s.watchesOf core).map fun e => if p e.1 e.2 then (e.1, e.2.latchWith st) else e)

/-- A write of a line is performed at its home (R254, R263): the entries of cores that a test names are told at once and
their registrations drained; the other registrations hold a report that is on its way (WATCH_REPORT). -/
def State.reportLine (now : Nat → Bool) (s : State) (line : Nat) : State :=
  (s.filters.filter fun r => r.line == line && now r.core).foldl
    (fun s r => s.latchWhere r.core (fun e w => e == r.entry && w.line == line) 0)
    { s with filters := (s.filters.filter fun r => !(r.line == line && now r.core)).map fun r =>
        if r.line = line then { r with hit := true } else r }

/-- A word of the plinth's register block has been written: the plinth's watches are told (R364). -/
def State.regWritten (s : State) (off : Nat) : State := s.reportLine (· == plinthCore) (lineOf (Home.loc (.regs off)))

/-- Adds bytes to what was requested of a stack in a microsecond. -/
def addAsked (stack us n : Nat) : List (Nat × Nat × Nat) → List (Nat × Nat × Nat)
  | [] => [(stack, us, n)]
  | e :: es => if e.1 = stack && e.2.1 = us then (stack, us, e.2.2 + n) :: es else e :: addAsked stack us n es

/-- A core's request for bytes of a stack below heat level 0 counts toward what its partition has requested in this microsecond
(R381, R382). -/
def State.ask (s : State) (core : Option Nat) (loc n : Nat) : State :=
  match homeOf loc, core.bind fun k => s.ownerRegion (k / 8) with
  | .hbm a, some r =>
    if Map.get 0 s.dev.heat (a / 0x1400000000) = 0 then s
    else { s with partitions := s.partitions.map fun (e : BitVec 16 × Partition) =>
      if e.1 = r.pkey then (e.1, { e.2 with asked := addAsked (a / 0x1400000000) (s.devTime / 10000) n e.2.asked }) else e }
  | _, _ => s

/-! ### Landing a write at its home -/

/-- Bytes of memory in a range read zero from now on. -/
def Memory.clear (m : Memory) (lo n : Nat) : Memory := m.filter fun c => decide (c.1 < lo) || decide (lo + n ≤ c.1)

/-- A byte of the memory itself, whatever its piece's mark. -/
def State.rawByte (s : State) (loc : Nat) : Byte := Memory.get s.mem loc

/-- The byte at its home: a byte of an unmarked piece reads zero (R190); the reserved part of a slice, that of a saved slice in
HBM, and the plinth's register block are views of the state (R174, R189, R365). -/
def State.homeByte (s : State) (loc : Nat) : Byte :=
  match homeOf loc with
  | .slice core off =>
    if off < progEnd then (if (s.core core).foot.testBit (off / 4096) then s.rawByte loc else 0)
    else s.areaByte core off
  | .regs off => BitVec.ofNat 8 ((s.regWord (off / 8 * 8)).toNat / 2 ^ (8 * (off % 8)))
  | .hbm a => match s.savedAt a with | some (_, v, cid, off) => v.byte cid off | none => s.rawByte loc
  | _ => s.rawByte loc

/-- Bytes at their home, from a location on. -/
def State.homeBytes (s : State) (loc n : Nat) : List Byte := (List.range n).map fun i => s.homeByte (loc + i)

/-- Marks the piece of a slice that holds an offset; the piece's other bytes read zero, whatever errors an earlier owner's
bytes held (R190, R355). -/
def State.markPiece (s : State) (core off : Nat) : State :=
  let k := s.core core
  let at0 := Home.loc (.slice core (off / 4096 * 4096))
  if k.foot.testBit (off / 4096) then s
  else
    { s with mem := Memory.clear s.mem at0 4096, poison := s.poison.filter fun w => w * 8 / 4096 != at0 / 4096 }.setCore core
      { k with foot := k.foot ||| 2 ^ (off / 4096)
               journal := { k.journal with pieces := k.journal.pieces ++ [off / 4096] } }

/-- Copies the pre-image of a line into the journal at its first write since the keystone (R355). -/
def State.journalLine (s : State) (core line : Nat) : State :=
  let j := (s.core core).journal
  if j.lines.any fun e => e.1 == line then s
  else if 4096 ≤ j.lines.length then s.modCore core fun k => { k with journal := { j with overflow := true } }
  else
    let pre := if j.pieces.contains (line * 64 % 0x400000 / 4096) then List.replicate 64 0 else s.homeBytes (line * 64) 64
    s.modCore core fun k => { k with journal := { j with lines := j.lines ++ [(line, pre)] } }

/-- Makes a slice ready for a write of n bytes at an offset of its program part (R190, R355). -/
def State.touchLines (s : State) (core off n : Nat) : State :=
  let first := off / 64
  (List.range ((off + n - 1) / 64 - first + 1)).foldl (fun s i =>
    (s.markPiece core ((first + i) * 64)).journalLine core (lineOf (Home.loc (.slice core ((first + i) * 64))))) s

/-- Lines of n bytes at a location. -/
def linesOf (loc n : Nat) : List Nat :=
  (List.range ((loc + n - 1) / 64 - loc / 64 + 1)).map fun i => loc / 64 + i

/-- Whether two lines share a bit of a signature: they are one line, or a false match (R211, R213). -/
def sharesBit (a b : Nat) : Bool := a == b || Config.sigHit a b

/-- Whether an open chunk's signatures share a bit with a write of some lines (R213). -/
def Chunk.hit (c : Chunk) (lines : List Nat) : Bool :=
  c.start.isSome && lines.any fun l => (c.reads.any (sharesBit l)) || c.writes.any (sharesBit l)

/-- Discards an open chunk: registers return to their values at its start (R213). -/
def Ctx.squash (c : Ctx) : Ctx :=
  match c.chunk.start with
  | none => c
  | some a => { c with arch := a, park := none, stalled := false, ahead := [],
                       chunk := { Chunk.empty with squashes := c.chunk.squashes + 1 } }

/-- The parked misses of some contexts leave a course's miss table; those of engines stay. -/
def State.dropMisses (s : State) (course : Nat) (g : List Agent) : State :=
  s.modCourse course fun k => { k with miss := k.miss.filter fun m => m.engine.isSome || !g.contains m.who }

/-- Squashes the chunk of a group; a group squashed four times in succession takes the commit token where it is free
(R213, R214, R216). -/
def State.squash (s : State) (course : Nat) (g : List Agent) : State :=
  let s := (g.foldl (fun s a => s.modCtx a Ctx.squash) s).dropMisses course g
  match g with
  | [] => s
  | a :: _ =>
    if decide (4 ≤ (s.ctx a).chunk.squashes) && (s.course course).token.isNone then
      s.modCourse course fun k => { k with token := some a }
    else s

/-- Contexts of a course that have state of their own. -/
def State.ctxsIn (s : State) (course : Nat) : List Agent :=
  (s.ctxs.map (·.1)).filter fun a => a.course? == some course

/-- Squashes every open chunk of a course that a write of some lines meets, but those of a group that commits
(R213, R216). -/
def State.squashHits (s : State) (course : Nat) (lines : List Nat) (but : List Agent) : State :=
  ((s.ctxsIn course).filter fun a => !but.contains a && (s.ctx a).chunk.hit lines).foldl
    (fun s a => if (s.ctx a).chunk.hit lines then s.squash course (s.group a) else s) s

/-- Whether a write of some lines meets the chunk of a course's token holder (R214). -/
def State.tokenMeets (s : State) (loc n : Nat) (but : List Agent) : Bool :=
  match homeOf loc with
  | .slice core _ =>
    match (s.course (core / 8)).token with
    | some h => !(s.group h).any but.contains && (s.group h).any fun a => (s.ctx a).chunk.hit (linesOf loc n)
    | none => false
  | _ => false

/-- Whether a write waits at its slice port: the token holder's chunk meets it, or an earlier write waits there (R214). -/
def State.tokenBlocks (s : State) (loc n : Nat) (but : List Agent) : Bool :=
  s.tokenMeets loc n but || match homeOf loc with | .slice core _ => !(s.core core).port.isEmpty | _ => false

/-- Where a write comes from, for the arrival trace ring (R220): kind, `cid` or 0x7FF, context, core on the device. -/
structure From where
  kind : Nat
  src : Nat
  tid : Nat
  core : Option Nat

/-- An access of an agent's own; a quoin's and the plinth's are traced as the host's (log entry 82). -/
def State.fromAgent (s : State) (kind : Nat) (a : Agent) : From :=
  match a.core? with
  | some n => ⟨kind, s.cidOf n, a.tid, some n⟩
  | none => ⟨3, 0x7FF, 0, none⟩

/-- A write by the host or a peer (R220). -/
def From.outside : From := ⟨3, 0x7FF, 0, none⟩

/-- Logs an arrival at a slice port from an agent other than the slice's own core, an engine among them whatever core commands
it, where the owner's block enables the ring (R220, R329). -/
def State.trace (s : State) (core off win : Nat) (f : From) : State :=
  let on := match s.ownerRegion (core / 8) with | some r => r.eff.trace | none => false
  if on && (f.kind == 2 || f.core != some core) then
    s.modCore core fun k =>
      let i := k.ringHead.toNat % 256
      let e := BitVec.ofNat 64 (at' f.kind 62 + at' (f.src % 2 ^ 11) 51 + at' (f.tid % 16) 47 + at' (win % 8) 44 +
        at' (k.ltime80 / 80 % 2 ^ 22) 22 + off % 2 ^ 22)
      { k with ring := Map.set k.ring i e,
               ringHead := BitVec.ofNat 9 ((i + 1) % 256 + if i = 255 || k.ringHead.getLsbD 8 then 256 else 0) }
  else s

/-- Logs the elements of a write, in their order; each is one write (R219, R220). -/
def State.traceAll (s : State) (core off n : Nat) (w : Write) (f : From) : State :=
  let e := w.elem % 2 ^ 16
  let is := List.range (if e = 0 then 1 else max 1 (n / e))
  (if w.elem < 2 ^ 16 then is else is.reverse).foldl (fun s i => s.trace core (off + i * e) w.win f) s

/-- Sets the journal's far flag of the core whose context or engine has written beyond the slices (R355). -/
def State.markFar (s : State) (f : From) : State :=
  match f.core with
  | some n => s.modCore n fun k => { k with journal := { k.journal with far := true } }
  | none => s

/-- Bytes that an uncorrectable error affects together: a bank word of 8, or a 64-byte line of HBM or of host memory (R191). -/
def errorGrain (loc : Nat) : Nat := match homeOf loc with | .hbm _ | .host _ => 64 | _ => 8

/-- A write that replaces a whole bank word or line removes an uncorrectable error there (R191). -/
def State.heal (s : State) (loc n : Nat) : State :=
  { s with poison := s.poison.filter fun w =>
      let g := errorGrain (w * 8)
      !(decide (loc ≤ w * 8 / g * g) && decide (w * 8 / g * g + g ≤ loc + n)) }

/-- A write of the rotation control word by the plinth (R335, R336). -/
def State.writeRotation (s : State) (w : Word) : State :=
  let d := s.dev
  let code := BitVec.ofNat 3 (fld w 60 3)
  let okCode := code == 0 || code == 7 || ((code == 1 || code == 2) && d.fuses.isEmpty)
  let lay := if okCode && !d.launched then code else d.rotLayout
  let iv := fld w 32 10
  let okIv := decide (1 ≤ iv) && decide (iv ≤ 1000)
  let next := if okIv && d.nextTick.isSome then some (max (d.prevTick + iv * 10000000) s.devTime) else d.nextTick
  { s with dev := { d with rotEnable := w.getLsbD 63, rotLayout := lay,
                           rotInterval := if okIv then BitVec.ofNat 10 iv else d.rotInterval, nextTick := next } }

/-- A write of a site's `cadence` by the plinth: 0 and 17 to 31 change nothing (R132). -/
def State.writeCadence (s : State) (site : Nat) (w : Word) : State :=
  let v := fld w 0 5
  if 1 ≤ v && v ≤ 16 then s.modBlock site fun b => { b with cadence := BitVec.ofNat 5 v } else s

/-- Ends the sprint of the course on a site at the next boundary (R379). -/
def State.endSprint (s : State) (site : Nat) : State :=
  match s.courseAt site with
  | some c => if (s.course c).step = 0 then s else s.modCourse c fun k => { k with sprintEnd := true }
  | none => s

/-- A write of a site's `issuegap` by the plinth; a gap raised above 0 ends a sprint (R374, R379). -/
def State.writeGap (s : State) (site : Nat) (w : Word) : State :=
  let v := BitVec.ofNat 3 (fld w 0 3)
  let s' := s.modBlock site fun b => { b with gap := v }
  if (s.block site).gap == 0 && v != 0 then s'.endSprint site else s'

/-- A plinth store to a word of its register block (R365); the other words are read-only. -/
def State.writeReg (s : State) (off : Nat) (w : Word) : State :=
  if off = 0 then s.writeRotation w
  else if off < 0x10000 then s
  else match (off - 0x10000) % 64 with
    | 0 => s.writeCadence ((off - 0x10000) / 64) w
    | 8 => s.writeGap ((off - 0x10000) / 64) w
    | _ => s

/-! ### Trap notices, gangs, ending and resuming -/

/-- Puts a notice before a course's quoin (R167, R180, R322). -/
def State.notify (s : State) (course : Nat) (n : Notice) : State :=
  s.modCourse course fun k => { k with notices := k.notices ++ [n] }

/-- Dissolves the gang of a core (R307). -/
def State.dissolve (s : State) (core : Nat) : State :=
  (s.gangCores core).foldl (fun s n => s.modCore n fun k => { k with gang := none }) s

/-- Dissolves a gang that loses a member: every other member raises cause 0x10, at once at its next instruction, or after it
has completed the instruction at which the gang dissolved (R169, R303). -/
def State.loseMember (s : State) (a : Agent) (completed : Bool) : State :=
  match a with
  | .ctx c k 0 =>
    let core := coreId c k
    if (s.core core).gang.isNone then s
    else
      ((s.gangCores core).filter (· != core)).foldl
        (fun s n => s.modCtx (ctxOf n 0) fun x => { x with lost := some (BitVec.ofNat 8 k, completed) }) s |>.dissolve core
  | _ => s

/-- Frees the watch entries of a context (R263). A registration leaves its home's filter by a report or an ejection alone
(R254); its report finds no entry. -/
def State.freeWatches (s : State) (core tid : Nat) : State :=
  s.setWatches core ((s.watchesOf core).filter fun e => e.2.owner != tid)

/-- Ends a stream binding: its record and its entries go (R277). -/
def Ctx.unbind (c : Ctx) (j : Nat) : Ctx :=
  { c with arch := { c.arch with streams := Map.erase c.arch.streams j, taken := Map.erase c.arch.taken j },
           bufs := Map.erase c.bufs j }

/-- Discards the entries fetched ahead of every stream (R278). -/
def Ctx.dropBufs (c : Ctx) : Ctx := { c with bufs := [], arch := { c.arch with taken := [] } }

/-- Releases the commit token where a context holds it (R214). -/
def State.dropToken (s : State) (a : Agent) : State :=
  match a.course? with
  | some c => if (s.course c).token == some a then s.modCourse c fun k => { k with token := none } else s
  | none => s

/-- Payload of a helper-end message (R305). -/
def endPayload (reason tid : Nat) : Word := BitVec.ofNat 64 (at' (reason % 16) 4 + tid % 16)

/-- What the end of a context leaves, for whatever reason: run is 11, it leaves the order, its watch entries and bindings
end, its set-aside results and its open chunk are discarded (R168, R263, R305). -/
def State.retireCtx (s : State) (a : Agent) : State :=
  let s := s.modCtx a fun c =>
    { c with run := 3, park := none, stalled := false, lost := none, chunk := Chunk.empty, bufs := [], origin := .none,
             spare := [], arch := { c.arch with pend := [], streams := [], taken := [], outs := [] } }
  match a.core? with
  | some n =>
    ((s.freeWatches n a.tid).modCore n fun k =>
      { k with order := k.order.filter (· != a.tid), rfile := k.rfile.filter fun e => e.tid != a.tid,
               fillQ := k.fillQ.filter (· != a.tid),
               current := if k.current = some a.tid then none else k.current }).dropToken a
  | none => s

/-- A supervisor ends a running or held context by run := 11 (R168, R169, R250, R305); one that waits in `wfi` is left by
run := 00 or teardown alone (R172, R289). -/
def State.endCtx (s : State) (a : Agent) : State :=
  if (s.ctx a).run = 3 || (s.ctx a).run = 2 then s
  else
    let o := (s.ctx a).origin
    let s := (s.loseMember a true).retireCtx a
    match a.core?, o with
    | some n, .hstart =>
      s.postReserved n ⟨0, msgHeader (s.cidOf n) a.tid 3 0, endPayload 1 a.tid⟩
    | some n, .sweep => s.modCore n fun k => { k with sweep := k.sweep.map fun w => { w with ending := some 5 } }
    | _, _ => s

/-- A trap: its cause, subcode and fault address, and where `epc` points past the instruction (R161, R170). -/
structure Trap where
  cause : BitVec 8
  sub : BitVec 8
  faddr : Word
  past : Bool
  deriving DecidableEq, Repr

/-- A trap whose `epc` is the instruction that raises it. -/
def Trap.at (cause sub : BitVec 8) (faddr : Word) : Trap := ⟨cause, sub, faddr, false⟩

/-- Whether a trap goes to the region's program handler (R166, R241). -/
def State.delegates (s : State) (a : Agent) (t : Trap) : Option Word :=
  let c := s.ctx a
  match s.regionOf a with
  | some r =>
    if a.program && delegable.getLsbD t.cause.toNat && c.deleg.getLsbD t.cause.toNat && r.eff.trap != 0 &&
        !c.intrap && c.origin != .sweep
    then some r.eff.trap else none
  | none => none

/-- The wait for a page of a context: a held context's access remains parked (R167). -/
def Ctx.missPark (c : Ctx) : Option Park := match c.park with | some (.miss vas) => some (.miss vas) | _ => none

/-- Whether a byte's bank word or line is read at all: a byte of an unmarked piece reads zero whatever the SRAM holds (R190). -/
def State.marked (s : State) (loc : Nat) : Bool :=
  match homeOf loc with
  | .slice core off => decide (progEnd ≤ off) || (s.core core).foot.testBit (off / 4096)
  | _ => true

/-- Whether bytes at a location are affected by an uncorrectable error (R190, R191). -/
def State.poisoned (s : State) (loc n : Nat) : Bool :=
  s.poison.any fun w => decide (w * 8 < loc + n) && decide (loc < w * 8 + 8) && s.marked (w * 8)

/-- The offset of a register's slot in its slice (R174, R189). -/
def slotOff (tid : Nat) (k : RKind) (r : Nat) : Nat :=
  0x370000 + tid * 0x4000 + match k with | .v => r * 256 | _ => 0x2000 + r * 8

/-- Whether a register's slot holds an uncorrectable error (R291). -/
def State.slotPoison (s : State) (core tid : Nat) (k : RKind) (r : Nat) : Bool :=
  s.poisoned (Home.loc (.slice core (slotOff tid k r))) (match k with | .v => 256 | _ => 8)

/-- Whether the write-back of a register-file entry meets an uncorrectable error: the entry is dirty and its register not dead
(R291, R292). -/
def State.backFault (s : State) (core : Nat) (e : RegEntry) : Bool :=
  e.dirty && (s.ctx (ctxOf core e.tid)).isLive (e.reg + if e.kind = .v then 32 else 0) && s.slotPoison core e.tid e.kind e.reg

/-- Cause 0x0F, subcode 1, in a context whose registers are written back at its hold, at a stop or at a keystone: the context is held
where it stands (R291; log entry 77). -/
def Ctx.holdBack (c : Ctx) (off : Nat) : Ctx :=
  { c with cause := causeWord 0x0F 1, faddr := BitVec.ofNat 64 off, epc := if c.run = 1 then c.epc else c.arch.pc,
           resume := if c.run = 1 then c.resume else c.arch.pc, run := 1, park := c.missPark }

/-- The registers of a context are written back to their slots; an error that a write-back meets holds the context (R291). -/
def State.writeBack (s : State) (a : Agent) : State :=
  match a with
  | .ctx c k t =>
    let n := coreId c k
    let bad := (s.core n).rfile.filter fun e => e.tid == t && s.backFault n e
    let s := (s.modCtx a fun x => x.flush fun r => bad.any fun e => (e.kind, e.reg) == r).modCore n fun x =>
      { x with rfile := x.rfile.map fun e => if e.tid = t then { e with dirty := false } else e }
    match bad with
    | [] => s
    | e :: _ =>
      (s.modCtx a (·.holdBack (slotOff t e.kind e.reg))).notify c
        (.trap (s.ownerRid c) k t (causeWord 0x0F 1) (BitVec.ofNat 64 (slotOff t e.kind e.reg)))
  | _ => s

/-- The registers of a context that is held or stopped are written back to their slots, and none is pinned by a fill any longer
(R167, R173, R291). -/
def State.cleanFile (s : State) (a : Agent) : State :=
  match a.core? with
  | some n => (s.writeBack a).modCore n fun k =>
      { k with rfile := k.rfile.map fun e => if e.tid = a.tid then { e with pinned := false } else e }
  | none => s

/-- Registers whose value a step has changed: those the register file holds are dirty, and a result that has landed for one that it
does not hold is written to its slot (R291). -/
def State.sink (s old : State) (a : Agent) : State :=
  match a.core? with
  | some n =>
    let new := (s.ctx a).changed (old.ctx a)
    let held (r : RegRef) : Bool := (s.core n).rfile.any fun e => e.tid == a.tid && (e.kind, e.reg) == r
    ((new.filter fun r => !held r).foldl (fun s r => s.modCtx a (·.sinkSlot r)) s).modCore n fun k =>
      { k with rfile := k.rfile.map fun e => if e.tid = a.tid && new.contains (e.kind, e.reg) then { e with dirty := true } else e }
  | none => s

/-- TAKING A TRAP (R165 to R167), once the open chunk has committed: results are set aside, `cause`, `epc` and `faddr` are
written, and the trap goes to the program handler, or holds the context and posts a notice to the quoin. -/
def State.deliver (s : State) (a : Agent) (t : Trap) (epc : Word) : State :=
  let entry := s.delegates a t
  let s := s.modCtx a fun c =>
    let c := c.setAside
    { c with cause := causeWord t.cause t.sub, epc := epc, faddr := t.faddr, nested := c.nested || c.intrap,
             park := c.missPark, stalled := false, ahead := [], lost := none }
  match entry with
  | some e => s.modCtx a fun c => { c with intrap := true, arch := { c.arch with pc := e } }
  | none =>
    let s := (s.modCtx a fun c => ({ c with run := 1, resume := c.arch.pc } : Ctx).dropBufs).cleanFile a
    match a with
    | .ctx c k i => s.notify c (.trap (s.ownerRid c) k i (causeWord t.cause t.sub) t.faddr)
    | _ => s

/-- RETURNING FROM THE PROGRAM HANDLER (R171): intrap is cleared and execution continues at `epc`; `cause`, `faddr`, nested
and the set-aside results stand. -/
def Ctx.eret (c : Ctx) : Ctx := { c with intrap := false, ahead := [], arch := { c.arch with pc := c.epc } }

/-- Slice offset of a context's set-aside header (R174, R189). -/
def headerOff (tid i : Nat) : Nat := 0x370000 + tid * 0x4000 + 0x21C0 + 8 * i

/-- A context that resumes with a set-aside header of kind 11 raises cause 0x0F (R174); the spec gives no `faddr` for it, and
the model reports the slice offset of the header (log entry 59). -/
def State.badHeader (s : State) (a : Agent) : State :=
  let c := s.ctx a
  match c.arch.pend.find? fun p => decide (32 ≤ p.reg) with
  | some p => s.deliver a (.at 0x0F 0 (BitVec.ofNat 64 (headerOff a.tid (p.aside.getD 0)))) c.arch.pc
  | none => s

/-- A supervisor resumes a context by run := 00 (R168, R172, R373): a held one continues at `epc`, one that waits in `wfi`
after it; an access that is parked on a page stays parked (R167). -/
def State.resumeCtx (s : State) (a : Agent) : State :=
  let c := s.ctx a
  let s := match a.core? with
    | some n => if c.run = 3 then s else s.modCore n fun k => { k with gated := false, idleFrom := none }
    | none => s
  if c.run = 1 then
    ((s.modCtx a fun c =>
      ({ c with run := 0, park := c.missPark, stalled := false, ahead := [], arch := { c.arch with pc := c.epc } } : Ctx).settle).sink
        s a).badHeader a
  else if c.run = 2 then (s.modCtx a fun c => { c with run := 0, park := none, stalled := false }).badHeader a
  else s

/-- A supervisor's write of `status` (R162, R168): deleg is set; run := 00 resumes and run := 11 ends; the spec gives no effect
to a supervisor's run := 01 or 10, and the model gives none (R289; log entry 60); `clr` is presented to nested, W1C. -/
def State.writeStatusSv (s : State) (a : Agent) (w clr : Word) : State :=
  let s := s.modCtx a fun c => ({ c with deleg := BitVec.ofNat 32 (fld w 32 32) &&& delegable } : Ctx).writeNested clr
  match fld w 16 2 with
  | 0 => s.resumeCtx a
  | 3 => s.endCtx a
  | _ => s

/-- A message with one of its words replaced. -/
def Msg.put (m : Msg) (off : Nat) (w : Word) : Msg := if off % 16 < 8 then { m with header := w } else { m with payload := w }

/-- A supervisor's write of a word of the inbox image, at an offset of context 0's area (R174); a word where no message is stays
beside the messages. -/
def Core.putImage (k : Core) (o : Nat) (w : Word) : Core :=
  if (o - 0x3400) / 16 < k.image.length then { k with image := k.image.modify ((o - 0x3400) / 16) (·.put o w) }
  else { k with spare := Map.set k.spare (0x370000 + o) w }

/-- A supervisor's write of a word of the inbox spill area, at a slice offset (R189). -/
def Core.putSpill (k : Core) (off : Nat) (w : Word) : Core :=
  if (off - 0x3F0000) / 16 < k.spill.length then { k with spill := k.spill.modify ((off - 0x3F0000) / 16) (·.put off w) }
  else { k with spare := Map.set k.spare off w }

/-- A supervisor's 8-byte store into the reserved part of a slice: context areas, the inbox image, the matrix save area and the
inbox spill area take it (R174, R186, R189); the journal is the hardware's own. A register that the register file holds for a
running context keeps its value, and its slot alone is written (R291; log entry 77). -/
def State.writeArea (s : State) (core off : Nat) (w : Word) : State :=
  if off < 0x39C000 then
    let t := (off - 0x370000) / 0x4000
    let a := ctxOf core t
    let o := (off - 0x370000) % 0x4000 / 8 * 8
    if o = 0x2140 then s.writeStatusSv a w w
    else if t = 0 && 0x3400 ≤ o && o < 0x3800 then s.modCore core fun k => k.putImage o w
    else
      let held := (s.ctx a).run == 0 && (s.core core).rfile.any fun e => e.tid == t && slotReg? o == some (e.kind, e.reg)
      s.modCtx a fun c => if held then c.writeSlot o w else c.writeArea o w
  else if off < 0x3DC000 then s
  else if off < 0x3F0000 then s.modCore core fun k => { k with matrix := k.matrix.write ((off - 0x3DC000) / 8 * 8) w }
  else s.modCore core fun k => k.putSpill (off / 8 * 8) w

/-- A supervisor's write of `status` in a saved context area (R162, R168, R172): run := 00 lets the context go on at `epc`, or
after its `wfi`, once the region resumes; run := 11 ends it. -/
def Ctx.writeStatusSaved (c : Ctx) (w : Word) : Ctx :=
  let c := ({ c with deleg := BitVec.ofNat 32 (fld w 32 32) &&& delegable } : Ctx).writeNested w
  match fld w 16 2 with
  | 0 =>
    if c.run = 1 then
      let d := ({ c with run := 0, resume := c.epc, arch := { c.arch with pc := c.epc } } : Ctx).settle
      (d.changed c).foldl Ctx.sinkSlot d
    else if c.run = 2 then { c with run := 0 } else c
  | 3 => if c.run = 2 then c else
      { c with run := 3, park := none, lost := none, origin := .none, spare := [],
               arch := { c.arch with pend := [], streams := [], taken := [], outs := [] } }
  | _ => c

/-- A saved context that the supervisor ends frees its watch entries; a helper posts its helper end into the image, or ends its sweep
(R175, R250, R263, R305). -/
def Core.endSaved (k : Core) (cid t : Nat) (old new : Ctx) : Core :=
  if old.run = 3 || new.run != 3 then k
  else
    let k := { k with watches := k.watches.filter fun e => e.2.owner != t, order := k.order.filter (· != t),
                      current := if k.current = some t then none else k.current }
    match old.origin with
    | .hstart => { k with resv := k.resv - 1 }.push ⟨0, msgHeader cid t 3 0, endPayload 1 t⟩
    | .sweep => { k with sweep := k.sweep.map fun w => { w with ending := some 5 } }
    | .none => k

/-- A supervisor's 8-byte store into the reserved part of a saved slice (R174, R175); run := 00 ends the power gating of the context's
core (R373). -/
def Saved.write (v : Saved) (cid off : Nat) (w : Word) : Saved :=
  let k := v.core cid
  let put (k : Core) : Saved := { v with cores := Map.set v.cores cid k }
  if off < 0x39C000 then
    let t := (off - 0x370000) / 0x4000
    let o := (off - 0x370000) % 0x4000 / 8 * 8
    let c := v.ctx cid t
    if o = 0x2140 then
      let c' := c.writeStatusSaved w
      let woken := fld w 16 2 == 0 && c.run != 3
      { put { k.endSaved cid t c c' with gated := k.gated && !woken } with ctxs := Map.set v.ctxs (ctxOf cid t) c' }
    else if t = 0 && 0x3400 ≤ o && o < 0x3800 then
      let k' := { k with image := k.inbox }.putImage o w
      put { k' with inbox := k'.image, image := k.image }
    else { v with ctxs := Map.set v.ctxs (ctxOf cid t) (c.writeArea o w) }
  else if off < 0x3DC000 then v
  else if off < 0x3F0000 then put { k with matrix := k.matrix.write ((off - 0x3DC000) / 8 * 8) w }
  else put (k.putSpill (off / 8 * 8) w)

/-- The 8-byte word that a write of bytes at an offset leaves, over the word's present value. -/
def overWord (old : Word) (off : Nat) (bs : List Byte) : Word :=
  BitVec.ofNat 64 (bytesNat ((List.range 8).map fun i =>
    if off ≤ i && i < off + bs.length then bs.getD (i - off) 0 else BitVec.ofNat 8 (old.toNat / 2 ^ (8 * i))))

/-- The 8-byte words that bytes at a location leave there, by location, over the words that stand there: a shorter store writes the
rest of its word as it reads (log entry 81). -/
def State.wordsOver (s : State) (loc : Nat) (bs : List Byte) : List (Nat × Word) :=
  (List.range ((loc % 8 + bs.length + 7) / 8)).map fun i =>
    let l := loc / 8 * 8 + 8 * i
    (l, overWord (BitVec.ofNat 64 (bytesNat (s.homeBytes l 8))) (loc - l) (bs.drop (l - loc)))

/-- Bytes written into the reserved part of a slice, word by word (R189). -/
def State.writeAreas (s : State) (core off : Nat) (ws : List (Nat × Word)) : State :=
  ws.zipIdx.foldl (fun s e => s.writeArea core (off / 8 * 8 + 8 * e.2) e.1.2) s

/-- Bytes written into the reserved part of a saved slice (R174). -/
def State.writeSaved (s : State) (rid : BitVec 16) (cid off : Nat) (ws : List (Nat × Word)) : State :=
  let put (v : Saved) : Saved := ws.zipIdx.foldl (fun v e => v.write cid (off / 8 * 8 + 8 * e.2) e.1.2) v
  s.modRegion rid fun r => { r with saved := r.saved.map put }

/-- A WRITE LANDS AT ITS HOME (R190, R191, R213, R220, R263, R355): pieces are marked and lines journalled, the bytes
change, the arrival is traced, watches are told, and open chunks of the home's course that the write meets are squashed,
but those of the group that commits it. -/
def State.land (s : State) (w : Write) (f : From) (but : List Agent) : State :=
  let n := w.data.length
  let wrote (s : State) : State := { s with mem := Memory.write s.mem w.loc w.data }
  let now (core : Nat) : Bool := decide (plinthCore ≤ core) || match homeOf w.loc, f.core with
    | .slice h _, some k => f.kind == 0 && h / 8 == k / 8 && h / 8 == core / 8
    | _, _ => false
  let told (s : State) : State := (linesOf w.loc n).foldl (State.reportLine now) s
  if n = 0 then s
  else match homeOf w.loc with
    | .slice core off =>
      if off < progEnd then
        let s := ((wrote (s.touchLines core off n)).heal w.loc n).traceAll core off n w f
        (told s).squashHits (core / 8) (linesOf w.loc n) but
      else
        told ((s.writeAreas core off (s.wordsOver w.loc w.data)).traceAll core off n w f)
    | .regs off => told (s.writeReg (off / 8 * 8) (overWord (s.regWord (off / 8 * 8)) (off % 8) w.data))
    | .quoin _ _ | .plinth _ => told ((wrote s).heal w.loc n)
    | .hbm a =>
      match s.savedAt a with
      | some (rid, _, cid, off) => told (((s.writeSaved rid cid off (s.wordsOver w.loc w.data)).heal w.loc n).markFar f)
      | none => told ((((wrote s).heal w.loc n).markFar f).ask f.core w.loc n)
    | .host _ | .peer _ _ => told (((wrote s).heal w.loc n).markFar f)

/-! ### Chunks -/

/-- Requests that have not been performed, those that wait at a slice port first (R214). -/
def State.requests (s : State) : List Req :=
  (s.cores.flatMap fun e => e.2.port.filterMap fun x => match x with | .req r => some r | .outside _ _ => none) ++ s.fabric

/-- Whether a request expects a reply: a screed command does not (R246, R248, R256). -/
def ReqOp.replied : ReqOp → Bool
  | .screed .. => false
  | _ => true

/-- Whether a reply has not sunk: a verdict that waits for its resend has (R256, R260). -/
def ReplyOp.holds : ReplyOp → Bool
  | .resend _ _ => false
  | _ => true

/-- Replies that have not sunk at their contexts: in flight, and those that mortar buffers hold (R256, R341). -/
def State.comingReplies (s : State) : List Reply :=
  s.replies ++ s.mortar.filterMap fun m => match m.item with | .reply r => some r | _ => none

/-- Requests and replies that hold a reply slot of a core (R256). -/
def State.slotsUsed (s : State) (core : Nat) : Nat :=
  (s.requests.filter fun r => r.src.core? == some core && r.op.replied).length +
    (s.comingReplies.filter fun r => r.dst.core? == some core && r.op.holds).length

/-- Whether an agent's core has n free reply slots; the quoin and the plinth have no count of them (R256). -/
def State.slotsFree (s : State) (a : Agent) (n : Nat) : Bool :=
  match a.core? with | some k => decide (s.slotsUsed k + n ≤ 4096) | none => true

/-- A far store leaves the core, or waits in it for a reply slot behind earlier ones (R256). -/
def State.sendStore (s : State) (a : Agent) (w : Write) : State :=
  if !s.slotsFree a 1 || !(s.ctx a).unsent.isEmpty then s.modCtx a fun c => { c with unsent := c.unsent ++ [w] }
  else { s with fabric := s.fabric ++ [⟨a, .store w⟩] }

/-- Sends the far stores that wait in a core for a reply slot (R256). -/
def State.pump (s : State) (a : Agent) : State :=
  let ws := (s.ctx a).unsent
  ws.foldl (fun s w => s.sendStore a w) (s.modCtx a fun c => { c with unsent := [] })

/-- A reply slot of a core is free again: the stores of its contexts that wait for one leave (R256). -/
def State.pumpCore (s : State) (a : Agent) : State :=
  match a with
  | .ctx c k _ => (List.range 11).foldl (fun s t => s.pump (.ctx c k t)) s
  | _ => s.pump a

/-- Entries that pops have taken are released (R274). -/
def Ctx.release (c : Ctx) : Ctx :=
  { c with bufs := c.bufs.map fun b => (b.1, b.2.drop (Map.get 0 c.arch.taken b.1)), arch := { c.arch with taken := [] } }

/-- The register-file entries of dead registers are freed without write-back (R292). -/
def State.freeDead (s : State) (a : Agent) : State :=
  match a.core? with
  | some n =>
    let stays (e : RegEntry) : Bool := e.tid != a.tid || (s.ctx a).isLive (e.reg + if e.kind = .v then 32 else 0)
    s.modCore n fun k => { k with rfile := k.rfile.filter stays }
  | none => s

/-- Commits the chunk of one context: its near stores land, its far stores leave in program order, the entries its pops
took are released, and an empty chunk opens (R211, R213, R274). -/
def State.commitOne (s : State) (but : List Agent) (a : Agent) : State :=
  let c := s.ctx a
  let s := c.chunk.near.foldl (fun s w => s.land w (s.fromAgent 0 a) but) s
  let s := c.chunk.far.foldl (fun s w => s.sendStore a w) s
  (s.modCtx a fun c => ({ c with chunk := Chunk.empty } : Ctx).release).freeDead a

/-- Whether a supervisor's access to a context area waits for the end of a stop of its course (R345). -/
def State.areaShut (s : State) (loc : Nat) : Bool :=
  match homeOf loc with
  | .slice core off => decide (progEnd ≤ off) && decide (off < 0x39C000) && s.inStop (core / 8)
  | _ => false

/-- Whether the arbiter may commit the chunk of a context now: no other chunk holds the token, and it holds no store that waits for the
end of a stop (R214, R345). -/
def State.mayCommit (s : State) (a : Agent) : Bool :=
  !((s.ctx a).chunk.near.any fun w => s.areaShut w.loc) &&
  match a.course? with
  | some c =>
    match (s.course c).token with
    | some h => (s.group a).contains h
    | none => true
  | none => true

/-- THE ARBITER COMMITS the chunk of a context, and with it those of its gang, in one step; a token is released
(R213, R214, R216). -/
def State.commit (s : State) (a : Agent) : State :=
  let g := s.group a
  g.foldl State.dropToken (g.foldl (fun s b => s.commitOne g b) s)

/-- Whether a context has an open chunk with an instruction in it. -/
def Ctx.chunkOpen (c : Ctx) : Bool := c.chunk.start.isSome

/-- Whether a context's chunk can be closed and committed before an instruction. -/
def State.canClose (s : State) (a : Agent) : Bool :=
  s.mayCommit a || (s.group a).all fun b => !(s.ctx b).chunkOpen

/-- Closes and commits the open chunk of a context, where there is one (R212). -/
def State.close (s : State) (a : Agent) : State :=
  if (s.group a).any fun b => (s.ctx b).chunkOpen then s.commit a else s

/-- Opens the chunk at its first instruction: the registers are kept for a squash; a context squashed four times in
succession takes the token where it is free (R211, R213, R214). The plinth has no chunks (R364). -/
def State.openChunk (s : State) (a : Agent) : State :=
  match a with
  | .plinth => s
  | _ =>
    if (s.ctx a).chunkOpen then s
    else
      let s := s.modCtx a fun c => { c with chunk := { c.chunk with start := some c.arch } }
      match a.course? with
      | some n =>
        if decide (4 ≤ (s.ctx a).chunk.squashes) && (s.course n).token.isNone then
          s.modCourse n fun k => { k with token := some a }
        else s
      | none => s

/-- Lines in a signature's recording: distinct, as the signature is keyed by line (R211). -/
def addLines (ls new : List Nat) : List Nat := new.foldl (fun ls l => if ls.contains l then ls else ls ++ [l]) ls

/-- Whether a location is near for an agent: a slice of its own course (R206); a quoin's private memory is its own. -/
def near (a : Agent) (loc : Nat) : Bool :=
  match homeOf loc, a.course? with
  | .slice core _, some c => core / 8 == c
  | .quoin c' _, some c => c' == c
  | .plinth _, none => true
  | .regs _, none => true
  | _, _ => false

/-- Whether an agent's request to a core waits before a closed ingress gate: from the rotation notice on where the request
comes from outside the core's ashlar, and until the restart of the core's course wherever it comes from (R339, R340; log entry
65). -/
def State.gatedFrom (s : State) (a : Agent) (core : Nat) : Bool :=
  s.gated core || (((s.ashlar (core / 256)).phase == .posted || (s.ashlar (core / 256)).phase == .stopped) &&
    a.course?.map (· / 32) != some (core / 256))

/-- Whether an agent's request to a location waits before a closed ingress gate (R340). -/
def State.gateShut (s : State) (a : Agent) (loc : Nat) : Bool :=
  match homeOf loc with | .slice core _ => s.gatedFrom a core | _ => false

/-- Whether an agent's write to n bytes at a location waits at its port: the commit token holds the line, an earlier write
waits there, the ingress gate is closed, or it is a supervisor's to a context area of a course in a stop (R214, R340, R345). -/
def State.portShut (s : State) (a : Agent) (loc n : Nat) : Bool := s.tokenBlocks loc n [] || s.gateShut a loc || s.areaShut loc

/-- Whether an agent's read or atomic at a location waits at issue: before a closed ingress gate, or for a reply slot
(R256, R340). A near access needs neither. -/
def State.farWaits (s : State) (a : Agent) (loc : Nat) : Bool := !near a loc && (s.gateShut a loc || !s.slotsFree a 1)

/-- Records a near read in the open chunk (R211), and bytes that a far read requests of a stack (R382). -/
def State.noteRead (s : State) (a : Agent) (loc n : Nat) : State :=
  let s := s.ask a.core? loc n
  if near a loc && (s.ctx a).chunkOpen then
    s.modCtx a fun c => { c with chunk := { c.chunk with reads := addLines c.chunk.reads (linesOf loc n) } }
  else s

/-- Holds a store in a chunk (R211). -/
def Chunk.hold (k : Chunk) (isNear : Bool) (w : Write) : Chunk :=
  if isNear then { k with near := k.near ++ [w], writes := addLines k.writes (linesOf w.loc w.data.length) }
  else { k with far := k.far ++ [w] }

/-- A store of an agent: held in its chunk (R211); outside a chunk, and on the plinth, it is performed at once or leaves
at once (R212, R364). -/
def State.store (s : State) (a : Agent) (w : Write) : State :=
  if (s.ctx a).chunkOpen then
    s.modCtx a fun c => { c with chunk := c.chunk.hold (near a w.loc) w }
  else if near a w.loc then s.land w (s.fromAgent 0 a) (s.group a)
  else s.sendStore a w

/-! ### Loads -/

/-- The byte a list of stores, oldest first, leaves at a location. -/
def overlay (ws : List Write) (loc : Nat) (b : Byte) : Byte :=
  ws.foldl (fun b w => if decide (w.loc ≤ loc) && decide (loc < w.loc + w.data.length) then w.data.getD (loc - w.loc) 0 else b) b

/-- Far stores of a context that are not performed at their home (R219). -/
def State.inFlight (s : State) (a : Agent) : List Write :=
  (s.requests.filterMap fun r => match r.op with | .store w => if r.src = a then some w else none | _ => none) ++
    (s.ctx a).unsent

/-- The byte an agent's load returns: its own latest store, held or in flight, over the byte at its home (R209, R211). -/
def State.loadByte (s : State) (a : Agent) (loc : Nat) : Byte :=
  let c := (s.ctx a).chunk
  overlay (c.near ++ c.far) loc (overlay (s.inFlight a) loc (s.homeByte loc))

/-- The bytes an agent's load returns. -/
def State.loadBytes (s : State) (a : Agent) (loc n : Nat) : List Byte :=
  (List.range n).map fun i => s.loadByte a (loc + i)

/-- The little-endian value an agent's load returns. -/
def State.loadNat (s : State) (a : Agent) (loc n : Nat) : Nat := bytesNat (s.loadBytes a loc n)

/-- Whether a write replaces the whole of the bank word or line that holds an error (R191). -/
def Write.replaces (w : Write) (p : Nat) : Bool :=
  let g := errorGrain (p * 8)
  decide (w.loc ≤ p * 8 / g * g) && decide (p * 8 / g * g + g ≤ w.loc + w.data.length)

/-- A context's own stores that have not been performed: in flight, and held in its chunk (R209, R211). -/
def State.heldStores (s : State) (a : Agent) : List Write := s.inFlight a ++ (s.ctx a).chunk.near ++ (s.ctx a).chunk.far

/-- Whether an agent's access to bytes at a location meets an uncorrectable error: one that none of its own earlier stores
replaces whole (R191, R209). -/
def State.meetsError (s : State) (a : Agent) (loc n : Nat) : Bool :=
  s.poison.any fun p => decide (p * 8 < loc + n) && decide (loc < p * 8 + 8) && s.marked (p * 8) &&
    !(s.heldStores a).any (·.replaces p)

/-- Unit kind of the memory at a location (R178, R191). -/
def unitOf (loc : Nat) : BitVec 8 :=
  match homeOf loc with
  | .slice _ _ => 0x01
  | .hbm _ => 0x07
  | .quoin _ _ => 0x05
  | _ => 0x06

/-! ### Translation -/

/-- Kinds of access (R320). -/
inductive Access where
  | fetch | read | write
  deriving DecidableEq, Repr

/-- Cause of a translation fault (R187, R320). -/
def Access.cause : Access → BitVec 8
  | .fetch => 0x03
  | .read => 0x04
  | .write => 0x05

/-- What a lookup gives (R318, R320, R321). -/
inductive XRes where
  | ok (loc : Nat)
  | miss (va : Word)
  | fault (sub : BitVec 8)
  deriving DecidableEq, Repr

/-- Low bits of an address within a page of an entry's size (R319). -/
def TlbEntry.bits (e : TlbEntry) : Nat := match fld e.e 62 2 with | 0 => 12 | 1 => 16 | 2 => 21 | _ => 30

/-- Whether an entry covers an address. -/
def TlbEntry.covers (e : TlbEntry) (va : Word) : Bool := va.toNat / 2 ^ e.bits == e.base.toNat / 2 ^ e.bits

/-- Whether an entry permits an access (R319, R320). -/
def TlbEntry.permits (e : TlbEntry) : Access → Bool
  | .fetch => e.e.getLsbD 59
  | .write => e.e.getLsbD 58
  | .read => e.e.getLsbD 57

/-- The device a rank names in a partition's table (R394). -/
def State.rankDevice (s : State) (pkey : BitVec 16) (rank : Nat) : Option Nat :=
  match Map.find s.partitions pkey with
  | some p =>
    let w := Map.get 0 p.ranks rank
    if w.getLsbD 63 && decide (fld w 32 10 < 768) then some (fld w 32 10) else none
  | none => none

/-- Whether an access through an entry goes to a peer device whose ports refuse the partition's key (R393). -/
def State.refusedBy (s : State) (pkey : BitVec 16) (e : TlbEntry) (acc : Access) : Bool :=
  fld e.e 60 2 == 2 && e.permits acc &&
    match s.rankDevice pkey (fld e.e 42 10) with | some d => !Config.peerAdmits d pkey | none => false

/-- An access through an entry (R319, R320, R394). A read that a peer's port refuses is answered with a fault (R393); of a write the
instruction learns nothing. -/
def State.through (s : State) (pkey : BitVec 16) (e : TlbEntry) (acc : Access) (va : Word) : XRes :=
  let frame := fld e.e 12 40 * 4096 / 2 ^ e.bits * 2 ^ e.bits + va.toNat % 2 ^ e.bits
  if fld e.e 60 2 = 3 then .fault 0
  else if !e.permits acc || (acc != .write && s.refusedBy pkey e acc) then .fault 1
  else match fld e.e 60 2 with
    | 0 => .ok (Home.loc (.hbm frame))
    | 1 => .ok (Home.loc (.host frame))
    | _ =>
      match s.rankDevice pkey (fld e.e 42 10) with
      | some d => .ok (Home.loc (.peer d (frame % 2 ^ 42)))
      | none => .fault 0

/-- The entry of an owner that covers an address in a course's TLB (R318). -/
def State.entry? (s : State) (course : Nat) (owner : BitVec 16) (va : Word) : Option TlbEntry :=
  (s.course course).tlb.find? fun e => e.owner == owner && e.covers va

/-- The 4 KiB page of an address. -/
def pageOf (va : Word) : Word := va &&& ~~~(0xFFF#64)

/-- Whether an address lies in the plinth's register block, as the plinth sees it (R364). -/
def regsAddr (a : Agent) (va : Word) : Bool :=
  a == .plinth && decide (0x0100000000000000 ≤ va.toNat) && decide (va.toNat < 0x0100000000014000)

/-- A lookup of an address by an agent (R187, R188, R318, R364); subcode 3 marks a fetch from the plinth's register block, which
raises cause 0x06 (`fetchTrap`). Only the existence of a slice is tested in the aperture;
the reserved part and the windows are the access's own checks. -/
def State.resolve (s : State) (a : Agent) (acc : Access) (va : Word) : XRes :=
  match a with
  | .plinth =>
    if va.toNat < 0x200000 then .ok (Home.loc (.plinth va.toNat))
    else if regsAddr .plinth va then
      if acc = .fetch then .fault 3 else .ok (Home.loc (.regs (va.toNat - 0x0100000000000000)))
    else .fault 0
  | .quoin c =>
    if va.toNat < 0x80000 then .ok (Home.loc (.quoin c va.toNat))
    else if va.toNat ≥ 2 ^ 57 then .fault 0
    else if inAperture va then
      if acc = .fetch then .fault 1
      else match s.ownerRegion c with
        | some r => match r.coreOf (apCore va) with
          | some n => .ok (Home.loc (.slice n (apOff va)))
          | none => .fault 0
        | none => .fault 0
    else match s.entry? c 0 va with
      | some e => s.through 0 e acc va
      | none => .miss va
  | .ctx c _ _ =>
    if va.toNat ≥ 2 ^ 57 then .fault 0
    else if inAperture va then
      if acc = .fetch then .fault 1
      else match s.ownerRegion c with
        | some r => match r.coreOf (apCore va) with
          | some n => .ok (Home.loc (.slice n (apOff va)))
          | none => .fault 0
        | none => .fault 0
    else match s.entry? c (s.ownerRid c) va with
      | some e => s.through (match s.ownerRegion c with | some r => r.pkey | none => 0) e acc va
      | none => .miss va

/-- Whether an agent's access to an address goes to a peer device whose ports refuse its partition's key (R393). -/
def State.barred (s : State) (a : Agent) (acc : Access) (va : Word) : Bool :=
  match a.course? with
  | some c =>
    !inAperture va && match s.entry? c (s.ridOf a) va with
      | some e => s.refusedBy (match s.regionOf a with | some r => r.pkey | none => 0) e acc
      | none => false
  | none => false

/-- Whether a write of an agent to a location goes to a peer device whose ports refuse its partition's key (R393). -/
def State.barredAt (s : State) (a : Agent) (loc : Nat) : Bool :=
  match homeOf loc with
  | .peer d _ => !Config.peerAdmits d (match s.regionOf a with | some r => r.pkey | none => 0)
  | _ => false

/-- A dropped message, or a store that a peer's port refuses, advances `dropcnt` of the sender's region (R176, R393). -/
def State.countDrop (s : State) (a : Agent) : State :=
  s.modRegion (s.ridOf a) fun r => { r with dropcnt := r.dropcnt + 1 }

/-- Moves the entries that a test selects to the most recently used end (R318). -/
def recent (p : TlbEntry → Bool) (l : List TlbEntry) : List TlbEntry := l.filter p ++ l.filter fun e => !p e

/-- An engine's lookup, or the quoin's, that hits makes the entry the most recently used of the course TLB (R318; log entry
21). -/
def State.touchCourse (s : State) (a : Agent) (va : Word) : State :=
  match a.course? with
  | some c =>
    let hit (e : TlbEntry) := e.owner == s.ridOf a && e.covers va
    if inAperture va || !((s.course c).tlb.any hit) then s else s.modCourse c fun x => { x with tlb := recent hit x.tlb }
  | none => s

/-- An engine's lookups of the pages of n bytes (R318). -/
def State.touchSpan (s : State) (a : Agent) (va : Word) (n : Nat) : State :=
  (List.range ((va.toNat % 4096 + n + 4095) / 4096)).foldl (fun s i =>
    s.touchCourse a (if i = 0 then va else pageOf va + BitVec.ofNat 64 (4096 * i))) s

/-- A lookup that hits: the L1 TLB of the core takes the entry, dropping its least recently used one, and an L1 miss makes
the entry the most recently used of the course TLB (R318; log entry 21). -/
def State.touchTlb (s : State) (a : Agent) (va : Word) : State :=
  match a with
  | .ctx c k _ =>
    let rid := s.ownerRid c
    let hit (e : TlbEntry) := e.owner == rid && e.covers va
    if inAperture va then s
    else if (s.core (coreId c k)).l1.any hit then s.modCore (coreId c k) fun x => { x with l1 := recent hit x.l1 }
    else match s.entry? c rid va with
      | some e => (s.modCourse c fun x => { x with tlb := recent hit x.tlb }).modCore (coreId c k) fun x =>
          { x with l1 := (e :: x.l1).take 64 }
      | none => s
  | .quoin _ => s.touchCourse a va
  | .plinth => s

/-- The swizzle tag of the block that holds a slice's byte: 0 in an unmarked piece (R190, R193). -/
def State.tagOf (s : State) (loc : Nat) : BitVec 3 :=
  match homeOf loc with
  | .slice core off =>
    if (s.core core).foot.testBit (off / 4096) then Map.get 0 (s.core core).tags (off / 2048) else 0
  | _ => 0

/-- Whether an agent's core has arrived at the keystone under way: what the agent issues now comes after its core's `ssync`
(R222). -/
def State.afterSsync (s : State) (a : Agent) : Bool :=
  match a.core?, s.regionOf a with
  | some n, some r => r.arrived.contains (s.cidOf n)
  | _, _ => false

/-- Parks a context at an access that misses, and sends one notice for each page to the quoin, given by a missing address of
each (R321, R322). -/
def State.parkMiss (s : State) (a : Agent) (acc : Access) (vas : List Word) : State :=
  let code : Nat := match acc with | .fetch => 0 | .read => 1 | .write => 2
  match a.course? with
  | some c =>
    let s := vas.foldl (fun s p =>
      let s := s.modCourse c fun k => { k with miss := k.miss ++ [⟨a, none, p, BitVec.ofNat 2 code, s.afterSsync a⟩] }
      s.notify c (.miss (msgHeader (match a.core? with | some n => s.cidOf n | none => 0x7FF) a.tid 5 0)
        (BitVec.ofNat 64 (at' code 62 + p.toNat % 2 ^ 57)))) s
    s.modCtx a fun x => { x with park := some (.miss vas) }
  | none => s

/-! ### Fences and releases -/

/-- Whether every earlier access of a context is performed with respect to the agents of a scope (R207, R221, R223, R229):
far stores in flight and unacknowledged, those to peer devices at system scope only. What the context has acquired from
another was performed at device scope before it was released; only that other's stores to peer devices can be outstanding,
and at system scope no context's may be (log entry 61). -/
def State.performed (s : State) (a : Agent) (system : Bool) : Bool :=
  let peer (loc : Nat) : Bool := match homeOf loc with | .peer _ _ => true | _ => false
  let counts (loc : Nat) : Bool := !peer loc || system
  (s.inFlight a).all (fun w => !counts w.loc) &&
    (s.requests.all fun r => match r.op with
      | .store w => !system || !peer w.loc
      | .send .. | .screed .. => true
      | _ => r.src != a) &&
    (s.ctxs.all fun e => !system || e.2.unsent.all fun w => !peer w.loc) &&
    (s.comingReplies.all fun r => match r.op with
      | .ack loc => if r.dst = a then !counts loc else !system || !peer loc
      | .value _ _ | .watched => r.dst != a
      | _ => true)

/-- Whether an atomic of a context has not returned its value. -/
def State.amoOut (s : State) (a : Agent) : Bool :=
  (s.requests.any fun r => r.src == a && match r.op with | .amo .. => true | _ => false) ||
    s.comingReplies.any fun r => r.dst == a && match r.op with | .value _ _ => true | _ => false

/-- Whether a context has no `send` outstanding (R265). -/
def State.noSend (s : State) (a : Agent) : Bool :=
  (s.fabric.all fun r => r.src != a || match r.op with | .send .. => false | _ => true) &&
    (s.comingReplies.all fun r => r.dst != a || match r.op with
      | .accepted | .dropped | .busy _ | .resend _ _ => false
      | _ => true)

end Sys2Proof.Machine
end

