-- ==== Sys2Proof/Machine/Operands.lean ====
section
/-! DEFINITION. What an instruction names, read from its form: length, guard, the registers it reads and writes, its
lookahead, whether it closes the chunk before it (R212), the level it needs, and the values of its operands. -/

namespace Sys2Proof

open Machine

/-- The class 01 form of an instruction, with its guard. -/
def Instr.vec? : Instr → Option (VecForm × PReg)
  | .vadd m d a b g => some (.bin (.vadd m) d a b, g)
  | .vsub m d a b g => some (.bin (.vsub m) d a b, g)
  | .vmul d a b g => some (.bin .vmul d a b, g)
  | .vmulh u d a b g => some (.bin (.vmulh u) d a b, g)
  | .vmac d a b g => some (.bin .vmac d a b, g)
  | .vand d a b g => some (.bin .vand d a b, g)
  | .vor d a b g => some (.bin .vor d a b, g)
  | .vxor d a b g => some (.bin .vxor d a b, g)
  | .vsll d a b g => some (.bin .vsll d a b, g)
  | .vsrl d a b g => some (.bin .vsrl d a b, g)
  | .vsra d a b g => some (.bin .vsra d a b, g)
  | .vmin d a b g => some (.bin .vmin d a b, g)
  | .vmax d a b g => some (.bin .vmax d a b, g)
  | .vminn d a b g => some (.bin .vminn d a b, g)
  | .vmaxn d a b g => some (.bin .vmaxn d a b, g)
  | .vabs d a g => some (.abs d a, g)
  | .vfadd r d a b g => some (.bin (.vfadd r) d a b, g)
  | .vfsub r d a b g => some (.bin (.vfsub r) d a b, g)
  | .vfmul r d a b g => some (.bin (.vfmul r) d a b, g)
  | .vfma r d a b g => some (.bin (.vfma r) d a b, g)
  | .vfmin d a b g => some (.bin .vfmin d a b, g)
  | .vfmax d a b g => some (.bin .vfmax d a b, g)
  | .vfsgn o d a b g => some (.bin (.vfsgn o) d a b, g)
  | .vfdiv r d a b g => some (.bin (.vfdiv r) d a b, g)
  | .vsqrt d x la g => some (.sqrt d x la, g)
  | .vcmp c p a b g => some (.cmp c p a b, g)
  | .vfcmp c p a b g => some (.fcmp c p a b, g)
  | .vsel p d a b g => some (.bin (.vsel p) d a b, g)
  | .vmov d a g => some (.mov d a, g)
  | .vbcast d x g => some (.bcast d x, g)
  | .vperm x d a b g => some (.bin (.vperm x) d a b, g)
  | .vslide x d a b g => some (.bin (.vslide x) d a b, g)
  | .vzip d a b g => some (.bin .vzip d a b, g)
  | .vunzip d a b g => some (.bin .vunzip d a b, g)
  | .vred op d a g => some (.red op d a, g)
  | .vscan op d a g => some (.scan op d a, g)
  | .vclass d a g => some (.cls d a, g)
  | .pset p a g => some (.pset p a, g)
  | .plog op p a b g => some (.plog op p a b, g)
  | .pcnt d a g => some (.pcnt d a, g)
  | .pfirst d a g => some (.pfirst d a, g)
  | .vcvt dst src r d a g => some (.cvt dst src r d a, g)
  | .vquant f d a g => some (.quant f d a, g)
  | .vexp2 d x la g => some (.fu .exp2 d x la, g)
  | .vlog2 d x la g => some (.fu .log2 d x la, g)
  | .vrcp d x la g => some (.fu .rcp d x la, g)
  | .vrsq d x la g => some (.fu .rsq d x la, g)
  | .vld d a y la g => some (.load .unit d a y la, g)
  | .vlds d a b y la g => some (.load (.stride b) d a y la, g)
  | .vldx d a b y la g => some (.load (.index b) d a y la, g)
  | .vst d a y g => some (.store .unit d a y, g)
  | .vsts d a b y g => some (.store (.stride b) d a y, g)
  | .vstx d a b y g => some (.store (.index b) d a y, g)
  | .rfwd w d a la g => some (.rfwd w d a la, g)
  | .rrev d a b la g => some (.rrev d a b la, g)
  | .rchk d a la g => some (.rchk d a la, g)
  | .radd d a b g => some (.radd d a b, g)
  | .rmul d a b g => some (.rmul d a b, g)
  | .rbase d a n la g => some (.rbase d a n la, g)
  | _ => none

namespace Machine

/-- An x register as a reference. -/
def xr (r : Reg) : RegRef := (.x, r.val)
/-- A v register as a reference. -/
def vr (r : Reg) : RegRef := (.v, r.val)
/-- A p register as a reference. -/
def pr (r : PReg) : RegRef := (.p, r.val)
/-- The four registers of a quad (R146). -/
def qr (k : Quad) : List RegRef := (List.range 4).map fun i => (RKind.v, 4 * k.val + i)

end Machine

/-- Registers operand b of format S reads. -/
def SrcB.refs : SrcB → List RegRef
  | .reg r => [xr r]
  | _ => []

/-- Registers the replaceable float operand reads. -/
def FSrc.refs : FSrc → List RegRef
  | .reg r => [xr r]
  | .lit _ => []

/-- Registers operand b of a branch or scalar half reads. -/
def RegImm.refs : RegImm → List RegRef
  | .reg r => [xr r]
  | .imm _ => []

/-- Registers operand b of a vector form reads. -/
def VSrc.refs : VSrc → List RegRef
  | .v r => [vr r]
  | .x r => [xr r]
  | .lit _ => []

/-- Registers the source of a VL form reads. -/
def VSrc1.refs : VSrc1 → List RegRef
  | .v r => [vr r]
  | .x r => [xr r]

/-- Registers operand b of `radd` and `rmul` reads. -/
def RSrc.refs : RSrc → List RegRef
  | .q k => qr k
  | .x r => [xr r]

/-- Registers a wake's index operand reads. -/
def XV.refs : XV → List RegRef
  | .x r => [xr r]
  | .v r => [vr r]

/-- Registers a vector address reads beside its base. -/
def VAddr.refs : VAddr → List RegRef
  | .unit => []
  | .stride b => [xr b]
  | .index b => [vr b]

/-- Registers a class 01 form reads. -/
def VecForm.srcs : VecForm → List RegRef
  | .bin _ _ a b => vr a :: b.refs
  | .cmp _ _ a b => vr a :: b.refs
  | .fcmp _ _ a b => vr a :: b.refs
  | .abs _ a | .mov _ a | .cls _ a => [vr a]
  | .sqrt _ x _ => x.refs
  | .fu _ _ x _ => x.refs
  | .bcast _ x => x.refs
  | .red _ _ a | .scan _ _ a => [vr a]
  | .pset _ a => [xr a]
  | .plog _ _ _ _ => []
  | .pcnt _ _ | .pfirst _ _ => []
  | .cvt _ _ _ _ a => [vr a]
  | .quant _ _ a => [vr a]
  | .load m _ a _ _ => xr a :: m.refs
  | .store m d a _ => vr d :: xr a :: m.refs
  | .rfwd w _ a _ => if w then [(.v, a.val), (.v, a.val + 1)] else [vr a]
  | .rrev _ a b _ => qr a ++ [xr b]
  | .rchk _ a _ => qr a
  | .radd _ a b | .rmul _ a b => qr a ++ b.refs
  | .rbase _ a _ _ => qr a

/-- Registers a class 01 form writes. -/
def VecForm.dsts : VecForm → List RegRef
  | .bin _ d _ _ => [vr d]
  | .cmp _ p _ _ | .fcmp _ p _ _ => [pr p]
  | .abs d _ | .mov d _ | .cls d _ => [vr d]
  | .sqrt d _ _ | .fu _ d _ _ => [vr d]
  | .bcast d _ => [vr d]
  | .red _ d _ => [xr d]
  | .scan _ d _ => [vr d]
  | .pset p _ => [pr p]
  | .plog _ p _ _ => [pr p]
  | .pcnt d _ | .pfirst d _ => [xr d]
  | .cvt _ _ _ d _ => [vr d]
  | .quant _ d _ => [vr d]
  | .load _ d _ _ _ => [vr d]
  | .store _ _ _ _ => []
  | .rfwd _ d _ _ => qr d
  | .rrev d _ _ _ => [(.v, 2 * d.val), (.v, 2 * d.val + 1)]
  | .rchk d _ _ => [xr d]
  | .radd d _ _ | .rmul d _ _ | .rbase d _ _ _ => qr d

/-- Lookahead of a class 01 form. -/
def VecForm.la : VecForm → Nat
  | .sqrt _ _ la | .fu _ _ _ la | .load _ _ _ _ la | .rfwd _ _ _ la | .rrev _ _ _ la | .rchk _ _ la
  | .rbase _ _ _ la => la.val
  | _ => 0

/-- Registers the scalar half of a pair reads. -/
def ScalarHalf.srcs (h : ScalarHalf) : List RegRef :=
  match h.op with
  | .sel | .bins => xr h.a :: h.b.refs ++ [xr h.d]
  | _ => xr h.a :: h.b.refs

/-- Registers an instruction reads (R38 to R46). -/
def Instr.srcs (i : Instr) : List RegRef :=
  match i.vec? with
  | some (v, _) => v.srcs
  | none => match i with
  | .add _ a b | .sub _ a b | .and _ a b | .or _ a b | .xor _ a b | .andn _ a b | .sll _ a b | .srl _ a b | .sra _ a b
  | .rol _ a b | .slt _ a b | .sltn _ a b | .min _ a b | .max _ a b | .minn _ a b | .maxn _ a b | .bext _ a b
  | .lim _ _ a b | .jalr _ a b => xr a :: b.refs
  | .mul _ a b _ | .mulh _ a b _ | .mulhn _ a b _ | .div _ a b _ | .divn _ a b _ | .rem _ a b _ | .remn _ a b _
  | .lea _ a b _ => xr a :: b.refs
  | .clz _ a | .ctz _ a | .popc _ a | .sext _ _ a | .zext _ _ a => [xr a]
  | .bins d a b | .sel d a b => xr a :: b.refs ++ [xr d]
  | .addpc _ b => b.refs
  | .fadd _ _ a b _ | .fsub _ _ a b _ | .fmul _ _ a b _ | .fmin _ a b _ | .fmax _ a b _ | .fcmp _ _ a b _
  | .fsgn _ _ a b _ => xr a :: b.refs
  | .fma _ d a b _ => xr a :: b.refs ++ [xr d]
  | .fcvt _ _ _ _ a => [xr a]
  | .fclass _ a _ => a.refs
  | .beq a b _ _ | .bne a b _ _ | .blt a b _ _ | .bge a b _ _ | .bltn a b _ _ | .bgen a b _ _ => xr a :: b.refs
  | .jtab a b _ => [xr a, xr b]
  | .rep _ b => b.refs
  | .csrw _ a _ | .csrs _ a _ | .csrc _ a _ => [xr a]
  | .ld _ _ _ a _ _ => [xr a]
  | .st _ _ d a _ => [xr d, xr a]
  | .pairWord _ h v => h.srcs ++ v.srcs
  | .mload _ a _ _ | .mshape _ a _ | .mstat _ a _ => [xr a]
  | .mgo _ _ _ a b _ _ => [xr a, xr b]
  | .amo _ _ _ a b _ => [xr a, xr b]
  | .cas _ d a b _ => [xr a, xr b, xr d]
  | .faddx a b _ => xr a :: b.refs
  | .cellrd _ a _ _ => [xr a]
  | .mdecl _ a b _ _ => [xr a, xr b]
  | .sweep _ a _ => [xr a]
  | .swstepVector b _ => [vr b]
  | .swait (.delay b) _ | .swait (.wake b) _ => [vr b]
  | .swake a b _ => xr a :: b.refs
  | .skipset _ a b _ => [xr a, xr b]
  | .send _ a b _ _ _ => [xr a, xr b]
  | .mon _ a b _ => [xr a, xr b]
  | .mwait _ a _ => [xr a]
  | .smodeX _ a _ _ _ | .smodeV _ a _ _ => [xr a]
  | .copy d a b _ _ => [xr d, xr a, xr b]
  | .coll _ a b _ _ => [xr a, xr b]
  | .barinit a b _ | .bararr a b _ => [xr a, xr b]
  | .barwait _ a _ => [xr a]
  | .hstart _ a _ _ => [xr a]
  | .gang a _ | .live a _ => [xr a]
  | .tlbw a b _ => [xr a, xr b]
  | .tlbi a _ => [xr a]
  | .vote _ _ a _ => [xr a]
  | _ => []

/-- Predicates that a class 01 form reads beside its guard (R77, R97, R98). -/
def VecForm.preds : VecForm → List RegRef
  | .bin (.vsel p) _ _ _ => [pr p]
  | .plog _ _ a b => [pr a, pr b]
  | .pcnt _ a | .pfirst _ a => [pr a]
  | _ => []

/-- Registers an instruction writes. -/
def Instr.dsts (i : Instr) : List RegRef :=
  match i.vec? with
  | some (v, _) => v.dsts
  | none => match i with
  | .add d _ _ | .sub d _ _ | .and d _ _ | .or d _ _ | .xor d _ _ | .andn d _ _ | .sll d _ _ | .srl d _ _ | .sra d _ _
  | .rol d _ _ | .slt d _ _ | .sltn d _ _ | .min d _ _ | .max d _ _ | .minn d _ _ | .maxn d _ _ | .bext d _ _
  | .bins d _ _ | .sel d _ _ | .lim _ d _ _ | .jalr d _ _ => [xr d]
  | .mul d _ _ _ | .mulh d _ _ _ | .mulhn d _ _ _ | .div d _ _ _ | .divn d _ _ _ | .rem d _ _ _ | .remn d _ _ _
  | .lea d _ _ _ => [xr d]
  | .clz d _ | .ctz d _ | .popc d _ | .sext _ d _ | .zext _ d _ => [xr d]
  | .addpc d _ => [xr d]
  | .fadd _ d _ _ _ | .fsub _ d _ _ _ | .fmul _ d _ _ _ | .fmin d _ _ _ | .fmax d _ _ _ | .fcmp _ d _ _ _
  | .fsgn _ d _ _ _ | .fma _ d _ _ _ | .fcvt _ _ _ d _ | .fclass d _ _ => [xr d]
  | .jal d _ => [xr d]
  | .csrr d _ | .csrw d _ _ | .csrs d _ _ | .csrc d _ _ => [xr d]
  | .ld _ _ d _ _ _ => [xr d]
  | .pairWord _ h v => xr h.d :: v.dsts
  | .mload d _ _ _ | .mshape d _ _ | .mstat d _ _ => [xr d]
  | .mgo _ _ d _ _ _ _ => [xr d]
  | .amo _ _ d _ _ _ | .cas _ d _ _ _ => [xr d]
  | .cellrd d _ _ _ => [xr d]
  | .mdecl d _ _ _ _ | .sweep d _ _ => [xr d]
  | .recv d a _ | .peek d a _ => [xr d, xr a]
  | .mon d _ _ _ | .mwait d _ _ => [xr d]
  | .barwait d _ _ | .hstart d _ _ _ | .vote _ d _ _ => [xr d]
  | _ => []

/-- The guard field of an instruction; a lone class 00 form has none (R32, R52). -/
def Instr.guard? (i : Instr) : Option PReg :=
  match i.vec? with
  | some (_, g) => some g
  | none => match i with
  | .pairWord g _ _ => some g
  | .rsel _ g | .mload _ _ _ g | .mswap g | .mgo _ _ _ _ _ _ g | .mshape _ _ g | .mstat _ _ g | .ecall g | .ebreak g
  | .eret g | .wfi g | .amo _ _ _ _ _ g | .cas _ _ _ _ g | .faddx _ _ g | .cellrd _ _ _ g | .fence _ g | .chunk g
  | .ifence g | .mdecl _ _ _ _ g | .sweep _ _ g | .swstepImmediate _ g | .swstepVector _ g | .swait _ g | .swake _ _ g
  | .skipset _ _ _ g | .send _ _ _ _ _ g | .recv _ _ g | .peek _ _ g | .mon _ _ _ g | .mwait _ _ g
  | .smodeX _ _ _ _ g | .smodeV _ _ _ g | .sexit _ _ g | .copy _ _ _ _ g | .coll _ _ _ _ g | .barinit _ _ g
  | .bararr _ _ g | .barwait _ _ g | .hstart _ _ _ g | .hend g | .gang _ g | .split g | .live _ g | .yield g
  | .tlbw _ _ g | .tlbi _ g | .tlbiAll g | .replay g | .xphase g | .ssync g | .vote _ _ _ g => some g
  | _ => none

/-- Every register that an instruction names, its guard and selector predicates among them (R77, R295). -/
def Instr.names (i : Instr) : List RegRef :=
  i.srcs ++ i.dsts ++ (match i.guard? with | some g => [pr g] | none => []) ++
    (match i with
      | .pairWord _ _ v => v.preds
      | _ => match i.vec? with | some (v, _) => v.preds | none => [])

/-- The stream register that an `smode` binds anew (R272). -/
def Instr.rebinds : Instr → Option Nat
  | .smodeX n .. => some n.val
  | .smodeV n .. => some (4 + n.val)
  | _ => none

/-- Instructions that close the open chunk before them, whatever their operands (R212, R154); a CSR access and an `ld` or
`cellrd` of host memory decide by their operands. -/
def Instr.closes : Instr → Bool
  | .fence _ _ | .chunk _ | .ifence _ | .amo .. | .cas .. | .faddx .. | .send .. | .recv .. | .peek .. | .mon .. | .mwait ..
  | .mload .. | .mswap _ | .mgo .. | .mshape .. | .mstat .. | .copy .. | .coll .. | .smodeX .. | .smodeV .. | .sexit ..
  | .mdecl .. | .sweep .. | .swake .. | .skipset .. | .barinit .. | .bararr .. | .barwait .. | .xphase _ | .ssync _
  | .vote .. | .hstart .. | .hend _ | .gang .. | .split _ | .ecall _ | .ebreak _ | .eret _ | .wfi _ | .tlbw .. | .tlbi ..
  | .tlbiAll _ | .replay _ | .rchk .. | .rrev .. | .rbase .. | .rsel .. => true
  | .csrr _ n => decide (0x200 ≤ n.toNat) && n.toNat != 0x300
  | .csrw _ _ _ => true
  | .csrs _ a n | .csrc _ a n => a.val != 0 || (decide (0x200 ≤ n.toNat) && n.toNat != 0x300)
  | .pairWord _ _ (.rchk ..) | .pairWord _ _ (.rrev ..) | .pairWord _ _ (.rbase ..) => true
  | _ => false

/-- Forms that raise cause 0x02 in a screed routine (R241). -/
def Instr.notInRoutine : Instr → Bool
  | .sweep .. | .mdecl .. | .hstart .. | .hend _ | .gang .. | .split _ | .recv .. | .mwait .. | .barwait .. | .xphase _
  | .ssync _ | .vote .. | .wfi _ | .eret _ => true
  | _ => false

/-- Forms that raise cause 0x02 outside a screed routine (R241). -/
def Instr.onlyInRoutine : Instr → Bool
  | .swstepImmediate .. | .swstepVector .. | .swait .. => true
  | _ => false

/-- Forms of the quoin alone (R325). -/
def Instr.supervisor : Instr → Bool
  | .tlbw .. | .tlbi .. | .tlbiAll _ | .replay _ => true
  | _ => false

/-- Forms of control contexts alone, and forms of helper contexts alone (R304, R305, R360). -/
def Instr.misplaced : Instr → Agent → Bool
  | .xphase _, a | .ssync _, a | .vote .., a | .hstart .., a => match a with | .ctx _ _ 0 => false | _ => true
  | .hend _, a => match a with | .ctx _ _ t => t == 0 | _ => true
  | _, _ => false

/-- Control transfers, whose outcome a gang takes from its leader (R303). -/
def Instr.transfer : Instr → Bool
  | .beq .. | .bne .. | .blt .. | .bge .. | .bltn .. | .bgen .. | .jal .. | .jalr .. | .jtab .. | .rep .. => true
  | _ => false

/-- The CSR an instruction names. -/
def Instr.csr? : Instr → Option (BitVec 12)
  | .csrr _ n | .csrw _ _ n | .csrs _ _ n | .csrc _ _ n => some n
  | _ => none

/-- The CSR that an instruction writes; `csrs` and `csrc` with x0 write none (R72). -/
def Instr.csrWritten? : Instr → Option (BitVec 12)
  | .csrw _ _ n => some n
  | .csrs _ a n | .csrc _ a n => if a.val = 0 then none else some n
  | _ => none

/-- The stream register that a form binds or releases. -/
def Instr.stream? : Instr → Option RegRef
  | .smodeX n .. => some (.x, 24 + n.val)
  | .smodeV n .. => some (.v, 24 + n.val)
  | .sexit v n _ => some (if v then .v else .x, 24 + n.val)
  | _ => none

/-- Bytes of an instruction in memory (R31, R42). -/
def Instr.bytes (i : Instr) : Nat := 4 * (encode i).length

/-- The word at A, zero-extended, as cause 0x02 reports it (R161). -/
def Instr.word (i : Instr) : Word := ((encode i).headD 0).setWidth 64

/-- The value of operand b of format S (R38). -/
def SrcB.val (c : Ctx) : SrcB → Word
  | .reg r => c.x r.val
  | .imm v => v.signExtend 64
  | .lit w => w.signExtend 64
  | .lit2 lo hi => hi ++ lo

/-- The fp32 value of the replaceable float operand (R60). -/
def FSrc.val (c : Ctx) : FSrc → W32
  | .reg r => (c.x r.val).setWidth 32
  | .lit w => w

/-- The value of operand b of a branch or scalar half (R40, R42). -/
def RegImm.val (c : Ctx) : RegImm → Word
  | .reg r => c.x r.val
  | .imm v => v.signExtend 64

/-- Lane i of operand b of a vector form: its own lane, the low word of xb, or the literal (R77). -/
def VSrc.lane (c : Ctx) (i : Nat) : VSrc → W32
  | .v r => Machine.lane (c.v r.val) i
  | .x r => (c.x r.val).setWidth 32
  | .lit w => w

/-- Lane i of the source of a VL form (R44). -/
def VSrc1.lane (c : Ctx) (i : Nat) : VSrc1 → W32
  | .v r => Machine.lane (c.v r.val) i
  | .x r => (c.x r.val).setWidth 32

end Sys2Proof
end

