-- ==== Sys2Proof/Machine/Issue.lean ====
section
/-! DEFINITION. What every instruction has in common when it issues: the order of its checks (R47), its guard (R32, R241),
the chunk it closes or belongs to (R211, R212), its pops (R274), its result and the windows it counts toward (R295), its
place in a repetition (R70), and the address of the next instruction. -/

namespace Sys2Proof.Machine

open Sys2Proof

/-- What performing an instruction gives: it is done and execution goes on after it, it transfers control, it begins a
repetition of the next n + 1 instructions with passes left after the first, it is done and leaves a liveness mask before its
results (R292), it leaves the whole state itself, it raises a trap and takes no effect, or it is not performed now. -/
inductive Res where
  | done (s : State) (rs : List Result)
  | loop (s : State) (n : BitVec 5) (left : W32)
  | jump (s : State) (pc : Word) (rs : List Result)
  | mask (s : State) (live : Word) (rs : List Result)
  | leaves (s : State)
  | trap (t : Trap)
  | wait (s : State)

/-- A condition of R293 is unmet: the instruction is not performed and issues again. -/
def State.stall (s : State) (a : Agent) : State := s.modCtx a fun c => { c with stalled := true }

/-- Parks a context (R289). -/
def State.park (s : State) (a : Agent) (p : Park) : State := s.modCtx a fun c => { c with park := some p }

/-- Whether an agent is the helper of a sweep (R239). -/
def State.inRoutine (s : State) (a : Agent) : Bool := (s.ctx a).origin == .sweep

/-- The step mask of a screed routine: the lanes of its dispatch that have taken no step (R240, R243, R244); all lanes
outside a routine. -/
def State.stepMask (s : State) (a : Agent) : Word :=
  match a.core? with
  | some n =>
    match (s.core n).sweep with
    | some w =>
      if s.inRoutine a && w.helper == a.tid then
        match w.running with
        | some r => (s.ctx a).arch.outs.foldl (fun m o => m &&& ~~~(1#64 <<< o.1)) r.2
        | none => 0
      else BitVec.allOnes 64
    | none => BitVec.allOnes 64
  | none => BitVec.allOnes 64

/-- The effective guard of an instruction (R32, R241): all lanes for a lone class 00 form (R52). -/
def State.guardMask (s : State) (a : Agent) (i : Instr) : Word :=
  match i.guard? with
  | some g => (s.ctx a).p g.val &&& s.stepMask a
  | none => BitVec.allOnes 64

/-- CSR numbers that are implemented for an agent (R49, R50). -/
def csrKnown (a : Agent) (n : BitVec 12) : Bool :=
  let v := n.toNat
  decide (v ≤ 9) || v == 0x100 || v == 0x101 || (decide (0x200 ≤ v) && decide (v ≤ 0x205)) ||
    (decide (0x300 ≤ v) && decide (v ≤ 0x305)) || (a == .plinth && decide (0x700 ≤ v) && decide (v ≤ 0x702))

/-- Conditions of cause 0x02 that a form's own rule gives: `eret` outside the program handler (R171), `ssync` and `vote` of a
control context in the compute phase (R362, R363), `mgo` with no row, or an odd number of rows of a dx window (R134). -/
def Ctx.wrongPhase (c : Ctx) (a : Agent) (i : Instr) : Bool :=
  match i with
  | .eret _ => !c.intrap
  | .ssync _ | .vote .. => !i.misplaced a && !c.exchange
  | .mgo _ _ _ xa _ k _ => k.rows == 0 ||
      (k.rows.getLsbD 0 && inAperture (c.x xa.val) && decide (4 ≤ apWin (c.x xa.val)) && decide (apWin (c.x xa.val) ≤ 6))
  | _ => false

/-- Conditions of step 3 of R47 that depend on the state: forms a routine may not use and forms only a routine may use
(R241), `rep` in a repetition or in the program handler (R70, R166), a CSR that is not implemented (R50), and those of
`Ctx.wrongPhase`. -/
def State.illegal (s : State) (a : Agent) (i : Instr) : Bool :=
  let c := s.ctx a
  (s.inRoutine a && i.notInRoutine) || (!s.inRoutine a && i.onlyInRoutine) ||
    (match i with | .rep _ _ => c.arch.loopActive || c.intrap | _ => false) ||
    (match i.csr? with | some n => !csrKnown a n | none => false) || c.wrongPhase a i

/-- A destination of an instruction that is in stream mode (R276). -/
def Ctx.streamDst (c : Ctx) (i : Instr) : Option RegRef := i.dsts.find? fun r => (c.bound? r.1 r.2).isSome

/-- CSRs whose write is denied to an agent whatever the value (R50, R132, R374). -/
def csrProtected (a : Agent) (n : BitVec 12) : Bool :=
  let v := n.toNat
  (a.program && ((decide (1 ≤ v) && decide (v ≤ 3)) || v == 8 || v == 9)) || (a != .plinth && (v == 0x201 || v == 0x202))

/-- A register's number as cause 0x06, subcode 4, reports it (R161). -/
def regCode (r : RegRef) : Word := BitVec.ofNat 64 (r.2 + if r.1 = .v then 32 else 0)

/-- Step 4 of R47, so far as no operand decides it: a destination in stream mode (R276), an `smode` or `sexit` of a register
with a pending result (R296), a form of another level or context (R304, R305, R325, R360), a denied CSR write (R50). -/
def State.denied (s : State) (a : Agent) (i : Instr) : Option Trap :=
  let c := s.ctx a
  match c.streamDst i, i.stream? with
  | some r, _ => some (.at 0x06 4 (regCode r))
  | none, some r => if c.arch.pend.any fun p => p.kind == r.1 && p.reg == r.2 then some (.at 0x06 4 (regCode r)) else none
  | none, none =>
    if (i.supervisor && a.program) || i.misplaced a then some (.at 0x06 1 c.arch.pc)
    else match i.csrWritten? with
      | some n => if csrProtected a n then some (.at 0x06 1 (n.setWidth 64)) else none
      | none => none

/-- Streams an instruction pops, each once (R274). -/
def Ctx.pops (c : Ctx) (i : Instr) : List Nat := addLines [] (i.srcs.filterMap fun r => c.bound? r.1 r.2)

/-- The next index of a stream's pattern; none after the last element (R273). -/
def Stream.advance (t : Stream) : Stream :=
  let rec go : List Nat → List Nat → Nat → List Nat × Bool
    | i :: is, n :: ns, k + 1 =>
      if i + 1 < n then ((i + 1) :: is, false) else let (js, d) := go is ns k; (0 :: js, d)
    | is, _, _ => (is, true)
  let (ix, d) := go t.index t.counts (t.dims + 1)
  { t with index := ix, done := t.done || d }

/-- Pops a stream: its entry is taken and its position advances; a pop past the end takes nothing (R273, R274). -/
def Ctx.pop (c : Ctx) (j : Nat) : Ctx :=
  let t := c.stream j
  if t.done then c
  else { c with arch := { c.arch with streams := Map.set c.arch.streams j t.advance,
                                      taken := Map.set c.arch.taken j (Map.get 0 c.arch.taken j + 1) } }

/-- Whether a stream's next element, or the zeros past its end, can be popped now (R274). -/
def Ctx.popReady (c : Ctx) (j : Nat) : Bool := (c.stream j).done || (c.head? j).isSome

/-- The fault of a stream's next element, raised at the pop (R275). -/
def Ctx.popFault (c : Ctx) (j : Nat) : Option Trap :=
  if (c.stream j).done then none
  else match c.head? j with
    | some (.fault cause sub faddr) => some (.at cause sub faddr)
    | _ => none

/-- The next instruction of a repetition's body, after an instruction that completes without a taken transfer; `loopc` reads
0 after the last pass (R70, R71). In the program handler nothing counts (R166). -/
def Arch.next (r : Arch) (intrap : Bool) (len : Nat) : Arch :=
  let r' := { r with pc := r.pc + BitVec.ofNat 64 len }
  if r.loopActive && !intrap then
    if r.loopIndex.toNat + 1 > r.loopLen.toNat then
      if r.loopLeft = 0 then { r' with loopActive := false, loopIndex := 0, loopLen := 0, loopLeft := 0 }
      else { r' with loopLeft := r.loopLeft - 1, loopIndex := 0, pc := r.loopa }
    else { r' with loopIndex := r.loopIndex + 1 }
  else r'

/-- A taken transfer: it ends a repetition (R71). -/
def Arch.goto (r : Arch) (intrap : Bool) (pc : Word) : Arch :=
  { r with pc := pc, loopActive := r.loopActive && intrap }

/-- Counts an instruction in its context's open chunk (R211); outside a chunk the entries its pops took are released at once
(R274). A member of a dissolved gang has now completed its instruction (R169). -/
def Ctx.inChunk (c : Ctx) : Ctx :=
  let c := { c with stalled := false, lost := c.lost.map fun (l : BitVec 8 × Bool) => (l.1, true) }
  if c.chunkOpen then { c with chunk := { c.chunk with count := c.chunk.count + 1 } } else c.release

/-- The pops of an instruction; a stream that the instruction has bound anew is not popped by it (R272, R274). -/
def Ctx.popAll (c : Ctx) (i : Instr) : Ctx := ((c.pops i).filter fun j => i.rebinds != some j).foldl Ctx.pop c

/-- What performing an instruction leaves beside its own effect: its pops, the windows it counts toward, its results. -/
def Ctx.finish (c : Ctx) (i : Instr) (late : Bool) (rs : List Result) : Ctx :=
  ((c.popAll i).count.takeAll late i.names rs).inChunk

/-- A performed instruction after which execution goes on with the next one. -/
def State.retire (s : State) (a : Agent) (i : Instr) (rs : List Result) : State :=
  s.modCtx a fun c =>
    let d := c.finish i s.late rs
    { d with arch := d.arch.next d.intrap i.bytes }

/-- A performed instruction that writes `live`: results that land at it land before; outside a chunk the entries of dead
registers are freed at once (R292). -/
def State.retireLive (s : State) (a : Agent) (i : Instr) (live : Word) (rs : List Result) : State :=
  let t := s.modCtx a fun c =>
    let d := (((c.popAll i).count.setLive live).takeAll s.late i.names rs).inChunk
    { d with arch := d.arch.next d.intrap i.bytes }
  if (t.ctx a).chunkOpen then t else t.freeDead a

/-- A performed instruction that transfers control; words fetched ahead on the old path are dropped (R65). -/
def State.leave (s : State) (a : Agent) (i : Instr) (pc : Word) (rs : List Result) : State :=
  s.modCtx a fun c =>
    let d := c.finish i s.late rs
    { d with ahead := [], arch := d.arch.goto d.intrap pc }

/-- `rep` is performed and its body is next (R70). -/
def State.begin (s : State) (a : Agent) (i : Instr) (n : BitVec 5) (left : W32) : State :=
  s.modCtx a fun c =>
    let d := c.finish i s.late []
    let next := d.arch.pc + BitVec.ofNat 64 i.bytes
    { d with arch := { d.arch with pc := next, loopActive := true, loopIndex := 0, loopLen := n, loopLeft := left,
                                   loopa := next } }

/-- A transfer of a gang member other than the leader: it takes the leader's outcome, and writes its own link register
(R303). -/
def State.follow (s : State) (a : Agent) (i : Instr) (l : Lead) : State :=
  s.modCtx a fun c =>
    let link := c.arch.pc + BitVec.ofNat 64 i.bytes
    let d := c.finish i s.late (i.dsts.map fun r => .toX r.2 link)
    { d with ahead := if l.jumped then [] else d.ahead,
             arch := { d.arch with pc := l.pc, loopActive := l.active, loopIndex := l.index, loopLen := l.len,
                                   loopLeft := l.left, loopa := l.loopa } }

/-- An instruction that is guarded off: it counts toward a repetition and nothing else (R32, R70). -/
def State.skip (s : State) (a : Agent) (i : Instr) : State :=
  (s.openChunk a).modCtx a fun c =>
    let d := c.inChunk
    { d with arch := d.arch.next d.intrap i.bytes }

/-- Where `epc` points for a trap of a context (R161, R170). -/
def State.trapPc (s : State) (a : Agent) (t : Trap) (len : Nat) : Word :=
  (s.ctx a).arch.pc + if t.past then BitVec.ofNat 64 len else 0

/-- Whether a context's chunk can be closed for a trap: the arbiter can commit it, and every earlier atomic has returned
(R165). -/
def State.canTrap (s : State) (a : Agent) : Bool := s.canClose a && !(s.group a).any s.amoOut

/-- Every member of a gang takes a fault that its fetch meets, and the gang dissolves (R412). -/
def State.raiseAll (s : State) (a : Agent) (t : Trap) (len : Nat) : State :=
  if !s.canTrap a then s.stall a
  else
    let g := s.group a
    let r := s.close a
    let r := match a.core? with | some n => if 1 < g.length then r.dissolve n else r | none => r
    g.foldl (fun u b => u.deliver b t (s.trapPc b t len)) r

/-- An instruction raises a trap (R165): the open chunk commits, then the trap is taken. A fault of cause 0x02 or 0x03 in a
gang is taken by every member (R412), any other by its own member alone, and the others complete the instruction (R169). While
another chunk holds the commit token, or an earlier atomic has not returned, the instruction waits. -/
def State.raise (s : State) (a : Agent) (t : Trap) (len : Nat) : State :=
  if t.cause = 0x02 || t.cause = 0x03 then s.raiseAll a t len
  else if s.together then s.deliver a t (s.trapPc a t len)
  else if !s.canTrap a then s.stall a
  else ((s.close a).loseMember a false).deliver a t (s.trapPc a t len)

/-- THE ORDER OF AN ISSUE (R47): cause 0x02, then the guard, then cause 0x06 where no operand decides it, then the pops and the
operation. A form that closes the chunk does so before it performs (R212); every other form belongs
to its context's chunk. Where two streams' next elements both fault, the fault is that of the source named first (R79; log entry
78). -/
def State.run (s : State) (i : Instr) (body : State → Res) : State :=
  let a := s.cur
  let len := i.bytes
  if s.illegal a i then s.raise a (.at 0x02 0 i.word) len
  else if s.guardMask a i = 0 then s.skip a i
  else match s.denied a i with
    | some t => s.raise a t len
    | none =>
      if i.closes && !s.canClose a then s.stall a
      else
        let s1 := if i.closes then s.close a else s.openChunk a
        let c1 := s1.ctx a
        match (c1.pops i).find? fun j => !c1.popReady j with
        | some j =>
          if decide (8 ≤ Map.get 0 c1.arch.taken j) && s1.canClose a then (s1.close a).stall a else s1.stall a
        | none =>
          match (c1.pops i).findSome? c1.popFault with
          | some t => s.raise a t len
          | none =>
            match (if i.transfer then s.lead else none) with
            | some l => s1.follow a i l
            | none =>
              match body s1 with
              | .done s2 rs => s2.retire a i rs
              | .jump s2 pc rs => s2.leave a i pc rs
              | .loop s2 n left => s2.begin a i n left
              | .mask s2 live rs => s2.retireLive a i live rs
              | .leaves s2 => s2
              | .trap t => s.raise a t len
              | .wait s2 => s2

/-- An instruction issues: every outcome of it is a next state. -/
def issue (i : Instr) (s : State) (body : State → Res) : Host.Outcome State Fault Refusal := .next (s.run i body)

/-- An instruction whose only effect is a value written to one x register, computed from its context. -/
def issueX (i : Instr) (d : Reg) (la : Nat) (s : State) (f : Ctx → Word) : Host.Outcome State Fault Refusal :=
  issue i s fun s => .done s [.toX d.val (f (s.ctx s.cur)) la]

end Sys2Proof.Machine
end

