-- ==== Sys2Proof/Machine/Fetch.lean ====
section
/-! DEFINITION. Fetching an instruction's words (R31, R47, R210, R293): words fetched ahead, lines of the core's fetch
buffer, and memory. -/

namespace Sys2Proof.Machine

open Sys2Proof

/-- What a fetch of one word gives. -/
inductive FRes where
  | ok (w : W32)
  | miss (va : Word)
  | fault (sub : BitVec 8)
  deriving DecidableEq, Repr

/-- The word at a location: from the core's fetch buffer where the buffer holds its 256-byte line, else from memory
(R210, R293; log entry 9). -/
def State.fetchLoc (s : State) (a : Agent) (loc : Nat) : W32 :=
  let line := match a.core? with | some n => Map.find (s.core n).fetch (loc / 256) | none => none
  match line with
  | some bs => BitVec.ofNat 32 (bytesNat ((bs.drop (loc % 256)).take 4))
  | none => BitVec.ofNat 32 (bytesNat (s.homeBytes loc 4))

/-- A fetch of the word at an address (R47 steps 1 and 2): a word fetched ahead executes as fetched (R65, R210). -/
def State.fetch (s : State) (a : Agent) (va : Word) : FRes :=
  match Map.find (s.ctx a).ahead va.toNat with
  | some w => .ok w
  | none =>
    match s.resolve a .fetch va with
    | .ok loc => .ok (s.fetchLoc a loc)
    | .miss p => .miss p
    | .fault sub => .fault sub

/-- The trap of a fetch that faults: the plinth's register block is no place to fetch from (R161, R364). -/
def fetchTrap (sub : BitVec 8) (va : Word) : Trap := if sub = 3 then .at 0x06 3 va else .at 0x03 sub va

/-- What fetching an instruction gives: its words, a miss, or a fault at an address. -/
inductive Fetched3 where
  | ok (w : W32) (rest : List W32)
  | miss (va : Word)
  | fault (sub : BitVec 8) (va : Word)
  deriving DecidableEq, Repr

/-- Fetches n consecutive words. -/
def State.fetchRest (s : State) (a : Agent) : Nat → Word → Fetched3
  | 0, _ => .ok 0 []
  | n + 1, va =>
    match s.fetch a va with
    | .ok w =>
      match s.fetchRest a n (va + 4) with
      | .ok _ ws => .ok 0 (w :: ws)
      | e => e
    | .miss p => .miss p
    | .fault sub => .fault sub va

/-- Fetches the instruction at an address: the word, then the literals of R31 or a pair's second word. -/
def State.fetchInstr (s : State) (a : Agent) (va : Word) : Fetched3 :=
  match s.fetch a va with
  | .ok w =>
    match s.fetchRest a (extraWords w) (va + 4) with
    | .ok _ ws => .ok w ws
    | e => e
  | .miss p => .miss p
  | .fault sub => .fault sub va

/-- The instruction at a context's pc, where its words are there and decode. -/
def State.instrAt (s : State) (a : Agent) : Option Instr :=
  match s.fetchInstr a (s.ctx a).arch.pc with
  | .ok w rest => (decodeWords w rest).toOption
  | _ => none

/-- The context that fetches for a context: the leader of its gang, whose fetch every member follows (R303). -/
def State.fetcher (s : State) (a : Agent) : Agent := (s.group a).headD a

/-- The next instruction of a context, as its fetcher fetches it. -/
def State.nextInstr (s : State) (a : Agent) : Option Instr := s.instrAt (s.fetcher a)

/-- Whether the words of a context's next instruction wait for a page (R293, R321). -/
def State.fetchMisses (s : State) (a : Agent) : Bool :=
  match s.fetchInstr (s.fetcher a) (s.ctx (s.fetcher a)).arch.pc with
  | .miss _ => true
  | _ => false

/-- A parked context's instruction is completed with its results: it pops its streams, counts, and execution goes on after it
(R289). -/
def State.completeParked (s : State) (a : Agent) (i : Instr) (rs : List Result) : State :=
  ((s.modCtx a fun c => { c with park := none }).retire a i rs).sink s a

/-- The address after n instructions that are skipped and not decoded (R70). -/
def State.addressAfter (s : State) (a : Agent) : Nat → Word → Except Fetched3 Word
  | 0, va => .ok va
  | n + 1, va =>
    match s.fetch a va with
    | .ok w =>
      match s.fetchRest a (skipWords w - 1) (va + 4) with
      | .ok _ _ => s.addressAfter a n (va + BitVec.ofNat 64 (4 * skipWords w))
      | e => .error e
    | .miss p => .error (.miss p)
    | .fault sub => .error (.fault sub va)

end Sys2Proof.Machine
end

