-- ==== Sys2Proof/Machine/LoadStore.lean ====
section
/-! DEFINITION. Scalar loads and stores (R195, R196), and the checks of one scalar access that the jump table, the atomics
and the cells share. -/

namespace Sys2Proof

/-- Bytes of an integer type (R39). -/
def IntTy.size : IntTy → Nat
  | .i8 | .n8 => 1
  | .i16 | .n16 => 2
  | .i32 | .n32 => 4
  | .i64 | .n64 => 8

/-- Whether a type is signed (R35). -/
def IntTy.signed : IntTy → Bool
  | .i8 | .i16 | .i32 | .i64 => true
  | _ => false

/-- The 64-bit value of the low n bytes of a number, sign- or zero-extended (R195). -/
def extend (signed : Bool) (n v : Nat) : Word :=
  match n, signed with
  | 1, true => (BitVec.ofNat 8 v).signExtend 64
  | 2, true => (BitVec.ofNat 16 v).signExtend 64
  | 4, true => (BitVec.ofNat 32 v).signExtend 64
  | _, _ => BitVec.ofNat 64 (v % 2 ^ (8 * n))

namespace Machine

/-- A step of an instruction that may fault or wait: what it gives, or how the instruction ends. -/
abbrev Or (α : Type) := Except Res α

/-- Continues an instruction with what a step of it gives. -/
def Or.then {α : Type} (o : Or α) (f : α → Res) : Res :=
  match o with
  | .ok x => f x
  | .error r => r

/-- THE CHECKS OF ONE SCALAR ACCESS, in the order of R195: alignment, window, the reserved part of a slice, translation, swizzle tag.
`maxWin` is the highest window the form may use. The plinth's register block takes aligned accesses of 8 bytes alone (R364). -/
def State.locate (s : State) (a : Agent) (acc : Access) (maxWin : Nat) (e : Word) (size : Nat) : Or Nat :=
  if regsAddr a e && (size != 8 || e.toNat % 8 != 0) then .error (.trap (.at 0x06 3 e))
  else if e.toNat % size ≠ 0 then .error (.trap (.at 0x01 0 e))
  else if inAperture e && a != .plinth && decide (maxWin < apWin e) then .error (.trap (.at 0x06 3 e))
  else if inAperture e && a.program && decide (progEnd ≤ apOff e) then .error (.trap (.at 0x06 5 e))
  else match s.resolve a acc e with
    | .miss p => .error (.wait (s.parkMiss a acc [p]))
    | .fault sub => .error (.trap (.at acc.cause sub e))
    | .ok loc =>
      if s.tagOf loc != 0 then .error (.trap (.at 0x06 2 e)) else .ok loc

/-- Whether bytes have their home at the host or at a peer device (R195, R221). -/
def beyond (loc : Nat) : Bool :=
  match homeOf loc with
  | .host _ | .peer _ _ => true
  | _ => false

/-- Whether bytes have their home in host memory (R205). -/
def atHost (loc : Nat) : Bool :=
  match homeOf loc with
  | .host _ => true
  | _ => false

/-- The trap of an instruction that consumes an uncorrectable error: `faddr` is the address of its line (R161, R182). -/
def errorAt (loc : Nat) (e : Word) : Trap := .at 0x09 (unitOf loc) (e &&& ~~~(63#64))

/-- Performs an access outside every chunk: the open chunk closes before it (R212). -/
def State.apart (s : State) (a : Agent) (f : State → Res) : Res :=
  if s.canClose a then f (s.close a) else .wait (s.stall a)

/-- Whether a context's own atomic or cell update of the same 8-byte units is still on its way to its home; a later access
waits for it (R209, R219). -/
def State.updatePending (s : State) (a : Agent) (loc n : Nat) : Bool :=
  s.requests.any fun r => r.src == a && match r.op with
    | .amo _ _ l _ _ _ _ => decide (l / 8 ≤ (loc + n - 1) / 8) && decide (loc / 8 ≤ (l + 7) / 8)
    | .cell l _ => decide (l / 8 ≤ (loc + n - 1) / 8) && decide (loc / 8 ≤ (l + 31) / 8)
    | _ => false

/-- A scalar read that has passed its checks: an uncorrectable error is consumed (R182, R191), the read is recorded, and
its value is the little-endian number of its bytes (R4, R209, R211). A far read waits for a reply slot and before a closed
ingress gate (R256, R340); it is performed as it issues, and its slot is free again with its value. -/
def State.readAt (s : State) (a : Agent) (e : Word) (loc size : Nat) : Or (Nat × State) :=
  if s.meetsError a loc size then .error (.trap (errorAt loc e))
  else if s.updatePending a loc size then .error (.wait (s.stall a))
  else if s.farWaits a loc || s.areaShut loc then .error (.wait (s.stall a))
  else .ok (s.loadNat a loc size, (s.noteRead a loc size).touchTlb a e)

/-- The whole of a scalar load's read (R195). -/
def State.readScalar (s : State) (a : Agent) (maxWin : Nat) (e : Word) (size : Nat) (f : Nat → State → Res) : Res :=
  (s.locate a .read maxWin e size).then fun loc =>
    let go (s : State) := (s.readAt a e loc size).then fun r => f r.1 r.2
    if beyond loc then s.apart a go else go s

/-- The effective address of format M (R39, R195). -/
def effAddr (c : Ctx) (a : Reg) (off : MemOff) : Word := c.x a.val + (off.getD 0).signExtend 64

/-- A supervisor's store into a context area that a loop register refuses: an index above len in `loopc`, or a `loopa` that is not
a multiple of 4 (R7, R69). -/
def loopDenied (off : Nat) (w : Word) : Option Trap :=
  if off % 0x4000 = 0x2168 && badLoopc w then some (.at 0x06 1 8)
  else if off % 0x4000 = 0x2170 && fld w 0 2 != 0 then some (.at 0x06 1 9) else none

/-- The denial that a store into a context area meets, in a slice or in a pre-empted region's save area (R69, R174). -/
def State.areaDenied (s : State) (w : Write) : Option Trap :=
  let off? : Option Nat := match homeOf w.loc with
    | .slice _ off => some off
    | .hbm a => (s.savedAt a).map fun e => e.2.2.2
    | _ => none
  match off? with
  | some off =>
    if off < progEnd || 0x39C000 ≤ off then none
    else (s.wordsOver w.loc w.data).zipIdx.findSome? fun e => loopDenied (off / 8 * 8 + 8 * e.2 - progEnd) e.1.2
  | none => none

/-- A scalar store that has passed its checks: part of a bank word with an uncorrectable error consumes it (R191), and a loop
register may refuse it (R69). -/
def State.storeAt (s : State) (a : Agent) (e : Word) (loc size : Nat) (v : Word) : Or State :=
  let sram := match homeOf loc with | .slice _ _ => true | _ => false
  let w : Write := ⟨loc, natBytes size v.toNat, winOf e, size⟩
  if sram && decide (size < 8) && s.meetsError a loc size then .error (.trap (errorAt loc e))
  else if s.areaShut loc then .error (.wait (s.stall a))
  else match s.areaDenied w with
    | some t => .error (.trap t)
    | none => .ok ((s.touchTlb a e).store a w)

/-- `ld` (R195, R196); the plinth's register block takes `ld.i64` alone (R364). -/
def execLd (t : IntTy) (o : LdOrder) (d a : Reg) (off : MemOff) (la : La) (s : State) :
    Host.Outcome State Fault Refusal :=
  issue (.ld t o d a off la) s fun s =>
    let e := effAddr (s.ctx s.cur) a off
    if t == .n64 && regsAddr s.cur e then .trap (.at 0x06 3 e)
    else s.readScalar s.cur 1 e t.size fun v s => .done s [.toX d.val (extend t.signed t.size v) la.val]

/-- `st` (R195, R196, R221). A release is performed after every earlier access of its context: far stores of its chunk
leave before it, it waits for their acknowledgements, and its chunk commits with it (R212; log entry 22). The plinth's register block
takes `st.i64` alone (R364). -/
def execSt (t : IntTy) (o : StOrder) (d a : Reg) (off : MemOff) (s : State) : Host.Outcome State Fault Refusal :=
  issue (.st t o d a off) s fun s =>
    let c := s.ctx s.cur
    let e := effAddr c a off
    if t == .n64 && regsAddr s.cur e then .trap (.at 0x06 3 e)
    else (s.locate s.cur .write 1 e t.size).then fun loc =>
      match o with
      | .plain => (s.storeAt s.cur e loc t.size (c.x d.val)).then fun s => .done s []
      | .rel =>
        if !s.canClose s.cur then .wait (s.stall s.cur)
        else if !c.chunk.far.isEmpty then .wait ((s.close s.cur).stall s.cur)
        else if !s.performed s.cur (beyond loc) then .wait (s.stall s.cur)
        else (s.storeAt s.cur e loc t.size (c.x d.val)).then fun s => .done (s.close s.cur) []

end Machine
end Sys2Proof
end

