-- ==== Sys2Proof/Machine/Float.lean ====
section
/-! DEFINITION. Number formats and rounding (R99 to R106): a bit pattern is decoded to its exact value, the operation is
exact on values, and its result is rounded once into a format. -/

namespace Sys2Proof.Machine

open Sys2Proof

/-- A binary format: exponent bits, fraction bits (R99). -/
structure Fmt where
  eb : Nat
  fb : Nat
  deriving DecidableEq, Repr

/-- fp32 (R99). -/
def Fmt.f32 : Fmt := ⟨8, 23⟩
/-- fp16 (R99). -/
def Fmt.f16 : Fmt := ⟨5, 10⟩
/-- bfloat16 (R99). -/
def Fmt.b16 : Fmt := ⟨8, 7⟩

/-- Exponent bias (R99). -/
def Fmt.bias (f : Fmt) : Nat := 2 ^ (f.eb - 1) - 1
/-- The exponent field of infinities and NaNs. -/
def Fmt.top (f : Fmt) : Nat := 2 ^ f.eb - 1
/-- The sign bit. -/
def Fmt.sign (f : Fmt) : Nat := 2 ^ (f.eb + f.fb)
/-- The magnitude bits of an infinity. -/
def Fmt.infinity (f : Fmt) : Nat := f.top * 2 ^ f.fb
/-- The canonical quiet NaN (R99). -/
def Fmt.quiet (f : Fmt) : Nat := f.infinity + 2 ^ (f.fb - 1)

/-- An exact value: (−1)^neg × m × 2^e, an infinity, or a NaN. -/
inductive FVal where
  | nan
  | inf (neg : Bool)
  | fin (neg : Bool) (m : Nat) (e : Int)
  deriving DecidableEq, Repr

/-- The exact value of a bit pattern (R99). -/
def Fmt.decode (f : Fmt) (bits : Nat) : FVal :=
  let neg := bits / f.sign % 2 == 1
  let ex := bits / 2 ^ f.fb % 2 ^ f.eb
  let fr := bits % 2 ^ f.fb
  if ex = f.top then (if fr = 0 then .inf neg else .nan)
  else if ex = 0 then .fin neg fr (1 - (f.bias : Int) - f.fb)
  else .fin neg (2 ^ f.fb + fr) ((ex : Int) - f.bias - f.fb)

/-- m / 2^d rounded to an integer in a rounding mode (R101). -/
def roundNat (r : Rm) (neg : Bool) (m d : Nat) : Nat :=
  let q := m / 2 ^ d
  let t := m % 2 ^ d
  let up := match r with
    | .rne => decide (2 ^ d < 2 * t) || (2 * t == 2 ^ d && q % 2 == 1)
    | .rtz => false
    | .rdn => neg && t != 0
    | .rup => !neg && t != 0
    | .rna => decide (2 ^ d ≤ 2 * t)
  if up then q + 1 else q

/-- m × 2^e rounded to a multiple of 2^q, as its count (R101). -/
def roundUnit (r : Rm) (neg : Bool) (m : Nat) (e q : Int) : Nat :=
  if q ≤ e then m * 2 ^ (e - q).toNat else roundNat r neg m (q - e).toNat

/-- The magnitude bits a rounding mode gives on overflow (R101). -/
def Fmt.overflow (f : Fmt) (r : Rm) (neg : Bool) : Nat :=
  match r with
  | .rne | .rna => f.infinity
  | .rtz => f.infinity - 1
  | .rdn => if neg then f.infinity else f.infinity - 1
  | .rup => if neg then f.infinity - 1 else f.infinity

/-- The magnitude bits of m × 2^e rounded once into a format, subnormals kept (R99, R101). -/
def Fmt.round (f : Fmt) (r : Rm) (neg : Bool) (m : Nat) (e : Int) : Nat :=
  if m = 0 then 0
  else
    let least : Int := 1 - (f.bias : Int) - f.fb
    let q := max (e + Nat.log2 m - f.fb) least
    let bits := (q - least).toNat * 2 ^ f.fb + roundUnit r neg m e q
    if f.infinity ≤ bits then f.overflow r neg else bits

/-- A value rounded once into a format (R99, R101). -/
def Fmt.encode (f : Fmt) (r : Rm) : FVal → Nat
  | .nan => f.quiet
  | .inf neg => (if neg then f.sign else 0) + f.infinity
  | .fin neg m e => (if neg then f.sign else 0) + f.round r neg m e

/-! ### Exact operations -/

/-- A signed integer multiple of 2^e; `zneg` is the sign of an exact zero. -/
def FVal.ofInt (zneg : Bool) (i e : Int) : FVal := if i = 0 then .fin zneg 0 0 else .fin (decide (i < 0)) i.natAbs e

/-- The signed integer of a magnitude. -/
def signed (neg : Bool) (m : Nat) : Int := if neg then -(m : Int) else m

/-- The sum of two values; an exact zero sum of unlike signs is +0, or −0 when rounding down (R60, R85). -/
def FVal.add (r : Rm) : FVal → FVal → FVal
  | .nan, _ | _, .nan => .nan
  | .inf a, .inf b => if a = b then .inf a else .nan
  | .inf a, _ => .inf a
  | _, .inf b => .inf b
  | .fin a m e, .fin b n k =>
    let q := min e k
    FVal.ofInt (if a = b then a else r == .rdn)
      (signed a (m * 2 ^ (e - q).toNat) + signed b (n * 2 ^ (k - q).toNat)) q

/-- The product of two values. -/
def FVal.mul : FVal → FVal → FVal
  | .nan, _ | _, .nan => .nan
  | .inf a, .inf b => .inf (a != b)
  | .inf a, .fin b n _ => if n = 0 then .nan else .inf (a != b)
  | .fin a m _, .inf b => if m = 0 then .nan else .inf (a != b)
  | .fin a m e, .fin b n k => .fin (a != b) (m * n) (e + k)

/-- The negative of a value. -/
def FVal.neg : FVal → FVal
  | .nan => .nan
  | .inf a => .inf !a
  | .fin a m e => .fin (!a) m e

/-- A quotient with 64 bits below the integers' and a last bit that says whether anything is left. -/
def FVal.div : FVal → FVal → FVal
  | .nan, _ | _, .nan => .nan
  | .inf _, .inf _ => .nan
  | .inf a, .fin b _ _ => .inf (a != b)
  | .fin a _ _, .inf b => .fin (a != b) 0 0
  | .fin a m e, .fin b n k =>
    if n = 0 then (if m = 0 then .nan else .inf (a != b))
    else
      let t := m * 2 ^ 64
      .fin (a != b) (2 * (t / n) + if t % n = 0 then 0 else 1) (e - k - 65)

/-- The integer square root of n below 2^bits, from a part r already found. -/
def isqrt (n : Nat) : Nat → Nat → Nat
  | 0, r => r
  | k + 1, r => isqrt n k (if (r + 2 ^ k) * (r + 2 ^ k) ≤ n then r + 2 ^ k else r)

/-- A square root with a last bit that says whether anything is left (R87). -/
def FVal.sqrt : FVal → FVal
  | .nan => .nan
  | .inf a => if a then .nan else .inf false
  | .fin a m e =>
    if m = 0 then .fin a 0 0
    else if a then .nan
    else
      let odd := e % 2 != 0
      let t := (if odd then 2 * m else m) * 2 ^ 80
      let r := isqrt t 64 0
      .fin false (2 * r + if r * r = t then 0 else 1) ((if odd then e - 1 else e) / 2 - 41)

/-! ### fp32 operations of the scalar, vector and array units (R60, R61, R85 to R87) -/

/-- The exact value of an fp32 pattern. -/
def f32 (a : W32) : FVal := Fmt.f32.decode a.toNat
/-- A value rounded once to fp32. -/
def toF32 (r : Rm) (v : FVal) : W32 := BitVec.ofNat 32 (Fmt.f32.encode r v)

/-- a + b. -/
def fAdd (r : Rm) (a b : W32) : W32 := toF32 r ((f32 a).add r (f32 b))
/-- a − b. -/
def fSub (r : Rm) (a b : W32) : W32 := toF32 r ((f32 a).add r (f32 b).neg)
/-- a × b. -/
def fMul (r : Rm) (a b : W32) : W32 := toF32 r ((f32 a).mul (f32 b))
/-- a × b + d, rounded once. -/
def fMa (r : Rm) (a b d : W32) : W32 := toF32 r (((f32 a).mul (f32 b)).add r (f32 d))
/-- a / b. -/
def fDiv (r : Rm) (a b : W32) : W32 := toF32 r ((f32 a).div (f32 b))
/-- The square root of a. -/
def fSqrt (a : W32) : W32 := toF32 .rne (f32 a).sqrt

/-- The quiet NaN of fp32 (R60). -/
def quietNaN : W32 := 0x7FC00000
/-- Bits 30:0 of an fp32 pattern. -/
def mag (a : W32) : Nat := a.toNat % 2 ^ 31
/-- The sign bit. -/
def sgn (a : W32) : Bool := a.getLsbD 31
/-- Whether a pattern is a NaN. -/
def isNaN (a : W32) : Bool := decide (0x7F800000 < mag a)
/-- Order of fp32 patterns that are not NaN, −0 equal to +0. -/
def fKey (a : W32) : Int := signed (sgn a) (mag a)
/-- The same with −0 below +0 (R61). -/
def fKeyZ (a : W32) : Int := if sgn a then -(mag a : Int) - 1 else mag a

/-- `fmin` and `fmax` (R61). -/
def fPick (greater : Bool) (a b : W32) : W32 :=
  if isNaN a && isNaN b then quietNaN
  else if isNaN a then b
  else if isNaN b then a
  else if decide (fKeyZ a < fKeyZ b) != greater then a else b

/-- a = b, a < b and a ≤ b; false with a NaN (R61, R89). -/
def fEq (a b : W32) : Bool := !isNaN a && !isNaN b && fKey a == fKey b
/-- a < b. -/
def fLt (a b : W32) : Bool := !isNaN a && !isNaN b && decide (fKey a < fKey b)
/-- a ≤ b. -/
def fLe (a b : W32) : Bool := !isNaN a && !isNaN b && decide (fKey a ≤ fKey b)
/-- Whether a or b is a NaN. -/
def fUo (a b : W32) : Bool := isNaN a || isNaN b

/-- `fsgn` (R61). -/
def fSgn (o : SgnOp) (a b : W32) : W32 :=
  let s := match o with
    | .copy => sgn b
    | .neg => !sgn b
    | .xor => sgn a != sgn b
  BitVec.ofNat 32 (mag a + if s then 2 ^ 31 else 0)

/-- Number of the class of a pattern (R62). -/
def classOf (a : W32) : Nat :=
  let m := mag a
  if isNaN a then (if a.getLsbD 22 then 9 else 8)
  else if m = 0x7F800000 then (if sgn a then 0 else 7)
  else if m = 0 then (if sgn a then 3 else 4)
  else if m < 0x800000 then (if sgn a then 2 else 5)
  else if sgn a then 1 else 6

/-- `fclass` (R62). -/
def fClass (a : W32) : W32 := BitVec.ofNat 32 (2 ^ classOf a)

/-! ### Conversions (R63, R110, R111) -/

end Sys2Proof.Machine

namespace Sys2Proof

open Machine

/-- Format of a floating type (R35, R99). -/
def Ty.fmt : Ty → Fmt
  | .f16 => .f16
  | .b16 => .b16
  | _ => .f32

/-- Bits of a type's value in a register (R35). -/
def Ty.width : Ty → Nat
  | .i8 | .n8 => 8
  | .i16 | .n16 | .f16 | .b16 => 16
  | .i32 | .n32 | .f32 => 32
  | _ => 64

/-- Whether an integer type is two's-complement (R100). -/
def Ty.isSigned : Ty → Bool
  | .i8 | .i16 | .i32 | .i64 => true
  | _ => false

/-- Least value of an integer type (R100). -/
def Ty.least (t : Ty) : Int := if t.isSigned then -(2 ^ (t.width - 1) : Nat) else 0
/-- Greatest value of an integer type (R100). -/
def Ty.greatest (t : Ty) : Int :=
  if t.isSigned then (2 ^ (t.width - 1) : Nat) - 1 else (2 ^ t.width : Nat) - 1

/-- The exact value of a conversion's source in the low bits of a word (R63). -/
def Ty.value (t : Ty) (w : Nat) : FVal :=
  let v := w % 2 ^ t.width
  if t.isInt then
    FVal.ofInt false (if t.isSigned && decide (2 ^ (t.width - 1) ≤ v) then (v : Int) - (2 ^ t.width : Nat) else v) 0
  else t.fmt.decode v

/-- A value rounded to an integer of a type, saturated; a NaN gives 0 (R63, R100). -/
def Ty.toInteger (t : Ty) (r : Rm) : FVal → Int
  | .nan => 0
  | .inf neg => if neg then t.least else t.greatest
  | .fin neg m e => max t.least (min t.greatest (signed neg (roundUnit r neg m e 0)))

/-- THE CONVERSION of R63 from the low bits of a source to a result of n bits: integers widened, floats zero above their
width. -/
def convert (n : Nat) (dst src : Ty) (r : Rm) (w : Nat) : BitVec n :=
  if dst.isInt then BitVec.ofInt n (dst.toInteger r (src.value w))
  else BitVec.ofNat n (dst.fmt.encode r (src.value w))

namespace Machine

/-! ### The dx formats (R102 to R106) -/

/-- Magnitude bits m (R102). -/
def dxM : Dx → Nat
  | .dx7 => 7
  | .dx4 => 4
  | .dx2 => 2
/-- Bytes of a strip record (R102). -/
def dxBytes : Dx → Nat
  | .dx7 => 80
  | .dx4 => 56
  | .dx2 => 40
/-- First byte of the step word (R103). -/
def dxStep (f : Dx) : Nat := 8 * (dxM f + 1)

/-- Set bits among the low n bits of a number. -/
def bitsSet (w : Nat) : Nat → Nat
  | 0 => 0
  | n + 1 => bitsSet w n + if w.testBit n then 1 else 0

/-- Whether a boundary half-word is well formed (R104): bit 0 is set, at most 8 bits are, and every block spans at most 4
quads. -/
def dxBound (w : Nat) : Bool :=
  w.testBit 0 && decide (bitsSet w 16 ≤ 8) &&
    (List.range 13).all fun i => w.testBit i || w.testBit (i + 1) || w.testBit (i + 2) || w.testBit (i + 3)

/-- The value of an element: sign, magnitude, block exponent, step-down (R102). -/
def dxValue (f : Dx) (neg : Bool) (m e d : Nat) : FVal :=
  if e = 255 then .nan else .fin neg m ((e : Int) - 127 - d - (dxM f - 1))

/-- Element i of a strip record given as one little-endian number: fp32 (R102 to R104). -/
def dxDecode (f : Dx) (rec : Nat) (i : Nat) : W32 :=
  let c := dxM f + 1
  let code := rec / 2 ^ (c * i) % 2 ^ c
  let at8 (b : Nat) := rec / 2 ^ (8 * b)
  let steps := at8 (dxStep f)
  let bound := at8 (dxStep f + 4) % 2 ^ 16
  let quad := i / 4
  let block := bitsSet bound (quad + 1) - 1
  if dxBound bound then
    toF32 .rne (dxValue f (code.testBit (dxM f)) (code % 2 ^ dxM f) (at8 (dxStep f + 8 + block) % 256)
      (steps / 2 ^ (2 * quad) % 4))
  else quietNaN

/-- ex of a finite nonzero element (R105). -/
def dxEx : FVal → Option Int
  | .fin _ m e => if m = 0 then none else some (e + Nat.log2 m)
  | _ => none

/-- The greater of two exponents that may be absent. -/
def optMax : Option Int → Option Int → Option Int
  | some a, some b => some (max a b)
  | some a, none => some a
  | none, b => b

/-- The lesser of two exponents that may be absent. -/
def optMin : Option Int → Option Int → Option Int
  | some a, some b => some (min a b)
  | some a, none => some a
  | none, b => b

/-- qe of a quad (R105). -/
def dxQe (xs : List FVal) (j : Nat) : Option Int :=
  ((List.range 4).map fun i => dxEx (xs.getD (4 * j + i) .nan)).foldl optMax none

/-- Whether an element is a NaN or an infinity. -/
def FVal.odd : FVal → Bool
  | .fin _ _ _ => false
  | _ => true

/-- Whether quarter q is split into two blocks (R105). -/
def dxSplit (xs : List FVal) (q : Nat) : Bool :=
  let qs := (List.range 4).map fun j => dxQe xs (4 * q + j)
  let spread := match qs.foldl optMax none, qs.foldl optMin none with
    | some a, some b => a - b
    | _, _ => 0
  decide (4 ≤ spread) || (List.range 16).any fun i => (xs.getD (16 * q + i) .nan).odd

/-- First quads of the blocks, and their lengths in quads (R105). -/
def dxBlocks (xs : List FVal) : List (Nat × Nat) :=
  (List.range 4).flatMap fun q => if dxSplit xs q then [(4 * q, 2), (4 * q + 2, 2)] else [(4 * q, 4)]

/-- Sign of an element. -/
def FVal.sign : FVal → Bool
  | .nan => false
  | .inf a => a
  | .fin a _ _ => a

/-- What a block gives its record: exponent, codes and step-downs (R105). -/
def dxBlock (f : Dx) (xs : List FVal) (b : Nat × Nat) : Nat × List Nat × List Nat :=
  let es := (List.range (4 * b.2)).map fun i => xs.getD (4 * b.1 + i) .nan
  let quads := (List.range b.2).map fun j => dxQe xs (b.1 + j)
  let m := dxM f
  let sb (x : FVal) : Nat := if x.sign then 2 ^ m else 0
  if es.any FVal.odd then (255, es.map fun _ => 0, quads.map fun _ => 0)
  else match quads.foldl optMax none with
    | none => (0, es.map sb, quads.map fun _ => 0)
    | some top =>
      let e := max 0 (min 254 (top + 127))
      let ds := quads.map fun q => match q with | some x => (min 3 (top - x)).toNat | none => 0
      let code (i : Nat) (x : FVal) : Nat :=
        let step := e - 127 - (ds.getD (i / 4) 0 : Nat) - (m - 1 : Nat)
        let mm := match x with | .fin _ n k => min (roundUnit .rne false n k step) (2 ^ m - 1) | _ => 0
        sb x + mm
      (e.toNat, (List.range es.length).map fun i => code i (es.getD i .nan), ds)

/-- Packs codes of c bits each, the first lowest. -/
def packBits (c : Nat) : List Nat → Nat
  | [] => 0
  | x :: xs => x + 2 ^ c * packBits c xs

/-- A STRIP RECORD of 64 fp32 elements as one little-endian number (R103, R105). -/
def dxEncode (f : Dx) (l : Nat → W32) : Nat :=
  let xs := (List.range 64).map fun i => f32 (l i)
  let bs := dxBlocks xs
  let parts := bs.map (dxBlock f xs)
  let codes := packBits (dxM f + 1) (parts.flatMap fun p => p.2.1)
  let steps := packBits 2 (parts.flatMap fun p => p.2.2)
  let bound := (bs.map fun b => 2 ^ b.1).sum
  let exps := packBits 8 (parts.map fun p => p.1)
  codes + 2 ^ (8 * dxStep f) * (steps + 2 ^ 32 * (bound + 2 ^ 32 * exps))

end Machine
end Sys2Proof
end

