-- ==== Sys2Proof/Machine/ScalarInt.lean ====
section
/-! DEFINITION. Integer and address instructions of class 00 (R54 to R59). -/

namespace Sys2Proof.Machine

open Sys2Proof

/-- Low 32 bits of a word. -/
def low32 (v : Word) : W32 := v.setWidth 32

/-- k := b mod 64 (R54). -/
def shiftOf (b : Word) : Nat := b.toNat % 64

/-- `div` (R55). -/
def divS (a b : Word) : Word :=
  if b = 0 then BitVec.allOnes 64
  else if a = 0x8000000000000000 && b = BitVec.allOnes 64 then a
  else BitVec.ofInt 64 (a.toInt.tdiv b.toInt)
/-- `rem` (R55). -/
def remS (a b : Word) : Word :=
  if b = 0 then a
  else if a = 0x8000000000000000 && b = BitVec.allOnes 64 then 0
  else BitVec.ofInt 64 (a.toInt - a.toInt.tdiv b.toInt * b.toInt)
/-- `divn` (R55). -/
def divN (a b : Word) : Word := if b = 0 then BitVec.allOnes 64 else BitVec.ofNat 64 (a.toNat / b.toNat)
/-- `remn` (R55). -/
def remN (a b : Word) : Word := if b = 0 then a else BitVec.ofNat 64 (a.toNat % b.toNat)

/-- Leading zero bits of the low n bits (R56). -/
def leading0 (v : Word) : Nat → Nat
  | 0 => 0
  | n + 1 => if v.getLsbD n then 0 else 1 + leading0 v n
/-- Trailing zero bits among n bits from bit i (R56). -/
def trailing0 (v : Word) : Nat → Nat → Nat
  | 0, _ => 0
  | n + 1, i => if v.getLsbD i then 0 else 1 + trailing0 v n (i + 1)
/-- One bits among the low n bits (R56). -/
def ones (v : Word) : Nat → Nat
  | 0 => 0
  | n + 1 => (if v.getLsbD n then 1 else 0) + ones v n

/-- `sext` (R56). -/
def sextOf : ExtSize → Word → Word
  | .b8, a => (a.setWidth 8).signExtend 64
  | .b16, a => (a.setWidth 16).signExtend 64
  | .b32, a => (a.setWidth 32).signExtend 64
/-- `zext` (R56). -/
def zextOf : ExtSize → Word → Word
  | .b8, a => (a.setWidth 8).setWidth 64
  | .b16, a => (a.setWidth 16).setWidth 64
  | .b32, a => (a.setWidth 32).setWidth 64

/-- The mask of `bext` and `bins`: e := min(w, 64 − p) ones (R57). -/
def fieldMask (b : Word) : Word := BitVec.ofNat 64 (2 ^ (min (fld b 6 7) (64 - fld b 0 6)) - 1)
/-- `bext` (R57). -/
def bextOf (a b : Word) : Word := (a >>> fld b 0 6) &&& fieldMask b
/-- `bins` (R57). -/
def binsOf (d a b : Word) : Word :=
  (d &&& ~~~(fieldMask b <<< fld b 0 6)) ||| ((a &&& fieldMask b) <<< fld b 0 6)

/-- `lim` (R58). -/
def limOf (unsigned : Bool) (a b : Word) : Word :=
  let c := b.toNat
  if c = 0 then 0
  else if 64 ≤ c then a
  else if unsigned then BitVec.ofNat 64 (min a.toNat (2 ^ c - 1))
  else BitVec.ofInt 64 (max (-(2 ^ (c - 1) : Int)) (min a.toInt (2 ^ (c - 1) - 1)))

/-- What majors 0x01 to 0x20 compute from the old xd, a and b (R54 to R58); class 00 and the scalar half of a pair share it
(R42). -/
def sopEval (op : SOp) (d a b : Word) : Word :=
  match op with
  | .add => a + b
  | .sub => a - b
  | .and => a &&& b
  | .or => a ||| b
  | .xor => a ^^^ b
  | .andn => a &&& ~~~b
  | .sll => a <<< shiftOf b
  | .srl => a >>> shiftOf b
  | .sra => a.sshiftRight (shiftOf b)
  | .rol => a.rotateLeft (shiftOf b)
  | .slt => if a.toInt < b.toInt then 1 else 0
  | .sltn => if a.toNat < b.toNat then 1 else 0
  | .min => if a.toInt < b.toInt then a else b
  | .max => if a.toInt < b.toInt then b else a
  | .minn => if a.toNat < b.toNat then a else b
  | .maxn => if a.toNat < b.toNat then b else a
  | .mul => a * b
  | .mulh => BitVec.ofInt 64 (a.toInt * b.toInt / 2 ^ 64)
  | .mulhn => BitVec.ofNat 64 (a.toNat * b.toNat / 2 ^ 64)
  | .div => divS a b
  | .divn => divN a b
  | .rem => remS a b
  | .remn => remN a b
  | .clz => BitVec.ofNat 64 (leading0 a 64)
  | .ctz => BitVec.ofNat 64 (trailing0 a 64 0)
  | .popc => BitVec.ofNat 64 (ones a 64)
  | .sext z => sextOf z a
  | .zext z => zextOf z a
  | .bext => bextOf a b
  | .bins => binsOf d a b
  | .sel => if d != 0 then a else b
  | .lim u => limOf u a b

/-- A two-operand integer form: its operation on the values of xd, xa and b, written to xd (R54 to R58). -/
def issueS (i : Instr) (op : SOp) (d a : Reg) (b : SrcB) (la : Nat) (s : State) : Host.Outcome State Fault Refusal :=
  issueX i d la s fun c => sopEval op (c.x d.val) (c.x a.val) (b.val c)

/-- A one-operand integer form (R56). -/
def issueU (i : Instr) (op : SOp) (d a : Reg) (s : State) : Host.Outcome State Fault Refusal :=
  issueX i d 0 s fun c => sopEval op 0 (c.x a.val) 0

/-- `add` (R54). -/
def execAdd (d a : Reg) (b : SrcB) (s : State) : Host.Outcome State Fault Refusal :=
  issueS (.add d a b) .add d a b 0 s

/-- `sub` (R54). -/
def execSub (d a : Reg) (b : SrcB) (s : State) : Host.Outcome State Fault Refusal :=
  issueS (.sub d a b) .sub d a b 0 s

/-- `and` (R54). -/
def execAnd (d a : Reg) (b : SrcB) (s : State) : Host.Outcome State Fault Refusal :=
  issueS (.and d a b) .and d a b 0 s

/-- `or` (R54). -/
def execOr (d a : Reg) (b : SrcB) (s : State) : Host.Outcome State Fault Refusal :=
  issueS (.or d a b) .or d a b 0 s

/-- `xor` (R54). -/
def execXor (d a : Reg) (b : SrcB) (s : State) : Host.Outcome State Fault Refusal :=
  issueS (.xor d a b) .xor d a b 0 s

/-- `andn` (R54). -/
def execAndn (d a : Reg) (b : SrcB) (s : State) : Host.Outcome State Fault Refusal :=
  issueS (.andn d a b) .andn d a b 0 s

/-- `sll` (R54). -/
def execSll (d a : Reg) (b : SrcB) (s : State) : Host.Outcome State Fault Refusal :=
  issueS (.sll d a b) .sll d a b 0 s

/-- `srl` (R54). -/
def execSrl (d a : Reg) (b : SrcB) (s : State) : Host.Outcome State Fault Refusal :=
  issueS (.srl d a b) .srl d a b 0 s

/-- `sra` (R54). -/
def execSra (d a : Reg) (b : SrcB) (s : State) : Host.Outcome State Fault Refusal :=
  issueS (.sra d a b) .sra d a b 0 s

/-- `rol` (R54). -/
def execRol (d a : Reg) (b : SrcB) (s : State) : Host.Outcome State Fault Refusal :=
  issueS (.rol d a b) .rol d a b 0 s

/-- `slt` (R54). -/
def execSlt (d a : Reg) (b : SrcB) (s : State) : Host.Outcome State Fault Refusal :=
  issueS (.slt d a b) .slt d a b 0 s

/-- `sltn` (R54). -/
def execSltn (d a : Reg) (b : SrcB) (s : State) : Host.Outcome State Fault Refusal :=
  issueS (.sltn d a b) .sltn d a b 0 s

/-- `min` (R54). -/
def execMin (d a : Reg) (b : SrcB) (s : State) : Host.Outcome State Fault Refusal :=
  issueS (.min d a b) .min d a b 0 s

/-- `max` (R54). -/
def execMax (d a : Reg) (b : SrcB) (s : State) : Host.Outcome State Fault Refusal :=
  issueS (.max d a b) .max d a b 0 s

/-- `minn` (R54). -/
def execMinn (d a : Reg) (b : SrcB) (s : State) : Host.Outcome State Fault Refusal :=
  issueS (.minn d a b) .minn d a b 0 s

/-- `maxn` (R54). -/
def execMaxn (d a : Reg) (b : SrcB) (s : State) : Host.Outcome State Fault Refusal :=
  issueS (.maxn d a b) .maxn d a b 0 s

/-- `mul` (R54). -/
def execMul (d a : Reg) (b : SrcB) (la : La) (s : State) : Host.Outcome State Fault Refusal :=
  issueS (.mul d a b la) .mul d a b la.val s

/-- `mulh` (R54). -/
def execMulh (d a : Reg) (b : SrcB) (la : La) (s : State) : Host.Outcome State Fault Refusal :=
  issueS (.mulh d a b la) .mulh d a b la.val s

/-- `mulhn` (R54). -/
def execMulhn (d a : Reg) (b : SrcB) (la : La) (s : State) : Host.Outcome State Fault Refusal :=
  issueS (.mulhn d a b la) .mulhn d a b la.val s

/-- `div` (R55). -/
def execDiv (d a : Reg) (b : SrcB) (la : La) (s : State) : Host.Outcome State Fault Refusal :=
  issueS (.div d a b la) .div d a b la.val s

/-- `divn` (R55). -/
def execDivn (d a : Reg) (b : SrcB) (la : La) (s : State) : Host.Outcome State Fault Refusal :=
  issueS (.divn d a b la) .divn d a b la.val s

/-- `rem` (R55). -/
def execRem (d a : Reg) (b : SrcB) (la : La) (s : State) : Host.Outcome State Fault Refusal :=
  issueS (.rem d a b la) .rem d a b la.val s

/-- `remn` (R55). -/
def execRemn (d a : Reg) (b : SrcB) (la : La) (s : State) : Host.Outcome State Fault Refusal :=
  issueS (.remn d a b la) .remn d a b la.val s

/-- `clz` (R56). -/
def execClz (d a : Reg) (s : State) : Host.Outcome State Fault Refusal := issueU (.clz d a) .clz d a s

/-- `ctz` (R56). -/
def execCtz (d a : Reg) (s : State) : Host.Outcome State Fault Refusal := issueU (.ctz d a) .ctz d a s

/-- `popc` (R56). -/
def execPopc (d a : Reg) (s : State) : Host.Outcome State Fault Refusal := issueU (.popc d a) .popc d a s

/-- `sext` (R56). -/
def execSext (z : ExtSize) (d a : Reg) (s : State) : Host.Outcome State Fault Refusal :=
  issueU (.sext z d a) (.sext z) d a s

/-- `zext` (R56). -/
def execZext (z : ExtSize) (d a : Reg) (s : State) : Host.Outcome State Fault Refusal :=
  issueU (.zext z d a) (.zext z) d a s

/-- `bext` (R57). -/
def execBext (d a : Reg) (b : SrcB) (s : State) : Host.Outcome State Fault Refusal :=
  issueS (.bext d a b) .bext d a b 0 s

/-- `bins` (R57). -/
def execBins (d a : Reg) (b : SrcB) (s : State) : Host.Outcome State Fault Refusal :=
  issueS (.bins d a b) .bins d a b 0 s

/-- `sel` (R58). -/
def execSel (d a : Reg) (b : SrcB) (s : State) : Host.Outcome State Fault Refusal :=
  issueS (.sel d a b) .sel d a b 0 s

/-- `lim` (R58). -/
def execLim (u : Bool) (d a : Reg) (b : SrcB) (s : State) : Host.Outcome State Fault Refusal :=
  issueS (.lim u d a b) (.lim u) d a b 0 s

/-- `addpc`: A + b (R59). -/
def execAddpc (d : Reg) (b : SrcB) (s : State) : Host.Outcome State Fault Refusal :=
  issueX (.addpc d b) d 0 s fun c => c.arch.pc + b.val c

/-- `lea`: a + (b << s) (R59). -/
def execLea (d a : Reg) (b : SrcB) (k : Fin 4) (s : State) : Host.Outcome State Fault Refusal :=
  issueX (.lea d a b k) d 0 s fun c => c.x a.val + (b.val c <<< k.val)

end Sys2Proof.Machine
end

