-- ==== Sys2Proof/Machine/Vector.lean ====
section
/-! DEFINITION. Integer and float lanes, comparison, selection, rearrangement, reductions, scans and predicates (R77 to
R98). -/

namespace Sys2Proof.Machine

open Sys2Proof

/-- A class 01 form: its operation under its effective guard (R78, R241). -/
def issueV (i : Instr) (s : State) (f : Word → State → Res) : Host.Outcome State Fault Refusal :=
  issue i s fun s => f (s.guardMask s.cur i) s

/-- The lane mask of a test of lane numbers. -/
def maskOf (f : Nat → Bool) : Word := BitVec.ofNat 64 ((List.range 64).map fun i => bit' (f i) i).sum

/-! ### Lanes -/

/-- `vadd` (R83). -/
def addLane (m : SatMode) (a b : W32) : W32 :=
  match m with
  | .wrap => a + b
  | .sat => BitVec.ofInt 32 (max (-(2 ^ 31)) (min (2 ^ 31 - 1) (a.toInt + b.toInt)))
  | .satn => BitVec.ofNat 32 (min (a.toNat + b.toNat) (2 ^ 32 - 1))

/-- `vsub` (R83). -/
def subLane (m : SatMode) (a b : W32) : W32 :=
  match m with
  | .wrap => a - b
  | .sat => BitVec.ofInt 32 (max (-(2 ^ 31)) (min (2 ^ 31 - 1) (a.toInt - b.toInt)))
  | .satn => BitVec.ofNat 32 (a.toNat - b.toNat)

/-- `vabs` (R84). -/
def absLane (a : W32) : W32 := if a = 0x80000000 then 0x7FFFFFFF else if a.toInt < 0 then -a else a

/-- Signed and unsigned minima and maxima of lanes (R83). -/
def minLane (greater unsigned : Bool) (a b : W32) : W32 :=
  let lt := if unsigned then decide (a.toNat < b.toNat) else decide (a.toInt < b.toInt)
  if lt != greater then a else b

/-- k := b mod 32 (R83). -/
def shift32 (b : W32) : Nat := b.toNat % 32

/-- The lanes a binary form computes from the lanes of vd, va and b (R83, R86, R90 to R93). -/
def binLanes (op : VBin) (sel : Word) (d a b : Nat → W32) : Nat → W32 :=
  match op with
  | .vadd m => fun i => addLane m (a i) (b i)
  | .vsub m => fun i => subLane m (a i) (b i)
  | .vmul => fun i => a i * b i
  | .vmulh u => fun i =>
    if u then BitVec.ofNat 32 ((a i).toNat * (b i).toNat / 2 ^ 32) else BitVec.ofInt 32 ((a i).toInt * (b i).toInt / 2 ^ 32)
  | .vmac => fun i => d i + a i * b i
  | .vand => fun i => a i &&& b i
  | .vor => fun i => a i ||| b i
  | .vxor => fun i => a i ^^^ b i
  | .vsll => fun i => a i <<< shift32 (b i)
  | .vsrl => fun i => a i >>> shift32 (b i)
  | .vsra => fun i => (a i).sshiftRight (shift32 (b i))
  | .vmin => fun i => minLane false false (a i) (b i)
  | .vmax => fun i => minLane true false (a i) (b i)
  | .vminn => fun i => minLane false true (a i) (b i)
  | .vmaxn => fun i => minLane true true (a i) (b i)
  | .vfadd r => fun i => fAdd r (a i) (b i)
  | .vfsub r => fun i => fSub r (a i) (b i)
  | .vfmul r => fun i => fMul r (a i) (b i)
  | .vfma r => fun i => fMa r (a i) (b i) (d i)
  | .vfmin => fun i => fPick false (a i) (b i)
  | .vfmax => fun i => fPick true (a i) (b i)
  | .vfsgn o => fun i => fSgn o (a i) (b i)
  | .vfdiv r => fun i => fDiv r (a i) (b i)
  | .vsel _ => fun i => if sel.getLsbD i then a i else b i
  | .vperm scatter =>
    if scatter then fun j =>
      (List.range 64).foldl (fun v i => if (b i).toNat % 64 = j then a i else v) (d j)
    else fun i => a ((b i).toNat % 64)
  | .vslide down =>
    let k := min (b 0).toNat 64
    if down then fun i => if i + k ≤ 63 then a (i + k) else 0
    else fun i => if k ≤ i then a (i - k) else 0
  | .vzip => fun i => if i % 2 = 0 then a (i / 2) else b (i / 2)
  | .vunzip => fun i => if i < 32 then a (2 * i) else b (2 * (i - 32))

/-- A binary form's lanes in a context. -/
def Ctx.binary (c : Ctx) (op : VBin) (d a : Reg) (b : VSrc) : Lanes :=
  let old := c.v d.val
  let va := c.v a.val
  let sel := match op with | .vsel p => c.p p.val | _ => 0
  let vb : Nat → W32 := match b with
    | .v r => lane (c.v r.val)
    | .x r => fun _ => (c.x r.val).setWidth 32
    | .lit w => fun _ => w
  lanesOf (binLanes op sel (lane old) (lane va) vb)

/-- A binary vector form: guard-on lanes of vd are written; a scatter leaves the lanes it names no source for (R78, R91). -/
def doBin (op : VBin) (d a : Reg) (b : VSrc) (m : Word) (s : State) : Res :=
  .done s [.toV d.val m ((s.ctx s.cur).binary op d a b)]

/-- A unary vector form, lane by lane. -/
def doMap (d a : Reg) (f : W32 → W32) (m : Word) (s : State) : Res :=
  let va := (s.ctx s.cur).v a.val
  .done s [.toV d.val m (lanesOf fun i => f (lane va i))]

/-- A unary VL form, lane by lane (R44). -/
def doMap1 (d : Reg) (x : VSrc1) (la : La) (f : W32 → W32) (m : Word) (s : State) : Res :=
  let c := s.ctx s.cur
  .done s [.toV d.val m (lanesOf fun i => f (x.lane c i)) la.val]

/-- `vbcast` (R90). -/
def doBcast (d : Reg) (x : FSrc) (m : Word) (s : State) : Res :=
  let v := x.val (s.ctx s.cur)
  .done s [.toV d.val m (lanesOf fun _ => v)]

/-! ### Predicates -/

/-- A predicate's new value: guard-on bits are written, the others kept (R78). -/
def predMerge (m old new : Word) : Word := (old &&& ~~~m) ||| (new &&& m)

/-- A form whose destination is a predicate (R78). -/
def doPred (p : PReg) (f : Ctx → Word) (m : Word) (s : State) : Res :=
  let c := s.ctx s.cur
  .done s [.toP p.val (predMerge m (c.p p.val) (f c))]

/-- `vcmp` relations (R89). -/
def ICond.holds (k : ICond) (a b : W32) : Bool :=
  match k with
  | .eq => a == b
  | .ne => a != b
  | .lt => decide (a.toInt < b.toInt)
  | .ge => decide (b.toInt ≤ a.toInt)
  | .ltn => decide (a.toNat < b.toNat)
  | .gen => decide (b.toNat ≤ a.toNat)

/-- `vfcmp` relations (R89). -/
def FCond.holds (k : FCond) (a b : W32) : Bool :=
  match k with
  | .eq => fEq a b
  | .ne => !fEq a b
  | .lt => fLt a b
  | .le => fLe a b
  | .uo => fUo a b

/-- A comparison of the lanes of va and b (R89). -/
def doCmp (f : W32 → W32 → Bool) (p : PReg) (a : Reg) (b : VSrc) (m : Word) (s : State) : Res :=
  doPred p (fun c => let va := c.v a.val; maskOf fun i => f (lane va i) (b.lane c i)) m s

/-- `pset` (R97). -/
def doPset (p : PReg) (a : Reg) (m : Word) (s : State) : Res := doPred p (fun c => c.x a.val) m s

/-- `plog` operations (R97). -/
def plogOf (op : PLog) (a b : Word) : Word :=
  match op with
  | .and => a &&& b
  | .or => a ||| b
  | .xor => a ^^^ b
  | .andn => a &&& ~~~b
  | .not => ~~~a

/-- `plog` (R97). -/
def doPlog (op : PLog) (p a b : PReg) (m : Word) (s : State) : Res :=
  doPred p (fun c => plogOf op (c.p a.val) (c.p b.val)) m s

/-- `pcnt` (R98). -/
def doPcnt (d : Reg) (a : PReg) (m : Word) (s : State) : Res :=
  .done s [.toX d.val (BitVec.ofNat 64 (ones ((s.ctx s.cur).p a.val &&& m) 64))]

/-- `pfirst` (R98). -/
def doPfirst (d : Reg) (a : PReg) (m : Word) (s : State) : Res :=
  .done s [.toX d.val (BitVec.ofNat 64 (trailing0 ((s.ctx s.cur).p a.val &&& m) 64 0))]

/-! ### Reductions and scans -/

/-- One application of a reduction's operation to two lanes (R94). -/
def redLane (op : RedOp) (a b : W32) : W32 :=
  match op with
  | .add => a + b
  | .fadd => fAdd .rne a b
  | .min => minLane false false a b
  | .max => minLane true false a b
  | .minn => minLane false true a b
  | .maxn => minLane true true a b
  | .fmin => fPick false a b
  | .fmax => fPick true a b
  | .and => a &&& b
  | .or => a ||| b
  | .xor => a ^^^ b

/-- The identity of a reduction (R94). -/
def redId : RedOp → W32
  | .add | .maxn | .or | .xor => 0
  | .fadd => 0x80000000
  | .min => 0x7FFFFFFF
  | .max => 0x80000000
  | .minn | .and => 0xFFFFFFFF
  | .fmin | .fmax => quietNaN

/-- One level of the pairwise tree (R95). -/
def redLevel {α : Type} (f : α → α → α) : List α → List α
  | a :: b :: l => f a b :: redLevel f l
  | l => l

/-- The six levels of the tree over 64 lanes (R95). -/
def redTree {α : Type} (f : α → α → α) (l : List α) : List α :=
  redLevel f (redLevel f (redLevel f (redLevel f (redLevel f (redLevel f l)))))

/-- Lanes that enter a reduction: a guard-off lane is the identity (R94). -/
def redIn (op : RedOp) (m : Word) (v : Lanes) : Lanes :=
  lanesOf fun i => if m.getLsbD i then lane v i else redId op

/-- `vred`'s result: exact 64-bit sums, sign- or zero-extended lanes otherwise (R94, R95). -/
def redResult (op : RedOp) (l : Lanes) : Word :=
  match op with
  | .add => (redTree (fun a b => a + b) (l.map fun x => x.signExtend 64)).headD 0
  | .min | .max => ((redTree (redLane op) l).headD 0).signExtend 64
  | _ => ((redTree (redLane op) l).headD 0).setWidth 64

/-- `vred` (R94, R95). -/
def doRed (op : RedOp) (d a : Reg) (m : Word) (s : State) : Res :=
  .done s [.toX d.val (redResult op (redIn op m ((s.ctx s.cur).v a.val)))]

/-- One doubling step of a scan (R96). -/
def scanStep (op : RedOp) (t : Lanes) (k : Nat) : Lanes :=
  t.take (2 ^ k) ++ List.zipWith (redLane op) t (t.drop (2 ^ k))

/-- `vscan` (R96). -/
def doScan (op : RedOp) (d a : Reg) (m : Word) (s : State) : Res :=
  .done s [.toV d.val m ((List.range 6).foldl (scanStep op) (redIn op m ((s.ctx s.cur).v a.val)))]

/-! ### The instructions -/

/-- `vadd` (R83). -/
def execVadd (m : SatMode) (d a : Reg) (b : VSrc) (g : PReg) (s : State) : Host.Outcome State Fault Refusal :=
  issueV (.vadd m d a b g) s (doBin (.vadd m) d a b)

/-- `vsub` (R83). -/
def execVsub (m : SatMode) (d a : Reg) (b : VSrc) (g : PReg) (s : State) : Host.Outcome State Fault Refusal :=
  issueV (.vsub m d a b g) s (doBin (.vsub m) d a b)

/-- `vmul` (R83). -/
def execVmul (d a : Reg) (b : VSrc) (g : PReg) (s : State) : Host.Outcome State Fault Refusal :=
  issueV (.vmul d a b g) s (doBin .vmul d a b)

/-- `vmulh` (R83). -/
def execVmulh (unsigned : Bool) (d a : Reg) (b : VSrc) (g : PReg) (s : State) : Host.Outcome State Fault Refusal :=
  issueV (.vmulh unsigned d a b g) s (doBin (.vmulh unsigned) d a b)

/-- `vmac` (R83). -/
def execVmac (d a : Reg) (b : VSrc) (g : PReg) (s : State) : Host.Outcome State Fault Refusal :=
  issueV (.vmac d a b g) s (doBin .vmac d a b)

/-- `vand` (R83). -/
def execVand (d a : Reg) (b : VSrc) (g : PReg) (s : State) : Host.Outcome State Fault Refusal :=
  issueV (.vand d a b g) s (doBin .vand d a b)

/-- `vor` (R83). -/
def execVor (d a : Reg) (b : VSrc) (g : PReg) (s : State) : Host.Outcome State Fault Refusal :=
  issueV (.vor d a b g) s (doBin .vor d a b)

/-- `vxor` (R83). -/
def execVxor (d a : Reg) (b : VSrc) (g : PReg) (s : State) : Host.Outcome State Fault Refusal :=
  issueV (.vxor d a b g) s (doBin .vxor d a b)

/-- `vsll` (R83). -/
def execVsll (d a : Reg) (b : VSrc) (g : PReg) (s : State) : Host.Outcome State Fault Refusal :=
  issueV (.vsll d a b g) s (doBin .vsll d a b)

/-- `vsrl` (R83). -/
def execVsrl (d a : Reg) (b : VSrc) (g : PReg) (s : State) : Host.Outcome State Fault Refusal :=
  issueV (.vsrl d a b g) s (doBin .vsrl d a b)

/-- `vsra` (R83). -/
def execVsra (d a : Reg) (b : VSrc) (g : PReg) (s : State) : Host.Outcome State Fault Refusal :=
  issueV (.vsra d a b g) s (doBin .vsra d a b)

/-- `vmin` (R83). -/
def execVmin (d a : Reg) (b : VSrc) (g : PReg) (s : State) : Host.Outcome State Fault Refusal :=
  issueV (.vmin d a b g) s (doBin .vmin d a b)

/-- `vmax` (R83). -/
def execVmax (d a : Reg) (b : VSrc) (g : PReg) (s : State) : Host.Outcome State Fault Refusal :=
  issueV (.vmax d a b g) s (doBin .vmax d a b)

/-- `vminn` (R83). -/
def execVminn (d a : Reg) (b : VSrc) (g : PReg) (s : State) : Host.Outcome State Fault Refusal :=
  issueV (.vminn d a b g) s (doBin .vminn d a b)

/-- `vmaxn` (R83). -/
def execVmaxn (d a : Reg) (b : VSrc) (g : PReg) (s : State) : Host.Outcome State Fault Refusal :=
  issueV (.vmaxn d a b g) s (doBin .vmaxn d a b)

/-- `vfadd` (R86). -/
def execVfadd (r : Rm) (d a : Reg) (b : VSrc) (g : PReg) (s : State) : Host.Outcome State Fault Refusal :=
  issueV (.vfadd r d a b g) s (doBin (.vfadd r) d a b)

/-- `vfsub` (R86). -/
def execVfsub (r : Rm) (d a : Reg) (b : VSrc) (g : PReg) (s : State) : Host.Outcome State Fault Refusal :=
  issueV (.vfsub r d a b g) s (doBin (.vfsub r) d a b)

/-- `vfmul` (R86). -/
def execVfmul (r : Rm) (d a : Reg) (b : VSrc) (g : PReg) (s : State) : Host.Outcome State Fault Refusal :=
  issueV (.vfmul r d a b g) s (doBin (.vfmul r) d a b)

/-- `vfma` (R86). -/
def execVfma (r : Rm) (d a : Reg) (b : VSrc) (g : PReg) (s : State) : Host.Outcome State Fault Refusal :=
  issueV (.vfma r d a b g) s (doBin (.vfma r) d a b)

/-- `vfmin` (R86). -/
def execVfmin (d a : Reg) (b : VSrc) (g : PReg) (s : State) : Host.Outcome State Fault Refusal :=
  issueV (.vfmin d a b g) s (doBin .vfmin d a b)

/-- `vfmax` (R86). -/
def execVfmax (d a : Reg) (b : VSrc) (g : PReg) (s : State) : Host.Outcome State Fault Refusal :=
  issueV (.vfmax d a b g) s (doBin .vfmax d a b)

/-- `vfsgn` (R86). -/
def execVfsgn (o : SgnOp) (d a : Reg) (b : VSrc) (g : PReg) (s : State) : Host.Outcome State Fault Refusal :=
  issueV (.vfsgn o d a b g) s (doBin (.vfsgn o) d a b)

/-- `vfdiv` (R86). -/
def execVfdiv (r : Rm) (d a : Reg) (b : VSrc) (g : PReg) (s : State) : Host.Outcome State Fault Refusal :=
  issueV (.vfdiv r d a b g) s (doBin (.vfdiv r) d a b)

/-- `vsel` (R90). -/
def execVsel (p : PReg) (d a : Reg) (b : VSrc) (g : PReg) (s : State) : Host.Outcome State Fault Refusal :=
  issueV (.vsel p d a b g) s (doBin (.vsel p) d a b)

/-- `vperm` (R91). -/
def execVperm (scatter : Bool) (d a : Reg) (b : VSrc) (g : PReg) (s : State) : Host.Outcome State Fault Refusal :=
  issueV (.vperm scatter d a b g) s (doBin (.vperm scatter) d a b)

/-- `vslide` (R92). -/
def execVslide (down : Bool) (d a : Reg) (b : VSrc) (g : PReg) (s : State) : Host.Outcome State Fault Refusal :=
  issueV (.vslide down d a b g) s (doBin (.vslide down) d a b)

/-- `vzip` (R93). -/
def execVzip (d a : Reg) (b : VSrc) (g : PReg) (s : State) : Host.Outcome State Fault Refusal :=
  issueV (.vzip d a b g) s (doBin .vzip d a b)

/-- `vunzip` (R93). -/
def execVunzip (d a : Reg) (b : VSrc) (g : PReg) (s : State) : Host.Outcome State Fault Refusal :=
  issueV (.vunzip d a b g) s (doBin .vunzip d a b)

/-- `vabs` (R84). -/
def execVabs (d a : Reg) (g : PReg) (s : State) : Host.Outcome State Fault Refusal :=
  issueV (.vabs d a g) s (doMap d a absLane)

/-- `vsqrt` (R87). -/
def execVsqrt (d : Reg) (x : VSrc1) (la : La) (g : PReg) (s : State) : Host.Outcome State Fault Refusal :=
  issueV (.vsqrt d x la g) s (doMap1 d x la fSqrt)

/-- `vclass` (R88). -/
def execVclass (d a : Reg) (g : PReg) (s : State) : Host.Outcome State Fault Refusal :=
  issueV (.vclass d a g) s (doMap d a fClass)

/-- `vcmp` (R89). -/
def execVcmp (c : ICond) (p : PReg) (a : Reg) (b : VSrc) (g : PReg) (s : State) : Host.Outcome State Fault Refusal :=
  issueV (.vcmp c p a b g) s (doCmp (ICond.holds c) p a b)

/-- `vfcmp` (R89). -/
def execVfcmp (c : FCond) (p : PReg) (a : Reg) (b : VSrc) (g : PReg) (s : State) : Host.Outcome State Fault Refusal :=
  issueV (.vfcmp c p a b g) s (doCmp (FCond.holds c) p a b)

/-- `vmov` (R90). -/
def execVmov (d a : Reg) (g : PReg) (s : State) : Host.Outcome State Fault Refusal :=
  issueV (.vmov d a g) s (doMap d a id)

/-- `vbcast` (R90). -/
def execVbcast (d : Reg) (x : FSrc) (g : PReg) (s : State) : Host.Outcome State Fault Refusal :=
  issueV (.vbcast d x g) s (doBcast d x)

/-- `vred` (R94, R95). -/
def execVred (op : RedOp) (d a : Reg) (g : PReg) (s : State) : Host.Outcome State Fault Refusal :=
  issueV (.vred op d a g) s (doRed op d a)

/-- `vscan` (R94, R96). -/
def execVscan (op : RedOp) (d a : Reg) (g : PReg) (s : State) : Host.Outcome State Fault Refusal :=
  issueV (.vscan op d a g) s (doScan op d a)

/-- `pset` (R97). -/
def execPset (p : PReg) (a : Reg) (g : PReg) (s : State) : Host.Outcome State Fault Refusal :=
  issueV (.pset p a g) s (doPset p a)

/-- `plog` (R97). -/
def execPlog (op : PLog) (p a b : PReg) (g : PReg) (s : State) : Host.Outcome State Fault Refusal :=
  issueV (.plog op p a b g) s (doPlog op p a b)

/-- `pcnt` (R98). -/
def execPcnt (d : Reg) (a : PReg) (g : PReg) (s : State) : Host.Outcome State Fault Refusal :=
  issueV (.pcnt d a g) s (doPcnt d a)

/-- `pfirst` (R98). -/
def execPfirst (d : Reg) (a : PReg) (g : PReg) (s : State) : Host.Outcome State Fault Refusal :=
  issueV (.pfirst d a g) s (doPfirst d a)

end Sys2Proof.Machine
end

