-- ==== Sys2Proof/Machine/VecMem.lean ====
section
/-! DEFINITION. Vector loads and stores: lane addresses, the checks of R199, the windows of R108, and strip records
(R109). -/

namespace Sys2Proof.Machine

open Sys2Proof

/-- Bytes of a window's memory element (R197). -/
def winSize (win : Nat) : Nat := if win = 2 || win = 3 then 2 else 4

/-- The dx format of a window (R108). -/
def winDx (win : Nat) : Option Dx :=
  match win with
  | 4 => some .dx7
  | 5 => some .dx4
  | 6 => some .dx2
  | _ => none

/-- A lane value from its memory element (R108, R147). -/
def winDecode (win v : Nat) : W32 :=
  match win with
  | 2 => toF32 .rne (Fmt.b16.decode v)
  | 3 => toF32 .rne (Fmt.f16.decode v)
  | 7 => BitVec.ofNat 32 v &&& 0x03FF03FF
  | _ => BitVec.ofNat 32 v

/-- A memory element from a lane value (R108, R147). -/
def winEncode (win : Nat) (x : W32) : Nat :=
  match win with
  | 2 => Fmt.b16.encode .rne (f32 x)
  | 3 => Fmt.f16.encode .rne (f32 x)
  | 7 => (x &&& 0x03FF03FF).toNat
  | _ => x.toNat

/-- Address of lane i (R197). -/
def laneAddr (c : Ctx) (mode : VAddr) (a : Reg) (size i : Nat) : Word :=
  c.x a.val + match mode with
    | .unit => BitVec.ofNat 64 (size * i)
    | .stride b => BitVec.ofNat 64 i * c.x b.val
    | .index b => (lane (c.v b.val) i).signExtend 64

/-- Guard-on lanes with their addresses. -/
def laneAddrs (c : Ctx) (mode : VAddr) (a : Reg) (size : Nat) (m : Word) : List (Nat × Word) :=
  ((List.range 64).filter fun i => m.getLsbD i).map fun i => (i, laneAddr c mode a size i)

/-- The lowest address among those a test selects. -/
def lowest (p : Word → Bool) (ws : List Word) : Option Word :=
  (ws.filter p).foldl (fun l w => match l with | some x => if w.toNat < x.toNat then some w else some x | none => some w) none

/-- One missing address for each page of some addresses that is missing (R321). -/
def State.missedPages (s : State) (a : Agent) (acc : Access) (ws : List Word) : List Word :=
  (ws.filterMap fun w => match s.resolve a acc w with | .miss p => some p | _ => none).foldl
    (fun l p => if l.any fun q => pageOf q == pageOf p then l else l ++ [p]) []

/-- Locations of addresses, or what the lowest of them meets: a miss parks the context for every missing page (R199,
R321). -/
def State.locateAll (s : State) (a : Agent) (acc : Access) (ws : List Word) : Or (List Nat) :=
  let res := ws.map fun w => (w, s.resolve a acc w)
  if !(s.missedPages a acc ws).isEmpty then .error (.wait (s.parkMiss a acc (s.missedPages a acc ws)))
  else
    match lowest (fun w => match s.resolve a acc w with | .fault _ => true | _ => false) ws with
    | some w => match s.resolve a acc w with
      | .fault sub => .error (.trap (.at acc.cause sub w))
      | _ => .ok []
    | none => .ok (res.map fun r => match r.2 with | .ok loc => loc | _ => 0)

/-- First byte of the 4 MiB slice of an address. -/
def sliceBase (w : Word) : Word := w &&& ~~~(0x3FFFFF#64)

/-- THE CHECKS OF A VECTOR ACCESS (R199) over the addresses of its guard-on lanes, or over the bytes of a strip record:
`align` bytes of alignment, span, window, whether the form is contiguous, whether it may use the window. None reaches the plinth's
register block (R364). -/
def State.vecCheck (s : State) (a : Agent) (acc : Access) (ws : List Word) (align span win : Nat) (unit fits : Bool) :
    Or (List Nat) :=
  let low := (lowest (fun _ => true) ws).getD 0
  let twoSlices := if unit && inAperture low then lowest (fun w => inAperture w && sliceBase w != sliceBase low) ws else none
  match lowest (regsAddr a) ws with
  | some w => .error (.trap (.at 0x06 3 w))
  | none =>
  match lowest (fun w => w.toNat % align != 0) ws with
  | some w => .error (.trap (.at 0x01 0 w))
  | none =>
  match twoSlices with
  | some w => .error (.trap (.at 0x01 0 (sliceBase w)))
  | none =>
  match lowest (fun w => !fits || (if inAperture w then apWin w != win else span != 0 || win != 0)) ws with
  | some w => .error (.trap (.at 0x06 3 w))
  | none =>
  match lowest (fun w => inAperture w && a.program && decide (progEnd ≤ apOff w)) ws with
  | some w => .error (.trap (.at 0x06 5 w))
  | none =>
  match s.locateAll a acc ws with
  | .error r => .error r
  | .ok locs =>
    let bad (loc : Nat) : Bool := match homeOf loc with | .slice _ _ => (s.tagOf loc).toNat != span | _ => false
    match lowest (fun _ => true) (((ws.zip locs).filter fun e => bad e.2).map (·.1)) with
    | some w => .error (.trap (.at 0x06 2 w))
    | none => .ok locs

/-- Span of a layout word (R194). -/
def spanOf (lay : Option (BitVec 3)) : Nat := (lay.getD 0).toNat

/-- Records the pages of addresses as referenced. -/
def State.touchAll (s : State) (a : Agent) (ws : List Word) : State :=
  (ws.foldl (fun l w => if l.contains (pageOf w) then l else l ++ [pageOf w]) []).foldl (fun s p => s.touchTlb a p) s

/-- The lowest address among those whose locations a test selects. -/
def lowestAt (p : Nat → Bool) (es : List (Word × Nat)) : Option (Word × Nat) :=
  (es.filter fun e => p e.2).foldl
    (fun l e => match l with | some x => if e.1.toNat < x.1.toNat then some e else some x | none => some e) none

/-- The lowest address whose bytes an uncorrectable error affects. -/
def State.poisonAt (s : State) (es : List (Word × Nat)) (size : Nat) : Option (Word × Nat) :=
  lowestAt (fun l => s.poisoned l size) es

/-- The lowest address at which an agent's access meets an uncorrectable error (R191). -/
def State.errorIn (s : State) (a : Agent) (es : List (Word × Nat)) (size : Nat) : Option (Word × Nat) :=
  lowestAt (fun l => s.meetsError a l size) es

/-- A vector load (R197, R198); through a dx window, of one strip record (R109). -/
def doLoad (mode : VAddr) (d a : Reg) (lay : Option (BitVec 3)) (la : La) (m : Word) (s : State) : Res :=
  let c := s.ctx s.cur
  let base := c.x a.val
  let win := winOf base
  match winDx win with
  | some f =>
    let n := dxBytes f
    let fits := match mode with | .unit => true | _ => false
    let ws := if fits then (List.range (n / 8)).map fun i => base + BitVec.ofNat 64 (8 * i)
              else (laneAddrs c mode a 8 m).map (·.2)
    (s.vecCheck s.cur .read ws 8 (spanOf lay) win fits fits).then fun locs =>
      match s.errorIn s.cur (ws.zip locs) 8 with
      | some e => .trap (errorAt e.2 e.1)
      | none =>
        let loc := locs.headD 0
        if s.updatePending s.cur loc n || s.farWaits s.cur loc || locs.any s.areaShut then .wait (s.stall s.cur) else
        let rec1 := s.loadNat s.cur loc n
        .done (s.noteRead s.cur loc n) [.toV d.val m (lanesOf (dxDecode f rec1)) la.val]
  | none =>
    let size := winSize win
    let es := laneAddrs c mode a size m
    let ws := es.map (·.2)
    let unit := match mode with | .unit => true | _ => false
    (s.vecCheck s.cur .read ws size (spanOf lay) win unit true).then fun locs =>
      match s.errorIn s.cur (ws.zip locs) size with
      | some e => .trap (errorAt e.2 e.1)
      | none =>
        if locs.any fun loc => s.updatePending s.cur loc size || s.farWaits s.cur loc || s.areaShut loc then .wait (s.stall s.cur) else
        let vals := (es.zip locs).map fun e => (e.1.1, winDecode win (s.loadNat s.cur e.2 size))
        let s := (locs.foldl (fun s loc => s.noteRead s.cur loc size) s).touchAll s.cur ws
        .done s [.toV d.val m (lanesOf fun i => Map.get 0 vals i) la.val]

/-- Adds a lane's bytes to the writes of a store: to the last of them where the bytes follow it, or precede it, in its line. The
elements stay single writes, in the order of the lanes (R198, R219). -/
def joinWrite (ws : List Write) (w : Write) : List Write :=
  match ws.reverse with
  | p :: rest =>
    let down := decide (2 ^ 16 ≤ p.elem)
    let one := p.data.length == p.elem % 2 ^ 16
    if lineOf p.loc != lineOf w.loc then ws ++ [w]
    else if p.loc + p.data.length = w.loc && !down then
      (({ p with data := p.data ++ w.data } : Write) :: rest).reverse
    else if w.loc + w.data.length = p.loc && (down || one) then
      ((⟨w.loc, w.data ++ p.data, p.win, w.elem % 2 ^ 16 + 2 ^ 16⟩ : Write) :: rest).reverse
    else ws ++ [w]
  | [] => [w]

/-- The writes of n bytes at a location, line by line. -/
def lineWrites (loc : Nat) (data : List Byte) (win : Nat) : List Write :=
  data.zipIdx.foldl (fun ws b => joinWrite ws ⟨loc + b.2, [b.1], win, 0⟩) []

/-- Whether some bytes that a store replaces are part of a bank word that holds an uncorrectable error, and no write of the store, and
none of its context's own earlier ones, replaces the whole word (R191). -/
def State.partPoison (s : State) (ws : List Write) (loc n : Nat) : Bool :=
  (match homeOf loc with | .slice _ _ => true | _ => false) &&
    s.poison.any fun p => decide (p * 8 < loc + n) && decide (loc < p * 8 + 8) && s.marked (p * 8) && !ws.any (·.replaces p)

/-- A vector store (R197, R198): lanes are written in ascending order; through a dx window one strip record of all 64
lanes is (R109). -/
def doStore (mode : VAddr) (d a : Reg) (lay : Option (BitVec 3)) (m : Word) (s : State) : Res :=
  let c := s.ctx s.cur
  let base := c.x a.val
  let data := c.v d.val
  let win := winOf base
  match winDx win with
  | some f =>
    let n := dxBytes f
    let fits := match mode with | .unit => true | _ => false
    let ws := if fits then (List.range (n / 8)).map fun i => base + BitVec.ofNat 64 (8 * i)
              else (laneAddrs c mode a 8 m).map (·.2)
    (s.vecCheck s.cur .write ws 8 (spanOf lay) win fits fits).then fun locs =>
      let writes := lineWrites (locs.headD 0) (natBytes n (dxEncode f (lane data))) win
      if locs.any s.areaShut then .wait (s.stall s.cur)
      else match writes.findSome? s.areaDenied with
      | some t => .trap t
      | none => .done (writes.foldl (fun s w => s.store s.cur w) s) []
  | none =>
    let size := winSize win
    let es := laneAddrs c mode a size m
    let ws := es.map (·.2)
    let unit := match mode with | .unit => true | _ => false
    (s.vecCheck s.cur .write ws size (spanOf lay) win unit true).then fun locs =>
      let writes := ((es.zip locs).map fun e => (⟨e.2, natBytes size (winEncode win (lane data e.1.1)), win, size⟩ : Write)).foldl
        joinWrite []
      match lowestAt (fun l => s.partPoison (writes ++ s.heldStores s.cur) l size) (ws.zip locs) with
      | some e => .trap (errorAt e.2 e.1)
      | none =>
        if locs.any s.areaShut then .wait (s.stall s.cur)
        else match writes.findSome? s.areaDenied with
        | some t => .trap t
        | none => .done (writes.foldl (fun s w => s.store s.cur w) (s.touchAll s.cur ws)) []

/-- `vld` (R197). -/
def execVld (d a : Reg) (lay : Option (BitVec 3)) (la : La) (g : PReg) (s : State) : Host.Outcome State Fault Refusal :=
  issueV (.vld d a lay la g) s (doLoad .unit d a lay la)

/-- `vlds` (R197). -/
def execVlds (d a b : Reg) (lay : Option (BitVec 3)) (la : La) (g : PReg) (s : State) :
    Host.Outcome State Fault Refusal :=
  issueV (.vlds d a b lay la g) s (doLoad (.stride b) d a lay la)

/-- `vldx` (R197). -/
def execVldx (d a b : Reg) (lay : Option (BitVec 3)) (la : La) (g : PReg) (s : State) :
    Host.Outcome State Fault Refusal :=
  issueV (.vldx d a b lay la g) s (doLoad (.index b) d a lay la)

/-- `vst` (R197). -/
def execVst (d a : Reg) (lay : Option (BitVec 3)) (g : PReg) (s : State) : Host.Outcome State Fault Refusal :=
  issueV (.vst d a lay g) s (doStore .unit d a lay)

/-- `vsts` (R197). -/
def execVsts (d a b : Reg) (lay : Option (BitVec 3)) (g : PReg) (s : State) : Host.Outcome State Fault Refusal :=
  issueV (.vsts d a b lay g) s (doStore (.stride b) d a lay)

/-- `vstx` (R197). -/
def execVstx (d a b : Reg) (lay : Option (BitVec 3)) (g : PReg) (s : State) : Host.Outcome State Fault Refusal :=
  issueV (.vstx d a b lay g) s (doStore (.index b) d a lay)

end Sys2Proof.Machine
end

