-- ==== Sys2Proof/Machine/Atomic.lean ====
section
/-! DEFINITION. Atomics and fixed-point cells (R201 to R205). A far one that completes late travels as a request and is
performed at its home by FAR_ACCESS_AT_HOME (R219; log entry 11). -/

namespace Sys2Proof

/-- Bytes of an atomic's type (R45). -/
def AmoTy.size : AmoTy → Nat
  | .i32 | .n32 => 4
  | .i64 | .n64 => 8

/-- Whether xd receives the old value sign-extended (R201). -/
def AmoTy.signed : AmoTy → Bool
  | .i32 | .i64 => true
  | _ => false

namespace Machine

/-- The signed value of an e-byte number. -/
def signedOf (e m : Nat) : Int := if 2 ^ (8 * e - 1) ≤ m then (m : Int) - (2 ^ (8 * e) : Nat) else m

/-- The new value of an atomic from the old one and the operand, both of e bytes (R201). -/
def amoNew (op : AmoOp) (e m v : Nat) : Nat :=
  match op with
  | .add => (m + v) % 2 ^ (8 * e)
  | .and => m &&& v
  | .or => m ||| v
  | .xor => m ^^^ v
  | .min => if signedOf e m < signedOf e v then m else v
  | .max => if signedOf e m < signedOf e v then v else m
  | .minn => min m v
  | .maxn => max m v
  | .swap => v

/-- THE CHECKS of an atomic, a cell update or a cell read (R201, R204): those of a store through window 0, read permission,
and on the plinth no register-block word. An update that a peer's port refuses is not one that the page forbids (R393). -/
def State.locateRmw (s : State) (a : Agent) (e : Word) (size : Nat) : Or Nat :=
  match s.locate a .write 0 e size with
  | .error r => .error r
  | .ok loc =>
    match homeOf loc, s.resolve a .read e with
    | .regs _, _ => .error (.trap (.at 0x06 3 e))
    | _, .fault sub => if s.barred a .read e then .ok loc else .error (.trap (.at 0x04 sub e))
    | _, _ => .ok loc

/-- Requests of a context that touch some lines. -/
def Req.onLine (a : Agent) (ls : List Nat) (r : Req) : Bool :=
  r.src == a && match r.op with
    | .store w => (linesOf w.loc w.data.length).any ls.contains
    | .amo _ _ l _ _ _ _ | .cell l _ => ls.contains (lineOf l)
    | _ => false

/-- What an atomic writes at its home, where it writes (R201). -/
def State.amoWrite (s : State) (op : Option AmoOp) (t : AmoTy) (loc win : Nat) (cmp new : Word) : Option Write :=
  let e := t.size
  let m := bytesNat (s.homeBytes loc e)
  match op with
  | some o => some ⟨loc, natBytes e (amoNew o e m (new.toNat % 2 ^ (8 * e))), win, 0⟩
  | none => if m = cmp.toNat % 2 ^ (8 * e) then some ⟨loc, natBytes e (new.toNat % 2 ^ (8 * e)), win, 0⟩ else none

/-- What an atomic leaves at its home: the old value, and the new bytes where it writes (R201). -/
def State.amoFrom (s : State) (f : From) (op : Option AmoOp) (t : AmoTy) (loc win : Nat) (cmp new : Word) : Nat × State :=
  (bytesNat (s.homeBytes loc t.size), match s.amoWrite op t loc win cmp new with | some w => s.land w f [] | none => s.ask f.core loc t.size)

/-- An atomic of an agent at its home: kind 01 in the trace (R201, R220). -/
def State.amoAtHome (s : State) (a : Agent) (op : Option AmoOp) (t : AmoTy) (loc win : Nat) (cmp new : Word) : Nat × State :=
  s.amoFrom (s.fromAgent 1 a) op t loc win cmp new

/-- Round to the cell's grid: a := x × 2^66 to the nearest integer (R204). -/
def cellAddend (x : FVal) : Int :=
  match x with
  | .fin neg m e => signed neg (roundUnit .rne neg m e (-66))
  | _ => 0

/-- The cell's 32-byte number after one addend (R203, R204). -/
def cellAdd (cell : Nat) (f : W32) : Nat :=
  let v : Nat := cell % 2 ^ 128
  let rest := cell / 2 ^ 128
  let set (b : Nat) := v + 2 ^ 128 * (rest ||| 2 ^ b)
  match f32 f with
  | .nan => set 1
  | .inf neg => if neg then set 3 else set 2
  | x =>
    let a := cellAddend x
    let t := signedOf 16 v + a
    let out (i : Int) : Bool := decide (i < -(2 ^ 127)) || decide (2 ^ 127 ≤ i)
    (t % 2 ^ 128).toNat + 2 ^ 128 * (if out a || out t then rest ||| 1 else rest)

/-- What one addend writes to the cell at a location (R204). -/
def State.cellWrite (s : State) (loc : Nat) (f : W32) : Write := ⟨loc, natBytes 32 (cellAdd (bytesNat (s.homeBytes loc 32)) f), 0, 0⟩

/-- One addend is applied to the cell at a location (R204); a `faddx` that a peer's port refuses is discarded (R393). -/
def State.cellAtHome (s : State) (a : Agent) (loc : Nat) (f : W32) : State :=
  if s.barredAt a loc then s.countDrop a else s.land (s.cellWrite loc f) (s.fromAgent 1 a) []

/-- What `cellrd` returns for a cell's number (R205). -/
def cellValue (cell : Nat) : Word :=
  let fl (b : Nat) : Bool := cell.testBit (128 + b)
  let f : W32 :=
    if fl 1 || (fl 2 && fl 3) then quietNaN
    else if fl 2 then 0x7F800000
    else if fl 3 then 0xFF800000
    else toF32 .rne (FVal.ofInt false (signedOf 16 (cell % 2 ^ 128)) (-66))
  BitVec.ofNat 64 (bit' (fl 3) 35 + bit' (fl 2) 34 + bit' (fl 1) 33 + bit' (fl 0) 32 + f.toNat)

/-- Whether an update at its home by an agent must wait, where it is performed as it issues: for the agent's own earlier accesses
of the lines, at a port that the commit token holds, before a gate, for a reply slot, or for the end of a stop of a context area's
course (R209, R214, R256, R340, R345). -/
def State.rmwWaits (s : State) (a : Agent) (loc n : Nat) : Bool :=
  s.requests.any (Req.onLine a (linesOf loc n)) || !(s.ctx a).unsent.isEmpty || s.tokenBlocks loc n [] || s.farWaits a loc ||
    s.areaShut loc

/-- Whether bytes lie in the reserved part of a slice, or of a pre-empted region's saved slice: the supervisor's updates there are
performed as they issue (R69, R174). -/
def State.reserved (s : State) (loc : Nat) : Bool :=
  match homeOf loc with
  | .slice _ off => decide (progEnd ≤ off)
  | .hbm a => (s.savedAt a).isSome
  | _ => false

/-- An atomic (R201, R202): performed at once where its home is near or its result completes at once, else sent to its home,
behind its context's stores that wait for a reply slot (R209, R219, R256). One that a peer's port refuses raises cause 0x05
(R393); a loop register in a context area may refuse the value (R69). -/
def doAmo (op : Option AmoOp) (t : AmoTy) (d a b : Reg) (s : State) : Res :=
  let c := s.ctx s.cur
  let e := c.x a.val
  (s.locateRmw s.cur e t.size).then fun loc =>
    if s.barred s.cur .write e then .trap (.at 0x05 1 e)
    else if s.meetsError s.cur loc t.size then .trap (errorAt loc e)
    else if s.late && !near s.cur loc && !s.reserved loc then
      if !c.unsent.isEmpty || !s.slotsFree s.cur 1 then .wait (s.stall s.cur)
      else .done { s.touchTlb s.cur e with
        fabric := s.fabric ++ [⟨s.cur, .amo op t loc (winOf e) (c.x d.val) (c.x b.val) d⟩] } [.toX d.val 0]
    else if s.rmwWaits s.cur loc t.size then .wait (s.stall s.cur)
    else match (s.amoWrite op t loc (winOf e) (c.x d.val) (c.x b.val)).bind s.areaDenied with
    | some x => .trap x
    | none =>
      let r := (s.touchTlb s.cur e).amoAtHome s.cur op t loc (winOf e) (c.x d.val) (c.x b.val)
      .done r.2 [.toX d.val (extend t.signed t.size r.1)]

/-- The addends of a `faddx` with the addresses of their cells (R204). -/
def faddxParts (c : Ctx) (a : Reg) (b : XV) (m : Word) : List (Word × W32) :=
  match b with
  | .x r => [(c.x a.val, (c.x r.val).setWidth 32)]
  | .v r => ((List.range 64).filter fun i => m.getLsbD i).map fun i =>
      (c.x a.val + BitVec.ofNat 64 (32 * i), lane (c.v r.val) i)

/-- The locations of a `faddx`'s cells, after its checks: 32-byte alignment of xa, one slice for the whole range (R204); cells
on pages that are missing park the context with one notice for each page (R321). -/
def State.faddxLocs (s : State) (a : Agent) (vec : Bool) (base : Word) (es : List Word) : Or (List Nat) :=
  if regsAddr a base then .error (.trap (.at 0x06 3 base))
  else if base.toNat % 32 ≠ 0 then .error (.trap (.at 0x01 0 base))
  else if vec && inAperture base && sliceSplit base then .error (.trap (.at 0x01 0 (sliceBase (base + 0x7FF))))
  else if !inAperture base && !(s.missedPages a .write es).isEmpty then .error (.wait (s.parkMiss a .write (s.missedPages a .write es)))
  else es.foldr (fun e r => match s.locateRmw a e 32, r with
    | .error x, _ => .error x
    | .ok _, .error x => .error x
    | .ok loc, .ok ls => .ok (loc :: ls)) (.ok [])
where
  sliceSplit (w : Word) : Bool := decide ((w.toNat % 0x400000) + 0x800 > 0x400000)

/-- `faddx` (R204). -/
def execFaddx (a : Reg) (b : XV) (g : PReg) (s : State) : Host.Outcome State Fault Refusal :=
  issue (.faddx a b g) s fun s =>
    let c := s.ctx s.cur
    let ps := faddxParts c a b (s.guardMask s.cur (.faddx a b g))
    let vec := match b with | .v _ => true | _ => false
    (s.faddxLocs s.cur vec (c.x a.val) (ps.map (·.1))).then fun locs =>
      let es := locs.zip (ps.map (·.2))
      match (ps.zip locs).find? fun e => s.meetsError s.cur e.2 32 with
      | some e => .trap (errorAt e.2 e.1.1)
      | none =>
        let far := es.filter fun e => s.late && !near s.cur e.1 && !s.reserved e.1
        let now := es.filter fun e => !(s.late && !near s.cur e.1 && !s.reserved e.1)
        if !s.slotsFree s.cur far.length || now.any (fun e => s.rmwWaits s.cur e.1 32) || !c.unsent.isEmpty then
          .wait (s.stall s.cur)
        else match now.findSome? fun e => s.areaDenied (s.cellWrite e.1 e.2) with
        | some x => .trap x
        | none =>
          let s := s.touchAll s.cur (ps.map (·.1))
          let s := { s with fabric := s.fabric ++ far.map fun e => ⟨s.cur, .cell e.1 e.2⟩ }
          .done (now.foldl (fun s e => s.cellAtHome s.cur e.1 e.2) s) []

/-- `cellrd`: performed as it issues; a cell in host memory closes the chunk before it (R205). -/
def execCellrd (d a : Reg) (la : La) (g : PReg) (s : State) : Host.Outcome State Fault Refusal :=
  issue (.cellrd d a la g) s fun s =>
    let e := (s.ctx s.cur).x a.val
    (s.locate s.cur .read 0 e 32).then fun loc =>
      let go (s : State) := (s.readAt s.cur e loc 32).then fun r => .done r.2 [.toX d.val (cellValue r.1) la.val]
      match homeOf loc with
      | .regs _ => .trap (.at 0x06 3 e)
      | .host _ => s.apart s.cur go
      | _ => go s

/-- `amo` (R201). -/
def execAmo (op : AmoOp) (t : AmoTy) (d a b : Reg) (g : PReg) (s : State) : Host.Outcome State Fault Refusal :=
  issue (.amo op t d a b g) s (doAmo (some op) t d a b)

/-- `cas` (R201). -/
def execCas (t : AmoTy) (d a b : Reg) (g : PReg) (s : State) : Host.Outcome State Fault Refusal :=
  issue (.cas t d a b g) s (doAmo none t d a b)

end Machine
end Sys2Proof
end

