-- ==== Sys2Proof/Machine/Queue.lean ====
section
/-! DEFINITION. Messages, inboxes and watches: `send`, `recv`, `peek`, `mon`, `mwait`, and the steps that carry requests and
replies (R219, R254 to R270). -/

namespace Sys2Proof.Machine

open Sys2Proof

/-- Whether an agent's course runs, and its region (R173, R339). -/
def State.moving (s : State) (a : Agent) : Bool :=
  match a with
  | .ctx c _ _ => !(s.course c).stopped && (match s.ownerRegion c with | some r => r.run == .running && !r.faulted | none => false)
  | .quoin c => !(s.course c).stopped
  | .plinth => false

/-! ### recv and peek -/

/-- The oldest entry of a core's sequence for a context (R258, R266). -/
def Core.oldest (k : Core) (tid : Nat) : Option Msg := (k.inbox ++ k.spill).find? fun m => m.ctx == tid

/-- Removes the first message for a context. -/
def dropFirst (tid : Nat) : List Msg → List Msg
  | [] => []
  | m :: ms => if m.ctx = tid then ms else m :: dropFirst tid ms

/-- A core's sequence after a `recv` of a context (R258). -/
def Core.dequeue (k : Core) (tid : Nat) : Core :=
  if k.inbox.any fun m => m.ctx == tid then { k with inbox := dropFirst tid k.inbox }
  else { k with spill := dropFirst tid k.spill }

/-- The message a quoin takes next: a miss notice, or the completion of its own copy (R322, R328; log entry 13). -/
def Course.quoinFront (k : Course) : Option (Word × Word) :=
  k.notices.findSome? fun n => match n with | .miss h p | .done h p => some (h, p) | _ => none

/-- Removes the oldest message of a quoin. -/
def dropQuoin : List Notice → List Notice
  | [] => []
  | .miss _ _ :: ns | .done _ _ :: ns => ns
  | n :: ns => n :: dropQuoin ns

/-- The header and payload an agent's `recv` would take. -/
def State.front (s : State) (a : Agent) : Option (Word × Word) :=
  match a with
  | .ctx c k t => ((s.core (coreId c k)).oldest t).map fun m => (m.header, m.payload)
  | .quoin c => (s.course c).quoinFront
  | .plinth => none

/-- The state after an agent's `recv` has taken its oldest entry. -/
def State.take (s : State) (a : Agent) : State :=
  match a with
  | .ctx c k t => s.modCore (coreId c k) fun x => x.dequeue t
  | .quoin c => s.modCourse c fun x => { x with notices := dropQuoin x.notices }
  | .plinth => s

/-- Header and payload as results; where both name one register, it holds the payload (R266). -/
def pairOf (d a : Reg) (h p : Word) : List Result :=
  if d = a then [.toX a.val p] else [.toX d.val h, .toX a.val p]

/-- `recv`: it parks until its context has an entry, then takes the oldest (R266). -/
def execRecv (d a : Reg) (g : PReg) (s : State) : Host.Outcome State Fault Refusal :=
  issue (.recv d a g) s fun s =>
    match s.front s.cur with
    | some (h, p) => .done (s.take s.cur) (pairOf d a h p)
    | none => .wait (s.park s.cur .recv)

/-- `peek` (R267). -/
def execPeek (d a : Reg) (g : PReg) (s : State) : Host.Outcome State Fault Refusal :=
  issue (.peek d a g) s fun s =>
    let m := (s.front s.cur).getD (0, 0)
    .done s (pairOf d a m.1 m.2)

/-! ### send -/

/-- The targets of a `send`, as `cid`s in ascending order; none where the operand names no core (R265). -/
def State.sendTargets (s : State) (a : Agent) (mc : Bool) (v : Word) : Option (List Nat) :=
  if mc then
    match a.course? with
    | some c => some (((List.range 8).filter v.getLsbD).map fun k => (s.site c).ocn.toNat * 8 + k)
    | none => some []
  else match s.regionOf a with
    | some r => if v.toNat < 8 * r.courses.length then some [v.toNat] else none
    | none => none

/-- Header of an agent's message: kind 1 from a core, a supervisor message from a quoin (R259, R265; log entry 13). -/
def State.sendHeader (s : State) (a : Agent) (tag : BitVec 16) : Word :=
  match a.core? with
  | some n => msgHeader (s.cidOf n) a.tid 1 tag.toNat
  | none => msgHeader 0x7FF 0 4 tag.toNat

/-- Whether a core that a region names stands in a rotation pause, into which no `send` is injected (R260). -/
def State.sendPaused (s : State) (r : Region) (cid : Nat) : Bool :=
  match r.coreOf cid with
  | some n => (s.ashlar (n / 256)).phase != .none
  | none => false

/-- `send` (R265): one at a time, after every earlier access is performed; a reply slot for each target. -/
def execSend (mc : Bool) (a b : Reg) (ctx : Fin 11) (tag : BitVec 16) (g : PReg) (s : State) :
    Host.Outcome State Fault Refusal :=
  issue (.send mc a b ctx tag g) s fun s =>
    let c := s.ctx s.cur
    match s.sendTargets s.cur mc (c.x a.val) with
    | none => .trap (.at 0x06 1 (c.x a.val))
    | some ts =>
      let paused := match s.regionOf s.cur with | some r => ts.any (s.sendPaused r) | none => false
      if ts.isEmpty then .done s []
      else if !s.noSend s.cur || !s.performed s.cur false || !s.slotsFree s.cur ts.length || paused then
        .wait (s.stall s.cur)
      else .done { s with fabric := s.fabric ++ ts.map fun t =>
        ⟨s.cur, .send t ctx.val (match s.cur.course? with | some n => s.ownerRid n | none => 0)
          (s.sendHeader s.cur tag) (c.x b.val)⟩ } []

/-- Removes the i-th element. -/
def dropAt {α : Type} (i : Nat) (l : List α) : List α := l.take i ++ l.drop (i + 1)

/-- Messages in the mortar buffers for a core. -/
def State.inMortar (s : State) (core : Nat) : Nat :=
  (s.mortar.filter fun m => m.core == core && match m.item with | .msg _ => true | _ => false).length

/-- A message that is appended to a pre-empted core's image (R175). -/
def State.pushImage (s : State) (rid : BitVec 16) (cid : Nat) (m : Msg) : State :=
  s.modRegion rid fun r => { r with saved := r.saved.map fun v =>
    { v with cores := Map.set v.cores cid ((Map.get Core.fresh v.cores cid).push m) } }

/-- A supervisor message (kind 4) that a region's core has accepted since the keystone is kept for a rollback (R259, R262). -/
def State.recordSup (s : State) (rid : BitVec 16) (cid : Nat) (m : Msg) : State :=
  if fld m.header 40 4 = 4 then s.modRegion rid fun r => { r with supSince := r.supSince ++ [(cid, m)] } else s

/-- The verdict on a `send` at its target, with its effect (R175, R176, R260, R262). -/
def State.sendVerdictOf (s : State) (rid : BitVec 16) (cid ctx : Nat) (header payload : Word) (op : ReqOp) :
    ReplyOp × State :=
  let m : Msg := ⟨ctx, header, payload⟩
  match s.region? rid with
  | none => (.dropped, s)
  | some r =>
    match r.saved with
    | some v =>
      let k := Map.get Core.fresh v.cores cid
      if k.places < 4160 then (.accepted, (s.pushImage rid cid m).recordSup rid cid m) else (.busy op, s)
    | none =>
      match r.coreOf cid with
      | none => (.dropped, s)
      | some n =>
        if (s.core n).places + s.inMortar n < 4160 then (.accepted, (s.push n m).recordSup rid cid m)
        else (.busy op, s)

/-- The core, by its number in a region, that a message request goes to (R246, R255, R265). -/
def ReqOp.port : ReqOp → Option (BitVec 16 × Nat)
  | .send t _ rid _ _ | .screed t _ rid _ => some (rid, t)
  | _ => none

/-- Home of a watch registration, and its capacity (R254): a slice port, an HBM stack, the host link, the plinth. -/
def filterOf (loc : Nat) : Nat × Nat :=
  match homeOf loc with
  | .slice core _ => (core, 256)
  | .hbm a => (0x1000 + a / 0x1400000000, 1024)
  | .plinth _ | .regs _ => (0x2000, 16)
  | .quoin c _ => (0x4000 + c, 16)
  | _ => (0x3000, 1024)

/-- The port at which the core of a region stands, by its number there; a number of its own where the region holds no such core. -/
def State.portOf (s : State) (rid : BitVec 16) (cid : Nat) : Nat :=
  ((s.region? rid).bind (·.coreOf cid)).getD (imageCore rid cid)

/-- The port to which a request goes (R255): that of its target core, or of its location's home. -/
def State.toPort (s : State) (op : ReqOp) : Nat :=
  match op with
  | .store w => (filterOf w.loc).1
  | .amo _ _ loc _ _ _ _ | .cell loc _ => (filterOf loc).1
  | .send t _ rid _ _ | .screed t _ rid _ => s.portOf rid t

/-- Whether an earlier request from the same port to the same port is still in flight, of which one of the two is a message: they are
delivered in the order of their injection (R255). Memory accesses among themselves keep the order of R219 alone (log entry 79). -/
def State.behindPort (s : State) (i : Nat) : Bool :=
  match s.fabric[i]? with
  | some r => (s.fabric.take i).any fun q => q.src.course? == r.src.course? && q.src.core? == r.src.core? &&
      (q.op.port.isSome || r.op.port.isSome) && s.toPort q.op == s.toPort r.op
  | none => false

/-- Whether an earlier reply from the same port to the same core is still in flight (R255). -/
def State.behindReply (s : State) (i : Nat) : Bool :=
  match s.replies[i]? with
  | some r => (s.replies.take i).any fun q => q.op.holds && q.port == r.port && q.dst.course? == r.dst.course? &&
      q.dst.core? == r.dst.core?
  | none => false

/-- Whether a core that a region names moves with its course: no message reaches it (R260, R341). A `send` injected before the pause is
taken or refused in it, before the move. -/
def State.targetGated (s : State) (rid : BitVec 16) (cid : Nat) : Bool :=
  match s.region? rid with
  | some r => (match r.coreOf cid with | some n => s.gated n | none => false)
  | none => false

/-- The i-th request in flight, a `send`, reaches its target, unless its target's course moves, and the verdict goes back (R260). -/
def State.deliverSend (s : State) (i : Nat) : State :=
  match s.fabric[i]? with
  | some ⟨a, .send cid ctx rid h p⟩ =>
    if s.targetGated rid cid then s
    else
      let v := { s with fabric := dropAt i s.fabric }.sendVerdictOf rid cid ctx h p (.send cid ctx rid h p)
      let t := match v.1 with | .dropped => v.2.countDrop a | _ => v.2
      { t with replies := t.replies ++ [⟨a, v.1, s.portOf rid cid⟩] }
  | _ => s

/-- SEND_DELIVERY: the i-th request reaches its target behind the earlier ones of its ports (R255, R260). -/
def execSendDelivery (i : Nat) (s : State) : Host.Outcome State Fault Refusal :=
  .next (if s.behindPort i then s else s.deliverSend i)

/-- The clock that a sender counts cycles by, in 80ths of a cycle. -/
def State.clock80 (s : State) (a : Agent) : Nat :=
  match a.core? with
  | some n => (s.core n).ltime80
  | none => s.devTime * 10

/-- A verdict that has come back to its sender: a busy one is resent after 64 cycles (R260). -/
def State.takeVerdict (s : State) (r : Reply) : State :=
  match r with
  | ⟨a, .accepted, _⟩ | ⟨a, .dropped, _⟩ => s.pumpCore a
  | ⟨a, .busy r, p⟩ => ({ s with replies := s.replies ++ [⟨a, .resend r (s.clock80 a + 64 * 80), p⟩] } : State).pumpCore a
  | _ => s

/-- Whether a reply is the verdict on a `send` (R260). -/
def ReplyOp.verdict : ReplyOp → Bool
  | .accepted | .dropped | .busy _ => true
  | _ => false

/-- A reply reaches its core: while the core's course moves it sinks into a mortar buffer, else it does what a test of the step
gives (R256, R341). -/
def State.sinkReply (s : State) (i : Nat) (r : Reply) (f : State → Reply → State) : State :=
  let t := { s with replies := dropAt i s.replies }
  match r.dst.core? with
  | some n => if s.gated n then { t with mortar := t.mortar ++ [⟨n, .reply r⟩] } else f t r
  | none => f t r

/-- SEND_VERDICT: a verdict sinks (R255, R260, R341). -/
def execSendVerdict (i : Nat) (s : State) : Host.Outcome State Fault Refusal :=
  .next <| match s.replies[i]? with
  | some r => if r.op.verdict && !s.behindReply i then s.sinkReply i r State.takeVerdict else s
  | none => s

/-- Whether a message request goes to a core in a rotation pause (R260). -/
def State.toPaused (s : State) (op : ReqOp) : Bool :=
  match op.port with
  | some (rid, cid) => match s.region? rid with | some r => s.sendPaused r cid | none => false
  | none => false

/-- SEND_RESEND: 64 cycles after the verdict, with a free reply slot, and not into a rotation pause (R256, R260). -/
def execSendResend (i : Nat) (s : State) : Host.Outcome State Fault Refusal :=
  .next <| match s.replies[i]? with
  | some ⟨a, .resend r t, _⟩ =>
    if t ≤ s.clock80 a && s.slotsFree a 1 && !s.toPaused r then { s with replies := dropAt i s.replies, fabric := s.fabric ++ [⟨a, r⟩] } else s
  | _ => s

/-- SPILL_REFILL: the oldest spilled entries move into the inbox while it has room (R258). -/
def execSpillRefill (core : Nat) (s : State) : Host.Outcome State Fault Refusal :=
  .next (if (s.core core).spill.isEmpty || decide (64 ≤ (s.core core).inbox.length) then s else s.modCore core Core.refill)

/-- A parked context is ready again: it issues its instruction anew (R289). -/
def State.unpark (s : State) (a : Agent) : State := s.modCtx a fun c => { c with park := none }

/-- RECV_WAKE (R266). -/
def execRecvWake (a : Agent) (s : State) : Host.Outcome State Fault Refusal :=
  .next <| match (s.ctx a).park with
  | some .recv => if (s.front a).isSome then s.unpark a else s
  | _ => s

/-! ### Far accesses and replies -/

/-- Whether an earlier request of the same context touches a line that the i-th one touches (R219). -/
def State.behind (s : State) (i : Nat) (a : Agent) (ls : List Nat) : Bool := (s.fabric.take i).any (Req.onLine a ls)

/-- A request arrives at a slice port at which it must wait, and waits there in order of arrival (R214). -/
def State.queueAt (s : State) (loc i : Nat) : State :=
  match homeOf loc, s.fabric[i]? with
  | .slice core _, some r =>
    ({ s with fabric := dropAt i s.fabric } : State).modCore core fun k => { k with port := k.port ++ [.req r] }
  | _, _ => s

/-- Performs a request at its home, and sends its reply (R201, R204, R213, R219). A store that a peer's port refuses is discarded
(R393). -/
def State.atHome (s : State) (r : Req) : State :=
  let a := r.src
  match r.op with
  | .store w =>
    let t := if s.barredAt a w.loc then s.countDrop a else s.land w (s.fromAgent 0 a) []
    { t with replies := t.replies ++ [⟨a, .ack w.loc, (filterOf w.loc).1⟩] }
  | .amo op t loc win cmp new d =>
    let v := s.amoAtHome a op t loc win cmp new
    { v.2 with replies := v.2.replies ++ [⟨a, .value d (extend t.signed t.size v.1), (filterOf loc).1⟩] }
  | .cell loc f => let t := s.cellAtHome a loc f; { t with replies := t.replies ++ [⟨a, .ack loc, (filterOf loc).1⟩] }
  | _ => s

/-- The location and size of an access in flight. -/
def ReqOp.target : ReqOp → Option (Nat × Nat)
  | .store w => some (w.loc, w.data.length)
  | .amo _ t loc _ _ _ _ => some (loc, t.size)
  | .cell loc _ => some (loc, 32)
  | _ => none

/-- What an arrival at a port would write. -/
def Arrival.target : Arrival → Nat × Nat
  | .req r => r.op.target.getD (0, 0)
  | .outside _ w => (w.loc, w.data.length)

/-- Lands the writes that wait at a slice port, in order of arrival, until one meets the chunk of a token's holder (R214). -/
def State.drainPort (s : State) (core : Nat) : Nat → State
  | 0 => s
  | n + 1 =>
    match (s.core core).port with
    | [] => s
    | x :: xs =>
      if s.tokenMeets x.target.1 x.target.2 [] then s
      else
        let s := s.modCore core fun k => { k with port := xs }
        State.drainPort (match x with | .req r => s.atHome r | .outside _ w => s.land w From.outside []) core n

/-- Lands what waits at the slice ports, where no token holds it back. -/
def State.drainPorts (s : State) : State :=
  s.cores.foldl (fun s e => s.drainPort e.1 e.2.port.length) s

/-- FAR_ACCESS_AT_HOME: the i-th request in flight arrives at its home and is performed there, or waits at its port behind the
commit token (R213, R214, R219). A closed ingress gate holds it in the fabric (R340), and so does the end of a stop that a supervisor's
access to a context area waits for (R345). -/
def execFarAccessAtHome (i : Nat) (s : State) : Host.Outcome State Fault Refusal :=
  .next <| match s.fabric[i]? with
  | some r => match r.op.target with
    | some (loc, n) =>
      if s.behind i r.src (linesOf loc n) || s.behindPort i || s.gateShut r.src loc || s.areaShut loc then s
      else if s.tokenBlocks loc n [] then s.queueAt loc i
      else { s with fabric := dropAt i s.fabric }.atHome r
    | none => s
  | none => s

/-- The result of an atomic that has not completed takes its value (R201). -/
def fillValue (d : Reg) (x : Word) : List Pending → List Pending
  | [] => []
  | p :: ps =>
    if p.kind = .x && p.reg = d.val && !p.done then { p with x := x, done := true } :: ps else p :: fillValue d x ps

/-- The value of an atomic reaches a context, and the registers a squash would return to (R201, R213). -/
def Ctx.fill (c : Ctx) (d : Reg) (x : Word) : Ctx :=
  let old (r : Arch) : Arch := { r with pend := fillValue d x r.pend }
  ({ c with arch := old c.arch, chunk := { c.chunk with start := c.chunk.start.map old } } : Ctx).settle

/-- The home has acknowledged the `mon` of a context, which completes (R268). -/
def State.watched (s : State) (a : Agent) : State :=
  match (s.ctx a).park with
  | some (.mon e d xa xb g) => s.completeParked a (.mon d xa xb g) [.toX d.val (BitVec.ofNat 64 e)]
  | _ => s

/-- A reply has come back to its context: the value of an atomic goes to its register, also for a squash of the open chunk, and
stores that wait for a reply slot leave (R256). -/
def State.takeReply (s : State) (r : Reply) : State :=
  match r with
  | ⟨a, .ack _, _⟩ => s.pumpCore a
  | ⟨a, .value d x, _⟩ => ((s.modCtx a fun c => c.fill d x).sink s a).pumpCore a
  | ⟨a, .watched, _⟩ => (s.watched a).pumpCore a
  | _ => s

/-- Whether a reply is an acknowledgement or a value (R256). -/
def ReplyOp.answer : ReplyOp → Bool
  | .ack _ | .value _ _ | .watched => true
  | _ => false

/-- REPLY_SINK: the i-th reply sinks (R255, R256, R341). -/
def execReplySink (i : Nat) (s : State) : Host.Outcome State Fault Refusal :=
  .next <| match s.replies[i]? with
  | some r => if r.op.answer && !s.behindReply i then s.sinkReply i r State.takeReply else s
  | none => s

/-! ### Watches -/

/-- Takes a registration into its home's filter, which holds a number of lines. A full filter ejects the line of its oldest
registration, whose entries are told (R254, R263, R264; log entry 67). The plinth's filter has one registration for each of its
entries, so it ejects none (R364). -/
def State.register (s : State) (loc : Nat) (r : Registration) : State :=
  let s := if r.core = plinthCore then
      { s with filters := s.filters.filter fun x => !(x.core == plinthCore && x.entry == r.entry) }
    else s
  let home := filterOf loc
  let same := s.filters.filter fun x => (filterOf (x.line * 64)).1 == home.1
  let lines := (same.map (·.line)).eraseDups
  let out (x : Registration) : Bool :=
    decide (home.2 ≤ lines.length) && !lines.contains r.line && lines.head? == some x.line
  (s.filters.filter out).foldl
    (fun s o => s.latchWhere o.core (fun e w => e == o.entry && w.line == o.line) (if o.hit then 0 else 4))
    { s with filters := s.filters.filter (fun x => !out x) ++ [r] }

/-- The watch table an agent arms: its core's, or the plinth's (R263, R364). -/
def watchCore : Agent → Option Nat
  | .ctx c k _ => some (coreId c k)
  | .plinth => some plinthCore
  | .quoin _ => none

/-- Region time at a core in nanoseconds; device time at the plinth (R268, R356). -/
def State.nowNs (s : State) (core : Nat) : Nat :=
  if core = plinthCore then s.devTime / 10
  else match s.ownerRegion (core / 8) with | some r => r.gtime10 / 10 | none => 0

/-- The lowest free entry of a watch table (R268). -/
def freeEntry (ws : List (Nat × Watch)) : Option Nat :=
  (List.range 16).find? fun e => !(ws.any fun w => w.1 == e)

/-- `mon`: the entry is armed and registered, and the context waits for the home's acknowledgement (R268, R289). -/
def execMon (d a b : Reg) (g : PReg) (s : State) : Host.Outcome State Fault Refusal :=
  issue (.mon d a b g) s fun s =>
    let c := s.ctx s.cur
    let e := c.x a.val
    match (match watchCore s.cur with | some n => (freeEntry (s.watchesOf n)).map fun k => (n, k) | none => none) with
    | none => .done s [.toX d.val (BitVec.ofNat 64 (2 ^ 64 - 1))]
    | some (n, k) =>
      if inAperture e && s.cur.program && decide (progEnd ≤ apOff e) then .trap (.at 0x06 5 e)
      else match s.resolve s.cur .read e with
        | .miss p => .wait (s.parkMiss s.cur .read [p])
        | .fault sub => .trap (.at 0x04 sub e)
        | .ok loc =>
          let w := fld (c.x b.val) 0 32
          let w : Watch := ⟨s.cur.tid, lineOf loc, pageOf e,
            if w = 0xFFFFFFFF then none else some (s.nowNs n + w), none⟩
          if !s.slotsFree s.cur 1 || s.gateShut s.cur loc then .wait (s.stall s.cur)
          else
            let s := (s.touchTlb s.cur e).setWatches n (Map.set (s.watchesOf n) k w)
            let s := s.register loc ⟨lineOf loc, n, k, false⟩
            .wait (({ s with replies := s.replies ++ [⟨s.cur, .watched, (filterOf loc).1⟩] } : State).park s.cur (.mon k d a b g))

/-- An entry of a watch table that an agent has armed (R269). -/
def State.armed (s : State) (a : Agent) (v : Word) : Option (Nat × Nat × Watch) :=
  match watchCore a with
  | some n =>
    match Map.find (s.watchesOf n) v.toNat with
    | some w => if w.owner = a.tid && decide (v.toNat ≤ 15) then some (n, v.toNat, w) else none
    | none => none
  | none => none

/-- Frees one watch entry (R263); its registration stays in the home's filter until a report or an ejection (R254). -/
def State.freeEntryAt (s : State) (n e : Nat) : State := s.setWatches n (Map.erase (s.watchesOf n) e)

/-- `mwait` (R269). -/
def execMwait (d a : Reg) (g : PReg) (s : State) : Host.Outcome State Fault Refusal :=
  issue (.mwait d a g) s fun s =>
    match s.armed s.cur ((s.ctx s.cur).x a.val) with
    | none => .done s [.toX d.val 5]
    | some (n, e, w) =>
      match w.latch with
      | some st => .done (s.freeEntryAt n e) [.toX d.val (BitVec.ofNat 64 st)]
      | none => .wait (s.park s.cur (.mwait e))

/-- WATCH_REPORT: the report of a write performed at the home reaches its entry, and the registration is drained (R254,
R263). -/
def execWatchReport (core entry : Nat) (s : State) : Host.Outcome State Fault Refusal :=
  .next <| match s.filters.find? fun r => r.core == core && r.entry == entry && r.hit with
  | some r => { s with filters := s.filters.erase r }.latchWhere core (fun e w => e == entry && w.line == r.line) 0
  | none => s

/-- WATCH_TIMEOUT: region time has reached an entry's deadline (R264). -/
def execWatchTimeout (core entry : Nat) (s : State) : Host.Outcome State Fault Refusal :=
  .next <| s.latchWhere core (fun e w => e == entry && match w.deadline with
    | some t => decide (t ≤ s.nowNs core)
    | none => false) 1

/-- MWAIT_WAKE (R269). -/
def execMwaitWake (a : Agent) (s : State) : Host.Outcome State Fault Refusal :=
  .next <| match (s.ctx a).park, watchCore a with
  | some (.mwait e), some n =>
    if (match Map.find (s.watchesOf n) e with | some w => w.latch.isSome | none => true) then s.unpark a else s
  | _, _ => s

/-- The region and the `cid` of a core that is named by its number on the device, or by the number that stands for a region's core,
which a pre-empted region's core has too (`imageCore`). -/
def State.regionCore (s : State) (core : Nat) : BitVec 16 × Nat := (imageOf? core).getD (s.ownerRid (core / 8), s.cidOf core)

/-- SUPERVISOR_MESSAGE: a kind 4 message to a core of a region: into the core's sequence, or into the image of a pre-empted region
(R175, R176, R259, R262); it waits while the core's course moves (R254, R341). -/
def execSupervisorMessage (core tid : Nat) (tag : BitVec 16) (payload : Word) (s : State) : Host.Outcome State Fault Refusal :=
  let h := msgHeader 0x7FF tid 4 tag.toNat
  let t := s.regionCore core
  .next (if s.targetGated t.1 t.2 then s else (s.sendVerdictOf t.1 t.2 tid h payload (.send t.2 tid t.1 h payload)).2)

end Sys2Proof.Machine
end

