-- ==== Sys2Proof/Machine/Barrier.lean ====
section
/-! DEFINITION. Scratch barriers (R284 to R288). -/

namespace Sys2Proof.Machine

open Sys2Proof

/-- A scratch barrier's fields (R284). -/
structure Bar where
  expected : Nat
  arrived : Nat
  pending : Int
  phase : Bool
  spare : Nat
  fault : Bool
  timeout : Nat
  epoch : Nat
  deriving DecidableEq, Repr

/-- The fields of a barrier's 16 bytes. -/
def Bar.ofNat (b : Nat) : Bar :=
  let p : Nat := b / 2 ^ 32 % 2 ^ 28
  ⟨b % 2 ^ 16, b / 2 ^ 16 % 2 ^ 16, if 2 ^ 27 ≤ p then (p : Int) - 2 ^ 28 else p, b.testBit 60, b / 2 ^ 61 % 4, b.testBit 63,
    b / 2 ^ 64 % 2 ^ 32, b / 2 ^ 96 % 2 ^ 32⟩

/-- A barrier's 16 bytes. -/
def Bar.toNat (b : Bar) : Nat :=
  b.expected % 2 ^ 16 + at' (b.arrived % 2 ^ 16) 16 + at' (b.pending % 2 ^ 28).toNat 32 + bit' b.phase 60 +
    at' (b.spare % 4) 61 + bit' b.fault 63 + at' (b.timeout % 2 ^ 32) 64 + at' (b.epoch % 2 ^ 32) 96

/-- The completion check (R287). -/
def Bar.check (b : Bar) : Bar :=
  if b.expected ≠ 0 && b.arrived == b.expected && b.pending == 0 && !b.fault then
    { b with phase := !b.phase, epoch := (b.epoch + 1) % 2 ^ 32, arrived := 0 }
  else b

/-- An arrival with expected bytes (R286). -/
def Bar.arrive (b : Bar) (bytes : Int) : Bar :=
  let b := { b with arrived := (b.arrived + 1) % 2 ^ 16 }
  let p := b.pending + bytes
  (if p < -(2 ^ 27) || 2 ^ 27 ≤ p then { b with fault := true } else { b with pending := p }).check

/-- Bytes that have landed (R287). -/
def Bar.lower (b : Bar) (bytes : Nat) : Bar :=
  let p := b.pending - bytes
  (if p < -(2 ^ 27) then { b with fault := true } else { b with pending := p }).check

/-- Whether an arrival belongs to the next phase and parks (R286). -/
def Bar.full (b : Bar) : Bool := b.expected ≠ 0 && b.arrived == b.expected && !b.fault

/-- THE CHECKS of a barrier address (R285). -/
def State.locateBar (s : State) (a : Agent) (acc : Access) (e : Word) : Or Nat :=
  if e.toNat % 16 ≠ 0 then .error (.trap (.at 0x01 0 e))
  else if !inAperture e || apWin e != 0 then .error (.trap (.at 0x06 3 e))
  else s.locate a acc 0 e 16

/-- A barrier at its home. -/
def State.barAt (s : State) (loc : Nat) : Bar := Bar.ofNat (bytesNat (s.homeBytes loc 16))

/-- A barrier's new value at its home. -/
def State.putBar (s : State) (loc : Nat) (b : Bar) (f : From) : State := s.land ⟨loc, natBytes 16 b.toNat, 0, 0⟩ f []

/-- Bytes land that a barrier counts (R287): its address is translated in the aperture as its owner names it. -/
def State.lowerBar (s : State) (a : Agent) (bar : Option Word) (bytes : Nat) : State :=
  match bar with
  | some e => match s.resolve a .write e with
    | .ok loc => s.putBar loc ((s.barAt loc).lower bytes) (s.fromAgent 2 a)
    | _ => s
  | none => s

/-- Whether a context's own earlier accesses of a barrier's line are not performed, or wait to be sent (R209, R219, R256). -/
def State.barBehind (s : State) (a : Agent) (loc : Nat) : Bool :=
  s.requests.any (Req.onLine a [lineOf loc]) || !(s.ctx a).unsent.isEmpty

/-- Whether a barrier form waits for its own earlier accesses of the line, at a port that the commit token holds, or before a
closed ingress gate. -/
def State.barBusy (s : State) (a : Agent) (loc : Nat) : Bool := s.barBehind a loc || s.portShut a loc 16

/-- `barinit` (R285). -/
def execBarinit (a b : Reg) (g : PReg) (s : State) : Host.Outcome State Fault Refusal :=
  issue (.barinit a b g) s fun s =>
    let c := s.ctx s.cur
    let v := c.x b.val
    (s.locateBar s.cur .write (c.x a.val)).then fun loc =>
      if s.barBusy s.cur loc then .wait (s.stall s.cur)
      else .done (s.putBar loc ⟨fld v 0 16, 0, 0, false, 0, false, fld v 32 32, (s.barAt loc).epoch⟩ (s.fromAgent 1 s.cur)) []

/-- An arrival at a barrier, with the arrival record of its context (R278, R286); the trace has it as an atomic (log entry 82). -/
def State.arriveBar (s : State) (a : Agent) (loc : Nat) (addr bytes : Word) : State :=
  let b := s.barAt loc
  (s.putBar loc (b.arrive bytes.toInt) (s.fromAgent 1 a)).modCtx a fun c =>
    { c with arrRec := some (addr, BitVec.ofNat 32 b.epoch) }

/-- `bararr` (R286): a release; an arrival of the next phase parks at the home. -/
def execBararr (a b : Reg) (g : PReg) (s : State) : Host.Outcome State Fault Refusal :=
  issue (.bararr a b g) s fun s =>
    let c := s.ctx s.cur
    let e := c.x a.val
    (s.locateBar s.cur .write e).then fun loc =>
      if !s.performed s.cur false || s.barBusy s.cur loc then .wait (s.stall s.cur)
      else if (s.barAt loc).full then .wait (s.park s.cur (.bararr loc e (c.x b.val) a b g))
      else .done (s.arriveBar s.cur loc e (c.x b.val)) []

/-- PARKED_BARARR_ARRIVAL: the phase has completed, and the parked arrival counts in the next one (R286). -/
def execParkedBararrArrival (a : Agent) (s : State) : Host.Outcome State Fault Refusal :=
  .next <| match (s.ctx a).park with
  | some (.bararr loc addr bytes xa xb g) =>
    if (s.barAt loc).full || s.portShut a loc 16 || !s.moving a then s
    else (s.arriveBar a loc addr bytes).completeParked a (.bararr xa xb g) []
  | _ => s

/-- Region time at an agent, in nanoseconds (R356). -/
def State.agentNs (s : State) (a : Agent) : Nat :=
  match a with
  | .ctx c k _ => s.nowNs (coreId c k)
  | .quoin c => s.nowNs (c * 8)
  | .plinth => s.nowNs plinthCore

/-- What a `barwait` returns now, if anything (R288). -/
def State.barStatus (s : State) (a : Agent) (loc : Nat) (e0 : W32) (deadline : Option Nat) : Option Nat :=
  let b := s.barAt loc
  if b.epoch ≠ e0.toNat then some 0
  else if b.fault then some 2
  else match deadline with
    | some t => if t ≤ s.agentNs a then some 1 else none
    | none => none

/-- Completing a `barwait` clears the arrival record at status 0 (R288). -/
def State.clearRecord (s : State) (a : Agent) (st : Nat) : State :=
  if st = 0 then s.modCtx a fun c => { c with arrRec := none } else s

/-- `barwait` (R288): after the context's own accesses of the line, and before no closed gate (R219, R340); in a gang it parks every
member and completes for all together (R303). -/
def execBarwait (d a : Reg) (g : PReg) (s : State) : Host.Outcome State Fault Refusal :=
  issue (.barwait d a g) s fun s =>
    let c := s.ctx s.cur
    let e := c.x a.val
    (s.locateBar s.cur .read e).then fun loc =>
      if s.barBehind s.cur loc || (!near s.cur loc && s.gateShut s.cur loc) then .wait (s.stall s.cur)
      else
        let b := s.barAt loc
        let e0 := match c.arrRec with
          | some r => if r.1 = e then r.2 else BitVec.ofNat 32 b.epoch
          | none => BitVec.ofNat 32 b.epoch
        let deadline := if b.timeout = 0xFFFFFFFF then none else some (s.agentNs s.cur + b.timeout)
        match (if (s.group s.cur).length ≤ 1 then s.barStatus s.cur loc e0 deadline else none) with
        | some st => .done (s.clearRecord s.cur st) [.toX d.val (BitVec.ofNat 64 st)]
        | none => .wait (s.park s.cur (.barwait loc e e0 deadline d a g))

/-- Completes a parked `barwait` of a context, or of every member of its gang, once each has a status that a test
admits. -/
def State.finishBarwait (s : State) (a : Agent) (p : Nat → Bool) : State :=
  let g := s.group a
  let of (b : Agent) : Option (Nat × Reg × Reg × PReg) := match (s.ctx b).park with
    | some (.barwait loc _ e0 deadline d xa pg) => (s.barStatus b loc e0 deadline).map fun st => (st, d, xa, pg)
    | _ => none
  if s.moving a && g.all (fun b => (of b).isSome) && (match of a with | some r => p r.1 | none => false) then
    g.foldl (fun t b => match of b with
      | some (st, d, xa, pg) => (t.clearRecord b st).completeParked b (.barwait d xa pg) [.toX d.val (BitVec.ofNat 64 st)]
      | none => t) s
  else s

/-- BARWAIT_WAKE: the barrier has completed its phase or holds a fault (R287, R288). -/
def execBarwaitWake (a : Agent) (s : State) : Host.Outcome State Fault Refusal :=
  .next (s.finishBarwait a fun st => st != 1)

/-- BARWAIT_TIMEOUT: its time has passed (R288). -/
def execBarwaitTimeout (a : Agent) (s : State) : Host.Outcome State Fault Refusal :=
  .next (s.finishBarwait a fun st => st == 1)

end Sys2Proof.Machine
end

