-- ==== Sys2Proof/Machine/TrapInstr.lean ====
section
/-! DEFINITION. `ecall`, `ebreak`, `eret` and `wfi` (R170 to R172). -/

namespace Sys2Proof.Machine

open Sys2Proof

/-- Whether a result of the context has not completed. -/
def Ctx.incomplete (c : Ctx) : Bool := c.arch.pend.any fun p => !p.done

/-- `ecall`: cause 0x0C, `epc` after the instruction, `faddr` at it (R170). -/
def execEcall (g : PReg) (s : State) : Host.Outcome State Fault Refusal :=
  issue (.ecall g) s fun s => .trap ⟨0x0C, 0, (s.ctx s.cur).arch.pc, true⟩

/-- `ebreak`: cause 0x0D (R170). -/
def execEbreak (g : PReg) (s : State) : Host.Outcome State Fault Refusal :=
  issue (.ebreak g) s fun s => .trap ⟨0x0D, 0, (s.ctx s.cur).arch.pc, true⟩

/-- `eret` (R171). It closes no window and counts toward none (R296). -/
def execEret (g : PReg) (s : State) : Host.Outcome State Fault Refusal :=
  issue (.eret g) s fun s =>
    let c := s.ctx s.cur
    if c.incomplete then .wait (s.stall s.cur)
    else .leaves (s.modCtx s.cur fun c => { c.eret with stalled := false })

/-- A control context dissolves its gang for every member (R303, R307). -/
def State.leaveGang (s : State) (a : Agent) : State :=
  match a with
  | .ctx c k 0 => s.dissolve (coreId c k)
  | _ => s

/-- `wfi`: its gang dissolves first; then windows close and results land on each core alone, and the context waits (R172, R296,
R303). -/
def execWfi (g : PReg) (s : State) : Host.Outcome State Fault Refusal :=
  issue (.wfi g) s fun s =>
    let s := (s.leaveGang s.cur).modCtx s.cur Ctx.closeWindows
    if (s.ctx s.cur).incomplete then .wait (s.stall s.cur)
    else .done (s.modCtx s.cur fun c => { c with run := 2 }) []

end Sys2Proof.Machine
end

