-- ==== Sys2Proof/Machine/Context.lean ====
section
/-! DEFINITION. Helpers, gangs, liveness and `yield` (R290, R303 to R309). -/

namespace Sys2Proof.Machine

open Sys2Proof

/-- The lowest free helper slot of a core: its context has ended and no sweep has reserved it (R290). -/
def State.freeSlot (s : State) (core : Nat) : Option Nat :=
  (List.range 11).find? fun t => t != 0 && (s.ctx (ctxOf core t)).run == 3 &&
    !(match (s.core core).sweep with | some w => w.helper == t | none => false)

/-- Whether a completion place is free at a core (R260). -/
def State.placeFree (s : State) (core : Nat) : Bool := decide ((s.core core).places + s.inMortar core < 4160)

/-- Reserves a completion place (R260). -/
def State.reserve (s : State) (core : Nat) : State := s.modCore core fun k => { k with resv := k.resv + 1 }

/-- A helper begins: every register zero, every register live, x1 as given (R240, R304). -/
def State.startHelper (s : State) (core t : Nat) (pc x1 : Word) (deleg : BitVec 32) (o : Origin) : State :=
  let c := { Ctx.start pc deleg with origin := o }
  (s.setCtx (ctxOf core t) (c.setX 1 x1)).modCore core fun k =>
    { k with order := k.order ++ [t], counts := Map.set k.counts t 0, gated := false, idleFrom := none,
             rfile := k.rfile.filter fun e => e.tid != t }

/-- `hstart` (R304). -/
def execHstart (d a : Reg) (off : W32) (g : PReg) (s : State) : Host.Outcome State Fault Refusal :=
  issue (.hstart d a off g) s fun s =>
    let c := s.ctx s.cur
    match s.cur with
    | .ctx n k 0 =>
      let core := coreId n k
      match s.freeSlot core with
      | none => .done s [.toX d.val (BitVec.allOnes 64)]
      | some h =>
        if !s.placeFree core then .wait (s.park s.cur .reserve)
        else if !s.performed s.cur false then .wait (s.stall s.cur)
        else .done ((s.reserve core).startHelper core h (c.arch.pc + ((off.signExtend 64) <<< 2)) (c.x a.val) c.deleg .hstart)
          [.toX d.val (BitVec.ofNat 64 h)]
    | _ => .done s []

/-- Whether the waits of an issued `hend` are over: every earlier instruction has completed, and every access and `send` of the
context is performed (R305). -/
def State.hendDone (s : State) (a : Agent) : Bool :=
  !(s.ctx a).incomplete && s.performed a false && s.noSend a

/-- A helper that has issued `hend` ends, and its message takes the place reserved for it (R305). -/
def State.finishHend (s : State) (a : Agent) : State :=
  match a.core? with
  | some n => (s.retireCtx a).postReserved n ⟨0, msgHeader (s.cidOf n) a.tid 3 0, endPayload 0 a.tid⟩
  | none => s

/-- `hend`: windows close, and its waits follow its issue and claim no issue slot (R305, R311). -/
def execHend (g : PReg) (s : State) : Host.Outcome State Fault Refusal :=
  issue (.hend g) s fun s =>
    let s := s.modCtx s.cur Ctx.closeWindows
    if s.hendDone s.cur then .leaves (s.finishHend s.cur) else .wait (s.park s.cur .hend)

/-- Set bits of a mask, in ascending order. -/
def setBits (m : BitVec 8) : List Nat := (List.range 8).filter fun k => m.getLsbD k

/-- Whether a mask names two or more neighbouring cores, one of them this one (R306). -/
def gangMask (m : BitVec 8) (own : Nat) : Bool :=
  let b := setBits m
  m.getLsbD own && decide (2 ≤ b.length) && (b.getLastD 0 - b.headD 0 + 1 == b.length)

/-- The gang is formed: every member's `gang` is performed, that of the last member to arrive given, and it continues after the
leader's (R71, R306). -/
def State.formGang (s : State) (course : Nat) (m : BitVec 8) (own : Instr) : State :=
  let lead := ctxOf (course * 8 + (setBits m).headD 0) 0
  let pc := (s.ctx lead).arch.pc + 4
  (setBits m).foldl (fun s k =>
    let a := ctxOf (course * 8 + k) 0
    let i := match (s.ctx a).park with | some (.gang _ r g) => Instr.gang r g | _ => own
    (s.modCore (course * 8 + k) fun x => { x with gang := some m }).modCtx a fun c =>
      let d := { c with park := none, ahead := [] }.finish i s.late []
      { d with arch := d.arch.goto d.intrap pc }) s

/-- `gang` (R306). -/
def execGang (a : Reg) (g : PReg) (s : State) : Host.Outcome State Fault Refusal :=
  let i := Instr.gang a g
  issue i s fun s =>
    match s.cur with
    | .ctx n k 0 =>
      let m : BitVec 8 := ((s.ctx s.cur).x a.val).setWidth 8
      if (s.core (coreId n k)).gang.isSome || !gangMask m k then .trap (.at 0x10 0xFF 0)
      else
        let others := ((setBits m).filter (· != k)).map fun j => ctxOf (coreId n j) 0
        let parked (b : Agent) : Option (BitVec 8) := match (s.ctx b).park with | some (.gang x _ _) => some x | _ => none
        let clash := others.filter fun b => match parked b with | some x => x != m | none => false
        if !clash.isEmpty then
          if (s.cur :: clash).any s.amoOut then .wait (s.stall s.cur)
          else
            let s1 := clash.foldl (fun s b => s.deliver b (.at 0x10 0xFF 0) (s.ctx b).arch.pc) s
            .leaves (s1.deliver s.cur (.at 0x10 0xFF 0) (s.ctx s.cur).arch.pc)
        else if others.all fun b => parked b == some m then .leaves (s.formGang n m i)
        else .wait (s.park s.cur (.gang m a g))
    | _ => .trap (.at 0x10 0xFF 0)

/-- `split`: it dissolves the gang for every member, and the repetition of each that performs it ends (R71, R307). -/
def execSplit (g : PReg) (s : State) : Host.Outcome State Fault Refusal :=
  issue (.split g) s fun s =>
    let inGang := match s.cur with | .ctx n k 0 => (s.core (coreId n k)).gang.isSome | _ => false
    if inGang || s.together then .jump (s.leaveGang s.cur) ((s.ctx s.cur).arch.pc + 4) []
    else .done s []

/-- `live` (R308). -/
def execLive (a : Reg) (g : PReg) (s : State) : Host.Outcome State Fault Refusal :=
  issue (.live a g) s fun s => .mask s ((s.ctx s.cur).x a.val) []

/-- `yield` (R298, R299, R309). -/
def execYield (g : PReg) (s : State) : Host.Outcome State Fault Refusal :=
  issue (.yield g) s fun s =>
    match s.cur with
    | .ctx n k t =>
      let core := coreId n k
      if t = 0 && (s.core core).gang.isSome then .done s []
      else .done (s.modCore core fun x =>
        if x.policy then { x with passes := addLines x.passes [t] }
        else { x with order := x.order.filter (· != t) ++ [t], current := none }) []
    | _ => .done s []

/-- RESERVATION_RETRY: a completion place is free again for an instruction that is parked for one (R260). -/
def execReservationRetry (a : Agent) (s : State) : Host.Outcome State Fault Refusal :=
  .next <| match (s.ctx a).park, a.core? with
  | some .reserve, some n => if s.placeFree n then s.unpark a else s
  | _, _ => s

end Sys2Proof.Machine
end

