-- ==== Sys2Proof/Machine/Stream.lean ====
section
/-! DEFINITION. Stream registers (R271 to R278). -/

namespace Sys2Proof.Machine

open Sys2Proof

/-- Streams bound in the contexts of a course (R271). -/
def State.bindings (s : State) (course : Nat) : Nat :=
  ((s.ctxsIn course).map fun a => ((s.ctx a).arch.streams.filter fun t => t.2.bound).length).sum

/-- Command entries in use at a course's copy unit: running copies, and one for each binding (R271). -/
def State.entriesUsed (s : State) (course : Nat) : Nat := (s.course course).copies.length + s.bindings course

/-- Index of an element after k more (R273). -/
def Stream.ahead (t : Stream) : Nat → Stream
  | 0 => t
  | k + 1 => if t.done then t else t.advance.ahead k

/-- Address of a stream's next element (R273). -/
def Stream.addr (t : Stream) : Word :=
  (List.range 4).foldl (fun a k => a + BitVec.ofNat 64 (t.index.getD k 0) * (t.strides.getD k 0).signExtend 64) t.base

/-- Counts and strides of a command word's used dimensions (R272). -/
def streamDims (c : StreamCmd) : List (Nat × W32) :=
  [(c.n0.toNat, c.s0), (c.n1.toNat, c.s1), (c.n2.toNat, c.s2), (c.n3.toNat, c.s3)].take (c.dims.toNat + 1)

/-- `smode`: the checks of R272 and R271, then the binding; it is a release toward the copy unit at system scope, whose refills
may read a peer's pages (R226). -/
def doSmode (kind : RKind) (n : Fin 4) (a : Reg) (t : IntTy) (cmd : StreamCmd) (size : Nat) (i : Instr) (s : State) : Res :=
  let c := s.ctx s.cur
  let base := c.x a.val
  let reg := 24 + n.val
  let j := (streamNo kind reg).getD 0
  let dims := streamDims cmd
  if dims.any fun d => d.1 == 0 then .trap (.at 0x02 0 i.word)
  else if base.toNat % size ≠ 0 then .trap (.at 0x01 0 base)
  else match dims.find? fun d => d.2.toNat % size != 0 with
    | some d => .trap (.at 0x01 0 (d.2.signExtend 64))
    | none =>
      let course := s.cur.course?.getD 0
      let own := if (c.stream j).bound then 1 else 0
      if 16 + own ≤ s.bindings course || 32 + own ≤ s.entriesUsed course then .wait (s.park s.cur .stream)
      else if !s.performed s.cur true then .wait (s.stall s.cur)
      else
        let pad (l : List Nat) := l ++ List.replicate (4 - l.length) 0
        let r : Stream := ⟨true, false, base, dims.map (·.2) ++ List.replicate (4 - dims.length) 0, pad (dims.map (·.1)),
          [0, 0, 0, 0], cmd.swz, cmd.dims.toNat, t, false⟩
        .done (s.modCtx s.cur fun c =>
          let d := c.unbind j
          { d with arch := { d.arch with streams := Map.set d.arch.streams j r } }) []

/-- `smode` of an x register (R272). -/
def execSmodeX (n : Fin 4) (a : Reg) (t : IntTy) (c : StreamCmd) (g : PReg) (s : State) :
    Host.Outcome State Fault Refusal :=
  issue (.smodeX n a t c g) s fun s => doSmode .x n a t c t.size (.smodeX n a t c g) s

/-- `smode` of a v register (R272). -/
def execSmodeV (n : Fin 4) (a : Reg) (c : StreamCmd) (g : PReg) (s : State) : Host.Outcome State Fault Refusal :=
  issue (.smodeV n a c g) s fun s =>
    let win := winOf ((s.ctx s.cur).x a.val)
    doSmode .v n a .i8 c (if (winDx win).isSome then 8 else winSize win) (.smodeV n a c g) s

/-- `sexit`: the binding ends, and the register reads what it held (R277). -/
def execSexit (vector : Bool) (n : Fin 4) (g : PReg) (s : State) : Host.Outcome State Fault Refusal :=
  issue (.sexit vector n g) s fun s =>
    match (s.ctx s.cur).bound? (if vector then .v else .x) (24 + n.val) with
    | some j => .done (s.modCtx s.cur fun c => c.unbind j) []
    | none => .done s []

/-- What an x stream's element is: its value, the fault its pop will raise, or a page that is missing (R273, R275). -/
def State.streamX (s : State) (a : Agent) (t : Stream) : Except (List Word) Fetched :=
  let e := t.addr
  let n := t.ty.size
  let bad (c sub : BitVec 8) : Except (List Word) Fetched := .ok (.fault c sub e)
  if inAperture e && decide (1 < apWin e) || (!inAperture e && t.swz != 0) then bad 0x06 3
  else if inAperture e && a.program && decide (progEnd ≤ apOff e) then bad 0x06 5
  else match s.resolve a .read e with
    | .miss p => .error [p]
    | .fault sub => bad 0x04 sub
    | .ok loc =>
      if (match homeOf loc with | .slice _ _ => s.tagOf loc != t.swz | _ => false) then bad 0x06 2
      else if s.poisoned loc n then .ok (.fault 0x09 (unitOf loc) (e &&& ~~~(63#64)))
      else .ok (.x (extend t.ty.signed n (bytesNat (s.homeBytes loc n))))

/-- What a v stream's strip is (R273, R275). -/
def State.streamV (s : State) (a : Agent) (t : Stream) : Except (List Word) Fetched :=
  let base := t.addr
  let win := winOf base
  let dx := winDx win
  let size := match dx with | some _ => 8 | none => winSize win
  let count := match dx with | some f => dxBytes f / 8 | none => 64
  let ws := (List.range count).map fun i => base + BitVec.ofNat 64 (size * i)
  match s.vecCheck a .read ws size t.swz.toNat win true true with
  | .error (.trap x) => .ok (.fault x.cause x.sub (if x.cause = 0x04 then base else x.faddr))
  | .error _ => .error (missedPages s a .read ws)
  | .ok locs =>
    match s.poisonAt (ws.zip locs) size with
    | some e => .ok (.fault 0x09 (unitOf e.2) (e.1 &&& ~~~(63#64)))
    | none =>
      match dx with
      | some f =>
        let rec1 := bytesNat (s.homeBytes (locs.headD 0) (dxBytes f))
        .ok (.v (lanesOf (dxDecode f rec1)))
      | none => .ok (.v (locs.map fun loc => winDecode win (bytesNat (s.homeBytes loc size))))

/-- Whether an engine's operation is parked for a page (R321). -/
def State.engineParked (s : State) (a : Agent) (op : EngineOp) : Bool :=
  match a.course? with
  | some c => (s.course c).miss.any fun m => m.who == a && m.engine == some op
  | none => false

/-- An engine's operation misses a page: it parks in the miss table, which has 16 places for engines, with one notice for the page; an
operation that finds no place looks its page up again later (R317, R321, R322). -/
def State.engineMiss (s : State) (a : Agent) (op : EngineOp) (va : Word) : State :=
  match a.course? with
  | some c =>
    let ops := ((s.course c).miss.filterMap fun m => m.engine.map fun o => (m.who, o)).eraseDups
    if (!ops.contains (a, op) && decide (16 ≤ ops.length)) ||
        ((s.course c).miss.any fun m => m.who == a && m.engine == some op && pageOf m.va == pageOf va) then s
    else
      (s.modCourse c fun k => { k with miss := k.miss ++ [⟨a, some op, va, 3, false⟩] }).notify c
        (.miss (msgHeader (match a.core? with | some n => s.cidOf n | none => 0x7FF) a.tid 5 0)
          (BitVec.ofNat 64 (at' 3 62 + va.toNat % 2 ^ 57)))
  | none => s

/-- Bytes that the next element of a stream covers (R273). -/
def Stream.span (t : Stream) (v : Bool) : Nat :=
  if v then (match winDx (winOf t.addr) with | some f => dxBytes f | none => 64 * winSize (winOf t.addr)) else t.ty.size

/-- STREAM_REFILL: the copy unit fetches the next element ahead of the pops, up to 8 held, while the context runs (R274, R275,
R278); a refill that is parked for a page waits for its retry (R321). -/
def execStreamRefill (a : Agent) (r : Fin 8) (s : State) : Host.Outcome State Fault Refusal :=
  let c := s.ctx a
  let held := Map.get [] c.bufs r.val
  let t := (c.stream r.val).ahead (held.length - Map.get 0 c.arch.taken r.val)
  .next <|
    if !(c.stream r.val).bound || t.done || decide (8 ≤ held.length) || !s.moving a || c.run != 0 || s.engineParked a (.stream r.val) ||
        (match s.resolve a .read t.addr with | .ok loc => s.gateShut a loc | _ => false) then s
    else match (if r.val < 4 then s.streamX a t else s.streamV a t) with
      | .ok f =>
        let n := t.span (decide (4 ≤ r.val))
        let u := s.touchSpan a t.addr n
        (match s.resolve a .read t.addr with | .ok loc => u.ask a.core? loc n | _ => u).modCtx a fun c =>
          { c with bufs := Map.set c.bufs r.val (held ++ [f]) }
      | .error ps => ps.foldl (fun s p => s.engineMiss a (.stream r.val) p) s

/-- STREAM_BINDING_RETRY: a binding and a command entry are free for a parked `smode` (R271). -/
def execStreamBindingRetry (a : Agent) (s : State) : Host.Outcome State Fault Refusal :=
  .next <| match (s.ctx a).park, a.course? with
  | some .stream, some n => if s.bindings n < 16 && s.entriesUsed n < 32 then s.unpark a else s
  | _, _ => s

end Sys2Proof.Machine
end

