-- ==== Sys2Proof/Machine/Copy.lean ====
section
/-! DEFINITION. The copy unit (R279 to R282), and the reads, writes and completions of an engine that it shares with the
collective engine. -/

namespace Sys2Proof.Machine

open Sys2Proof

/-! ### Engine accesses -/

/-- What an engine's access to some bytes meets: their locations, a missing page, or a refusal with its status (R281). -/
inductive EngRes where
  | ok (locs : List Nat)
  | miss (va : Word)
  | refused (status : Nat)
  deriving DecidableEq, Repr

/-- Joins what the accesses to two runs of bytes meet. -/
def EngRes.and : EngRes → EngRes → EngRes
  | .ok a, .ok b => .ok (a ++ b)
  | .ok _, r => r
  | r, _ => r

/-- An engine's access to one byte: window, reserved part, a peer's port, translation, swizzle tag (R281, R393). -/
def State.engineByte (s : State) (a : Agent) (acc : Access) (va : Word) (span : BitVec 3) (tagged : Bool) : EngRes :=
  if (if inAperture va then apWin va != 0 || (a.program && decide (progEnd ≤ apOff va)) else span != 0) || s.barred a acc va then .refused 6
  else match s.resolve a acc va with
    | .miss p => .miss p
    | .fault _ => .refused (match acc with | .write => 5 | _ => 4)
    | .ok loc =>
      let sram := match homeOf loc with | .slice _ _ => true | _ => false
      if sram && tagged && s.tagOf loc != span then .refused 6 else .ok [loc]

/-- An engine's access to n bytes. An element that lies in two slices is refused (R281). -/
def State.engineLocs (s : State) (a : Agent) (acc : Access) (va : Word) (n : Nat) (span : BitVec 3) (tagged : Bool) :
    EngRes :=
  let last := va + BitVec.ofNat 64 (n - 1)
  if inAperture va && sliceBase va != sliceBase last then .refused 6
  else (List.range n).foldr (fun i r => (s.engineByte a acc (va + BitVec.ofNat 64 i) span tagged).and r) (.ok [])

/-- The writes of bytes at locations: consecutive bytes of a line together. -/
def writesAt (locs : List Nat) (data : List Byte) : List Write :=
  (locs.zip data).foldl (fun ws b => joinWrite ws ⟨b.1, [b.2], 0, 0⟩) []

/-- An engine's write is performed at its home; it squashes under R213 (R220, R227). -/
def State.enginePut (s : State) (a : Agent) (locs : List Nat) (data : List Byte) : State :=
  (writesAt locs data).foldl (fun s w => s.land w (s.fromAgent 2 a) []) s

/-- Whether an agent's engine waits at a port with a write (R214, R340). -/
def State.engineWaits (s : State) (a : Agent) (locs : List Nat) : Bool := locs.any fun l => s.portShut a l 1

/-- Whether an agent's engine waits before a closed ingress gate with a read (R340). -/
def State.readWaits (s : State) (a : Agent) (locs : List Nat) : Bool := locs.any (s.gateShut a)

/-- The error of the bank word or line of a location goes where an operation's elements, by their addresses, have replaced all of
it (R191). -/
def State.healBy (s : State) (loc : Nat) (va : Word) (size : Nat) (written : List Word) : State :=
  let g := errorGrain loc
  let unit (w : Word) : Nat := w.toNat / g
  if g / size ≤ ((written.filter fun w => unit w == unit va).eraseDups).length then s.heal (loc / g * g) g else s

/-- Whether the port of a barrier that an engine would lower is held by the commit token (R214). -/
def State.barShut (s : State) (a : Agent) (bar : Option Word) : Bool :=
  match bar with
  | some e => match s.resolve a .write e with | .ok loc => s.portShut a loc 16 | _ => false
  | none => false

/-- Whether an uncorrectable error affects bytes at locations (R191). -/
def State.anyPoison (s : State) (locs : List Nat) : Bool := locs.any fun l => s.poisoned l 1

/-- Keeps the first value that each byte held before an engine operation wrote it. -/
def keepOld (s : State) (pre : List (Nat × Byte)) (locs : List Nat) : List (Nat × Byte) :=
  locs.foldl (fun p l => if (Map.find p l).isSome then p else (l, s.homeByte l) :: p) pre

/-- Bytes at locations as they stood before an engine operation wrote any of them. -/
def oldBytes (s : State) (pre : List (Nat × Byte)) (locs : List Nat) : List Byte :=
  locs.map fun l => (Map.find pre l).getD (s.homeByte l)

/-- Payload of a completion of the copy unit or the collective engine (R281, R283). -/
def engPayload (status : Nat) (loc : Nat) : Word := BitVec.ofNat 64 (at' (status % 16) 60 + loc % 2 ^ 57)

/-- Posts an engine completion of kind 2 to the agent that issued the command (R259, R260, R281); the quoin takes its own
with its miss notices (log entry 13). -/
def State.completeFor (s : State) (a : Agent) (tag : BitVec 16) (payload : Word) : State :=
  match a with
  | .ctx c k t => s.complete (coreId c k) t tag payload
  | .quoin c => s.notify c (.done (msgHeader 0x7FF 0 2 tag.toNat) payload)
  | .plinth => s

/-- An element the engine performs next: any of n that it has not performed, by a free choice (R280; log entry 18). The
elements performed are listed in ascending order. -/
def freePick (s : State) (n : Nat) (performed : List Nat) : Nat :=
  let left := n - performed.length
  let k := if left ≤ 1 then 0 else (Config.freeWord s.freeCount).toNat % left
  performed.foldl (fun k d => if d ≤ k then k + 1 else k) k

/-- Inserts an element among those performed. -/
def insertUp (k : Nat) : List Nat → List Nat
  | [] => [k]
  | d :: ds => if k < d then k :: d :: ds else d :: insertUp k ds

/-- Changes the first element that a test selects. -/
def modFirst {α : Type} (p : α → Bool) (f : α → α) : List α → List α
  | [] => []
  | x :: xs => if p x then f x :: xs else x :: modFirst p f xs

/-! ### Copies -/

/-- Bytes of a copy's element (R279). -/
def copySize (c : CopyCmd) : Nat := 2 ^ c.esize.toNat

/-- Counts of the dimensions in use, dimension 0 first, each with its source and destination stride (R279). -/
def copyDims (c : CopyCmd) : List (Nat × BitVec 22 × BitVec 22) :=
  [(c.n0.toNat, 1, 1), (c.n1.toNat, c.t1, c.u1), (c.n2.toNat, c.t2, c.u2), (c.n3.toNat, c.t3, c.u3)].take (c.dims.toNat + 1)

/-- Elements of a copy (R279). -/
def copyTotal (c : CopyCmd) : Nat := (copyDims c).foldl (fun n d => n * d.1) 1

/-- Offset of element k in elements, by the strides that a function selects: i0 runs fastest (R279). -/
def patternAt (stride : Nat × BitVec 22 × BitVec 22 → BitVec 22) : List (Nat × BitVec 22 × BitVec 22) → Nat → Word
  | [], _ => 0
  | d :: ds, k => BitVec.ofNat 64 (k % d.1) * (stride d).signExtend 64 + patternAt stride ds (k / d.1)

/-- Source address of an element (R279). -/
def CopyJob.from (j : CopyJob) (k : Nat) : Word :=
  j.src + BitVec.ofNat 64 (copySize j.cmd) * patternAt (fun d => d.2.1) (copyDims j.cmd) k

/-- Destination address of an element (R279). -/
def CopyJob.to (j : CopyJob) (k : Nat) : Word :=
  j.dst + BitVec.ofNat 64 (copySize j.cmd) * patternAt (fun d => d.2.2) (copyDims j.cmd) k

/-- Whether a copy's destination covers n bytes at an address: every element of them lies in some row. -/
def CopyJob.covers (j : CopyJob) (base : Word) (n : Nat) : Bool :=
  let n0 := j.cmd.n0.toNat
  let len := copySize j.cmd * n0
  let inRow (r : Nat) (b : Word) : Bool := decide ((b - j.to (r * n0)).toNat < len)
  (List.range (n / copySize j.cmd)).all fun i =>
    (List.range (copyTotal j.cmd / n0)).any fun r => inRow r (base + BitVec.ofNat 64 (copySize j.cmd * i))

/-- The 2 KiB block of an address. -/
def blockOf (va : Word) : Word := va &&& ~~~(0x7FF#64)

/-- Sets the swizzle tag of the block that holds a location (R280). -/
def State.setTag (s : State) (loc : Nat) (t : BitVec 3) : State :=
  match homeOf loc with
  | .slice core off => s.modCore core fun k => { k with tags := Map.set k.tags (off / 2048) t }
  | _ => s

/-- Whether a copy has performed all its elements or ended early (R281). -/
def CopyJob.isOver (j : CopyJob) : Bool := j.ended.isSome || decide (copyTotal j.cmd ≤ j.performed.length)

/-- Changes the i-th copy of a course. -/
def State.modCopy (s : State) (course i : Nat) (f : CopyJob → CopyJob) : State :=
  s.modCourse course fun k => { k with copies := k.copies.modify i f }

/-- Performs element k of a copy (R280, R281, R287), or ends the copy at its first refusal. An element of part of a bank word
with an error consumes it, unless the copy replaces the whole word (R191); a page that is missing parks the copy at its element (R321). -/
def State.copyAt (s : State) (course i : Nat) (j : CopyJob) (k : Nat) : State :=
  let e := copySize j.cmd
  let sva := j.from k
  let dva := j.to k
  let whole := inAperture dva && j.covers (blockOf dva) 2048
  let refuse (st : Nat) (va : Word) := s.modCopy course i fun j => { j with ended := some (st, va), parked := none }
  let missed (p : Word) := (s.modCopy course i fun j => { j with parked := some k }).engineMiss j.who (.copy j.id) p
  match s.engineLocs j.who .read sva e j.cmd.sswz true with
  | .miss p => missed p
  | .refused st => refuse st sva
  | .ok src =>
    match s.engineLocs j.who .write dva e j.cmd.dswz (!whole) with
    | .miss p => missed p
    | .refused st => refuse st dva
    | .ok dst =>
      if s.anyPoison src then refuse 9 sva
      else if s.partPoison (writesAt dst (List.replicate e 0)) (dst.headD 0) e && !j.covers (dva &&& ~~~(7#64)) 8 then refuse 9 dva
      else if s.readWaits j.who src || s.engineWaits j.who dst || s.barShut j.who j.bar then s
      else
        let s := ((s.touchCourse j.who sva).touchCourse j.who dva).ask j.who.core? (src.headD 0) e
        let old := src.any (fun l => (Map.find j.pre l).isSome) && Config.freeBit s.freeCount
        let data := if old then oldBytes s j.pre src else src.map s.homeByte
        let s1 := s.tick.modCopy course i fun j =>
          { j with performed := insertUp k j.performed, pre := keepOld s j.pre dst, parked := none }
        let s2 := (s1.enginePut j.who dst data).healBy (dst.headD 0) dva e ((insertUp k j.performed).map j.to)
        let s3 := if whole then s2.setTag (dst.headD 0) j.cmd.dswz else s2
        s3.lowerBar j.who j.bar e

/-- COPY_ELEMENT: the i-th copy of a course performs one element (R280 to R282): that at which it was parked for a page, or any that is
left. -/
def execCopyElement (course i : Nat) (s : State) : Host.Outcome State Fault Refusal :=
  .next <| match (s.course course).copies[i]? with
  | some j =>
    if j.isOver || !s.moving j.who || s.engineParked j.who (.copy j.id) then s
    else s.copyAt course i j (j.parked.getD (freePick s (copyTotal j.cmd) j.performed))
  | none => s

/-- COPY_COMPLETION: a copy that is over posts its completion, and its command entry is free (R281, R282). -/
def execCopyCompletion (course i : Nat) (s : State) : Host.Outcome State Fault Refusal :=
  .next <| match (s.course course).copies[i]? with
  | some j =>
    if j.isOver && s.moving j.who then
      let p := match j.ended with
        | some (st, va) => engPayload st va.toNat
        | none => engPayload 0 (copySize j.cmd * copyTotal j.cmd)
      (s.modCourse course fun k => { k with copies := dropAt i k.copies }).completeFor j.who j.cmd.tag p
    else s
  | none => s

/-- The barrier address of a `copy` or `coll`, after the checks of R285; x0 names none. -/
def State.engineBar (s : State) (a : Agent) (b : Reg) : Or (Option Word) :=
  if b.val = 0 then .ok none
  else
    let e := (s.ctx a).x b.val
    match s.locateBar a .write e with
    | .ok _ => .ok (some e)
    | .error r => .error r

/-- An aperture base in windows 1 to 7, or a span outside the aperture (R281). -/
def badBase (va : Word) (span : BitVec 3) : Bool := if inAperture va then apWin va != 0 else span != 0

/-- Reserves a completion place where the issuer is a context (R260). -/
def State.reserveFor (s : State) (a : Agent) : State := match a.core? with | some n => s.reserve n | none => s

/-- `copy` (R279, R281, R282): a release toward the copy unit (R226). -/
def execCopy (d a b : Reg) (c : CopyCmd) (g : PReg) (s : State) : Host.Outcome State Fault Refusal :=
  issue (.copy d a b c g) s fun s =>
    let r := s.ctx s.cur
    let dst := r.x d.val
    let src := r.x a.val
    let e := copySize c
    if !c.clean || (copyDims c).any fun x => x.1 == 0 then .trap (.at 0x02 0 (Instr.copy d a b c g).word)
    else if dst.toNat % e ≠ 0 then .trap (.at 0x01 0 dst)
    else if src.toNat % e ≠ 0 then .trap (.at 0x01 0 src)
    else if badBase dst c.dswz then .trap (.at 0x06 3 dst)
    else if badBase src c.sswz then .trap (.at 0x06 3 src)
    else match s.engineBar s.cur b, s.cur.course? with
      | .error x, _ => x
      | .ok _, none => .done s []
      | .ok bar, some n =>
        if (match s.cur.core? with | some k => !s.placeFree k | none => false) then .wait (s.park s.cur .reserve)
        else if 32 ≤ s.entriesUsed n then .wait (s.park s.cur .copy)
        else if !s.performed s.cur true then .wait (s.stall s.cur)
        else .done ((s.reserveFor s.cur).modCourse n fun k =>
          { k with copies := k.copies ++ [⟨k.nextCopy, s.cur, c, dst, src, bar, [], [], none, none, s.afterSsync s.cur⟩],
                   nextCopy := k.nextCopy + 1 }) []

/-- COPY_ENTRY_RETRY: a command entry is free for a parked `copy` (R282). -/
def execCopyEntryRetry (a : Agent) (s : State) : Host.Outcome State Fault Refusal :=
  .next <| match (s.ctx a).park, a.course? with
  | some .copy, some n => if s.entriesUsed n < 32 then s.unpark a else s
  | _, _ => s

end Sys2Proof.Machine
end

