-- ==== Sys2Proof/Machine/Csr.lean ====
section
/-! DEFINITION. Control and status registers: what a read gives and what a write changes, field by field (R7, R49, R50, R72
to R74). -/

namespace Sys2Proof.Machine

open Sys2Proof

/-- Mode code and L of a residue mode (R143, R151). -/
def modeBits : RMode → Nat
  | .normal => 0
  | .ufull l => at' l.val 22 + at' 1 20
  | .cred l => at' l.val 22 + at' 2 20

/-- `rstat` (R151): the mode fields show the mode in force. -/
def Course.rstatWord (k : Course) : Word := (k.rstat &&& ~~~(0xF00000#64)) ||| BitVec.ofNat 64 (modeBits k.rmode)

/-- A write of `rstat`: trapo and trapm are RW, bits 4:0 W1C; bits 2:0 all zero clear lane, loc and chan (R151). -/
def Course.writeRstat (k : Course) (new clr : Word) : Course :=
  let w := (k.rstat &&& ~~~(0x30000#64) &&& ~~~(clr &&& 0x1F#64)) ||| (new &&& 0x30000#64)
  { k with rstat := if w &&& 7#64 = 0 then w &&& ~~~(0xFF000F00#64) else w }

/-- Bits of `rinject` that hold a field (R152). -/
def rinjectMask : Word := 0x8F00FFFFFC0003FF

/-- A write of `boost` by the plinth (R379, R380): disabling it ends every sprint at the next boundary. -/
def State.writeBoost (s : State) (w : Word) : State :=
  let sel := BitVec.ofNat 8 (fld w 48 8)
  let s := { s with dev := { s.dev with boostEnable := w.getLsbD 63, boostSel := sel } }
  let s := s.modAshlar (sel.toNat / 32) fun x => { x with slots := fld w 44 4 }
  if w.getLsbD 63 then s
  else { s with courses := s.courses.map fun e => (e.1, if e.2.step = 0 then e.2 else { e.2 with sprintEnd := true }) }

/-- A write of `tsens` by the plinth (R367). -/
def State.writeTsens (s : State) (w : Word) : State :=
  if fld w 48 8 ≤ 75 then { s with dev := { s.dev with tsensSel := BitVec.ofNat 8 (fld w 48 8) } } else s

/-- The value of a CSR as an agent reads it (R49): the agent's own context, core, course, region and partition. -/
def State.csrRead (s : State) (a : Agent) (n : BitVec 12) : Word :=
  let c := s.ctx a
  let core (f : Core → Word) : Word := match a.core? with | some k => f (s.core k) | none => 0
  let course (f : Nat → Word) : Word := match a.course? with | some k => f k | none => 0
  let region (f : Region → Word) : Word := match s.regionOf a with | some r => f r | none => 0
  match n.toNat with
  | 0 => c.status
  | 1 => c.cause
  | 2 => c.epc
  | 3 => c.faddr
  | 4 => BitVec.ofNat 64 a.tid
  | 5 => match a.core? with | some k => BitVec.ofNat 64 (s.cidOf k) | none => 0
  | 6 => (s.ridOf a).setWidth 64
  | 7 => c.arch.live
  | 8 => c.loopc
  | 9 => c.arch.loopa
  | 0x100 => core Core.ipolicy
  | 0x101 => core Core.ibstat
  | 0x200 => course fun k => (s.course k).ashape
  | 0x201 => course fun k => (s.block (s.siteOf k)).cadenceWord
  | 0x202 => course fun k => (s.block (s.siteOf k)).gapWord
  | 0x203 => course fun k => (s.course k).rstatWord
  | 0x204 => course fun k => (s.course k).rinject
  | 0x205 => course s.rotn
  | 0x300 => core Core.ltime
  | 0x301 => region Region.gtime
  | 0x302 => region Region.pausedns
  | 0x303 => region Region.sscount
  | 0x304 => region Region.dropcnt
  | 0x305 => region fun r => match Map.find s.partitions r.pkey with | some p => p.shortfall | none => 0
  | 0x700 => s.tsens
  | 0x701 => s.permitsWord
  | 0x702 => s.boostWord
  | _ => 0

/-- Levels of a writer (R21): the program, the supervisor, the plinth. -/
inductive Level where
  | program | supervisor | machine
  deriving DecidableEq, Repr

/-- The level at which an agent runs (R21). -/
def levelOf : Agent → Level
  | .ctx _ _ _ => .program
  | .quoin _ => .supervisor
  | .plinth => .machine

/-- A denied CSR write (R50, R161). -/
def csrDenied (n : BitVec 12) : Except Trap State := .error (.at 0x06 1 (n.setWidth 64))

/-- A WRITE OF A CSR: every field takes its new value, or ignores it, by its access code (R7, R8, R50); `clr` is presented
to W1C fields (R72). -/
def State.csrWrite (s : State) (l : Level) (a : Agent) (n : BitVec 12) (new clr : Word) : Except Trap State :=
  let c := s.ctx a
  let sv (t : Except Trap State) : Except Trap State := if l = .program then csrDenied n else t
  let pl (t : Except Trap State) : Except Trap State := if l = .machine then t else csrDenied n
  match n.toNat with
  | 0 =>
    if l = .program then
      if c.statusDenied new then csrDenied n else .ok (s.modCtx a fun c => c.writeNested clr)
    else .ok (s.writeStatusSv a new clr)
  | 1 => sv (.ok (s.modCtx a fun c => c.writeArea 0x2148 new))
  | 2 => sv (.ok (s.modCtx a fun c => c.writeArea 0x2150 new))
  | 3 => sv (.ok (s.modCtx a fun c => c.writeArea 0x2158 new))
  | 7 => .ok (s.modCtx a fun c => c.setLive new)
  | 8 => sv (if fld new 37 5 > fld new 32 5 then csrDenied n else .ok (s.modCtx a fun c => c.setLoopc new))
  | 9 => sv (if fld new 0 2 ≠ 0 then csrDenied n else .ok (s.modCtx a fun c => c.writeArea 0x2170 new))
  | 0x100 => match a.core? with
    | some k => .ok (s.modCore k fun x => { x with policy := new.getLsbD 0 })
    | none => .ok s
  | 0x201 => pl (match a.course? with | some k => .ok (s.writeCadence (s.siteOf k) new) | none => .ok s)
  | 0x202 => pl (match a.course? with | some k => .ok (s.writeGap (s.siteOf k) new) | none => .ok s)
  | 0x203 => match a.course? with
    | some k => .ok (s.modCourse k fun x => x.writeRstat new clr)
    | none => .ok s
  | 0x204 => match a.course? with
    | some k => .ok (s.modCourse k fun x => { x with rinject := new &&& rinjectMask })
    | none => .ok s
  | 0x700 => .ok (s.writeTsens new)
  | 0x702 => .ok (s.writeBoost new)
  | _ => .ok s

/-- A CSR form that writes: the old value goes to xd, the write is made by field access (R72, R73). -/
def State.csrModify (s : State) (d : Reg) (n : BitVec 12) (f : Word → Word) (clr : Word) : Res :=
  let old := s.csrRead s.cur n
  if n = 7 then .mask s (f old) [.toX d.val old] else
  match s.csrWrite (levelOf s.cur) s.cur n (f old) clr with
  | .ok s => .done s [.toX d.val old]
  | .error t => .trap t

/-- `csrr` (R72). -/
def execCsrr (d : Reg) (csr : BitVec 12) (s : State) : Host.Outcome State Fault Refusal :=
  issue (.csrr d csr) s fun s => .done s [.toX d.val (s.csrRead s.cur csr)]

/-- `csrw` (R72). -/
def execCsrw (d a : Reg) (csr : BitVec 12) (s : State) : Host.Outcome State Fault Refusal :=
  issue (.csrw d a csr) s fun s =>
    let v := (s.ctx s.cur).x a.val
    s.csrModify d csr (fun _ => v) v

/-- `csrs`: with x0 it writes nothing (R72). -/
def execCsrs (d a : Reg) (csr : BitVec 12) (s : State) : Host.Outcome State Fault Refusal :=
  issue (.csrs d a csr) s fun s =>
    let v := (s.ctx s.cur).x a.val
    if a.val = 0 then .done s [.toX d.val (s.csrRead s.cur csr)] else s.csrModify d csr (fun o => o ||| v) v

/-- `csrc`: it presents zero to W1C fields; with x0 it writes nothing (R72). -/
def execCsrc (d a : Reg) (csr : BitVec 12) (s : State) : Host.Outcome State Fault Refusal :=
  issue (.csrc d a csr) s fun s =>
    let v := (s.ctx s.cur).x a.val
    if a.val = 0 then .done s [.toX d.val (s.csrRead s.cur csr)] else s.csrModify d csr (fun o => o &&& ~~~v) 0

end Sys2Proof.Machine
end

