-- ==== Sys2Proof/Machine/Residue.lean ====
section
/-! DEFINITION. Residue channels (R142 to R160). -/

namespace Sys2Proof.Machine

open Sys2Proof

/-- Channel moduli (R142). -/
def moduli : List Nat := [977, 983, 991, 997, 1009, 1013, 1019, 1021]
/-- q_c (R142). -/
def modulus (c : Nat) : Nat := moduli.getD c 1

/-- The channels of the bands other than one. -/
def withoutBand (l : Nat) (cs : List Nat) : List Nat := cs.filter fun c => c / 2 != l

/-- W, the working channels of a mode (R143). -/
def working : RMode → List Nat
  | .normal => List.range 6
  | .ufull l => withoutBand l.val (List.range 8)
  | .cred l => withoutBand l.val (List.range 6)

/-- K, the check channels of a mode (R143). -/
def checks : RMode → List Nat
  | .ufull _ => []
  | _ => [6, 7]

/-- The product of the moduli of some channels. -/
def prodOf (cs : List Nat) : Nat := cs.foldl (fun p c => p * modulus c) 1

/-- b^e modulo p for e below 2^n. -/
def powMod (p : Nat) : Nat → Nat → Nat → Nat
  | 0, _, _ => 1
  | n + 1, b, e =>
    let h := powMod p n (b * b % p) (e / 2)
    if e % 2 = 1 then h * b % p else h

/-- The least nonnegative integer with given residues, with the product of the moduli so far. -/
def crtStep (x : Nat → Nat) : List Nat → Nat → Nat → Nat × Nat
  | [], v, q => (v, q)
  | c :: cs, v, q =>
    let p := modulus c
    let inv := powMod p 10 (q % p) (p - 2)
    let t := (x c + p - v % p) % p * inv % p
    crtStep x cs (v + q * t) (q * p)

/-- crt(S, x): the integer of least magnitude with the given residues (R149). -/
def crt (cs : List Nat) (x : Nat → Nat) : Int :=
  let (v, q) := crtStep x cs 0 1
  if (q - 1) / 2 < v then (v : Int) - q else v

/-- X mod q, in 0 to q − 1. -/
def residue (v : Int) (c : Nat) : Nat := (v % (modulus c : Int)).toNat

/-- Results of the check of one element (R149). -/
inductive ChkRes where
  | consistent
  | mismatch (c : Nat)
  | overflow
  deriving DecidableEq, Repr

/-- THE CHECK OF ONE ELEMENT (R149). -/
def checkElem (m : RMode) (x : Nat → Nat) : ChkRes :=
  let w := working m
  let k := checks m
  if k.isEmpty then .consistent
  else
    let v := crt w x
    if k.all fun c => x c == residue v c then .consistent
    else
      let half : Nat := (prodOf w - 1) / 2
      match ((List.range 8).filter fun c => w.contains c || k.contains c).find? fun c =>
        decide ((crt ((w ++ k).filter (· != c)) x).natAbs ≤ half) with
      | some c => .mismatch c
      | none => .overflow

/-- Channel c of an element whose band words are given, reduced (R142, R146). -/
def channel (word : Nat → W32) (c : Nat) : Nat :=
  ((word (c / 2)).toNat / 2 ^ (16 * (c % 2)) % 1024) % modulus c

/-- A band's word of a channel function (R146). -/
def bandWord (x : Nat → Nat) (j : Nat) : W32 := BitVec.ofNat 32 (x (2 * j) + 2 ^ 16 * x (2 * j + 1))

/-- The channels of element i of a quad. -/
def Ctx.elem (c : Ctx) (k : Quad) (i : Nat) : Nat → Nat :=
  channel fun j => lane (c.v (4 * k.val + j)) i

/-- The results that write a quad, from the channels of each element (R146). -/
def quadResults (d : Quad) (m : Word) (la : Nat) (f : Nat → Nat → Nat) : List Result :=
  (List.range 4).map fun j => .toV (4 * d.val + j) m (lanesOf fun i => bandWord (f i) j) la

/-- The residue mode of an agent's course (R143). -/
def State.rmodeOf (s : State) (a : Agent) : RMode :=
  match a.course? with
  | some n => (s.course n).rmode
  | none => .normal

/-- Element i of `rfwd`'s source (R155). -/
def fwdElem (c : Ctx) (wide : Bool) (a : Reg) (i : Nat) : Int :=
  if wide then
    let l := c.v (a.val + i / 32)
    (lane l (2 * (i % 32) + 1) ++ lane l (2 * (i % 32)) : BitVec 64).toInt
  else (lane (c.v a.val) i).toInt

/-- `rfwd` (R155). -/
def doRfwd (wide : Bool) (d : Quad) (a : Reg) (la : La) (m : Word) (s : State) : Res :=
  let c := s.ctx s.cur
  .done s (quadResults d m la.val fun i => residue (fwdElem c wide a i))

/-- `radd` and `rmul`: an operation channel by channel (R156). -/
def doRop (f : Nat → Nat → Nat) (d a : Quad) (b : RSrc) (m : Word) (s : State) : Res :=
  let c := s.ctx s.cur
  let y (i : Nat) : Nat → Nat := match b with
    | .q k => c.elem k i
    | .x r => residue (c.x r.val).toInt
  .done s (quadResults d m 0 fun i ch => f (c.elem a i ch) (y i ch) % modulus ch)

/-- What `rchk` leaves in `rstat` for one inconsistent element (R157). -/
def rstatNote (w : Word) (e : Nat × ChkRes) : Word :=
  let w := if w &&& 7#64 = 0 then (w &&& ~~~(0xFF000000#64)) ||| BitVec.ofNat 64 (at' e.1 24) else w
  match e.2 with
  | .mismatch c =>
    let w := if !w.getLsbD 8 then (w &&& ~~~(0xF00#64)) ||| BitVec.ofNat 64 (at' c 9 + 256)
             else if fld w 9 3 ≠ c then w ||| 4#64 else w
    w ||| 1#64
  | _ => w ||| 2#64

/-- `rchk` (R157). -/
def doRchk (d : Reg) (a : Quad) (la : La) (m : Word) (s : State) : Res :=
  let c := s.ctx s.cur
  let mode := s.rmodeOf s.cur
  let es := ((List.range 64).filter fun i => m.getLsbD i).map fun i => (i, checkElem mode (c.elem a i))
  let bad := es.filter fun e => e.2 != .consistent
  let inc := BitVec.ofNat 64 ((bad.map fun e => 2 ^ e.1).sum)
  let rstat := match s.cur.course? with | some n => (s.course n).rstat | none => 0
  let mm := bad.findSome? fun e => match e.2 with | .mismatch ch => some ch | _ => none
  match (if rstat.getLsbD 16 then mm else none) with
  | some ch => .trap (.at 0x07 (BitVec.ofNat 8 ch) inc)
  | none =>
    if rstat.getLsbD 17 && bad.any (fun e => e.2 == .overflow) then .trap (.at 0x08 0 inc)
    else
      let s := match s.cur.course? with
        | some n => s.modCourse n fun k => { k with rstat := bad.foldl rstatNote k.rstat }
        | none => s
      .done s [.toX d.val inc la.val]

/-- The channel set R of `rrev` (R158). -/
def revSet (mode : RMode) (e : Word) : List Nat :=
  let w := working mode
  ((checks mode).filter fun c => !e.getLsbD c).foldl
    (fun r c => if r.length < w.length then r ++ [c] else r) (w.filter fun c => !e.getLsbD c)

/-- `rrev` (R158). -/
def doRrev (d : Fin 16) (a : Quad) (b : Reg) (la : La) (m : Word) (s : State) : Res :=
  let c := s.ctx s.cur
  let r := revSet (s.rmodeOf s.cur) (c.x b.val)
  let y (i : Nat) : Word := BitVec.ofInt 64 (crt r (c.elem a i))
  let mask (h : Nat) : Word := maskOf fun j => m.getLsbD (32 * h + j / 2)
  let half (h : Nat) : Lanes :=
    lanesOf fun j => if j % 2 = 0 then (y (32 * h + j / 2)).setWidth 32 else (y (32 * h + j / 2) >>> 32).setWidth 32
  .done s [.toV (2 * d.val) (mask 0) (half 0) la.val, .toV (2 * d.val + 1) (mask 1) (half 1) la.val]

/-- `rbase` (R159). -/
def doRbase (d a : Quad) (band : Fin 4) (la : La) (m : Word) (s : State) : Res :=
  let c := s.ctx s.cur
  let mode := s.rmodeOf s.cur
  let set := withoutBand band.val (working mode ++ checks mode)
  .done s (quadResults d m la.val fun i ch =>
    let x := c.elem a i
    if ch / 2 = band.val then residue (crt set x) ch else x ch)

/-- Whether every band a mode needs is present (R160). -/
def modeAllowed (present : BitVec 4) : RMode → Bool
  | .normal => present == BitVec.allOnes 4
  | .ufull l => (List.range 4).all fun b => b == l.val || present.getLsbD b
  | .cred l => (List.range 4).all fun b => b == l.val || present.getLsbD b

/-- A course's answer to `rsel` (R160). -/
def Course.rsel (k : Course) (r : RMode) : Course :=
  if modeAllowed k.present r then { k with rmode := r } else { k with rstat := k.rstat ||| 16#64 }

/-- The mode change when a band leaves `ashape.present` (R145). -/
def Course.bandLost (k : Course) (b : Fin 4) : Course :=
  let k := { k with rstat := k.rstat ||| 8#64 }
  if k.rmode = .normal then
    { k with rmode := if h : b.val < 3 then .cred ⟨b.val, h⟩ else .ufull 3 }
  else k

/-- `rfwd` (R155). -/
def execRfwd (wide : Bool) (d : Quad) (a : Reg) (la : La) (g : PReg) (s : State) : Host.Outcome State Fault Refusal :=
  issueV (.rfwd wide d a la g) s (doRfwd wide d a la)

/-- `rrev` (R158). -/
def execRrev (d : Fin 16) (a : Quad) (b : Reg) (la : La) (g : PReg) (s : State) : Host.Outcome State Fault Refusal :=
  issueV (.rrev d a b la g) s (doRrev d a b la)

/-- `rchk` (R157). -/
def execRchk (d : Reg) (a : Quad) (la : La) (g : PReg) (s : State) : Host.Outcome State Fault Refusal :=
  issueV (.rchk d a la g) s (doRchk d a la)

/-- `radd` (R156). -/
def execRadd (d a : Quad) (b : RSrc) (g : PReg) (s : State) : Host.Outcome State Fault Refusal :=
  issueV (.radd d a b g) s (doRop (fun x y => x + y) d a b)

/-- `rmul` (R156). -/
def execRmul (d a : Quad) (b : RSrc) (g : PReg) (s : State) : Host.Outcome State Fault Refusal :=
  issueV (.rmul d a b g) s (doRop (fun x y => x * y) d a b)

/-- `rbase` (R159). -/
def execRbase (d a : Quad) (band : Fin 4) (la : La) (g : PReg) (s : State) : Host.Outcome State Fault Refusal :=
  issueV (.rbase d a band la g) s (doRbase d a band la)

/-- `rsel` (R160). -/
def execRsel (m : RMode) (g : PReg) (s : State) : Host.Outcome State Fault Refusal :=
  issue (.rsel m g) s fun s =>
    match s.cur.course? with
    | some n => .done (s.modCourse n fun k => k.rsel m) []
    | none => .done s []

end Sys2Proof.Machine
end

