-- ==== Sys2Proof/Machine/Time.lean ====
section
/-! DEFINITION. The passing of time (R6, R356 to R359): device time, each core's cycles at the clock step in force, and the
time of each region. -/

namespace Sys2Proof.Machine

open Sys2Proof

/-- Cycles of the arithmetic clock in a tenth of a nanosecond, in 80ths: 1.25, 1.375 and 1.5 GHz (R377). -/
def stepRate : Nat → Nat
  | 0 => 10
  | 1 => 11
  | _ => 12

/-- A core counts the cycles that pass, in 80ths (R357). A cycle that passes while its course runs, that `issuegap` does not make idle,
and in which nothing has issued, is one in which no context was ready: under greedy-then-oldest, none is current after it (R294,
R298). -/
def Core.elapse (k : Core) (still : Bool) (gap d : Nat) : Core :=
  let passed := (List.range (min 9 ((k.ltime80 + d) / 80 - k.ltime80 / 80))).map (k.ltime80 / 80 + ·)
  let idle := passed.any fun c => decide (gap ≤ c % 8) && k.issuedAt != some c
  { k with ltime80 := k.ltime80 + d, current := if idle && !still && !k.policy then none else k.current }

/-- A region's cores count cycles until their state is saved, and its time advances unless it or one of its courses is stopped
(R357, R358); a pre-empted region's time stands still, and no time of a migration stop counts (R359). -/
def State.advanceRegion (s : State) (u : Nat) (e : BitVec 16 × Region) : State :=
  let r := e.2
  if r.run = .running || r.run = .stopping then
    let still := r.run == .stopping || r.courses.any fun c => (s.course c).stopped
    let s := r.courses.foldl (fun s c =>
      (List.range 8).foldl (fun s k =>
        s.modCore (coreId c k) fun x => x.elapse still (s.block (s.siteOf c)).gap.toNat (u * stepRate (s.course c).step)) s) s
    s.modRegion e.1 fun r => if still then { r with still10 := r.still10 + u } else { r with gtime10 := r.gtime10 + u }
  else if r.run = .preempted then s.modRegion e.1 fun r => { r with still10 := r.still10 + u }
  else s

/-- The clocks of the courses advance at the steps in force (R6, R377). -/
def State.clocks (s : State) (u : Nat) : State :=
  { s with courses := s.courses.map fun (e : Nat × Course) => (e.1, { e.2 with clock80 := e.2.clock80 + u * stepRate e.2.step }) }

/-- Time passes, in tenths of a nanosecond. -/
def State.advance (s : State) (u : Nat) : State :=
  s.regions.foldl (fun s e => s.advanceRegion u e) (({ s with devTime := s.devTime + u } : State).clocks u)

end Sys2Proof.Machine
end

