-- ==== Sys2Proof/Machine/Array.lean ====
section
/-! DEFINITION. The joint matrix array (R120 to R141, R148, R153): joins, the job queue, loads, products, swaps, and the
switching of bands (R372). -/

namespace Sys2Proof.Machine

open Sys2Proof

/-! ### Formats (R121, R122, R148) -/

/-- Operand rows of one injection (R121). -/
def rowsPerInjection (win : Nat) : Nat := match win with | 5 => 2 | 6 => 4 | _ => 1

/-- Bytes of a weight row (R121, R148). -/
def weightBytes (win : Nat) : Nat :=
  match winDx win with
  | some f => 4 * dxBytes f
  | none => match win with | 1 => 1024 | 2 => 512 | _ => 256

/-- Bytes of an activation row, or of the record that holds a pair of rows (R121, R122). -/
def actBytes (win : Nat) : Nat :=
  match winDx win with
  | some f => dxBytes f
  | none => match win with | 0 => 32 | 2 => 64 | _ => 128

/-- Bytes of an output row of 32 results (R122). -/
def outBytes (win : Nat) : Nat := 32 * winSize win

/-- Whether an output window is one that a format accepts (R121, R148). -/
def acceptsOut (fmt out : Nat) : Bool :=
  match fmt with
  | 0 => out == 0
  | 7 => out == 7
  | _ => out == 1 || out == 2 || out == 3

/-- The i-th n-byte number of some bytes. -/
def elemAt (bs : List Byte) (n i : Nat) : Nat := bytesNat ((bs.drop (n * i)).take n)

/-- The 256 weights of a weight row (R121, R122, R148). -/
def decodeWeights (win : Nat) (bs : List Byte) : Lanes :=
  (List.range 256).map fun n =>
    match winDx win with
    | some f => dxDecode f (elemAt bs (dxBytes f) (n / 64)) (n % 64)
    | none => match win with
      | 0 => (BitVec.ofNat 8 (elemAt bs 1 n)).signExtend 32
      | 1 => BitVec.ofNat 32 (elemAt bs 4 n)
      | 2 => toF32 .rne (Fmt.b16.decode (elemAt bs 2 n))
      | _ => bandWord (residue (BitVec.ofNat 32 (elemAt bs 4 (n % 64))).toInt) (n / 64)

/-- The 32 activations of operand row m, from the bytes of the row or of its record (R121, R122). -/
def decodeActs (win m : Nat) (bs : List Byte) : Lanes :=
  (List.range 32).map fun i =>
    match winDx win with
    | some f => dxDecode f (bytesNat bs) (32 * (m % 2) + i)
    | none => match win with
      | 0 => (BitVec.ofNat 8 (elemAt bs 1 i)).signExtend 32
      | 2 => toF32 .rne (Fmt.b16.decode (elemAt bs 2 i))
      | _ => BitVec.ofNat 32 (elemAt bs 4 i)

/-! ### Order of sums (R116, R117, R148) -/

/-- The exact sum of products, rounded once, with its specials (R116). -/
def sliceSum (ps : List FVal) : W32 :=
  let isInf (n : Bool) (p : FVal) : Bool := match p with | .inf m => m == n | _ => false
  if ps.any (fun p => match p with | .nan => true | _ => false) || (ps.any (isInf true) && ps.any (isInf false)) then quietNaN
  else if ps.any (isInf false) then 0x7F800000
  else if ps.any (isInf true) then 0xFF800000
  else
    let t : Int := (ps.map fun p => match p with
      | .fin neg m e => signed neg (m * 2 ^ (e + 298).toNat)
      | _ => 0).sum
    toF32 .rne (FVal.ofInt (ps.all fun p => match p with | .fin neg m _ => neg && m == 0 | _ => false) t (-298))

/-- The weights that output o is made of in group k: column o of the rows of slice k, or with transpose row o in column
group k (R116, R129). -/
def groupWeights (w : List Lanes) (transpose : Bool) (k o : Nat) : Lanes :=
  (List.range 32).map fun j =>
    if transpose then lane (w.getD o []) (32 * k + j) else lane (w.getD (32 * k + j) []) o

/-- The fp32 result of output o: slices in order 0 to 7; a group outside the mask gives +0 (R116, R129). -/
def floatOut (w : List Lanes) (transpose : Bool) (groups : BitVec 8) (acts : List Lanes) (o : Nat) : W32 :=
  let p (k : Nat) : W32 :=
    if groups.getLsbD k then
      sliceSum ((groupWeights w transpose k o).zip (acts.getD k []) |>.map fun e => (f32 e.2).mul (f32 e.1))
    else 0
  (List.range 7).foldl (fun s k => fAdd .rne s (p (k + 1))) (p 0)

/-- The exact integer sum of output o (R117, R129). -/
def intOut (w : List Lanes) (transpose : Bool) (groups : BitVec 8) (acts : List Lanes) (o : Nat) : Int :=
  ((List.range 8).map fun k =>
    if groups.getLsbD k then
      ((groupWeights w transpose k o).zip (acts.getD k []) |>.map fun e => e.2.toInt * e.1.toInt).sum
    else 0).sum

/-- Channel h of the sum of column o of a residue job (R148). -/
def residueOut (w : List Lanes) (groups : BitVec 8) (acts : List Lanes) (o h : Nat) : Nat :=
  let half (x : W32) : Nat := x.toNat / 2 ^ (16 * (h % 2)) % 2 ^ 16
  ((List.range 8).map fun k =>
    if groups.getLsbD k then
      ((groupWeights w false k o).zip (acts.getD k []) |>.map fun e => residue e.2.toInt h * half e.1).sum
    else 0).sum % modulus h

/-- What an injection adds to a channel of a column (R153). -/
def injected (inj : Option Word) (row h col : Nat) : Nat :=
  match inj with
  | some w =>
    if fld w 57 3 = h && (w.getLsbD 56 || fld w 26 6 == col) && decide (fld w 32 16 ≤ row) then fld w 0 10 else 0
  | none => 0

/-- The output elements of core k for one operand row, as its output block takes them (R116, R117, R129, R135, R148, R153);
`old` gives the element that stands there. -/
def outRow (w : List Lanes) (j : Job) (x : Join) (acts : List Lanes) (row : Nat) (old : Nat → Nat) : List Nat :=
  (List.range 32).map fun c =>
    let o := 32 * x.core + c
    match j.awin with
    | 0 =>
      let v := intOut w j.transpose j.effGroups acts o
      (BitVec.ofInt 32 v + if j.acc then BitVec.ofNat 32 (old c) else 0).toNat
    | 7 =>
      let col := 32 * (x.core % 2) + c
      let ch (h : Nat) : Nat :=
        let v := residueOut w j.effGroups acts (64 * (x.core / 2) + col) h + injected j.inject row h col
        (v + if j.acc then (BitVec.ofNat 32 (old c)).toNat / 2 ^ (16 * (h % 2)) % 1024 else 0) % modulus h
      (bandWord ch (x.core / 2)).toNat
    | _ =>
      let v := floatOut w j.transpose j.effGroups acts o
      let v := if x.scale = 0x3F800000 then v else fMul .rne v x.scale
      winEncode j.owin (if j.acc then fAdd .rne (winDecode j.owin (old c)) v else v)

/-! ### Joins (R125, R126, R133, R134, R137) -/

/-- The window of a block's address: 0 outside the aperture (R121). -/
def blockWin (va : Word) : Nat := winOf va

/-- The check that a block lies in the program part of the issuing core's own slice (R133, R134, R161). -/
def State.ownBlock (s : State) (core : Nat) (va : Word) (n : Nat) : Option Trap :=
  if !inAperture va || apCore va != s.cidOf core || decide (progEnd ≤ apOff va) then some (.at 0x06 5 va)
  else if progEnd < apOff va + n then some (.at 0x06 5 (va + BitVec.ofNat 64 (progEnd - apOff va)))
  else none

/-- The first value that is not a multiple of 8. -/
def misaligned8 (vs : List Word) : Option Trap := (vs.find? fun v => v.toNat % 8 != 0).map fun v => .at 0x01 0 v

/-- The checks of `mload` (R133). -/
def State.checkMload (s : State) (core : Nat) (xa : Word) (c : MloadCmd) : Option Trap :=
  (misaligned8 [xa, c.stride.setWidth 64]).or
    (if blockWin xa = 3 then some (.at 0x06 3 xa)
     else s.ownBlock core xa (31 * c.stride.toNat + weightBytes (blockWin xa)))

/-- The checks of `mgo` at step 5 of R47 (R134); its row counts are checked at step 3 (`Ctx.wrongPhase`). -/
def State.checkMgo (s : State) (core : Nat) (xa xb : Word) (c : MgoCmd) : Option Trap :=
  let wa := blockWin xa
  let wb := blockWin xb
  let rows := c.rows.toNat
  let records := if (winDx wa).isSome then rows / 2 else rows
  (misaligned8 [xa, xb, c.astride.setWidth 64, c.ostride.setWidth 64]).or
    (if wa = 3 then some (.at 0x06 3 xa)
     else if (winDx wb).isSome then some (.at 0x06 3 xb)
     else (s.ownBlock core xa ((records - 1) * c.astride.toNat + actBytes wa)).or
       (s.ownBlock core xb ((rows - 1) * c.ostride.toNat + outBytes wb)))

/-- Whether an entry waits for more joins. -/
def Job.waiting (j : Job) : Bool := decide (j.joins.length < 8)

/-- Whether a join of a core goes to an entry: one of its kind and tag that waits and that the core has not joined (R125). -/
def Job.takes (j : Job) (n : Job) (core : Nat) : Bool :=
  j.kind == n.kind && (n.kind == .swap || j.tag == n.tag) && j.waiting && !(j.joins.any fun x => x.core == core)

/-- Whether the joins of an entry agree (R125). -/
def Job.agrees (j n : Job) : Bool :=
  j.transpose == n.transpose && j.acc == n.acc && j.rows == n.rows && j.groups == n.groups && j.bands == n.bands &&
    j.awin == n.awin && j.owin == n.owin

/-- Adds a join, given as an entry of one join, to the queue: the identifier of its entry, and the course (R124, R125). -/
def Course.join (k : Course) (n : Job) (core : Nat) : BitVec 12 × Course :=
  match k.jobs.find? fun j => j.takes n core with
  | some e =>
    let add (j : Job) : Job := { j with joins := j.joins ++ n.joins, disagree := j.disagree || !j.agrees n }
    (e.id, { k with jobs := modFirst (fun j => j.takes n core) add k.jobs })
  | none =>
    if n.kind = .swap then (0, { k with jobs := k.jobs ++ [n] })
    else (k.nextId, { k with jobs := k.jobs ++ [{ n with id := k.nextId }], nextId := k.nextId + 1 })

/-- Whether a join would create a ninth entry (R126). -/
def Course.queueFull (k : Course) (n : Job) (core : Nat) : Bool :=
  decide (8 ≤ k.jobs.length) && !(k.jobs.any fun j => j.takes n core)

/-- An entry with nothing joined. -/
def Job.blank (kind : JobKind) : Job :=
  { id := 0, kind := kind, tag := 0, transpose := false, acc := false, rows := 0, groups := 0, bands := 0, awin := 0,
    owin := 0, disagree := false, joins := [], started := false, status := 0, effGroups := 0, effBands := 0, row := 0,
    startCycle := 0, armed := false, inject := none }

/-- The join of a context of a core, once its checks are passed: queue room, a completion place for a load or product, and
the release toward the array (R126, R226, R260). -/
def State.joinArray (s : State) (course core : Nat) (n : Job) (d : Option Reg) : Res :=
  let dev := coreId course core
  if (s.course course).queueFull n core then .wait (s.park s.cur .array)
  else if n.kind != .swap && !s.placeFree dev then .wait (s.park s.cur .reserve)
  else if !s.performed s.cur false then .wait (s.stall s.cur)
  else
    let r := (s.course course).join n core
    let s := s.setCourse course r.2
    .done (if n.kind = .swap then s else s.reserve dev)
      (match d with | some d => [.toX d.val (r.1.setWidth 64)] | none => [])

/-- `mload` (R133). -/
def execMload (d a : Reg) (c : MloadCmd) (g : PReg) (s : State) : Host.Outcome State Fault Refusal :=
  issue (.mload d a c g) s fun s =>
    match s.cur with
    | .ctx n k t =>
      let xa := (s.ctx s.cur).x a.val
      match s.checkMload (coreId n k) xa c with
      | some x => .trap x
      | none => s.joinArray n k { Job.blank .load with
          tag := c.tag, awin := blockWin xa, joins := [⟨k, t, xa, 0, c.stride, 0, 0, c.swz, 0⟩] } (some d)
    | _ => .done s []

/-- `mswap` (R137). -/
def execMswap (g : PReg) (s : State) : Host.Outcome State Fault Refusal :=
  issue (.mswap g) s fun s =>
    match s.cur with
    | .ctx n k t => s.joinArray n k { Job.blank .swap with joins := [⟨k, t, 0, 0, 0, 0, 0, 0, 0⟩] } none
    | _ => .done s []

/-- `mgo` (R134). -/
def execMgo (transpose acc : Bool) (d a b : Reg) (c : MgoCmd) (g : PReg) (s : State) :
    Host.Outcome State Fault Refusal :=
  issue (.mgo transpose acc d a b c g) s fun s =>
    match s.cur with
    | .ctx n k t =>
      let xa := (s.ctx s.cur).x a.val
      let xb := (s.ctx s.cur).x b.val
      match s.checkMgo (coreId n k) xa xb c with
      | some x => .trap x
      | none => s.joinArray n k { Job.blank .product with
          tag := c.tag, transpose := transpose, acc := acc, rows := c.rows.toNat, groups := c.groups, bands := c.bands,
          awin := blockWin xa, owin := blockWin xb,
          joins := [⟨k, t, xa, xb, c.astride, c.ostride, c.scale, c.aswz, c.oswz⟩] } (some d)
    | _ => .done s []

/-! ### Shape and status (R131, R138, R139) -/

/-- Bands of a mask. -/
def bandsOf (m : BitVec 4) : List Nat := (List.range 4).filter fun b => m.getLsbD b

/-- Marks a band empty in both planes (R123). -/
def Course.emptyBand (k : Course) (band : Nat) : Course :=
  { k with station := { k.station with empty := k.station.empty ||| 1#4 <<< band },
           shadow := { k.shadow with empty := k.shadow.empty ||| 1#4 <<< band } }

/-- Whether a started job's effective set holds a band (R138). -/
def Course.holdsBand (k : Course) (band : Nat) : Bool := k.jobs.any fun j => j.started && j.effBands.getLsbD band

/-- A plane whose weights in a band's columns are lost: what the columns hold then is open, and free values stand there (R138; log
entry 35). -/
def Plane.lose (p : Plane) (band i : Nat) : Plane :=
  { p with w := p.w.zipIdx.map fun e => (List.range 256).map fun n =>
      if n / 64 = band then Config.freeWeight i e.2 n else lane e.1 n }

/-- A plane that is tagged empty and whose contents are undefined: free values (R133; log entry 35). -/
def Plane.undefined (i : Nat) : Plane :=
  { Plane.none with w := (List.range 256).map fun r => (List.range 256).map fun n => Config.freeWeight i r n }

/-- The shadow plane after a load that did not write it (R133, R136). -/
def Course.loseShadow (k : Course) : Course := { k with shadow := Plane.undefined k.lost, lost := k.lost + 1 }

/-- Takes the power of a switched-off band that no started job holds: the band loses the weights of both planes in its columns
(R138). The number makes the free values distinct. -/
def Course.powerOff (k : Course) (band : Nat) : Course :=
  if k.leaving.getLsbD band && !k.holdsBand band then
    let k := k.emptyBand band
    { k with leaving := k.leaving &&& ~~~(1#4 <<< band), lost := k.lost + 2,
             station := k.station.lose band k.lost, shadow := k.shadow.lose band (k.lost + 1) }
  else k

/-- A course whose bands' power has been removed wherever it is due (R138): what happens to the planes or to `on` finds it so,
whether or not BAND_POWER_OFF has been named. -/
def Course.settleBands (k : Course) : Course := (List.range 4).foldl Course.powerOff k

/-- A course after `mshape` asks for some bands, at a device time, with which its clock is noted (R138, R372). Switching on again a
band whose power a started job still keeps cancels the removal, and switching off a band that is pending ends its switch-on (log
entry 70). -/
def Course.mshape (k : Course) (want : BitVec 4) (now : Nat) : Course :=
  let k := k.settleBands
  let on := want &&& k.present
  let up := on &&& ~~~k.on
  let down := k.on &&& ~~~on
  { k with on := on, pending := (k.pending ||| up) &&& on, leaving := (k.leaving ||| down) &&& ~~~up,
           switching := (k.switching.filter fun e => !down.getLsbD e.1) ++ (bandsOf up).map fun b => (b, now, k.clock80),
           began := k.began.filter fun e => !down.getLsbD e.1 }

/-- `mshape` (R138). -/
def execMshape (d a : Reg) (g : PReg) (s : State) : Host.Outcome State Fault Refusal :=
  issue (.mshape d a g) s fun s =>
    match s.cur.course? with
    | some n =>
      .done (s.modCourse n fun k => k.mshape (((s.ctx s.cur).x a.val).setWidth 4) s.devTime)
        [.toX d.val (s.course n).ashape]
    | none => .done s [.toX d.val 0]

/-- The state word of an entry (R139). -/
def Job.statWord (j : Job) : Word :=
  let joined := (j.joins.map fun x => 2 ^ x.core).sum
  BitVec.ofNat 64 (at' j.tag.toNat 32 + at' (j.row % 2 ^ 16) 16 + at' (if j.kind = .load then 1 else 2) 12 +
    at' (joined % 256) 4 + (if j.waiting then 1 else if j.started then 3 else 2))

/-- `mstat` (R139). -/
def execMstat (d a : Reg) (g : PReg) (s : State) : Host.Outcome State Fault Refusal :=
  issue (.mstat d a g) s fun s =>
    let id : BitVec 12 := ((s.ctx s.cur).x a.val).setWidth 12
    let e := match s.cur.course? with
      | some n => (s.course n).jobs.find? fun (j : Job) => j.kind != JobKind.swap && j.id == id
      | none => none
    .done s [.toX d.val (match e with | some j => j.statWord | none => 0)]

/-! ### Starting, running and completing (R127 to R136) -/

/-- Changes the i-th entry of a course's queue. -/
def State.modJob (s : State) (course i : Nat) (f : Job → Job) : State :=
  s.modCourse course fun k => { k with jobs := k.jobs.modify i f }

/-- Cycles of a course. -/
def State.courseCycles (s : State) (course : Nat) : Nat := (s.core (course * 8)).ltime80 / 80

/-- Whether the i-th entry may start or be performed (R127). -/
def Course.mayStart (k : Course) (i : Nat) (j : Job) : Bool :=
  let before := k.jobs.take i
  !j.waiting && !j.started && !(before.any fun e => e.kind == .swap) &&
    (if j.kind = .swap then before.isEmpty else !(before.any fun e => e.kind == j.kind))

/-- Column groups of some bands (R130). -/
def groupsOf (bands : BitVec 4) : BitVec 8 := BitVec.ofNat 8 ((bandsOf bands).map fun b => 3 * 4 ^ b).sum

/-- The effective sets of a product (R130): bands, groups. -/
def Job.effective (j : Job) (on : BitVec 4) : BitVec 4 × BitVec 8 :=
  let b := j.bands &&& on
  (b, if j.transpose then j.groups &&& groupsOf b else j.groups)

/-- Whether a product passes its start checks against the stationary plane (R123, R129, R134). -/
def Job.fits (j : Job) (p : Plane) (bands : BitVec 4) : Bool :=
  p.fmt == some j.awin && acceptsOut j.awin j.owin && !(j.awin == 7 && j.transpose) && bands &&& p.empty == 0

/-- An entry as it starts (R125, R127, R130, R133, R134, R153). Joins that disagree are found at the entry's turn in the order of
R127 (log entry 71). -/
def Job.start (j : Job) (k : Course) (cycle : Nat) : Job :=
  if j.disagree then { j with status := 2 }
  else if j.kind = .load then { j with started := true, startCycle := cycle, effGroups := 0xFF, effBands := k.present }
  else
    let e := j.effective k.on
    let j := { j with started := true, startCycle := cycle, effBands := e.1, effGroups := e.2 }
    if !j.fits k.station e.1 then { j with status := 3 }
    else { j with status := if e.1 = j.bands && e.2 = j.groups then 0 else 1,
                  armed := j.awin == 7 && k.rinject.getLsbD 63 }

/-- Whether an entry has ended: it only waits to complete. -/
def Job.isOver (j : Job) : Bool :=
  decide (2 ≤ j.status) || (j.started && (j.kind == .load || decide (j.rows ≤ j.row)))

/-- Whether a course runs (R141). -/
def State.courseRuns (s : State) (course : Nat) : Bool := s.moving (.ctx course 0 0)

/-- ARRAY_JOB_START (R127, R130). -/
def execArrayJobStart (course i : Nat) (s : State) : Host.Outcome State Fault Refusal :=
  let k := (s.course course).settleBands
  .next <| match k.jobs[i]? with
  | some j =>
    if s.courseRuns course && j.kind != .swap && k.mayStart i j && j.status == 0 &&
        (j.kind == .load || j.disagree || j.bands &&& k.pending == 0)
    then (s.setCourse course k).modJob course i fun j => j.start k (s.courseCycles course)
    else s
  | none => s

/-- Location of a row of a core's block (R122). -/
def rowLoc (course : Nat) (core : Nat) (base : Word) (stride : W32) (row : Nat) : Nat :=
  Home.loc (.slice (coreId course core) (apOff base + row * stride.toNat))

/-- Whether every byte of a block's row has a swizzle tag (R136). -/
def State.rowTagged (s : State) (loc n : Nat) (swz : BitVec 3) : Bool :=
  s.tagOf loc == swz && s.tagOf (loc + n - 1) == swz

/-- The join of core k. -/
def Job.joinOf (j : Job) (k : Nat) : Option Join := j.joins.find? fun x => x.core == k

/-- Where a core's activations of an operand row lie, with their bytes (R122). -/
def Job.actLoc (j : Job) (course : Nat) (x : Join) (row : Nat) : Nat × Nat :=
  (rowLoc course x.core x.a x.stride (if (winDx j.awin).isSome then row / 2 else row), actBytes j.awin)

/-- Where a core's outputs of an operand row lie, with their bytes (R122). -/
def Job.outLoc (j : Job) (course : Nat) (x : Join) (row : Nat) : Nat × Nat :=
  (rowLoc course x.core x.b x.ostride row, outBytes j.owin)

/-- Joins whose activations a row reads. -/
def Job.readers (j : Job) : List Join := j.joins.filter fun x => j.effGroups.getLsbD x.core

/-- Joins whose outputs a row writes (R129, R130). -/
def Job.writers (j : Job) : List Join := j.joins.filter fun x => j.transpose || j.effBands.getLsbD (x.core / 2)

/-- The outputs of a job that has consumed an uncorrectable error are undefined: free values (R136; log entry 18). -/
def State.freeOutputs (s : State) (course : Nat) (j : Job) : State :=
  (List.range j.rows).foldl (fun s row => j.writers.foldl (fun s x =>
    let o := j.outLoc course x row
    (List.range (o.2 / 8)).foldl (fun s i =>
      s.tick.land ⟨o.1 + 8 * i, natBytes 8 (Config.freeWord s.freeCount).toNat, j.owin, 0⟩
        (s.fromAgent 2 (.ctx course x.core x.tid)) []) s) s) s

/-- Whether an operand row consumes an uncorrectable error (R136). -/
def State.rowError (s : State) (course : Nat) (j : Job) (row : Nat) : Bool :=
  (j.readers.any fun x => let e := j.actLoc course x row; s.poisoned e.1 e.2) ||
    (j.acc && j.writers.any fun x => let e := j.outLoc course x row; s.poisoned e.1 e.2)

/-- Whether a slice port holds back the outputs of some operand rows (R214, R340). -/
def State.rowsShut (s : State) (course : Nat) (j : Job) (rows : List Nat) : Bool :=
  rows.any fun row => j.writers.any fun x =>
    let o := j.outLoc course x row
    s.portShut (.ctx course x.core x.tid) o.1 o.2

/-- The accumulators after an operand row (R48): the spec gives no value that they hold (log entry 68). -/
def State.accumulate (s : State) (course : Nat) : State :=
  s.tick.modCourse course fun k => { k with
    acc := (List.range 256).map fun i => (List.range 256).map fun n => Config.freeAcc s.freeCount i n }

/-- One operand row of the i-th job: its reads are checked, and its outputs written, or the job ends (R116, R122, R136).
The trace takes a row as one arriving write (log entry 82). -/
def State.arrayRow (s : State) (course i : Nat) : State :=
  match (s.course course).jobs[i]? with
  | some j =>
    if j.isOver then s
    else
      let row := j.row
      let reads := j.readers.map fun x => (x, j.actLoc course x row)
      let outs := j.writers.map fun x => (x, j.outLoc course x row)
      let tagged := reads.all (fun e => s.rowTagged e.2.1 e.2.2 e.1.aswz) && outs.all fun e => s.rowTagged e.2.1 e.2.2 e.1.oswz
      if !tagged then s.modJob course i fun j => { j with status := 6 }
      else if s.rowError course j row then
        (s.freeOutputs course j).modJob course i fun j => { j with status := 9 }
      else
        let acts := (List.range 8).map fun k =>
          match reads.find? fun e => e.1.core == k with
          | some e => decodeActs j.awin row (s.homeBytes e.2.1 e.2.2)
          | none => []
        let n := winSize j.owin
        let w := (s.course course).station.w
        let s := s.accumulate course
        let s := outs.foldl (fun s e =>
          let v := outRow w j e.1 acts row fun c => bytesNat (s.homeBytes (e.2.1 + n * c) n)
          s.land ⟨e.2.1, v.flatMap (natBytes n), j.owin, 0⟩ (s.fromAgent 2 (.ctx course e.1.core e.1.tid)) []) s
        s.modJob course i fun j => { j with row := row + 1 }
  | none => s

/-- A job at its next injection: bands that have left `present` drop out (R141), and the first one takes an armed injection, as
`rinject` stands then, whatever the row's own tag and error checks then find (R153; log entry 73). -/
def State.beforeRow (s : State) (course i : Nat) (j : Job) : State :=
  let k := s.course course
  let bands := j.effBands &&& k.present
  let groups := if j.transpose then j.effGroups &&& groupsOf bands else j.effGroups
  let take := j.armed && j.row == 0 && k.rinject.getLsbD 63
  let s := s.modJob course i fun j =>
    { j with effBands := bands, effGroups := groups, armed := false,
             status := if bands = j.effBands && groups = j.effGroups then j.status else 1,
             inject := if take then some k.rinject else j.inject }
  if take then s.modCourse course fun k => { k with rinject := k.rinject &&& ~~~(0x8000000000000000#64) } else s

/-- ARRAY_INJECTION: a running product makes its next injection (R128, R141). A row waits while the commit token holds a
port (R214). -/
def execArrayInjection (course i : Nat) (s : State) : Host.Outcome State Fault Refusal :=
  .next <| match (s.course course).jobs[i]? with
  | some j =>
    if j.kind != .product || !j.started || j.isOver || !s.courseRuns course then s
    else
      let rows := (List.range (rowsPerInjection j.awin)).map (j.row + ·)
      if s.rowsShut course j (if rows.any (s.rowError course j) then List.range j.rows else rows) then s
      else rows.foldl (fun s _ => s.arrayRow course i) (s.beforeRow course i j)
  | none => s

/-- The shadow plane that a load writes: bands outside `present` keep their columns and are marked empty (R123, R133). -/
def State.loadPlane (s : State) (course : Nat) (j : Job) (present : BitVec 4) : Plane :=
  let old := (s.course course).shadow.w
  { fmt := some j.awin, empty := ~~~present,
    w := (List.range 256).map fun i =>
      match j.joinOf (i / 32) with
      | some x =>
        let new := decodeWeights j.awin (s.homeBytes (rowLoc course x.core x.a x.stride (i % 32)) (weightBytes j.awin))
        (List.range 256).map fun n => if present.getLsbD (n / 64) then lane new n else lane (old.getD i []) n
      | none => old.getD i [] }

/-- A load's rows with their bytes. -/
def Job.loadRows (j : Job) (course : Nat) : List (Join × Nat) :=
  j.joins.flatMap fun x => (List.range 32).map fun r => (x, rowLoc course x.core x.a x.stride r)

/-- A load that ends: the shadow plane is written, or is tagged empty with its contents undefined, which are free values (R133, R136;
log entry 35). -/
def State.finishLoad (s : State) (course i : Nat) (j : Job) : State :=
  let n := weightBytes j.awin
  let present := (s.course course).present
  let rows := j.loadRows course
  let fail (st : Nat) := (s.modCourse course Course.loseShadow).modJob course i fun j =>
    { j with status := st, effBands := 0 }
  let s := s.modCourse course Course.settleBands
  if !j.started then fail j.status
  else if !(rows.all fun e => s.rowTagged e.2 n e.1.aswz) then fail 6
  else if rows.any fun e => s.poisoned e.2 n then fail 9
  else
    (s.modCourse course fun k => { k with shadow := s.loadPlane course j present }).modJob course i fun j =>
      { j with status := if present = BitVec.allOnes 4 then 0 else 1, effBands := present }

/-- Payload of an array completion (R136). -/
def Job.payload (j : Job) (cycles : Nat) : Word :=
  BitVec.ofNat 64 (at' (if j.started then cycles % 2 ^ 32 else 0) 32 + at' j.effGroups.toNat 24 + at' j.effBands.toNat 20 +
    at' (j.status % 16) 16 + at' (if j.kind = .load then 1 else 2) 12 + j.id.toNat)

/-- Posts an entry's completions to the contexts that joined it (R136). -/
def State.postJob (s : State) (course : Nat) (j : Job) : State :=
  let p := j.payload (s.courseCycles course - j.startCycle)
  j.joins.foldl (fun s x => s.complete (coreId course x.core) x.tid j.tag p) s

/-- An `mload` or `mswap` of a core has been performed since the keystone (R355). -/
def State.markArray (s : State) (course : Nat) (j : Job) : State :=
  if !j.started && j.kind == .load then s
  else j.joins.foldl (fun s x => s.modCore (coreId course x.core) fun k => { k with journal := { k.journal with array := true } }) s

/-- ARRAY_JOB_COMPLETION: a job that has ended leaves the queue and posts its completions (R124, R136). -/
def execArrayJobCompletion (course i : Nat) (s : State) : Host.Outcome State Fault Refusal :=
  .next <| match (s.course course).jobs[i]? with
  | some j =>
    if j.kind == .swap || !j.isOver || !s.courseRuns course then s
    else
      let s := if j.kind = .load then (s.finishLoad course i j).markArray course j else s
      let j := ((s.course course).jobs[i]?).getD j
      (s.modCourse course fun k => { k with jobs := dropAt i k.jobs }).postJob course j
  | none => s

/-- ARRAY_SWAP: a ready swap exchanges the planes (R127, R137). -/
def execArraySwap (course i : Nat) (s : State) : Host.Outcome State Fault Refusal :=
  let k := s.course course
  .next <| match k.jobs[i]? with
  | some j =>
    if j.kind == .swap && k.mayStart i j && s.courseRuns course then
      (s.modCourse course fun k =>
        let k := k.settleBands
        { k with station := k.shadow, shadow := k.station, jobs := dropAt i k.jobs }).markArray course j
    else s
  | none => s

/-- Contexts of a course that are parked for room in the array's queue. -/
def State.arrayParked (s : State) (course : Nat) : Bool :=
  (s.ctxsIn course).any fun a => (s.ctx a).park == some .array

/-- ARRAY_ABANDON: eight entries, none of them ready, and a parked join: the oldest entry is abandoned (R126). -/
def execArrayAbandon (course : Nat) (s : State) : Host.Outcome State Fault Refusal :=
  let k := s.course course
  .next <| match k.jobs with
  | j :: rest =>
    if decide (8 ≤ k.jobs.length) && k.jobs.all Job.waiting && s.arrayParked course && s.courseRuns course then
      let s := s.modCourse course fun k => { k with jobs := rest }
      if j.kind = .swap then s
      else
        let s := if j.kind = .load then s.modCourse course Course.loseShadow else s
        s.postJob course { j with status := 4 }
    else s
  | [] => s

/-- ARRAY_JOIN_RETRY: an entry has left the queue for a parked join (R126). -/
def execArrayJoinRetry (a : Agent) (s : State) : Host.Outcome State Fault Refusal :=
  .next <| match (s.ctx a).park, a.course? with
  | some .array, some n => if (s.course n).jobs.length < 8 then s.unpark a else s
  | _, _ => s

/-! ### Bands (R131, R138, R372) -/

/-- Whether a number of cycles has passed on a course's clock since it showed a count, at the clock steps in force since (R6,
R377). -/
def Course.cyclesPast (k : Course) (from80 n : Nat) : Bool := decide (from80 + n * 80 ≤ k.clock80)

/-- Courses of an ashlar. -/
def coursesOf (ashlar : Nat) : List Nat := (List.range 32).map fun i => ashlar * 32 + i

/-- Whether a band of an ashlar that may switch on now comes before one of a course whose `mshape` performed at t (R372): its
16 cycles have passed, and it is earlier in the order. -/
def State.beforeInTurn (s : State) (course t band : Nat) : Bool :=
  (coursesOf (course / 32)).any fun c => (s.course c).switching.any fun e => (s.course c).cyclesPast e.2.2 16 &&
    (decide (e.2.1 < t) || (e.2.1 == t && (decide (s.siteOf c < s.siteOf course) || (c == course && decide (e.1 < band)))))

/-- Bands of an ashlar that began to switch on in this cycle (R372). -/
def State.beganNow (s : State) (ashlar : Nat) : Nat :=
  ((coursesOf ashlar).map fun c => ((s.course c).began.filter fun e => e.2.1 / 8 == s.devTime / 8).length).sum

/-- BAND_SWITCH_ON: 16 cycles after its `mshape`, in its turn, at most four of an ashlar in a cycle (R372). -/
def execBandSwitchOn (course : Nat) (band : Fin 4) (s : State) : Host.Outcome State Fault Refusal :=
  .next <| match Map.find (s.course course).switching band.val with
  | some (t, from80) =>
    if (s.course course).cyclesPast from80 16 && !s.beforeInTurn course t band.val && decide (s.beganNow (course / 32) < 4) then
      s.modCourse course fun k =>
        { k with switching := Map.erase k.switching band.val, began := Map.set k.began band.val (s.devTime, k.clock80) }
    else s
  | none => s

/-- BAND_PENDING_CLEAR: 1,250 cycles after its switch-on began (R131, R138). -/
def execBandPendingClear (course : Nat) (band : Fin 4) (s : State) : Host.Outcome State Fault Refusal :=
  .next <| match Map.find (s.course course).began band.val with
  | some (_, from80) =>
    if (s.course course).cyclesPast from80 1250 then
      s.modCourse course fun k =>
        { k with began := Map.erase k.began band.val, pending := k.pending &&& ~~~(1#4 <<< band.val) }
    else s
  | none => s

/-- BAND_POWER_OFF: no started job whose effective set holds the band is left (R138). -/
def execBandPowerOff (course : Nat) (band : Fin 4) (s : State) : Host.Outcome State Fault Refusal :=
  .next (s.modCourse course fun k => k.powerOff band.val)

/-! ### The capture of a pause (R141) -/

/-- The rows of a plane that core k's save area holds. -/
def Plane.rowsOf (p : Plane) (k : Nat) : List Lanes := (p.w.drop (32 * k)).take 32

/-- The array's state is captured into the eight matrix save areas: weight rows 32k to 32k + 31 of both planes in slice k, and an
eighth of the rest (R141, R189). -/
def State.captureArray (s : State) (course : Nat) : State :=
  let c := s.course course
  (List.range 8).foldl (fun s k => s.tick.modCore (coreId course k) fun x =>
    { x with matrix := ⟨c.station.rowsOf k, c.shadow.rowsOf k, some s.freeCount, []⟩ }) s

/-- The weights of a plane as the eight save areas hold them. -/
def rowsFrom (areas : List (List Lanes)) : List Lanes :=
  if areas.all List.isEmpty then [] else areas.flatMap fun a => (List.range 32).map fun i => a.getD i []

/-- The array takes its planes' weights back from the save areas (R141). The rest of the capture, whose layout in the areas the
spec does not give, has stayed with the course (log entry 39). -/
def State.restoreArray (s : State) (course : Nat) : State :=
  let m := (List.range 8).map fun k => (s.core (coreId course k)).matrix
  s.modCourse course fun c => { c with station := { c.station with w := rowsFrom (m.map (·.station)) },
                                       shadow := { c.shadow with w := rowsFrom (m.map (·.shadow)) } }

/-! ### Plinth and CSR writes as steps of the device -/

/-- CADENCE_WRITE: a plinth write of a site's `cadence`, which watches are told of (R132, R364). -/
def execCadenceWrite (site : Nat) (v : Word) (s : State) : Host.Outcome State Fault Refusal :=
  .next ((s.writeCadence site v).regWritten (0x10000 + 64 * site))

/-- ISSUEGAP_WRITE: a plinth write of a site's `issuegap`, which watches are told of (R364, R374). -/
def execIssuegapWrite (site : Nat) (v : Word) (s : State) : Host.Outcome State Fault Refusal :=
  .next ((s.writeGap site v).regWritten (0x10008 + 64 * site))

/-- RSTAT_WRITE: a write of a course's `rstat` (R151). -/
def execRstatWrite (course : Nat) (v : Word) (s : State) : Host.Outcome State Fault Refusal :=
  .next (s.modCourse course fun k => k.writeRstat v v)

end Sys2Proof.Machine
end

