-- ==== Sys2Proof/Machine/Schedule.lean ====
section
/-! DEFINITION. Which context may issue (R289, R293, R374) and which one a core selects (R297 to R302); what each context's
next instruction is, and how a gang follows its leader (R303). -/

namespace Sys2Proof.Machine

open Sys2Proof

/-- Whether a chunk has reached the limit at which the device closes it: 512 instructions, or 64 once a signature has
recorded 128 lines, and 64 under the token (R211, R214). -/
def State.chunkFull (s : State) (a : Agent) : Bool :=
  let g := s.group a
  let count := (s.ctx a).chunk.count
  let reads := g.foldl (fun l b => addLines l (s.ctx b).chunk.reads) []
  let writes := g.foldl (fun l b => addLines l (s.ctx b).chunk.writes) []
  let token := match a.course? with | some c => (s.course c).token.isSome && s.mayCommit a | none => false
  decide (512 ≤ count) || (decide (64 ≤ count) && (decide (128 ≤ reads.length) || decide (128 ≤ writes.length) || token))

/-- Whether a context waits for the commit token: its chunk has been squashed four times in succession, and another chunk holds
the token (R214). -/
def State.awaitsToken (s : State) (a : Agent) : Bool :=
  let c := s.ctx a
  decide (4 ≤ c.chunk.squashes) && !c.chunkOpen && !s.mayCommit a

/-- Whether an instruction waits on the scoreboard: it names a register whose result has not landed outside its window
(R295). -/
def Ctx.scoreboard (c : Ctx) (i : Instr) : Bool := i.names.any c.blocked

/-- Registers an instruction names that the core's register file does not hold (R291); x0 and a register in stream mode need no
entry. -/
def State.missingRegs (s : State) (a : Agent) (i : Instr) : List RegRef :=
  match a.core? with
  | some n =>
    (i.names.filter fun r => (r.1 == .v || (r.1 == .x && r.2 != 0)) && ((s.ctx a).bound? r.1 r.2).isNone &&
      !((s.core n).rfile.any fun e => e.tid == a.tid && e.kind == r.1 && e.reg == r.2)).eraseDups
  | none => []

/-- Whether the quoin of a course works at an invalidation, as in a `tlbi`, and issues nothing else (R323, R326). -/
def State.invalidating (s : State) (course : Nat) : Bool := s.invals.any fun v => v.waits.any fun w => w.1 == course && w.2

/-- Whether a context may issue, its next instruction's registers and scoreboard and the order of a `replay` apart: it runs, is not
parked, its chunk waits for no commit and for no token, and its course and region are not stopped (R289, R293); the quoin of a
disabled site runs nothing, nor does any in the safe state (R2, R398). -/
def State.unblocked (s : State) (a : Agent) : Bool :=
  let c := s.ctx a
  c.run == 0 && c.park.isNone && !c.chunk.closed && !s.chunkFull a && !s.awaitsToken a &&
    (match a with
     | .ctx n k t =>
       decide (n < 256) && decide (k < 8) && decide (t < 11) && !(s.course n).stopped &&
         (match s.ownerRegion n with | some r => r.run == .running | none => false) &&
         (c.origin != .sweep || (match (s.core (coreId n k)).sweep with | some w => w.running.isSome | none => false)) &&
         !((s.inRoutine a) && s.stepMask a == 0)
     | .quoin n => decide (n < 256) && s.siteEnabled n && s.dev.statusState != 2 && !s.invalidating n
     | .plinth => true)

/-- Whether the retries of a `replay` leave a context its turn: no earlier one of them, of another gang, can be made now
(R327). -/
def State.replayTurn (s : State) (a : Agent) : Bool :=
  match a.course? with
  | some n =>
    let l := (s.course n).replay.getD []
    let mine (m : Miss) : Bool := m.engine.isNone && (s.group a).contains m.who
    !(l.any mine) || (l.takeWhile fun m => !mine m).all fun m => m.engine.isNone && ((s.ctx m.who).stalled || !s.unblocked m.who)
  | none => true

/-- Whether a context may issue, its next instruction's registers and scoreboard apart (R289, R293, R327). -/
def State.able (s : State) (a : Agent) : Bool := s.unblocked a && s.replayTurn a

/-- Whether a context is ready (R293): it may issue, and no bubble, commit check or busy unit of the present step holds it back (log
entry 2); its next instruction's words have been fetched, the register file holds the instruction's registers (R291), and the
scoreboard passes it (R295). An instruction whose fetch faults, or that does not decode, is ready to raise its trap. -/
def State.ready (s : State) (a : Agent) : Bool :=
  s.able a && !s.busy.contains a && (match s.nextInstr a with
    | some i => (s.missingRegs a i).isEmpty && !(s.ctx a).scoreboard i
    | none => !s.fetchMisses a)

/-- The cycle in which a core is (R294, R356). -/
def Core.cycle (k : Core) : Nat := k.ltime80 / 80

/-- Whether a core's issue slot is idle in this cycle by `issuegap` (R374). -/
def State.gapIdle (s : State) (n : Nat) : Bool :=
  decide ((s.core n).cycle % 8 < (s.block (s.siteOf (n / 8))).gap.toNat)

/-- Whether a core's issue slot is free in this cycle: `issuegap` leaves it, and nothing has issued (R294, R374). -/
def State.slotOpen (s : State) (n : Nat) : Bool := !s.gapIdle n && (s.core n).issuedAt != some (s.core n).cycle

/-- Whether a context is ready and has not just found a condition of R293 unmet. -/
def State.fresh (s : State) (a : Agent) : Bool := s.ready a && !(s.ctx a).stalled

/-- The contexts of a core that are ready; a gang's context is ready only when it is ready on every member, with every member's
slot free (R293, R301). -/
def State.candidates (s : State) (n : Nat) : List Nat :=
  (List.range 11).filter fun t => s.fresh (ctxOf n t) &&
    (t != 0 || (s.core n).gang.isNone || (s.gangCores n).all fun m => s.slotOpen m && s.fresh (ctxOf m 0))

/-- The choice of R298 among candidates. -/
def Core.greedy (k : Core) (cand : List Nat) : Option Nat :=
  let order := k.order ++ cand.filter fun t => !k.order.contains t
  let promoted := order.filter fun t => cand.contains t && decide (256 ≤ Map.get 0 k.counts t)
  match promoted with
  | t :: _ => some t
  | [] =>
    match k.current with
    | some t => if cand.contains t then some t else order.find? cand.contains
    | none => order.find? cand.contains

/-- The choice of R299 among candidates, with the pass flags it clears. -/
def Core.robin (k : Core) (cand : List Nat) : Option Nat × List Nat :=
  let cyc := (List.range 11).map fun i => (k.rr + i) % 11
  if cand.all k.passes.contains then (cyc.find? cand.contains, k.passes.filter fun t => !cand.contains t)
  else
    match cyc.find? fun t => cand.contains t && !k.passes.contains t with
    | some t =>
      let passed := (cyc.takeWhile (· != t)).filter fun u => cand.contains u
      (some t, k.passes.filter fun u => !passed.contains u)
    | none => (none, k.passes)

/-- Counts of ready contexts that are not selected advance; the selected one's is reset (R298). -/
def Core.tally (k : Core) (cand : List Nat) (sel : Option Nat) : Core :=
  { k with counts := cand.foldl (fun m t => Map.set m t (if some t = sel then 0 else Map.get 0 m t + 1)) k.counts }

/-- A core selects a context under its policy (R298, R299). -/
def Core.select (k : Core) (cand : List Nat) : Option Nat × Core :=
  if k.policy then
    let (sel, ps) := k.robin cand
    (sel, { k with passes := ps, rr := match sel with | some t => (t + 1) % 11 | none => k.rr }.tally cand sel)
  else
    let sel := k.greedy cand
    let promoted := k.order.filter fun t => cand.contains t && decide (256 ≤ Map.get 0 k.counts t)
    (sel, { k with current := sel, order := promoted ++ k.order.filter fun t => !promoted.contains t }.tally cand sel)

/-- The first of some contexts with the highest count. -/
def Core.longest (k : Core) (ts : List Nat) : Option Nat :=
  ts.find? fun t => ts.all fun u => decide (Map.get 0 k.counts u ≤ Map.get 0 k.counts t)

/-- The helper that relief lets issue on a member core: of those that have been ready and unselected for 16 cycles, the one that has
been so for the longest (R300, R301). -/
def State.relief (s : State) (n : Nat) : Option Nat :=
  let k := s.core n
  k.longest ((k.order.filter (s.candidates n).contains).filter fun t => t != 0 && decide (16 ≤ Map.get 0 k.counts t))

/-- A core's selection takes the slot of this cycle (R294). -/
def State.takeSlot (s : State) (n : Nat) (k : Core) : State := s.setCore n { k with issuedAt := some k.cycle }

/-- A core's choice among some contexts by its policy, with the state that the choice leaves (R298, R299). -/
def State.byPolicy (s : State) (n : Nat) (cand : List Nat) : Option (Nat × State) :=
  match (s.core n).select cand with
  | (some t, k) => some (t, s.takeSlot n k)
  | (none, _) => none

/-- A gang member's choice in a cycle in which relief holds the gang back: its oldest helper of relief, else a helper by its
policy (R301). -/
def State.byRelief (s : State) (n : Nat) (cand : List Nat) : Option (Nat × State) :=
  let helpers := cand.filter (· != 0)
  match s.relief n with
  | some t => some (t, s.takeSlot n ((s.core n).tally helpers (some t)))
  | none => s.byPolicy n helpers

/-- Relief holds the gang of a core back in this cycle, in which its context is ready and not selected on every member (R298,
R301). -/
def State.holdBackGang (s : State) (n : Nat) : State :=
  (s.gangCores n).foldl (fun s m => s.modCore m fun k =>
    { k with held := some k.cycle, counts := Map.set k.counts 0 (Map.get 0 k.counts 0 + 1) }) s

/-- The gang of a core is selected on every member (R301). -/
def State.gangIssues (s : State) (n : Nat) : State :=
  (s.gangCores n).foldl (fun u m => u.takeSlot m { (s.core m).tally (s.candidates m) (some 0) with held := none }) s

/-- The context that a core selects in this cycle, with the state that the selection leaves (R298 to R301): a gang that is ready
issues ahead of the policy; relief holds it back once before it issues. -/
def State.choice (s : State) (n : Nat) : Option (Nat × State) :=
  let cand := s.candidates n
  let k := s.core n
  if !s.slotOpen n || cand.isEmpty then none
  else if k.gang.isNone then s.byPolicy n cand
  else if k.held == some k.cycle then s.byRelief n cand
  else if !cand.contains 0 then s.byPolicy n cand
  else if k.held.isNone && (s.gangCores n).any fun m => (s.relief m).isSome then
    (s.holdBackGang n).byRelief n cand
  else some (0, s.gangIssues n)

/-- Cores of running regions, in ascending order from the core whose turn it is. -/
def State.coreRing (s : State) : List Nat :=
  let all := s.regions.flatMap fun e => if e.2.run = .running then e.2.cores else []
  (all.filter fun n => decide (s.turn ≤ n)) ++ all.filter fun n => decide (n < s.turn)

/-- A context of a core that parks for the page of its next instruction's words, which takes no issue slot (R293, R321). -/
def State.missingWords (s : State) (n : Nat) : Option Nat :=
  (List.range 11).find? fun t => s.able (ctxOf n t) && !(s.ctx (ctxOf n t)).stalled && s.fetchMisses (ctxOf n t) &&
    (t != 0 || (s.group (ctxOf n 0)).all fun b => s.able b && !(s.ctx b).stalled)

/-- The context that goes next when the agenda says nothing: one whose words miss, else the one that the next core selects in this
cycle (log entry 2). -/
def State.nextIssue (s : State) : Option Agent :=
  (s.coreRing.findSome? fun n => (s.missingWords n).map (ctxOf n)).orElse fun _ =>
    s.coreRing.findSome? fun n => (s.choice n).map fun e => ctxOf n e.1

/-! ### Parked and trapped members -/

/-- Parks that a context enters after its instruction has taken effect (R286, R288, R289). -/
def Park.performed : Park → Bool
  | .mon .. | .sweep .. | .ssync _ | .vote .. | .barwait .. | .gang .. | .hend => true
  | _ => false

/-- Whether a running context of an earlier state has taken a trap since. -/
def State.trapped (s s0 : State) (a : Agent) : Bool :=
  (s.ctx a).run == 1 || ((s.ctx a).intrap && !(s0.ctx a).intrap)

/-- Whether a member was not able to perform. -/
def State.waits (s : State) (a : Agent) : Bool :=
  (s.ctx a).run == 0 && ((s.ctx a).stalled || (s.ctx a).park.any fun p => !p.performed)

/-- A gang loses members: the gang dissolves at the instruction, and every member that has completed it raises cause 0x10 at its
next one, with the number of the first member lost as subcode (R169). -/
def State.splitGang (t s0 : State) (g : List Agent) : State :=
  let gone := g.filter (t.trapped s0 ·)
  match gone.head? with
  | some (.ctx c k _) =>
    (g.filter fun a => !gone.contains a).foldl
      (fun t a => t.modCtx a fun x => { x with lost := some (BitVec.ofNat 8 k, true) }) (t.dissolve (coreId c k))
  | _ => t

/-- What a leader's transfer leaves for the other members to follow (R303). -/
def State.leadOf (s : State) (a : Agent) (len : Nat) (old : Word) : Lead :=
  let c := (s.ctx a).arch
  ⟨c.pc != old + BitVec.ofNat 64 len, c.pc, c.loopActive, c.loopIndex, c.loopLen, c.loopLeft, c.loopa⟩

/-- What the other members follow where the leader's own transfer traps: the transfer is not taken (log entry 63). -/
def State.leadPast (s : State) (a : Agent) (len : Nat) : Lead :=
  let c := (s.ctx a).arch.next (s.ctx a).intrap len
  ⟨false, c.pc, c.loopActive, c.loopIndex, c.loopLen, c.loopLeft, c.loopa⟩

end Sys2Proof.Machine
end

