-- ==== Sys2Proof/Machine/Chunks.lean ====
section
/-! DEFINITION. The steps of the device around chunks and registers (R211 to R214, R291, R293, R295), and the draining of
requests in flight (R173, R339). -/

namespace Sys2Proof.Machine

open Sys2Proof

/-- CHUNK_COMMIT: the arbiter commits a closed chunk, unless another chunk holds the token (R213, R214). -/
def execChunkCommit (a : Agent) (s : State) : Host.Outcome State Fault Refusal :=
  .next (if (s.group a).any (fun b => (s.ctx b).chunk.closed) && s.mayCommit a then s.commit a else s)

/-- CHUNK_LIMIT_CLOSE: the device closes a chunk that has reached its limit (R211). -/
def execChunkLimitClose (a : Agent) (s : State) : Host.Outcome State Fault Refusal :=
  .next (if s.chunkFull a then
      (s.group a).foldl (fun s b => s.modCtx b fun c => { c with chunk := { c.chunk with closed := true } }) s
    else s)

/-- PENDING_RESULT_LANDING: the operation of the i-th pending result completes; the result lands if its window has closed.
The value of an atomic that has not returned completes by its reply alone (R295; log entry 11). -/
def execPendingResultLanding (a : Agent) (i : Nat) (s : State) : Host.Outcome State Fault Refusal :=
  .next <| match (s.ctx a).arch.pend[i]? with
  | some p =>
    let waits := s.requests.any (fun r => r.src == a && match r.op with | .amo _ _ _ _ _ _ d => p.kind == .x && p.reg == d.val | _ => false) ||
      s.comingReplies.any (fun r => r.dst == a && match r.op with | .value d _ => p.kind == .x && p.reg == d.val | _ => false)
    if p.done || waits then s
    else (s.modCtx a fun c => (c.withPend (c.arch.pend.modify i fun p => { p with done := true })).settle).sink s a
  | none => s

/-! ### The register-file cache (R291) -/

/-- Entries of the register file for a class of registers (R291). -/
def fileSize : RKind → Nat
  | .x => 128
  | _ => 96

/-- Whether an entry stays in the register file: it was filled for an instruction that has not issued, or an issued instruction
that names it has not completed, one at which its context is parked among them (R291). -/
def State.isPinned (s : State) (core : Nat) (e : RegEntry) : Bool :=
  let a := ctxOf core e.tid
  e.pinned || ((s.ctx a).arch.pend.any fun p => !p.done && p.pins.contains (e.kind, e.reg)) ||
    ((s.ctx a).park.isSome && match s.nextInstr a with | some i => i.names.contains (e.kind, e.reg) | none => false)

/-- Entries that a fill leaves and those it evicts: the least recently referenced ones that are not pinned; none where too few
are unpinned (R291). -/
def evict (k : RKind) (pinned : RegEntry → Bool) : Nat → List RegEntry → Option (List RegEntry × List RegEntry)
  | 0, f => if (f.filter fun e => e.kind == k).length ≤ fileSize k then some (f, []) else none
  | n + 1, f =>
    if (f.filter fun e => e.kind == k).length ≤ fileSize k then some (f, [])
    else match f.find? fun e => e.kind == k && !pinned e with
      | some e => (evict k pinned n (f.erase e)).map fun r => (r.1, e :: r.2)
      | none => none

/-- The register file after a fill of some registers, and the entries it evicts (R291). -/
def State.fileAfter (s : State) (core : Nat) (new : List RegEntry) : Option (List RegEntry × List RegEntry) :=
  let file := (s.core core).rfile ++ new
  match evict .x (s.isPinned core) file.length file with
  | some x => (evict .v (s.isPinned core) file.length x.1).map fun v => (v.1, x.2 ++ v.2)
  | none => none

/-- An uncorrectable error in a register's slot is its owner's trap: cause 0x0F with the slot's offset (R291). -/
def State.slotFault (s : State) (core : Nat) (sub : BitVec 8) (e : RegEntry) : State :=
  s.raise (ctxOf core e.tid) (.at 0x0F sub (BitVec.ofNat 64 (slotOff e.tid e.kind e.reg))) 0

/-- Contexts whose next instruction names a register that is not held ask for a fill, in the order in which they come to it
(R291). -/
def State.askFills (s : State) : State :=
  (s.ctxs.map (·.1)).foldl (fun s a => match a.core? with
    | some n =>
      if (s.core n).fillQ.contains a.tid || !s.able a then s
      else match s.nextInstr a with
        | some i => if (s.missingRegs a i).isEmpty then s else s.modCore n fun k => { k with fillQ := k.fillQ ++ [a.tid] }
        | none => s
    | none => s) s

/-- The registers that the fill of a context brings in: those its next instruction names that are not held (R291). -/
def State.fillOf (s : State) (a : Agent) : List RegRef :=
  match s.nextInstr a with
  | some i => s.missingRegs a i
  | none => []

/-- REGISTER_FILL: the registers of one instruction at a time, the oldest request first, are brought into the register file, and the
dirty registers that it evicts are written back to their slots, unless they are dead. An uncorrectable error in a slot it fills from
raises cause 0x0F in the context, and one in the slot of a dirty register that is evicted and not dead raises it in that register's
context (R291, R292). -/
def execRegisterFill (a : Agent) (xs vs : List Reg) (s : State) : Host.Outcome State Fault Refusal :=
  .next <| match a.core? with
  | some n =>
    let want := xs.map (fun r => (RKind.x, r.val)) ++ vs.map fun r => (RKind.v, r.val)
    let need := s.fillOf a
    let k := s.core n
    if k.fillQ.head? != some a.tid then s
    else if need.isEmpty then s.setCore n { k with fillQ := k.fillQ.drop 1 }
    else if !(need.all want.contains && want.all need.contains) then s
    else
      let bad (e : RegEntry) : Bool := s.slotPoison n e.tid e.kind e.reg
      let new : List RegEntry := need.map fun r => ⟨a.tid, r.1, r.2, false, true⟩
      match s.fileAfter n (new.filter fun e => !bad e) with
      | none => s
      | some (file, out) =>
        let back := out.filter fun e => e.dirty && (s.ctx (ctxOf n e.tid)).isLive (e.reg + if e.kind = .v then 32 else 0)
        let lost := back.filter bad
        if !((new.filter bad ++ lost).all fun e => s.canTrap (ctxOf n e.tid)) then s
        else
          let s := s.setCore n { k with rfile := file, fillQ := k.fillQ.drop 1 }
          let s := (back.filter fun e => !bad e).foldl (fun s e => s.modCtx (ctxOf n e.tid) (·.sinkSlot (e.kind, e.reg))) s
          let s := match new.find? bad with | some e => s.slotFault n 0 e | none => s
          lost.foldl (fun s e => s.slotFault n 1 e) s
  | none => s

/-! ### The fetch buffer (R210, R293; log entry 9) -/

/-- Words at and after a context's pc that a line holds, as they are fetched ahead of issue: 8 words at most (R293). -/
def fetchAhead (pc : Nat) (line : Nat) (bs : List Byte) (old : List (Nat × W32)) : List (Nat × W32) :=
  let inRange (va : Nat) : Bool := decide (pc ≤ va) && decide (va < pc + 32)
  let kept := old.filter fun e => inRange e.1
  kept ++ (List.range 64).filterMap fun i =>
    let va := line + 4 * i
    if inRange va && !(kept.any fun e => e.1 == va) then some (va, BitVec.ofNat 32 (bytesNat ((bs.drop (4 * i)).take 4)))
    else none

/-- FETCH_BUFFER_FILL: a 256-byte line of code arrives in a core's fetch buffer of 64 lines, and the words that the core's
contexts have next are fetched (R293). -/
def execFetchBufferFill (core : Nat) (line : Word) (s : State) : Host.Outcome State Fault Refusal :=
  let va := line &&& ~~~(0xFF#64)
  .next <| match s.resolve (ctxOf core 0) .fetch va with
  | .ok loc =>
    let bs := s.homeBytes loc 256
    let s := (s.ask (some core) loc 256).modCore core fun k =>
      { k with fetch := ((loc / 256, bs) :: k.fetch.filter fun e => e.1 != loc / 256).take 64 }
    (List.range 11).foldl (fun s t =>
      let a := ctxOf core t
      if (s.ctx a).run = 0 then
        s.modCtx a fun c => { c with ahead := fetchAhead c.arch.pc.toNat va.toNat bs c.ahead }
      else s) s
  | _ => s

/-! ### Draining -/

/-- Whether an earlier access or `send` from the same port to the same port is still in flight, of which one of the two is a `send`
(R255); a screed command waits at its target's engine while that pauses, and holds nothing back here (R252). -/
def State.behindDrain (s : State) (i : Nat) : Bool :=
  let sent (q : Req) : Bool := match q.op with | .send .. => true | _ => false
  match s.fabric[i]? with
  | some r => (s.fabric.take i).any fun q => q.src.course? == r.src.course? && q.src.core? == r.src.core? &&
      (sent q || (sent r && q.op.port.isNone)) && s.toPort q.op == s.toPort r.op
  | none => false

/-- The first access or `send` in flight that a test selects and that can be performed now (R219, R255, R260). -/
def State.nextReq (s : State) (p : Req → Bool) : Option Nat :=
  (List.range s.fabric.length).find? fun i => match s.fabric[i]? with
    | some r => p r && !s.behindDrain i && (match r.op with
      | .send cid _ rid _ _ => !s.targetGated rid cid
      | o => match o.target with
        | some (loc, n) => !s.behind i r.src (linesOf loc n) && !s.portShut r.src loc n
        | none => false)
    | none => false

/-- Sinks the acknowledgements, values and verdicts on their way to the agents that a test selects (R256, R260). -/
def State.sinkReplies (s : State) (p : Agent → Bool) : State :=
  let mine (r : Reply) : Bool := p r.dst && (r.op.answer || r.op.verdict)
  (s.replies.filter mine).foldl (fun s r => if r.op.verdict then s.takeVerdict r else s.takeReply r)
    { s with replies := s.replies.filter fun r => !mine r }

/-- Far stores that wait in the cores for a reply slot, of the agents that a test selects. -/
def State.unsentOf (s : State) (p : Agent → Bool) : List Agent :=
  (s.ctxs.map (·.1)).filter fun a => p a && !(s.ctx a).unsent.isEmpty

/-- Replies of some agents sink, and their stores that wait for a reply slot leave (R256). -/
def State.settleReplies (s : State) (p : Agent → Bool) : State :=
  let s := s.sinkReplies p
  (s.unsentOf p).foldl State.pump s

/-- Performs an access in flight, or delivers a `send`. -/
def State.performReq (s : State) (i : Nat) : State :=
  match s.fabric[i]? with
  | some r => match r.op with
    | .send .. => s.deliverSend i
    | _ => { s with fabric := dropAt i s.fabric }.atHome r
  | none => s

/-- Performs the accesses and sends in flight of some agents, in their order, until none is left that can be performed now. -/
def State.drainReqs (p : Agent → Bool) : Nat → State → State
  | 0, s => s.settleReplies p
  | n + 1, s =>
    let s := s.settleReplies p
    match s.nextReq fun r => p r.src with
    | some i => State.drainReqs p n (s.performReq i)
    | none => s

/-- Every access and `send` of some agents that has left its core is performed, and its reply sinks, as far as no port is shut
(R173, R260, R339). -/
def State.drain (s : State) (p : Agent → Bool) : State :=
  let s := s.drainPorts
  State.drainReqs p (s.fabric.length + ((s.unsentOf p).map fun a => (s.ctx a).unsent.length).sum) s

/-- Whether an agent that a test selects has an access that is not performed and answered. -/
def State.hasAccess (s : State) (p : Agent → Bool) : Bool :=
  !(s.unsentOf p).isEmpty || (s.requests.any fun r => p r.src && r.op.target.isSome) ||
    s.replies.any fun r => p r.dst && r.op.answer

end Sys2Proof.Machine
end

