-- ==== Sys2Proof/Machine/Collective.lean ====
section
/-! DEFINITION. The collective engine (R283). -/

namespace Sys2Proof.Machine

open Sys2Proof

/-- Bytes of a collective's element. -/
def collBytes : CollTy → Nat
  | .i32 | .n32 | .f32 => 4
  | .i64 | .n64 => 8

/-- The reduction of two elements (R283). -/
def collReduce (f : CollRed) (t : CollTy) (x y : Nat) : Nat :=
  let low (lt : Bool) := if lt then x else y
  match t, f with
  | .f32, .add => (fAdd .rne (BitVec.ofNat 32 x) (BitVec.ofNat 32 y)).toNat
  | .f32, .min => (fPick false (BitVec.ofNat 32 x) (BitVec.ofNat 32 y)).toNat
  | .f32, .max => (fPick true (BitVec.ofNat 32 x) (BitVec.ofNat 32 y)).toNat
  | t, .add => (x + y) % 2 ^ (8 * collBytes t)
  | .i32, .min => low (signedOf 4 x < signedOf 4 y)
  | .i32, .max => low (signedOf 4 y < signedOf 4 x)
  | .i64, .min => low (signedOf 8 x < signedOf 8 y)
  | .i64, .max => low (signedOf 8 y < signedOf 8 x)
  | _, .min => low (x < y)
  | _, .max => low (y < x)

/-- Elements of one rank's output (R283). -/
def collOutputs (op : CollOp) (c : CollCmd) : Nat :=
  match op with
  | .allreduce | .reducescatter | .broadcast => c.n.toNat
  | .allgather | .alltoall => c.ranks.toNat * c.n.toNat

/-- The input elements that output element j of rank r is made of, as rank and index, in rank order (R283). -/
def collInputs (op : CollOp) (c : CollCmd) (r j : Nat) : List (Nat × Nat) :=
  let n := c.n.toNat
  match op with
  | .allreduce => (List.range c.ranks.toNat).map fun s => (s, j)
  | .allgather => [(j / n, j % n)]
  | .reducescatter => (List.range c.ranks.toNat).map fun s => (s, r * n + j)
  | .broadcast => [(c.root.toNat, j)]
  | .alltoall => [(j / n, r * n + j % n)]

/-- Joins that agree in op, P, N, type, red and q. -/
def CollJoin.agrees (x y : CollJoin) : Bool :=
  x.op == y.op && x.cmd.ranks == y.cmd.ranks && x.cmd.n == y.cmd.n && x.cmd.ty == y.cmd.ty && x.cmd.red == y.cmd.red &&
    x.cmd.root == y.cmd.root

/-- Whether the joins of a collective make one: they agree, and their ranks are distinct and below P. -/
def Coll.sound (c : Coll) : Bool :=
  match c.joins with
  | [] => false
  | j :: _ => c.joins.all (fun k => j.agrees k && decide (k.cmd.rank.toNat < k.cmd.ranks.toNat)) &&
      (c.joins.map (·.cmd.rank)).Nodup && (j.op != .broadcast || decide (j.cmd.root.toNat < j.cmd.ranks.toNat))

/-- Joins at the collective engine of an ashlar (R283). -/
def State.collUsed (s : State) (ashlar : Nat) : Nat :=
  (s.regions.map fun e => ((e.2.colls.flatMap (·.joins)).filter fun j =>
    !j.posted && (match j.who.course? with | some c => c / 32 == ashlar | none => false)).length).sum

/-- Whether P joins of a collective have arrived, for the P of its first join (R283). -/
def Coll.full (c : Coll) : Bool := match c.joins with | j :: _ => decide (j.cmd.ranks.toNat ≤ c.joins.length) | [] => false

/-- Adds a join to the collective of its tag that has not all its P joins; a later join with the tag begins another
(R283). -/
def addJoin (j : CollJoin) : List Coll → List Coll
  | [] => [⟨j.cmd.tag, [j], false, [], none⟩]
  | c :: cs => if c.tag = j.cmd.tag && !c.started && !c.full then { c with joins := c.joins ++ [j] } :: cs else c :: addJoin j cs

/-- `coll` (R283). -/
def execColl (op : CollOp) (a b : Reg) (c : CollCmd) (g : PReg) (s : State) : Host.Outcome State Fault Refusal :=
  issue (.coll op a b c g) s fun s =>
    match s.engineBar s.cur b, s.cur.core? with
    | .error x, _ => x
    | .ok _, none => .done s []
    | .ok bar, some n =>
      if !s.placeFree n then .wait (s.park s.cur .reserve)
      else if 16 ≤ s.collUsed (n / 256) then .wait (s.park s.cur .coll)
      else if !s.performed s.cur true then .wait (s.stall s.cur)
      else .done ((s.reserve n).modRegion (s.ridOf s.cur) fun r =>
        { r with colls := addJoin ⟨s.cur, op, c, (s.ctx s.cur).x a.val, bar, [], none, false, s.afterSsync s.cur⟩ r.colls }) []

/-- COLLECTIVE_START: P joins have arrived; joins that do not make a collective all end with status 2 (R283). -/
def execCollectiveStart (rid : Nat) (tag : BitVec 16) (s : State) : Host.Outcome State Fault Refusal :=
  let due (c : Coll) : Bool := c.tag == tag && !c.started && c.full
  .next (s.modRegion (BitVec.ofNat 16 rid) fun r => { r with colls := modFirst due (fun c =>
    { c with started := true,
             joins := if c.sound then c.joins else c.joins.map fun j => { j with ended := some (2, 0) } }) r.colls })

/-- Whether a rank has written all its output or ended early. -/
def CollJoin.isOver (j : CollJoin) : Bool := j.ended.isSome || decide (collOutputs j.op j.cmd ≤ j.written.length)

/-- The value of an output element and the first refusal or miss among its inputs; an input has the value it held before
the collective wrote it. -/
def State.collValue (s : State) (c : Coll) (j : CollJoin) (k : Nat) : EngRes × Agent × Word × Nat :=
  let size := collBytes j.cmd.ty
  let read (i : Nat × Nat) : EngRes × Agent × Word × Nat :=
    match c.joins.find? fun x => x.cmd.rank.toNat == i.1 with
    | some x =>
      let va := x.inp + BitVec.ofNat 64 (size * i.2)
      match s.engineLocs x.who .read va size 0 true with
      | .ok ls => if s.anyPoison ls then (.refused 9, x.who, va, 0) else (.ok ls, x.who, va, bytesNat (oldBytes s c.pre ls))
      | r => (r, x.who, va, 0)
    | none => (.refused 2, j.who, 0, 0)
  match (collInputs j.op j.cmd j.cmd.rank.toNat k).map read with
  | [] => (.refused 2, j.who, 0, 0)
  | x :: xs => xs.foldl (fun acc y => match acc.1, y.1 with
      | .ok l, .ok m => (.ok (l ++ m), y.2.1, y.2.2.1, collReduce j.cmd.red j.cmd.ty acc.2.2.2 y.2.2.2)
      | .ok _, _ => y
      | _, _ => acc) x

/-- The input elements of an output element: the joins whose input holds them, by their contexts, and their addresses. -/
def Coll.inputs (c : Coll) (j : CollJoin) (k : Nat) : List (Agent × Word) :=
  (collInputs j.op j.cmd j.cmd.rank.toNat k).filterMap fun i =>
    (c.joins.find? fun x => x.cmd.rank.toNat == i.1).map fun x => (x.who, x.inp + BitVec.ofNat 64 (collBytes j.cmd.ty * i.2))

/-- Whether the collective of a tag is parked for a page, at one of a region's courses (R321). -/
def State.collParked (s : State) (r : Region) (tag : BitVec 16) : Bool :=
  r.courses.any fun c => (s.course c).miss.any fun m => m.engine == some (.coll tag)

/-- Whether a rank's output covers n bytes at an address (R283). -/
def CollJoin.covers (j : CollJoin) (base : Word) (n : Nat) : Bool :=
  decide ((base - j.cmd.out).toNat + n ≤ collBytes j.cmd.ty * collOutputs j.op j.cmd)

/-- Performs output element k of a rank (R283, R287), or ends the rank at its first refusal. An output that covers a whole 2 KiB
block of the aperture sets the block's tag to 0, as a copy's destination does; one that covers part of it needs that tag
(R186, R194, R280; log entry 66). -/
def State.collAt (s : State) (rid : BitVec 16) (is : Coll → Bool) (c : Coll) (j : CollJoin) (k : Nat) : State :=
  let size := collBytes j.cmd.ty
  let upd (s : State) (f : CollJoin → CollJoin) (pre : List (Nat × Byte)) := s.modRegion rid fun r =>
    { r with colls := modFirst is (fun c => { c with joins := modFirst (· == j) f c.joins, pre := pre, parked := none }) r.colls }
  let missed (a : Agent) (p : Word) := (s.modRegion rid fun r =>
    { r with colls := modFirst is (fun c => { c with parked := some (j.cmd.rank.toNat, k) }) r.colls }).engineMiss a (.coll c.tag) p
  let refuse (st : Nat) (va : Word) := upd s (fun j => { j with ended := some (st, va) }) c.pre
  let v := s.collValue c j k
  let out := j.cmd.out + BitVec.ofNat 64 (size * k)
  let whole := inAperture out && j.covers (blockOf out) 2048
  match v.1 with
  | .miss p => missed v.2.1 p
  | .refused st => refuse st v.2.2.1
  | .ok src =>
    match s.engineLocs j.who .write out size 0 (!whole) with
    | .miss p => missed j.who p
    | .refused st => refuse st out
    | .ok dst =>
      if s.partPoison (writesAt dst (List.replicate size 0)) (dst.headD 0) size && !j.covers (out &&& ~~~(7#64)) 8 then refuse 9 out
      else if s.readWaits j.who src || s.engineWaits j.who dst || s.barShut j.who j.bar then s
      else
        let s1 := (upd s (fun j => { j with written := insertUp k j.written }) (keepOld s c.pre dst)).tick
        let s2 := (s1.enginePut j.who dst (natBytes size v.2.2.2)).healBy (dst.headD 0) out size
          ((insertUp k j.written).map fun i => j.cmd.out + BitVec.ofNat 64 (size * i))
        let s3 := if whole then s2.setTag (dst.headD 0) 0 else s2
        let s4 := (c.inputs j k).foldl (fun s i => s.touchSpan i.1 i.2 size) s3
        ((src.foldl (fun s l => s.ask j.who.core? l 1) s4).touchSpan j.who out size).lowerBar j.who j.bar size

/-- COLLECTIVE_ELEMENT: a started collective performs one element of one rank's output: that at which it was parked for a page, or both by
a free choice (R321). -/
def execCollectiveElement (rid : Nat) (tag : BitVec 16) (s : State) : Host.Outcome State Fault Refusal :=
  let is (c : Coll) : Bool := c.tag == tag && c.started && c.joins.any fun j => !j.isOver
  .next <| match s.region? (BitVec.ofNat 16 rid) with
  | some r =>
    match r.colls.find? is with
    | some c =>
      let open' := c.joins.filter fun j => !j.isOver
      let at' := c.parked.bind fun p => (open'.find? fun j => j.cmd.rank.toNat == p.1).map fun j => (j, p.2)
      if s.collParked r c.tag then s
      else match at', open'[freePick s open'.length []]? with
      | some (j, k), _ => if s.moving j.who then s.collAt (BitVec.ofNat 16 rid) is c j k else s
      | none, some j => if s.moving j.who then
          s.tick.collAt (BitVec.ofNat 16 rid) is c j (freePick s.tick (collOutputs j.op j.cmd) j.written) else s
      | none, none => s
    | none => s
  | none => s

/-- COLLECTIVE_COMPLETION: a rank that is over posts its completion; a collective whose ranks have all posted is gone
(R281, R283). -/
def execCollectiveCompletion (rid : Nat) (tag : BitVec 16) (rank : Nat) (s : State) : Host.Outcome State Fault Refusal :=
  let ready (j : CollJoin) : Bool := j.cmd.rank.toNat == rank && j.isOver && !j.posted
  let is (c : Coll) : Bool := c.tag == tag && c.started && c.joins.any ready
  let rid := BitVec.ofNat 16 rid
  .next <| match s.region? rid with
  | some r =>
    match (r.colls.find? is).bind fun c => c.joins.find? ready with
    | some j =>
      if s.moving j.who then
        let p := match j.ended with
          | some (st, va) => engPayload st va.toNat
          | none => engPayload 0 (collBytes j.cmd.ty * collOutputs j.op j.cmd)
        let post (c : Coll) : Coll := { c with joins := modFirst ready (fun j => { j with posted := true }) c.joins }
        (s.modRegion rid fun r => { r with colls :=
          (modFirst is post r.colls).filter (fun c => !(c.started && c.joins.all (·.posted))) }).completeFor j.who tag p
      else s
    | none => s
  | none => s

/-- COLLECTIVE_JOIN_RETRY: a command entry is free for a parked `coll` (R283). -/
def execCollectiveJoinRetry (a : Agent) (s : State) : Host.Outcome State Fault Refusal :=
  .next <| match (s.ctx a).park, a.core? with
  | some .coll, some n => if s.collUsed (n / 256) < 16 then s.unpark a else s
  | _, _ => s

end Sys2Proof.Machine
end

