-- ==== Sys2Proof/Machine/Control.lean ====
section
/-! DEFINITION. Control flow of class 00 (R64 to R71). -/

namespace Sys2Proof.Machine

open Sys2Proof

/-- A program counter's signed word offset: A + 4 × offset (R40, R64). -/
def offsetFrom (pc : Word) (words : Word) : Word := pc + (words <<< 2)

/-- Branch offset as a word count (R40). -/
def brWords : BrOff → Word
  | .near o => o.signExtend 64
  | .far w => w.signExtend 64

/-- Jump offset as a word count (R40). -/
def jWords : JOff → Word
  | .near o => o.signExtend 64
  | .far w => w.signExtend 64

/-- Branch conditions (R64). -/
def BrCond.holds (c : BrCond) (a b : Word) : Bool :=
  match c with
  | .eq => a == b
  | .ne => a != b
  | .lt => decide (a.toInt < b.toInt)
  | .ge => decide (b.toInt ≤ a.toInt)
  | .ltn => decide (a.toNat < b.toNat)
  | .gen => decide (b.toNat ≤ a.toNat)

/-- A branch (R64). Its hint steers fetch only (R65). -/
def issueBranch (i : Instr) (k : BrCond) (a : Reg) (b : RegImm) (o : BrOff) (s : State) :
    Host.Outcome State Fault Refusal :=
  issue i s fun s =>
    let c := s.ctx s.cur
    if BrCond.holds k (c.x a.val) (b.val c) then .jump s (offsetFrom c.arch.pc (brWords o)) [] else .done s []

/-- `beq` (R64). -/
def execBeq (a : Reg) (b : RegImm) (o : BrOff) (h : Hint) (s : State) : Host.Outcome State Fault Refusal :=
  issueBranch (.beq a b o h) .eq a b o s
/-- `bne` (R64). -/
def execBne (a : Reg) (b : RegImm) (o : BrOff) (h : Hint) (s : State) : Host.Outcome State Fault Refusal :=
  issueBranch (.bne a b o h) .ne a b o s
/-- `blt` (R64). -/
def execBlt (a : Reg) (b : RegImm) (o : BrOff) (h : Hint) (s : State) : Host.Outcome State Fault Refusal :=
  issueBranch (.blt a b o h) .lt a b o s
/-- `bge` (R64). -/
def execBge (a : Reg) (b : RegImm) (o : BrOff) (h : Hint) (s : State) : Host.Outcome State Fault Refusal :=
  issueBranch (.bge a b o h) .ge a b o s
/-- `bltn` (R64). -/
def execBltn (a : Reg) (b : RegImm) (o : BrOff) (h : Hint) (s : State) : Host.Outcome State Fault Refusal :=
  issueBranch (.bltn a b o h) .ltn a b o s
/-- `bgen` (R64). -/
def execBgen (a : Reg) (b : RegImm) (o : BrOff) (h : Hint) (s : State) : Host.Outcome State Fault Refusal :=
  issueBranch (.bgen a b o h) .gen a b o s

/-- `jal` (R66). -/
def execJal (d : Reg) (o : JOff) (s : State) : Host.Outcome State Fault Refusal :=
  issue (.jal d o) s fun s =>
    let pc := (s.ctx s.cur).arch.pc
    .jump s (offsetFrom pc (jWords o)) [.toX d.val (pc + BitVec.ofNat 64 (Instr.jal d o).bytes)]

/-- `jalr`: a target with bits 1:0 not zero raises cause 0x01 and writes nothing (R66, R161). -/
def execJalr (d a : Reg) (b : SrcB) (s : State) : Host.Outcome State Fault Refusal :=
  issue (.jalr d a b) s fun s =>
    let c := s.ctx s.cur
    let t := c.x a.val + b.val c
    if t.toNat % 4 ≠ 0 then .trap (.at 0x01 0 t)
    else .jump s t [.toX d.val (c.arch.pc + BitVec.ofNat 64 (Instr.jalr d a b).bytes)]

/-- `jtab`: an indexed jump through a table of word offsets, read as `ld.i32` reads (R67). -/
def execJtab (a b : Reg) (bound : W32) (s : State) : Host.Outcome State Fault Refusal :=
  issue (.jtab a b bound) s fun s =>
    let c := s.ctx s.cur
    let n := c.x a.val
    if bound.toNat ≤ n.toNat then .done s []
    else s.readScalar s.cur 0 (c.x b.val + (n <<< 2)) 4 fun w s =>
      .jump s (offsetFrom c.arch.pc ((BitVec.ofNat 32 w).signExtend 64)) []

/-- `rep` (R69, R70). A repetition in progress, or the program handler, makes it illegal (`State.illegal`). -/
def execRep (n : Reg) (b : SrcB) (s : State) : Host.Outcome State Fault Refusal :=
  issue (.rep n b) s fun s =>
    let c := s.ctx s.cur
    let count := (b.val c).setWidth 32
    let next := c.arch.pc + BitVec.ofNat 64 (Instr.rep n b).bytes
    if count = 0 then
      match s.addressAfter s.cur (n.val + 1) next with
      | .ok pc => .jump s pc []
      | .error (.miss p) => .wait (s.parkMiss s.cur .fetch [p])
      | .error (.fault sub va) => .trap (fetchTrap sub va)
      | .error (.ok _ _) => .done s []
    else .loop s (BitVec.ofNat 5 n.val) (count - 1)

/-- A control transfer performed by the agent whose instruction it is; any other instruction does nothing here (R303). -/
def State.transfer (s : State) (i : Instr) : State :=
  let o := match i with
    | .beq a b o h => execBeq a b o h s
    | .bne a b o h => execBne a b o h s
    | .blt a b o h => execBlt a b o h s
    | .bge a b o h => execBge a b o h s
    | .bltn a b o h => execBltn a b o h s
    | .bgen a b o h => execBgen a b o h s
    | .jal d o => execJal d o s
    | .jalr d a b => execJalr d a b s
    | .jtab a b n => execJtab a b n s
    | .rep n b => execRep n b s
    | _ => .next s
  match o with
  | .next t => t
  | _ => s

/-- `nop`: its literals are skipped (R68). -/
def execNop (l : NopLits) (s : State) : Host.Outcome State Fault Refusal :=
  issue (.nop l) s fun s => .done s []

end Sys2Proof.Machine
end

