-- ==== Sys2Proof/Machine/Convert.lean ====
section
/-! DEFINITION. Conversions, quantisation and the function unit (R110 to R114). -/

namespace Sys2Proof.Machine

open Sys2Proof

/-- The dx format of a type (R35). -/
def tyDx : Ty → Option Dx
  | .dx7 => some .dx7
  | .dx4 => some .dx4
  | .dx2 => some .dx2
  | _ => none

/-- The low n lanes of a register as one little-endian number (R111). -/
def recordOf (l : Lanes) (n : Nat) : Nat := packBits 32 ((List.range n).map fun i => (lane l i).toNat)

/-- `vcvt`: lane by lane, or from a strip record in the low lanes of va (R110, R111). -/
def doCvt (dst src : Ty) (r : Rm) (d a : Reg) (m : Word) (s : State) : Res :=
  let va := (s.ctx s.cur).v a.val
  match tyDx src with
  | some f =>
    let rec1 := recordOf va (dxBytes f / 4)
    .done s [.toV d.val m (lanesOf (dxDecode f rec1))]
  | none => .done s [.toV d.val m (lanesOf fun i => convert 32 dst src r (lane va i).toNat)]

/-- `vquant`: the record of all 64 lanes, zero above it (R112). -/
def doQuant (f : Dx) (d a : Reg) (m : Word) (s : State) : Res :=
  let rec1 := dxEncode f (lane ((s.ctx s.cur).v a.val))
  .done s [.toV d.val m (lanesOf fun i => BitVec.ofNat 32 (rec1 / 2 ^ (32 * i)))]

/-- `vcvt` (R110, R111). -/
def execVcvt (dst src : Ty) (r : Rm) (d a : Reg) (g : PReg) (s : State) : Host.Outcome State Fault Refusal :=
  issueV (.vcvt dst src r d a g) s (doCvt dst src r d a)

/-- `vquant` (R112). -/
def execVquant (f : Dx) (d a : Reg) (g : PReg) (s : State) : Host.Outcome State Fault Refusal :=
  issueV (.vquant f d a g) s (doQuant f d a)

/-! ### The function unit: the exact result y as a fixed-point number, and the fp32 values its bound admits -/

/-- Bits below the point in the fixed-point numbers here. -/
def fuBits : Nat := 128

/-- ln 2 with `fuBits` bits below the point. -/
def ln2 : Nat := 0xB17217F7D1CF79ABC9E3B39803F2F6AF

/-- The fp32 values r with |r − y| ≤ c/100 ulp(y), for y = Y × 2^q > 0: the value below y and the value above it on y's grid,
and the one before them (R113). -/
def admitted (c : Nat) (Y : Nat) (q : Int) : List (Nat × Int) :=
  let u : Int := max (q + Nat.log2 Y) (-126) - 23
  let base : Int := min q (u - 1)
  let y : Int := Y * 2 ^ (q - base).toNat
  let ulp : Int := 2 ^ (u - base).toNat
  let low := (y / ulp).toNat
  let below : Nat × Int := if low = 2 ^ 23 && decide (-149 < u) then (2 ^ 24 - 1, u - 1) else (low - 1, u)
  [below, (low, u), (low + 1, u)].filter fun r =>
    let v : Int := r.1 * 2 ^ (r.2 - base).toNat
    decide (100 * (v - y).natAbs ≤ (c * ulp).toNat)

/-- A function-unit result: one of the admitted values, with the sign of y; beyond the range, an infinity or the largest
finite value (R113; log entry 8). -/
def fuResult (op c : Nat) (x : W32) (neg : Bool) (Y : Nat) (q : Int) : W32 :=
  let pick := Config.fuPick op x
  if Y = 0 then toF32 .rne (.fin neg 0 0)
  else if decide (128 ≤ q + Nat.log2 Y) ||
      (q + Nat.log2 Y == 127 && decide ((2 ^ 25 - 1) * 2 ^ (Nat.log2 Y) ≤ Y * 2 ^ 24)) then
    if pick % 2 = 0 then toF32 .rne (.inf neg) else toF32 .rtz (.fin neg 1 200)
  else
    let l := admitted c Y q
    let r := l.getD (pick % l.length) (0, 0)
    toF32 .rne (.fin neg r.1 r.2)

/-- Σ z^k / k! from term k on, with `fuBits` bits below the point. -/
def expSum (z : Nat) : Nat → Nat → Nat → Nat
  | 0, _, _ => 0
  | n + 1, k, t => t + expSum z n (k + 1) (t * z / 2 ^ fuBits / (k + 1))

/-- 2^f for a fraction f with `fuBits` bits below the point. -/
def exp2Frac (f : Nat) : Nat := expSum (f * ln2 / 2 ^ fuBits) 40 0 (2 ^ fuBits)

/-- `vexp2` of one lane (R114). -/
def exp2Lane (x : W32) : W32 :=
  match f32 x with
  | .nan => quietNaN
  | .inf neg => if neg then 0 else 0x7F800000
  | .fin neg m e =>
    if m = 0 then 0x3F800000
    else if decide (8 ≤ e + Nat.log2 m) then (if neg then 0 else 0x7F800000)
    else
      -- x = n + f with n an integer and f a fraction, to fuBits bits, rounded down
      let t : Int := if 0 ≤ e + fuBits then signed neg (m * 2 ^ (e + fuBits).toNat)
        else signed neg m / 2 ^ (-(e + fuBits)).toNat
      let n := t / 2 ^ fuBits
      let f := (t % 2 ^ fuBits).toNat
      let whole := decide (0 ≤ e) || m % 2 ^ (-e).toNat == 0
      if whole then
        (if decide (128 ≤ n) then 0x7F800000 else if decide (n ≤ -150) then 0 else toF32 .rne (.fin false 1 n))
      else if decide (128 ≤ n) then 0x7F800000
      else fuResult 0 51 x false (exp2Frac f) (n - fuBits)

/-- Σ z^(2k+1) / (2k+1) from term k on, with `fuBits` bits below the point; zz is z². -/
def atanhSum (zz : Nat) : Nat → Nat → Nat → Nat
  | 0, _, _ => 0
  | n + 1, k, t => t / (2 * k + 1) + atanhSum zz n (k + 1) (t * zz / 2 ^ fuBits)

/-- log2 of a significand m / 2^l in [1, 2), with `fuBits` bits below the point. -/
def log2Frac (m l : Nat) : Nat :=
  let z := (m - 2 ^ l) * 2 ^ fuBits / (m + 2 ^ l)
  2 * atanhSum (z * z / 2 ^ fuBits) 45 0 z * 2 ^ fuBits / ln2

/-- `vlog2` of one lane (R114). -/
def log2Lane (x : W32) : W32 :=
  match f32 x with
  | .nan => quietNaN
  | .inf neg => if neg then quietNaN else 0x7F800000
  | .fin neg m e =>
    if m = 0 then 0xFF800000
    else if neg then quietNaN
    else
      let l := Nat.log2 m
      let y : Int := (e + l) * 2 ^ fuBits + log2Frac m l
      if m = 2 ^ l then toF32 .rne (FVal.ofInt false (e + l) 0)
      else fuResult 1 55 x (decide (y < 0)) y.natAbs (-fuBits)

/-- `vrcp` of one lane (R114). -/
def rcpLane (x : W32) : W32 :=
  match f32 x with
  | .nan => quietNaN
  | .inf neg => if neg then 0x80000000 else 0
  | .fin neg m e =>
    if m = 0 then (if neg then 0xFF800000 else 0x7F800000)
    else if m = 2 ^ Nat.log2 m && decide (-127 < e + Nat.log2 m) then toF32 .rne (.fin neg 1 (-(e + Nat.log2 m)))
    else fuResult 2 52 x neg (2 ^ fuBits / m) (-e - fuBits)

/-- `vrsq` of one lane (R114). -/
def rsqLane (x : W32) : W32 :=
  match f32 x with
  | .nan => quietNaN
  | .inf neg => if neg then quietNaN else 0
  | .fin neg m e =>
    if m = 0 then (if neg then 0xFF800000 else 0x7F800000)
    else if neg then quietNaN
    else
      let odd := e % 2 != 0
      let k := if odd then 2 * m else m
      let h : Int := (if odd then e - 1 else e) / 2
      if m = 2 ^ Nat.log2 m && (e + Nat.log2 m) % 2 == 0 then toF32 .rne (.fin false 1 (-((e + Nat.log2 m) / 2)))
      else fuResult 3 52 x false (isqrt (2 ^ (2 * fuBits) / k) 140 0) (-h - fuBits)

/-- A function-unit form of one lane (R114). -/
def fuLane : FuOp → W32 → W32
  | .exp2 => exp2Lane
  | .log2 => log2Lane
  | .rcp => rcpLane
  | .rsq => rsqLane

/-- `vexp2` (R113, R114). -/
def execVexp2 (d : Reg) (x : VSrc1) (la : La) (g : PReg) (s : State) : Host.Outcome State Fault Refusal :=
  issueV (.vexp2 d x la g) s (doMap1 d x la (fuLane .exp2))

/-- `vlog2` (R113, R114). -/
def execVlog2 (d : Reg) (x : VSrc1) (la : La) (g : PReg) (s : State) : Host.Outcome State Fault Refusal :=
  issueV (.vlog2 d x la g) s (doMap1 d x la (fuLane .log2))

/-- `vrcp` (R113, R114). -/
def execVrcp (d : Reg) (x : VSrc1) (la : La) (g : PReg) (s : State) : Host.Outcome State Fault Refusal :=
  issueV (.vrcp d x la g) s (doMap1 d x la (fuLane .rcp))

/-- `vrsq` (R113, R114). -/
def execVrsq (d : Reg) (x : VSrc1) (la : La) (g : PReg) (s : State) : Host.Outcome State Fault Refusal :=
  issueV (.vrsq d x la g) s (doMap1 d x la (fuLane .rsq))

end Sys2Proof.Machine
end

