-- ==== Sys2Proof/Machine/Blocks.lean ====
section
/-! DEFINITION. Region control blocks (R329 to R331): reading a block and the blocks above it, effective values, the checks
of R330, budgets, and the HBM given to partitions (R331, R387). -/

namespace Sys2Proof.Machine

open Sys2Proof

/-- Bytes of HBM (R2, R319). -/
def hbmSize : Nat := 640 * 2 ^ 30

/-- Bytes at an HBM address; there are none beyond the HBM. -/
def State.hbmBytes (s : State) (a n : Nat) : List Byte :=
  if a + n ≤ hbmSize then s.homeBytes (Home.loc (.hbm a)) n else List.replicate n 0

/-- The word at an HBM address. -/
def State.hbmWord (s : State) (a : Nat) : Word := BitVec.ofNat 64 (bytesNat (s.hbmBytes a 8))

/-- A region control block (R329): its HBM address and its words at 0x00 to 0x60, with the bits of the words from 0x68 on
joined. -/
structure Block where
  addr : Nat
  parent : Word
  control : Word
  entry : Word
  trap : Word
  w20 : Word
  w28 : Word
  hbm : Word
  ranks : Word
  root : Word
  save : Word
  image : Word
  imglen : Word
  w60 : Word
  rest : Word
  deriving DecidableEq, Repr

/-- The block at an HBM address. -/
def State.readBlock (s : State) (a : Nat) : Block :=
  let w (i : Nat) := s.hbmWord (a + i)
  { addr := a, parent := w 0x00, control := w 0x08, entry := w 0x10, trap := w 0x18, w20 := w 0x20, w28 := w 0x28,
    hbm := w 0x30, ranks := w 0x38, root := w 0x40, save := w 0x48, image := w 0x50, imglen := w 0x58, w60 := w 0x60,
    rest := (List.range 19).foldl (fun r i => r ||| w (0x68 + 8 * i)) 0 }

/-- The control word's fields (R329). -/
def Block.level (b : Block) : Nat := fld b.control 61 3
/-- The inherit mask (R329). -/
def Block.inherit (b : Block) : Nat := fld b.control 32 16
/-- The partition key (R329). -/
def Block.pkey (b : Block) : BitVec 16 := BitVec.ofNat 16 (fld b.control 0 16)
/-- The live word's rid (R329). -/
def Block.rid (b : Block) : BitVec 16 := BitVec.ofNat 16 (fld b.w60 48 16)

/-- A block with its parents up to the root, own block first; none where the chain is longer than some number of blocks. -/
def State.readChain (s : State) : Nat → Nat → Option (List Block)
  | 0, _ => none
  | n + 1, a =>
    let b := s.readBlock a
    if b.parent = 0 then some [b] else (s.readChain n b.parent.toNat).map fun bs => b :: bs

/-- The effective value of a field: the first own value along the chain whose inherit bit is set (R331). -/
def effField {α : Type} (d : α) (bit : Nat) (f : Block → α) : List Block → α
  | [] => d
  | b :: bs => if b.inherit.testBit bit then f b else effField d bit f bs

/-- The effective course budget (R329, R331). -/
def effCourses (ch : List Block) : Nat := effField 0 4 (fun b => fld b.w28 48 16) ch
/-- The effective HBM budget (R329, R331). -/
def effHbm (ch : List Block) : Nat := effField 0 5 (fun b => b.hbm.toNat) ch

/-- The effective fields of a block with its parents (R329, R331). -/
def effective (ch : List Block) : Effective where
  trap := effField 0 0 (·.trap) ch
  deleg := BitVec.ofNat 32 (effField 0 1 (fun b => fld b.w20 0 32) ch)
  priority := BitVec.ofNat 8 (effField 0 2 (fun b => fld b.control 48 8) ch)
  fdom := BitVec.ofNat 16 (effField 0 3 (fun b => fld b.control 16 16) ch)
  courses := BitVec.ofNat 16 (effCourses ch)
  hbm := BitVec.ofNat 64 (effHbm ch)
  slice := BitVec.ofNat 32 (effField 0 6 (fun b => fld b.w28 0 32) ch)
  share := BitVec.ofNat 16 (effField 0 7 (fun b => fld b.w28 32 16) ch)
  ranks := effField 0 8 (·.ranks) ch
  root := effField 0 9 (·.root) ch
  save := effField 0 10 (·.save) ch
  watchdog := BitVec.ofNat 32 (effField 0 11 (fun b => fld b.w20 32 32) ch)
  trace := effField false 12 (fun b => b.control.getLsbD 56) ch

/-- The chain that a region keeps: each block with its effective budgets. -/
def chainOf : List Block → List (Nat × Nat × Nat)
  | [] => []
  | b :: bs => (b.addr, effCourses (b :: bs), effHbm (b :: bs)) :: chainOf bs

/-- Whether each block's level is its parent's plus 1, up to a root of level 0. -/
def levelsRise : List Block → Bool
  | [] => false
  | [b] => b.level == 0
  | b :: c :: bs => b.level == c.level + 1 && levelsRise (c :: bs)

/-- Whether a reserved field of a block is nonzero (R329). -/
def Block.reservedSet (b : Block) : Bool :=
  fld b.control 57 4 != 0 || decide (2 ^ 13 ≤ b.inherit) || fld b.w60 0 48 != 0 || b.rest != 0

/-- Conditions of status 0x01 in a block with its parents (R330). An image address that is not a multiple of 8 is not among them
(log entry 42). -/
def malformed (ch : List Block) : Bool :=
  match ch with
  | [] => true
  | b :: _ =>
    b.reservedSet || !levelsRise ch || decide (b.level ≤ 1) || fld b.entry 0 2 != 0 || fld b.trap 0 2 != 0 ||
      fld (effective ch).trap 0 2 != 0 ||
      decide (progEnd < b.imglen.toNat) || fld b.imglen 0 3 != 0 ||
      (match ch.getLast? with | some r => r.inherit % 2 ^ 13 != 2 ^ 13 - 1 | none => true) || effCourses ch == 0

/-- The key of the partition of a function of the host link (R25, R382). -/
def State.keyOf (s : State) (fn : Nat) : Option (BitVec 16) := (s.partitions.find? fun e => e.2.fn == fn).map (·.1)

/-- Conditions of status 0x03 (R26, R330): the sending function's partition, the message's key, and the key of every block
down from the partition's. -/
def State.keyMismatch (s : State) (fn : Nat) (key : BitVec 16) (ch : List Block) : Bool :=
  s.keyOf fn != some key || (ch.any fun b => decide (1 ≤ b.level) && b.pkey != key)

/-- Courses held by live owners in the subtree of a block (R331). -/
def State.subtreeCourses (s : State) (addr : Nat) : Nat :=
  (s.regions.map fun e => if e.2.chain.any fun c => c.1 == addr then e.2.courses.length else 0).sum

/-- Every course index, in ascending order of physical site (R17, R338). -/
def State.bySite (s : State) : List Nat := (List.range 256).filterMap s.courseAt

/-- Courses that a launch may take: the course exists, is free, and its site has no failed unit (R346). -/
def State.freeCourses (s : State) : List Nat :=
  s.bySite.filter fun c => (s.site c).rid == 0 && (s.block (s.siteOf c)).usable

/-- The courses that a region takes, in the order of their owner course numbers (R22, R26, R331): those named where they are a
choice of its budget, else the lowest free sites; none where the budgets do not admit them. -/
def State.assign (s : State) (ch : List Block) (named : List Nat) : Option (List Nat) :=
  let n := effCourses ch
  let free := s.freeCourses
  if (chainOf ch).any fun c => decide (c.2.1 < s.subtreeCourses c.1 + n) then none
  else if free.length < n then none
  else
    let pick := free.filter named.contains
    some (if pick.length = n && named.length = n then pick else free.take n)

/-- The smallest rid that no live region has (R24). Where all 65,535 are live the spec gives a launch no status; the model answers
0x02 (`State.launchStatus`; log entry 42). -/
def State.newRid (s : State) : BitVec 16 :=
  match (List.range (s.regions.length + 1)).find? fun i => (s.region? (BitVec.ofNat 16 (i + 1))).isNone with
  | some i => BitVec.ofNat 16 (i + 1)
  | none => 0

/-- HBM address of the device root: aligned to 256, and not 0, which a block's parent word keeps for the root itself (R329; log
entry 42). -/
def rootAddr : Nat := 256 * (1 + Config.rootBlock % (hbmSize / 256 - 1))

/-- Words of the device root by offset: level 0, every inherit bit set, every course and all of HBM, never pre-empted, no trap
entry and nothing delegated (R329 to R331; log entry 42). -/
def rootWords : List (Nat × Word) :=
  [(0x08, BitVec.ofNat 64 (at' 0x1FFF 32)), (0x28, BitVec.ofNat 64 (at' 256 48)), (0x30, BitVec.ofNat 64 hbmSize)]

/-- The plinth writes the device root (R317, R329). -/
def State.writeRoot (s : State) : State :=
  rootWords.foldl (fun s e => { s with mem := Memory.write s.mem (Home.loc (.hbm (rootAddr + e.1))) (natBytes 8 e.2.toNat) })
    { s with mem := Memory.clear s.mem (Home.loc (.hbm rootAddr)) 256 }

/-- The plinth writes the live word of a block (R329). -/
def State.writeLive (s : State) (addr : Nat) (rid : BitVec 16) : State :=
  if addr + 0x100 ≤ hbmSize then s.land ⟨Home.loc (.hbm (addr + 0x66)), natBytes 2 rid.toNat, 0, 0⟩ From.outside [] else s

/-- The rank table at an HBM address, its valid entries (R394). -/
def State.rankTable (s : State) (base : Nat) : List (Nat × Word) :=
  ((List.range 1024).filter fun i =>
    s.mem.any fun c => decide (Home.loc (.hbm (base + 8 * i)) ≤ c.1) && decide (c.1 < Home.loc (.hbm (base + 8 * i)) + 8)).map
    fun i => (i, s.hbmWord (base + 8 * i))

/-- The plinth loads the rank table of a region's partition, and notes the partition's bandwidth share (R329, R394). -/
def State.loadRanks (s : State) (key : BitVec 16) (ch : List Block) : State :=
  match Map.find s.partitions key with
  | some p =>
    let q : Partition := { p with
      ranks := s.rankTable (effective ch).ranks.toNat
      share := BitVec.ofNat 16 (effField 0 7 (fun b => fld b.w28 32 16) (ch.dropWhile fun b => decide (2 ≤ b.level))) }
    { s with partitions := Map.set s.partitions key q }
  | none => s

/-! ### HBM of a partition -/

/-- Whether two runs of bytes meet. -/
def runsMeet (a n b m : Nat) : Bool := decide (a < b + m) && decide (b < a + n)

/-- Whether a run of HBM is given to another partition (R331, R387; log entry 20). -/
def State.foreign (s : State) (base size : Nat) (pkey : BitVec 16) : Bool :=
  s.grants.any fun g => g.pkey != pkey && runsMeet base size g.base g.size

/-- Runs that lie in no larger one, each once. Frames are aligned to their sizes, so two runs are nested or apart (R325). -/
def outermost (l : List (Nat × Nat)) : List (Nat × Nat) :=
  l.eraseDups.filter fun g => !l.any fun h => decide (g.2 < h.2) && decide (h.1 ≤ g.1) && decide (g.1 < h.1 + h.2)

/-- HBM mapped for a region. -/
def State.mappedFor (s : State) (rid : BitVec 16) : Nat :=
  ((outermost ((s.grants.filter fun g => g.rid == rid).map fun g => (g.base, g.size))).map (·.2)).sum

/-- HBM mapped in the subtree of a block (R331). -/
def State.subtreeHbm (s : State) (addr : Nat) : Nat :=
  (s.regions.map fun e => if e.2.chain.any fun c => c.1 == addr then s.mappedFor e.1 else 0).sum

/-- Mappings that a test selects end; the HBM stays with its partition (log entry 20). -/
def State.release (s : State) (p : Grant → Bool) : State :=
  { s with grants := (s.grants.map fun g => if p g then { g with rid := 0, va := 0 } else g).eraseDups }

/-- A page is mapped to a run of HBM for a region, whose partition it belongs to from now on; what the page was mapped to before
is no longer mapped by it. -/
def State.grant (s : State) (rid : BitVec 16) (pkey : BitVec 16) (va base size : Nat) : State :=
  if s.foreign base size pkey then s
  else
    let s := s.release fun g => g.rid == rid && runsMeet va size g.va g.size
    { s with grants := (s.grants.filter fun g => !(g.rid == 0 && g.pkey == pkey && g.base == base && g.size == size)) ++
        [⟨base, size, pkey, rid, va⟩] }

/-- Whether the quoins may map a page to a run of HBM for a region: the run is no other partition's, and with what the page was
mapped to released no budget above is exceeded, nor what it counts increased beyond it (R331). -/
def State.mayGrant (s : State) (rid : BitVec 16) (r : Region) (va base size : Nat) : Bool :=
  let t := s.grant rid r.pkey va base size
  !s.foreign base size r.pkey && r.chain.all fun c => decide (t.subtreeHbm c.1 ≤ max c.2.2 (s.subtreeHbm c.1))

/-- Whether a run of HBM belongs to a partition. -/
def State.ownsHbm (s : State) (pkey : BitVec 16) (a n : Nat) : Bool :=
  (List.range ((a + n - 1) / 4096 - a / 4096 + 1)).all fun i =>
    s.grants.any fun g => g.pkey == pkey && decide (g.base ≤ (a / 4096 + i) * 4096) &&
      decide ((a / 4096 + i) * 4096 + 4096 ≤ g.base + g.size)

end Sys2Proof.Machine
end

