-- ==== Sys2Proof/Machine/Translate.lean ====
section
/-! DEFINITION. `tlbw`, `tlbi` and `replay`, and the answers to misses (R318 to R327). -/

namespace Sys2Proof.Machine

open Sys2Proof

/-- Bytes of an entry's page (R319). -/
def TlbEntry.size (e : TlbEntry) : Nat := 2 ^ e.bits

/-- The entry that a word installs for the page that holds an address (R325). -/
def entryFor (owner : BitVec 16) (va e : Word) : TlbEntry :=
  let t : TlbEntry := ⟨owner, va, e⟩
  { t with base := BitVec.ofNat 64 (va.toNat / t.size * t.size) }

/-- Whether two pages meet. -/
def TlbEntry.overlaps (a b : TlbEntry) : Bool := runsMeet a.base.toNat a.size b.base.toNat b.size

/-- Frame address of an entry (R319). -/
def TlbEntry.frame (e : TlbEntry) : Nat := fld e.e 12 40 * 4096

/-- The checks of `tlbw` (R325); the instruction's word is the fault address of cause 0x02. -/
def tlbwTrap (va e word : Word) : Option Trap :=
  let t := entryFor 0 va e
  if va.toNat ≥ 2 ^ 57 || inAperture va then some (.at 0x06 3 va)
  else if fld e 52 5 != 0 || fld e 0 12 != 0 || (fld e 60 2 == 3 && (t.frame != 0 || fld e 57 3 != 0)) ||
      (fld e 60 2 == 0 && decide (hbmSize ≤ t.frame)) then some (.at 0x02 0 word)
  else if fld e 60 2 != 3 && t.frame % t.size != 0 then some (.at 0x01 0 va)
  else none

/-- Removes entries from a course's TLB and the L1 TLBs of its cores. -/
def State.dropEntries (s : State) (course : Nat) (p : TlbEntry → Bool) : State :=
  (List.range 8).foldl (fun s k => s.modCore (coreId course k) fun x => { x with l1 := x.l1.filter fun e => !p e })
    (s.modCourse course fun c => { c with tlb := c.tlb.filter fun e => !p e })

/-- Retries the parked accesses of a course whose missing page a test selects: they leave the miss table with all their pages, a
context among them issues its instruction again, one that is held when it is resumed, and an engine looks its pages up again (R321,
R327). -/
def State.retryMisses (s : State) (course : Nat) (p : Word → Bool) : State :=
  let ms := (s.course course).miss.filter fun m => p m.va
  let hit (m : Miss) : Bool := ms.any fun x => x.who == m.who && x.engine == m.engine
  let who := (ms.filter (·.engine.isNone)).map (·.who)
  let s := s.modCourse course fun c => { c with miss := c.miss.filter fun m => !hit m }
  who.foldl (fun s a => match (s.ctx a).park with | some (.miss _) => s.unpark a | _ => s) s

/-- Installs an entry in a course's TLB (R325): overlapping entries of the owner go, and the least recently used entry, which
stands last, where the TLB is full; the new entry is the most recently used; parked accesses to the page are retried. HBM that
it maps for a region belongs to the region's partition (log entry 20). -/
def State.install (s : State) (course : Nat) (t : TlbEntry) : State :=
  let s := s.dropEntries course fun e => e.owner == t.owner && e.overlaps t
  let s := match (s.course course).tlb.getLast? with
    | some o => if 2048 ≤ (s.course course).tlb.length then s.dropEntries course fun e => e == o else s
    | none => s
  let s := s.modCourse course fun c => { c with tlb := t :: c.tlb }
  let s := if t.owner != 0 && fld t.e 60 2 == 0 then
      match s.region? t.owner with
      | some r => s.grant t.owner r.pkey t.base.toNat t.frame t.size
      | none => s
    else s
  s.retryMisses course t.covers

/-- `tlbw` (R325). -/
def execTlbw (a b : Reg) (g : PReg) (s : State) : Host.Outcome State Fault Refusal :=
  issue (.tlbw a b g) s fun s =>
    let va := (s.ctx s.cur).x a.val
    let e := (s.ctx s.cur).x b.val
    match s.cur.course? with
    | none => .done s []
    | some c =>
      if s.ownerRid c = 0 then .done s []
      else match tlbwTrap va e (Instr.tlbw a b g).word with
        | some t => .trap t
        | none => .done (s.install c (entryFor (s.ownerRid c) va e)) []

/-- The bytes that an entry reaches: first location, number. -/
def State.reach (s : State) (pkey : BitVec 16) (t : TlbEntry) : Option (Nat × Nat) :=
  match s.through pkey { t with e := t.e ||| 0x0E00000000000000#64 } .read t.base with
  | .ok loc => some (loc, t.size)
  | _ => none

/-- Whether a stream element's bytes meet a page. -/
def elementMeets (v : Bool) (t : Stream) (p : TlbEntry) : Bool :=
  runsMeet t.addr.toNat (t.span v) p.base.toNat p.size

/-- The entries fetched ahead of a stream, without the untaken ones from the first that a removed page covers: they are
fetched again (R274, R326). -/
def Ctx.keepAhead (c : Ctx) (j : Nat) (gone : List TlbEntry) : List Fetched :=
  let fs := Map.get [] c.bufs j
  let taken := Map.get 0 c.arch.taken j
  let t := c.stream j
  match (List.range (fs.length - taken)).find? fun i => gone.any (elementMeets (decide (4 ≤ j)) (t.ahead i)) with
  | some i => fs.take (taken + i)
  | none => fs

/-- The page that a mapping of HBM is made through. -/
def Grant.page (g : Grant) : TlbEntry :=
  let code : Word := if g.size = 4096 then 0 else if g.size = 65536 then 1 else if g.size = 2097152 then 2 else 3
  ⟨g.rid, BitVec.ofNat 64 g.va, code <<< 62⟩

/-- The mappings of an owner's pages that a test selects end, where no TLB of a course holds an entry of the page any more
(R326, R331; log entry 20). -/
def State.unmap (s : State) (owner : BitVec 16) (p : TlbEntry → Bool) : State :=
  s.release fun g => g.rid == owner && g.rid != 0 && p g.page &&
    !(s.courses.any fun e => e.2.tlb.any fun t => t.owner == owner && t.overlaps g.page)

/-- Removes the entries of an owner that a test selects, with the read-ahead and the watches on their pages (R326). -/
def State.shootDown (s : State) (course : Nat) (p : TlbEntry → Bool) : State :=
  let owner := s.ownerRid course
  let gone := (s.course course).tlb.filter fun e => e.owner == owner && p e
  let s := (s.dropEntries course fun e => e.owner == owner && p e).unmap owner p
  let s := (s.ctxsIn course).foldl (fun s a =>
    if a.program then s.modCtx a fun c => { c with bufs := c.bufs.map fun b => (b.1, c.keepAhead b.1 gone) } else s) s
  (List.range 8).foldl (fun s k =>
    s.latchWhere (coreId course k) (fun _ w => gone.any fun e => e.covers w.page) 2) s

/-- Whether a write or another access of a course to bytes that a `tlbi` shoots down is not performed (R326). -/
def State.shotBusy (s : State) (course : Nat) : Bool :=
  let rs := (s.course course).shot
  let hit (loc n : Nat) : Bool := rs.any fun r => runsMeet loc n r.1 r.2
  let mine (a : Agent) : Bool := a.course? == some course
  (s.requests.any fun r => mine r.src && match r.op with
    | .store w => hit w.loc w.data.length
    | .amo _ t loc _ _ _ _ => hit loc t.size
    | .cell loc _ => hit loc 32
    | _ => false) ||
  (s.replies.any fun r => mine r.dst && match r.op with | .ack loc => hit loc 1 | _ => false) ||
  ((s.ctxsIn course).any fun a =>
    ((s.ctx a).unsent ++ (s.ctx a).chunk.near ++ (s.ctx a).chunk.far).any fun w => hit w.loc w.data.length)

/-- A `tlbi` removes entries, and names the bytes they reach, whose accesses it waits for (R326). -/
def State.beginTlbi (s : State) (c : Nat) (p : TlbEntry → Bool) : State :=
  let key := match s.ownerRegion c with | some r => r.pkey | none => 0
  let gone := (s.course c).tlb.filter fun e => e.owner == s.ownerRid c && p e
  (s.shootDown c p).modCourse c fun k => { k with shot := gone.filterMap (s.reach key) }

/-- `tlbi` and `tlbi.all`: the entries go at once, and the instruction waits until every access translated under them is
performed (R326); while it waits, the quoin does nothing else, so nothing is removed twice. -/
def doTlbi (p : Word → TlbEntry → Bool) (a : Option Reg) (s : State) : Res :=
  match s.cur.course? with
  | none => .done s []
  | some c =>
    if s.ownerRid c = 0 then .done s []
    else
      let va := match a with | some r => (s.ctx s.cur).x r.val | none => 0
      let s := if (s.course c).shot.isEmpty then s.beginTlbi c (p va) else s
      if s.shotBusy c then .wait (s.stall s.cur)
      else .done (s.modCourse c fun k => { k with shot := [] }) []

/-- `tlbi` (R326). -/
def execTlbi (a : Reg) (g : PReg) (s : State) : Host.Outcome State Fault Refusal :=
  issue (.tlbi a g) s fun s => doTlbi (fun va e => e.covers va) (some a) s

/-- `tlbi.all` (R326). -/
def execTlbiAll (g : PReg) (s : State) : Host.Outcome State Fault Refusal :=
  issue (.tlbiAll g) s fun s => doTlbi (fun _ _ => true) none s

/-- An engine's retry of a page: one that is still missing is announced again, and the operation parks again (R321). -/
def State.retryEngine (s : State) (m : Miss) : State :=
  match m.engine, s.resolve m.who .read m.va with
  | some op, .miss _ => s.engineMiss m.who op m.va
  | _, _ => s

/-- Whether the retry of a context's access that a `replay` has still to make cannot be made now: its context is not running, or
waits. -/
def State.retryWaits (s : State) (m : Miss) : Bool := m.engine.isNone && ((s.ctx m.who).run != 0 || (s.ctx m.who).stalled || !s.unblocked m.who)

/-- The retries of engines that stand next in a `replay`, behind none that can be made now, are made (R327). -/
def State.serveReplay (s : State) (course : Nat) : State :=
  match (s.course course).replay with
  | none => s
  | some l =>
    let head := l.takeWhile fun m => m.engine.isSome || s.retryWaits m
    (head.filter (·.engine.isSome)).foldl State.retryEngine
      (s.modCourse course fun c => { c with replay := some (head.filter (·.engine.isNone) ++ l.drop head.length) })

/-- A `replay` begins: every parked access of the course is to be retried, the oldest first; those of held contexts when they
are resumed (R327). -/
def State.beginReplay (s : State) (course : Nat) : State :=
  let l := (s.course course).miss.filter fun m => m.engine.isSome || (s.ctx m.who).run == 0
  ((s.retryMisses course fun _ => true).modCourse course fun c => { c with replay := some l }).serveReplay course

/-- Accesses whose retry a `replay` of a course still waits for (R327). -/
def State.replaying (s : State) (course : Nat) : List Miss :=
  ((s.course course).replay.getD []).filter fun m => m.engine.isSome || (s.ctx m.who).run == 0

/-- The replays of the courses go on with their engines' retries (R327). -/
def State.serveReplays (s : State) : State :=
  (s.courses.filter fun e => e.2.replay.isSome).foldl (fun s e => s.serveReplay e.1) s

/-- `replay`: it completes when every retry has been made (R327). -/
def execReplay (g : PReg) (s : State) : Host.Outcome State Fault Refusal :=
  issue (.replay g) s fun s =>
    match s.cur.course? with
    | some c =>
      if s.ownerRid c = 0 then .done s []
      else
        let s := if (s.course c).replay.isNone then s.beginReplay c else s
        if (s.replaying c).isEmpty then .done (s.modCourse c fun k => { k with replay := none }) []
        else .wait (s.stall s.cur)
    | none => .done s []

/-! ### Answers to misses (R322, R323, R331) -/

/-- The entry of a page that is known to be unmapped (R320). -/
def absentEntry : Word := 0x3000000000000000#64

/-- The function through which the quoin of a course asks the host for pages (R25, R385). -/
def State.pageFn (s : State) (course : Nat) : Nat := match s.ownerRegion course with | some r => r.fn | none => 0

/-- Page requests outstanding at the host, of a function; it may have 512 (R385). -/
def State.priOf (s : State) (fn : Nat) : List (Nat × Word) := (Map.get Fn.fresh s.fns fn).pri

/-- Whether the quoin of a course may issue another page request (R385). -/
def State.mayRequest (s : State) (course : Nat) : Bool := decide ((s.priOf (s.pageFn course)).length < 512)

/-- A page request goes to the host (R323). -/
def State.requestPage (s : State) (course : Nat) (va : Word) : State :=
  let f : Fn := Map.get Fn.fresh s.fns (s.pageFn course)
  if s.mayRequest course && !f.pri.contains (course, pageOf va) then
    { s with fns := Map.set s.fns (s.pageFn course) { f with pri := f.pri ++ [(course, pageOf va)] } }
  else s

/-- The host has answered the request of a course for a page (R323). -/
def State.requestDone (s : State) (course : Nat) (va : Word) : State :=
  { s with fns := s.fns.map fun (e : Nat × Fn) => (e.1, { e.2 with pri := e.2.pri.filter fun x => x != (course, pageOf va) }) }

/-- The quoin's answer for the page that holds an address, for an owner: a mapped entry that `tlbw` admits, or an absent one
where it would exceed a budget (R322, R331). A page request is outstanding at the host from now on, and the access stays parked (R323,
R385). -/
def State.answer (s : State) (course : Nat) (owner : BitVec 16) (va : Word) (ans : MissAnswer) : State :=
  match ans with
  | .request => s.requestPage course va
  | .absent => s.install course (entryFor owner va absentEntry)
  | .entry e =>
    if (tlbwTrap va e 0).isSome then s
    else
      let t := entryFor owner va e
      let may := owner == 0 || fld e 60 2 != 0 || match s.region? owner with
        | some r => s.mayGrant owner r t.base.toNat t.frame t.size
        | none => false
      s.install course (if may then t else entryFor owner va absentEntry)

/-- Removes the oldest miss notice. -/
def dropMiss : List Notice → List Notice
  | [] => []
  | .miss _ _ :: ns => ns
  | n :: ns => n :: dropMiss ns

/-- Whether a course's quoin waits in a `tlbi` or a `replay` and does nothing else meanwhile (R326, R327). -/
def State.quoinBusy (s : State) (course : Nat) : Bool :=
  !(s.course course).shot.isEmpty || (s.course course).replay.isSome

/-- MISS_NOTICE: the quoin takes its oldest miss notice and answers it; a miss of its own is answered with an entry of no
owner (R322, R328; log entry 13). A notice that would lead to a page request waits while 512 are outstanding (R385). -/
def execMissNotice (course : Nat) (ans : MissAnswer) (s : State) : Host.Outcome State Fault Refusal :=
  .next <| match (s.course course).notices.findSome? fun n => match n with | .miss h p => some (h, p) | _ => none with
  | some (h, p) =>
    if s.quoinBusy course || (ans == .request && !s.mayRequest course) then s
    else
      let owner : BitVec 16 := if fld h 53 11 = 0x7FF then 0 else s.ownerRid course
      (s.modCourse course fun c => { c with notices := dropMiss c.notices }).answer course owner
        (BitVec.ofNat 64 (fld p 0 57)) ans
  | none => s

/-- The owner for whom the quoin of a course answers for a page: that of an access parked at it, else the course's. -/
def State.missOwner (s : State) (course : Nat) (va : Word) : BitVec 16 :=
  match (s.course course).miss.find? fun m => pageOf m.va == pageOf va with
  | some m => if m.who.program then s.ownerRid course else 0
  | none => s.ownerRid course

/-- Whether the quoin of a course can install the host's answer for a page: in a course without an owner only for itself (R325). -/
def State.canAnswer (s : State) (course : Nat) (va : Word) : Bool :=
  s.ownerRid course != 0 || (s.course course).miss.any fun m => pageOf m.va == pageOf va

/-- The host's answer to a request for a page (R323): the quoin takes it up at once, or, while it waits, afterwards. -/
def State.hostAnswer (s : State) (course : Nat) (va : Word) (ans : MissAnswer) : State :=
  if s.quoinBusy course then s.notify course (.host va ans)
  else if s.canAnswer course va then s.answer course (s.missOwner course va) va ans
  else s

/-- ATS_TRANSLATION_COMPLETION: the frame is installed, the page is absent, or a page request is issued and the access stays
parked (R323). -/
def execAtsTranslationCompletion (course : Nat) (va : Word) (ans : MissAnswer) (s : State) :
    Host.Outcome State Fault Refusal :=
  .next (s.hostAnswer course va ans)

/-- PRI_RESPONSE: success installs the page, a failure an absent entry (R323). -/
def execPriResponse (course : Nat) (va : Word) (ans : MissAnswer) (s : State) : Host.Outcome State Fault Refusal :=
  .next ((s.requestDone course va).hostAnswer course va ans)

/-- Courses held by the regions of a partition. -/
def State.coursesOfKey (s : State) (pkey : BitVec 16) : List Nat :=
  s.regions.flatMap fun e => if e.2.pkey = pkey then e.2.courses else []

/-- The pages of an invalidation. -/
def Invalidation.names (v : Invalidation) (e : TlbEntry) : Bool := v.vas.any e.covers

/-- The quoin of a course works at an invalidation: it removes the pages named, waits as a `tlbi` does, and is done (R323,
R326). -/
def State.invalidate (s : State) (v : Invalidation) (w : Nat × Bool) : State × List (Nat × Bool) :=
  if w.2 then if s.shotBusy w.1 then (s, [w]) else (s.modCourse w.1 fun k => { k with shot := [] }, [])
  else if s.quoinBusy w.1 then (s, [w])
  else
    let t := s.beginTlbi w.1 v.names
    if t.shotBusy w.1 then (t, [(w.1, true)]) else (t.modCourse w.1 fun k => { k with shot := [] }, [])

/-- The quoins work at the invalidations that have reached them, the oldest first; the completion of one is returned, and it is no
longer listed, when every quoin is done with it (R323). -/
def State.serveInvals (s : State) : State :=
  s.invals.foldl (fun s v =>
    let r := v.waits.foldl (fun (r : State × List (Nat × Bool)) w => let q := r.1.invalidate v w; (q.1, r.2 ++ q.2)) (s, [])
    { r.1 with invals := r.1.invals ++ if r.2.isEmpty then [] else [⟨v.vas, r.2⟩] }) { s with invals := [] }

/-- ATS_INVALIDATION: a control notice reaches every quoin of the partition, which performs `tlbi` of the pages named (R323). -/
def execAtsInvalidation (pkey : BitVec 16) (vas : List Word) (s : State) : Host.Outcome State Fault Refusal :=
  .next ({ s with invals := s.invals ++ [⟨vas, (s.coursesOfKey pkey).map fun c => (c, false)⟩] } : State).serveInvals

/-- The quoins take up the host's answers that came while they waited (R323). -/
def State.serveAnswers (s : State) : State :=
  s.courses.foldl (fun s e =>
    if s.quoinBusy e.1 then s
    else
      let mine := (s.course e.1).notices.filterMap fun n => match n with | .host va ans => some (va, ans) | _ => none
      if mine.isEmpty then s
      else mine.foldl (fun s m => s.hostAnswer e.1 m.1 m.2)
        (s.modCourse e.1 fun k => { k with notices := k.notices.filter fun n => match n with | .host _ _ => false | _ => true })) s

end Sys2Proof.Machine
end

