-- ==== Sys2Proof/Machine/Stops.lean ====
section
/-! DEFINITION. Stopping the courses of a region (R173, R217, R339), owner-relative images of a region (R23, R174, R183), and
pre-emption with its end (R173 to R177). -/

namespace Sys2Proof.Machine

open Sys2Proof

/-! ### Owner-relative images -/

/-- An agent with its course renamed. -/
def reAgent (f : Nat → Nat) : Agent → Agent
  | .ctx c k t => .ctx (f c) k t
  | a => a

/-- A core with its course renamed. -/
def reCore (f : Nat → Nat) (n : Nat) : Nat := coreId (f (n / 8)) (n % 8)

/-- A location with the course of its slice renamed; other locations stand. -/
def reLoc (f : Nat → Nat) (l : Nat) : Nat :=
  match homeOf l with
  | .slice core off => Home.loc (.slice (reCore f core) off)
  | _ => l

/-- A line with the course of its slice renamed. -/
def reLine (f : Nat → Nat) (l : Nat) : Nat := reLoc f (l * 64) / 64

/-- Watches with the slices of their lines renamed. -/
def reWatches (f : Nat → Nat) (ws : List (Nat × Watch)) : List (Nat × Watch) :=
  ws.map fun e => (e.1, { e.2 with line := reLine f e.2.line })

/-- A core with the slices that it names renamed. -/
def Core.re (f : Nat → Nat) (k : Core) : Core :=
  { k with watches := reWatches f k.watches,
           journal := { k.journal with lines := k.journal.lines.map fun e => (reLine f e.1, e.2) } }

/-- Bytes by location with the slices renamed. -/
def reBytes (f : Nat → Nat) (bs : List (Nat × Byte)) : List (Nat × Byte) := bs.map fun e => (reLoc f e.1, e.2)

/-- A copy with its issuer and slices renamed. -/
def CopyJob.re (f : Nat → Nat) (j : CopyJob) : CopyJob := { j with who := reAgent f j.who, pre := reBytes f j.pre }

/-- A collective with its issuers and slices renamed. -/
def Coll.re (f : Nat → Nat) (c : Coll) : Coll :=
  { c with joins := c.joins.map fun j => { j with who := reAgent f j.who }, pre := reBytes f c.pre }

/-- Contexts of the courses of a region that have state of their own. -/
def State.ctxsOf (s : State) (cs : List Nat) : List Agent := cs.flatMap fun c => (s.ctxsIn c).filter Agent.program

/-- Owner course number of a course. -/
def State.ocn (s : State) (c : Nat) : Nat := (s.site c).ocn.toNat

/-- The course that carries an owner course number, of a list in that order. -/
def courseOf (cs : List Nat) (n : Nat) : Nat := cs.getD n 0

/-! ### Stopping -/

/-- Whether an agent belongs to one of some courses as a program context. -/
def inCourses (cs : List Nat) (a : Agent) : Bool :=
  a.program && match a.course? with | some c => cs.contains c | none => false

/-- The open chunks of a course are submitted for commit, the token's holder first; a chunk that an earlier commit meets is
squashed (R173 step 2, R217). -/
def State.stopChunks (s : State) (course : Nat) : State :=
  let holder := match (s.course course).token with | some h => [h] | none => []
  let s := (holder ++ (s.ctxsIn course).filter Agent.program).foldl (fun s a => s.close a) s
  s.modCourse course fun k => { k with token := none }

/-- Discards the parked misses of a course's contexts and of their engine operations (R173 step 3, R321). -/
def State.abandonMisses (s : State) (course : Nat) : State :=
  s.modCourse course fun k => { k with miss := k.miss.filter fun m => !m.who.program }

/-- Whether a parked context stays parked over a stop: its instruction has taken effect. Every other parked instruction issues
again on resumption (R173, R269, R288, R321, R353, R363). -/
def Park.stands : Park → Bool
  | .ssync _ | .vote .. | .gang .. | .sweep .. | .mon .. | .hend => true
  | _ => false

/-- A context stops at its instruction boundary: results are set aside, read-ahead and words fetched ahead go, and the address at
which it stands is its resume address (R173 steps 3 to 5, R174, R278). -/
def Ctx.stop (c : Ctx) : Ctx :=
  { c.setAside.dropBufs with ahead := [], stalled := false, resume := c.arch.pc, park := c.park.filter Park.stands }

/-- A context of a course that stops, with its registers written to its context area (R173 steps 4 to 6, R291). -/
def State.stopCtx (s : State) (a : Agent) : State :=
  if (s.ctx a).run = 3 then s else (s.modCtx a Ctx.stop).cleanFile a

/-- THE STOP of some courses under steps 1 to 6 of R173: chunks commit or are squashed, misses are abandoned, accesses that
have left their chunks are performed, the contexts stop, and the arrays of owned courses are captured (R141). -/
def State.stopCourses (s : State) (cs : List Nat) : State :=
  let s := cs.foldl State.stopChunks s
  let s := cs.foldl State.abandonMisses s
  let s := s.drain (inCourses cs)
  let s := (s.ctxsOf cs).foldl State.stopCtx s
  (cs.filter fun c => s.ownerRid c != 0).foldl State.captureArray s

/-- A core with its inbox written to its inbox image, all of which the inbox replaces (R173, R174). -/
def Core.writeImage (k : Core) : Core :=
  { k with image := k.inbox, spare := k.spare.filter fun e => decide (e.1 < 0x373400) || decide (0x373800 ≤ e.1) }

/-- Step 7 of R173: the inboxes of some courses are written to their inbox images. -/
def State.writeImages (s : State) (cs : List Nat) : State :=
  cs.foldl (fun s c => (List.range 8).foldl (fun s k => s.modCore (coreId c k) Core.writeImage) s) s

/-- The armed watches of a course's cores latch status 3 (R264, R344). -/
def State.pauseWatches (s : State) (course : Nat) : State :=
  (List.range 8).foldl (fun s k => s.latchWhere (coreId course k) (fun _ _ => true) 3) s

/-- A stop of a region ends at a device time: `pausedns` takes the nanoseconds of device time that have passed in it, and region
time goes on in step with device time, so that the two sum exactly (R358, R359). -/
def Region.endStill (r : Region) (now : Nat) : Region :=
  { r with gtime10 := r.gtime10 / 10 * 10 + now % 10,
           paused10 := r.paused10 + (now / 10 - (now - r.still10) / 10) * 10, still10 := 0 }

/-- A stop of a region ends (R359). -/
def State.endStill (s : State) (rid : BitVec 16) : State := s.modRegion rid fun r => r.endStill s.devTime

/-- Whether an ashlar is in a rotation pause. -/
def State.pausing (s : State) (ashlar : Nat) : Bool := (s.ashlar ashlar).phase != .none

/-- Whether any ashlar is in a rotation pause. -/
def State.anyPause (s : State) : Bool := (List.range 8).any s.pausing

/-- Course indices of an ashlar whose region is being stopped for a pre-emption or migration, or that are stopped for a
self-test (R177, R336). -/
def State.stopUnderWay (s : State) (ashlar : Nat) : Bool :=
  (coursesOf ashlar).any fun c => (s.course c).testing ||
    match s.ownerRegion c with | some r => r.run == .stopping | none => false

/-! ### Bands at a site (R131, R145) -/

/-- A course stands where some bands are healthy: a band that leaves `present` leaves `on`, with the mode's change (R131,
R141, R145). Its weights stay. -/
def Course.arrive (k : Course) (healthy : BitVec 4) : Course :=
  let lost := k.present &&& ~~~healthy
  let k := { k with present := healthy, on := k.on &&& healthy, pending := k.pending &&& healthy,
                    switching := k.switching.filter fun e => healthy.getLsbD e.1,
                    began := k.began.filter fun e => healthy.getLsbD e.1 }
  (List.finRange 4).foldl (fun k b => if lost.getLsbD b.val then k.bandLost b else k) k

/-! ### Saving and restoring a slice (R173, R388) -/

/-- Copies the bytes of a range to another place. -/
def Memory.copyRange (m : Memory) (src n dst : Nat) : Memory :=
  (m.filter fun c => decide (src ≤ c.1) && decide (c.1 < src + n)).foldl
    (fun m c => Memory.put m (dst + (c.1 - src)) c.2) (Memory.clear m dst n)

/-- Uncorrectable errors of a range as they travel with its bytes. -/
def movePoison (ps : List Nat) (src n dst : Nat) : List Nat :=
  (ps.filter fun w => !runsMeet (w * 8) 8 dst n) ++
    ((ps.filter fun w => decide (src ≤ w * 8) && decide (w * 8 < src + n)).map fun w => (dst + (w * 8 - src)) / 8)

/-- Moves the bytes of a range, with the errors in them. -/
def State.copyRange (s : State) (src n dst : Nat) : State :=
  { s with mem := Memory.copyRange s.mem src n dst, poison := movePoison s.poison src n dst }

/-- Pieces that a footprint map marks (R190). -/
def piecesOf (foot : Nat) : List Nat := (List.range 880).filter foot.testBit

/-- HBM address of a byte of a saved slice, by the owner-relative core (R388). -/
def saveAddr (save : Word) (cid off : Nat) : Nat := save.toNat + cid * 0x400000 + off

/-- Errors in the reserved part of a slice go with it to another place. -/
def State.moveAreas (s : State) (src dst : Nat) : State := { s with poison := movePoison s.poison src 0x90000 dst }

/-- Saves the marked pieces of a slice at their places in the save area; bytes beyond the HBM go nowhere (R173, R388). Its
reserved part is read and written there as a view of the image (`State.savedAt`). -/
def State.saveSlice (s : State) (save : Word) (core cid : Nat) : State :=
  ((piecesOf (s.core core).foot).foldl (fun s p =>
      let off := p * 4096
      if saveAddr save cid off + 4096 ≤ hbmSize then
        s.copyRange (Home.loc (.slice core off)) 4096 (Home.loc (.hbm (saveAddr save cid off)))
      else s) s).moveAreas (Home.loc (.slice core progEnd)) (Home.loc (.hbm (saveAddr save cid progEnd)))

/-- Errors that an earlier owner's bytes of a slice held are gone: its pieces read zero (R190). -/
def State.cleanSlice (s : State) (core : Nat) : State :=
  { s with poison := s.poison.filter fun w => !runsMeet (w * 8) 8 (Home.loc (.slice core 0)) 0x400000 }

/-- Restores a slice from the save area. -/
def State.restoreSlice (s : State) (save : Word) (core cid : Nat) : State :=
  ((piecesOf (s.core core).foot).foldl (fun s p =>
      let off := p * 4096
      if saveAddr save cid off + 4096 ≤ hbmSize then
        s.copyRange (Home.loc (.hbm (saveAddr save cid off))) 4096 (Home.loc (.slice core off))
      else { s with mem := Memory.clear s.mem (Home.loc (.slice core off)) 4096 }) (s.cleanSlice core)).moveAreas
    (Home.loc (.hbm (saveAddr save cid progEnd))) (Home.loc (.slice core progEnd))

/-- The reserved parts of a pre-empted region's saved slices are written to their places in HBM as they are seen there, before the
image that shows them goes (R173, R186, R388). -/
def State.writeSaveArea (s : State) (save : Word) (v : Saved) : State :=
  v.cores.foldl (fun s e =>
    let at0 (off : Nat) : Nat := Home.loc (.hbm (saveAddr save e.1 off))
    let words := (areaOffsets (fun t => (v.ctx e.1 t).inImage) (v.core e.1) (v.core e.1).inbox).eraseDups.filter fun off =>
      decide (saveAddr save e.1 off + 8 ≤ hbmSize)
    let put (m : Memory) (off : Nat) : Memory := Memory.write m (at0 off) ((List.range 8).map fun i => v.byte e.1 (off + i))
    { s with mem := words.foldl put (if saveAddr save e.1 progEnd + 0x90000 ≤ hbmSize then Memory.clear s.mem (at0 progEnd) 0x90000 else s.mem) }) s

/-- The image of a pre-empted or migrated region goes, and its bytes stand in its save area (R173, R186). -/
def State.dropImage (s : State) (rid : BitVec 16) : State :=
  match s.region? rid with
  | some r => match r.saved with
    | some v => (s.writeSaveArea r.eff.save v).modRegion rid fun r => { r with saved := none }
    | none => s
  | none => s

/-- Courses become free, with empty TLBs; the error banks, the clock and its sprint, which ends, and the quoins' own copies and
mappings stay with the course (R318, R377, R379, R390). A registration leaves a home's filter by a report or an ejection alone
(R254). -/
def State.freeCourse (s : State) (c : Nat) : State :=
  let k := s.course c
  let healthy := (s.block (s.siteOf c)).healthy
  let s := s.setCourse c { Course.fresh healthy with
    bank0 := k.bank0, bank1 := k.bank1, tests := k.tests, permits := k.permits, coolUntil := k.coolUntil,
    step := k.step, sprintFrom := k.sprintFrom, sprintEnd := k.step != 0, idle := k.idle,
    copies := k.copies.filter fun j => !j.who.program, nextCopy := k.nextCopy, clock80 := k.clock80, miss := k.miss.filter fun m => !m.who.program,
    notices := k.notices.filter fun n => match n with | .miss h _ => fld h 53 11 == 0x7FF | _ => true }
  let s := (List.range 8).foldl (fun s k => s.setCore (coreId c k) Core.fresh) s
  let s := { s with ctxs := s.ctxs.filter fun e => !inCourses [c] e.1 }
  s.modSite c fun e => { e with rid := 0, ocn := 0 }

/-! ### Pre-emption -/

/-- Whether a stop of a region may begin now: it runs, and no course of its ashlars is in a pause (R177). -/
def State.mayPreempt (s : State) (r : Region) : Bool :=
  r.run == .running && r.courses.all fun c => !s.pausing (c / 32) && !(s.course c).stopped

/-- THE NOTICE of a stop of a region, for its pre-emption or for its migration by a function: from it on no core issues, and sprints end
(R173, R358, R379). Where a course is in a pause, the stop is due and begins when the pause ends (R177). -/
def State.beginStop (s : State) (rid : BitVec 16) (migration : Option Nat) : State :=
  match s.region? rid with
  | some r =>
    if s.mayPreempt r then
      r.courses.foldl (fun s c => s.modCourse c fun k => if k.step = 0 then k else { k with sprintEnd := true })
        (s.modRegion rid fun r => { r with run := .stopping, due := false, migration := migration })
    else if r.run = .running then s.modRegion rid fun r => { r with due := true, migration := migration }
    else s
  | none => s

/-- Stops that were due begin (R177). -/
def State.beginDue (s : State) : State :=
  (s.regions.filter fun e => e.2.due && s.mayPreempt e.2).foldl (fun t e => t.beginStop e.1 e.2.migration) s

/-- Whether a line lies in a slice of some courses. -/
def lineIn (cs : List Nat) (line : Nat) : Bool :=
  match homeOf (line * 64) with | .slice core _ => cs.contains (core / 8) | _ => false

/-- Reports that are on their way to a region's entries reach them (R263). -/
def State.settleReports (s : State) (r : Region) : State :=
  (s.filters.filter fun x => x.hit && r.cores.contains x.core).foldl
    (fun s x => s.latchWhere x.core (fun e w => e == x.entry && w.line == x.line) 0)
    { s with filters := s.filters.filter fun x => !(x.hit && r.cores.contains x.core) }

/-- The registrations of a region's entries go with its image: those at its own slices into the image, the others stay at their
homes for the image's core (R263, R264). -/
def State.keepFilters (s : State) (rid : BitVec 16) (r : Region) : State :=
  { s with filters := s.filters.filterMap fun x =>
      if !r.cores.contains x.core then some x
      else if lineIn r.courses x.line then none
      else some { x with core := imageCore rid (s.cidOf x.core) } }

/-- The image of a region (R173 to R175). -/
def State.imageOf (s : State) (r : Region) : Saved where
  ctxs := (s.ctxsOf r.courses).map fun a => (reAgent s.ocn a, s.ctx a)
  cores := r.cores.map fun n => (s.cidOf n, (s.core n).re s.ocn)
  courses := r.courses.map fun c =>
    let k := s.course c
    (s.ocn c, { k with copies := (k.copies.filter fun j => j.who.program).map (CopyJob.re s.ocn) })
  colls := r.colls.map (Coll.re s.ocn)
  reqs := (s.fabric.filter fun q => inCourses r.courses q.src).map fun q => { q with src := reAgent s.ocn q.src }
  replies := (s.replies.filter fun q => inCourses r.courses q.dst).map fun q => { q with dst := reAgent s.ocn q.dst }
  watched := (s.filters.filter fun x => r.cores.contains x.core && lineIn r.courses x.line).map fun x =>
    { x with line := reLine s.ocn x.line, core := s.cidOf x.core }

/-! ### Replies of the plinth (R386, R389) -/

/-- A function of the host link. -/
def State.fn (s : State) (n : Nat) : Fn := Map.get Fn.fresh s.fns n

/-- Changes a function of the host link. -/
def State.modFn (s : State) (n : Nat) (f : Fn → Fn) : State := { s with fns := Map.set s.fns n (f (s.fn n)) }

/-- The plinth's reply to a request (R389). -/
def State.reply (s : State) (fn : Nat) (rid : BitVec 16) (status : Nat) : State :=
  s.modFn fn fun x => { x with reply := BitVec.ofNat 64 (bit' true 63 + at' rid.toNat 16 + status) }

/-- A region stops, its state is saved, and its courses are freed (R173). -/
def State.save (s : State) (rid : BitVec 16) (run : RegionRun) : State :=
  match s.region? rid with
  | some r =>
    let mine := inCourses r.courses
    let s := (s.stopCourses r.courses).writeImages r.courses
    let s := (r.courses.foldl State.pauseWatches s).settleReports r
    let r := (s.region? rid).getD r
    let image := s.imageOf r
    let s := r.cores.foldl (fun s n => s.saveSlice r.eff.save n (s.cidOf n)) s
    let s := { s with fabric := s.fabric.filter fun q => !mine q.src, replies := s.replies.filter fun q => !mine q.dst }
    let s := r.courses.foldl State.freeCourse (s.keepFilters rid r)
    s.modRegion rid fun r => { r with run := run, saved := some image, courses := [], colls := [] }
  | none => s

/-- The stop of a region ends with its state saved (R173 step 7). A migration stop is answered; no time counts in it from its notice
until the region is resumed (R359, R389, R396). -/
def State.finishStop (s : State) (rid : BitVec 16) : State :=
  match s.region? rid with
  | some r => match r.migration with
    | some fn => ((s.save rid .migrating).modRegion rid fun r => { r with migration := none, still10 := 0 }).reply fn 0 0
    | none => s.save rid .preempted
  | none => s

/-- Whether the time slice of a region, in microseconds of device time from its launch or resumption, has ended; a slice of 0 never
does (R177, R329). -/
def Region.sliceOver (r : Region) (now : Nat) : Bool := r.eff.slice != 0 && decide (r.slice10 + r.eff.slice.toNat * 10000 ≤ now)

/-- PREEMPTION: the time slice of a region has ended, and the plinth posts the notice (R173, R177, R329). Its
second occurrence is the end of the stop: every core has stopped, the region's state is saved, and its courses are freed. -/
def execPreemption (rid : Nat) (s : State) : Host.Outcome State Fault Refusal :=
  let rid := BitVec.ofNat 16 rid
  .next <| match s.region? rid with
  | some r =>
    if r.run = .stopping then s.finishStop rid
    else if r.sliceOver s.devTime then s.beginStop rid r.migration
    else s
  | none => s

/-- A course as a resumed region finds it: TLBs, miss table and arrival trace rings are empty, the bands are those of the new
site (R131, R220, R324, R347, R377). -/
def Course.resume (k old : Course) (healthy : BitVec 4) : Course :=
  Course.arrive { k with tlb := [], shot := [], replay := none, miss := old.miss, bank0 := old.bank0, bank1 := old.bank1,
                         token := none, notices := old.notices, stopped := false, tests := old.tests, testing := false, step := old.step,
                         sprintFrom := old.sprintFrom, sprintEnd := old.sprintEnd, idle := old.idle, coolUntil := old.coolUntil,
                         copies := old.copies ++ k.copies.map fun j => { j with id := old.nextCopy + j.id },
                         nextCopy := old.nextCopy + k.nextCopy } healthy

/-- A core as a resumed region finds it: its buffers are empty, its first 64 messages are back in the inbox, and the inbox image
holds them; a core that was power-gated still is (R175, R220, R324, R373). -/
def Core.resume (k : Core) : Core :=
  let k := k.refill
  { k with ring := [], ringHead := 0, l1 := [], fetch := [], rfile := [], fillQ := [], issuedAt := none, held := none,
           idleFrom := none, image := k.inbox }

/-- A context as a resumed region finds it: it continues at its resume address, whatever the bits 1:0 that a supervisor has put there
(log entry 81), or, where it is held, at `epc` when the supervisor resumes it (R174, R177). -/
def Ctx.goOn (c : Ctx) : Ctx :=
  if c.run = 0 || c.run = 2 then { c with arch := { c.arch with pc := c.resume } } else c

/-- The registrations of a resumed region's entries are those of its cores again (R263). -/
def State.takeFilters (s : State) (rid : BitVec 16) (v : Saved) (f : Nat → Nat) : State :=
  { s with filters := (s.filters.map fun x => match imageOf? x.core with
      | some (r, cid) => if r = rid then { x with core := reCore f cid } else x
      | none => x) ++ v.watched.map fun x => { x with line := reLine f x.line, core := reCore f x.core } }

/-- A saved image is given to courses, in the order of their owner course numbers; the save area keeps its bytes, and the region's time
slice begins (R175, R177, R186, R329). -/
def State.restore (s : State) (rid : BitVec 16) (v : Saved) (save : Word) (cs : List Nat) : State :=
  let f := courseOf cs
  let s := s.writeSaveArea save v
  let s := cs.zipIdx.foldl (fun s e =>
    let old := s.course e.1
    let k := Map.get (Course.fresh old.present) v.courses e.2
    let k := { k with copies := k.copies.map (CopyJob.re f) }
    (s.setCourse e.1 (k.resume old (s.block (s.siteOf e.1)).healthy)).modSite e.1 fun x =>
      { x with rid := rid, ocn := BitVec.ofNat 8 e.2 }) s
  let s := v.cores.foldl (fun s e => s.setCore (reCore f e.1) (e.2.re f).resume) s
  let s := v.ctxs.foldl (fun s e => s.setCtx (reAgent f e.1) e.2.goOn) s
  let s := v.cores.foldl (fun s e => s.restoreSlice save (reCore f e.1) e.1) s
  let s := { s with fabric := s.fabric ++ v.reqs.map (fun (q : Req) => { q with src := reAgent f q.src }),
                    replies := s.replies ++ v.replies.map fun (q : Reply) => { q with dst := reAgent f q.dst } }
  let s := s.takeFilters rid v f
  let s := (s.modRegion rid fun r =>
    { r with run := .running, saved := none, courses := cs, colls := v.colls.map (Coll.re f), slice10 := s.devTime,
             quiet := true }).endStill rid
  let s := cs.foldl State.restoreArray s
  (v.ctxs.map fun e => reAgent f e.1).foldl (fun s a => if (s.ctx a).run = 0 then s.badHeader a else s) s

/-- The courses for a region that needs n of them: those named where they are such a choice, else the lowest free sites. -/
def State.pickCourses (s : State) (n : Nat) (named : List Nat) : Option (List Nat) :=
  let free := s.freeCourses
  if free.length < n then none
  else
    let pick := free.filter named.contains
    some (if pick.length = n && named.length = n then pick else free.take n)

/-- PREEMPTION_RESUME: a pre-empted region is given courses again, with its block's effective values fixed anew, and goes on
at its resume addresses (R177, R331). -/
def execPreemptionResume (rid : Nat) (courses : List Nat) (s : State) : Host.Outcome State Fault Refusal :=
  let rid := BitVec.ofNat 16 rid
  .next <| match s.region? rid with
  | some r =>
    match r.run, r.saved with
    | .preempted, some v =>
      let n := v.courses.length
      let ch := (s.readChain 8 r.rcb.toNat).getD []
      let chain := if ch.isEmpty then r.chain else chainOf ch
      let eff := if ch.isEmpty then r.eff else effective ch
      if chain.any fun c => decide (c.2.1 < s.subtreeCourses c.1 + n) then s
      else match s.pickCourses n courses with
        | some cs =>
          if cs.any fun c => s.pausing (c / 32) then s
          else
            let s := match ch with | [] => s | _ => s.loadRanks r.pkey ch
            (s.modRegion rid fun r => { r with eff := eff, chain := chain }).restore rid v r.eff.save cs
        | none => s
    | _, _ => s
  | none => s

/-! ### Resuming and ending as steps of the device -/

/-- Whether the supervisor reaches a context's area now: its course is not in a stop (R345). -/
def State.reachable (s : State) (a : Agent) : Bool := match a.course? with | some c => !s.inStop c | none => true

/-- CONTEXT_RESUME: the supervisor writes run := 00 (R168, R172, R373). -/
def execContextResume (a : Agent) (s : State) : Host.Outcome State Fault Refusal :=
  .next (if s.reachable a then s.resumeCtx a else s)

/-- CONTEXT_END: the supervisor writes run := 11 (R168, R169, R250, R305). -/
def execContextEnd (a : Agent) (s : State) : Host.Outcome State Fault Refusal :=
  .next (if s.reachable a && a.program then s.endCtx a else s)

end Sys2Proof.Machine
end

