-- ==== Sys2Proof/Machine/Superstep.lean ====
section
/-! DEFINITION. Supersteps: `xphase`, `ssync`, `vote`, the keystone, the watchdog and votes (R222, R351 to R355, R360 to
R363), and the snapshot point (R183). -/

namespace Sys2Proof.Machine

open Sys2Proof

/-- Control contexts that a region's keystone counts, by core on the device (R352). -/
def State.counted (s : State) (r : Region) : List Nat :=
  r.cores.filter fun n => let c := s.ctx (ctxOf n 0); c.run == 0 || c.run == 1

/-- `xphase` (R361). -/
def execXphase (g : PReg) (s : State) : Host.Outcome State Fault Refusal :=
  issue (.xphase g) s fun s =>
    .done (s.modCtx s.cur fun c => { c with exchange := true }) []

/-- A control context arrives at its region's keystone; the first arrival starts the watchdog (R353, R354). -/
def State.arriveKeystone (s : State) (core : Nat) : State :=
  s.modRegion (s.ownerRid (core / 8)) fun r =>
    { r with arrived := r.arrived ++ [s.cidOf core], wdFrom := r.wdFrom.or (some r.gtime10) }

/-- `ssync` (R362). -/
def execSsync (g : PReg) (s : State) : Host.Outcome State Fault Refusal :=
  issue (.ssync g) s fun s =>
    let s := s.modCtx s.cur Ctx.closeWindows
    match s.cur.core? with
    | some n =>
      if (s.ctx s.cur).incomplete then .wait (s.stall s.cur)
      else .wait ((s.arriveKeystone n).park s.cur (.ssync g))
    | none => .done s []

/-- A value arrives at vote k of a region (R363). -/
def addVote (k : Nat) (cid : Nat) (x : Word) : List Vote → List Vote
  | [] => [⟨k, [(cid, x)]⟩]
  | v :: vs => if v.ord = k then { v with vals := v.vals ++ [(cid, x)] } :: vs else v :: addVote k cid x vs

/-- `vote` (R363). -/
def execVote (op : VoteOp) (d a : Reg) (g : PReg) (s : State) : Host.Outcome State Fault Refusal :=
  issue (.vote op d a g) s fun s =>
    let c := s.ctx s.cur
    match s.cur.core? with
    | some n =>
      if !s.performed s.cur false then .wait (s.stall s.cur)
      else
        let k := c.voteOrd
        let s := s.modRegion (s.ownerRid (n / 8)) fun r => { r with votes := addVote k (s.cidOf n) (c.x a.val) r.votes }
        let s := s.modCtx s.cur fun c => { c with voteOrd := (k + 1) % 2 ^ 16 }
        .wait (s.park s.cur (.vote k op d a g))
    | none => .done s []

/-- The combination of a vote's values by one operation; min and max are signed (R363). -/
def combine (op : VoteOp) : List Word → Word
  | [] => 0
  | x :: xs => xs.foldl (fun a b => match op with
      | .and => a &&& b
      | .or => a ||| b
      | .min => if a.slt b then a else b
      | .max => if a.slt b then b else a) x

/-- A message of the control class reaches a core: while the core's course moves it sinks into a mortar buffer (R341). -/
def State.control (s : State) (n : Nat) (m : MortarItem) (f : State → State) : State :=
  if s.gated n then { s with mortar := s.mortar ++ [⟨n, m⟩] } else f s

/-- The result of vote k reaches a core whose control context is parked in it (R363). -/
def State.takeVote (s : State) (n k : Nat) (x : Word) : State :=
  let a := ctxOf n 0
  match (s.ctx a).park with
  | some (.vote j op d xa g) => if j = k then s.completeParked a (.vote op d xa g) [.toX d.val x] else s
  | _ => s

/-- The result that the control context of a core takes from some values, by its own operation (R363). -/
def State.voteResult (s : State) (n : Nat) (vals : List Word) : Word :=
  match (s.ctx (ctxOf n 0)).park with | some (.vote _ op ..) => combine op vals | _ => 0

/-- The completion of a keystone reaches a core whose control context is parked in `ssync` (R353, R362). -/
def State.takeKeystone (s : State) (n : Nat) : State :=
  match (s.ctx (ctxOf n 0)).park with
  | some (.ssync g) => s.completeParked (ctxOf n 0) (.ssync g) []
  | _ => s

/-- VOTE_COMPLETION: every counted control context has arrived at vote k, and each receives its own operation's combination
(R363). -/
def execVoteCompletion (rid k : Nat) (s : State) : Host.Outcome State Fault Refusal :=
  let rid := BitVec.ofNat 16 rid
  .next <| match s.region? rid with
  | some r =>
    match r.votes.find? fun v => v.ord == k with
    | some v =>
      let all := (s.counted r).all fun n => (Map.find v.vals (s.cidOf n)).isSome
      if r.run == .running && all then
        let s := s.modRegion rid fun r => { r with votes := r.votes.filter fun v => v.ord != k }
        r.cores.foldl (fun s n =>
          let x := s.voteResult n (v.vals.map (·.2))
          s.control n (.vote k x) fun s => s.takeVote n k x) s
      else s
    | none => s
  | none => s

/-! ### The keystone -/

/-- The snapshot point of a region (R183, R252). -/
def State.snapshot (s : State) (r : Region) : Snapshot where
  ctxs := ((s.ctxsOf r.courses).filter fun a => (s.ctx a).run != 3).map fun a => (reAgent s.ocn a, (s.ctx a).stop)
  cores := r.cores.map fun n =>
    let k := s.core n
    (s.cidOf n, ⟨k.inbox, k.spill, k.resv, reWatches s.ocn k.watches, k.slots, k.dropped, k.sweep, k.tags, k.order, k.gang⟩)
  jobs := r.courses.map fun c => (s.ocn c, (s.course c).jobs, (s.course c).nextId)

/-- The helper contexts of a region. -/
def State.helpers (s : State) (r : Region) : List Agent := (s.ctxsOf r.courses).filter fun a => a.tid != 0

/-- Whether the copies and collectives that a region's contexts issued before their cores' `ssync` have all ended (R222). -/
def State.enginesQuiet (s : State) (r : Region) : Bool :=
  (r.colls.all fun c => c.joins.all fun j => j.after) &&
    r.courses.all fun c => (s.course c).copies.all fun j => !j.who.program || j.after

/-- Whether a context has an access that it issued before its core's `ssync` and that waits for a page (R222, R321). -/
def State.missing (s : State) (a : Agent) : Bool :=
  match a.course? with
  | some c => (s.course c).miss.any fun m => m.who == a && m.engine.isNone && !m.after
  | none => false

/-- Everything of a region that its contexts have issued comes before the next `ssync` (R222). -/
def State.beforeNext (s : State) (r : Region) : State :=
  r.courses.foldl (fun s c => s.modCourse c fun k =>
    { k with copies := k.copies.map fun j => { j with after := false }, miss := k.miss.map fun m => { m with after := false } }) s

/-- The registers of a region's live contexts are written back for the snapshot point (R183, R353). -/
def State.writeBackAll (s : State) (r : Region) : State :=
  ((s.ctxsOf r.courses).filter fun a => (s.ctx a).run != 3).foldl State.writeBack s

/-- Whether every counted control context has arrived and no vote is pending, and nothing that the region's helpers have issued
waits for a page or for the commit token (R222, R353). -/
def State.keystoneDue (s : State) (r : Region) : Bool :=
  r.run == .running && !r.arrived.isEmpty && r.votes.isEmpty &&
    (s.counted r).all (fun n => r.arrived.contains (s.cidOf n)) && s.enginesQuiet r &&
    (s.helpers r).all fun a => s.canClose a && !s.missing a

/-- KEYSTONE_COMPLETION (R353): accesses issued before it are performed, which closes the helpers' chunks; the journals are
cleared, `sscount` advances, counted contexts return to the compute phase, each parked `ssync` performs, registers are written back,
and the snapshot point is taken. At a core whose course moves the completion sinks into a mortar buffer (R341). -/
def execKeystoneCompletion (rid : Nat) (s : State) : Host.Outcome State Fault Refusal :=
  let rid := BitVec.ofNat 16 rid
  .next <| match s.region? rid with
  | some r =>
    if !s.keystoneDue r then s
    else
      let mine := inCourses r.courses
      let t := ((s.helpers r).foldl (fun s a => s.close a) s).drain mine
      if t.hasAccess mine then s
      else
        let t := r.cores.foldl (fun s n => s.modCore n fun k => { k with journal := Journal.clear }) t
        let t := t.modRegion rid fun r =>
          { r with sscount := r.sscount + 1, arrived := [], wdFrom := none, wdFired := false, supSince := [],
                   colls := r.colls.map fun c => { c with joins := c.joins.map fun j => { j with after := false } } }
        let t := (s.counted r).foldl (fun s n =>
          s.modCtx (ctxOf n 0) fun c => { c with exchange := false, voteOrd := 0 }) (t.beforeNext r)
        let p := ((r.cores.foldl State.takeKeystone t).writeBackAll r).snapshot r
        ((r.cores.foldl (fun s n => s.control n .keystone fun s => s.takeKeystone n) t).writeBackAll r).modRegion rid fun r =>
          { r with snap := some p }
  | none => s

/-! ### The watchdog (R354) -/

/-- A control context withdraws from a vote at which it is parked (R354). -/
def State.withdraw (s : State) (n : Nat) : State :=
  match (s.ctx (ctxOf n 0)).park with
  | some (.vote k ..) =>
    (s.modRegion (s.ownerRid (n / 8)) fun r =>
      { r with votes := (r.votes.map fun v =>
          if v.ord = k then { v with vals := v.vals.filter fun e => e.1 != s.cidOf n } else v).filter fun v => !v.vals.isEmpty }).modCtx
      (ctxOf n 0) fun c => { c with voteOrd := k }
  | _ => s

/-- A control context takes cause 0x0B at the instruction at which it stands (R354). -/
def State.watchdogTrap (s : State) (n : Nat) (count : Word) : State :=
  let a := ctxOf n 0
  let s := (s.withdraw n).close a
  let epc := if (s.ctx a).run = 1 then (s.ctx a).epc else (s.ctx a).arch.pc
  (s.loseMember a false).deliver a (.at 0x0B 0 count) epc

/-- SUPERSTEP_WATCHDOG: region time has advanced by the limit since the first arrival (R354). -/
def execSuperstepWatchdog (rid : Nat) (s : State) : Host.Outcome State Fault Refusal :=
  let rid := BitVec.ofNat 16 rid
  .next <| match s.region? rid with
  | some r =>
    let due := match r.wdFrom with
      | some t => r.eff.watchdog != 0 && !r.wdFired && decide (t + r.eff.watchdog.toNat * 10000 ≤ r.gtime10)
      | none => false
    let late := (s.counted r).filter fun n => !r.arrived.contains (s.cidOf n)
    if due && r.run == .running && !(r.courses.any s.inStop) &&
        late.all (fun n => s.canClose (ctxOf n 0) && !s.amoOut (ctxOf n 0)) then
      late.foldl (fun s n => s.watchdogTrap n r.sscount) (s.modRegion rid fun r => { r with wdFired := true })
    else s
  | none => s

end Sys2Proof.Machine
end

