-- ==== Sys2Proof/Machine/Errors.lean ====
section
/-! DEFINITION. Errors: the error banks, targeted self-test, containment, rollback, region faults and the warm reset (R20,
R178 to R185). -/

namespace Sys2Proof.Machine

open Sys2Proof

/-! ### Error banks (R178 to R180) -/

/-- Code of a unit kind (R178). -/
def kindCode : UnitKind → Nat
  | .sram => 1
  | .band => 2
  | .regfile => 3
  | .plumb => 4
  | .quoinMem => 5
  | .link => 6
  | .hbm => 7
  | .queue => 8

/-- Word 0 of a bank that holds a new record (R179). -/
def recordWord (e : ErrorEvent) (count : Nat) : Word :=
  BitVec.ofNat 64 (bit' true 63 + bit' e.uncorrectable 62 + at' (kindCode e.kind) 48 + at' e.index.toNat 40 + at' e.core.val 37 +
    at' e.syndrome.toNat 16 + count)

/-- A bank's words after an error arrives (R180). -/
def bankAfter (w0 w1 : Word) (e : ErrorEvent) : Word × Word :=
  let count := min (fld w0 0 16 + 1) 0xFFFF
  let counted := BitVec.ofNat 64 (w0.toNat / 2 ^ 16 * 2 ^ 16 + count)
  if !w0.getLsbD 63 then (recordWord e 0, e.addr.setWidth 64)
  else if e.uncorrectable && !w0.getLsbD 62 then (recordWord e count, e.addr.setWidth 64)
  else if e.uncorrectable then (counted ||| 0x2000000000000000#64, w1)
  else (counted, w1)

/-- Bank words and lines that an uncorrectable error affects, by location / 8 (R191); the line's address within its memory
is the event's, and an error of the link kind with an address is one of a line of host memory (log entry 25). -/
def poisonsOf (e : ErrorEvent) (course : Nat) : List Nat :=
  let line (l : Nat) : List Nat := (List.range 8).map fun i => l / 64 * 8 + i
  if !e.uncorrectable then []
  else match e.kind with
    | .sram => [Home.loc (.slice (coreId course e.core.val) (e.addr.toNat % 0x400000)) / 8]
    | .hbm => if e.addr.toNat < hbmSize then line (Home.loc (.hbm e.addr.toNat)) else []
    | .quoinMem => [Home.loc (.quoin course (e.addr.toNat % 0x80000)) / 8]
    | .link => if e.addr = 0 then [] else line (Home.loc (.host e.addr.toNat))
    | _ => []

/-- The unit that an error implicates (R178, R181). -/
def eventUnit (e : ErrorEvent) : TestUnit := ⟨BitVec.ofNat 8 (kindCode e.kind), e.index, BitVec.ofNat 3 e.core.val⟩

/-- Whether a unit is one that the quoin can test: a bank, a band, a register file, or a core (R178, R181; log entry 46). -/
def tested : UnitKind → Bool
  | .sram | .band | .regfile | .plumb | .queue => true
  | .quoinMem | .link | .hbm => false

/-- AN ERROR DETECTED in a course updates its bank, posts a notice, and makes a self-test of its unit due (R180, R181). -/
def State.recordError (s : State) (course : Nat) (e : ErrorEvent) : State :=
  let b := bankAfter (s.course course).bank0 (s.course course).bank1 e
  s.modCourse course fun k =>
    { k with bank0 := b.1, bank1 := b.2,
             tests := k.tests ++ (if !tested e.kind || k.tests.contains (eventUnit e) then [] else [eventUnit e]),
             notices := k.notices ++ [Notice.error e] }

/-- What an uncorrectable error affects in memory, until it is replaced (R191). -/
def State.poisonBy (s : State) (course : Nat) (e : ErrorEvent) : State :=
  { s with poison := s.poison ++ (poisonsOf e course).filter fun w => !s.poison.contains w }

/-- ERROR_RECORD (R180, R191). -/
def execErrorRecord (course : Nat) (e : ErrorEvent) (s : State) : Host.Outcome State Fault Refusal :=
  .next ((s.poisonBy course e).recordError course e)

/-- ERROR_BANK_CLEAR: writing 1 to valid clears both words (R179). -/
def execErrorBankClear (course : Nat) (s : State) : Host.Outcome State Fault Refusal :=
  .next (s.modCourse course fun k => { k with bank0 := 0, bank1 := 0 })

/-! ### Faults that the hardware finds beside an instruction's own checks (R165, R178, R191) -/

/-- Addresses that a vector load reads (R109, R197). -/
def Ctx.loadAddrs (c : Ctx) (mode : VAddr) (a : Reg) (m : Word) : List Word :=
  match winDx (winOf (c.x a.val)), mode with
  | some f, .unit => (List.range (dxBytes f / 8)).map fun i => c.x a.val + BitVec.ofNat 64 (8 * i)
  | some _, _ => []
  | none, _ => (laneAddrs c mode a (winSize (winOf (c.x a.val))) m).map (·.2)

/-- Addresses from which an instruction reads memory for its own context: loads, table jumps, atomics and cell forms (R67, R195, R197,
R201, R204, R205). -/
def State.accessed (s : State) (a : Agent) (i : Instr) : List Word :=
  let c := s.ctx a
  match i with
  | .ld _ _ _ b off _ => [effAddr c b off]
  | .jtab n b _ => [c.x b.val + (c.x n.val <<< 2)]
  | .cellrd _ b _ _ | .amo _ _ _ b _ _ | .cas _ _ b _ _ => [c.x b.val]
  | .faddx b v _ => (faddxParts c b v (s.guardMask a i)).map (·.1)
  | .pairWord _ _ (.load mode _ b _ _) => c.loadAddrs mode b (s.guardMask a i)
  | _ => match i.vec? with
    | some (.load mode _ b _ _, _) => c.loadAddrs mode b (s.guardMask a i)
    | _ => []

/-- Whether an instruction reads a register that the register file can hold, or a predicate: a source, or a vector or predicate
destination, whose other lanes it keeps (R77, R80). -/
def readsFile (i : Instr) : Bool := !i.srcs.isEmpty || i.names.any fun r => r.1 != .x

/-- Whether the result of an instruction is residue channels alone, which the plumb stage does not recompute (R178). -/
def channelsOnly (i : Instr) : Bool :=
  match i.vec? with
  | some (.radd .., _) | some (.rmul .., _) | some (.rfwd .., _) | some (.rbase .., _) => true
  | _ => false

/-- Whether an instruction uses the inbox or the watch table (R178). -/
def usesQueues : Instr → Bool
  | .recv .. | .peek .. | .mon .. | .mwait .. => true
  | _ => false

/-- Whether an address of an agent leads over a mesh or lintel link, to the host or to a peer device: its home is not near (R178,
R206). -/
def State.overLink (s : State) (a : Agent) (va : Word) : Bool :=
  match s.resolve a .read va with
  | .ok loc => !near a loc
  | _ => false

/-- Whether the instruction i, at which an agent stands, can meet a fault that no check of its own finds: a plumb mismatch; an
uncorrectable error of the register file, of a link that carried a line that it reads, or of the inbox and watch table (R80, R161,
R178, R191; log entry 25). One that raises cause 0x02 or 0x06 before its operands, or is guarded off, meets none (R32, R47). -/
def State.meets (s : State) (a : Agent) (i : Instr) (cause sub : BitVec 8) (faddr : Word) : Bool :=
  !s.illegal a i && s.guardMask a i != 0 && (s.denied a i).isNone && match cause.toNat, sub.toNat with
  | 0x0A, 0 => a.program && faddr == 0 && !channelsOnly i
  | 0x09, 3 => a.program && faddr == 0 && readsFile i
  | 0x09, 6 => faddr.toNat % 64 == 0 && (s.accessed a i).any fun w => (w &&& ~~~(63#64)) == faddr && s.overLink a w
  | 0x09, 8 => a.program && faddr == 0 && usesQueues i
  | _, _ => false

/-- Physical address of the line of a far access, 0 where it is in a slice (R179; log entry 25). -/
def State.lineAddr (s : State) (a : Agent) (va : Word) : BitVec 57 :=
  match s.resolve a .read va with
  | .ok loc => match homeOf loc with
    | .hbm p | .host p | .peer _ p => BitVec.ofNat 57 (p / 64 * 64)
    | _ => 0
  | _ => 0

/-- The error that a context or quoin finds with a cause of `State.meets`, as its course's bank records it: a plumb mismatch as one
that has been corrected, since its instruction is performed again, the others as uncorrectable. The syndrome and a link's port are
open (R178 to R180; log entry 25). -/
def State.foundError (s : State) (a : Agent) (cause sub : BitVec 8) (faddr : Word) : ErrorEvent :=
  let free := Config.freeWord s.freeCount
  let core : Fin 8 := match a with | .ctx _ k _ => Fin.ofNat 8 k | _ => 0
  let syn : BitVec 16 := free.setWidth 16
  if cause = 0x0A then ⟨false, .plumb, BitVec.ofNat 8 a.tid, core, syn, 0⟩
  else if sub = 3 then ⟨true, .regfile, 0, core, syn, 0⟩
  else if sub = 8 then ⟨true, .queue, 0, core, syn, 0⟩
  else ⟨true, .link, (free >>> 16).setWidth 8, core, syn, s.lineAddr a faddr⟩

/-- An error that an agent's instruction has met is recorded in its course's bank (R178, R180). -/
def State.recordFound (s : State) (a : Agent) (e : ErrorEvent) : State :=
  match a.course? with
  | some c => s.tick.recordError c e
  | none => s

/-- A member of a gang takes a trap at a transfer: the others complete it with the leader's outcome, which is not taken where the
leader is the member that traps, and the gang dissolves (R169, R303; log entry 63). Where a member has to wait, nothing happens yet. -/
def State.trapMember (s : State) (a : Agent) (i : Instr) (t : Trap) : State :=
  let g := s.group a
  let u := s.close a
  let w := g.foldl (fun w b =>
    let v := if b == a then w.deliver a t (s.trapPc a t 0) else { w with cur := b, together := true }.transfer i
    if v.lead.isSome then v
    else { v with lead := some (if v.trapped u b then u.leadPast b i.bytes else v.leadOf b i.bytes (u.ctx b).arch.pc) })
    { u with lead := none }
  if g.any w.waits then s else ({ w with lead := none, together := false } : State).splitGang u g

/-- TRAP: the instruction at which a context stands raises a cause that the hardware finds beside the instruction's own
checks, and the course's bank records the error (R165, R178, R180). -/
def execTrap (a : Agent) (cause sub : BitVec 8) (faddr : Word) (s : State) : Host.Outcome State Fault Refusal :=
  .next <| match s.nextInstr a with
  | some i =>
    if !s.ready a || !s.meets a i cause sub faddr then s
    else if !s.canTrap a then s
    else
      let t : Trap := ⟨cause, sub, faddr, false⟩
      let r := if i.transfer && decide (1 < (s.group a).length) then
          if (s.group a).all s.ready then s.trapMember a i t else s
        else s.raise a t 0
      if r.trapped s a then r.recordFound a (s.foundError a cause sub faddr) else s
  | none => s

/-! ### Targeted self-test (R181) -/

/-- A course stops for a self-test, as under R173 (R181, R264). -/
def State.beginTest (s : State) (course : Nat) : State :=
  let s := ((s.stopCourses [course]).writeImages [course]).pauseWatches course
  s.modCourse course fun k => { k with stopped := true, testing := true }

/-- A course goes on after a self-test; the pause's time goes to `pausedns` (R181, R359). -/
def State.endTest (s : State) (course : Nat) : State :=
  let s := s.modCourse course fun k => { k with stopped := false, testing := false, tests := k.tests.drop 1 }
  if s.ownerRid course = 0 then s else (s.restoreArray course).endStill (s.ownerRid course)

/-- What a self-test of a unit finds: a failed band leaves `present` and its site's bands; any other failed unit makes the site
unusable for owners (R131, R145, R181). -/
def State.testFound (s : State) (course : Nat) (u : TestUnit) (o : TestOutcome) : State :=
  let site := s.siteOf course
  match o with
  | .pass => s
  | .failedBand b =>
    let h := (s.block site).healthy &&& ~~~(1#4 <<< b.val)
    (s.modBlock site fun x => { x with healthy := h }).modCourse course fun k => (k.arrive h).emptyBand b.val
  | .failedUnit => s.modBlock site fun x => { x with failed := x.failed ++ [u] }

/-- Whether an outcome is one that a self-test of a unit can have: a band fails as a band, a bank, a register file or a core as a unit
(R181). -/
def TestUnit.admits (u : TestUnit) : TestOutcome → Bool
  | .pass => true
  | .failedBand b => u.kind == 2 && u.index == BitVec.ofNat 8 b.val
  | .failedUnit => u.kind == 1 || u.kind == 3 || u.kind == 4 || u.kind == 8

/-- TARGETED_SELF_TEST: the course stops, which takes time, and the step's second occurrence is the test's outcome, with which it
goes on (R181, R359). -/
def execTargetedSelfTest (course : Nat) (o : TestOutcome) (s : State) : Host.Outcome State Fault Refusal :=
  .next <| match (s.course course).tests with
  | [] => s
  | u :: _ =>
    if (s.course course).testing then
      if u.admits o then (s.testFound course u o).endTest course else s
    else if s.pausing (course / 32) || s.inStop course then s
    else s.beginTest course

/-! ### What an uncorrectable error is pinned to (R182) -/

/-- Cause and unit kind of a notice of an uncorrectable error; the record of an error stands for the cause 0x09 that its
consumer takes (R178, R182). -/
def Notice.fault? : Notice → Option (BitVec 8 × BitVec 8)
  | .trap _ _ _ cause _ =>
    if fld cause 0 8 = 0x09 then some (0x09, BitVec.ofNat 8 (fld cause 16 8))
    else if fld cause 0 8 = 0x0A then some (0x0A, 0x04) else none
  | .error e => if e.uncorrectable then some (0x09, BitVec.ofNat 8 (kindCode e.kind)) else none
  | _ => none

/-- A notice of an uncorrectable error. -/
def Notice.isError (n : Notice) : Bool := match n.fault? with | some x => x.1 == 0x09 | none => false

/-- Regions for which an HBM byte is mapped. -/
def State.pageOwners (s : State) (a : Nat) : List (BitVec 16) :=
  ((s.grants.filter fun g => g.rid != 0 && decide (g.base ≤ a) && decide (a < g.base + g.size)).map (·.rid)).eraseDups

/-- Regions that own what a notice of a course's quoin names: the slice line or the HBM page that failed, or the course whose unit
failed (R182). -/
def State.errorOwners (s : State) (course : Nat) (n : Notice) : List (BitVec 16) :=
  let owner := if s.ownerRid course = 0 then [] else [s.ownerRid course]
  match n with
  | .trap rid k t cause faddr =>
    if fld cause 16 8 = 7 then
      match s.resolve (.ctx course k t) .read faddr with
      | .ok loc => match homeOf loc with | .hbm a => s.pageOwners a | _ => [rid]
      | _ => [rid]
    else [rid]
  | .error e => if e.kind = .hbm then s.pageOwners e.addr.toNat else owner
  | _ => owner

/-- The notices of the uncorrectable errors that are pinned to a region go, as the region is rolled back or faults for them (R182;
log entry 48). -/
def State.dropErrors (s : State) (rid : BitVec 16) : State :=
  { s with courses := s.courses.map fun (e : Nat × Course) =>
      (e.1, { e.2 with notices := e.2.notices.filter fun n => !(n.isError && s.errorOwners e.1 n == [rid]) }) }

/-! ### Rollback (R183) -/

/-- The cores of a region, those of its image where it has one. -/
def State.coresOf (s : State) (r : Region) : List Core :=
  match r.saved with
  | some v => v.cores.map (·.2)
  | none => r.cores.map s.core

/-- Whether a region can be rolled back: a keystone has completed, and no slice shows overflow, far, array or rolled
(R183, R355). -/
def State.canRollback (s : State) (r : Region) : Bool :=
  r.snap.isSome && r.run != .stopping && (s.coresOf r).all fun k =>
    !k.journal.overflow && !k.journal.far && !k.journal.array && !k.journal.rolled

/-- A core whose slice has been restored from its journal: the pieces marked since the keystone are unmarked (R183, R190, R355). -/
def Core.unmark (k : Core) : Core :=
  { k with foot := k.journal.pieces.foldl (fun f p => if f.testBit p then f - 2 ^ p else f) k.foot,
           journal := { Journal.clear with rolled := true } }

/-- A slice is restored from its journal: lines take their pre-images, and pieces marked since the keystone are unmarked
(R183, R190, R355). -/
def State.rollSlice (s : State) (n : Nat) : State :=
  let j := (s.core n).journal
  let s := j.lines.foldl (fun s e =>
    { s with mem := Memory.write s.mem (e.1 * 64) e.2 }.heal (e.1 * 64) 64) s
  s.modCore n Core.unmark

/-- A core takes what the snapshot records of it (R183, R262), and its register file holds nothing; the rest of its state stands. -/
def Core.roll (k : Core) (p : CoreSnap) (f : Nat → Nat) (since : List Msg) : Core :=
  since.foldl Core.push { k with
    inbox := p.inbox, spill := p.spill, resv := p.resv, watches := reWatches f p.watches, slots := p.slots,
    dropped := p.dropped, sweep := p.sweep, tags := p.tags, order := p.order, gang := p.gang, gated := false, idleFrom := none,
    rfile := [], fillQ := [] }

/-- Entries of a watch table that stand in a home's filter: all but those of which a write was reported, or which a filter has
ejected (R263, R264). -/
def registered (ws : List (Nat × Watch)) : List (Nat × Watch) :=
  ws.filter fun e => e.2.latch != some 0 && e.2.latch != some 4

/-- The watches of a core, or of a core's image, stand in the filters of their homes: those that no registration names any more are
registered anew; a registration leaves a filter by a report or an ejection alone (R183, R254, R263). -/
def State.rearm (s : State) (n : Nat) (ws : List (Nat × Watch)) : State :=
  (registered ws).foldl
    (fun s e =>
      let r : Registration := ⟨e.2.line, n, e.1, false⟩
      if s.filters.any fun x => { x with hit := false } == r then s else s.register (e.2.line * 64) r) s

/-- What some agents have under way is discarded: requests in flight or at a port, and replies (R183, R390). -/
def State.dropWork (s : State) (mine : Agent → Bool) : State :=
  { s with fabric := s.fabric.filter (fun q => !mine q.src), replies := s.replies.filter (fun q => !mine q.dst),
           cores := s.cores.map fun e => (e.1, { e.2 with port := e.2.port.filter fun x => match x with
             | .req q => !mine q.src
             | .outside _ _ => true }) }

/-- A pre-empted region's saved slice is restored from its journal, in the region's save area (R183, R388). -/
def State.rollSaved (s : State) (save : Word) (k : Core) : State :=
  k.journal.lines.foldl (fun s e => match homeOf (e.1 * 64) with
    | .slice cid off =>
      let loc := Home.loc (.hbm (saveAddr save cid off))
      if saveAddr save cid off + 64 ≤ hbmSize then { s with mem := Memory.write s.mem loc e.2 }.heal loc 64 else s
    | _ => s) s

/-- The registrations at its own slices that an image holds, with those that its watch tables need (R263). -/
def Saved.rearm (v : Saved) : Saved :=
  let need : List Registration := v.cores.flatMap fun e => (registered e.2.watches).filterMap fun w =>
    match homeOf (w.2.line * 64) with | .slice _ _ => some ⟨w.2.line, e.1, w.1, false⟩ | _ => none
  { v with watched := v.watched ++ need.filter fun r => !(v.watched.any fun x => { x with hit := false } == r) }

/-- A pre-empted region returns to its last keystone in its image (R183). -/
def State.rollImage (s : State) (rid : BitVec 16) (r : Region) (v : Saved) (p : Snapshot) : State :=
  let s := v.cores.foldl (fun s e => s.rollSaved r.eff.save e.2) s
  let core (e : Nat × Core) : Nat × Core := (e.1, match Map.find p.cores e.1 with
    | some q => e.2.unmark.roll q id ((r.supSince.filter fun m => m.1 == e.1).map (·.2))
    | none => e.2)
  let course (e : Nat × Course) : Nat × Course := (e.1, match Map.find p.jobs e.1 with
    | some q => { e.2 with jobs := q.1, nextId := q.2, copies := [], miss := [], token := none }
    | none => e.2)
  let v : Saved := ({ v with ctxs := p.ctxs, cores := v.cores.map core, courses := v.courses.map course, colls := [], reqs := [],
                             replies := [] } : Saved).rearm
  let s := s.modRegion rid fun r => { r with saved := some v }
  v.cores.foldl (fun s e => s.rearm (imageCore rid e.1)
    (e.2.watches.filter fun w => match homeOf (w.2.line * 64) with | .slice _ _ => false | _ => true)) s

/-- A REGION RETURNS TO ITS LAST KEYSTONE (R183, R252, R262, R278): work since then is discarded, and with it what the region has had
of errors (R182). -/
def State.rollback (s : State) (rid : BitVec 16) : State :=
  let ended (r : Region) : Region := { r with arrived := [], votes := [], wdFrom := none, wdFired := false, colls := [] }
  match s.region? rid with
  | some r =>
    match r.snap, r.saved with
    | some p, some v => ((s.dropErrors rid).rollImage rid r v p).modRegion rid ended
    | some p, none =>
      let s := s.dropErrors rid
      let mine := inCourses r.courses
      let f := courseOf r.courses
      let s := r.cores.foldl State.rollSlice (s.dropWork mine)
      let s := { s with ctxs := s.ctxs.filter fun e => !mine e.1 }
      let s := p.ctxs.foldl (fun s e => s.setCtx (reAgent f e.1) e.2) s
      let s := p.cores.foldl (fun s e =>
        s.modCore (reCore f e.1) fun k => k.roll e.2 f ((r.supSince.filter fun m => m.1 == e.1).map (·.2))) s
      let s := r.cores.foldl (fun s n => s.rearm n (s.core n).watches) s
      let s := p.jobs.foldl (fun s e => s.modCourse (f e.1) fun k =>
        { k with jobs := e.2.1, nextId := e.2.2, copies := k.copies.filter (fun j => !j.who.program),
                 miss := k.miss.filter (fun m => !m.who.program), token := none }) s
      s.modRegion rid ended
    | none, _ => s
  | none => s

/-- ROLLBACK (R183). -/
def execRollback (rid : Nat) (s : State) : Host.Outcome State Fault Refusal :=
  .next <| match s.region? (BitVec.ofNat 16 rid) with
  | some r =>
    if s.canRollback r && !(r.courses.any s.inStop) then s.rollback (BitVec.ofNat 16 rid) else s
  | none => s

/-! ### Region faults (R184) -/

/-- A context is held without a trap of its own (R184). -/
def Ctx.holdFault (c : Ctx) : Ctx := if c.run = 3 then c else { c.stop with run := 1, park := none }

/-- A partition is told of a region fault, with its cause and unit (R184). -/
def State.tellFault (s : State) (key rid : BitVec 16) (cause unit : BitVec 8) : State :=
  { s with partitions := s.partitions.map fun (e : BitVec 16 × Partition) =>
      if e.1 = key then (e.1, { e.2 with faults := e.2.faults ++ [(rid, cause, unit)] }) else e }

/-- Every context of a region is held and its engines stop; its partition's supervisor takes the notice, at the quoins of its
courses and, whether it holds any or not, at its function (R184). -/
def State.faultRegion (s : State) (rid : BitVec 16) (cause unit : BitVec 8) : State :=
  match s.region? rid with
  | some r =>
    let s := (s.dropErrors rid).stopCourses r.courses
    let s := (s.ctxsOf r.courses).foldl (fun s a => s.modCtx a Ctx.holdFault) s
    let s := r.courses.foldl (fun s c => s.notify c (.regionFault rid cause unit)) s
    (s.modRegion rid fun r =>
      { r with faulted := true,
               saved := r.saved.map fun v => { v with ctxs := v.ctxs.map fun e => (e.1, e.2.holdFault) } }).tellFault r.pkey rid cause unit
  | none => s

/-- Whether a notice is about a region: a trap of one of its contexts, or a record of an error in a course it holds. -/
def Notice.about (rid : BitVec 16) (held : Bool) : Notice → Bool
  | .trap r _ _ _ _ => r == rid
  | .error _ => held
  | _ => false

/-- Cause and unit of the fault of a region: those of the oldest such notice at the quoins, else of the record in an error bank
(R184). -/
def State.faultUnit (s : State) (rid : BitVec 16) (r : Region) : BitVec 8 × BitVec 8 :=
  match s.courses.findSome? fun e =>
      (e.2.notices.filter (Notice.about rid (r.courses.contains e.1))).findSome? Notice.fault? with
  | some x => x
  | none => match r.courses.find? fun c => (s.course c).bank0.getLsbD 63 with
    | some c => (0x09, BitVec.ofNat 8 (fld (s.course c).bank0 48 8))
    | none => (0x09, 0)

/-- Regions in the fault domain of a region (R184). -/
def State.domain (s : State) (r : Region) : List (BitVec 16) :=
  (s.regions.filter fun e => e.2.eff.fdom == r.eff.fdom).map (·.1)

/-- Every region in the fault domain of a region faults, with a cause and a unit (R184). -/
def State.faultDomain (s : State) (r : Region) (x : BitVec 8 × BitVec 8) : State :=
  (s.domain r).foldl (fun t rid => t.faultRegion rid x.1 x.2) s

/-- Whether a course of a region of some fault domain is in a stop, for which a region fault waits (R345). -/
def State.domainStops (s : State) (r : Region) : Bool :=
  (s.domain r).any fun rid => match s.region? rid with | some q => q.courses.any s.inStop | none => false

/-- REGION_FAULT (R184); it waits for the end of a stop (R345). -/
def execRegionFault (rid : Nat) (s : State) : Host.Outcome State Fault Refusal :=
  .next <| match s.region? (BitVec.ofNat 16 rid) with
  | some r => if s.domainStops r then s else s.faultDomain r (s.faultUnit (BitVec.ofNat 16 rid) r)
  | none => s

/-! ### The warm reset (R9, R185, R400) -/

/-- The firmware image of a bring-up stage (R399). -/
def Device.firmware (d : Device) (stage : Nat) : Firmware :=
  Map.get ⟨(Config.firmware stage).1, (Config.firmware stage).2⟩ d.images stage

/-- Whether the image of a stage is signed under the key fused into Immund (R399). -/
def Device.verified (d : Device) (stage : Nat) : Bool :=
  Config.verifies Config.verifyKey (d.firmware stage).digest (d.firmware stage).signature

/-- The first of the stages that verify firmware whose image's signature fails, 0 where none does (R399). -/
def Device.unverified (d : Device) : Nat := (([1, 3].find? fun i => !d.verified i)).getD 0

/-- The measurement registers after some stages have extended theirs (R400). -/
def Device.extend (d : Device) (stages : List Nat) : List (Nat × BitVec 512) :=
  stages.foldl (fun m i => Map.set m i (Config.sha3 (natBytes 64 (Map.get 0 m i).toNat ++ natBytes 64 (d.firmware i).digest.toNat)))
    d.measure

/-- HBM of some regions is lost with the reset: its bytes read as bytes that nothing has written (log entry 5). -/
def State.loseHbm (s : State) (lost : List (BitVec 16)) : State :=
  (s.grants.filter fun g => lost.contains g.rid).foldl
    (fun s g => { s with mem := Memory.clear s.mem (Home.loc (.hbm g.base)) g.size }) s

/-- Regions whose HBM a warm reset loses: those in a fault domain that the error has touched (R185). -/
def State.lostIn (s : State) (touched : List (BitVec 16)) : List (BitVec 16) :=
  (s.regions.filter fun e => s.regions.any fun x => touched.contains x.1 && x.2.eff.fdom == e.2.eff.fdom).map (·.1)

/-- The corbels' state after a warm reset: what Immund, AER and the fuses hold stands, and stages 1 and 3 measure and verify their
firmware again, of which a stage behind a failed one does not run; only a power cycle leaves the safe state (R9, R398 to R400). -/
def Device.warm (d : Device) : Device :=
  let safe := d.statusState == 2
  let stop := d.unverified
  { Device.reset with
    fuses := d.fuses, aer := d.aer, standby := d.standby, images := d.images, spdm := d.spdm,
    measure := d.extend (if stop = 1 then [1] else [1, 3]),
    statusState := if safe || stop != 0 then 2 else 1,
    statusStage := if safe then d.statusStage else BitVec.ofNat 4 stop, fails := if safe then d.fails else [] }

/-- The courses after a warm reset, in which the targeted self-tests of the units that errors have implicated are due, at the sites where
the units are (R181, R400). -/
def State.warmCourses (s : State) : List (Nat × Course) :=
  (s.courses.filter fun e => !e.2.tests.isEmpty).foldl (fun m e =>
    let site := s.siteOf e.1
    Map.set m site { Course.fresh (s.block site).healthy with tests := e.2.tests }) []

/-- THE WARM RESET: everything but HBM, host and peer memory returns to its reset value, and every region ends; partitions,
functions and ports stand, and what self-test has found of the sites; each partition is told of each of its regions whether its
pages were preserved. Where a signature fails, the device is in the safe state, in which HBM is unpowered and the virtual functions are
disabled (R9, R185, R338, R382, R398 to R400). -/
def State.warmReset (s : State) (touched : List (BitVec 16)) : State :=
  let lost := s.lostIn touched
  let safe := s.dev.warm.statusState == 2
  let kept (key : BitVec 16) : List (BitVec 16 × Bool) :=
    (s.regions.filter fun e => e.2.pkey == key).map fun e => (e.1, !safe && !lost.contains e.1)
  let courses := s.warmCourses
  let s := (s.regions.filter fun e => !lost.contains e.1).foldl (fun s e => s.dropImage e.1) s
  let s := s.regions.foldl (fun s e => s.writeLive e.2.rcb.toNat 0) (s.loseHbm lost)
  let far (l : Nat) : Bool := match homeOf l with | .hbm _ => !safe | .host _ | .peer _ _ => true | _ => false
  { State.reset with
    mem := s.mem.filter fun c => far c.1
    poison := s.poison.filter fun w => far (w * 8)
    siteBlocks := s.siteBlocks.map fun e =>
      (e.1, { SiteBlock.fresh (s.siteEnabled e.1) with healthy := e.2.healthy, failed := e.2.failed })
    courses := courses
    fns := if safe then (List.range 64).map fun i => (i + 1, { Fn.fresh with enabled := false })
      else s.fns.map fun e => (e.1, { e.2 with target := 0, reply := 0, pri := [] })
    partitions := s.partitions.map fun (e : BitVec 16 × Partition) => (e.1, { e.2 with shortfall := 0, asked := [], kept := kept e.1 })
    ports := s.ports
    grants := s.grants.map fun g => { g with rid := 0, va := 0 }
    freeCount := s.freeCount
    agenda := s.agenda
    dev := s.dev.warm }

/-- WARM_RESET: `lost` names the regions whose fault domains the error touched (R185). -/
def execWarmReset (lost : List Nat) (s : State) : Host.Outcome State Fault Refusal :=
  .next (s.warmReset (lost.map (BitVec.ofNat 16)))

/-- STANDBY_TAKEOVER: the takeover by the standby plinth begins, and at the step's second occurrence it is complete; running
regions are not disturbed (R20). -/
def execStandbyTakeover (s : State) : Host.Outcome State Fault Refusal :=
  .next (if s.dev.takeover then { s with dev := { s.dev with standby := true, takeover := false } }
    else { s with dev := { s.dev with takeover := true } })

/-! ### Containment (R182) -/

/-- Whether a unit of the site on which a course stands has failed its self-test (R181). -/
def State.failedAt (s : State) (course : Nat) (u : TestUnit) : Bool := (s.block (s.siteOf course)).failed.contains u

/-- The placement of a slice offset under a swizzle tag (R193). -/
def swzOff (off tag : Nat) : Nat := if tag = 0 then off else off ^^^ (off / 2 ^ (4 + tag) % 16 * 16)

/-- The bank of a slice's word, as a unit (R178, R192). -/
def State.bankOf (s : State) (core off : Nat) : TestUnit :=
  ⟨1, BitVec.ofNat 8 (swzOff off (s.tagOf (Home.loc (.slice core off))).toNat / 8 % 32), BitVec.ofNat 3 (core % 8)⟩

/-- Whether a word that holds an error, in the line at a location, lies in a bank whose self-test has failed (R181). -/
def State.failedBank (s : State) (loc : Nat) : Bool :=
  s.poison.any fun w => w * 8 / 64 == loc / 64 && match homeOf (w * 8) with
    | .slice core off => s.failedAt (core / 8) (s.bankOf core off)
    | _ => false

/-- Whether a notice is about an error of a unit whose self-test has failed, whichever core consumed it: a further error of it is a
region fault (R181). -/
def State.fromFailed (s : State) (course : Nat) (n : Notice) : Bool :=
  match n with
  | .trap _ k t cause faddr =>
    let kind := fld cause 16 8
    if kind = 1 then match s.resolve (.ctx course k t) .read faddr with | .ok loc => s.failedBank loc | _ => false
    else (kind == 3 || kind == 8) && s.failedAt course ⟨BitVec.ofNat 8 kind, 0, BitVec.ofNat 3 k⟩
  | .error e => s.failedAt course (eventUnit e)
  | _ => false

/-- ERROR_CONTAINMENT: the quoin takes its oldest notice of an uncorrectable error and pins it to the one region that owns what
failed; that region is rolled back where that is possible and the unit has not failed its self-test, and faults otherwise. An error
that cannot be pinned to one region leads to a warm reset, with the HBM of the regions that it may be of lost (R181, R182, R185). -/
def execErrorContainment (course : Nat) (pinned : Option Nat) (s : State) : Host.Outcome State Fault Refusal :=
  .next <| match (s.course course).notices.find? Notice.isError with
  | none => s
  | some n =>
    let t := s.modCourse course fun k => { k with notices := k.notices.eraseP Notice.isError }
    match s.errorOwners course n, pinned with
    | [rid], some p =>
      match s.region? rid with
      | some r =>
        if BitVec.ofNat 16 p != rid || s.domainStops r then s
        else if s.canRollback r && !s.fromFailed course n then t.rollback rid
        else t.faultDomain r (n.fault?.getD (0x09, 0))
      | none => if BitVec.ofNat 16 p = rid then t else s
    | [_], none | _, some _ => s
    | os, none => t.warmReset os

end Sys2Proof.Machine
end

