-- ==== Sys2Proof/Machine/Rotation.lean ====
section
/-! DEFINITION. Rotation: circuits and their tables, the rotation clock, the pause, and failed sites (R332 to R347). -/

namespace Sys2Proof.Machine

open Sys2Proof

/-! ### Circuits (R333, R334, R337) -/

/-- The circuits of a layout, in ring order, as (row, column) (R333). -/
def circuitMenu (layout : Nat) : List (List (Nat × Nat)) :=
  match layout with
  | 0 => standardLayout
  | 1 => (List.range 4).map fun c => [0, 2, 4, 6, 7, 5, 3, 1].map fun r => (r, c)
  | 2 =>
    [[(0,0), (2,0), (1,1)], [(0,1), (2,1), (1,0)], [(0,3), (2,3), (1,2)], [(0,2), (2,2), (1,3)], [(3,0), (5,0), (4,1)],
     [(3,1), (5,1), (4,0)], [(3,3), (5,3), (4,2)], [(3,2), (5,2), (4,3)], [(6,0), (7,0), (7,1)], [(6,3), (7,3), (7,2)],
     [(6,1), (6,2)]]
  | _ => []

/-- A circuit table entry without relays (R337). -/
def circuitEntry (ring : List (Nat × Nat)) : Word :=
  BitVec.ofNat 64 (bit' true 63 + at' ring.length 48 + (ring.zipIdx.map fun e => at' (siteNo e.1) (5 * e.2)).sum)

/-- Ring length, relay bit and site of a position of a circuit table entry (R337). -/
def ringLen (w : Word) : Nat := fld w 48 4
/-- Whether a position is a relay (R337). -/
def isRelay (w : Word) (j : Nat) : Bool := w.getLsbD (40 + j)
/-- Site of a position (R337). -/
def ringSite (w : Word) (j : Nat) : Nat := fld w (5 * j) 5

/-- The next position after j that is not a relay (R332). -/
def nextPos (w : Word) (j : Nat) : Nat :=
  match (List.range (ringLen w)).find? fun i => !isRelay w ((j + 1 + i) % ringLen w) with
  | some i => (j + 1 + i) % ringLen w
  | none => j

/-- The plinth writes an ashlar's circuit table and site map at the first launch after reset (R333, R334, R337, R338). -/
def State.writeTables (s : State) (ashlar : Nat) : State :=
  let layout := s.dev.rotLayout.toNat
  let fused (c : Nat) : Bool := layout == 0 && s.dev.fuses[ashlar]?.any fun f => f.toNat == c
  let rings := (circuitMenu layout).zipIdx
  let s := s.modAshlar ashlar fun x =>
    { x with circuits := rings.map fun e => (e.2, if fused e.2 then 0 else circuitEntry e.1) }
  (List.range 32).foldl (fun s i =>
    let c := ashlar * 32 + i
    let place := rings.findSome? fun e => (e.1.findIdx? fun p => siteNo p == (s.site c).site.toNat).map fun j => (e.2, j)
    s.modSite c fun x => match place with
      | some (n, j) => { x with circuit := BitVec.ofNat 5 n, position := BitVec.ofNat 3 j }
      | none => { x with fixed := true }) s

/-- The circuit table entry of a course. -/
def State.circuitOf (s : State) (c : Nat) : Word := Map.get 0 (s.ashlar (c / 32)).circuits (s.site c).circuit.toNat

/-- Whether a course moves at a rotation (R332, R346). -/
def State.moves (s : State) (c : Nat) : Bool :=
  (s.site c).valid && !(s.site c).fixed && (s.circuitOf c).getLsbD 63 &&
    nextPos (s.circuitOf c) (s.site c).position.toNat != (s.site c).position.toNat

/-! ### Failed sites (R346) -/

/-- Dissolves a circuit that holds fewer than two courses: its remaining course is fixed. -/
def State.dissolveCircuit (s : State) (ashlar n : Nat) : State :=
  let w := Map.get 0 (s.ashlar ashlar).circuits n
  if w.getLsbD 63 && decide (circuitCourses w < 2) then
    let s := s.modAshlar ashlar fun x => { x with circuits := Map.set x.circuits n (w &&& ~~~(0x8000000000000000#64)) }
    (coursesOf ashlar).foldl (fun s c =>
      if (s.site c).valid && (s.site c).circuit.toNat == n then s.modSite c fun x => { x with fixed := true } else s) s
  else s

/-- FAILED SITE REMOVAL of a free course on an unusable site: the course ceases to exist, and its position becomes a relay
(R346). -/
def State.removeCourse (s : State) (c : Nat) : State :=
  let e := s.site c
  let inRing := !e.fixed && (s.circuitOf c).getLsbD 63
  let s := s.modSite c fun x => { x with valid := false }
  if inRing then
    (s.modAshlar (c / 32) fun x =>
      { x with circuits := Map.set x.circuits e.circuit.toNat
                 (Map.get 0 x.circuits e.circuit.toNat ||| BitVec.ofNat 64 (2 ^ (40 + e.position.toNat))) }).dissolveCircuit
      (c / 32) e.circuit.toNat
  else s

/-- Courses of an ashlar that stand on failed sites (R346). -/
def State.onFailed (s : State) (ashlar : Nat) : List Nat :=
  (coursesOf ashlar).filter fun c => (s.site c).valid && !(s.block (s.siteOf c)).usable

/-- Whether a course is held by an owner. -/
def State.held (s : State) (c : Nat) : Bool := s.ownerRid c != 0 && (s.ownerRegion c).isSome

/-- Handles every failed site of an ashlar (R346): a free course on one is removed; the pre-emption of an owner's region begins, or is
due where one of its courses is in a pause. -/
def State.removeFailed (s : State) (ashlar : Nat) : State :=
  (s.onFailed ashlar).foldl (fun s c =>
    if s.held c then s.beginStop (s.ownerRid c) (match s.ownerRegion c with | some r => r.migration | none => none)
    else s.removeCourse c) s

/-! ### The clock and the pause -/

/-- Whether a rotation of an ashlar is deferred now (R336): its last pause is not over, a region with a course on it is being
stopped, a course on it is in a self-test, or the standby plinth takes over. A launch takes no time here. -/
def State.defers (s : State) (ashlar : Nat) : Bool := s.pausing ashlar || s.stopUnderWay ashlar || s.dev.takeover

/-- The plinth posts a rotation to an ashlar: failed sites are removed, and where a course would move every course takes the
notice, from which it is stopped (R336, R339, R346, R358). While an owner of a failed site is being pre-empted, the rotation is
deferred. -/
def State.postRotation (s : State) (ashlar : Nat) : State :=
  let s := s.removeFailed ashlar
  if (s.onFailed ashlar).any s.held then s.modAshlar ashlar fun x => { x with deferred := true }
  else
    let s := s.modAshlar ashlar fun x => { x with deferred := false }
    if s.dev.rotEnable && (coursesOf ashlar).any s.moves then
      (coursesOf ashlar).foldl (fun s c => s.modCourse c fun k => { k with stopped := true })
        (s.modAshlar ashlar fun x => { x with phase := .posted })
    else s

/-- ROTATION_TICK: ticks advances in the rotation control word, and each ashlar's rotation is posted or deferred; a tick at a deferred
one is dropped for that ashlar (R335, R336, R364). -/
def execRotationTick (s : State) : Host.Outcome State Fault Refusal :=
  .next <| match s.dev.nextTick with
  | some t =>
    if t ≤ s.devTime then
      let s := { s with dev := { s.dev with
        rotTicks := s.dev.rotTicks + 1, prevTick := t, nextTick := some (t + s.dev.rotInterval.toNat * 10000000) } }.regWritten 0
      (List.range 8).foldl (fun s a =>
        if (s.ashlar a).deferred then s
        else if s.defers a then s.modAshlar a fun x => { x with deferred := true }
        else s.postRotation a) s
    else s
  | none => s

/-- ROTATION_DEFERRED_POST: what deferred a rotation has ended, and it is posted (R20, R28, R336, R346). -/
def execRotationDeferredPost (ashlar : Fin 8) (s : State) : Host.Outcome State Fault Refusal :=
  .next (if (s.ashlar ashlar.val).deferred && !s.defers ashlar.val then s.postRotation ashlar.val else s)

/-- ROTATION_STOP: steps 2 to 5 on every course of the ashlar; sprints end (R339, R379). -/
def execRotationStop (ashlar : Fin 8) (s : State) : Host.Outcome State Fault Refusal :=
  .next <|
    if (s.ashlar ashlar.val).phase = .posted then
      let cs := coursesOf ashlar.val
      let s := s.stopCourses cs
      let s := cs.foldl (fun s c => if (s.course c).step = 0 then s else s.modCourse c fun k => { k with sprintEnd := true }) s
      s.modAshlar ashlar.val fun x => { x with phase := .stopped }
    else s

/-- Whether a request is still to be performed before the lines of an ashlar move: an access of one of its courses to one of its slices,
or any `send` to one of its cores (R260, R339). -/
def State.inside (s : State) (ashlar : Nat) (q : Req) : Bool :=
  match q.op with
  | .send cid _ rid _ _ => match s.region? rid with
    | some r => match r.coreOf cid with | some n => n / 256 == ashlar | none => false
    | none => false
  | o => q.src.course?.any (· / 32 == ashlar) && match o.target with
    | some (loc, _) => match homeOf loc with | .slice core _ => core / 256 == ashlar | _ => false
    | none => false

/-- ROTATION_MOVE: once every request inside the ashlar is performed, and every `send` into it accepted or refused, the resident
lines move; what arrives for the ashlar's cores waits from here to the restart of their courses (R260, R339, R341, R342). -/
def execRotationMove (ashlar : Fin 8) (s : State) : Host.Outcome State Fault Refusal :=
  .next (if (s.ashlar ashlar.val).phase = .stopped && !(s.requests.any (s.inside ashlar.val)) then
      s.modAshlar ashlar.val fun x => { x with phase := .moved, moving := List.range 32 }
    else s)

/-! ### The move and the restart (R342 to R344) -/

/-- Pieces of slice k that are marked in a course of some courses that has an owner (R342). -/
def State.unionFoot (s : State) (cs : List Nat) (k : Nat) : Nat :=
  (cs.filter s.held).foldl (fun m c => m ||| (s.core (coreId c k)).foot) 0

/-- L of a circuit of some courses: line indices that are resident in any of them (R342, R343). -/
def State.residentLines (s : State) (cs : List Nat) : Nat :=
  if cs.any s.held then ((List.range 8).map fun k =>
    let m := s.unionFoot cs k
    288 + if m = 0 then 0 else 2 * (piecesOf m).length).sum
  else 0

/-- Relays of a circuit (R346). -/
def relays (w : Word) : Nat := ((List.range (ringLen w)).filter (isRelay w)).length

/-- The circuit on which a course moves with others; none for a course that is fixed or does not exist (R343). -/
def State.circuitNo (s : State) (c : Nat) : Option Nat :=
  if (s.site c).valid && !(s.site c).fixed && (s.circuitOf c).getLsbD 63 then some (s.site c).circuit.toNat else none

/-- Course indices whose restart has not ended, of one circuit or of none. -/
def State.group? (s : State) (ashlar : Nat) (n : Option Nat) : List Nat :=
  ((coursesOf ashlar).filter fun c => (s.ashlar ashlar).moving.contains (c % 32)).filter fun c => s.circuitNo c == n

/-- Cycles of a group's move: L + h on a circuit, 0 off any (R343). -/
def State.moveCycles (s : State) (ashlar : Nat) (n : Option Nat) : Nat :=
  match n with
  | some i =>
    let l := s.residentLines ((coursesOf ashlar).filter fun c => s.circuitNo c == n)
    if l = 0 then 0 else l + relays (Map.get 0 (s.ashlar ashlar).circuits i)
  | none => 0

/-- The group of courses that restarts next: the one whose move is the shortest (R343). -/
def State.nextGroup (s : State) (ashlar : Nat) : List Nat :=
  let all := (none :: (List.range 16).map some).filter fun n => !(s.group? ashlar n).isEmpty
  let best := all.foldl (fun (b : Option (Option Nat × Nat)) n =>
    let m := s.moveCycles ashlar n
    match b with
    | some (_, k) => if m < k then some (n, m) else b
    | none => some (n, m)) none
  match best with | some (n, _) => s.group? ashlar n | none => []

/-- The site map entry of a course at its new place (R332, R344). -/
def State.newPlace (s : State) (c : Nat) : SiteEntry :=
  let e := s.site c
  if s.moves c then
    let j := nextPos (s.circuitOf c) e.position.toNat
    { e with position := BitVec.ofNat 3 j, site := BitVec.ofNat 5 (ringSite (s.circuitOf c) j) }
  else e

/-- A course restarts at its new place (R131, R141, R264, R324, R344). -/
def State.restartCourse (s : State) (c : Nat) (e : SiteEntry) (moved : Bool) : State :=
  let s := (s.modSite c fun _ => e).pauseWatches c
  let healthy := (s.block (s.siteOf c)).healthy
  let s := (List.range 8).foldl (fun s k => s.modCore (coreId c k) fun x => { x with l1 := [] }) s
  let s := if s.held c then s.restoreArray c else s
  s.modCourse c fun k =>
    { k.arrive healthy with stopped := false, rotnCount := if moved then k.rotnCount + 1 else k.rotnCount }

/-- Whether a slice offset lies in a line that is resident in one of some courses, so that every site of their circuit moves its line of
that index (R342). -/
def State.lineMoves (s : State) (cs : List Nat) (k off : Nat) : Bool :=
  cs.any fun c => s.held c && (decide (progEnd ≤ off) || (s.core (coreId c k)).foot.testBit (off / 4096))

/-- Where an uncorrectable error of a slice is after some courses have moved from their old sites: a line that is resident in none of
them stays at its site, with the course that stands there now (R342). -/
def State.stayed (s t : State) (cs : List Nat) (w : Nat) : Nat :=
  match homeOf (w * 8) with
  | .slice core off =>
    let c := core / 8
    if !cs.contains c || s.lineMoves cs (core % 8) off then w
    else match cs.find? fun d => t.siteOf d == s.siteOf c with
      | some d => Home.loc (.slice (coreId d (core % 8)) off) / 8
      | none => w
  | _ => w

/-- What a mortar buffer held reaches its core (R341). -/
def State.handOn (s : State) (m : Mortar) : State :=
  match m.item with
  | .msg x => s.modCore m.core fun k => k.push x
  | .reply r => if r.op.verdict then s.takeVerdict r else s.takeReply r
  | .keystone => s.takeKeystone m.core
  | .vote k x => s.takeVote m.core k x

/-- What the mortar buffers hold for the cores of some courses is forwarded in order of arrival (R341). -/
def State.forwardMortar (s : State) (cs : List Nat) : State :=
  (s.mortar.filter fun m => cs.contains (m.core / 8)).foldl State.handOn
    { s with mortar := s.mortar.filter fun m => !cs.contains (m.core / 8) }

/-- Some courses of an ashlar stand at their new sites and go on; the pause ends with the last of them (R344). -/
def State.restart (s : State) (ashlar : Nat) (cs : List Nat) : State :=
  let places := cs.map fun c => (c, s.newPlace c, s.moves c)
  let rids := (places.map fun e => e.2.1.rid).foldl (fun l r => if r = 0 || l.contains r then l else l ++ [r]) []
  let t := places.foldl (fun t e => t.restartCourse e.1 e.2.1 e.2.2) s
  let t := { t with poison := t.poison.map (s.stayed t cs) }
  let t := t.modAshlar ashlar fun x =>
    let left := x.moving.filter fun i => !cs.contains (ashlar * 32 + i)
    { x with moving := left, phase := if left.isEmpty then .none else x.phase }
  rids.foldl State.endStill (t.forwardMortar cs)

/-- ROTATION_RESTART (R344): the courses of the circuit whose move is done next, or the courses that do not move, restart; the step
occurs once for each (R343). -/
def execRotationRestart (ashlar : Fin 8) (s : State) : Host.Outcome State Fault Refusal :=
  .next <|
    if (s.ashlar ashlar.val).phase = .moved then s.restart ashlar.val (s.nextGroup ashlar.val) else s

/-- ROTATION_CONTROL_WRITE: a plinth write of the rotation control word, which watches are told of (R335, R336, R364). -/
def execRotationControlWrite (v : Word) (s : State) : Host.Outcome State Fault Refusal :=
  .next ((s.writeRotation v).regWritten 0)

end Sys2Proof.Machine
end

