-- ==== Sys2Proof/Machine/Power.lean ====
section
/-! DEFINITION. Sensors, the observer, current control, boost, power gating, HBM heat and shortfall (R366 to R382). -/

namespace Sys2Proof.Machine

open Sys2Proof

/-! ### Writes of the register block by hardware and firmware (R364, R365) -/

/-- Changes a site block by a write of its words. -/
def State.writeBlock (s : State) (site : Nat) (f : SiteBlock → SiteBlock) : State :=
  (s.modBlock site f).regWritten (0x10000 + 64 * site)

/-! ### Sensors (R366, R369, R370) -/

/-- Neighbours of a sensor (R366). -/
def sensorNeighbours (i : Nat) : List Nat :=
  if i < 64 then
    let a := i / 8
    let near (x y : Nat) : Bool := decide (x ≤ y + 1) && decide (y ≤ x + 1)
    ((List.range 8).filter fun j => j != i % 8 && near (j / 2) (i % 8 / 2) && near (j % 2) (i % 2)).map fun j => 8 * a + j
  else if i < 72 then [8 * (i - 64), 8 * (i - 64) + 1]
  else [i / 2 * 2 + (1 - i % 2)]

/-- A sensor. -/
def State.sensor (s : State) (i : Nat) : Sensor := Map.get Sensor.fresh s.sensors i

/-- Distance of two readings, in 1/16 °C. -/
def spread (a b : Int) : Nat := (a - b).natAbs

/-- Whether a reading lies between −40 °C and 150 °C (R369). -/
def inRange (r : Int) : Bool := decide (-640 ≤ r) && decide (r ≤ 2400)

/-- Whether a reading disagrees with the model and with the mean of the non-suspect neighbours; one that has not reported has no
reading (R369). -/
def State.disagrees (s : State) (i : Nat) (r : Int) : Bool :=
  let ns := ((sensorNeighbours i).map s.sensor).filter fun n => n.seen && !n.suspect
  let sum := (ns.map fun n => n.reading.toInt).sum
  decide (192 < spread r (s.sensor i).model.toInt) &&
    (ns.isEmpty || decide (192 * ns.length < spread (r * ns.length) sum))

/-- Readings of a sensor's neighbours that have reported. -/
def State.neighbourReadings (s : State) (i : Nat) : List (Nat × BitVec 16) :=
  ((sensorNeighbours i).filter fun n => (s.sensor n).seen).map fun n => (n, (s.sensor n).reading)

/-- The 50 ms window of a sensor after a reading, and whether the sensor is stuck; its first reading opens the first window, and a
neighbour's first reading stands for it from then on (R369). -/
def State.window (s : State) (i : Nat) (r : BitVec 16) : Sensor × Bool :=
  let e := s.sensor i
  let fresh : Sensor := { e with first := r, firstAt := s.devTime, moved := false, neighbours := s.neighbourReadings i }
  if !e.seen || 8 < spread r.toInt e.first.toInt then (fresh, false)
  else
    let moved := e.moved || e.neighbours.any fun n => decide (32 < spread n.2.toInt (s.sensor n.1).reading.toInt)
    let first := (s.neighbourReadings i).filter fun n => (Map.find e.neighbours n.1).isNone
    if e.firstAt + 500000000 ≤ s.devTime then (fresh, moved) else ({ e with moved := moved, neighbours := e.neighbours ++ first }, false)

/-- A sensor after a reading (R369). -/
def State.sense (s : State) (i : Nat) (r : BitVec 16) : Sensor :=
  let (e, stuck) := s.window i r
  let e := { e with reading := r, seen := true }
  let reason : BitVec 2 := if !inRange r.toInt then 2 else if stuck then 1 else if s.disagrees i r.toInt then 3 else 0
  if !e.suspect then
    if reason = 0 then e
    else { e with suspect := true, reason := reason, soundFrom := none,
                  became := (e.became.filter fun t => decide (s.devTime ≤ t + 100000000000)) ++ [s.devTime] }
  else if 3 ≤ e.became.length then e
  else if inRange r.toInt && !stuck && decide (spread r.toInt e.model.toInt ≤ 48) then
    match e.soundFrom with
    | none => { e with soundFrom := some s.devTime }
    | some t => if t + 5000000000 ≤ s.devTime then { e with suspect := false, reason := 0, soundFrom := none } else e
  else { e with soundFrom := none }

/-- Whether a site is covered by one of two neighbouring ashlar sensors that are both suspect (R370). -/
def State.suspectPair (s : State) (site : Nat) : Bool :=
  let i := site / 32 * 8 + site % 32 / 8 * 2 + site % 4 / 2
  (s.sensor i).suspect && (sensorNeighbours i).any fun n => (s.sensor n).suspect

/-- Sets the cadence floors of an ashlar's sites (R370). -/
def State.setFloors (s : State) (ashlar : Nat) : State :=
  (coursesOf ashlar).foldl (fun s site =>
    let f := if s.suspectPair site then 4 else 1
    if (s.block site).floor = f then s else s.modBlock site fun b => { b with floor := f }) s

/-- SENSOR_REPORT (R366, R369, R370). -/
def execSensorReport (i : Fin 76) (reading : BitVec 16) (s : State) : Host.Outcome State Fault Refusal :=
  let t := { s with sensors := Map.set s.sensors i.val (s.sense i.val reading) }
  .next (if i.val < 64 then t.setFloors (i.val / 8) else t)

/-! ### The observer (R368, R375) -/

/-- A site's words at an observer update; crit that becomes 1 sets the gap to 7 and ends a sprint (R368, R375). -/
def State.observe (s : State) (r : SiteReport) : State :=
  let old := (s.block r.site).thermal
  let crit := decide (2000 ≤ r.est.toInt)
  let w := (old &&& 0x8000000000000000#64) ||| BitVec.ofNat 64 (bit' crit 62 + at' r.est.toNat 32 + r.pred.toNat)
  let s := s.writeBlock r.site fun b => { b with thermal := w, power := r.mw.setWidth 64 }
  if crit && !old.getLsbD 62 then (s.modBlock r.site fun b => { b with gap := 7 }).endSprint r.site else s

/-- OBSERVER_UPDATE: every thermal and power word is written, those of a site that is not named with the values they have, then the
sequence is incremented (R364, R368). -/
def execObserverUpdate (rs : List SiteReport) (models : List (Nat × BitVec 16)) (s : State) :
    Host.Outcome State Fault Refusal :=
  let s := models.foldl (fun s m => { s with sensors := Map.set s.sensors m.1 { s.sensor m.1 with model := m.2 } }) s
  let s := (List.range 256).foldl (fun s n => match rs.find? fun r => r.site == n with
    | some r => s.observe r
    | none => s.regWritten (0x10000 + 64 * n)) s
  .next ({ s with dev := { s.dev with observerSeq := s.dev.observerSeq + 1 } }.regWritten 8)

/-! ### Current control (R371) -/

/-- Hundredths of a volt at a clock step (R376). -/
def centivolts : Nat → Nat
  | 0 => 42
  | 1 => 44
  | _ => 46

/-- Clock step of the course on a site. -/
def State.stepAt (s : State) (site : Nat) : Nat := match s.courseAt site with | some c => (s.course c).step | none => 0

/-- An ampere in the unit of `State.current`: milliwatts × 42 × 44 × 46 / centivolts. -/
def ampere : Nat := 850080

/-- Predicted core-rail current (R371). -/
def State.current (s : State) : Nat :=
  ((s.siteBlocks.filter fun e => e.2.thermal.getLsbD 63).map fun e =>
    fld e.2.power 0 32 * (42 * 44 * 46 / centivolts (s.stepAt e.1))).sum

/-- Effective priority of the region on a site; free sites have priority 0 (R371). -/
def State.sitePriority (s : State) (site : Nat) : Nat :=
  match (s.courseAt site).bind s.ownerRegion with
  | some r => r.eff.priority.toNat
  | none => 0

/-- The site that current control raises next (R371). -/
def State.raiseNext (s : State) : Option Nat :=
  let better (a b : Nat × SiteBlock) : Bool :=
    let pa := s.sitePriority a.1
    let pb := s.sitePriority b.1
    decide (pa < pb) || (pa == pb && (decide (fld b.2.power 0 32 < fld a.2.power 0 32) ||
      (fld b.2.power 0 32 == fld a.2.power 0 32 && decide (a.1 < b.1))))
  ((((List.range 256).map fun n => (n, s.block n)).filter fun e => e.2.thermal.getLsbD 63 && decide (e.2.demand < 16)).foldl
    (fun best e => match best with
      | some b => if better e b then some e else some b
      | none => some e) none).map (·.1)

/-- Raises demands until the current recomputed for them is within the limit; what the recomputation gives is open (R371;
log entry 19). -/
def State.raiseDemands : Nat → State → State
  | 0, s => s
  | n + 1, s =>
    match s.raiseNext with
    | none => s
    | some site =>
      let t := (s.modBlock site fun b => { b with demand := 2 * b.demand }).tick
      let t := { t with dev := { t.dev with raised := site :: t.dev.raised.filter (· != site) } }
      if Config.freeBit s.freeCount then State.raiseDemands n t else t

/-- Halves the demand of the site raised most recently whose demand is above 1 (R371). -/
def State.lowerDemand (s : State) : State :=
  match s.dev.raised.find? fun n => decide (1 < (s.block n).demand) with
  | some n => s.modBlock n fun b => { b with demand := b.demand / 2 }
  | none => s

/-- Every site's cadence follows its demand and its floor (R371). -/
def State.writeCadences (s : State) : State :=
  (List.range 256).foldl (fun s n =>
    let c := BitVec.ofNat 5 (max (s.block n).demand (s.block n).floor)
    if (s.block n).cadence = c then s.regWritten (0x10000 + 64 * n) else s.writeBlock n fun b => { b with cadence := c }) s

/-- CURRENT_CONTROL, once for each 4 µs boundary of device time that has passed (R371). -/
def execCurrentControl (s : State) : Host.Outcome State Fault Refusal :=
  .next <|
    if s.devTime / 40000 ≤ s.dev.controlAt then s
    else
      let quiet (n : Nat) (s : State) : State := { s with dev := { s.dev with quiet := n } }
      let i := s.current
      let t := { s with dev := { s.dev with controlAt := s.dev.controlAt + 1 } }
      let t := if 4800 * ampere < i then quiet 0 (t.raiseDemands 1024)
        else if i < 4400 * ampere then
          if t.dev.quiet + 1 = 16 then quiet 0 t.lowerDemand else quiet (t.dev.quiet + 1) t
        else quiet 0 t
      t.writeCadences

/-! ### Boost (R377 to R380) -/

/-- A course after the interval that has just ended (R379). -/
def Course.interval (k : Course) (claims : Bool) (now : Nat) : Course :=
  if k.step = 2 then
    let p := k.permits - 1
    { k with permits := p, step := if p = 0 || !claims || k.sprintEnd then 1 else 2 }
  else if k.step = 1 then
    { k with step := 0, coolUntil := now + max 10000000 (now - k.sprintFrom.getD now), idle := 0, sprintFrom := none,
             sprintEnd := false }
  else if k.idle + 1 = 4 then { k with permits := min (k.permits + 1) 64, idle := 0 }
  else { k with idle := k.idle + 1 }

/-- The claimant of an ashlar that is granted next (R378): the highest effective priority, then the first course index after
the last grant. -/
def State.claimant (s : State) (ashlar : Nat) : Option Nat :=
  let cs := (coursesOf ashlar).filter fun c => (s.site c).valid && s.claims c && (s.course c).step == 0 && !(s.course c).stopped
  let prio (c : Nat) : Nat := s.sitePriority (s.siteOf c)
  let last := (s.ashlar ashlar).lastGrant.getD 31
  let turn (c : Nat) : Nat := (c % 32 + 31 - last) % 32
  cs.foldl (fun best c => match best with
    | some b => if prio b < prio c || (prio b == prio c && decide (turn c < turn b)) then some c else some b
    | none => some c) none

/-- Grants sprints on an ashlar while slots are free and the current admits them (R378). -/
def State.grantSprints (ashlar now : Nat) : Nat → Nat → State → State × Nat
  | 0, i, s => (s, i)
  | n + 1, i, s =>
    match s.claimant ashlar with
    | none => (s, i)
    | some c =>
      let i' := i + 45 * ampere / 10
      if 4800 * ampere < i' then (s, i)
      else
        let s := s.modCourse c fun k => { k with step := 2, sprintFrom := some now, sprintEnd := false, idle := 0 }
        State.grantSprints ashlar now n i' (s.modAshlar ashlar fun x => { x with lastGrant := some (c % 32) })

/-- One ashlar at a boundary: R379 for every course, a sprint in a rotation pause apart, which runs at the step in force, then the
grants (R378, R383). -/
def State.boostAshlar (s : State) (now i ashlar : Nat) : State × Nat :=
  let cs := (coursesOf ashlar).filter fun c => (s.site c).valid
  let claims := cs.map fun c => (c, s.claims c)
  let s := claims.foldl (fun s e =>
    if (s.course e.1).stopped && s.pausing ashlar && (s.course e.1).step != 0 then s
    else s.modCourse e.1 fun k => k.interval e.2 now) s
  let busy := (cs.filter fun c => (s.course c).step != 0).length
  State.grantSprints ashlar now ((s.ashlar ashlar).slots - busy) i s

/-- BOOST_BOUNDARY, once for each 4 µs boundary of device time that has passed (R378, R379). -/
def execBoostBoundary (s : State) : Host.Outcome State Fault Refusal :=
  .next <|
    if s.devTime / 40000 ≤ s.dev.boostAt then s
    else
      let now := (s.dev.boostAt + 1) * 40000
      let s := { s with dev := { s.dev with boostAt := s.dev.boostAt + 1 } }
      ((List.range 8).foldl (fun (x : State × Nat) a => x.1.boostAshlar now x.2 a) (s, s.current)).1

/-- SLOTS_UPDATE: the slots of an ashlar by the heat level of its stack (R378, R381). -/
def execSlotsUpdate (ashlar : Fin 8) (s : State) : Host.Outcome State Fault Refusal :=
  .next (s.modAshlar ashlar.val fun x =>
    { x with slots := match Map.get 0 s.dev.heat ashlar.val with | 0 => 14 | 1 => 1 | _ => 0 })

/-- BOOST_WRITE: a plinth write of `boost` (R380). -/
def execBoostWrite (v : Word) (s : State) : Host.Outcome State Fault Refusal := .next (s.writeBoost v)

/-! ### Power gating (R373) -/

/-- Whether a core's contexts all wait, are free or have ended, and no sweep runs (R373). -/
def State.coreIdle (s : State) (n : Nat) : Bool :=
  (List.range 11).all (fun t => let r := (s.ctx (ctxOf n t)).run; r == 2 || r == 3) && (s.core n).sweep.isNone

/-- POWER_GATE_ENTRY: a core found idle is gated once it has been so for 10 µs (R373). -/
def execPowerGateEntry (core : Nat) (s : State) : Host.Outcome State Fault Refusal :=
  .next <|
    if !s.coreIdle core then s
    else match (s.core core).idleFrom with
      | none => s.modCore core fun k => { k with idleFrom := some s.devTime }
      | some t => if t + 100000 ≤ s.devTime then s.modCore core fun k => { k with gated := true } else s

/-! ### HBM heat and shortfall (R381, R382) -/

/-- The temperature of a stack as its sensor gives it, a suspect reading replaced (R370, R381). -/
def State.stackTemp (s : State) (stack : Nat) : Int :=
  let e := s.sensor (64 + stack)
  if e.suspect then e.model.toInt + 80 else e.reading.toInt

/-- HBM_HEAT_LEVEL: a level is entered at its temperature, and left after 10 ms spent 3 °C or more below it; as level 2 is entered, the
ashlar's slots become 0 (R381, R383). -/
def execHbmHeatLevel (stack : Fin 8) (s : State) : Host.Outcome State Fault Refusal :=
  let n := stack.val
  let temp := s.stackTemp n
  let level := Map.get 0 s.dev.heat n
  let put (l : Nat) (since : List (Nat × Nat)) : State :=
    { s with dev := { s.dev with heat := Map.set s.dev.heat n l, heatSince := since } }
  let clear := Map.erase s.dev.heatSince n
  let entry : Int := if level = 2 then 1520 else 1360
  .next <|
    if 1520 ≤ temp && level < 2 then (put 2 clear).modAshlar n fun x => { x with slots := 0 }
    else if 1360 ≤ temp && level < 1 then put 1 clear
    else if level = 0 then s
    else if entry - 48 < temp then put level clear
    else match Map.find s.dev.heatSince n with
      | none => put level (Map.set s.dev.heatSince n s.devTime)
      | some t => if t + 100000000 ≤ s.devTime then put (level - 1) clear else s

/-- Bytes withheld in one microsecond, in 655,360ths of a byte: share × 3.6 TB/s × 2^−16, at 0.8 or 0.5 of it (R381,
R382). -/
def withheld (share level d : Nat) : Nat :=
  let g := share * 36000000
  let a := match level with | 0 => 10 | 1 => 8 | _ => 5
  min (d * 655360) g - min (d * 655360) (g * a / 10)

/-- What a partition requested of a stack in the oldest microsecond that has passed and that `shortfall` has not counted (R382). -/
def Partition.due (p : Partition) (stack now : Nat) : Option (Nat × Nat × Nat) :=
  p.asked.find? fun e => e.1 == stack && decide (e.2.1 < now)

/-- SHORTFALL_UPDATE: for each microsecond that has passed and each stack, the guaranteed bytes withheld are counted, of those that the
partition requested, which the step names; how a fraction of a byte is rounded is open (R382; log entry 19). -/
def execShortfallUpdate (pkey : BitVec 16) (stack : Fin 8) (requested : Nat) (s : State) :
    Host.Outcome State Fault Refusal :=
  .next <| match Map.find s.partitions pkey with
  | some p => match p.due stack.val (s.devTime / 10000) with
    | some e =>
      if e.2.2 != requested then s
      else
        let n := withheld p.share.toNat (Map.get 0 s.dev.heat stack.val) requested
        let up := n % 655360 != 0 && Config.freeBit s.freeCount
        let q : Partition :=
          { p with shortfall := p.shortfall + BitVec.ofNat 64 (n / 655360 + if up then 1 else 0), asked := p.asked.erase e }
        { s.tick with partitions := Map.set s.partitions pkey q }
    | none => s
  | none => s

end Sys2Proof.Machine
end

