-- ==== Sys2Proof/Machine/Host.lean ====
section
/-! DEFINITION. The host link, Gweam, partitions, launch and teardown, migration, and bring-up (R25 to R28, R385 to R400). -/

namespace Sys2Proof.Machine

open Sys2Proof

/-! ### Functions and replies (R386, R389) -/

/-- Whether a function's last request waits for its answer: it waits to be taken up, or the stop of a region that it asked for
has not ended (R389, R396). -/
def State.unanswered (s : State) (fn : Nat) : Bool :=
  (s.waiting.any fun q => q.fn == fn) || s.regions.any fun e => e.2.migration == some fn

/-- Whether the plinth takes a request of a function: the device is ready, the function is enabled, and its last request has
been answered and the reply read (R389, R398; log entry 42). -/
def State.takes (s : State) (fn : Nat) : Bool :=
  s.dev.statusState == 1 && (s.fn fn).enabled && !(s.fn fn).reply.getLsbD 63 && !s.unanswered fn

/-- Key of a request (R25, R389). -/
def msgKey (m : BitVec 128) : BitVec 16 := BitVec.ofNat 16 (m.toNat / 2 ^ 112)

/-- REPLY_WORD_READ: reading the reply word clears its valid bit (R389). -/
def execReplyWordRead (fn : Nat) (s : State) : Host.Outcome State Fault Refusal :=
  .next (s.modFn fn fun x => { x with reply := x.reply &&& ~~~(0x8000000000000000#64) })

/-! ### Launch (R25 to R28, R330, R331) -/

/-- The block that a launch message names; the message's reserved bits are ignored (R7, R8, R25). -/
def msgBlock (m : BitVec 128) : Nat := m.toNat % 2 ^ 57 / 256 * 256

/-- The first launch after reset: the circuit tables are written and the rotation clock starts (R335 to R337). -/
def State.firstLaunch (s : State) : State :=
  if s.dev.launched then s
  else
    let s := (List.range 8).foldl State.writeTables s
    { s with dev := { s.dev with launched := true, prevTick := s.devTime,
                                 nextTick := some (s.devTime + s.dev.rotInterval.toNat * 10000000) } }

/-- A course as launch leaves it; its error bank, the self-tests due, its clock and what is the quoin's own stand (R27, R123,
R377). -/
def Course.launch (k : Course) (healthy : BitVec 4) : Course :=
  { Course.fresh healthy with bank0 := k.bank0, bank1 := k.bank1, tests := k.tests, copies := k.copies,
                              notices := k.notices, miss := k.miss, coolUntil := k.coolUntil, step := k.step,
                              sprintFrom := k.sprintFrom, sprintEnd := k.sprintEnd, idle := k.idle, nextCopy := k.nextCopy,
                              clock80 := k.clock80 }

/-- A core of a launched region: empty inbox, watch table and stores, the image in its slice, context 0 at the entry point
(R13, R27, R162, R190); a registration leaves a home's filter by a report or an ejection alone (R254). Image bytes beyond the HBM are
zeros (log entry 42). -/
def State.launchCore (s : State) (b : Block) (deleg : BitVec 32) (n : Nat) : State :=
  let len := b.imglen.toNat
  let base := Home.loc (.slice n 0)
  let s := s.cleanSlice n
  let s := { s with mem := Memory.copyRange (Memory.clear s.mem base ((len + 4095) / 4096 * 4096)) (Home.loc (.hbm b.image.toNat))
                             (min len (hbmSize - b.image.toNat)) base }
  let s := (s.setCore n { Core.fresh with foot := 2 ^ ((len + 4095) / 4096) - 1 })
  let s := { s with ctxs := s.ctxs.filter fun e => e.1.core? != some n }
  s.setCtx (ctxOf n 0) (Ctx.start b.entry (deleg &&& delegable))

/-- THE LAUNCH of a region on some courses, given in the order of their owner course numbers (R22, R24, R27). -/
def State.startRegion (s : State) (fn : Nat) (key : BitVec 16) (ch : List Block) (b : Block) (cs : List Nat) : State :=
  let rid := s.newRid
  let eff := effective ch
  let s := s.firstLaunch.loadRanks key ch
  let s := cs.zipIdx.foldl (fun s e =>
    let s := s.setCourse e.1 ((s.course e.1).launch (s.block (s.siteOf e.1)).healthy)
    s.modSite e.1 fun x => { x with rid := rid, ocn := BitVec.ofNat 8 e.2 }) s
  let r : Region :=
    { fn := fn, rcb := BitVec.ofNat 64 b.addr, entry := b.entry, pkey := key, eff := eff, chain := chainOf ch, courses := cs,
      run := .running, due := false, migration := none, gtime10 := s.devTime, paused10 := 0, still10 := 0, slice10 := s.devTime, quiet := false,
      sscount := 0, dropcnt := 0, arrived := [], votes := [], wdFrom := none, wdFired := false, snap := none, supSince := [], colls := [],
      saved := none, faulted := false }
  let s := { s with regions := Map.set s.regions rid r }
  let s := r.cores.foldl (State.launchCore · b eff.deleg) s
  s.writeLive b.addr rid

/-- The status of a launch message and, where it is 0x00, what it takes, as the course budget gives it (R26, R330, R331). A block
at or above the end of the HBM is malformed, and where no `rid` is free no region can be (log entry 42). -/
def State.launchStatus (s : State) (fn : Nat) (m : BitVec 128) (give : List Block → Option (List Nat)) :
    Nat × List Block × List Nat :=
  let ch := (s.readChain 8 (msgBlock m)).getD []
  match ch with
  | [] => (1, [], [])
  | b :: _ =>
    if malformed ch || decide (hbmSize < msgBlock m + 256) then (1, ch, [])
    else if s.keyMismatch fn (msgKey m) ch then (3, ch, [])
    else if b.rid ≠ 0 then (4, ch, [])
    else match give ch with
      | some cs => if s.newRid = 0 then (2, ch, []) else (0, ch, cs)
      | none => (2, ch, [])

/-- The plinth answers a launch message (R26, R27). -/
def State.answerLaunch (s : State) (fn : Nat) (msg : BitVec 128) (courses : List Nat) : State :=
  match s.launchStatus fn msg (s.assign · courses) with
  | (0, b :: bs, cs) => (s.startRegion fn (msgKey msg) (b :: bs) b cs).reply fn s.newRid 0
  | (n, _, _) => s.reply fn 0 n

/-! ### Teardown and resets (R390, R391) -/

/-- The contexts of a region end in its image too (R390). -/
def State.endImage (s : State) (rid : BitVec 16) : State :=
  s.modRegion rid fun r => { r with saved := r.saved.map fun v =>
    { v with ctxs := v.ctxs.map fun e => (e.1, { e.2 with run := 3, park := none }) } }

/-- A region ends: every context ends, what its contexts have sent off is performed, its other work is discarded, its courses are free,
and its save area keeps its bytes (R186, R390). -/
def State.endRegion (s : State) (rid : BitVec 16) : State :=
  match s.region? rid with
  | some r =>
    let s := (s.endImage rid).dropImage rid
    let mine := inCourses r.courses
    let s := (s.drain mine).dropWork mine
    let s := { s with mortar := s.mortar.filter fun m => !r.courses.contains (m.core / 8) }
    let s := r.courses.foldl State.freeCourse s
    let s := r.cores.foldl (fun s n => s.setCtx (ctxOf n 0) Ctx.free) s
    let s := { s with
      regions := Map.erase s.regions rid
      courses := s.courses.map fun (e : Nat × Course) => (e.1, { e.2 with notices := e.2.notices.filter fun n => !n.about rid false })
      grants := s.grants.map fun (g : Grant) => if g.rid = rid then { g with rid := 0, va := 0 } else g }
    s.writeLive r.rcb.toNat 0
  | none => s

/-- A region and every region below it: those whose chain holds its block (R390). -/
def State.below (s : State) (r : Region) : List (BitVec 16) :=
  (s.regions.filter fun e => e.2.rcb == r.rcb || e.2.chain.any fun c => c.1 == r.rcb.toNat).map (·.1)

/-- Whether a course of some regions stands on an ashlar in a pause (R345). -/
def State.inPause (s : State) (rids : List (BitVec 16)) : Bool :=
  rids.any fun x => match s.region? x with | some r => r.courses.any fun c => s.pausing (c / 32) | none => false

/-- Whether a teardown or migration request has a reserved bit set (R389). -/
def ridReserved (m : BitVec 128) : Bool := m.toNat / 2 ^ 16 % 2 ^ 96 != 0

/-- The status of a request that names a region, and the region (R389). -/
def State.ridStatus (s : State) (fn : Nat) (m : BitVec 128) : Nat × Option Region :=
  let rid := BitVec.ofNat 16 m.toNat
  if ridReserved m then (1, none)
  else if s.keyOf fn ≠ some (msgKey m) then (3, none)
  else match s.region? rid with
    | some r => if r.pkey ≠ msgKey m then (3, none) else if r.run = .migrating then (6, some r) else (0, some r)
    | none => (6, none)

/-- The plinth answers a teardown; none while it waits for the end of a pause (R345, R389, R390). A region that its migration has
stopped is no longer live here (R388). -/
def State.answerTeardown (s : State) (fn : Nat) (msg : BitVec 128) : Option State :=
  match s.ridStatus fn msg with
  | (0, some r) =>
    if s.inPause (s.below r) then none else some (((s.below r).foldl State.endRegion s).reply fn 0 0)
  | (n, _) => some (s.reply fn 0 n)

/-- Regions of a partition. -/
def State.regionsOf (s : State) (key : BitVec 16) : List (BitVec 16) :=
  (s.regions.filter fun e => e.2.pkey == key).map (·.1)

/-- A partition's regions end, its shortfall is 0, and its function returns to its state after a Function Level Reset; a function
the safe state disabled stays disabled (R391, R398). -/
def State.resetPartition (s : State) (fn : Nat) (key : BitVec 16) : State :=
  let s := (s.regionsOf key).foldl State.endRegion s
  let s := { s with partitions := s.partitions.map fun (e : BitVec 16 × Partition) => if e.1 = key then (e.1, { e.2 with shortfall := 0 }) else e }
  s.modFn fn fun x => { Fn.fresh with enabled := x.enabled }

/-- The plinth answers a partition reset (R345, R389, R391). -/
def State.answerReset (s : State) (fn : Nat) (msg : BitVec 128) : Option State :=
  if msg.toNat % 2 ^ 112 ≠ 0 then some (s.reply fn 0 1)
  else if s.keyOf fn ≠ some (msgKey msg) then some (s.reply fn 0 3)
  else if s.inPause (s.regionsOf (msgKey msg)) then none
  else some ((s.resetPartition fn (msgKey msg)).reply fn 0 0)

/-- A Function Level Reset is performed (R345, R391). -/
def State.functionReset (s : State) (fn : Nat) : Option State :=
  match s.keyOf fn with
  | some key => if s.inPause (s.regionsOf key) then none else some (s.resetPartition fn key)
  | none => some (s.modFn fn fun x => { Fn.fresh with enabled := x.enabled })

/-! ### Migration (R396) -/

/-- The plinth takes a migration stop: the region stops, now or when a pause ends, and the reply is sent when its state is saved; a
region that a pre-emption is stopping or has stopped is the migration's from here on (R177, R359, R389, R396). -/
def State.answerStop (s : State) (fn : Nat) (msg : BitVec 128) : State :=
  let rid := BitVec.ofNat 16 msg.toNat
  match s.ridStatus fn msg with
  | (0, some r) => match r.run with
    | .running => s.beginStop rid (some fn)
    | .stopping => s.modRegion rid fun r => { r with migration := some fn }
    | _ => (s.modRegion rid fun r => { r with run := .migrating, still10 := 0 }).reply fn 0 0
  | (n, _) => s.reply fn 0 n

/-- A send or a screed command of a region's own that is under way, under the region's new rid. -/
def Req.reRid (old new : BitVec 16) (q : Req) : Req :=
  { q with op := match q.op with
      | .send t c r h p => .send t c (if r = old then new else r) h p
      | .screed t n r c => .screed t n (if r = old then new else r) c
      | o => o }

/-- A notice of a region under its new rid. -/
def Notice.reRid (old new : BitVec 16) : Notice → Notice
  | .trap r k t c f => .trap (if r = old then new else r) k t c f
  | n => n

/-- A registration of an entry of a region's image, under the region's new rid (R263). -/
def Registration.reRid (old new : BitVec 16) (x : Registration) : Registration :=
  match imageOf? x.core with
  | some (r, cid) => if r = old then { x with core := imageCore new cid } else x
  | none => x

/-- What names a region by its rid outside it, under its new rid. -/
def State.reRid (s : State) (old new : BitVec 16) : State :=
  { s with courses := s.courses.map (fun e => (e.1, { e.2 with notices := e.2.notices.map (Notice.reRid old new) }))
           filters := s.filters.map (Registration.reRid old new)
           grants := s.grants.map fun (g : Grant) => if g.rid = old then { g with rid := new } else g }

/-- Whether the bytes of an image at its save area stand at another place in HBM too, where a supervisor has copied the save area
(R396). -/
def State.sameArea (s : State) (v : Saved) (old new : Word) : Bool :=
  v.cores.all fun e =>
    let byte (save : Word) (off : Nat) : Byte := s.homeByte (Home.loc (.hbm (saveAddr save e.1 off)))
    let inHbm (off n : Nat) : Bool := decide (saveAddr old e.1 off + n ≤ hbmSize) && decide (saveAddr new e.1 off + n ≤ hbmSize)
    let same (off n : Nat) : Bool := !inHbm off n || (List.range n).all fun i => byte old (off + i) == byte new (off + i)
    (piecesOf e.2.foot).all (fun p => same (p * 4096) 4096) &&
      (areaOffsets (fun t => (v.ctx e.1 t).inImage) (v.core e.1) (v.core e.1).inbox).all fun off => same off 8

/-- The migrated region that a block resumes: the one whose image lies at the block's save area, else one whose save area has been copied
there (R396; log entry 31). -/
def State.migrated (s : State) (key : BitVec 16) (save : Word) : Option (BitVec 16 × Region × Saved) :=
  let find (p : Region → Saved → Bool) : Option (BitVec 16 × Region × Saved) := s.regions.findSome? fun e =>
    match e.2.saved with
    | some v => if e.2.run == .migrating && e.2.pkey == key && p e.2 v then some (e.1, e.2, v) else none
    | none => none
  (find fun r _ => r.eff.save == save).orElse fun _ => find fun r v => s.sameArea v r.eff.save save

/-- The courses that a migrated region takes again: as many as it held, within the block's budgets (R331, R396). -/
def State.reassign (s : State) (key : BitVec 16) (named : List Nat) (ch : List Block) : Option (List Nat) :=
  match s.migrated key (effective ch).save with
  | some (_, _, v) =>
    let n := v.courses.length
    if (chainOf ch).any fun c => decide (c.2.1 < s.subtreeCourses c.1 + n) then none else s.pickCourses n named
  | none => none

/-- The region goes on from the block's save area under a new rid and its new block; the save area it was stopped in keeps its bytes
(R186, R359, R394, R396). -/
def State.resumeMigrated (s : State) (fn : Nat) (key : BitVec 16) (ch : List Block) (b : Block) (cs : List Nat)
    (old : BitVec 16) (r : Region) (v : Saved) : State :=
  let eff := effective ch
  let rid := s.newRid
  let v := { v with reqs := v.reqs.map (Req.reRid old rid) }
  let s := (s.dropImage old).loadRanks key ch |>.reRid old rid
  let r := { r with fn := fn, rcb := BitVec.ofNat 64 b.addr, eff := eff, chain := chainOf ch }
  let s := { s with regions := Map.set (Map.erase s.regions old) rid r }
  (s.restore rid v eff.save cs).writeLive b.addr rid

/-- The plinth answers a migration resume: the region whose image lies at the block's save area goes on as after pre-emption, with
its counters as saved (R359, R396). A block whose save area holds no image is malformed (log entry 31). -/
def State.answerResume (s : State) (fn : Nat) (msg : BitVec 128) (courses : List Nat) : State :=
  match s.launchStatus fn msg (s.reassign (msgKey msg) courses) with
  | (n, b :: bs, cs) =>
    match s.migrated (msgKey msg) (effective (b :: bs)).save with
    | some (old, r, v) =>
      if n = 0 then (s.resumeMigrated fn (msgKey msg) (b :: bs) b cs old r v).reply fn s.newRid 0 else s.reply fn 0 n
    | none => s.reply fn 0 (if n = 0 || n = 2 then 1 else n)
  | (n, [], _) => s.reply fn 0 n

/-! ### Taking requests up -/

/-- The plinth takes a request up; none where it waits: during a takeover; a launch or a resume during any pause; a teardown or a
reset during a pause of a course concerned (R20, R28, R345, R391). -/
def State.serve (s : State) (q : HostReq) : Option State :=
  if s.dev.takeover then none
  else match q.op with
    | .launch cs => if s.anyPause then none else some (s.answerLaunch q.fn q.msg cs)
    | .resume cs => if s.anyPause then none else some (s.answerResume q.fn q.msg cs)
    | .teardown => s.answerTeardown q.fn q.msg
    | .reset => s.answerReset q.fn q.msg
    | .flr => s.functionReset q.fn
    | .stop => some (s.answerStop q.fn q.msg)

/-- A request is taken up, or waits. -/
def State.submit (s : State) (q : HostReq) : State :=
  match s.serve q with
  | some t => t
  | none => { s with waiting := s.waiting ++ [q] }

/-- Requests that waited are taken up, in order of arrival, where nothing holds them any more. -/
def State.serveRequests (s : State) : State := s.waiting.foldl State.submit { s with waiting := [] }

/-- A request of a function's mailbox; one submitted while the reply of an earlier one is unread is ignored (R389). -/
def State.request (s : State) (fn : Nat) (msg : BitVec 128) (op : HostOp) : State :=
  if s.takes fn then s.submit ⟨fn, msg, op⟩ else s

/-- LAUNCH: the plinth answers a launch message, which waits for the end of a pause (R26 to R28). -/
def execLaunch (fn : Nat) (msg : BitVec 128) (courses : List Nat) (s : State) : Host.Outcome State Fault Refusal :=
  .next (s.request fn msg (.launch courses))

/-- TEARDOWN (R389, R390). -/
def execTeardown (fn : Nat) (msg : BitVec 128) (s : State) : Host.Outcome State Fault Refusal :=
  .next (s.request fn msg .teardown)

/-- PARTITION_RESET (R389, R391). -/
def execPartitionReset (fn : Nat) (msg : BitVec 128) (s : State) : Host.Outcome State Fault Refusal :=
  .next (s.request fn msg .reset)

/-- FUNCTION_LEVEL_RESET: it needs no reply to have been read, and the function's own requests that wait are gone with it
(R391). -/
def execFunctionLevelReset (fn : Nat) (s : State) : Host.Outcome State Fault Refusal :=
  .next (({ s with waiting := s.waiting.filter fun q => q.fn != fn } : State).submit ⟨fn, 0, .flr⟩)

/-- MIGRATION_STOP: a region stops and its state is saved; no time counts until it is resumed (R359, R389, R396). -/
def execMigrationStop (fn : Nat) (msg : BitVec 128) (s : State) : Host.Outcome State Fault Refusal :=
  .next (s.request fn msg .stop)

/-- MIGRATION_RESUME (R389, R396). -/
def execMigrationResume (fn : Nat) (msg : BitVec 128) (courses : List Nat) (s : State) :
    Host.Outcome State Fault Refusal :=
  .next (s.request fn msg (.resume courses))

/-! ### Inbound accesses (R386 to R388) -/

/-- What an inbound access reaches: HBM, a byte of a slice of a running region, a byte of a saved slice, or nothing. -/
inductive Bar2 where
  | hbm (a : Nat)
  | slice (core off win : Nat)
  | saved (rid : BitVec 16) (cid off : Nat)
  | refused
  deriving DecidableEq, Repr

/-- BAR2 decode of n bytes from an offset; from its migration stop on a region is not live here (R387, R388). -/
def State.bar2 (s : State) (fn off n : Nat) : Bar2 :=
  match s.keyOf fn with
  | none => .refused
  | some key =>
    if off + n ≤ hbmSize then (if s.ownsHbm key off n then .hbm off else .refused)
    else if 0x10000000000 ≤ off && off + n ≤ 0x11000000000 then
      let va : Word := BitVec.ofNat 64 (apBase + (off - 0x10000000000))
      match s.region? (BitVec.ofNat 16 (s.fn fn).target.toNat) with
      | some r =>
        if r.pkey != key || r.run == .migrating || r.migration.isSome || decide (1 < apWin va) || decide (progEnd < apOff va + n) then .refused
        else match r.saved with
          | some v => if apCore va < 8 * v.courses.length then .saved (BitVec.ofNat 16 (s.fn fn).target.toNat) (apCore va) (apOff va) else .refused
          | none => match r.coreOf (apCore va) with
            | some c => .slice c (apOff va) (apWin va)
            | none => .refused
      | none => .refused
    else .refused

/-- A piece and the lines of a saved slice are made ready for an inbound write (R190, R355, R388). -/
def Core.imageTouch (k : Core) (cid off n : Nat) (old : Nat → List Byte) : Core :=
  let pieces := (List.range ((off + n - 1) / 4096 - off / 4096 + 1)).map fun i => off / 4096 + i
  let k := pieces.foldl (fun (k : Core) p =>
    if k.foot.testBit p then k
    else { k with foot := k.foot ||| 2 ^ p, journal := { k.journal with pieces := k.journal.pieces ++ [p] } }) k
  (linesOf (Home.loc (.slice cid off)) n).foldl (fun (k : Core) l =>
    let j := k.journal
    if j.lines.any fun e => e.1 == l then k
    else if 4096 ≤ j.lines.length then { k with journal := { j with overflow := true } }
    else
      let pre := if j.pieces.contains (l * 64 % 0x400000 / 4096) then List.replicate 64 0 else old (l * 64 % 0x400000)
      { k with journal := { j with lines := j.lines ++ [(l, pre)] } }) k

/-- An inbound write is performed on a saved slice (R388). -/
def State.imageWrite (s : State) (rid : BitVec 16) (cid off : Nat) (bs : List Byte) : State :=
  match s.region? rid with
  | some r =>
    match r.saved with
    | some v =>
      let k := Map.get Core.fresh v.cores cid
      let at' (o : Nat) : Nat := Home.loc (.hbm (saveAddr r.eff.save cid o))
      let inHbm (o n : Nat) : Bool := decide (saveAddr r.eff.save cid o + n ≤ hbmSize)
      let k' := k.imageTouch cid off bs.length fun o => s.hbmBytes (saveAddr r.eff.save cid o) 64
      let new := (List.range ((off + bs.length - 1) / 4096 - off / 4096 + 1)).map fun i => off / 4096 + i
      let s := new.foldl (fun s p =>
        if k.foot.testBit p || !inHbm (p * 4096) 4096 then s
        else { s with mem := Memory.clear s.mem (at' (p * 4096)) 4096 }) s
      let s := if inHbm off bs.length then { s with mem := Memory.write s.mem (at' off) bs } else s
      s.modRegion rid fun r => { r with saved := some { v with cores := Map.set v.cores cid k' } }
    | none => s
  | none => s

/-- Bytes of an inbound access. -/
def inboundSize : InboundOp → Nat
  | .write bs => bs.length
  | .read n => n

/-- Whether an earlier posted write of a requester has arrived and is not performed: those of one requester are performed in the order
of their arrival (R224). -/
def State.inboundBehind (s : State) (requester : Nat) : Bool :=
  (s.inbound.any fun x => x.requester == requester) ||
    s.cores.any fun e => e.2.port.any fun x => match x with | .outside r _ => r == requester | .req _ => false

/-- Whether an inbound access to a core's slice waits at the host-link ingress: behind a closed gate, while its region stops, or from
its region's resumption until it issues (R340, R388). -/
def State.ingressShut (s : State) (core : Nat) : Bool :=
  s.gatedFrom .plinth core || match s.ownerRegion (core / 8) with | some r => r.run == .stopping || r.quiet | none => false

/-- An inbound access reaches its target: a write lands as raw bytes, or waits at the slice port behind the commit token; a read
returns the bytes to its requester and changes nothing; what BAR2 does not accept is refused and logged. None where it waits at the
ingress (R214, R224, R385, R387, R388). -/
def State.letIn (s : State) (x : Inbound) : Option State :=
  if s.inboundBehind x.requester then none
  else match (if (s.fn x.fn).enabled then s.bar2 x.fn x.off (inboundSize x.op) else .refused), x.op with
    | .refused, .write _ => some { s with dev := { s.dev with aer := s.dev.aer ++ [⟨x.fn, x.off, true⟩] } }
    | .refused, .read _ => some { s with dev := { s.dev with aer := s.dev.aer ++ [⟨x.fn, x.off, false⟩] } }
    | .slice c o win, .write bs =>
      if s.ingressShut c then none
      else if s.tokenBlocks (Home.loc (.slice c o)) bs.length [] then
        some (s.modCore c fun k => { k with port := k.port ++ [.outside x.requester ⟨Home.loc (.slice c o), bs, win, 0⟩] })
      else some (s.land ⟨Home.loc (.slice c o), bs, win, 0⟩ From.outside [])
    | .slice c _ _, .read _ => if s.ingressShut c then none else some s
    | .hbm a, .write bs => some (s.land ⟨Home.loc (.hbm a), bs, 0, 0⟩ From.outside [])
    | .saved rid cid o, .write bs => some (s.imageWrite rid cid o bs)
    | _, .read _ => some s

/-- An inbound access is admitted, or waits at the ingress. -/
def State.arriveInbound (s : State) (x : Inbound) : State :=
  match s.letIn x with
  | some t => t
  | none => { s with inbound := s.inbound ++ [x] }

/-- Inbound accesses that waited are admitted, in order of arrival, where nothing holds them any more (R224, R340). -/
def State.drainInbound (s : State) : State := s.inbound.foldl State.arriveInbound { s with inbound := [] }

/-- INBOUND_BAR2_ACCESS (R224, R385, R387, R388). -/
def execInboundBar2Access (fn off requester : Nat) (op : InboundOp) (s : State) : Host.Outcome State Fault Refusal :=
  .next (if inboundSize op = 0 then s else s.arriveInbound ⟨fn, off, requester, op⟩)

/-! ### Gweam (R392, R393) -/

/-- A Gweam port. -/
def State.port (s : State) (n : Nat) : Port := Map.get ⟨[], 0⟩ s.ports n

/-- A request of a peer device is performed at its HBM address; one whose address is not aligned, or lies beyond the HBM, has no effect
here (R201, R204, R205, R268, R393; log entry 52). What a load, an atomic or a `cellrd` returns goes to the peer. -/
def State.performFlit (s : State) (f : Flit) : State :=
  let fits (a n align : Nat) : Bool := decide (a + n ≤ hbmSize) && a % align == 0
  match f.op with
  | .store a bs => if fits a bs.length 1 then s.land ⟨Home.loc (.hbm a), bs, 0, 0⟩ From.outside [] else s
  | .amo op t a cmp new => if fits a t.size t.size then (s.amoFrom From.outside op t (Home.loc (.hbm a)) 0 cmp new).2 else s
  | .faddx a x => if fits a 32 32 then s.land (s.cellWrite (Home.loc (.hbm a)) x) From.outside [] else s
  | .mon a =>
    if fits a 1 1 then s.register (Home.loc (.hbm a)) ⟨lineOf (Home.loc (.hbm a)), peerCore f.src, 0, false⟩ else s
  | .load .. | .cellrd _ => s

/-- A packet that a port has accepted: a request is performed, or waits at the port behind earlier ones; a reply or a control message
never waits, and changes nothing here (R392; log entry 52). -/
def State.admitFlit (s : State) (x : Nat × Flit) : State :=
  if x.2.cls != .request then s
  else if s.late || s.dev.flits.any (·.1 == x.1) then { s with dev := { s.dev with flits := s.dev.flits ++ [x] } }
  else s.performFlit x.2

/-- Requests that waited at the ports are performed, in order of arrival (R392). -/
def State.drainFlits (s : State) : State := s.dev.flits.foldl State.admitFlit { s with dev := { s.dev with flits := [] } }

/-- GWEAM_FLIT_ARRIVAL: a packet whose key is not in the port's set is counted and refused, whatever it asks for (R393). In the safe state
no port trains (R398). -/
def execGweamFlitArrival (port : Fin 32) (pkey : BitVec 16) (op : Flit) (s : State) :
    Host.Outcome State Fault Refusal :=
  let p := s.port port.val
  .next <|
    if s.dev.statusState = 2 then s
    else if !p.keys.contains pkey then { s with ports := Map.set s.ports port.val { p with refused := p.refused + 1 } }
    else s.admitFlit (port.val, op)

/-- PARTITION_CREATION, on a device that is ready: the ports' key sets take the key, and the partition's shortfall starts at 0 (R382,
R393, R397, R398). -/
def execPartitionCreation (fn : Nat) (pkey : BitVec 16) (ports : List (Fin 32)) (s : State) :
    Host.Outcome State Fault Refusal :=
  .next <|
    if s.dev.statusState ≠ 1 || fn = 0 || (Map.find s.partitions pkey).isSome || (s.keyOf fn).isSome then s
    else
      ports.foldl (fun (s : State) n =>
        let p := s.port n.val
        { s with ports := Map.set s.ports n.val { p with keys := p.keys ++ [pkey] } })
        { s with partitions := Map.set s.partitions pkey ⟨fn, [], 0, ports.map (·.val), 0, [], [], []⟩ }

/-! ### Bring-up and attestation (R397 to R400) -/

/-- A failing-unit record as its word (R398). -/
def failWord (r : FailRecord) : Word :=
  BitVec.ofNat 64 (at' (kindCode r.kind) 56 + at' r.ashlar.val 52 + at' r.site.val 47 + at' r.index.toNat 32)

/-- Whether a failed unit leaves every ashlar the enabled sites of its ordering code: a band does, and so does a unit of a site that
is disabled anyway; HBM and the links belong to no site (R1, R397). -/
def State.mapsOut (s : State) (r : FailRecord) : Bool :=
  r.kind == .band || (r.kind != .hbm && r.kind != .link && decide (r.ashlar.val < 8) && !s.siteEnabled (r.ashlar.val * 32 + r.site.val))

/-- The stage whose work finds a failing unit: HBM and the links are trained and tested in stage 4, every other unit in stage 3
(R397). -/
def stageOf (r : FailRecord) : Nat := if r.kind = .hbm || r.kind = .link then 4 else 3

/-- The stage at which bring-up stops, 0 where it goes through: the first of the one that fails, one whose firmware is not signed, and
those that find a unit that is not mapped out (R397, R399). -/
def State.stopStage (s : State) (unverified failedStage : Nat) (fails : List FailRecord) : Nat :=
  ((failedStage :: unverified :: ((fails.filter fun r => !s.mapsOut r).map stageOf)).filter (· ≠ 0)).foldl
    (fun m n => if m = 0 then n else min m n) 0

/-- Bands that self-test found failed are mapped out at their sites (R181, R397). -/
def State.failedBands (s : State) (fails : List FailRecord) : List (Nat × SiteBlock) :=
  (fails.filter fun r => r.kind == .band && decide (r.ashlar.val < 8)).foldl (fun m r =>
    let site := r.ashlar.val * 32 + r.site.val
    let b := Map.get (SiteBlock.fresh (s.siteEnabled site)) m site
    Map.set m site { b with healthy := b.healthy &&& ~~~(1#4 <<< (r.index.toNat % 4)) }) []

/-- The device status word at offset 0x200 of function 0's BAR0 (R398). -/
def Device.statusWord (d : Device) : Word :=
  BitVec.ofNat 64 (at' d.statusState.toNat 60 + at' d.statusStage.toNat 56 + d.fails.length)

/-- Words of function 0's BAR0: the reply word, the device status word, and the failing-unit records; the rest reads zero (R386, R389,
R398). -/
def State.bar0 (s : State) (off : Nat) : Word :=
  if off = 0x100 then (s.fn 0).reply
  else if off = 0x200 then s.dev.statusWord
  else if 0x208 ≤ off && off % 8 == 0 then s.dev.fails.getD ((off - 0x208) / 8) 0
  else 0

/-- BRING_UP: the device after a power cycle, ready for launch or in the safe state; each stage that has begun has measured its firmware
and extended its register, and the plinth has written the device root (R317, R397 to R400). -/
def execBringUp (failedStage : Fin 6) (fails : List FailRecord) (images : List Firmware) (s : State) :
    Host.Outcome State Fault Refusal :=
  let d0 : Device := { Device.reset with fuses := s.dev.fuses, images := images.zipIdx.map fun e => (e.2 + 1, e.1) }
  let stop := s.stopStage d0.unverified failedStage.val fails
  let found := fails.filter fun r => stop = 0 || stageOf r ≤ stop
  let d : Device := { d0 with
    statusState := if stop = 0 then 1 else 2, statusStage := BitVec.ofNat 4 stop, fails := (found.take 64).map failWord,
    measure := d0.extend ((List.range (if stop = 0 then 5 else stop)).map (· + 1)) }
  let up : State := { State.reset with
    agenda := s.agenda
    freeCount := s.freeCount
    siteBlocks := s.failedBands found
    fns := if stop = 0 then [] else (List.range 64).map fun i => (i + 1, { Fn.fresh with enabled := false })
    dev := d }
  .next (if stop = 0 then up.writeRoot else up)

/-- Bytes of a 512-bit or 256-bit value, lowest first. -/
def bytesOf (n : Nat) (x : Nat) : List Byte := natBytes n x

/-- SPDM_REQUEST: Immund returns the eight measurement registers and the nonce, signed (R400; log entry 16). -/
def execSpdmRequest (nonce : BitVec 256) (s : State) : Host.Outcome State Fault Refusal :=
  let m := ((List.range 8).flatMap fun i => bytesOf 64 (Map.get 0 s.dev.measure (i + 1)).toNat) ++ bytesOf 32 nonce.toNat
  .next { s with dev := { s.dev with spdm := m ++ Config.sign m } }

/-! ### Register writes (R7) -/

/-- The agent that performs a register write: the plinth for its own registers, else the quoin of the course (R7, R21). -/
def writerOf (a : Agent) : Agent := match a.course? with | some c => .quoin c | none => .plinth

/-- REGISTER_WRITE: the supervisor writes a CSR of a context or quoin, the plinth one of its own, the supervisor the target
register of a function; each field takes the value by its access code, and a write that the code denies is cause 0x06 at the writer
(R7, R21, R50, R387; log entry 69); configuration space assigns a virtual function its PASID (R385). -/
def execRegisterWrite (r : WriteReg) (v : Word) (s : State) : Host.Outcome State Fault Refusal :=
  .next <| match r with
  | .csr a n =>
    if !csrKnown a n || !s.reachable a then s
    else match s.csrWrite (levelOf (writerOf a)) a n v v with
      | .ok t => t
      | .error t => s.raise (writerOf a) t 0
  | .target fn => if fn = 0 then s else s.modFn fn fun x => { x with target := v &&& 0xFFFF#64 }
  | .pasid fn => if fn = 0 then s else s.modFn fn fun x => { x with pasid := v.setWidth 20 }

end Sys2Proof.Machine
end

