-- ==== Sys2Proof/Machine/Order.lean ====
section
/-! DEFINITION. `fence`, `chunk` and `ifence` (R229 to R232). -/

namespace Sys2Proof.Machine

open Sys2Proof

/-- `fence`: the chunk has closed; it waits until every earlier access is performed in its scope, and no `send` of the
context is outstanding (R229, R265). -/
def execFence (k : Scope) (g : PReg) (s : State) : Host.Outcome State Fault Refusal :=
  issue (.fence k g) s fun s =>
    if s.performed s.cur (k == .system) && s.noSend s.cur then .done s [] else .wait (s.stall s.cur)

/-- `chunk` (R230). -/
def execChunk (g : PReg) (s : State) : Host.Outcome State Fault Refusal :=
  issue (.chunk g) s fun s => .done s []

/-- Whether every earlier store of a context is performed at its home (R231). -/
def State.storesHome (s : State) (a : Agent) : Bool :=
  (s.inFlight a).isEmpty && (s.requests.all fun r => r.src != a || match r.op with | .send .. | .screed .. => true | _ => false) &&
    s.replies.all fun r => r.dst != a || match r.op with | .ack _ | .value _ _ => false | _ => true

/-- `ifence`: words fetched ahead and the core's fetch buffer are discarded (R231). -/
def execIfence (g : PReg) (s : State) : Host.Outcome State Fault Refusal :=
  issue (.ifence g) s fun s =>
    if s.storesHome s.cur then
      let s := s.modCtx s.cur fun c => { c with ahead := [] }
      .done (match s.cur.core? with | some n => s.modCore n fun k => { k with fetch := [] } | none => s) []
    else .wait (s.stall s.cur)

end Sys2Proof.Machine
end

