-- ==== Sys2Proof/Machine/Pair.lean ====
section
/-! DEFINITION. Pairs (R14, R42): a scalar half and any class 01 form under one guard. -/

namespace Sys2Proof.Machine

open Sys2Proof

/-- The operation of a class 01 form, which a lone word and a pair share (R42). -/
def doVec (v : VecForm) : Word → State → Res :=
  match v with
  | .bin op d a b => doBin op d a b
  | .cmp k p a b => doCmp (ICond.holds k) p a b
  | .fcmp k p a b => doCmp (FCond.holds k) p a b
  | .abs d a => doMap d a absLane
  | .mov d a => doMap d a id
  | .cls d a => doMap d a fClass
  | .sqrt d x la => doMap1 d x la fSqrt
  | .fu op d x la => doMap1 d x la (fuLane op)
  | .bcast d x => doBcast d x
  | .red op d a => doRed op d a
  | .scan op d a => doScan op d a
  | .pset p a => doPset p a
  | .plog op p a b => doPlog op p a b
  | .pcnt d a => doPcnt d a
  | .pfirst d a => doPfirst d a
  | .cvt dst src r d a => doCvt dst src r d a
  | .quant f d a => doQuant f d a
  | .load mode d a lay la => doLoad mode d a lay la
  | .store mode d a lay => doStore mode d a lay
  | .rfwd w d a la => doRfwd w d a la
  | .rrev d a b la => doRrev d a b la
  | .rchk d a la => doRchk d a la
  | .radd d a b => doRop (fun x y => x + y) d a b
  | .rmul d a b => doRop (fun x y => x * y) d a b
  | .rbase d a n la => doRbase d a n la

/-- The value of a pair's scalar half, from its sources as they stood before the pair (R14, R42). -/
def ScalarHalf.value (h : ScalarHalf) (c : Ctx) : Word := sopEval h.op (c.x h.d.val) (c.x h.a.val) (h.b.val c)

/-- A pair: both halves read old values; where both name one x register the scalar half's result is written (R14). -/
def execPairWord (g : PReg) (h : ScalarHalf) (v : VecForm) (s : State) : Host.Outcome State Fault Refusal :=
  issue (.pairWord g h v) s fun s =>
    let x := ScalarHalf.value h (s.ctx s.cur)
    match doVec v (s.guardMask s.cur (.pairWord g h v)) s with
    | .done s rs => .done s (rs.filter (fun r => !(r.kind == .x && r.reg == h.d.val)) ++ [.toX h.d.val x])
    | r => r

end Sys2Proof.Machine
end

