-- ==== Sys2Proof/Machine/ScalarFloat.lean ====
section
/-! DEFINITION. Float instructions of class 00 (R60 to R63). -/

namespace Sys2Proof.Machine

open Sys2Proof

/-- A float form: its fp32 operation on the low words of xa and xd and on operand b, with bits 63:32 of the result zero
(R60). -/
def issueF (i : Instr) (d a : Reg) (b : FSrc) (la : La) (s : State) (f : W32 → W32 → W32 → W32) :
    Host.Outcome State Fault Refusal :=
  issueX i d la.val s fun c =>
    (f ((c.x a.val).setWidth 32) (b.val c) ((c.x d.val).setWidth 32)).setWidth 64

/-- `fadd` (R60). -/
def execFadd (r : Rm) (d a : Reg) (b : FSrc) (la : La) (s : State) : Host.Outcome State Fault Refusal :=
  issueF (.fadd r d a b la) d a b la s fun x y _ => fAdd r x y

/-- `fsub` (R60). -/
def execFsub (r : Rm) (d a : Reg) (b : FSrc) (la : La) (s : State) : Host.Outcome State Fault Refusal :=
  issueF (.fsub r d a b la) d a b la s fun x y _ => fSub r x y

/-- `fmul` (R60). -/
def execFmul (r : Rm) (d a : Reg) (b : FSrc) (la : La) (s : State) : Host.Outcome State Fault Refusal :=
  issueF (.fmul r d a b la) d a b la s fun x y _ => fMul r x y

/-- `fma`: a × b + xd, rounded once (R60). -/
def execFma (r : Rm) (d a : Reg) (b : FSrc) (la : La) (s : State) : Host.Outcome State Fault Refusal :=
  issueF (.fma r d a b la) d a b la s fun x y z => fMa r x y z

/-- `fmin` (R61). -/
def execFmin (d a : Reg) (b : FSrc) (la : La) (s : State) : Host.Outcome State Fault Refusal :=
  issueF (.fmin d a b la) d a b la s fun x y _ => fPick false x y

/-- `fmax` (R61). -/
def execFmax (d a : Reg) (b : FSrc) (la : La) (s : State) : Host.Outcome State Fault Refusal :=
  issueF (.fmax d a b la) d a b la s fun x y _ => fPick true x y

/-- `fcmp` relations (R61). -/
def fcmpHolds (c : FCmp) (x y : W32) : Bool :=
  match c with
  | .eq => fEq x y
  | .lt => fLt x y
  | .le => fLe x y
  | .uo => fUo x y

/-- `fcmp` (R61). -/
def execFcmp (c : FCmp) (d a : Reg) (b : FSrc) (la : La) (s : State) : Host.Outcome State Fault Refusal :=
  issueF (.fcmp c d a b la) d a b la s fun x y _ => if fcmpHolds c x y then 1 else 0

/-- `fcvt` (R63). -/
def execFcvt (dst src : Ty) (r : Rm) (d a : Reg) (s : State) : Host.Outcome State Fault Refusal :=
  issueX (.fcvt dst src r d a) d 0 s fun c => convert 64 dst src r (c.x a.val).toNat

/-- `fclass` (R62). -/
def execFclass (d : Reg) (a : FSrc) (la : La) (s : State) : Host.Outcome State Fault Refusal :=
  issueX (.fclass d a la) d la.val s fun c => (fClass (a.val c)).setWidth 64

/-- `fsgn` (R61). -/
def execFsgn (o : SgnOp) (d a : Reg) (b : FSrc) (la : La) (s : State) : Host.Outcome State Fault Refusal :=
  issueF (.fsgn o d a b la) d a b la s fun x y _ => fSgn o x y

end Sys2Proof.Machine
end

