-- ==== Sys2Proof/Machine/Screed.lean ====
section
/-! DEFINITION. Marked tensors and the screed engine (R233 to R253). -/

namespace Sys2Proof.Machine

open Sys2Proof

/-! ### Marks (R233, R234) -/

/-- State of a mark. -/
def markState (m : W32) : Nat := m.toNat % 64
/-- Status of a mark: 0 run, 1 sleep, 2 done, 3 fault. -/
def markStatus (m : W32) : Nat := m.toNat / 64 % 4
/-- Wait kind of a mark. -/
def markKind (m : W32) : Nat := m.toNat / 256 % 4
/-- Wait operand of a mark. -/
def markOperand (m : W32) : Nat := m.toNat / 1024
/-- A mark of its fields. -/
def mark (operand kind status state : Nat) : W32 :=
  BitVec.ofNat 32 (at' (operand % 2 ^ 22) 10 + at' (kind % 4) 8 + at' (status % 4) 6 + state % 64)

/-- Bytes of an element (R236). -/
def Desc.bytes (d : Desc) : Nat := 4 * 2 ^ d.esize.toNat
/-- Strips of a tensor (R242). -/
def Desc.strips (d : Desc) : Nat := (d.count + 63) / 64
/-- Present lanes of strip k (R238). -/
def Desc.lanes (d : Desc) (k : Nat) : Nat := Nat.min 64 (d.count - 64 * k)

/-- A tensor's bytes lie in the core's own slice (R237): the location of an address of it. -/
def ownLoc (core : Nat) (va : Word) : Nat := Home.loc (.slice core (apOff va))

/-- Location of mark i (R233). -/
def Desc.markLoc (d : Desc) (core i : Nat) : Nat := ownLoc core d.mark + 4 * i
/-- Location of element i (R236). -/
def Desc.elemLoc (d : Desc) (core i : Nat) : Nat := ownLoc core d.elem + d.bytes * i
/-- Location of the skip byte of strip k (R238). -/
def Desc.skipLoc (d : Desc) (core k : Nat) : Nat := ownLoc core d.skip + k / 8

/-- A slot's declaration. -/
def State.desc? (s : State) (core slot : Nat) : Option Desc := Map.find (s.core core).slots slot

/-- The agent in whose name a core's engine writes. -/
def State.engineAgent (s : State) (core : Nat) : Agent :=
  ctxOf core (match (s.core core).sweep with | some w => w.helper | none => 0)

/-- A write of a core's engine (R227). -/
def State.screedPut (s : State) (core loc : Nat) (data : List Byte) : State :=
  s.land ⟨loc, data, 0, 0⟩ (s.fromAgent 2 (s.engineAgent core)) []

/-- Sets or clears a strip's skip bit (R238). -/
def State.setSkip (s : State) (core : Nat) (d : Desc) (k : Nat) (on : Bool) : State :=
  let loc := d.skipLoc core k
  let b := s.homeByte loc
  let bit : Byte := 1#8 <<< (k % 8)
  s.screedPut core loc [if on then b ||| bit else b &&& ~~~bit]

/-- Counts a dropped command of a slot, up to 255 (R246, R248). -/
def State.dropWake (s : State) (core slot : Nat) : State :=
  s.modCore core fun k => { k with dropped := Map.set k.dropped slot (Nat.min (Map.get 0 k.dropped slot + 1) 255) }

/-- A wake applied to its mark, which also sets the skip bit (R246). -/
def State.applyWake (s : State) (core : Nat) (d : Desc) (j : Nat) : State :=
  let loc := d.markLoc core j
  let m := BitVec.ofNat 32 (bytesNat (s.homeBytes loc 4))
  let s := if markStatus m = 1 then s.screedPut core loc (natBytes 4 (mark 0 0 0 (markState m)).toNat) else s
  s.setSkip core d (j / 64) true

/-- A command applied at once, or at the write-back of its strip (R245, R246, R248). -/
def State.applyScreed (s : State) (core : Nat) (d : Desc) : ScreedCmd → State
  | .wake j => s.applyWake core d j
  | .skip k on => s.setSkip core d k on

/-- Strip of a command's target. -/
def ScreedCmd.strip : ScreedCmd → Nat
  | .wake j => j / 64
  | .skip k _ => k

/-- Whether a command names nothing in a tensor (R246, R248). -/
def ScreedCmd.outside (d : Desc) : ScreedCmd → Bool
  | .wake j => decide (d.count ≤ j)
  | .skip k _ => decide (d.strips ≤ k)

/-- Whether a sweep of a slot has a strip open (R247). -/
def Sweep.opens (w : Sweep) (slot k : Nat) : Bool := w.slot == slot && w.cur == some k

/-- A command at the engine of its target: dropped, buffered for the write-back of the open strip, or applied at once
(R246 to R248). -/
def State.receiveScreed (s : State) (core slot : Nat) (c : ScreedCmd) : State :=
  match s.desc? core slot with
  | none => s.dropWake core slot
  | some d =>
    if c.outside d then s.dropWake core slot
    else match (s.core core).sweep with
      | some w =>
        if w.opens slot c.strip then
          s.modCore core fun k => { k with sweep := some { w with buffered := w.buffered ++ [c] } }
        else s.applyScreed core d c
      | none => s.applyScreed core d c

/-- Whether a command waits at its target: the commit token holds what it writes, or 64 commands are buffered (R214,
R254). -/
def State.screedWaits (s : State) (core slot : Nat) (c : ScreedCmd) : Bool :=
  match s.desc? core slot with
  | none => false
  | some d =>
    let a := s.engineAgent core
    let shut := s.portShut a (d.skipLoc core c.strip) 1 ||
      match c with | .wake j => s.portShut a (d.markLoc core j) 4 | _ => false
    let full := match (s.core core).sweep with
      | some w => w.opens slot c.strip && decide (64 ≤ w.buffered.length)
      | none => false
    !c.outside d && (shut || full)

/-! ### Declaration (R235 to R237) -/

/-- The check that a range lies in window 0 of the aperture (R237): the lowest address outside. -/
def outsideWindow0 (r : Word × Nat) : Option Word :=
  if !inAperture r.1 || apWin r.1 != 0 then some r.1
  else if apBase + 0x200000000 < r.1.toNat + r.2 then some (BitVec.ofNat 64 (apBase + 0x200000000))
  else none

/-- The check that a range lies in the program part of a core's own slice (R237): the lowest address outside. -/
def State.outsideOwn (s : State) (core : Nat) (r : Word × Nat) : Option Word :=
  if apCore r.1 != s.cidOf core || decide (progEnd ≤ apOff r.1) then some r.1
  else if progEnd < apOff r.1 + r.2 then some (r.1 + BitVec.ofNat 64 (progEnd - apOff r.1))
  else none

/-- The lowest of some addresses. -/
def lowestOf (ws : List Word) : Option Word :=
  ws.foldl (fun l w => match l with | some x => some (if w.toNat < x.toNat then w else x) | none => some w) none

/-- The checks of `mdecl` (R237); of several misaligned addresses the first is reported, in the order element, mark, skip, table (log
entry 83). -/
def State.checkMdecl (s : State) (core : Nat) (i : Instr) (d : Desc) : Option Trap :=
  let rs : List (Word × Nat) := [(d.elem, d.count * d.bytes), (d.mark, 4 * d.count), (d.skip, (d.strips + 63) / 64 * 8)]
  if d.count = 0 || decide (2 ^ 19 < d.count) then some (.at 0x02 0 i.word)
  else match [(d.elem, 256), (d.mark, 256), (d.skip, 8), (d.table, 8)].find? fun e : Word × Nat => e.1.toNat % e.2 != 0 with
    | some e => some (.at 0x01 0 e.1)
    | none => match lowestOf (rs.filterMap outsideWindow0) with
      | some w => some (.at 0x06 3 w)
      | none => match lowestOf (rs.filterMap (s.outsideOwn core)) with
        | some w => some (.at 0x06 5 w)
        | none => none

/-- `mdecl` (R236, R237). -/
def execMdecl (d a b : Reg) (c : MdeclCmd) (g : PReg) (s : State) : Host.Outcome State Fault Refusal :=
  issue (.mdecl d a b c g) s fun s =>
    match s.cur.core? with
    | none => .done s []
    | some n =>
      let r := s.ctx s.cur
      let t := c.slot.toNat
      let desc : Desc := ⟨r.x a.val, r.x b.val, c.skip, c.table, c.count.toNat, c.esize, c.states.toNat + 1, c.tag⟩
      match s.checkMdecl n (.mdecl d a b c g) desc with
      | some x => .trap x
      | none =>
        if (match (s.core n).sweep with | some w => w.slot == t | none => false) then
          .done s [.toX d.val (BitVec.allOnes 64)]
        else .done (s.modCore n fun k => { k with slots := Map.set k.slots t desc, dropped := Map.erase k.dropped t })
          [.toX d.val (BitVec.ofNat 64 (s.cidOf n * 4 + t))]

/-! ### Starting a sweep (R239, R240) -/

/-- Locations of the entries of a routine table: the lowest that faults ends the instruction (R239). -/
def State.tableLocs (s : State) (a : Agent) (base : Word) : Nat → Or (List Nat)
  | 0 => .ok []
  | n + 1 =>
    match s.tableLocs a base n with
    | .error r => .error r
    | .ok ls =>
      match s.locate a .read 0 (base + BitVec.ofNat 64 (8 * n)) 8 with
      | .error r => .error r
      | .ok l => .ok (ls ++ [l])

/-- `sweep` (R239): a release toward the engine (R226). The context is parked until the number of the helper is written to xd as
the table read completes (R289). -/
def execSweep (d a : Reg) (g : PReg) (s : State) : Host.Outcome State Fault Refusal :=
  issue (.sweep d a g) s fun s =>
    let h := (s.ctx s.cur).x a.val
    match s.cur.core? with
    | none => .trap (.at 0x06 1 h)
    | some n =>
      let t := h.toNat % 4
      match (if h.toNat / 4 = s.cidOf n then s.desc? n t else none), s.freeSlot n with
      | none, _ => .trap (.at 0x06 1 h)
      | some _, none => .done s [.toX d.val (BitVec.allOnes 64)]
      | some ds, some helper =>
        if (s.core n).sweep.isSome then .done s [.toX d.val (BitVec.allOnes 64)]
        else (s.tableLocs s.cur ds.table ds.states).then fun ls =>
          let at8 (i : Nat) : Word := ds.table + BitVec.ofNat 64 (8 * i)
          let table := ls.map fun l => BitVec.ofNat 64 (s.loadNat s.cur l 8)
          match ls.zipIdx.find? fun e => s.meetsError s.cur e.1 8, table.zipIdx.find? fun e => e.1.toNat % 4 != 0 with
          | some e, _ => .trap (errorAt e.1 (at8 e.2))
          | none, some e => .trap (.at 0x01 0 (at8 e.2))
          | none, none =>
            if !s.placeFree n then .wait (s.park s.cur .reserve)
            else if !s.performed s.cur false || ls.any (s.farWaits s.cur) then .wait (s.stall s.cur)
            else
              let s := ls.foldl (fun s l => s.ask s.cur.core? l 8) s
              let w : Sweep :=
                { slot := t, helper := helper, issuer := s.cur.tid,
                  table := table.map fun e => BitVec.ofNat 64 (e.toNat % 2 ^ 57), next := 0, cur := none, elems := [],
                  marks := [], steps := [], touched := 0, active := 0, stepped := 0, round := [], running := none,
                  first := false, buffered := [], nStrips := 0, nStepped := 0, nFaulted := 0, ending := none }
              .wait (((s.reserve n).modCore n fun k => { k with sweep := some w }).park s.cur (.sweep d a g))

/-- Whether a sweep's helper has begun. -/
def State.sweepBegun (s : State) (core : Nat) (w : Sweep) : Bool := (s.ctx (ctxOf core w.helper)).origin == .sweep

/-- The parked `sweep` of a context completes with its helper's number (R239). -/
def State.sweepIssued (s : State) (a : Agent) (helper : Nat) : State :=
  match (s.ctx a).park with
  | some (.sweep d xa g) => s.completeParked a (.sweep d xa g) [.toX d.val (BitVec.ofNat 64 helper)]
  | _ => s

/-- SWEEP_START: the table read has completed, xd is written, and the engine begins in its helper (R239, R240). -/
def execSweepStart (core : Nat) (s : State) : Host.Outcome State Fault Refusal :=
  .next <| match (s.core core).sweep with
  | some w =>
    if s.sweepBegun core w || w.ending.isSome || !s.moving (ctxOf core w.helper) then s
    else (s.startHelper core w.helper 0 0 (s.ctx (ctxOf core w.issuer)).deleg .sweep).sweepIssued (ctxOf core w.issuer) w.helper
  | none => s

/-! ### Strips, rounds and dispatches (R242) -/

/-- Lanes of a mask. -/
def lanesIn (m : Word) : List Nat := (List.range 64).filter fun i => m.getLsbD i

/-- Changes a core's sweep. -/
def State.setSweep (s : State) (core : Nat) (w : Sweep) : State := s.modCore core fun k => { k with sweep := some w }

/-- Takes the outcome of one lane's step (R243, R244). -/
def Sweep.outcome (w : Sweep) (o : Nat × Bool × W32) : Sweep :=
  let n := w.steps.getD o.1 0 + 1
  let bit := 1#64 <<< o.1
  { w with marks := w.marks.set o.1 o.2.2, steps := w.steps.set o.1 n, touched := w.touched ||| bit,
           stepped := w.stepped ||| bit, nStepped := w.nStepped + if n = 1 then 1 else 0,
           active := if o.2.1 || n = 16 then w.active &&& ~~~bit else w.active }

/-- Whether a routine has ended: every lane of its step mask has an outcome, and the chunk that closed it has committed
(R244). -/
def State.routineOver (s : State) (core : Nat) (w : Sweep) : Bool :=
  let a := ctxOf core w.helper
  let c := s.ctx a
  w.running.isSome && s.stepMask a == 0 && !c.chunkOpen && !(c.arch.pend.any fun p => p.left == 0 && !p.done)

/-- The engine takes the outcomes of a routine that has ended (R244). -/
def State.takeOutcomes (s : State) (core : Nat) (w : Sweep) : Sweep × State :=
  let a := ctxOf core w.helper
  let w := ((s.ctx a).arch.outs.foldl Sweep.outcome w)
  ({ w with running := none, first := false }, s.modArch a fun r => { r with outs := [] })

/-- Reads a strip whose skip bit is set (R242, R250). -/
def State.openStrip (s : State) (core : Nat) (w : Sweep) (d : Desc) (k : Nat) : Sweep :=
  let n := d.lanes k
  let ml := d.markLoc core (64 * k)
  let el := d.elemLoc core (64 * k)
  let tagged := ((List.range 64).any fun i => s.tagOf (el + d.bytes * Nat.min i (n - 1)) != 0) || s.tagOf ml != 0
  let marks := (List.range n).map fun i => BitVec.ofNat 32 (bytesNat (s.homeBytes (ml + 4 * i) 4))
  let run (i : Nat) : Bool := markStatus (marks.getD i 0) == 0
  let delayed (i : Nat) : Bool := let m := marks.getD i 0; markKind m == 1 && decide (0 < markOperand m)
  let mask (p : Nat → Bool) : Word := BitVec.ofNat 64 (((List.range n).filter p).map fun i => 2 ^ i).sum
  if tagged then { w with ending := some 6 }
  else if s.poisoned ml (4 * n) || s.poisoned el (d.bytes * n) then { w with ending := some 9 }
  else
    { w with
      cur := some k, nStrips := w.nStrips + 1, first := true, steps := List.replicate 64 0, stepped := 0, round := [],
      touched := mask fun i => run i && delayed i,
      active := mask fun i => run i && !delayed i,
      elems := (List.range (d.bytes / 4)).map fun j => lanesOf fun i =>
        if i < n then BitVec.ofNat 32 (bytesNat (s.homeBytes (el + d.bytes * i + 4 * j) 4)) else 0,
      marks := (List.range n).map fun i =>
        let m := marks.getD i 0
        if run i && delayed i then mark (markOperand m - 1) 1 0 (markState m) else m }

/-- The start of a round: states beyond the table fault, and the dispatches of the others are fixed (R242). -/
def Sweep.beginRound (w : Sweep) (states : Nat) : Sweep :=
  let bad := (lanesIn w.active).filter fun i => decide (states ≤ markState (w.marks.getD i 0))
  let m := BitVec.ofNat 64 ((bad.map fun i => 2 ^ i).sum)
  let w := { w with
    marks := bad.foldl (fun ms i => let x := ms.getD i 0; ms.set i (mark (markOperand x) (markKind x) 3 (markState x))) w.marks,
    active := w.active &&& ~~~m, touched := w.touched ||| m, nFaulted := w.nFaulted + bad.length }
  { w with round := (List.range states).filterMap fun st =>
      let lanes := (lanesIn w.active).filter fun i => markState (w.marks.getD i 0) == st
      if lanes.isEmpty then none else some (st, BitVec.ofNat 64 ((lanes.map fun i => 2 ^ i).sum)) }

/-- The registers the engine writes before a dispatch: lanes of v0 to v(w - 1) and of v8 that lie beyond the tensor's end are not
written (R238, R240). -/
def State.dispatch (s : State) (core : Nat) (w : Sweep) (d : Desc) (r : Nat × Word) : State :=
  let a := ctxOf core w.helper
  let here : Word := maskOf fun i => decide (i < d.lanes (w.cur.getD 0))
  s.modCtx a fun c =>
    let c := if w.first then w.elems.zipIdx.foldl (fun c e => c.setV e.2 here e.1) c else c
    let c := c.setV 8 here (lanesOf fun i => w.marks.getD i 0)
    let c := (((c.setX 1 (BitVec.ofNat 64 (w.cur.getD 0))).setX 2 (BitVec.ofNat 64 (s.cidOf core * 4 + w.slot))).setX 3
      r.2).setX 4 (BitVec.ofNat 64 r.1)
    { c with stalled := false, ahead := [], arch := { c.arch with pc := w.table.getD r.1 0, outs := [] } }

/-- Whether a sweep's engine can act: it has begun, is not ending, its course runs, and its helper is not held (R250,
R252). -/
def State.sweepActs (s : State) (core : Nat) (w : Sweep) : Bool :=
  s.sweepBegun core w && w.ending.isNone && s.moving (ctxOf core w.helper) && (s.ctx (ctxOf core w.helper)).run == 0

/-- SWEEP_DISPATCH: the engine passes over or opens a strip, takes the outcomes of a routine that has ended, fixes a round,
or dispatches its next routine (R242). -/
def execSweepDispatch (core : Nat) (s : State) : Host.Outcome State Fault Refusal :=
  .next <| match (s.core core).sweep with
  | none => s
  | some w =>
    match s.desc? core w.slot with
    | none => s
    | some d =>
      if !s.sweepActs core w then s
      else match w.cur with
        | none =>
          if d.strips ≤ w.next then s
          else if s.poisoned (d.skipLoc core w.next) 1 then s.setSweep core { w with ending := some 9 }
          else if (s.homeByte (d.skipLoc core w.next)).getLsbD (w.next % 8) then
            s.setSweep core { s.openStrip core w d w.next with next := w.next + 1 }
          else s.setSweep core { w with next := w.next + 1 }
        | some _ =>
          if w.running.isSome && !s.routineOver core w then s
          else
            let t := if w.running.isSome then s.takeOutcomes core w else (w, s)
            let w := if t.1.round.isEmpty then t.1.beginRound d.states else t.1
            match w.round with
            | r :: rest => (t.2.dispatch core w d r).setSweep core { w with round := rest, running := some r }
            | [] => t.2.setSweep core w

/-! ### Ending a step (R243, R244) -/

/-- Records the outcomes of the lanes of the effective guard; the form that empties the step mask closes the chunk after
it. -/
def doStep (i : Instr) (f : Nat → W32 → Bool × W32) (s : State) : Res :=
  let m := s.guardMask s.cur i
  let marks := match s.cur.core? with
    | some n => (match (s.core n).sweep with | some w => w.marks | none => [])
    | none => []
  let os := (lanesIn m).map fun l => (l, f l (marks.getD l 0))
  let t := s.modArch s.cur fun r => { r with outs := r.outs ++ os }
  if t.stepMask s.cur != 0 then .done t []
  else if !s.canClose s.cur then .wait (s.stall s.cur)
  else .done (t.close s.cur) []

/-- `swstep` with a state in the word (R243). -/
def execSwstepImmediate (state : BitVec 6) (g : PReg) (s : State) : Host.Outcome State Fault Refusal :=
  issue (.swstepImmediate state g) s (doStep (.swstepImmediate state g) fun _ m => (false, mark 0 0 (markStatus m) state.toNat))

/-- `swstep` with a state for each lane (R243). -/
def execSwstepVector (b : Reg) (g : PReg) (s : State) : Host.Outcome State Fault Refusal :=
  issue (.swstepVector b g) s fun s =>
    let v := (s.ctx s.cur).v b.val
    doStep (.swstepVector b g) (fun l m => (false, mark 0 0 (markStatus m) ((lane v l).toNat % 64))) s

/-- The mark that `swait` leaves (R234, R244). -/
def waitMark (c : Ctx) (k : WaitKind) (l : Nat) (m : W32) : W32 :=
  match k with
  | .next => mark 0 0 0 (markState m)
  | .delay vb => mark ((lane (c.v vb.val) l).toNat % 2 ^ 22) 1 0 (markState m)
  | .wake vb => mark ((lane (c.v vb.val) l).toNat % 2 ^ 22) 2 1 (markState m)
  | .done => mark 0 3 2 (markState m)

/-- `swait` (R244). -/
def execSwait (k : WaitKind) (g : PReg) (s : State) : Host.Outcome State Fault Refusal :=
  issue (.swait k g) s fun s =>
    let c := s.ctx s.cur
    doStep (.swait k g) (fun l m => (true, waitMark c k l m)) s

/-! ### Write-back and completion (R245, R249, R250) -/

/-- Whether the write-back of a strip waits at a port (R214). -/
def State.stripShut (s : State) (core : Nat) (d : Desc) (k : Nat) : Bool :=
  let a := s.engineAgent core
  s.portShut a (d.markLoc core (64 * k)) (4 * d.lanes k) || s.portShut a (d.elemLoc core (64 * k)) (d.bytes * d.lanes k) ||
    s.portShut a (d.skipLoc core k) 1

/-- The write-back of the open strip (R245). -/
def State.writeStrip (s : State) (core : Nat) (w : Sweep) (d : Desc) (k : Nat) : State :=
  let c := s.ctx (ctxOf core w.helper)
  let n := d.lanes k
  let s := ((List.range n).filter fun i => w.stepped.getLsbD i).foldl (fun s i =>
    s.screedPut core (d.elemLoc core (64 * k + i))
      ((List.range (d.bytes / 4)).flatMap fun j => natBytes 4 (lane (c.vRaw j) i).toNat)) s
  let s := ((List.range n).filter fun i => w.touched.getLsbD i).foldl (fun s i =>
    s.screedPut core (d.markLoc core (64 * k + i)) (natBytes 4 (w.marks.getD i 0).toNat)) s
  let s := s.setSkip core d k ((List.range n).any fun i => markStatus (w.marks.getD i 0) == 0)
  (w.buffered.foldl (fun s c => s.applyScreed core d c) s).setSweep core { w with cur := none, buffered := [] }

/-- SWEEP_STRIP_WRITEBACK: no lane of the open strip is active any more (R242, R245). -/
def execSweepStripWriteback (core : Nat) (s : State) : Host.Outcome State Fault Refusal :=
  .next <| match (s.core core).sweep with
  | none => s
  | some w =>
    match s.desc? core w.slot, w.cur with
    | some d, some k =>
      if !s.sweepActs core w || (w.running.isSome && !s.routineOver core w) then s
      else
        let t := if w.running.isSome then s.takeOutcomes core w else (w, s)
        if t.1.round.isEmpty && t.1.active == 0 && !s.stripShut core d k then t.2.writeStrip core t.1 d k else s
    | _, _ => s

/-- Payload of a sweep's completion (R249). -/
def Sweep.payload (w : Sweep) (status dropped : Nat) : Word :=
  BitVec.ofNat 64 (at' (Nat.min w.nFaulted 0xFFFF) 48 + at' (w.nStepped % 2 ^ 20) 28 + at' status 24 + at' (dropped % 256) 16 +
    w.nStrips % 2 ^ 16)

/-- SWEEP_COMPLETION: the sweep has ended; its helper is free, and its completion is posted (R239, R249, R250). -/
def execSweepCompletion (core : Nat) (s : State) : Host.Outcome State Fault Refusal :=
  .next <| match (s.core core).sweep with
  | none => s
  | some w =>
    match s.desc? core w.slot with
    | none => s
    | some d =>
      let ended := w.cur.isNone && decide (d.strips ≤ w.next)
      if !s.moving (ctxOf core w.helper) || !(w.ending.isSome || (s.sweepActs core w && ended)) then s
      else
        let dropped := Map.get 0 (s.core core).dropped w.slot
        let s := if s.sweepBegun core w then s.retireCtx (ctxOf core w.helper) else s
        (s.modCore core fun k => { k with sweep := none, dropped := Map.erase k.dropped w.slot }).complete core w.issuer d.tag
          (w.payload (w.ending.getD 0) dropped)

/-! ### Wakes and the skip map (R246, R248) -/

/-- The core a handle names in the owner, with its slot; none where it names no core. -/
def State.handleOf (s : State) (a : Agent) (h : Word) : Option (Nat × Nat) :=
  match s.regionOf a with
  | some r => if h.toNat / 4 < 8 * r.courses.length then some (h.toNat / 4, h.toNat % 4) else none
  | none => none

/-- Sends commands to the engine that holds a handle: those of a sweep helper to its own engine are applied before its next
instruction (R246). -/
def State.sendScreed (s : State) (t : Nat × Nat) (cs : List ScreedCmd) : Res :=
  let own := match s.cur.core? with | some n => s.inRoutine s.cur && s.cidOf n == t.1 | none => false
  if !s.performed s.cur false then .wait (s.stall s.cur)
  else if own then
    let n := s.cur.core?.getD 0
    if cs.any (s.screedWaits n t.2) then .wait (s.stall s.cur)
    else .done (cs.foldl (fun s c => s.receiveScreed n t.2 c) s) []
  else
    let rid := match s.cur.course? with | some n => s.ownerRid n | none => 0
    .done { s with fabric := s.fabric ++ cs.map fun c => ⟨s.cur, .screed t.1 t.2 rid c⟩ } []

/-- `swake` (R246). -/
def execSwake (a : Reg) (b : XV) (g : PReg) (s : State) : Host.Outcome State Fault Refusal :=
  issue (.swake a b g) s fun s =>
    let c := s.ctx s.cur
    match s.handleOf s.cur (c.x a.val) with
    | none => .trap (.at 0x06 1 (c.x a.val))
    | some t => s.sendScreed t (match b with
      | .x r => [.wake (c.x r.val).toNat]
      | .v r => (lanesIn (s.guardMask s.cur (.swake a b g))).map fun i => .wake (lane (c.v r.val) i).toNat)

/-- `skipset` (R248). -/
def execSkipset (set : Bool) (a b : Reg) (g : PReg) (s : State) : Host.Outcome State Fault Refusal :=
  issue (.skipset set a b g) s fun s =>
    let c := s.ctx s.cur
    match s.handleOf s.cur (c.x a.val) with
    | none => .trap (.at 0x06 1 (c.x a.val))
    | some t => s.sendScreed t [.skip (c.x b.val).toNat set]

/-- The i-th request in flight, a screed command, reaches its engine: after the earlier ones of its context, at a core that
runs (R246). -/
def State.screedArrive (s : State) (i : Nat) (is : ScreedCmd → Bool) : State :=
  match s.fabric[i]? with
  | some ⟨a, .screed cid slot rid c⟩ =>
    let gone := { s with fabric := dropAt i s.fabric }
    if !is c || s.behindPort i || ((s.fabric.take i).any fun r => r.src == a && match r.op with | .screed .. => true | _ => false)
    then s
    else match s.region? rid with
      | none => gone
      | some r =>
        match r.coreOf cid with
        | none => gone
        | some n =>
          if r.run != .running || s.gatedFrom a n || s.screedWaits n slot c then s
          else gone.receiveScreed n slot c
  | _ => s

/-- SWAKE_APPLY: a wake reaches its engine (R246, R247). -/
def execSwakeApply (i : Nat) (s : State) : Host.Outcome State Fault Refusal :=
  .next (s.screedArrive i fun c => match c with | .wake _ => true | _ => false)

/-- SKIPSET_APPLY: a `skipset` command reaches its engine (R248). -/
def execSkipsetApply (i : Nat) (s : State) : Host.Outcome State Fault Refusal :=
  .next (s.screedArrive i fun c => match c with | .skip _ _ => true | _ => false)

end Sys2Proof.Machine
end

