-- ==== Sys2Proof/Machine/Dispatch.lean ====
section
/-! DEFINITION. One arm for each instruction: a direct call of its meaning, or its rejection by name. -/

namespace Sys2Proof.Machine

open Sys2Proof

/-- The effect of one instruction or step of the device on the state; the agent that acts is `cur`. -/
def exec (i : Instr) (s : State) : Host.Outcome State Fault Refusal :=
  match i with
  | .add d a b => Sys2Proof.Machine.execAdd d a b s
  | .sub d a b => Sys2Proof.Machine.execSub d a b s
  | .and d a b => Sys2Proof.Machine.execAnd d a b s
  | .or d a b => Sys2Proof.Machine.execOr d a b s
  | .xor d a b => Sys2Proof.Machine.execXor d a b s
  | .andn d a b => Sys2Proof.Machine.execAndn d a b s
  | .sll d a b => Sys2Proof.Machine.execSll d a b s
  | .srl d a b => Sys2Proof.Machine.execSrl d a b s
  | .sra d a b => Sys2Proof.Machine.execSra d a b s
  | .rol d a b => Sys2Proof.Machine.execRol d a b s
  | .slt d a b => Sys2Proof.Machine.execSlt d a b s
  | .sltn d a b => Sys2Proof.Machine.execSltn d a b s
  | .min d a b => Sys2Proof.Machine.execMin d a b s
  | .max d a b => Sys2Proof.Machine.execMax d a b s
  | .minn d a b => Sys2Proof.Machine.execMinn d a b s
  | .maxn d a b => Sys2Proof.Machine.execMaxn d a b s
  | .mul d a b la => Sys2Proof.Machine.execMul d a b la s
  | .mulh d a b la => Sys2Proof.Machine.execMulh d a b la s
  | .mulhn d a b la => Sys2Proof.Machine.execMulhn d a b la s
  | .div d a b la => Sys2Proof.Machine.execDiv d a b la s
  | .divn d a b la => Sys2Proof.Machine.execDivn d a b la s
  | .rem d a b la => Sys2Proof.Machine.execRem d a b la s
  | .remn d a b la => Sys2Proof.Machine.execRemn d a b la s
  | .clz d a => Sys2Proof.Machine.execClz d a s
  | .ctz d a => Sys2Proof.Machine.execCtz d a s
  | .popc d a => Sys2Proof.Machine.execPopc d a s
  | .sext s1 d a => Sys2Proof.Machine.execSext s1 d a s
  | .zext s1 d a => Sys2Proof.Machine.execZext s1 d a s
  | .bext d a b => Sys2Proof.Machine.execBext d a b s
  | .bins d a b => Sys2Proof.Machine.execBins d a b s
  | .sel d a b => Sys2Proof.Machine.execSel d a b s
  | .lim unsigned d a b => Sys2Proof.Machine.execLim unsigned d a b s
  | .addpc d b => Sys2Proof.Machine.execAddpc d b s
  | .lea d a b s1 => Sys2Proof.Machine.execLea d a b s1 s
  | .fadd r d a b la => Sys2Proof.Machine.execFadd r d a b la s
  | .fsub r d a b la => Sys2Proof.Machine.execFsub r d a b la s
  | .fmul r d a b la => Sys2Proof.Machine.execFmul r d a b la s
  | .fma r d a b la => Sys2Proof.Machine.execFma r d a b la s
  | .fmin d a b la => Sys2Proof.Machine.execFmin d a b la s
  | .fmax d a b la => Sys2Proof.Machine.execFmax d a b la s
  | .fcmp c d a b la => Sys2Proof.Machine.execFcmp c d a b la s
  | .fcvt dst src r d a => Sys2Proof.Machine.execFcvt dst src r d a s
  | .fclass d a la => Sys2Proof.Machine.execFclass d a la s
  | .fsgn o d a b la => Sys2Proof.Machine.execFsgn o d a b la s
  | .beq a b o h => Sys2Proof.Machine.execBeq a b o h s
  | .bne a b o h => Sys2Proof.Machine.execBne a b o h s
  | .blt a b o h => Sys2Proof.Machine.execBlt a b o h s
  | .bge a b o h => Sys2Proof.Machine.execBge a b o h s
  | .bltn a b o h => Sys2Proof.Machine.execBltn a b o h s
  | .bgen a b o h => Sys2Proof.Machine.execBgen a b o h s
  | .jal d o => Sys2Proof.Machine.execJal d o s
  | .jalr d a b => Sys2Proof.Machine.execJalr d a b s
  | .jtab a b bound => Sys2Proof.Machine.execJtab a b bound s
  | .rep n b => Sys2Proof.Machine.execRep n b s
  | .nop l => Sys2Proof.Machine.execNop l s
  | .csrr d csr => Sys2Proof.Machine.execCsrr d csr s
  | .csrw d a csr => Sys2Proof.Machine.execCsrw d a csr s
  | .csrs d a csr => Sys2Proof.Machine.execCsrs d a csr s
  | .csrc d a csr => Sys2Proof.Machine.execCsrc d a csr s
  | .ld t o d a off la => Sys2Proof.Machine.execLd t o d a off la s
  | .st t o d a off => Sys2Proof.Machine.execSt t o d a off s
  | .pairWord g s1 v => Sys2Proof.Machine.execPairWord g s1 v s
  | .vadd m d a b g => Sys2Proof.Machine.execVadd m d a b g s
  | .vsub m d a b g => Sys2Proof.Machine.execVsub m d a b g s
  | .vmul d a b g => Sys2Proof.Machine.execVmul d a b g s
  | .vmulh unsigned d a b g => Sys2Proof.Machine.execVmulh unsigned d a b g s
  | .vmac d a b g => Sys2Proof.Machine.execVmac d a b g s
  | .vand d a b g => Sys2Proof.Machine.execVand d a b g s
  | .vor d a b g => Sys2Proof.Machine.execVor d a b g s
  | .vxor d a b g => Sys2Proof.Machine.execVxor d a b g s
  | .vsll d a b g => Sys2Proof.Machine.execVsll d a b g s
  | .vsrl d a b g => Sys2Proof.Machine.execVsrl d a b g s
  | .vsra d a b g => Sys2Proof.Machine.execVsra d a b g s
  | .vmin d a b g => Sys2Proof.Machine.execVmin d a b g s
  | .vmax d a b g => Sys2Proof.Machine.execVmax d a b g s
  | .vminn d a b g => Sys2Proof.Machine.execVminn d a b g s
  | .vmaxn d a b g => Sys2Proof.Machine.execVmaxn d a b g s
  | .vabs d a g => Sys2Proof.Machine.execVabs d a g s
  | .vfadd r d a b g => Sys2Proof.Machine.execVfadd r d a b g s
  | .vfsub r d a b g => Sys2Proof.Machine.execVfsub r d a b g s
  | .vfmul r d a b g => Sys2Proof.Machine.execVfmul r d a b g s
  | .vfma r d a b g => Sys2Proof.Machine.execVfma r d a b g s
  | .vfmin d a b g => Sys2Proof.Machine.execVfmin d a b g s
  | .vfmax d a b g => Sys2Proof.Machine.execVfmax d a b g s
  | .vfsgn o d a b g => Sys2Proof.Machine.execVfsgn o d a b g s
  | .vfdiv r d a b g => Sys2Proof.Machine.execVfdiv r d a b g s
  | .vsqrt d s1 la g => Sys2Proof.Machine.execVsqrt d s1 la g s
  | .vcmp c p a b g => Sys2Proof.Machine.execVcmp c p a b g s
  | .vfcmp c p a b g => Sys2Proof.Machine.execVfcmp c p a b g s
  | .vsel p d a b g => Sys2Proof.Machine.execVsel p d a b g s
  | .vmov d a g => Sys2Proof.Machine.execVmov d a g s
  | .vbcast d s1 g => Sys2Proof.Machine.execVbcast d s1 g s
  | .vperm scatter d a b g => Sys2Proof.Machine.execVperm scatter d a b g s
  | .vslide down d a b g => Sys2Proof.Machine.execVslide down d a b g s
  | .vzip d a b g => Sys2Proof.Machine.execVzip d a b g s
  | .vunzip d a b g => Sys2Proof.Machine.execVunzip d a b g s
  | .vred op d a g => Sys2Proof.Machine.execVred op d a g s
  | .vscan op d a g => Sys2Proof.Machine.execVscan op d a g s
  | .vclass d a g => Sys2Proof.Machine.execVclass d a g s
  | .pset p a g => Sys2Proof.Machine.execPset p a g s
  | .plog op p a b g => Sys2Proof.Machine.execPlog op p a b g s
  | .pcnt d a g => Sys2Proof.Machine.execPcnt d a g s
  | .pfirst d a g => Sys2Proof.Machine.execPfirst d a g s
  | .vcvt dst src r d a g => Sys2Proof.Machine.execVcvt dst src r d a g s
  | .vquant f d a g => Sys2Proof.Machine.execVquant f d a g s
  | .vexp2 d s1 la g => Sys2Proof.Machine.execVexp2 d s1 la g s
  | .vlog2 d s1 la g => Sys2Proof.Machine.execVlog2 d s1 la g s
  | .vrcp d s1 la g => Sys2Proof.Machine.execVrcp d s1 la g s
  | .vrsq d s1 la g => Sys2Proof.Machine.execVrsq d s1 la g s
  | .vld d a lay la g => Sys2Proof.Machine.execVld d a lay la g s
  | .vlds d a b lay la g => Sys2Proof.Machine.execVlds d a b lay la g s
  | .vldx d a b lay la g => Sys2Proof.Machine.execVldx d a b lay la g s
  | .vst d a lay g => Sys2Proof.Machine.execVst d a lay g s
  | .vsts d a b lay g => Sys2Proof.Machine.execVsts d a b lay g s
  | .vstx d a b lay g => Sys2Proof.Machine.execVstx d a b lay g s
  | .rfwd wide d a la g => Sys2Proof.Machine.execRfwd wide d a la g s
  | .rrev d a b la g => Sys2Proof.Machine.execRrev d a b la g s
  | .rchk d a la g => Sys2Proof.Machine.execRchk d a la g s
  | .radd d a b g => Sys2Proof.Machine.execRadd d a b g s
  | .rmul d a b g => Sys2Proof.Machine.execRmul d a b g s
  | .rbase d a band la g => Sys2Proof.Machine.execRbase d a band la g s
  | .rsel m g => Sys2Proof.Machine.execRsel m g s
  | .mload d a c g => Sys2Proof.Machine.execMload d a c g s
  | .mswap g => Sys2Proof.Machine.execMswap g s
  | .mgo transpose acc d a b c g => Sys2Proof.Machine.execMgo transpose acc d a b c g s
  | .mshape d a g => Sys2Proof.Machine.execMshape d a g s
  | .mstat d a g => Sys2Proof.Machine.execMstat d a g s
  | .ecall g => Sys2Proof.Machine.execEcall g s
  | .ebreak g => Sys2Proof.Machine.execEbreak g s
  | .eret g => Sys2Proof.Machine.execEret g s
  | .wfi g => Sys2Proof.Machine.execWfi g s
  | .amo op t d a b g => Sys2Proof.Machine.execAmo op t d a b g s
  | .cas t d a b g => Sys2Proof.Machine.execCas t d a b g s
  | .faddx a b g => Sys2Proof.Machine.execFaddx a b g s
  | .cellrd d a la g => Sys2Proof.Machine.execCellrd d a la g s
  | .fence s1 g => Sys2Proof.Machine.execFence s1 g s
  | .chunk g => Sys2Proof.Machine.execChunk g s
  | .ifence g => Sys2Proof.Machine.execIfence g s
  | .mdecl d a b c g => Sys2Proof.Machine.execMdecl d a b c g s
  | .sweep d a g => Sys2Proof.Machine.execSweep d a g s
  | .swstepImmediate state g => Sys2Proof.Machine.execSwstepImmediate state g s
  | .swstepVector b g => Sys2Proof.Machine.execSwstepVector b g s
  | .swait k g => Sys2Proof.Machine.execSwait k g s
  | .swake a b g => Sys2Proof.Machine.execSwake a b g s
  | .skipset set a b g => Sys2Proof.Machine.execSkipset set a b g s
  | .send mc a b ctx tag g => Sys2Proof.Machine.execSend mc a b ctx tag g s
  | .recv d a g => Sys2Proof.Machine.execRecv d a g s
  | .peek d a g => Sys2Proof.Machine.execPeek d a g s
  | .mon d a b g => Sys2Proof.Machine.execMon d a b g s
  | .mwait d a g => Sys2Proof.Machine.execMwait d a g s
  | .smodeX n a t c g => Sys2Proof.Machine.execSmodeX n a t c g s
  | .smodeV n a c g => Sys2Proof.Machine.execSmodeV n a c g s
  | .sexit vector n g => Sys2Proof.Machine.execSexit vector n g s
  | .copy d a b c g => Sys2Proof.Machine.execCopy d a b c g s
  | .coll op a b c g => Sys2Proof.Machine.execColl op a b c g s
  | .barinit a b g => Sys2Proof.Machine.execBarinit a b g s
  | .bararr a b g => Sys2Proof.Machine.execBararr a b g s
  | .barwait d a g => Sys2Proof.Machine.execBarwait d a g s
  | .hstart d a off g => Sys2Proof.Machine.execHstart d a off g s
  | .hend g => Sys2Proof.Machine.execHend g s
  | .gang a g => Sys2Proof.Machine.execGang a g s
  | .split g => Sys2Proof.Machine.execSplit g s
  | .live a g => Sys2Proof.Machine.execLive a g s
  | .yield g => Sys2Proof.Machine.execYield g s
  | .tlbw a b g => Sys2Proof.Machine.execTlbw a b g s
  | .tlbi a g => Sys2Proof.Machine.execTlbi a g s
  | .tlbiAll g => Sys2Proof.Machine.execTlbiAll g s
  | .replay g => Sys2Proof.Machine.execReplay g s
  | .xphase g => Sys2Proof.Machine.execXphase g s
  | .ssync g => Sys2Proof.Machine.execSsync g s
  | .vote op d a g => Sys2Proof.Machine.execVote op d a g s
  | .launch fn msg courses => Sys2Proof.Machine.execLaunch fn msg courses s
  | .teardown fn msg => Sys2Proof.Machine.execTeardown fn msg s
  | .partitionReset fn msg => Sys2Proof.Machine.execPartitionReset fn msg s
  | .functionLevelReset fn => Sys2Proof.Machine.execFunctionLevelReset fn s
  | .migrationStop fn msg => Sys2Proof.Machine.execMigrationStop fn msg s
  | .migrationResume fn msg courses => Sys2Proof.Machine.execMigrationResume fn msg courses s
  | .replyWordRead fn => Sys2Proof.Machine.execReplyWordRead fn s
  | .inboundBar2Access fn off requester op => Sys2Proof.Machine.execInboundBar2Access fn off requester op s
  | .gweamFlitArrival port pkey op => Sys2Proof.Machine.execGweamFlitArrival port pkey op s
  | .atsInvalidation pkey vas => Sys2Proof.Machine.execAtsInvalidation pkey vas s
  | .priResponse course va ans => Sys2Proof.Machine.execPriResponse course va ans s
  | .missNotice course ans => Sys2Proof.Machine.execMissNotice course ans s
  | .farAccessAtHome n => Sys2Proof.Machine.execFarAccessAtHome n s
  | .replySink n => Sys2Proof.Machine.execReplySink n s
  | .sendDelivery n => Sys2Proof.Machine.execSendDelivery n s
  | .sendVerdict n => Sys2Proof.Machine.execSendVerdict n s
  | .sendResend n => Sys2Proof.Machine.execSendResend n s
  | .spillRefill core => Sys2Proof.Machine.execSpillRefill core s
  | .recvWake a => Sys2Proof.Machine.execRecvWake a s
  | .watchReport core entry => Sys2Proof.Machine.execWatchReport core entry s
  | .watchTimeout core entry => Sys2Proof.Machine.execWatchTimeout core entry s
  | .mwaitWake a => Sys2Proof.Machine.execMwaitWake a s
  | .chunkCommit a => Sys2Proof.Machine.execChunkCommit a s
  | .chunkLimitClose a => Sys2Proof.Machine.execChunkLimitClose a s
  | .registerFill a xs vs => Sys2Proof.Machine.execRegisterFill a xs vs s
  | .trap a cause sub faddr => Sys2Proof.Machine.execTrap a cause sub faddr s
  | .contextResume a => Sys2Proof.Machine.execContextResume a s
  | .contextEnd a => Sys2Proof.Machine.execContextEnd a s
  | .preemption rid => Sys2Proof.Machine.execPreemption rid s
  | .preemptionResume rid courses => Sys2Proof.Machine.execPreemptionResume rid courses s
  | .errorRecord course e => Sys2Proof.Machine.execErrorRecord course e s
  | .errorBankClear course => Sys2Proof.Machine.execErrorBankClear course s
  | .targetedSelfTest course o => Sys2Proof.Machine.execTargetedSelfTest course o s
  | .errorContainment course pinned => Sys2Proof.Machine.execErrorContainment course pinned s
  | .rollback rid => Sys2Proof.Machine.execRollback rid s
  | .regionFault rid => Sys2Proof.Machine.execRegionFault rid s
  | .warmReset lost => Sys2Proof.Machine.execWarmReset lost s
  | .standbyTakeover => Sys2Proof.Machine.execStandbyTakeover s
  | .keystoneCompletion rid => Sys2Proof.Machine.execKeystoneCompletion rid s
  | .superstepWatchdog rid => Sys2Proof.Machine.execSuperstepWatchdog rid s
  | .voteCompletion rid k => Sys2Proof.Machine.execVoteCompletion rid k s
  | .parkedBararrArrival a => Sys2Proof.Machine.execParkedBararrArrival a s
  | .barwaitWake a => Sys2Proof.Machine.execBarwaitWake a s
  | .barwaitTimeout a => Sys2Proof.Machine.execBarwaitTimeout a s
  | .arrayJobStart course n => Sys2Proof.Machine.execArrayJobStart course n s
  | .arrayJobCompletion course n => Sys2Proof.Machine.execArrayJobCompletion course n s
  | .arraySwap course n => Sys2Proof.Machine.execArraySwap course n s
  | .arrayAbandon course => Sys2Proof.Machine.execArrayAbandon course s
  | .arrayJoinRetry a => Sys2Proof.Machine.execArrayJoinRetry a s
  | .bandSwitchOn course band => Sys2Proof.Machine.execBandSwitchOn course band s
  | .bandPendingClear course band => Sys2Proof.Machine.execBandPendingClear course band s
  | .bandPowerOff course band => Sys2Proof.Machine.execBandPowerOff course band s
  | .cadenceWrite site v => Sys2Proof.Machine.execCadenceWrite site v s
  | .issuegapWrite site v => Sys2Proof.Machine.execIssuegapWrite site v s
  | .rstatWrite course v => Sys2Proof.Machine.execRstatWrite course v s
  | .copyElement course n => Sys2Proof.Machine.execCopyElement course n s
  | .copyCompletion course n => Sys2Proof.Machine.execCopyCompletion course n s
  | .copyEntryRetry a => Sys2Proof.Machine.execCopyEntryRetry a s
  | .streamRefill a r => Sys2Proof.Machine.execStreamRefill a r s
  | .streamBindingRetry a => Sys2Proof.Machine.execStreamBindingRetry a s
  | .collectiveStart rid tag => Sys2Proof.Machine.execCollectiveStart rid tag s
  | .collectiveCompletion rid tag rank => Sys2Proof.Machine.execCollectiveCompletion rid tag rank s
  | .reservationRetry a => Sys2Proof.Machine.execReservationRetry a s
  | .sweepStart core => Sys2Proof.Machine.execSweepStart core s
  | .sweepDispatch core => Sys2Proof.Machine.execSweepDispatch core s
  | .sweepStripWriteback core => Sys2Proof.Machine.execSweepStripWriteback core s
  | .sweepCompletion core => Sys2Proof.Machine.execSweepCompletion core s
  | .swakeApply n => Sys2Proof.Machine.execSwakeApply n s
  | .skipsetApply n => Sys2Proof.Machine.execSkipsetApply n s
  | .rotationTick => Sys2Proof.Machine.execRotationTick s
  | .rotationDeferredPost ashlar => Sys2Proof.Machine.execRotationDeferredPost ashlar s
  | .rotationStop ashlar => Sys2Proof.Machine.execRotationStop ashlar s
  | .rotationMove ashlar => Sys2Proof.Machine.execRotationMove ashlar s
  | .rotationRestart ashlar => Sys2Proof.Machine.execRotationRestart ashlar s
  | .rotationControlWrite v => Sys2Proof.Machine.execRotationControlWrite v s
  | .observerUpdate rs models => Sys2Proof.Machine.execObserverUpdate rs models s
  | .sensorReport n reading => Sys2Proof.Machine.execSensorReport n reading s
  | .currentControl => Sys2Proof.Machine.execCurrentControl s
  | .boostBoundary => Sys2Proof.Machine.execBoostBoundary s
  | .slotsUpdate ashlar => Sys2Proof.Machine.execSlotsUpdate ashlar s
  | .boostWrite v => Sys2Proof.Machine.execBoostWrite v s
  | .powerGateEntry core => Sys2Proof.Machine.execPowerGateEntry core s
  | .hbmHeatLevel stack => Sys2Proof.Machine.execHbmHeatLevel stack s
  | .shortfallUpdate pkey stack requested => Sys2Proof.Machine.execShortfallUpdate pkey stack requested s
  | .bringUp failedStage fails images => Sys2Proof.Machine.execBringUp failedStage fails images s
  | .spdmRequest nonce => Sys2Proof.Machine.execSpdmRequest nonce s
  | .registerWrite r v => Sys2Proof.Machine.execRegisterWrite r v s
  | .pendingResultLanding a n => Sys2Proof.Machine.execPendingResultLanding a n s
  | .fetchBufferFill core line => Sys2Proof.Machine.execFetchBufferFill core line s
  | .supervisorMessage core tid tag payload => Sys2Proof.Machine.execSupervisorMessage core tid tag payload s
  | .arrayInjection course n => Sys2Proof.Machine.execArrayInjection course n s
  | .collectiveElement rid tag => Sys2Proof.Machine.execCollectiveElement rid tag s
  | .collectiveJoinRetry a => Sys2Proof.Machine.execCollectiveJoinRetry a s
  | .atsTranslationCompletion course va ans => Sys2Proof.Machine.execAtsTranslationCompletion course va ans s
  | .partitionCreation fn pkey ports => Sys2Proof.Machine.execPartitionCreation fn pkey ports s

end Sys2Proof.Machine
end

