-- ==== Sys2Proof/Machine/Due.lean ====
section
/-! DEFINITION. The step of the device that is due when the agenda names none (log entry 2). The spec fixes no order among the
steps of independent units; the device's own order below takes them in a fixed order and passes by every step that would
change nothing. The agenda can name any other order. -/

namespace Sys2Proof.Machine

open Sys2Proof

/-- Steps around one agent: its chunk, its waits, its streams and its pending results. -/
def Agent.steps (c : Ctx) (a : Agent) : List Instr :=
  [.chunkCommit a, .chunkLimitClose a] ++
    (if c.park.isSome then
      [.recvWake a, .mwaitWake a, .parkedBararrArrival a, .barwaitWake a, .barwaitTimeout a, .arrayJoinRetry a,
       .copyEntryRetry a, .streamBindingRetry a, .collectiveJoinRetry a, .reservationRetry a] else []) ++
    ((List.finRange 8).filter fun j => (Map.find c.arch.streams j.val).isSome).map (.streamRefill a ·) ++
    (List.range c.arch.pend.length).map (.pendingResultLanding a ·)

/-- Steps of one core's queues, watches and screed engine. -/
def Core.steps (k : Core) (n : Nat) : List Instr :=
  .spillRefill n :: (k.watches.flatMap fun w => [.watchReport n w.1, .watchTimeout n w.1]) ++
    (if k.sweep.isSome then [.sweepStart n, .sweepDispatch n, .sweepStripWriteback n, .sweepCompletion n] else []) ++
    [.powerGateEntry n]

/-- The fill that a core's register file makes next (R291). -/
def State.fillSteps (s : State) (n : Nat) : List Instr :=
  match (s.core n).fillQ with
  | t :: _ =>
    let need := s.fillOf (ctxOf n t)
    let of (k : RKind) : List Reg := (need.filter fun r => r.1 == k).map fun r => Fin.ofNat 32 r.2
    [.registerFill (ctxOf n t) (of .x) (of .v)]
  | [] => []

/-- Steps of one course's matrix array and copy unit, and a self-test that is due, which passes (R181; log entry 2). -/
def Course.steps (k : Course) (n : Nat) : List Instr :=
  (if k.tests.isEmpty then [] else [.targetedSelfTest n .pass]) ++
  ((List.range k.jobs.length).flatMap fun i =>
    [.arrayJobStart n i, .arrayInjection n i, .arrayJobCompletion n i, .arraySwap n i]) ++
    (if k.jobs.isEmpty then [] else [.arrayAbandon n]) ++
    ((List.range k.copies.length).flatMap fun i => [.copyElement n i, .copyCompletion n i]) ++
    (if k.pending != 0 || k.leaving != 0 then
      (List.finRange 4).flatMap fun b => [.bandPendingClear n b, .bandSwitchOn n b, .bandPowerOff n b] else [])

/-- Steps of one region: the end of a stop, its keystone, its votes, its collectives, its watchdog. -/
def Region.steps (r : Region) (rid : Nat) : List Instr :=
  (if r.run = .stopping then [.preemption rid] else []) ++ .keystoneCompletion rid :: (r.votes.map fun v => .voteCompletion rid v.ord) ++
    (r.colls.flatMap fun c =>
      .collectiveStart rid c.tag :: .collectiveElement rid c.tag ::
        c.joins.map fun j => .collectiveCompletion rid c.tag j.cmd.rank.toNat) ++
    [.superstepWatchdog rid]

/-- Steps of the rotation clock, of the ashlars and of the device's controls. -/
def deviceSteps : List Instr :=
  .rotationTick :: ((List.finRange 8).flatMap fun a =>
    [.rotationDeferredPost a, .rotationStop a, .rotationMove a, .rotationRestart a]) ++
    [.currentControl, .boostBoundary]

/-- Every step that the device's own order considers, in its order. -/
def State.ownSteps (s : State) : List Instr :=
  (if s.dev.takeover then [.standbyTakeover] else []) ++ deviceSteps ++
    ((List.range s.replies.length).flatMap fun i => [.replySink i, .sendVerdict i, .sendResend i]) ++
    ((List.range s.fabric.length).flatMap fun i => [.farAccessAtHome i, .sendDelivery i, .swakeApply i, .skipsetApply i]) ++
    ((s.cores.filter fun e => (s.ownerRegion (e.1 / 8)).isSome).flatMap fun e => s.fillSteps e.1 ++ e.2.steps e.1) ++
    (s.ctxs.flatMap fun e => Agent.steps e.2 e.1) ++ (s.courses.flatMap fun e => e.2.steps e.1) ++
    (s.regions.flatMap fun e => e.2.steps e.1.toNat) ++
    s.partitions.flatMap fun e => e.2.asked.map fun x => .shortfallUpdate e.1 (Fin.ofNat 8 x.1) x.2.2

/-- Whether a step would change the state. -/
def State.changes (s : State) (i : Instr) : Bool :=
  match exec i s with
  | .next t => t != s
  | _ => false

/-- The first due step of the device: one that changes the state. -/
def State.dueEvent (s : State) : Option Instr := s.ownSteps.find? s.changes

end Sys2Proof.Machine
end

