-- ==== Sys2Proof/Machine/Drive.lean ====
section
/-! DEFINITION. How a picked step or a context's next instruction is performed (R47, R165, R295, R303, R321), and where an
instruction is placed so that the next step fetches it. -/

namespace Sys2Proof.Machine

open Sys2Proof

/-- The state an instruction leaves, where it leaves one. -/
def andThen (o : Host.Outcome State Fault Refusal) (f : State → Host.Outcome State Fault Refusal) :
    Host.Outcome State Fault Refusal :=
  match o with
  | .next s => f s
  | .fault r => .fault r
  | .refused r => .refused r

/-- Performs an instruction on the members of a gang, the leader first (R303), from the state before it. A member that has
taken a fault of the whole gang is passed by (R412). -/
def execMembers (i : Instr) (s0 : State) : List Agent → State → Host.Outcome State Fault Refusal
  | [], s => .next { s with lead := none, together := false }
  | a :: as, s =>
    if s.trapped s0 a then execMembers i s0 as s
    else
      andThen (exec i { s with cur := a, together := true }) fun t =>
        let t := if i.transfer && t.lead.isNone then
            { t with lead := some (if t.trapped s0 a then s0.leadPast a i.bytes else t.leadOf a i.bytes (s0.ctx a).arch.pc) }
          else t
        execMembers i s0 as t

/-- The kind of access at which a context is parked for a page (R321). -/
def State.missKind (s : State) (a : Agent) : Access :=
  match a.course? with
  | some c => match (s.course c).miss.find? fun m => m.who == a && m.engine.isNone with
    | some m => if m.access = 0 then .fetch else if m.access = 1 then .read else .write
    | none => .read
  | none => .read

/-- A gang waits: a member that missed parks for its pages, one that would park for another cause parks, and the others have
not performed (R303). -/
def State.holdGang (s t : State) (g : List Agent) : State :=
  g.foldl (fun h a => match (t.ctx a).park with
    | some (.miss ps) => h.parkMiss a (t.missKind a) ps
    | some (.bararr ..) => h.stall a
    | some p => if p.performed then h.stall a else h.park a p
    | none => h.stall a) s

/-- A gang at a `wfi` that some member performs dissolves, as by `split`, once its chunk can close; each core then waits alone
(R212, R303). -/
def State.partForWfi (s : State) (g : List Agent) : State :=
  let lead := g.headD .plinth
  if s.canClose lead then (match lead.core? with | some n => (s.close lead).dissolve n | none => s) else s.holdGang s g

/-- A GANG PERFORMS AN INSTRUCTION (R303): a fault of steps 1 to 3 is every member's (R412); where a member would wait, no member
performs; where a member traps at step 4 or 5, the chunk of the instructions before it commits, and the others complete the
instruction (R169, R216), once every earlier atomic has returned (R165). -/
def execTogether (i : Instr) (g : List Agent) (s : State) : Host.Outcome State Fault Refusal :=
  let lead := g.headD .plinth
  if g.any fun a => s.illegal a i then .next (s.raiseAll lead (.at 0x02 0 i.word) i.bytes)
  else if (match i with | .wfi _ => true | _ => false) && g.any fun a => s.guardMask a i != 0 then .next (s.partForWfi g)
  else
    andThen (execMembers i s g s) fun t =>
      if g.any t.waits then
        let s := if i.closes && g.any (fun a => s.guardMask a i != 0) && s.canClose lead then s.close lead else s
        .next (s.holdGang t g)
      else if !(g.any (t.trapped s ·)) then .next t
      else if !s.canTrap lead then .next (s.holdGang s g)
      else if g.all (t.trapped s ·) && !(t.ctx lead).chunkOpen then .next (t.splitGang s g)
      else
        let u := s.close lead
        andThen (execMembers i u g u) fun t => .next (t.splitGang u g)

/-- Whether an instruction needs its context's chunk closed before it can perform: a release behind far stores that the
chunk holds, or a pop past eight entries that the chunk has taken (R211, R221, R274; log entry 22). -/
def State.mustClose (s : State) (i : Instr) (a : Agent) : Bool :=
  let c := s.ctx a
  s.guardMask a i != 0 &&
    ((match i with | .st _ .rel _ _ _ => !c.chunk.far.isEmpty | _ => false) ||
      (c.pops i).any fun j => !c.popReady j && decide (8 ≤ Map.get 0 c.arch.taken j))

/-- The uncorrectable error that a fetch from memory of n words consumes, if it meets one (R182, R191). -/
def State.fetchError (s : State) (a : Agent) (va : Word) (n : Nat) : Option Trap :=
  (List.range n).findSome? fun k =>
    let w := va + BitVec.ofNat 64 (4 * k)
    if (Map.find (s.ctx a).ahead w.toNat).isSome then none
    else match s.resolve a .fetch w with
      | .ok loc =>
        let held := match a.core? with | some n => (Map.find (s.core n).fetch (loc / 256)).isSome | none => false
        if !held && s.poisoned loc 4 then some (errorAt loc w) else none
      | _ => none

/-- The register file as an issued instruction leaves it: its registers are the most recently referenced, and no longer pinned by
their fill (R291). -/
def State.refer (s : State) (a : Agent) (i : Instr) : State :=
  match a.core? with
  | some n =>
    let names (e : RegEntry) : Bool := e.tid == a.tid && i.names.contains (e.kind, e.reg)
    s.modCore n fun k => { k with rfile := k.rfile.filter (fun e => !names e) ++ (k.rfile.filter names).map fun e =>
      { e with pinned := false } }
  | none => s

/-- What an instruction that has issued leaves beside its effect, from the state before it: its registers are referenced, and those it
has changed are dirty (R291). One that has not been performed has not issued. -/
def State.issued (t s : State) (g : List Agent) (i : Instr) : State :=
  g.foldl (fun t b => (if t.waits b then t else t.refer b i).sink s b) t

/-- A region has issued since it was resumed (R388). -/
def State.firstIssue (s : State) (a : Agent) : State :=
  match s.regionOf a with
  | some r => if a.program && r.quiet then s.modRegion (s.ridOf a) fun r => { r with quiet := false } else s
  | none => s

/-- The lookups of an instruction's pages by the context that fetches it (R318). -/
def State.touchCode (s : State) (a : Agent) (i : Instr) : State :=
  let pc := (s.ctx a).arch.pc
  let last := pc + BitVec.ofNat 64 (i.bytes - 4)
  let s := s.touchTlb a pc
  if pageOf last = pageOf pc then s else s.touchTlb a last

/-- A fetched instruction is performed on the contexts that follow one fetch: a chunk that it needs closed is closed before it, and the
pages of its words and its registers are referenced (R291, R303, R318, R388). -/
def performNext (i : Instr) (g : List Agent) (lead : Agent) (s : State) : Host.Outcome State Fault Refusal :=
  let s := (if g.any (s.mustClose i) && s.canClose lead then s.close lead else s).touchCode lead i
  andThen (if g.length ≤ 1 then exec i s else execTogether i g s) fun t => .next ((t.issued s g i).firstIssue lead)

/-- The next instruction of a context issues (R47 steps 1 to 3, R165, R169, R321); where its words miss, the contexts that follow the
fetch park. An uncorrectable error in a fetched word is every member's, as every member follows one fetch (R412; log entry 64). -/
def issueAgent (a : Agent) (s : State) : Host.Outcome State Fault Refusal :=
  let g := s.group a
  let lead := g.headD a
  let s := { s with cur := lead, lead := none, together := false }
  let pc := (s.ctx lead).arch.pc
  if !(g.all s.able) then .next s
  else match (s.ctx lead).lost, s.fetchInstr lead pc with
    | some (k, true), _ => .next (s.raise lead (.at 0x10 k 0) 0)
    | _, .miss p => .next (g.foldl (fun s b => s.parkMiss b .fetch [p]) s)
    | _, .fault sub va => .next (s.raiseAll lead (fetchTrap sub va) 0)
    | _, .ok w rest =>
      if !(g.all s.ready) then .next s
      else match s.fetchError lead pc (1 + rest.length), decodeWords w rest with
        | some t, _ => .next (s.raiseAll lead t 0)
        | none, .error _ => .next (s.raiseAll lead (.at 0x02 0 (w.setWidth 64)) 0)
        | none, .ok i => performNext i g lead s

/-- A step whose names exist on the device (R15). -/
def Pick.wf : Pick → Bool
  | .event i => i.wf && (encode i).isEmpty
  | .issue a => a.wf

/-- Contexts that found a condition unmet try again after another step. -/
def State.wake (s : State) : State :=
  { s with ctxs := s.ctxs.map fun e => (e.1, if e.2.stalled then { e.2 with stalled := false } else e.2) }

/-- Helpers whose `hend` has waited for all that it waits for end (R305, R311). -/
def State.endHelpers (s : State) : State :=
  ((s.ctxs.filter fun e => e.2.park == some .hend).map (·.1)).foldl
    (fun s a => if s.moving a && s.hendDone a then s.finishHend a else s) s

/-- What follows a step at once: writes that waited at slice ports behind the commit token, or outside the device, land where
nothing holds them back (R214, R224, R340), requests that waited at the Gweam ports are performed (R392), stops that were due begin
(R177), requests of the host that waited are taken up (R28, R345), the quoins work at invalidations, at answers that waited and at
replays (R323, R326, R327), helpers end (R305), and contexts ask for the registers that they name (R291). -/
def State.follow' (s : State) : State :=
  s.drainPorts.drainInbound.drainFlits.beginDue.serveRequests.serveInvals.serveAnswers.serveReplays.endHelpers.askFills

/-- The retries that some contexts have made leave a `replay` (R327). -/
def State.retried (s : State) (g : List Agent) : State :=
  let left (m : Miss) : Bool := m.engine.isSome || !g.contains m.who || (s.ctx m.who).stalled
  match (g.headD .plinth).course? with
  | some n => s.modCourse n fun k => { k with replay := k.replay.map (·.filter left) }
  | none => s

/-- An instruction issues on the context that its core selects; where it finds a condition of R293 unmet, the selection is not
made and another context may be selected (R298, R299). A context whose next instruction's words miss is not ready, and parks without
a selection (R293, R321). -/
def issueChosen (a : Agent) (s : State) : Host.Outcome State Fault Refusal :=
  match a with
  | .ctx c k t =>
    if s.fetchMisses a then andThen (issueAgent a s) fun r => .next (r.retried (s.group a)).follow'.wake
    else match s.choice (coreId c k) with
    | some (u, s') =>
      if u = t then
        andThen (issueAgent a s') fun r =>
          if (s.group a).any fun b => (r.ctx b).stalled then andThen (issueAgent a s) fun r => .next r.follow'
          else .next (r.retried (s.group a)).follow'.wake
      else .next s
    | none => .next s
  | _ => andThen (issueAgent a s) fun r => if (r.ctx a).stalled then .next r.follow' else .next r.follow'.wake

/-- Performs what the agenda or the device's own order picks. -/
def perform (p : Pick) (s : State) : Host.Outcome State Fault Refusal :=
  match p with
  | .event i => andThen (exec i s) fun s => .next s.follow'.wake
  | .issue a => issueChosen a s

/-- The address at which `withFetchWord` places an instruction. -/
def fetchAt : Word := 0x1000

/-- The bytes of an instruction given by its bits, zero above them, to the longest instruction's end. -/
def fetchBytes (nbits w : Nat) : List Byte := natBytes 32 (w % 2 ^ nbits)

/-- The region that stands for a launched one: one course, a block of zeros (R329). -/
def oneCourse : Region :=
  { fn := 0, rcb := 0, entry := fetchAt, pkey := 0, eff := ⟨0, 0, 0, 0, 1, 0, 0, 0, 0, 0, 0, 0, false⟩, chain := [], courses := [0],
    run := .running, due := false, migration := none, gtime10 := 0, paused10 := 0, still10 := 0, slice10 := 0, quiet := false, sscount := 0,
    dropcnt := 0, arrived := [], votes := [], wdFrom := none, wdFired := false, snap := none, supSince := [], colls := [],
    saved := none, faulted := false }

/-- A register file that holds every register of context 0. -/
def fullFile : List RegEntry :=
  (List.range 31).map (fun i => ⟨0, .x, i + 1, false, false⟩) ++ (List.range 32).map fun i => ⟨0, .v, i, false, false⟩

/-- An instruction stored where the next step fetches it: context 0 of core 0 of course 0, owned by a region of one course,
runs at an address whose page is mapped to HBM, and issues next (log entry 3). -/
def State.placeInstr (s : State) (nbits w : Nat) : State :=
  let a := Agent.ctx 0 0 0
  let s := s.modSite 0 fun e => { e with rid := 1, ocn := 0 }
  let s := { s with regions := Map.set s.regions 1 oneCourse }
  let s := s.modCourse 0 fun c => { c with stopped := false, token := none, replay := none, tlb := ⟨1, fetchAt, 0x0E00000000001000⟩ :: c.tlb }
  let s := s.modBlock (s.siteOf 0) fun b => { b with gap := 0 }
  let s := s.modCore 0 fun k => { k with
    fetch := [], gang := none, gated := false, policy := false, current := some 0, counts := [], issuedAt := none, rfile := fullFile,
    fillQ := [] }
  let s := s.modCtx a fun c =>
    { c with run := 0, park := none, stalled := false, lost := none, ahead := [], origin := .none, chunk := Chunk.empty,
             arch := { c.arch with pc := fetchAt, pend := [] } }
  { s with mem := Memory.write s.mem (Home.loc (.hbm 0x1000)) (fetchBytes nbits w), cur := a, lead := none,
           agenda := [⟨8, false, [], .issue a⟩] }

/-- The device's own order when the agenda is empty: a due step of the device and the next context of the next core in turn take
turns. A core issues once in a cycle; when no core can issue in this cycle, a cycle of 0.8 ns passes (R294; log entry 2). -/
def ownOrder (s : State) : Host.Outcome State Fault Refusal :=
  match (if s.engineTurn then s.dueEvent else none) with
  | some i => perform (.event i) s
  | none =>
    match s.nextIssue with
    | some a => perform (.issue a) { s with turn := (a.core?.getD 0) + 1 }
    | none => .next ({ s with turn := 0 }.advance 8).wake

end Sys2Proof.Machine
end

