-- ==== Sys2Proof/Machine/Step.lean ====
section
/-! DEFINITION. One step of the device: time passes, and a step of the device or the next instruction of a context is
performed (log entries 2 and 3). -/

namespace Sys2Proof.Machine

open Sys2Proof

/-- One step: the agenda's first entry, with the time it takes, or, where the agenda is empty, what the device's own order
picks. -/
def step (s : State) : Host.Outcome State Fault Refusal :=
  match s.agenda with
  | e :: rest =>
    if e.pick.wf then perform e.pick ({ s with agenda := rest, late := e.late, busy := e.busy }.advance e.elapsed)
    else .fault .illFormedStep
  | [] => ownOrder { s with late := false, busy := [], engineTurn := !s.engineTurn }

/-- The state with an instruction stored where the next step fetches it. -/
def State.withFetchWord (s : State) (nbits w : Nat) : State := s.placeInstr nbits w

end Sys2Proof.Machine
end

