-- ==== Sys2Proof/Safety.lean ====
section
/-! DEFINITION. What counts as a well-kept state and as an instruction that is performed, in the terms the claims use. -/

namespace Sys2Proof.Machine

open Sys2Proof

/-- Memory is in its canonical form. -/
def State.memOk (s : State) : Bool := Memory.wf s.mem

/-- The state in which the operation of an instruction is performed: a form of R212 has closed the open chunk before it,
any other belongs to its context's chunk, which is open (R211). -/
def State.before (s : State) (i : Instr) : State := if i.closes then s.close s.cur else s.openChunk s.cur

/-- The acting context in that state. -/
def State.ctxAt (s : State) (i : Instr) : Ctx := (s.before i).ctx s.cur

/-- Every check that R47 puts before the operation passes, and nothing of R211 to R216 or R274 makes the instruction wait:
the form is legal where it stands, its guard is on, nothing of step 4 that no operand decides denies it, its chunk can be closed
where it closes it, every stream it pops has its next entry, none of which is a fault, and it is no control transfer that only
follows a gang's leader. -/
def State.performs (s : State) (i : Instr) : Bool :=
  !s.illegal s.cur i && s.guardMask s.cur i != 0 && (s.denied s.cur i).isNone && (!i.closes || s.canClose s.cur) &&
    (((s.ctxAt i).pops i).all fun j => (s.ctxAt i).popReady j && ((s.ctxAt i).popFault j).isNone) &&
    !(i.transfer && s.lead.isSome)

/-- Execution goes on after instruction i with its results rs (R47, R70, R295). -/
def State.completed (s : State) (i : Instr) (rs : List Result) : State := (s.before i).retire s.cur i rs

/-- Execution goes on at another address with the results rs (R64, R66, R71). -/
def State.jumped (s : State) (i : Instr) (pc : Word) (rs : List Result) : State := (s.before i).leave s.cur i pc rs

/-- What performing an instruction leaves of its context beside its own results: its streams have advanced, and every open
window has counted it (R274, R295). -/
def Ctx.counted (c : Ctx) (i : Instr) : Ctx := (c.popAll i).count

/-- Where i is performed, it writes a value computed from its context to x register d, with a lookahead, and execution goes
on after it. -/
def GivesX (i : Instr) (d : Reg) (la : Nat) (v : Ctx → Word) : Prop :=
  ∀ s : State, s.performs i = true → exec i s = .next (s.completed i [.toX d.val (v (s.ctxAt i)) la])

/-- Where i is performed, it writes the guard-on lanes of v register d, lane j with f j, and execution goes on after it. -/
def GivesV (i : Instr) (d : Reg) (la : Nat) (f : Ctx → Nat → W32) : Prop :=
  ∀ s : State, s.performs i = true →
    exec i s = .next (s.completed i [.toV d.val ((s.before i).guardMask s.cur i) (lanesOf (f (s.ctxAt i))) la])

/-- Where i is performed, bit j of p register p becomes f j on the lanes of its guard and keeps its value on the others. -/
def GivesP (i : Instr) (p : PReg) (f : Ctx → Nat → Bool) : Prop :=
  ∀ s : State, s.performs i = true →
    ∃ w : Word, exec i s = .next (s.completed i [.toP p.val w]) ∧
      ∀ j, j < 64 → w.getLsbD j = if ((s.before i).guardMask s.cur i).getLsbD j then f (s.ctxAt i) j
        else ((s.ctxAt i).p p.val).getLsbD j

/-- Number of words a branch's offset stands for (R40). -/
def brOffset : BrOff → Int
  | .near o => o.toInt
  | .far w => w.toInt

/-- Number of words a jump's offset stands for (R40). -/
def jumpOffset : JOff → Int
  | .near o => o.toInt
  | .far w => w.toInt

/-- Where i is performed, control goes A + 4 × off words on if the condition holds of the context, and to the next instruction
if it does not (R64). -/
def Branches (i : Instr) (off : BrOff) (cond : Ctx → Prop) : Prop :=
  ∀ s : State, s.performs i = true →
    (cond (s.ctxAt i) → exec i s = .next (s.jumped i ((s.ctxAt i).arch.pc + BitVec.ofInt 64 (4 * brOffset off)) [])) ∧
    (¬cond (s.ctxAt i) → exec i s = .next (s.completed i []))

/-- A scalar access of `size` bytes at e passes the checks of R195 and meets no uncorrectable error, no update of the same
bytes on its way, no closed gate, no want of a reply slot, and no context area of a stopped course: its bytes lie at loc. A read
of host or peer memory closes the chunk (R212). -/
def State.readable (s : State) (win : Nat) (e : Word) (size loc : Nat) : Bool :=
  (match s.locate s.cur .read win e size with | .ok l => l == loc | _ => false) &&
    (!beyond loc || s.canClose s.cur) &&
    let s := if beyond loc then s.close s.cur else s
    !s.meetsError s.cur loc size && !s.updatePending s.cur loc size && !s.farWaits s.cur loc && !s.areaShut loc

/-- The state after such a read: its chunk closed where R212 closes it, the read recorded in the open chunk, the page
referenced (R211, R318). -/
def State.afterRead (s : State) (e : Word) (size loc : Nat) : State :=
  ((if beyond loc then s.close s.cur else s).noteRead s.cur loc size).touchTlb s.cur e

/-- The little-endian value of such a read. -/
def State.valueRead (s : State) (size loc : Nat) : Nat := (if beyond loc then s.close s.cur else s).loadNat s.cur loc size

/-- A scalar store of `size` bytes of v at e passes the checks of R195, replaces no part of a word with an uncorrectable error
(R191), and meets no context area of a stopped course and no loop register that refuses it (R69, R345): its first byte lies at
loc. -/
def State.writable (s : State) (e : Word) (size loc : Nat) (v : Word) : Bool :=
  (match s.locate s.cur .write 1 e size with | .ok l => l == loc | _ => false) &&
    !((match homeOf loc with | .slice _ _ => true | _ => false) && decide (size < 8) && s.meetsError s.cur loc size) &&
    !s.areaShut loc && (s.areaDenied ⟨loc, natBytes size v.toNat, winOf e, size⟩).isNone

/-- Bytes at a location are free of what holds a read of a vector form back, or faults it: an uncorrectable error, an update of the
same bytes on its way, a closed gate, want of a reply slot (R191, R209, R256, R340). -/
def State.clear (s : State) (a : Agent) (loc n : Nat) : Bool :=
  !s.meetsError a loc n && !s.updatePending a loc n && !s.farWaits a loc

/-- The value of a scalar load of a type from the number its bytes give (R35, R195). -/
def loaded (t : IntTy) (v : Nat) : Word :=
  if t.signed ∧ 2 ^ (8 * t.size - 1) ≤ v then BitVec.ofInt 64 ((v : Int) - 2 ^ (8 * t.size)) else BitVec.ofNat 64 v

/-- Exact signed saturation to 32 bits (R83). -/
def clamp32 (v : Int) : W32 := BitVec.ofInt 32 (max (-(2 ^ 31)) (min (2 ^ 31 - 1) v))

/-- The element of a quad at a lane, channel by channel, reduced (R142, R146). -/
def Ctx.channels (c : Ctx) (k : Quad) (j ch : Nat) : Nat := c.elem k j ch

/-- Where i is performed, it writes the guard-on elements of quad d, channel by channel, and execution goes on after it. -/
def GivesQ (i : Instr) (d : Quad) (la : Nat) (f : State → Ctx → Nat → Nat → Nat) : Prop :=
  ∀ s : State, s.performs i = true →
    exec i s = .next (s.completed i ((List.range 4).map fun band =>
      .toV (4 * d.val + band) ((s.before i).guardMask s.cur i)
        (lanesOf fun j => BitVec.ofNat 32 (f (s.before i) (s.ctxAt i) j (2 * band) +
          2 ^ 16 * f (s.before i) (s.ctxAt i) j (2 * band + 1))) la))

/-- Where i is performed and a condition holds of the state before its operation, the operation gives f of that state, the
results rs land under their lookaheads, and execution goes on after i. -/
def Does (i : Instr) (cond : State → Prop) (f : State → State) (rs : State → List Result := fun _ => []) : Prop :=
  ∀ s : State, s.performs i = true → cond (s.before i) →
    exec i s = .next ((f (s.before i)).retire s.cur i (rs (s.before i)))

/-- Where i is performed and a condition holds, i leaves the state f gives and does not go on: it parks, stalls, or ends its
context. -/
def Leaves (i : Instr) (cond : State → Prop) (f : State → State) : Prop :=
  ∀ s : State, s.performs i = true → cond (s.before i) → exec i s = .next (f (s.before i))

/-- Where i is performed and a condition holds, i raises a trap (R165). -/
def Raises (i : Instr) (cond : State → Prop) (x : State → Trap) : Prop :=
  ∀ s : State, s.performs i = true → cond (s.before i) → exec i s = .next (s.raise s.cur (x (s.before i)) i.bytes)

/-- Where i is legal, its guard is on, no destination of it is in stream mode and no result of the register it binds is pending,
and a condition holds of the state, step 4 of R47 raises a trap, whatever its operands. -/
def Denies (i : Instr) (cond : State → Prop) (x : State → Trap) : Prop :=
  ∀ s : State, s.illegal s.cur i = false → s.guardMask s.cur i ≠ 0 → (s.ctx s.cur).streamDst i = none → i.stream? = none →
    cond s → exec i s = .next (s.raise s.cur (x s) i.bytes)

/-- The next word of an agent is fetched and decodes to i: every member of its gang can issue, none is due to raise cause 0x10, no
fault stands in the way of steps 1 to 3 of R47 (R169, R293, R303). -/
def FetchesNext (s : State) (a : Agent) (i : Instr) : Prop :=
  let l := (s.group a).headD a
  let v := { s with cur := l, lead := none, together := false }
  let pc := (v.ctx l).arch.pc
  (s.group a).all s.ready = true ∧ (∀ k, (v.ctx l).lost ≠ some (k, true)) ∧
    ∃ w ws, v.fetchInstr l pc = .ok w ws ∧ v.fetchError l pc (1 + ws.length) = none ∧ decodeWords w ws = .ok i

/-- What performing i on an agent, or on its gang together, gives. -/
def performsNext (s : State) (a : Agent) (i : Instr) : Host.Outcome State Fault Refusal :=
  let l := (s.group a).headD a
  performNext i (s.group a) l { s with cur := l, lead := none, together := false }

/-- The x register an instruction names, as the acting context reads it in the state before the operation. -/
def State.reads (s : State) (r : Reg) : Word := (s.ctx s.cur).x r.val

end Sys2Proof.Machine
end

