-- ==== Sys2Proof/Certificates/Slice0/Obligations.lean ====
section
/-! DEFINITION. The statements for the provers. -/

section

open Sys2Proof Sys2Proof.Machine

/-! ### Class 00: integers, floats, control flow -/

/-- R54: the binary integer forms, each with its value.
R54: the low product and its signed and unsigned high halves. -/
def Obligations.IntegerResults : Prop :=
  (∀ (d a : Reg) (b : SrcB),
    GivesX (.add d a b) d 0 (fun c => c.x a.val + b.val c) ∧
    GivesX (.sub d a b) d 0 (fun c => c.x a.val - b.val c) ∧
    GivesX (.and d a b) d 0 (fun c => c.x a.val &&& b.val c) ∧
    GivesX (.or d a b) d 0 (fun c => c.x a.val ||| b.val c) ∧
    GivesX (.xor d a b) d 0 (fun c => c.x a.val ^^^ b.val c) ∧
    GivesX (.andn d a b) d 0 (fun c => c.x a.val &&& ~~~(b.val c)) ∧
    GivesX (.sll d a b) d 0 (fun c => BitVec.ofNat 64 ((c.x a.val).toNat * 2 ^ ((b.val c).toNat % 64))) ∧
    GivesX (.srl d a b) d 0 (fun c => BitVec.ofNat 64 ((c.x a.val).toNat / 2 ^ ((b.val c).toNat % 64))) ∧
    GivesX (.sra d a b) d 0 (fun c => BitVec.ofInt 64 ((c.x a.val).toInt / 2 ^ ((b.val c).toNat % 64))) ∧
    GivesX (.rol d a b) d 0 (fun c => (c.x a.val <<< ((b.val c).toNat % 64)) |||
      (c.x a.val >>> (64 - (b.val c).toNat % 64))) ∧
    GivesX (.slt d a b) d 0 (fun c => if (c.x a.val).toInt < (b.val c).toInt then 1 else 0) ∧
    GivesX (.sltn d a b) d 0 (fun c => if (c.x a.val).toNat < (b.val c).toNat then 1 else 0) ∧
    GivesX (.min d a b) d 0 (fun c => BitVec.ofInt 64 (Min.min (c.x a.val).toInt (b.val c).toInt)) ∧
    GivesX (.max d a b) d 0 (fun c => BitVec.ofInt 64 (Max.max (c.x a.val).toInt (b.val c).toInt)) ∧
    GivesX (.minn d a b) d 0 (fun c => BitVec.ofNat 64 (Min.min (c.x a.val).toNat (b.val c).toNat)) ∧
    GivesX (.maxn d a b) d 0 (fun c => BitVec.ofNat 64 (Max.max (c.x a.val).toNat (b.val c).toNat))) ∧
  (∀ (d a : Reg) (b : SrcB) (la : La),
    GivesX (.mul d a b la) d la.val (fun c => BitVec.ofInt 64 ((c.x a.val).toInt * (b.val c).toInt)) ∧
    GivesX (.mulh d a b la) d la.val (fun c => BitVec.ofInt 64 ((c.x a.val).toInt * (b.val c).toInt / 2 ^ 64)) ∧
    GivesX (.mulhn d a b la) d la.val (fun c => BitVec.ofNat 64 ((c.x a.val).toNat * (b.val c).toNat / 2 ^ 64)))

/-- R55: the quotients and remainders with their corners: a division by zero gives all ones and leaves the dividend, and the
quotient of the most negative number by −1 is itself; a remainder of `rem` is zero or takes the sign of a. -/
def Obligations.DivisionResults : Prop :=
  (∀ (d a : Reg) (b : SrcB) (la : La),
    GivesX (.div d a b la) d la.val (fun c =>
      if b.val c = 0 then BitVec.allOnes 64 else BitVec.ofInt 64 ((c.x a.val).toInt.tdiv (b.val c).toInt)) ∧
    GivesX (.divn d a b la) d la.val (fun c =>
      if b.val c = 0 then BitVec.allOnes 64 else BitVec.ofNat 64 ((c.x a.val).toNat / (b.val c).toNat)) ∧
    GivesX (.rem d a b la) d la.val (fun c =>
      if b.val c = 0 then c.x a.val else BitVec.ofInt 64 ((c.x a.val).toInt.tmod (b.val c).toInt)) ∧
    GivesX (.remn d a b la) d la.val (fun c =>
      if b.val c = 0 then c.x a.val else BitVec.ofNat 64 ((c.x a.val).toNat % (b.val c).toNat))) ∧
  ∃ rem : Word → Word → Word,
    (∀ (d a : Reg) (b : SrcB) (la : La), GivesX (.rem d a b la) d la.val (fun c => rem (c.x a.val) (b.val c))) ∧
    ∀ a b : Word, rem a b = 0 ∨ (rem a b).msb = a.msb

/-- R56: `clz`, `ctz` and `popc` by what they count, `sext` and `zext` by the number the low bits stand for.
R57 to R59: bit fields bit by bit, selection, clamping, and the address forms. -/
def Obligations.BitFieldResults : Prop :=
  (∃ clz ctz popc : Word → Word,
    (∀ d a : Reg, GivesX (.clz d a) d 0 (fun c => clz (c.x a.val)) ∧ GivesX (.ctz d a) d 0 (fun c => ctz (c.x a.val)) ∧
      GivesX (.popc d a) d 0 (fun c => popc (c.x a.val))) ∧
    (∀ v : Word, (clz v).toNat ≤ 64 ∧ (∀ k, 64 - (clz v).toNat ≤ k → v.getLsbD k = false) ∧
      ((clz v).toNat < 64 → v.getLsbD (63 - (clz v).toNat) = true)) ∧
    (∀ v : Word, (ctz v).toNat ≤ 64 ∧ (∀ k, k < (ctz v).toNat → v.getLsbD k = false) ∧
      ((ctz v).toNat < 64 → v.getLsbD (ctz v).toNat = true)) ∧
    (∀ v : Word, (popc v).toNat = (List.range 64).countP v.getLsbD) ∧
    ∀ d a : Reg,
      GivesX (.sext .b8 d a) d 0 (fun c => BitVec.ofInt 64 ((c.x a.val).setWidth 8).toInt) ∧
      GivesX (.sext .b16 d a) d 0 (fun c => BitVec.ofInt 64 ((c.x a.val).setWidth 16).toInt) ∧
      GivesX (.sext .b32 d a) d 0 (fun c => BitVec.ofInt 64 ((c.x a.val).setWidth 32).toInt) ∧
      GivesX (.zext .b8 d a) d 0 (fun c => c.x a.val &&& 0xFF) ∧
      GivesX (.zext .b16 d a) d 0 (fun c => c.x a.val &&& 0xFFFF) ∧
      GivesX (.zext .b32 d a) d 0 (fun c => c.x a.val &&& 0xFFFFFFFF)) ∧
  ((∃ bext bins : Word → Word → Word → Word,
    (∀ (d a : Reg) (b : SrcB),
      GivesX (.bext d a b) d 0 (fun c => bext (c.x d.val) (c.x a.val) (b.val c)) ∧
      GivesX (.bins d a b) d 0 (fun c => bins (c.x d.val) (c.x a.val) (b.val c))) ∧
    ∀ (x v w : Word) (j : Nat), j < 64 →
      (bext x v w).getLsbD j = (decide (j < w.toNat / 64 % 128) && v.getLsbD (w.toNat % 64 + j)) ∧
      (bins x v w).getLsbD j = if w.toNat % 64 ≤ j ∧ j < w.toNat % 64 + w.toNat / 64 % 128 then v.getLsbD (j - w.toNat % 64)
        else x.getLsbD j) ∧
  ∀ (d a : Reg) (b : SrcB),
    GivesX (.sel d a b) d 0 (fun c => if c.x d.val ≠ 0 then c.x a.val else b.val c) ∧
    GivesX (.lim true d a b) d 0 (fun c => if (b.val c).toNat = 0 then 0 else
      if 64 ≤ (b.val c).toNat then c.x a.val else BitVec.ofNat 64 (Min.min (c.x a.val).toNat (2 ^ (b.val c).toNat - 1))) ∧
    GivesX (.lim false d a b) d 0 (fun c => if (b.val c).toNat = 0 then 0 else
      if 64 ≤ (b.val c).toNat then c.x a.val
      else BitVec.ofInt 64 (Max.max (-(2 ^ ((b.val c).toNat - 1))) (Min.min (c.x a.val).toInt (2 ^ ((b.val c).toNat - 1) - 1)))) ∧
    GivesX (.addpc d b) d 0 (fun c => c.arch.pc + b.val c) ∧
    ∀ k : Fin 4, GivesX (.lea d a b k) d 0 (fun c => c.x a.val + BitVec.ofNat 64 ((b.val c).toNat * 2 ^ k.val)))

/-- R60 to R63: the scalar float forms: the operation is made on the exact values of the low words and rounded once, and
bits 63:32 of an fp32 result are zero. -/
def Obligations.FloatResults : Prop :=
  ∀ (d a : Reg) (b : FSrc) (la : La) (r : Rm),
    let lo := fun (c : Ctx) (q : Reg) => f32 ((c.x q.val).setWidth 32)
    let up := fun v : W32 => (0#32 ++ v : Word)
    GivesX (.fadd r d a b la) d la.val (fun c => up (toF32 r ((lo c a).add r (f32 (b.val c))))) ∧
    GivesX (.fsub r d a b la) d la.val (fun c => up (toF32 r ((lo c a).add r (f32 (b.val c)).neg))) ∧
    GivesX (.fmul r d a b la) d la.val (fun c => up (toF32 r ((lo c a).mul (f32 (b.val c))))) ∧
    GivesX (.fma r d a b la) d la.val (fun c => up (toF32 r (((lo c a).mul (f32 (b.val c))).add r (lo c d)))) ∧
    GivesX (.fmin d a b la) d la.val (fun c => up (fPick false ((c.x a.val).setWidth 32) (b.val c))) ∧
    GivesX (.fmax d a b la) d la.val (fun c => up (fPick true ((c.x a.val).setWidth 32) (b.val c))) ∧
    (∀ k, GivesX (.fcmp k d a b la) d la.val (fun c => if fcmpHolds k ((c.x a.val).setWidth 32) (b.val c) then 1 else 0)) ∧
    (∀ o, GivesX (.fsgn o d a b la) d la.val (fun c => up (fSgn o ((c.x a.val).setWidth 32) (b.val c)))) ∧
    GivesX (.fclass d b la) d la.val (fun c => BitVec.ofNat 64 (2 ^ classOf (b.val c))) ∧
    ∀ dst src, GivesX (.fcvt dst src r d a) d 0 (fun c =>
      if dst.isInt then BitVec.ofInt 64 (dst.toInteger r (src.value (c.x a.val).toNat))
      else BitVec.ofNat 64 (dst.fmt.encode r (src.value (c.x a.val).toNat)))

/-- R64: each branch with its condition on xa and operand b.
R67, R68, R70: the jump table in and beyond its bound, and the trap of one whose entry's address is misaligned; a repetition that
begins and one that is skipped; `nop`. -/
def Obligations.ControlTransfers : Prop :=
  (∀ (a : Reg) (b : RegImm) (o : BrOff) (h : Hint),
    Branches (.beq a b o h) o (fun c => c.x a.val = b.val c) ∧
    Branches (.bne a b o h) o (fun c => c.x a.val ≠ b.val c) ∧
    Branches (.blt a b o h) o (fun c => (c.x a.val).toInt < (b.val c).toInt) ∧
    Branches (.bge a b o h) o (fun c => (b.val c).toInt ≤ (c.x a.val).toInt) ∧
    Branches (.bltn a b o h) o (fun c => (c.x a.val).toNat < (b.val c).toNat) ∧
    Branches (.bgen a b o h) o (fun c => (b.val c).toNat ≤ (c.x a.val).toNat)) ∧
  ((∀ (a b : Reg) (n : W32) (s : State), s.performs (.jtab a b n) = true →
    let i := Instr.jtab a b n
    let c := s.ctxAt i
    let e := c.x b.val + BitVec.ofNat 64 (4 * (c.x a.val).toNat)
    (n.toNat ≤ (c.x a.val).toNat → exec i s = .next (s.completed i [])) ∧
    ((c.x a.val).toNat < n.toNat → e.toNat % 4 ≠ 0 → s.cur.program = true →
      exec i s = .next (s.raise s.cur ⟨0x01, 0, e, false⟩ i.bytes)) ∧
    ∀ loc, (c.x a.val).toNat < n.toNat → (s.before i).readable 0 e 4 loc = true →
      exec i s = .next (((s.before i).afterRead e 4 loc).leave s.cur i
        (c.arch.pc + BitVec.ofInt 64 (4 * (BitVec.ofNat 32 ((s.before i).valueRead 4 loc)).toInt)) [])) ∧
  (∀ (n : Reg) (b : SrcB) (s : State), s.performs (.rep n b) = true →
    let i := Instr.rep n b
    let c := s.ctxAt i
    let count : W32 := (b.val c).setWidth 32
    (count ≠ 0 → exec i s = .next ((s.before i).begin s.cur i (BitVec.ofNat 5 n.val) (count - 1))) ∧
    ∀ pc, count = 0 →
      (s.before i).addressAfter s.cur (n.val + 1) (c.arch.pc + BitVec.ofNat 64 i.bytes) = .ok pc →
      exec i s = .next (s.jumped i pc [])) ∧
  ∀ (l : NopLits) (s : State), s.performs (.nop l) = true → exec (.nop l) s = .next (s.completed (.nop l) []))

/-- R66: `jal` and `jalr` write the address of the next instruction and continue at their target, computed from the sources
before the link is written; a `jalr` to an address that is no multiple of 4 raises cause 0x01 and writes nothing. -/
def Obligations.JumpLinks : Prop :=
  (∀ (d : Reg) (o : JOff) (s : State), s.performs (.jal d o) = true →
    let pc := (s.ctxAt (.jal d o)).arch.pc
    exec (.jal d o) s = .next (s.jumped (.jal d o) (pc + BitVec.ofInt 64 (4 * jumpOffset o))
      [.toX d.val (pc + match o with | .near _ => 4 | .far _ => 8)])) ∧
  (∀ (d a : Reg) (b : SrcB) (s : State), s.performs (.jalr d a b) = true →
    let c := s.ctxAt (.jalr d a b)
    let t := c.x a.val + b.val c
    exec (.jalr d a b) s = .next (if t.toNat % 4 = 0
      then s.jumped (.jalr d a b) t [.toX d.val (c.arch.pc + BitVec.ofNat 64 (Instr.jalr d a b).bytes)]
      else s.raise s.cur (.at 0x01 0 t) (Instr.jalr d a b).bytes))

/-- R70, R71: the passes of a repetition. With n + 1 instructions in the body and `left` passes after this one, the last
instruction of the body is followed by the first while passes are left, and by the instruction after the body when none is;
a taken transfer ends the repetition. -/
def Obligations.RepetitionPasses : Prop :=
  ∀ (r : Arch) (len : Nat),
    let after := r.pc + BitVec.ofNat 64 len
    (r.loopActive = false → (r.next false len).pc = after ∧ (r.next false len).loopActive = false) ∧
    (r.loopActive = true → r.loopIndex.toNat < r.loopLen.toNat →
      (r.next false len).pc = after ∧ (r.next false len).loopIndex.toNat = r.loopIndex.toNat + 1 ∧
      (r.next false len).loopLeft = r.loopLeft ∧ (r.next false len).loopActive = true) ∧
    (r.loopActive = true → r.loopIndex = r.loopLen → r.loopLeft ≠ 0 →
      (r.next false len).pc = r.loopa ∧ (r.next false len).loopIndex = 0 ∧
      (r.next false len).loopLeft.toNat + 1 = r.loopLeft.toNat ∧ (r.next false len).loopActive = true) ∧
    (r.loopActive = true → r.loopIndex = r.loopLen → r.loopLeft = 0 →
      (r.next false len).pc = after ∧ (r.next false len).loopActive = false) ∧
    (∀ pc, (r.goto false pc).pc = pc ∧ (r.goto false pc).loopActive = false) ∧
    (r.next true len).pc = after ∧ (r.next true len).loopActive = r.loopActive

/-! ### Control and status registers -/

/-- R72, R73: `csrr` reads; `csrw`, `csrs` and `csrc` read the old value into xd and write, by the fields' access codes, the
value of xa, the old value with the bits of xa set, or with them cleared, with nothing presented to W1C fields by `csrc`; with
x0 `csrs` and `csrc` write nothing; `live` is written before the old value lands.
R49, R161, R358: what the CSRs of a program context give.
R50, R161: a program's write of a CSR that only a supervisor or the plinth may write raises cause 0x06, subcode 1, with the
CSR's number, and writes nothing. -/
def Obligations.CsrAccess : Prop :=
  (∀ (d a : Reg) (n : BitVec 12) (s : State),
    (s.performs (.csrr d n) = true →
      exec (.csrr d n) s = .next (s.completed (.csrr d n) [.toX d.val ((s.before (.csrr d n)).csrRead s.cur n)])) ∧
    (s.performs (.csrs d a n) = true → a = 0 →
      exec (.csrs d a n) s = .next (s.completed (.csrs d a n) [.toX d.val ((s.before (.csrs d a n)).csrRead s.cur n)])) ∧
    (s.performs (.csrc d a n) = true → a = 0 →
      exec (.csrc d a n) s = .next (s.completed (.csrc d a n) [.toX d.val ((s.before (.csrc d a n)).csrRead s.cur n)])) ∧
    ∀ (i : Instr) (f : Word → Word) (clr : Word),
      (i = .csrw d a n ∧ (∀ o, f o = (s.ctxAt i).x a.val) ∧ clr = (s.ctxAt i).x a.val) ∨
      (i = .csrs d a n ∧ a ≠ 0 ∧ (∀ o, f o = o ||| (s.ctxAt i).x a.val) ∧ clr = (s.ctxAt i).x a.val) ∨
      (i = .csrc d a n ∧ a ≠ 0 ∧ (∀ o, f o = o &&& ~~~((s.ctxAt i).x a.val)) ∧ clr = 0) →
      s.performs i = true →
      let old := (s.before i).csrRead s.cur n
      (n = 7 → exec i s = .next ((s.before i).retireLive s.cur i (f old) [.toX d.val old])) ∧
      (∀ t, n ≠ 7 → (s.before i).csrWrite (levelOf s.cur) s.cur n (f old) clr = .ok t →
        exec i s = .next (t.retire s.cur i [.toX d.val old])) ∧
      (∀ tr, n ≠ 7 → (s.before i).csrWrite (levelOf s.cur) s.cur n (f old) clr = .error tr →
        exec i s = .next (s.raise s.cur tr i.bytes))) ∧
  (∀ (s : State) (c k t : Nat),
    let a := Agent.ctx c k t
    let x := s.ctx a
    s.csrRead a 0x001 = x.cause ∧ s.csrRead a 0x002 = x.epc ∧ s.csrRead a 0x003 = x.faddr ∧
    s.csrRead a 0x004 = BitVec.ofNat 64 t ∧ s.csrRead a 0x007 = x.arch.live ∧ s.csrRead a 0x009 = x.arch.loopa ∧
    s.csrRead a 0x204 = (s.course c).rinject ∧
    s.csrRead a 0x300 = BitVec.ofNat 64 ((s.core (coreId c k)).ltime80 / 80) ∧
    ∀ r, s.regionOf a = some r →
      s.csrRead a 0x301 = BitVec.ofNat 64 (r.gtime10 / 10) ∧ s.csrRead a 0x302 = BitVec.ofNat 64 (r.paused10 / 10) ∧
      s.csrRead a 0x303 = r.sscount ∧ s.csrRead a 0x304 = r.dropcnt) ∧
  (∀ (s : State) (c k t : Nat) (n : BitVec 12) (new clr : Word),
    n ∈ [0x001#12, 0x002#12, 0x003#12, 0x008#12, 0x009#12, 0x201#12, 0x202#12] →
      s.csrWrite .program (.ctx c k t) n new clr = .error ⟨0x06, 1, n.setWidth 64, false⟩ ∧
      ∀ d a : Reg, ∀ i ∈ [Instr.csrw d a n, .csrs d a n, .csrc d a n], (i = .csrw d a n ∨ a ≠ 0) →
        Denies i (fun t => t.cur.program = true) (fun _ => ⟨0x06, 1, n.setWidth 64, false⟩))

/-! ### Loads and stores -/

/-- R195, R196: a scalar load gives the sign- or zero-extended little-endian value of the bytes at xa + offset.
R195, R196, R212: a scalar store stores the low bytes of xd at xa + offset; a release is performed only when every earlier
access of its context is, and its chunk commits with it.
R161, R195: the checks of a scalar load or store in their order: alignment, the windows 2 to 7, the reserved part of a
slice, translation; each raises its cause with the effective address.
R364: an access of the plinth to its register block that is not an aligned one of 8 bytes raises cause 0x06, subcode 3. -/
def Obligations.ScalarAccess : Prop :=
  (∀ (t : IntTy) (o : LdOrder) (d a : Reg) (off : MemOff) (la : La) (s : State) (loc : Nat),
    let i := Instr.ld t o d a off la
    let e := (s.ctxAt i).x a.val + BitVec.ofInt 64 (off.getD 0).toInt
    s.performs i = true → (s.before i).readable 1 e t.size loc = true → (t = .n64 → regsAddr s.cur e = false) →
      exec i s = .next (((s.before i).afterRead e t.size loc).retire s.cur i
        [.toX d.val (loaded t ((s.before i).valueRead t.size loc)) la.val])) ∧
  (∀ (t : IntTy) (d a : Reg) (off : MemOff) (s : State) (loc : Nat),
    let e := fun i => (s.ctxAt i).x a.val + BitVec.ofInt 64 (off.getD 0).toInt
    let stored := fun i => ((s.before i).touchTlb s.cur (e i)).store s.cur
      ⟨loc, (List.range t.size).map (fun j => BitVec.ofNat 8 (((s.ctxAt i).x d.val).toNat / 2 ^ (8 * j))), winOf (e i), t.size⟩
    let fits := fun i => (s.before i).writable (e i) t.size loc ((s.ctxAt i).x d.val) = true ∧ (t = .n64 → regsAddr s.cur (e i) = false)
    (s.performs (.st t .plain d a off) = true → fits (.st t .plain d a off) →
      exec (.st t .plain d a off) s = .next ((stored (.st t .plain d a off)).retire s.cur (.st t .plain d a off) [])) ∧
    (s.performs (.st t .rel d a off) = true → fits (.st t .rel d a off) →
      (s.before (.st t .rel d a off)).canClose s.cur = true → (s.ctxAt (.st t .rel d a off)).chunk.far = [] →
      (s.before (.st t .rel d a off)).performed s.cur (beyond loc) = true →
      exec (.st t .rel d a off) s =
        .next (((stored (.st t .rel d a off)).close s.cur).retire s.cur (.st t .rel d a off) []))) ∧
  (∀ (s : State) (acc : Access) (e : Word) (size : Nat), acc ≠ .fetch → s.cur ≠ .plinth →
    (e.toNat % size ≠ 0 → s.locate s.cur acc 1 e size = .error (.trap ⟨0x01, 0, e, false⟩)) ∧
    (e.toNat % size = 0 → inAperture e = true → s.cur.program = true → 2 ≤ apWin e →
      s.locate s.cur acc 1 e size = .error (.trap ⟨0x06, 3, e, false⟩)) ∧
    (e.toNat % size = 0 → inAperture e = true → s.cur.program = true → apWin e < 2 → 0x370000 ≤ apOff e →
      s.locate s.cur acc 1 e size = .error (.trap ⟨0x06, 5, e, false⟩)) ∧
    ∀ sub, e.toNat % size = 0 → inAperture e = false → s.resolve s.cur acc e = .fault sub →
      s.locate s.cur acc 1 e size = .error (.trap ⟨if acc = .read then 0x04 else 0x05, sub, e, false⟩)) ∧
  (∀ (s : State) (acc : Access) (e : Word) (size : Nat), s.cur = .plinth → 0x0100000000000000 ≤ e.toNat →
    e.toNat < 0x0100000000014000 → (size ≠ 8 ∨ e.toNat % 8 ≠ 0) →
    s.locate s.cur acc 1 e size = .error (.trap ⟨0x06, 3, e, false⟩))

/-- R209, R211: an agent's load returns the byte of its own latest store, whether its chunk holds it or it is on its way,
and a store held in a chunk changes no other byte that the agent reads and no byte of memory.
R4, R190: a write that lands changes the bytes it names and no other byte of a slice's program part, of HBM, of a private
memory or beyond the device; a byte that no write has reached reads zero in an unmarked piece, before and after. -/
def Obligations.StoredBytes : Prop :=
  (∀ (s : State) (a : Agent) (w : Write) (loc : Nat), (s.ctx a).chunkOpen = true →
    (near a w.loc = true → (s.ctx a).chunk.far = []) →
    (s.store a w).loadByte a loc =
      (if w.loc ≤ loc ∧ loc < w.loc + w.data.length then w.data.getD (loc - w.loc) 0 else s.loadByte a loc) ∧
    (s.store a w).mem = s.mem) ∧
  (∀ (s : State) (w : Write) (f : From) (but : List Agent) (loc : Nat), w.data ≠ [] →
    (match homeOf w.loc with
      | .regs _ => False | .slice _ off => off + w.data.length ≤ progEnd | .hbm a => (s.savedAt a).isNone = true | _ => True) →
    (match homeOf loc with
      | .regs _ => False | .slice _ off => off < progEnd | .hbm a => (s.savedAt a).isNone = true | _ => True) →
    (s.land w f but).homeByte loc =
      if w.loc ≤ loc ∧ loc < w.loc + w.data.length then w.data.getD (loc - w.loc) 0 else s.homeByte loc)

/-- R197 to R199: a vector load whose guard-on lanes pass the checks of R199 and meet no uncorrectable error: lane j reads the
element at its address, converted as the window says; through a dx window the contiguous form reads one strip record.
R197 to R199: a vector store whose guard-on lanes pass the checks of R199 writes the elements of those lanes, in ascending
order of lane, each as the window says, the writes joined where their bytes follow one another in a line; through a dx window the
contiguous form writes one strip record of all 64 lanes.
R199: a strided or an indexed form through a dx window raises cause 0x06, subcode 3, at the lowest of its addresses. -/
def Obligations.VectorAccess : Prop :=
  (∀ (i : Instr) (mode : VAddr) (d a : Reg) (lay : Option (BitVec 3)) (la : La) (g : PReg) (s : State) (locs : List Nat),
    ((i = .vld d a lay la g ∧ mode = .unit) ∨ (∃ b, i = .vlds d a b lay la g ∧ mode = .stride b) ∨
      ∃ b, i = .vldx d a b lay la g ∧ mode = .index b) →
    s.performs i = true →
    let t := s.before i
    let c := s.ctxAt i
    let win := winOf (c.x a.val)
    let m := t.guardMask s.cur i
    let ws := (laneAddrs c mode a (winSize win) m).map (·.2)
    winDx win = none →
    t.vecCheck s.cur .read ws (winSize win) (lay.getD 0).toNat win (mode == .unit) true = .ok locs →
    (∀ l ∈ locs, t.clear s.cur l (winSize win) = true ∧ t.areaShut l = false) →
    ∃ v : Lanes, exec i s = .next
        (((locs.foldl (fun s l => s.noteRead t.cur l (winSize win)) t).touchAll t.cur ws).retire s.cur i
          [.toV d.val m v la.val]) ∧
      ∀ (j k : Nat), j < 64 → m.getLsbD j = true → ((List.range 64).filter m.getLsbD)[k]? = some j →
        k < locs.length → lane v j = winDecode win (t.loadNat s.cur (locs.getD k 0) (winSize win))) ∧
  (∀ (i : Instr) (mode : VAddr) (d a : Reg) (lay : Option (BitVec 3)) (g : PReg) (s : State) (locs : List Nat),
    ((i = .vst d a lay g ∧ mode = .unit) ∨ (∃ b, i = .vsts d a b lay g ∧ mode = .stride b) ∨
      ∃ b, i = .vstx d a b lay g ∧ mode = .index b) →
    s.performs i = true →
    let t := s.before i
    let c := s.ctxAt i
    let win := winOf (c.x a.val)
    let es := laneAddrs c mode a (winSize win) (t.guardMask s.cur i)
    let writes := ((es.zip locs).map fun e =>
      (⟨e.2, natBytes (winSize win) (winEncode win (lane (c.v d.val) e.1.1)), win, winSize win⟩ : Write)).foldl joinWrite []
    winDx win = none →
    t.vecCheck s.cur .write (es.map (·.2)) (winSize win) (lay.getD 0).toNat win (mode == .unit) true = .ok locs →
    (∀ l ∈ locs, t.partPoison (writes ++ t.heldStores s.cur) l (winSize win) = false ∧ t.areaShut l = false) →
    (∀ w ∈ writes, t.areaDenied w = none) →
    exec i s = .next ((writes.foldl (fun s w => s.store t.cur w) (t.touchAll s.cur (es.map (·.2)))).retire s.cur i [])) ∧
  (∀ (d a : Reg) (lay : Option (BitVec 3)) (la : La) (g : PReg) (s : State) (f : Dx) (locs : List Nat),
    let ws := fun i => (List.range (dxBytes f / 8)).map fun j => (s.ctxAt i).x a.val + BitVec.ofNat 64 (8 * j)
    let fits := fun (i : Instr) (acc : Access) =>
      s.performs i = true ∧ winDx (winOf ((s.ctxAt i).x a.val)) = some f ∧
      (s.before i).vecCheck s.cur acc (ws i) 8 (lay.getD 0).toNat (winOf ((s.ctxAt i).x a.val)) true true = .ok locs
    (let i := Instr.vld d a lay la g
     let t := s.before i
     fits i .read → (∀ l ∈ locs, t.meetsError s.cur l 8 = false ∧ t.areaShut l = false) → t.clear s.cur (locs.headD 0) (dxBytes f) = true →
     exec i s = .next ((t.noteRead s.cur (locs.headD 0) (dxBytes f)).retire s.cur i [.toV d.val (t.guardMask s.cur i)
       (lanesOf (dxDecode f (t.loadNat s.cur (locs.headD 0) (dxBytes f)))) la.val])) ∧
    let i := Instr.vst d a lay g
    let writes := lineWrites (locs.headD 0) (natBytes (dxBytes f) (dxEncode f (lane ((s.ctxAt i).v d.val)))) (winOf ((s.ctxAt i).x a.val))
    fits i .write → (∀ w ∈ writes, (s.before i).areaDenied w = none) → (∀ l ∈ locs, (s.before i).areaShut l = false) →
      exec i s = .next ((writes.foldl (fun s w => s.store s.cur w) (s.before i)).retire s.cur i [])) ∧
  (∀ (i : Instr) (mode : VAddr) (d a b : Reg) (lay : Option (BitVec 3)) (la : La) (g : PReg) (s : State),
    (i = .vlds d a b lay la g ∧ mode = .stride b) ∨ (i = .vldx d a b lay la g ∧ mode = .index b) ∨
      (i = .vsts d a b lay g ∧ mode = .stride b) ∨ (i = .vstx d a b lay g ∧ mode = .index b) →
    s.performs i = true → (winDx (winOf ((s.ctxAt i).x a.val))).isSome = true →
    let ws := (laneAddrs (s.ctxAt i) mode a 8 ((s.before i).guardMask s.cur i)).map (·.2)
    (∀ w ∈ ws, w.toNat % 8 = 0) →
    ∃ w ∈ ws, (∀ v ∈ ws, w.toNat ≤ v.toNat) ∧ exec i s = .next (s.raise s.cur ⟨0x06, 3, w, false⟩ i.bytes))

/-! ### Class 01: vectors -/

/-- R83, R84: the integer lane forms. -/
def Obligations.VectorIntegerResults : Prop :=
  ∀ (d a : Reg) (b : VSrc) (g : PReg),
    let x := fun (c : Ctx) j => lane (c.v a.val) j
    GivesV (.vadd .wrap d a b g) d 0 (fun c j => x c j + b.lane c j) ∧
    GivesV (.vadd .sat d a b g) d 0 (fun c j => clamp32 ((x c j).toInt + (b.lane c j).toInt)) ∧
    GivesV (.vadd .satn d a b g) d 0 (fun c j => BitVec.ofNat 32 (Min.min ((x c j).toNat + (b.lane c j).toNat) (2 ^ 32 - 1))) ∧
    GivesV (.vsub .wrap d a b g) d 0 (fun c j => x c j - b.lane c j) ∧
    GivesV (.vsub .sat d a b g) d 0 (fun c j => clamp32 ((x c j).toInt - (b.lane c j).toInt)) ∧
    GivesV (.vsub .satn d a b g) d 0 (fun c j => BitVec.ofNat 32 ((x c j).toNat - (b.lane c j).toNat)) ∧
    GivesV (.vmul d a b g) d 0 (fun c j => BitVec.ofInt 32 ((x c j).toInt * (b.lane c j).toInt)) ∧
    GivesV (.vmulh false d a b g) d 0 (fun c j => BitVec.ofInt 32 ((x c j).toInt * (b.lane c j).toInt / 2 ^ 32)) ∧
    GivesV (.vmulh true d a b g) d 0 (fun c j => BitVec.ofNat 32 ((x c j).toNat * (b.lane c j).toNat / 2 ^ 32)) ∧
    GivesV (.vmac d a b g) d 0 (fun c j => lane (c.v d.val) j + x c j * b.lane c j) ∧
    GivesV (.vand d a b g) d 0 (fun c j => x c j &&& b.lane c j) ∧
    GivesV (.vor d a b g) d 0 (fun c j => x c j ||| b.lane c j) ∧
    GivesV (.vxor d a b g) d 0 (fun c j => x c j ^^^ b.lane c j) ∧
    GivesV (.vsll d a b g) d 0 (fun c j => BitVec.ofNat 32 ((x c j).toNat * 2 ^ ((b.lane c j).toNat % 32))) ∧
    GivesV (.vsrl d a b g) d 0 (fun c j => BitVec.ofNat 32 ((x c j).toNat / 2 ^ ((b.lane c j).toNat % 32))) ∧
    GivesV (.vsra d a b g) d 0 (fun c j => BitVec.ofInt 32 ((x c j).toInt / 2 ^ ((b.lane c j).toNat % 32))) ∧
    GivesV (.vmin d a b g) d 0 (fun c j => BitVec.ofInt 32 (Min.min (x c j).toInt (b.lane c j).toInt)) ∧
    GivesV (.vmax d a b g) d 0 (fun c j => BitVec.ofInt 32 (Max.max (x c j).toInt (b.lane c j).toInt)) ∧
    GivesV (.vminn d a b g) d 0 (fun c j => BitVec.ofNat 32 (Min.min (x c j).toNat (b.lane c j).toNat)) ∧
    GivesV (.vmaxn d a b g) d 0 (fun c j => BitVec.ofNat 32 (Max.max (x c j).toNat (b.lane c j).toNat)) ∧
    GivesV (.vabs d a g) d 0 (fun c j => BitVec.ofNat 32 (Min.min (x c j).toInt.natAbs (2 ^ 31 - 1)))

/-- R85 to R88, R113, R114: the float lane forms; the operation is made on exact values and rounded once, and the
function-unit forms give their lane's value within its bound, which the model leaves free (log entry 8).
R110 to R112: lane conversions, a strip record's elements, and the record of 64 lanes, zero above it. -/
def Obligations.VectorFloatResults : Prop :=
  (∀ (d a : Reg) (b : VSrc) (v : VSrc1) (g : PReg) (r : Rm) (la : La),
    let x := fun (c : Ctx) j => lane (c.v a.val) j
    let y := fun (c : Ctx) j => f32 (lane (c.v a.val) j)
    let z := fun (c : Ctx) j => f32 (b.lane c j)
    GivesV (.vfadd r d a b g) d 0 (fun c j => toF32 r ((y c j).add r (z c j))) ∧
    GivesV (.vfsub r d a b g) d 0 (fun c j => toF32 r ((y c j).add r (z c j).neg)) ∧
    GivesV (.vfmul r d a b g) d 0 (fun c j => toF32 r ((y c j).mul (z c j))) ∧
    GivesV (.vfma r d a b g) d 0 (fun c j => toF32 r (((y c j).mul (z c j)).add r (f32 (lane (c.v d.val) j)))) ∧
    GivesV (.vfdiv r d a b g) d 0 (fun c j => toF32 r ((y c j).div (z c j))) ∧
    GivesV (.vfmin d a b g) d 0 (fun c j => fPick false (x c j) (b.lane c j)) ∧
    GivesV (.vfmax d a b g) d 0 (fun c j => fPick true (x c j) (b.lane c j)) ∧
    (∀ o, GivesV (.vfsgn o d a b g) d 0 (fun c j => fSgn o (x c j) (b.lane c j))) ∧
    GivesV (.vclass d a g) d 0 (fun c j => BitVec.ofNat 32 (2 ^ classOf (x c j))) ∧
    GivesV (.vsqrt d v la g) d la.val (fun c j => toF32 .rne (f32 (v.lane c j)).sqrt) ∧
    GivesV (.vexp2 d v la g) d la.val (fun c j => exp2Lane (v.lane c j)) ∧
    GivesV (.vlog2 d v la g) d la.val (fun c j => log2Lane (v.lane c j)) ∧
    GivesV (.vrcp d v la g) d la.val (fun c j => rcpLane (v.lane c j)) ∧
    GivesV (.vrsq d v la g) d la.val (fun c j => rsqLane (v.lane c j))) ∧
  (∀ (d a : Reg) (g : PReg) (r : Rm),
    (∀ dst src, tyDx src = none →
      GivesV (.vcvt dst src r d a g) d 0 (fun c j =>
        if dst.isInt then BitVec.ofInt 32 (dst.toInteger r (src.value (lane (c.v a.val) j).toNat))
        else BitVec.ofNat 32 (dst.fmt.encode r (src.value (lane (c.v a.val) j).toNat)))) ∧
    (∀ dst src f, tyDx src = some f →
      GivesV (.vcvt dst src r d a g) d 0 (fun c j => dxDecode f (recordOf (c.v a.val) (dxBytes f / 4)) j)) ∧
    ∀ f, GivesV (.vquant f d a g) d 0 (fun c j => BitVec.ofNat 32 (dxEncode f (lane (c.v a.val)) / 2 ^ (32 * j))))

/-- R90 to R93: selection, copies and rearrangement: a gather reads the lane that its index names; a scatter writes lane k
from the highest lane whose index is k; slides shift by min(b0, 64) lanes and fill with zeros; zip and unzip interleave. -/
def Obligations.VectorRearrangement : Prop :=
  ∀ (d a : Reg) (b : VSrc) (y : FSrc) (p g : PReg),
    let x := fun (c : Ctx) j => lane (c.v a.val) j
    let k := fun (c : Ctx) => Min.min (b.lane c 0).toNat 64
    GivesV (.vsel p d a b g) d 0 (fun c j => if (c.p p.val).getLsbD j then x c j else b.lane c j) ∧
    GivesV (.vmov d a g) d 0 (fun c j => x c j) ∧
    GivesV (.vbcast d y g) d 0 (fun c _ => y.val c) ∧
    GivesV (.vperm false d a b g) d 0 (fun c j => x c ((b.lane c j).toNat % 64)) ∧
    GivesV (.vperm true d a b g) d 0 (fun c j =>
      match ((List.range 64).filter fun i => (b.lane c i).toNat % 64 = j).getLast? with
      | some i => x c i
      | none => lane (c.v d.val) j) ∧
    GivesV (.vslide true d a b g) d 0 (fun c j => if j + k c < 64 then x c (j + k c) else 0) ∧
    GivesV (.vslide false d a b g) d 0 (fun c j => if k c ≤ j then x c (j - k c) else 0) ∧
    GivesV (.vzip d a b g) d 0 (fun c j => if j % 2 = 0 then x c (j / 2) else b.lane c (j / 2)) ∧
    GivesV (.vunzip d a b g) d 0 (fun c j => if j < 32 then x c (2 * j) else b.lane c (2 * (j - 32)))

/-- R89, R97: comparisons and predicate logic, bit by bit on the guard's lanes. -/
def Obligations.PredicateResults : Prop :=
  (∀ (a : Reg) (b : VSrc) (p q r g : PReg),
    let x := fun (c : Ctx) j => lane (c.v a.val) j
    GivesP (.vcmp .eq p a b g) p (fun c j => x c j == b.lane c j) ∧
    GivesP (.vcmp .ne p a b g) p (fun c j => x c j != b.lane c j) ∧
    GivesP (.vcmp .lt p a b g) p (fun c j => decide ((x c j).toInt < (b.lane c j).toInt)) ∧
    GivesP (.vcmp .ge p a b g) p (fun c j => decide ((b.lane c j).toInt ≤ (x c j).toInt)) ∧
    GivesP (.vcmp .ltn p a b g) p (fun c j => decide ((x c j).toNat < (b.lane c j).toNat)) ∧
    GivesP (.vcmp .gen p a b g) p (fun c j => decide ((b.lane c j).toNat ≤ (x c j).toNat)) ∧
    (∀ k, GivesP (.vfcmp k p a b g) p (fun c j => FCond.holds k (x c j) (b.lane c j))) ∧
    GivesP (.pset p a g) p (fun c j => (c.x a.val).getLsbD j) ∧
    GivesP (.plog .and p q r g) p (fun c j => (c.p q.val).getLsbD j && (c.p r.val).getLsbD j) ∧
    GivesP (.plog .or p q r g) p (fun c j => (c.p q.val).getLsbD j || (c.p r.val).getLsbD j) ∧
    GivesP (.plog .xor p q r g) p (fun c j => (c.p q.val).getLsbD j != (c.p r.val).getLsbD j) ∧
    GivesP (.plog .andn p q r g) p (fun c j => (c.p q.val).getLsbD j && !(c.p r.val).getLsbD j) ∧
    GivesP (.plog .not p q r g) p (fun c j => !(c.p q.val).getLsbD j))

/-- R98: `pcnt` counts the lanes where both the predicate and the guard bit are on, `pfirst` gives the lowest such lane or 64;
with no lane of the guard on, xd keeps its value. -/
def Obligations.PredicateCounts : Prop :=
  ∀ (d : Reg) (q g : PReg) (s : State),
    (s.performs (.pcnt d q g) = true → exec (.pcnt d q g) s = .next (s.completed (.pcnt d q g)
      [.toX d.val (BitVec.ofNat 64 ((List.range 64).countP fun j => ((s.ctxAt (.pcnt d q g)).p q.val).getLsbD j &&
        ((s.before (.pcnt d q g)).guardMask s.cur (.pcnt d q g)).getLsbD j))])) ∧
    (s.performs (.pfirst d q g) = true → exec (.pfirst d q g) s = .next (s.completed (.pfirst d q g)
      [.toX d.val (BitVec.ofNat 64 (((List.range 64).find? fun j => ((s.ctxAt (.pfirst d q g)).p q.val).getLsbD j &&
        ((s.before (.pfirst d q g)).guardMask s.cur (.pfirst d q g)).getLsbD j).getD 64))])) ∧
    ∀ i ∈ ([.pcnt d q g, .pfirst d q g] : List Instr), s.illegal s.cur i = false → s.guardMask s.cur i = 0 →
      ∃ t : State, exec i s = .next t ∧ t.mem = s.mem ∧ (t.ctx s.cur).arch.xs = (s.ctx s.cur).arch.xs ∧
        (t.ctx s.cur).arch.live = (s.ctx s.cur).arch.live

/-- R94 to R96: a reduction of the guard-on lanes by the pairwise tree, guard-off lanes being the operation's identity; the sum
is exact in 64 bits, in any order; a scan leaves in each lane the reduction of the lanes up to it, by six doubling steps. -/
def Obligations.ReductionResults : Prop :=
  ∀ (d a : Reg) (g : PReg) (s : State),
    (∀ op, s.performs (.vred op d a g) = true →
      let i := Instr.vred op d a g
      exec i s = .next (s.completed i
        [.toX d.val (redResult op (redIn op ((s.before i).guardMask s.cur i) ((s.ctxAt i).v a.val)))])) ∧
    (∀ op, s.performs (.vscan op d a g) = true →
      let i := Instr.vscan op d a g
      let m := (s.before i).guardMask s.cur i
      exec i s = .next (s.completed i [.toV d.val m ((List.range 6).foldl (scanStep op) (redIn op m ((s.ctxAt i).v a.val)))])) ∧
    ∀ (m : Word) (v : Lanes), redResult .add (redIn .add m v) =
      ((List.range 64).map fun j => if m.getLsbD j then (lane v j).signExtend 64 else (0 : Word)).sum

/-! ### Residue channels and pairs -/

/-- R155, R156, R159: conversion into residues, channel by channel sums and products, and the reconstruction of a band. -/
def Obligations.ResidueResults : Prop :=
  ∀ (d a : Quad) (v : Reg) (b : Quad) (x : Reg) (la : La) (g : PReg) (band : Fin 4),
    GivesQ (.rfwd false d v la g) d la.val (fun _ c j ch => ((lane (c.v v.val) j).toInt % (modulus ch : Int)).toNat) ∧
    GivesQ (.rfwd true d v la g) d la.val (fun _ c j ch =>
      ((lane (c.v (v.val + j / 32)) (2 * (j % 32) + 1) ++ lane (c.v (v.val + j / 32)) (2 * (j % 32)) : BitVec 64).toInt %
        (modulus ch : Int)).toNat) ∧
    GivesQ (.radd d a (.q b) g) d 0 (fun _ c j ch => (c.channels a j ch + c.channels b j ch) % modulus ch) ∧
    GivesQ (.radd d a (.x x) g) d 0 (fun _ c j ch => (c.channels a j ch + ((c.x x.val).toInt % (modulus ch : Int)).toNat) % modulus ch) ∧
    GivesQ (.rmul d a (.q b) g) d 0 (fun _ c j ch => (c.channels a j ch * c.channels b j ch) % modulus ch) ∧
    GivesQ (.rmul d a (.x x) g) d 0 (fun _ c j ch => (c.channels a j ch * ((c.x x.val).toInt % (modulus ch : Int)).toNat) % modulus ch) ∧
    GivesQ (.rbase d a band la g) d la.val (fun s c j ch =>
      if ch / 2 = band.val
      then (crt (withoutBand band.val (working (s.rmodeOf s.cur) ++ checks (s.rmodeOf s.cur))) (c.channels a j) %
        (modulus ch : Int)).toNat
      else c.channels a j ch)

/-- R149, R157, R158, R160: with neither trap armed `rchk` writes the mask of the guard-on elements that are not consistent
and notes mismatches and overflows in `rstat`; `rrev` writes the reconstructed 64-bit integers in the lane pairs of two
registers; `rsel` sets a mode whose bands are present and refuses any other. -/
def Obligations.ResidueChecks : Prop :=
  (∀ (d : Reg) (a : Quad) (la : La) (g : PReg) (s : State) (n : Nat),
    let i := Instr.rchk d a la g
    let t := s.before i
    let k := t.course n
    let found := fun j => checkElem k.rmode ((s.ctxAt i).channels a j)
    let on := fun j => (t.guardMask s.cur i).getLsbD j
    s.performs i = true → s.cur.course? = some n → k.rstat.getLsbD 16 = false → k.rstat.getLsbD 17 = false →
    ∃ w rstat : Word, exec i s = .next ((t.setCourse n { k with rstat := rstat }).retire s.cur i [.toX d.val w la.val]) ∧
      (∀ j, j < 64 → w.getLsbD j = (on j && found j != .consistent)) ∧
      (rstat.getLsbD 0 = (k.rstat.getLsbD 0 || (List.range 64).any fun j => on j &&
        match found j with | .mismatch _ => true | _ => false)) ∧
      (rstat.getLsbD 1 = (k.rstat.getLsbD 1 || (List.range 64).any fun j => on j && found j == .overflow))) ∧
  (∀ (d : Fin 16) (a : Quad) (b : Reg) (la : La) (g : PReg) (s : State),
    let i := Instr.rrev d a b la g
    let t := s.before i
    let y := fun j => BitVec.ofInt 64 (crt (revSet (t.rmodeOf s.cur) ((s.ctxAt i).x b.val)) ((s.ctxAt i).channels a j))
    s.performs i = true →
    ∃ (m v : Nat → Word) (l : Nat → Lanes), exec i s = .next (s.completed i
        [.toV (2 * d.val) (m 0) (l 0) la.val, .toV (2 * d.val + 1) (m 1) (l 1) la.val]) ∧
      ∀ h j, h < 2 → j < 32 → v (32 * h + j) = y (32 * h + j) ∧
        lane (l h) (2 * j) = (v (32 * h + j)).setWidth 32 ∧ lane (l h) (2 * j + 1) = (v (32 * h + j) >>> 32).setWidth 32 ∧
        (m h).getLsbD (2 * j) = (t.guardMask s.cur i).getLsbD (32 * h + j) ∧
        (m h).getLsbD (2 * j + 1) = (t.guardMask s.cur i).getLsbD (32 * h + j)) ∧
  ∀ (r : RMode) (g : PReg) (s : State) (n : Nat),
    let i := Instr.rsel r g
    let k := (s.before i).course n
    s.performs i = true → s.cur.course? = some n →
    exec i s = .next (((s.before i).setCourse n
      (if modeAllowed k.present r then { k with rmode := r } else { k with rstat := k.rstat ||| 16 })).retire s.cur i [])

/-- R149: in the normal mode a single wrong channel is found. Let x be a number whose magnitude the six working channels can
hold, let y hold its residues in every channel but one, c, where y is wrong; then the check says that channel c is wrong, and
the number is recovered from the other channels. The rule that one failing channel is located is the text's own sentence on
the fault model.
R149: an element whose eight residues are those of one number in the range of the working channels is consistent, and
`rrev` without exclusions gives that number. -/
def Obligations.ResidueCode : Prop :=
  (∀ (x : Int) (y : Nat → Nat) (c : Nat), c < 8 → 2 * x.natAbs < prodOf (working .normal) →
    (∀ k, k < 8 → y k < modulus k) → (∀ k, k < 8 → k ≠ c → (y k : Int) = x % modulus k) → (y c : Int) ≠ x % modulus c →
    checkElem .normal y = .mismatch c ∧ crt ((List.range 8).filter (· != c)) y = x) ∧
  (∀ (x : Int) (y : Nat → Nat), 2 * x.natAbs < prodOf (working .normal) → (∀ k, k < 8 → (y k : Int) = x % modulus k) →
    checkElem .normal y = .consistent ∧ crt (revSet .normal 0) y = x)

/-- R14, R42: a pair performs its class 01 form and its scalar half from the registers as they stood before it; where both
name one x register the scalar half's result is written; a trap of the class 01 form is the pair's. -/
def Obligations.PairResult : Prop :=
  ∀ (g : PReg) (h : ScalarHalf) (v : VecForm) (s : State), s.performs (.pairWord g h v) = true →
    let i := Instr.pairWord g h v
    let t := s.before i
    let c := s.ctxAt i
    (∀ u rs, doVec v (t.guardMask s.cur i) t = .done u rs →
      exec i s = .next (u.retire s.cur i (rs.filter (fun r => !(r.kind == .x && r.reg == h.d.val)) ++
        [.toX h.d.val (sopEval h.op (c.x h.d.val) (c.x h.a.val) (h.b.val c))]))) ∧
    ∀ x, doVec v (t.guardMask s.cur i) t = .trap x → exec i s = .next (s.raise s.cur x i.bytes)

/-! ### The array -/

/-- R124 to R126, R133, R134, R137: a join that passes its checks goes to the first entry of its kind and tag that its core
has not joined and that waits, or makes a new entry with the next identifier at the end of the queue; `mload` and `mgo` return
the entry's identifier and reserve a completion place.
R131, R138, R139: `mshape` sets `on` to the bands asked for that are present, marks those that come on pending, and
returns the old `ashape`; `mstat` returns an entry's state word, or 0. That a band which is switched off while it is pending is pending
no longer at once is the model's choice (log entry 70). -/
def Obligations.ArrayForms : Prop :=
  ((∀ (k : Course) (n : Job) (core : Nat),
    ((∀ j ∈ k.jobs, j.takes n core = false) → n.kind ≠ .swap →
      (k.join n core).1 = k.nextId ∧ (k.join n core).2.jobs = k.jobs ++ [{ n with id := k.nextId }] ∧
      (k.join n core).2.nextId = k.nextId + 1) ∧
    ∀ p j q, k.jobs = p ++ j :: q → (∀ e ∈ p, e.takes n core = false) → j.takes n core = true →
      (k.join n core).1 = j.id ∧ (k.join n core).2.nextId = k.nextId ∧
      (k.join n core).2.jobs =
        p ++ { j with joins := j.joins ++ n.joins, disagree := j.disagree || !j.agrees n } :: q) ∧
  ∀ (s : State) (n k t : Nat) (g : PReg), s.cur = .ctx n k t →
    let room := fun (i : Instr) (e : Job) => ((s.before i).course n).queueFull e k = false ∧
      (s.before i).performed s.cur false = true ∧ (e.kind ≠ .swap → (s.before i).placeFree (coreId n k) = true)
    let after := fun (i : Instr) (e : Job) => (s.before i).setCourse n (((s.before i).course n).join e k).2
    (∀ (d a : Reg) (c : MloadCmd),
      let i := Instr.mload d a c g
      let xa := (s.ctxAt i).x a.val
      let e : Job := { Job.blank .load with
        tag := c.tag, awin := blockWin xa, joins := [⟨k, t, xa, 0, c.stride, 0, 0, c.swz, 0⟩] }
      s.performs i = true → (s.before i).checkMload (coreId n k) xa c = none → room i e →
      exec i s = .next (((after i e).reserve (coreId n k)).retire s.cur i
        [.toX d.val ((((s.before i).course n).join e k).1.setWidth 64)])) ∧
    (∀ (tr acc : Bool) (d a b : Reg) (c : MgoCmd),
      let i := Instr.mgo tr acc d a b c g
      let xa := (s.ctxAt i).x a.val
      let xb := (s.ctxAt i).x b.val
      let e : Job := { Job.blank .product with
        tag := c.tag, transpose := tr, acc := acc, rows := c.rows.toNat, groups := c.groups, bands := c.bands,
        awin := blockWin xa, owin := blockWin xb,
        joins := [⟨k, t, xa, xb, c.astride, c.ostride, c.scale, c.aswz, c.oswz⟩] }
      s.performs i = true → (s.before i).checkMgo (coreId n k) xa xb c = none → room i e →
      exec i s = .next (((after i e).reserve (coreId n k)).retire s.cur i
        [.toX d.val ((((s.before i).course n).join e k).1.setWidth 64)])) ∧
    let e : Job := { Job.blank .swap with joins := [⟨k, t, 0, 0, 0, 0, 0, 0, 0⟩] }
    s.performs (.mswap g) = true → room (.mswap g) e →
      exec (.mswap g) s = .next ((after (.mswap g) e).retire s.cur (.mswap g) [])) ∧
  ((∀ (k : Course) (want : BitVec 4) (now b : Nat), b < 4 →
    (k.mshape want now).on.getLsbD b = (want.getLsbD b && k.present.getLsbD b) ∧
    (k.mshape want now).pending.getLsbD b =
      (want.getLsbD b && k.present.getLsbD b && (k.pending.getLsbD b || !k.on.getLsbD b)) ∧
    (k.mshape want now).present = k.present) ∧
  ∀ (d a : Reg) (g : PReg) (s : State) (n : Nat), s.cur.course? = some n →
    (let i := Instr.mshape d a g
     s.performs i = true → exec i s = .next (((s.before i).modCourse n fun k =>
        k.mshape (((s.ctxAt i).x a.val).setWidth 4) (s.before i).devTime).retire s.cur i
        [.toX d.val ((s.before i).course n).ashape])) ∧
    let i := Instr.mstat d a g
    s.performs i = true → exec i s = .next (s.completed i [.toX d.val
      (match ((s.before i).course n).jobs.find? fun j => j.kind != .swap && j.id == ((s.ctxAt i).x a.val).setWidth 12 with
        | some j => j.statWord
        | none => 0)]))

/-! ### Atomics, cells, order -/

/-- R201, R202: an atomic that is performed as it issues replaces the bytes at its home by its operation's value and returns
the old ones, in one step; `cas` writes only where the old value is that of xd. One whose value comes late leaves as a request,
and its register waits for it. R69: a supervisor's whose value the `loopc` or `loopa` slot of a context area refuses raises cause 0x06. -/
def Obligations.AtomicResults : Prop :=
  ∀ (t : AmoTy) (d a b : Reg) (g : PReg) (s : State) (loc : Nat),
    let e := fun (i : Instr) => (s.ctxAt i).x a.val
    let sum := fun (v : Nat) => v % 2 ^ (8 * t.size)
    let clear := fun (i : Instr) => s.performs i = true ∧ (s.before i).locateRmw s.cur (e i) t.size = .ok loc ∧
      (s.before i).barred s.cur .write (e i) = false ∧ (s.before i).meetsError s.cur loc t.size = false
    let write := fun (op : Option AmoOp) (i : Instr) =>
      (s.before i).amoWrite op t loc (winOf (e i)) ((s.ctxAt i).x d.val) ((s.ctxAt i).x b.val)
    let here := fun (i : Instr) => ((s.before i).late = false ∨ near s.cur loc = true ∨ (s.before i).reserved loc = true) ∧
      (s.before i).rmwWaits s.cur loc t.size = false
    let now := fun (op : Option AmoOp) (i : Instr) => here i ∧ (write op i).bind (s.before i).areaDenied = none
    let home := fun (i : Instr) => (s.before i).touchTlb s.cur (e i)
    let old := fun (i : Instr) => bytesNat ((home i).homeBytes loc t.size)
    let put := fun (i : Instr) (v : Nat) =>
      (home i).land (⟨loc, natBytes t.size v, winOf (e i), 0⟩ : Write) ((home i).fromAgent 1 s.cur) []
    let v := fun (i : Instr) => sum ((s.ctxAt i).x b.val).toNat
    (∀ op, let i := Instr.amo op t d a b g
      clear i → now (some op) i → exec i s = .next ((put i (match op with
        | .add => sum (old i + v i) | .and => old i &&& v i | .or => old i ||| v i | .xor => old i ^^^ v i | .swap => v i
        | .min => if signedOf t.size (old i) < signedOf t.size (v i) then old i else v i
        | .max => if signedOf t.size (old i) < signedOf t.size (v i) then v i else old i
        | .minn => Min.min (old i) (v i) | .maxn => Max.max (old i) (v i))).retire s.cur i
        [.toX d.val (extend t.signed t.size (old i))])) ∧
    (let i := Instr.cas t d a b g
     clear i → now none i → exec i s = .next ((if old i = sum ((s.ctxAt i).x d.val).toNat then put i (v i)
        else (home i).ask s.cur.core? loc t.size).retire s.cur i [.toX d.val (extend t.signed t.size (old i))])) ∧
    (∀ (op : Option AmoOp) (i : Instr) (x : Trap), i = (match op with | some o => .amo o t d a b g | none => .cas t d a b g) →
      clear i → here i → (write op i).bind (s.before i).areaDenied = some x → exec i s = .next (s.raise s.cur x i.bytes)) ∧
    ∀ (op : Option AmoOp) (i : Instr) (n : Nat), i = (match op with | some o => .amo o t d a b g | none => .cas t d a b g) →
      clear i → (s.before i).late = true → near s.cur loc = false → (s.before i).reserved loc = false → s.cur.core? = some n →
      (s.before i).slotsUsed n < 4096 →
      (s.ctxAt i).unsent = [] →
      exec i s = .next (({ home i with fabric := (s.before i).fabric ++
        [⟨s.cur, .amo op t loc (winOf (e i)) ((s.ctxAt i).x d.val) ((s.ctxAt i).x b.val) d⟩] } : State).retire s.cur i
        [.toX d.val 0])

/-- R203 to R205: `faddx` adds its addends to their cells in order of lane, each exactly on the cell's grid of 2^−66;
`cellrd` returns the cell's value rounded once to fp32 with the flags above it. -/
def Obligations.CellResults : Prop :=
  (∀ (a : Reg) (b : XV) (g : PReg) (s : State) (locs : List Nat),
    let i := Instr.faddx a b g
    let t := s.before i
    let ps := faddxParts (s.ctxAt i) a b (t.guardMask s.cur i)
    s.performs i = true →
    t.faddxLocs s.cur (match b with | .v _ => true | _ => false) ((s.ctxAt i).x a.val) (ps.map (·.1)) = .ok locs →
    let far := (locs.zip (ps.map (·.2))).filter fun e => t.late && !near s.cur e.1 && !t.reserved e.1
    let now := (locs.zip (ps.map (·.2))).filter fun e => !(t.late && !near s.cur e.1 && !t.reserved e.1)
    (∀ l ∈ locs, t.meetsError s.cur l 32 = false) → (∀ e ∈ now, t.rmwWaits s.cur e.1 32 = false) →
    (∀ e ∈ now, t.areaDenied (t.cellWrite e.1 e.2) = none) → t.slotsFree s.cur far.length = true → (s.ctxAt i).unsent = [] →
    let sent : State := { t.touchAll s.cur (ps.map (·.1)) with
      fabric := t.fabric ++ far.map fun e => ⟨s.cur, .cell e.1 e.2⟩ }
    exec i s = .next ((now.foldl (fun u e => u.cellAtHome s.cur e.1 e.2) sent).retire s.cur i [])) ∧
  (∀ (cell : Nat) (f : W32), cell < 2 ^ 256 → ∀ neg m e, f32 f = .fin neg m e →
    let x := signedOf 16 (cell % 2 ^ 128) + cellAddend (f32 f)
    cellAddend (f32 f) < 2 ^ 127 → -(2 ^ 127) ≤ cellAddend (f32 f) → x < 2 ^ 127 → -(2 ^ 127) ≤ x →
    signedOf 16 (cellAdd cell f % 2 ^ 128) = x ∧ cellAdd cell f / 2 ^ 128 = cell / 2 ^ 128) ∧
  ∀ (d a : Reg) (la : La) (g : PReg) (s : State) (loc : Nat),
    let i := Instr.cellrd d a la g
    let e := (s.ctxAt i).x a.val
    let t := if atHost loc then (s.before i).close s.cur else s.before i
    s.performs i = true → (s.before i).locate s.cur .read 0 e 32 = .ok loc →
    (match homeOf loc with | .regs _ => False | _ => True) → (atHost loc = true → (s.before i).canClose s.cur = true) →
    t.clear s.cur loc 32 = true → t.areaShut loc = false →
    exec i s = .next (((t.noteRead s.cur loc 32).touchTlb s.cur e).retire s.cur i
      [.toX d.val (cellValue (t.loadNat s.cur loc 32)) la.val])

/-- R229 to R232: `fence` completes when every earlier access of its context is performed in its scope and no `send` of it is
outstanding, and waits before;
`chunk` closes the chunk and nothing more; `ifence` also discards the words fetched ahead and the core's fetch buffer. -/
def Obligations.OrderForms : Prop :=
  ∀ (s : State) (g : PReg),
    (∀ k, s.performs (.fence k g) = true → exec (.fence k g) s = .next
      (if (s.before (.fence k g)).performed s.cur (k == .system) = true ∧ (s.before (.fence k g)).noSend s.cur = true
       then s.completed (.fence k g) []
       else (s.before (.fence k g)).stall s.cur)) ∧
    (s.performs (.chunk g) = true → exec (.chunk g) s = .next ((s.close s.cur).retire s.cur (.chunk g) [])) ∧
    (s.performs (.ifence g) = true → (s.before (.ifence g)).performed s.cur true = true →
      ∃ t : State, exec (.ifence g) s = .next (t.retire s.cur (.ifence g) []) ∧ (t.ctx s.cur).ahead = [] ∧
        (∀ n, s.cur.core? = some n → (t.core n).fetch = []) ∧ t.mem = (s.before (.ifence g)).mem)

/-! ### Traps and waits -/

/-- R170, R172: `ecall` and `ebreak` take their traps with `epc` after the instruction and `faddr` at it, once the chunk has
committed; `wfi` leaves the gang, waits until every earlier result has landed, and then waits with run 10 (R303).
R171: `eret` in the program handler, with every operation complete, clears intrap and goes on at `epc`; `cause`, `faddr`,
nested and the set-aside results stand. Outside the handler it raises cause 0x02. -/
def Obligations.TrapForms : Prop :=
  ((∀ (g : PReg) (s : State), (s.group s.cur).any s.amoOut = false → s.together = false →
    (s.performs (.ecall g) = true → exec (.ecall g) s = .next
      (((s.close s.cur).loseMember s.cur false).deliver s.cur ⟨0x0C, 0, (s.ctxAt (.ecall g)).arch.pc, true⟩ ((s.ctx s.cur).arch.pc + 4))) ∧
    (s.performs (.ebreak g) = true → exec (.ebreak g) s = .next
      (((s.close s.cur).loseMember s.cur false).deliver s.cur ⟨0x0D, 0, (s.ctxAt (.ebreak g)).arch.pc, true⟩ ((s.ctx s.cur).arch.pc + 4)))) ∧
  ∀ g : PReg,
    let shut := fun t : State => (t.leaveGang t.cur).modCtx t.cur Ctx.closeWindows
    Does (.wfi g) (fun t => ((shut t).ctx t.cur).arch.pend.all Pending.done = true)
      (fun t => (shut t).modCtx t.cur fun c => { c with run := 2 }) ∧
    Leaves (.wfi g) (fun t => ((shut t).ctx t.cur).arch.pend.all Pending.done = false)
      (fun t => (shut t).modCtx t.cur fun c => { c with stalled := true })) ∧
  (∀ g : PReg,
    Leaves (.eret g) (fun t => (t.ctx t.cur).intrap = true ∧ (t.ctx t.cur).arch.pend.all Pending.done = true)
      (fun t => t.modCtx t.cur fun c =>
        { c with intrap := false, ahead := [], stalled := false, arch := { c.arch with pc := c.epc } }) ∧
    ∀ s : State, (s.ctx s.cur).intrap = false →
      exec (.eret g) s = .next (s.raise s.cur ⟨0x02, 0, (Instr.eret g).word, false⟩ (Instr.eret g).bytes))

/-- R165 to R167: taking a trap writes `cause`, `epc` and `faddr`, sets the results with open windows aside, and changes no
register otherwise and no byte of memory; a trap that the block delegates enters the program handler at program level with
intrap 1; any other holds the context with run 01 and posts a notice with core, context, cause and fault address; a trap
in the handler sets nested. Where a register that the hold writes back meets an uncorrectable error in its slot, cause 0x0F stands
in place of the trap's own (R291; the model's reading, log entry 77).
R166, R241: a trap goes to the program handler exactly where its cause is delegable, the context's mask delegates it, the
block gives an entry, the context is not in its handler, and no sweep started it. -/
def Obligations.TrapTaking : Prop :=
  (∀ (s : State) (c k i : Nat) (t : Trap) (epc : Word),
    let a := Agent.ctx c k i
    let u := s.deliver a t epc
    let clean := ∀ (kind : RKind) (r : Nat), s.slotPoison (coreId c k) i kind r = false
    ((s.delegates a t).isSome = true ∨ clean →
      (u.ctx a).cause = BitVec.ofNat 64 (t.cause.toNat + 2 ^ 16 * t.sub.toNat) ∧ (u.ctx a).faddr = t.faddr) ∧
    (u.ctx a).epc = epc ∧ (u.ctx a).nested = ((s.ctx a).nested || (s.ctx a).intrap) ∧ u.mem = s.mem ∧
    ((s.ctx a).arch.pend = [] → (u.ctx a).arch.xs = (s.ctx a).arch.xs ∧ (u.ctx a).arch.vs = (s.ctx a).arch.vs ∧
      (u.ctx a).arch.ps = (s.ctx a).arch.ps) ∧
    (∀ p ∈ (u.ctx a).arch.pend, p.aside.isSome = true ∧ p.done = true) ∧
    (∀ e, s.delegates a t = some e →
      (u.ctx a).intrap = true ∧ (u.ctx a).arch.pc = e ∧ (u.ctx a).run = (s.ctx a).run ∧ (u.course c).notices = (s.course c).notices) ∧
    (s.delegates a t = none →
      (u.ctx a).intrap = (s.ctx a).intrap ∧ (u.ctx a).run = 1 ∧
      .trap (s.ownerRid c) k i (causeWord t.cause t.sub) t.faddr ∈ (u.course c).notices ∧
      (clean → (u.course c).notices = (s.course c).notices ++ [.trap (s.ownerRid c) k i (causeWord t.cause t.sub) t.faddr]))) ∧
  (∀ (s : State) (c k i : Nat) (t : Trap) (r : Region), s.regionOf (.ctx c k i) = some r →
    ((s.delegates (.ctx c k i) t).isSome = true ↔
      t.cause ∈ [0x01#8, 0x02#8, 0x06#8, 0x07#8, 0x08#8, 0x0C#8, 0x0D#8, 0x10#8] ∧
      (s.ctx (.ctx c k i)).deleg.getLsbD t.cause.toNat = true ∧ r.eff.trap ≠ 0 ∧ (s.ctx (.ctx c k i)).intrap = false ∧
      (s.ctx (.ctx c k i)).origin ≠ .sweep))

/-! ### Marked tensors -/

/-- R236, R237: `mdecl` raises cause 0x02 at a count outside its range, then cause 0x01 at the first misaligned address, then
cause 0x06, subcode 3, where a range does not lie in window 0, then subcode 5 where a range leaves the program part of the own
slice; it answers −1 while the slot's sweep runs, and else replaces the slot's declaration, clears its count of dropped wakes, and
writes the handle.
R239: `sweep` raises cause 0x06 at a handle of another core or of an empty slot, answers −1 while the engine sweeps or no helper is
free, and else, with a routine table that it can read, reserves the completion's place, gives the lowest free helper to a sweep
that has visited nothing, and waits; as the table read completes the helper begins and its number is written to xd. -/
def Obligations.ScreedForms : Prop :=
  (∀ (d a b : Reg) (c : MdeclCmd) (g : PReg) (n : Nat),
    let i := Instr.mdecl d a b c g
    let desc := fun t : State =>
      (⟨t.reads a, t.reads b, c.skip, c.table, c.count.toNat, c.esize, c.states.toNat + 1, c.tag⟩ : Desc)
    let own := fun t : State => t.cur.core? = some n
    let busy := fun t : State => (t.core n).sweep.any fun w => w.slot == c.slot.toNat
    let size := 4 * 2 ^ c.esize.toNat
    let counted := c.count.toNat ≠ 0 ∧ c.count.toNat ≤ 2 ^ 19
    let aligned := fun t : State => (t.reads a).toNat % 256 = 0 ∧ (t.reads b).toNat % 256 = 0 ∧ c.skip.toNat % 8 = 0 ∧
      c.table.toNat % 8 = 0
    let within := fun (t : State) (w : Word) (bytes : Nat) => inAperture w = true ∧ apWin w = 0 ∧ apCore w = t.cidOf n ∧
      apOff w + bytes ≤ 0x370000
    Raises i (fun t => own t ∧ ¬counted) (fun _ => ⟨0x02, 0, i.word, false⟩) ∧
    Raises i (fun t => own t ∧ counted ∧ ¬aligned t) (fun t => ⟨0x01, 0, if (t.reads a).toNat % 256 ≠ 0 then t.reads a
      else if (t.reads b).toNat % 256 ≠ 0 then t.reads b else if c.skip.toNat % 8 ≠ 0 then c.skip else c.table, false⟩) ∧
    (∀ s : State, s.performs i = true →
      let t := s.before i
      let ranges := [(t.reads a, c.count.toNat * size), (t.reads b, 4 * c.count.toNat),
        (c.skip, ((c.count.toNat + 63) / 64 + 63) / 64 * 8)]
      own t → counted → aligned t →
      let inWindow0 := fun r : Word × Nat => inAperture r.1 = true ∧ apWin r.1 = 0 ∧ r.1.toNat + r.2 ≤ 0x400200000000
      ((∃ r ∈ ranges, ¬inWindow0 r) → ∃ w, exec i s = .next (s.raise s.cur ⟨0x06, 3, w, false⟩ i.bytes)) ∧
      ((∀ r ∈ ranges, inWindow0 r) → (∃ r ∈ ranges, ¬within t r.1 r.2) →
        ∃ w, exec i s = .next (s.raise s.cur ⟨0x06, 5, w, false⟩ i.bytes))) ∧
    Does i (fun t => own t ∧ counted ∧ aligned t ∧ within t (t.reads a) (c.count.toNat * size) ∧
        within t (t.reads b) (4 * c.count.toNat) ∧ within t c.skip (((c.count.toNat + 63) / 64 + 63) / 64 * 8) ∧ busy t = false)
      (fun t => t.modCore n fun k =>
        { k with slots := Map.set k.slots c.slot.toNat (desc t), dropped := Map.erase k.dropped c.slot.toNat })
      (fun t => [.toX d.val (BitVec.ofNat 64 (t.cidOf n * 4 + c.slot.toNat))]) ∧
    Does i (fun t => own t ∧ counted ∧ aligned t ∧ within t (t.reads a) (c.count.toNat * size) ∧
        within t (t.reads b) (4 * c.count.toNat) ∧ within t c.skip (((c.count.toNat + 63) / 64 + 63) / 64 * 8) ∧ busy t = true)
      id (fun _ => [.toX d.val (BitVec.allOnes 64)])) ∧
  (∀ (d a : Reg) (g : PReg) (n : Nat),
    let i := Instr.sweep d a g
    let own := fun t : State => t.cur.core? = some n
    let slot := fun t : State => (t.reads a).toNat % 4
    let held := fun t : State => (t.reads a).toNat / 4 = t.cidOf n ∧ (t.desc? n (slot t)).isSome = true
    Raises i (fun t => own t ∧ ¬held t) (fun t => ⟨0x06, 1, t.reads a, false⟩) ∧
    Does i (fun t => own t ∧ held t ∧ (t.freeSlot n = none ∨ (t.core n).sweep.isSome = true)) id
      (fun _ => [.toX d.val (BitVec.allOnes 64)]) ∧
    ∀ (s : State) (h : Nat) (ls : List Nat) (ds : Desc), s.performs i = true →
      let t := s.before i
      let table := ls.map fun l => BitVec.ofNat 64 (t.loadNat t.cur l 8)
      own t → held t → t.desc? n (slot t) = some ds → t.freeSlot n = some h → (t.core n).sweep = none →
      t.tableLocs t.cur ds.table ds.states = .ok ls → (∀ l ∈ ls, t.meetsError t.cur l 8 = false ∧ t.farWaits t.cur l = false) →
      (∀ e ∈ table, e.toNat % 4 = 0) → t.placeFree n = true → t.performed t.cur false = true →
      let asked := ls.foldl (fun u l => u.ask t.cur.core? l 8) t
      ∃ w : Sweep, exec i s = .next (((asked.reserve n).modCore n fun k => { k with sweep := some w }).modCtx s.cur fun x =>
          { x with park := some (.sweep d a g) }) ∧
        w.slot = slot t ∧ w.helper = h ∧ w.issuer = s.cur.tid ∧ w.table = table.map (fun e => BitVec.ofNat 64 (e.toNat % 2 ^ 57)) ∧
        w.next = 0 ∧ w.cur = none ∧ w.running = none ∧ w.nStrips = 0 ∧ w.nStepped = 0 ∧ w.nFaulted = 0 ∧ w.ending = none) ∧
  ∀ (d a : Reg) (g : PReg) (s : State) (n : Nat) (w : Sweep), (s.core n).sweep = some w → w.ending = none →
    (s.ctx (ctxOf n w.helper)).origin ≠ .sweep → s.moving (ctxOf n w.helper) = true → w.helper ≠ w.issuer →
    (s.ctx (ctxOf n w.issuer)).park = some (.sweep d a g) →
    exec (.sweepStart n) s = .next ((s.startHelper n w.helper 0 0 (s.ctx (ctxOf n w.issuer)).deleg .sweep).completeParked
      (ctxOf n w.issuer) (.sweep d a g) [.toX d.val (BitVec.ofNat 64 w.helper)])

/-- R234, R243, R244: the step forms record for each lane of the effective guard its outcome: the new mark, with the state the
form gives, or the kind, operand and status of its wait; one that leaves lanes unfinished goes on, one that empties the step
mask closes the chunk after it.
R246, R248: a wake or skip command to another engine travels as a request, one for each lane of the effective guard in
ascending order; a sweep helper's command to its own engine is applied before its next instruction; a handle that names no
core of the owner raises cause 0x06. -/
def Obligations.RoutineForms : Prop :=
  (let field := fun (m : W32) (lo n : Nat) => m.toNat / 2 ^ lo % 2 ^ n
  let after := fun (i : Instr) (f : State → Nat → W32 → Bool × W32) (t : State) =>
    t.modArch t.cur fun r => { r with outs := r.outs ++ ((List.range 64).filter fun l => (t.guardMask t.cur i).getLsbD l).map fun l =>
      (l, f t l (((t.cur.core?.bind fun n => (t.core n).sweep).map fun w => w.marks.getD l 0).getD 0)) }
  let steps := fun (i : Instr) (f : State → Nat → W32 → Bool × W32) =>
    Does i (fun t => (after i f t).stepMask t.cur ≠ 0) (after i f) ∧
    Does i (fun t => (after i f t).stepMask t.cur = 0 ∧ t.canClose t.cur = true) (fun t => (after i f t).close t.cur)
  ∃ new : Nat → Nat → Nat → Nat → W32,
    (∀ operand kind status st, field (new operand kind status st) 0 6 = st % 64 ∧ field (new operand kind status st) 6 2 = status % 4 ∧
      field (new operand kind status st) 8 2 = kind % 4 ∧ field (new operand kind status st) 10 22 = operand % 2 ^ 22) ∧
    ∀ (g : PReg) (b : Reg) (st : BitVec 6),
      let value := fun (t : State) l => (lane ((t.ctx t.cur).v b.val) l).toNat
      steps (.swstepImmediate st g) (fun _ _ m => (false, new 0 0 (field m 6 2) st.toNat)) ∧
      steps (.swstepVector b g) (fun t l m => (false, new 0 0 (field m 6 2) (value t l))) ∧
      steps (.swait .next g) (fun _ _ m => (true, new 0 0 0 (field m 0 6))) ∧
      steps (.swait (.delay b) g) (fun t l m => (true, new (value t l) 1 0 (field m 0 6))) ∧
      steps (.swait (.wake b) g) (fun t l m => (true, new (value t l) 2 1 (field m 0 6))) ∧
      steps (.swait .done g) (fun _ _ m => (true, new 0 3 2 (field m 0 6)))) ∧
  (∀ (a b : Reg) (g : PReg) (set : Bool),
    let forms := fun (i : Instr) (cs : State → List ScreedCmd) =>
      let target := fun t : State => t.handleOf t.cur (t.reads a)
      let mine := fun (t : State) (core : Nat) => t.cur.core?.any fun n => (t.ctx t.cur).origin == .sweep && t.cidOf n == core
      let rid := fun t : State => (t.cur.course?.map t.ownerRid).getD 0
      Raises i (fun t => target t = none) (fun t => ⟨0x06, 1, t.reads a, false⟩) ∧
      ∀ core slot,
        Does i (fun t => target t = some (core, slot) ∧ mine t core = false ∧ t.performed t.cur false = true)
          (fun t => { t with fabric := t.fabric ++ (cs t).map fun c => ⟨t.cur, .screed core slot (rid t) c⟩ }) ∧
        ∀ n, Does i (fun t => target t = some (core, slot) ∧ mine t core = true ∧ t.cur.core? = some n ∧
            t.performed t.cur false = true ∧ (cs t).any (t.screedWaits n slot) = false)
          (fun t => (cs t).foldl (fun u c => u.receiveScreed n slot c) t)
    forms (.swake a (.x b) g) (fun t => [.wake (t.reads b).toNat]) ∧
    forms (.swake a (.v b) g) (fun t => ((List.range 64).filter fun l => (t.guardMask t.cur (.swake a (.v b) g)).getLsbD l).map
      fun l => .wake (lane ((t.ctx t.cur).v b.val) l).toNat) ∧
    forms (.skipset set a b g) (fun t => [.skip (t.reads b).toNat set]))

/-! ### Messages and watches -/

/-- R265 to R267: `send` leaves one request for each target, in ascending order of core, with the sender's header; `recv`
takes the oldest entry of its context into two registers, the payload where both are one, and parks where there is none; `peek`
reads it and leaves it, and gives zeros where there is none.
R259: a message's header holds the sender's core, context, kind and tag in their fields. -/
def Obligations.MessageForms : Prop :=
  ((∀ (mc : Bool) (a b : Reg) (ctx : Fin 11) (tag : BitVec 16) (g : PReg),
    let i := Instr.send mc a b ctx tag g
    Raises i (fun t => t.sendTargets t.cur mc (t.reads a) = none) (fun t => ⟨0x06, 1, t.reads a, false⟩) ∧
    (∀ ts n rid, Does i (fun t => t.sendTargets t.cur mc (t.reads a) = some ts ∧ t.cur.core? = some n ∧
        t.cur.course?.map t.ownerRid = some rid ∧ (ts ≠ [] → t.noSend t.cur = true ∧ t.performed t.cur false = true ∧
        t.slotsUsed n + ts.length ≤ 4096 ∧ ∀ r, t.regionOf t.cur = some r → ts.any (t.sendPaused r) = false))
      (fun t => { t with fabric := t.fabric ++ ts.map fun c =>
        ⟨t.cur, .send c ctx.val rid (msgHeader (t.cidOf n) t.cur.tid 1 tag.toNat) (t.reads b)⟩ })) ∧
    ∀ (s : State) (c k u : Nat) (v : Word), s.sendTargets (.ctx c k u) true v =
      some (((List.range 8).filter v.getLsbD).map fun j => (s.site c).ocn.toNat * 8 + j)) ∧
  ∀ (d a : Reg) (g : PReg) (c k u : Nat),
    let first := fun t : State => ((t.core (coreId c k)).inbox ++ (t.core (coreId c k)).spill).find? fun m => m.ctx == u
    let both := fun m : Msg => if d = a then [Result.toX a.val m.payload] else [.toX d.val m.header, .toX a.val m.payload]
    (∀ m, Does (.recv d a g) (fun t => t.cur = .ctx c k u ∧ first t = some m)
      (fun t => t.modCore (coreId c k) fun x => x.dequeue u) (fun _ => both m)) ∧
    Leaves (.recv d a g) (fun t => t.cur = .ctx c k u ∧ first t = none) (fun t => t.modCtx t.cur fun x => { x with park := some .recv }) ∧
    (∀ m, Does (.peek d a g) (fun t => t.cur = .ctx c k u ∧ first t = some m) id (fun _ => both m)) ∧
    Does (.peek d a g) (fun t => t.cur = .ctx c k u ∧ first t = none) id (fun _ => both ⟨0, 0, 0⟩) ∧
    ∀ (x : Core) (p q : List Msg) (m : Msg), x.inbox ++ x.spill = p ++ m :: q → m.ctx = u → (∀ e ∈ p, e.ctx ≠ u) →
      (x.dequeue u).inbox ++ (x.dequeue u).spill = p ++ q) ∧
  (∀ (src tid kind tag : Nat), src < 2 ^ 11 → tid < 16 → kind < 16 → tag < 2 ^ 16 →
    let h := msgHeader src tid kind tag
    fld h 53 11 = src ∧ fld h 49 4 = tid ∧ fld h 40 4 = kind ∧ fld h 0 16 = tag)

/-- R268, R269: `mon` takes the lowest free entry of its core's sixteen, arms it on the line with its deadline, registers at
the line's home, and waits for the acknowledgement, with which it returns the entry, or it returns all ones where none is free;
`mwait` frees a latched entry and returns its status,
parks at one with none, and returns 5 for an entry its context has not armed. -/
def Obligations.WatchForms : Prop :=
  ∀ (d a b : Reg) (g : PReg) (n : Nat),
    (let i := Instr.mon d a b g
     let count := fun t : State => fld (t.reads b) 0 32
     Does i (fun t => t.cur.core? = some n ∧ freeEntry (t.watchesOf n) = none) id (fun _ => [.toX d.val (BitVec.allOnes 64)]) ∧
     Raises i (fun t => t.cur.core? = some n ∧ (freeEntry (t.watchesOf n)).isSome = true ∧ inAperture (t.reads a) = true ∧
        0x370000 ≤ apOff (t.reads a)) (fun t => ⟨0x06, 5, t.reads a, false⟩) ∧
     ∀ k loc, Leaves i (fun t => t.cur.core? = some n ∧ freeEntry (t.watchesOf n) = some k ∧
        (inAperture (t.reads a) = true → apOff (t.reads a) < 0x370000) ∧ t.resolve t.cur .read (t.reads a) = .ok loc ∧
        t.slotsUsed n < 4096 ∧ t.gateShut t.cur loc = false)
      (fun t =>
        let u := ((t.touchTlb t.cur (t.reads a)).setWatches n (Map.set ((t.touchTlb t.cur (t.reads a)).watchesOf n) k
          ⟨t.cur.tid, lineOf loc, pageOf (t.reads a), if count t = 0xFFFFFFFF then none else some (t.nowNs n + count t), none⟩)).register
          loc ⟨lineOf loc, n, k, false⟩
        ({ u with replies := u.replies ++ [⟨t.cur, .watched, (filterOf loc).1⟩] } : State).modCtx t.cur fun c =>
          { c with park := some (.mon k d a b g) })) ∧
    (∀ (s : State) (l m : List Reply) (e port : Nat) (c : Agent), s.replies = l ++ ⟨c, .watched, port⟩ :: m →
      s.behindReply l.length = false → (∀ k, c.core? = some k → s.gated k = false) → (s.ctx c).park = some (.mon e d a b g) →
      exec (.replySink l.length) s = .next ((({ s with replies := l ++ m } : State).completeParked c (.mon d a b g)
        [.toX d.val (BitVec.ofNat 64 e)]).pumpCore c)) ∧
    let i := Instr.mwait d a g
    Does i (fun t => t.armed t.cur (t.reads a) = none) id (fun _ => [.toX d.val 5]) ∧
    (∀ e w st, Does i (fun t => t.armed t.cur (t.reads a) = some (n, e, w) ∧ w.latch = some st) (fun t => t.freeEntryAt n e)
      (fun _ => [.toX d.val (BitVec.ofNat 64 st)])) ∧
    ∀ e w, Leaves i (fun t => t.armed t.cur (t.reads a) = some (n, e, w) ∧ w.latch = none)
      (fun t => t.modCtx t.cur fun c => { c with park := some (.mwait e) })

/-! ### Streams, copies, collectives -/

/-- R271 to R273, R277: a binding that passes its checks, with a free binding and command entry, puts its register into stream
mode at the first element of the pattern of its command word; `sexit` ends the binding and the register reads what it held. -/
def Obligations.StreamForms : Prop :=
  ∀ (n : Fin 4) (a : Reg) (ty : IntTy) (c : StreamCmd) (g : PReg) (course : Nat),
    let dims := [(c.n0.toNat, c.s0), (c.n1.toNat, c.s1), (c.n2.toNat, c.s2), (c.n3.toNat, c.s3)].take (c.dims.toNat + 1)
    let ready := fun (kind : RKind) (size : Nat) (t : State) => (∀ d ∈ dims, d.1 ≠ 0 ∧ d.2.toNat % size = 0) ∧
      (t.reads a).toNat % size = 0 ∧ (∀ p ∈ (t.ctx t.cur).arch.pend, ¬(p.kind = kind ∧ p.reg = 24 + n.val)) ∧
      t.cur.course? = some course ∧ ((t.ctx t.cur).bound? kind (24 + n.val)).isNone = true ∧ t.bindings course < 16 ∧
      t.entriesUsed course < 32 ∧ t.performed t.cur true = true
    let bind := fun (j : Nat) (ty : IntTy) (t : State) => t.modCtx t.cur fun x =>
      let x := x.unbind j
      { x with arch := { x.arch with streams := Map.set x.arch.streams j (
        ⟨true, false, t.reads a, dims.map (·.2) ++ List.replicate (3 - c.dims.toNat) 0,
          dims.map (·.1) ++ List.replicate (3 - c.dims.toNat) 0, [0, 0, 0, 0], c.swz, c.dims.toNat, ty, false⟩ : Stream) } }
    Does (.smodeX n a ty c g) (ready .x ty.size) (bind n.val ty) ∧
    (∀ size, (size = 1 ∨ size = 2 ∨ size = 4 ∨ size = 8) →
      Does (.smodeV n a c g) (fun t => size = (if (winDx (winOf (t.reads a))).isSome then 8 else winSize (winOf (t.reads a))) ∧
        ready .v size t) (bind (4 + n.val) .i8)) ∧
    ∀ vector : Bool,
      let kind := if vector then RKind.v else .x
      Does (.sexit vector n g) (fun t => ∀ p ∈ (t.ctx t.cur).arch.pend, ¬(p.kind = kind ∧ p.reg = 24 + n.val))
        (fun t => if ((t.ctx t.cur).bound? kind (24 + n.val)).isSome
          then t.modCtx t.cur fun x => x.unbind (n.val + if vector then 4 else 0) else t) ∧
      ∀ (x : Ctx) (j : Nat), ((x.unbind j).stream j).bound = false

/-- R279, R282, R283: a copy that passes its checks joins its course's copy unit, and a collective's join the collective of its
tag; each reserves the place of its completion. The collective joins whatever its operand's alignment (the model's reading, log entry
33), and of a destination and a source that are both misaligned `copy` reports the destination (the model's, log entry 34). -/
def Obligations.CopyCollectiveForms : Prop :=
  ∀ (d a b : Reg) (g : PReg) (bar : Option Word) (n : Nat),
    (∀ c : CopyCmd,
      let i := Instr.copy d a b c g
      let size := 2 ^ c.esize.toNat
      let counts := [c.n0.toNat, c.n1.toNat, c.n2.toNat, c.n3.toNat].take (c.dims.toNat + 1)
      let aligned := fun t : State => (t.reads d).toNat % size = 0 ∧ (t.reads a).toNat % size = 0
      let plain := fun (w : Word) (swz : BitVec 3) => if inAperture w then apWin w = 0 else swz = 0
      let sound := c.clean = true ∧ 0 ∉ counts
      Raises i (fun _ => ¬sound) (fun _ => ⟨0x02, 0, i.word, false⟩) ∧
      Raises i (fun t => sound ∧ (t.reads d).toNat % size ≠ 0) (fun t => ⟨0x01, 0, t.reads d, false⟩) ∧
      Does i (fun t => sound ∧ aligned t ∧ plain (t.reads d) c.dswz ∧ plain (t.reads a) c.sswz ∧
          t.engineBar t.cur b = .ok bar ∧ t.cur.core? = some n ∧ t.placeFree n = true ∧ t.entriesUsed (n / 8) < 32 ∧
          t.performed t.cur true = true ∧ t.cur.course? = some (n / 8))
        (fun t => (t.reserve n).modCourse (n / 8) fun k =>
          { k with copies := k.copies ++ [⟨k.nextCopy, t.cur, c, t.reads d, t.reads a, bar, [], [], none, none, t.afterSsync t.cur⟩],
                   nextCopy := k.nextCopy + 1 })) ∧
    ∀ (op : CollOp) (c : CollCmd),
      Does (.coll op a b c g) (fun t => t.engineBar t.cur b = .ok bar ∧ t.cur.core? = some n ∧ t.placeFree n = true ∧
          t.collUsed (n / 256) < 16 ∧ t.performed t.cur true = true)
        (fun t => (t.reserve n).modRegion (t.ridOf t.cur) fun r =>
          { r with colls := addJoin ⟨t.cur, op, c, t.reads a, bar, [], none, false, t.afterSsync t.cur⟩ r.colls })

/-! ### Scratch barriers -/

/-- R284, R286, R287: the algebra of a barrier: an arrival counts and adds its expected bytes, landed bytes lower the pending
count, a sum outside 28 signed bits sets fault, and after each the check completes the phase exactly where expected is not 0,
every arrival has come, nothing is pending and no fault is set: phase flips, the epoch advances, and arrivals begin again.
R278, R285, R286, R288: `barinit` sets the fields of a barrier and keeps its epoch; `bararr` arrives, leaving its record,
or parks where it belongs to the next phase; `barwait` of a context outside a gang returns 0 and clears the record where the
epoch has passed that of its record, 2 where a fault is set, and parks otherwise. -/
def Obligations.Barriers : Prop :=
  ((∀ b : Bar, (b.expected ≠ 0 ∧ b.arrived = b.expected ∧ b.pending = 0 ∧ b.fault = false →
      b.check = { b with phase := !b.phase, epoch := (b.epoch + 1) % 2 ^ 32, arrived := 0 }) ∧
    (¬(b.expected ≠ 0 ∧ b.arrived = b.expected ∧ b.pending = 0 ∧ b.fault = false) → b.check = b)) ∧
  (∀ (b : Bar) (n : Int), -(2 ^ 27) ≤ b.pending + n → b.pending + n < 2 ^ 27 →
    b.arrive n = Bar.check { b with arrived := (b.arrived + 1) % 2 ^ 16, pending := b.pending + n }) ∧
  (∀ (b : Bar) (n : Int), (b.pending + n < -(2 ^ 27) ∨ 2 ^ 27 ≤ b.pending + n) →
    b.arrive n = { b with arrived := (b.arrived + 1) % 2 ^ 16, fault := true }) ∧
  (∀ (b : Bar) (n : Nat), (-(2 ^ 27) ≤ b.pending - n → b.lower n = Bar.check { b with pending := b.pending - n }) ∧
    (b.pending - n < -(2 ^ 27) → b.lower n = { b with fault := true })) ∧
  ∀ b : Bar, b.expected < 2 ^ 16 → b.arrived < 2 ^ 16 → -(2 ^ 27) ≤ b.pending → b.pending < 2 ^ 27 → b.spare < 4 →
    b.timeout < 2 ^ 32 → b.epoch < 2 ^ 32 → Bar.ofNat b.toNat = b) ∧
  (∀ (d a b : Reg) (g : PReg) (loc : Nat),
    let free := fun (t : State) => t.requests.any (Req.onLine t.cur [lineOf loc]) = false ∧ (t.ctx t.cur).unsent = [] ∧
      t.portShut t.cur loc 16 = false
    let put := fun (t : State) (x : Bar) =>
      t.land (⟨loc, natBytes 16 x.toNat, 0, 0⟩ : Write) (t.fromAgent 1 t.cur) []
    (∀ (acc : Access) (e : Word) (s : State), s.locateBar s.cur acc e = .ok loc → e.toNat % 16 = 0 ∧ inAperture e = true ∧ apWin e = 0) ∧
    Does (.barinit a b g) (fun t => t.locateBar t.cur .write (t.reads a) = .ok loc ∧ free t)
      (fun t => put t ⟨fld (t.reads b) 0 16, 0, 0, false, 0, false, fld (t.reads b) 32 32, (t.barAt loc).epoch⟩) ∧
    Does (.bararr a b g) (fun t => t.locateBar t.cur .write (t.reads a) = .ok loc ∧ free t ∧ t.performed t.cur false = true ∧
        (t.barAt loc).full = false)
      (fun t => (put t ((t.barAt loc).arrive (t.reads b).toInt)).modCtx t.cur fun c =>
        { c with arrRec := some (t.reads a, BitVec.ofNat 32 (t.barAt loc).epoch) }) ∧
    Leaves (.bararr a b g) (fun t => t.locateBar t.cur .write (t.reads a) = .ok loc ∧ free t ∧ t.performed t.cur false = true ∧
        (t.barAt loc).full = true)
      (fun t => t.modCtx t.cur fun c => { c with park := some (.bararr loc (t.reads a) (t.reads b) a b g) }) ∧
    ∀ e0 : W32,
      let here := fun t : State => t.locateBar t.cur .read (t.reads a) = .ok loc ∧
        t.requests.any (Req.onLine t.cur [lineOf loc]) = false ∧ (t.ctx t.cur).unsent = [] ∧
        (near t.cur loc = true ∨ t.gateShut t.cur loc = false) ∧ (t.group t.cur).length ≤ 1 ∧ (t.barAt loc).timeout ≠ 0 ∧
        e0 = match (t.ctx t.cur).arrRec with
          | some r => if r.1 = t.reads a then r.2 else BitVec.ofNat 32 (t.barAt loc).epoch
          | none => BitVec.ofNat 32 (t.barAt loc).epoch
      Does (.barwait d a g) (fun t => here t ∧ (t.barAt loc).epoch ≠ e0.toNat)
        (fun t => t.modCtx t.cur fun c => { c with arrRec := none }) (fun _ => [.toX d.val 0]) ∧
      Does (.barwait d a g) (fun t => here t ∧ (t.barAt loc).epoch = e0.toNat ∧ (t.barAt loc).fault = true) id
        (fun _ => [.toX d.val 2]) ∧
      Leaves (.barwait d a g) (fun t => here t ∧ (t.barAt loc).epoch = e0.toNat ∧ (t.barAt loc).fault = false)
        (fun t => t.modCtx t.cur fun c => { c with park := some (.barwait loc (t.reads a) e0
          (if (t.barAt loc).timeout = 0xFFFFFFFF then none else some (t.agentNs t.cur + (t.barAt loc).timeout)) d a g) }))

/-! ### Helpers, gangs, liveness -/

/-- R304, R305: `hstart` in a control context gives its entry, its argument and its delegation mask to the lowest free helper,
reserves its end message's place and returns its number, or −1 where no helper is free; `hend` of a helper whose results have
landed and whose accesses are performed ends it and posts the end message, and else waits off the issue slot; each raises
cause 0x06 in the other kind of context.
R13, R304: a helper begins at its entry with its argument in x1, every other register zero, every register live, no
repetition, and status holding only the delegation mask; it stands last in the issue order.
R71, R292, R306 to R309: `gang` refuses a mask that is not a run of two or more cores with its own, traps together with the cores
of it that wait with another mask, parks until every core of it is parked with the same mask, and then forms the gang; `split` dissolves it and ends a repetition, and does nothing outside
one; `live` sets the liveness mask before later results land; `yield` changes the issue order alone. -/
def Obligations.HelperGangForms : Prop :=
  (∀ (d a : Reg) (off : W32) (g : PReg) (n k : Nat),
    let i := Instr.hstart d a off g
    let core := coreId n k
    Does i (fun t => t.cur = .ctx n k 0 ∧ t.freeSlot core = none) id (fun _ => [.toX d.val (BitVec.allOnes 64)]) ∧
    (∀ h, Does i (fun t => t.cur = .ctx n k 0 ∧ t.freeSlot core = some h ∧ t.placeFree core = true ∧ t.performed t.cur false = true)
      (fun t => (t.reserve core).startHelper core h ((t.ctx t.cur).arch.pc + BitVec.ofInt 64 (4 * off.toInt)) (t.reads a)
        (t.ctx t.cur).deleg .hstart)
      (fun _ => [.toX d.val (BitVec.ofNat 64 h)])) ∧
    (∀ h, h ≠ 0 → Denies i (fun t => t.cur = .ctx n k h) (fun t => ⟨0x06, 1, (t.ctx t.cur).arch.pc, false⟩)) ∧
    Denies (.hend g) (fun t => t.cur = .ctx n k 0) (fun t => ⟨0x06, 1, (t.ctx t.cur).arch.pc, false⟩) ∧
    ∀ h, h ≠ 0 →
      let shut := fun t : State => t.modCtx t.cur Ctx.closeWindows
      let ended := fun t : State => ((shut t).ctx t.cur).arch.pend.all Pending.done = true ∧
        (shut t).performed t.cur false = true ∧ (shut t).noSend t.cur = true
      Leaves (.hend g) (fun t => t.cur = .ctx n k h ∧ ended t)
        (fun t => ((shut t).retireCtx t.cur).postReserved core
          ⟨0, msgHeader ((shut t).cidOf core) h 3 0, BitVec.ofNat 64 (h % 16)⟩) ∧
      Leaves (.hend g) (fun t => t.cur = .ctx n k h ∧ ¬ended t)
        (fun t => (shut t).modCtx t.cur fun c => { c with park := some .hend })) ∧
  (∀ (s : State) (core h : Nat) (pc x1 : Word) (deleg : BitVec 32) (o : Origin), core < 2048 → h < 11 →
    let u := s.startHelper core h pc x1 deleg o
    let c := u.ctx (ctxOf core h)
    c.arch.pc = pc ∧ c.x 1 = x1 ∧ (∀ r, r ≠ 1 → c.x r = 0) ∧ (∀ r j, lane (c.v r) j = 0) ∧ (∀ r, r ≠ 0 → c.p r = 0) ∧
    c.arch.live = BitVec.allOnes 64 ∧ c.loopc = 0 ∧ c.arch.loopa = 0 ∧
    c.status = BitVec.ofNat 64 (deleg.toNat * 2 ^ 32) ∧ (u.core core).order = (s.core core).order ++ [h] ∧ u.mem = s.mem) ∧
  (∀ (a : Reg) (g : PReg) (n k : Nat),
    let i := Instr.gang a g
    let mask := fun t : State => (t.reads a).setWidth 8
    let here := fun t : State => t.cur = .ctx n k 0 ∧ k < 8
    let sound := fun t : State => (t.core (coreId n k)).gang = none ∧ (mask t).getLsbD k = true ∧
      ∃ lo hi, lo < hi ∧ hi < 8 ∧ ∀ j, (mask t).getLsbD j = (decide (lo ≤ j) && decide (j ≤ hi))
    let others := fun t : State => ((List.range 8).filter fun j => (mask t).getLsbD j && j != k).map fun j =>
      match (t.ctx (ctxOf (coreId n j) 0)).park with | some (.gang m _ _) => some m | _ => none
    Raises i (fun t => here t ∧ ¬sound t) (fun _ => ⟨0x10, 0xFF, 0, false⟩) ∧
    Leaves i (fun t => here t ∧ sound t ∧ ∀ q ∈ others t, q = some (mask t)) (fun t => t.formGang n (mask t) i) ∧
    Leaves i (fun t => here t ∧ sound t ∧ (∀ m, some m ∈ others t → m = mask t) ∧ ∃ q ∈ others t, q ≠ some (mask t))
      (fun t => t.modCtx t.cur fun c => { c with park := some (.gang (mask t) a g) }) ∧
    (let clash := fun t : State => (((List.range 8).filter fun j => (mask t).getLsbD j && j != k).map fun j => ctxOf (coreId n j) 0).filter
        fun b => match (t.ctx b).park with | some (.gang m _ _) => m != mask t | _ => false
     Leaves i (fun t => here t ∧ sound t ∧ clash t ≠ [] ∧ (t.cur :: clash t).any t.amoOut = false)
      (fun t => ((clash t).foldl (fun u b => u.deliver b ⟨0x10, 0xFF, 0, false⟩ (u.ctx b).arch.pc) t).deliver t.cur ⟨0x10, 0xFF, 0, false⟩
        (t.ctx t.cur).arch.pc)) ∧
    (∀ s : State, s.performs (.split g) = true → here (s.before (.split g)) →
      exec (.split g) s = .next (if ((s.before (.split g)).core (coreId n k)).gang.isSome ∨ (s.before (.split g)).together
        then ((s.before (.split g)).leaveGang s.cur).leave s.cur (.split g) ((s.ctxAt (.split g)).arch.pc + 4) []
        else s.completed (.split g) [])) ∧
    (∀ s : State, s.performs (.live a g) = true →
      exec (.live a g) s = .next ((s.before (.live a g)).retireLive s.cur (.live a g) ((s.ctxAt (.live a g)).x a.val) [])) ∧
    (∀ w c, (Ctx.setLive c w).arch.live = w ||| 1 ∧
      (∀ r, r ≠ 0 → r < 32 → (Ctx.setLive c w).bound? .x r = none → w.getLsbD r = false → (Ctx.setLive c w).x r = 0) ∧
      ∀ r j, r < 32 → (Ctx.setLive c w).bound? .v r = none → w.getLsbD (32 + r) = false → lane ((Ctx.setLive c w).v r) j = 0) ∧
    ∀ h, (Does (.yield g) (fun t => t.cur = .ctx n k h ∧ (h = 0 → (t.core (coreId n k)).gang = none) ∧
            (t.core (coreId n k)).policy = false)
          (fun t => t.modCore (coreId n k) fun x => { x with order := x.order.filter (· != h) ++ [h], current := none })) ∧
      Does (.yield g) (fun t => t.cur = .ctx n k h ∧ (h = 0 → (t.core (coreId n k)).gang = none) ∧
            (t.core (coreId n k)).policy = true)
          (fun t => t.modCore (coreId n k) fun x => { x with passes := addLines x.passes [h] }))

/-! ### Translation forms -/

/-- R325 to R327: from program level each form raises cause 0x06; at a quoin `tlbw` installs its entry for the course's owner
after its checks, `tlbi` and `tlbi.all` remove theirs and complete once no access is on its way through a removed entry, and
`replay` retries every parked access; each does nothing in a course without an owner.
R319, R325: the checks of `tlbw` in their order, and the page and entry that it installs. -/
def Obligations.TranslationForms : Prop :=
  (∀ (a b : Reg) (g : PReg) (c : Nat),
    let owned := fun t : State => t.cur = .quoin c ∧ t.ownerRid c ≠ 0
    let forms := [Instr.tlbw a b g, .tlbi a g, .tlbiAll g, .replay g]
    (∀ i ∈ forms, Denies i (fun t => t.cur.program = true) (fun t => ⟨0x06, 1, (t.ctx t.cur).arch.pc, false⟩)) ∧
    (∀ i ∈ forms, Does i (fun t => t.cur = .quoin c ∧ t.ownerRid c = 0) id) ∧
    Does (.tlbw a b g) (fun t => owned t ∧ tlbwTrap (t.reads a) (t.reads b) (Instr.tlbw a b g).word = none)
      (fun t => t.install c (entryFor (t.ownerRid c) (t.reads a) (t.reads b))) ∧
    (∀ x, Raises (.tlbw a b g) (fun t => owned t ∧ tlbwTrap (t.reads a) (t.reads b) (Instr.tlbw a b g).word = some x)
      (fun _ => x)) ∧
    (∀ (i : Instr) (p : State → TlbEntry → Bool),
      (i = .tlbi a g ∧ p = fun t e => e.covers (t.reads a)) ∨ (i = .tlbiAll g ∧ p = fun _ _ => true) →
      let key := fun t : State => ((t.ownerRegion c).map (·.pkey)).getD 0
      let removed := fun t : State => if (t.course c).shot = [] then (t.shootDown c (p t)).modCourse c fun k =>
        { k with shot := ((t.course c).tlb.filter fun e => e.owner == t.ownerRid c && p t e).filterMap (t.reach (key t)) } else t
      Does i (fun t => owned t ∧ (removed t).shotBusy c = false)
        (fun t => (removed t).modCourse c fun k => { k with shot := [] }) ∧
      Leaves i (fun t => owned t ∧ (removed t).shotBusy c = true)
        (fun t => (removed t).modCtx t.cur fun x => { x with stalled := true })) ∧
    let begun := fun t : State => if (t.course c).replay = none then t.beginReplay c else t
    Does (.replay g) (fun t => owned t ∧ (begun t).replaying c = [])
      (fun t => (begun t).modCourse c fun k => { k with replay := none }) ∧
    Leaves (.replay g) (fun t => owned t ∧ (begun t).replaying c ≠ [])
      (fun t => (begun t).modCtx t.cur fun x => { x with stalled := true })) ∧
  (∀ (va e word : Word) (o : BitVec 16),
    let size := 2 ^ (match fld e 62 2 with | 0 => 12 | 1 => 16 | 2 => 21 | _ => 30 : Nat)
    let frame := fld e 12 40 * 4096
    let target := fld e 60 2
    let placed := va.toNat < 2 ^ 57 ∧ inAperture va = false
    let formed := fld e 52 5 = 0 ∧ fld e 0 12 = 0 ∧ (target = 3 → frame = 0 ∧ fld e 57 3 = 0) ∧ (target = 0 → frame < 640 * 2 ^ 30)
    (¬placed → tlbwTrap va e word = some ⟨0x06, 3, va, false⟩) ∧
    (placed → ¬formed → tlbwTrap va e word = some ⟨0x02, 0, word, false⟩) ∧
    (placed → formed → target ≠ 3 → frame % size ≠ 0 → tlbwTrap va e word = some ⟨0x01, 0, va, false⟩) ∧
    (placed → formed → (target = 3 ∨ frame % size = 0) → tlbwTrap va e word = none) ∧
    (entryFor o va e).owner = o ∧ (entryFor o va e).e = e ∧ (entryFor o va e).base.toNat = va.toNat / size * size ∧
    ∀ w, (entryFor o va e).covers w = decide (w.toNat / size = va.toNat / size))

/-! ### Supersteps -/

/-- R360 to R363: in a control context `xphase` enters the exchange phase; in it `ssync` arrives at the keystone and parks once
every result of its context has completed, and `vote` arrives with its value at the context's next vote and parks once every
earlier access is performed; outside it both raise cause 0x02, and in a helper all three raise cause 0x06. -/
def Obligations.SuperstepForms : Prop :=
  ∀ (op : VoteOp) (d a : Reg) (g : PReg) (n k : Nat),
    let here := fun t : State => t.cur = .ctx n k 0
    let shut := fun t : State => t.modCtx t.cur Ctx.closeWindows
    (∀ i ∈ [Instr.xphase g, .ssync g, .vote op d a g], ∀ h, h ≠ 0 →
      Denies i (fun t => t.cur = .ctx n k h) (fun t => ⟨0x06, 1, (t.ctx t.cur).arch.pc, false⟩)) ∧
    (∀ i ∈ [Instr.ssync g, .vote op d a g], ∀ s : State, here s → (s.ctx s.cur).exchange = false →
      exec i s = .next (s.raise s.cur ⟨0x02, 0, i.word, false⟩ i.bytes)) ∧
    Does (.xphase g) here (fun t => t.modCtx t.cur fun c => { c with exchange := true }) ∧
    Leaves (.ssync g) (fun t => here t ∧ ((shut t).ctx t.cur).arch.pend.all Pending.done = true)
      (fun t => ((shut t).modRegion ((shut t).ownerRid (coreId n k / 8)) fun r =>
          { r with arrived := r.arrived ++ [(shut t).cidOf (coreId n k)], wdFrom := r.wdFrom.or (some r.gtime10) }).modCtx t.cur
        fun c => { c with park := some (.ssync g) }) ∧
    Leaves (.vote op d a g) (fun t => here t ∧ t.performed t.cur false = true)
      (fun t => ((t.modRegion (t.ownerRid (coreId n k / 8)) fun r =>
          { r with votes := addVote (t.ctx t.cur).voteOrd (t.cidOf (coreId n k)) (t.reads a) r.votes }).modCtx t.cur fun c =>
        { c with voteOrd := ((t.ctx t.cur).voteOrd + 1) % 2 ^ 16 }).modCtx t.cur fun c =>
        { c with park := some (.vote (t.ctx t.cur).voteOrd op d a g) }) ∧
    ∀ x y : Word, combine .and [x, y] = x &&& y ∧ combine .or [x, y] = x ||| y ∧
      (combine .min [x, y]).toInt = Min.min x.toInt y.toInt ∧ (combine .max [x, y]).toInt = Max.max x.toInt y.toInt

/-! ### Requests, replies, messages -/

/-- R214, R219, R256, R340, R341: a request in flight that no earlier request of its context for the same line precedes, and whose port
and gate are open and that stands behind no message of its ports, is performed at its home, and its reply leaves; at a port that the commit token shuts it waits in order of
arrival, and before a closed gate it stays where it is. A reply sinks: stores that wait for a slot leave, and an atomic's value
reaches its register; for a core whose course moves it goes into a mortar buffer. -/
def Obligations.FabricSteps : Prop :=
  ∀ (s : State) (p q : List Req) (a : Agent),
    let gone : State := { s with fabric := p ++ q }
    let answer := fun (u : State) (r : ReplyOp) (loc : Nat) => ({ u with replies := u.replies ++ [⟨a, r, (filterOf loc).1⟩] } : State)
    (s.behindPort p.length = false → (∀ w, s.fabric = p ++ ⟨a, .store w⟩ :: q → p.any (Req.onLine a (linesOf w.loc w.data.length)) = false →
      s.portShut a w.loc w.data.length = false →
      exec (.farAccessAtHome p.length) s = .next (answer
        (if s.barredAt a w.loc then gone.countDrop a else gone.land w (s.fromAgent 0 a) []) (.ack w.loc) w.loc)) ∧
    (∀ op t loc win cmp new d, s.fabric = p ++ ⟨a, .amo op t loc win cmp new d⟩ :: q →
      p.any (Req.onLine a (linesOf loc t.size)) = false → s.portShut a loc t.size = false →
      let r := gone.amoAtHome a op t loc win cmp new
      exec (.farAccessAtHome p.length) s = .next (answer r.2 (.value d (extend t.signed t.size r.1)) loc) ∧
        r.1 = bytesNat (gone.homeBytes loc t.size)) ∧
    (∀ loc f, s.fabric = p ++ ⟨a, .cell loc f⟩ :: q → p.any (Req.onLine a (linesOf loc 32)) = false →
      s.portShut a loc 32 = false → exec (.farAccessAtHome p.length) s = .next (answer (gone.cellAtHome a loc f) (.ack loc) loc)) ∧
    (∀ w core off, s.fabric = p ++ ⟨a, .store w⟩ :: q → homeOf w.loc = .slice core off →
      (s.gatedFrom a core = true → exec (.farAccessAtHome p.length) s = .next s) ∧
      (p.any (Req.onLine a (linesOf w.loc w.data.length)) = false → s.gatedFrom a core = false → s.areaShut w.loc = false →
        s.tokenBlocks w.loc w.data.length [] = true → exec (.farAccessAtHome p.length) s =
          .next (gone.modCore core fun k => { k with port := k.port ++ [.req ⟨a, .store w⟩] })))) ∧
    (s.behindPort p.length = true → exec (.farAccessAtHome p.length) s = .next s) ∧
    ∀ (l m : List Reply) (loc port : Nat) (d : Reg) (x : Word),
      let sunk : State := { s with replies := l ++ m }
      (s.behindReply l.length = true → exec (.replySink l.length) s = .next s) ∧
      (s.behindReply l.length = false → (∀ n, a.core? = some n → s.gated n = false) →
        (s.replies = l ++ ⟨a, .ack loc, port⟩ :: m → exec (.replySink l.length) s = .next (sunk.pumpCore a)) ∧
        (s.replies = l ++ ⟨a, .value d x, port⟩ :: m →
          exec (.replySink l.length) s = .next (((sunk.modCtx a fun c => c.fill d x).sink sunk a).pumpCore a))) ∧
      (∀ n, a.core? = some n → s.gated n = true → s.behindReply l.length = false → s.replies = l ++ ⟨a, .value d x, port⟩ :: m →
        exec (.replySink l.length) s = .next { sunk with mortar := s.mortar ++ [⟨n, .reply ⟨a, .value d x, port⟩⟩] }) ∧
      (∀ c : Ctx, c.chunk.start = none → c.arch.pend = [⟨.x, d.val, 0, [], 0, 0, false, none, []⟩] →
        (c.fill d x).arch.xs = (c.setX d.val x).arch.xs ∧ (c.fill d x).arch.pend = []) ∧
      ((s.ctx a).unsent = [] → ((s.pump a).fabric = s.fabric ∧ (s.pump a).mem = s.mem))

/-- R175, R176, R255, R258 to R260, R262, R266: a `send` at its target, behind no earlier request of its port to that port, to a core that does
not move, is accepted and appended to the core's sequence where the region lives and has room, appended to the image of a
pre-empted region, dropped and counted where the region does not live, and busy where the sequence is full; a verdict sinks, and a
busy one is sent again 64 cycles later; the inbox is refilled from the spill area in order; a message that waits wakes a parked
`recv`; a supervisor's message is appended in the same way, to a core named by its number on the device or by region and `cid`. -/
def Obligations.MessageSteps : Prop :=
  (∀ (s : State) (p q : List Req) (a : Agent) (cid ctx : Nat) (rid : BitVec 16) (h x : Word) (r : Region) (n : Nat),
    s.fabric = p ++ ⟨a, .send cid ctx rid h x⟩ :: q → s.behindPort p.length = false →
    let gone : State := { s with fabric := p ++ q }
    let answer := fun (u : State) (v : ReplyOp) => ({ u with replies := u.replies ++ [⟨a, v, s.portOf rid cid⟩] } : State)
    (s.region? rid = none → exec (.sendDelivery p.length) s = .next (answer (gone.countDrop a) .dropped)) ∧
    (s.region? rid = some r → (∀ k, r.coreOf cid = some k → s.gated k = true → exec (.sendDelivery p.length) s = .next s)) ∧
    (s.region? rid = some r → (∀ k, r.coreOf cid = some k → s.gated k = false) →
      (r.saved = none → r.coreOf cid = some n → (s.core n).places + s.inMortar n < 4160 → exec (.sendDelivery p.length) s =
        .next (answer ((gone.modCore n fun k => k.push ⟨ctx, h, x⟩).recordSup rid cid ⟨ctx, h, x⟩) .accepted)) ∧
      (r.saved = none → r.coreOf cid = some n → 4160 ≤ (s.core n).places + s.inMortar n →
        exec (.sendDelivery p.length) s = .next (answer gone (.busy (.send cid ctx rid h x)))) ∧
      ∀ v, r.saved = some v → (Map.get Core.fresh v.cores cid).places < 4160 → exec (.sendDelivery p.length) s =
        .next (answer ((gone.modRegion rid fun r => { r with saved := r.saved.map fun v =>
          { v with cores := Map.set v.cores cid ((Map.get Core.fresh v.cores cid).push ⟨ctx, h, x⟩) } }).recordSup rid cid
            ⟨ctx, h, x⟩) .accepted))) ∧
  (∀ (s : State) (l m : List Reply) (a : Agent) (r : ReqOp) (t n port : Nat), a.core? = some n →
    let sunk : State := { s with replies := l ++ m }
    (s.gated n = false → s.behindReply l.length = false →
      (s.replies = l ++ ⟨a, .accepted, port⟩ :: m → exec (.sendVerdict l.length) s = .next (sunk.pumpCore a)) ∧
      (s.replies = l ++ ⟨a, .dropped, port⟩ :: m → exec (.sendVerdict l.length) s = .next (sunk.pumpCore a)) ∧
      (s.replies = l ++ ⟨a, .busy r, port⟩ :: m → exec (.sendVerdict l.length) s =
        .next (({ s with replies := l ++ m ++ [⟨a, .resend r ((s.core n).ltime80 + 64 * 80), port⟩] } : State).pumpCore a))) ∧
    (s.replies = l ++ ⟨a, .resend r t, port⟩ :: m → t ≤ (s.core n).ltime80 → s.slotsUsed n < 4096 → s.toPaused r = false →
      exec (.sendResend l.length) s = .next { sunk with fabric := s.fabric ++ [⟨a, r⟩] })) ∧
  (∀ (s : State) (n : Nat), (s.core n).spill ≠ [] → (s.core n).inbox.length < 64 →
    exec (.spillRefill n) s = .next (s.modCore n fun k =>
      { k with inbox := (k.inbox ++ k.spill).take 64, spill := (k.inbox ++ k.spill).drop 64 })) ∧
  (∀ (k : Core) (m : Msg), (k.push m).inbox ++ (k.push m).spill = k.inbox ++ k.spill ++ [m] ∧
    (k.push m).inbox.length ≤ 64) ∧
  (∀ (s : State) (a : Agent), (s.ctx a).park = some .recv → (s.front a).isSome = true →
    exec (.recvWake a) s = .next (s.modCtx a fun c => { c with park := none })) ∧
  (∀ (s : State) (rid : BitVec 16) (cid : Nat), cid < 2048 → s.regionCore (imageCore rid cid) = (rid, cid)) ∧
  (∀ (s : State) (n : Nat), n < 2048 → s.regionCore n = ((s.site (n / 8)).rid, (s.site (n / 8)).ocn.toNat * 8 + n % 8)) ∧
  ∀ (s : State) (rid : BitVec 16) (cid t n k : Nat) (tag : BitVec 16) (x : Word) (r : Region), s.region? rid = some r →
    s.regionCore k = (rid, cid) →
    let m : Msg := ⟨t, msgHeader 0x7FF t 4 tag.toNat, x⟩
    let kept := fun (u : State) => u.modRegion rid fun r => { r with supSince := r.supSince ++ [(cid, m)] }
    (r.saved = none → r.coreOf cid = some n → s.gated n = false → (s.core n).places + s.inMortar n < 4160 →
      exec (.supervisorMessage k t tag x) s = .next (kept (s.modCore n fun k => k.push m))) ∧
    (∀ v, r.saved = some v → (Map.get Core.fresh v.cores cid).places < 4160 →
      exec (.supervisorMessage k t tag x) s = .next (kept (s.modRegion rid fun r => { r with saved := r.saved.map fun v =>
        { v with cores := Map.set v.cores cid ((Map.get Core.fresh v.cores cid).push m) } })))

/-! ### Waits -/

/-- R263, R264, R269, R286, R288: a report or a deadline latches its status in a watch entry, 0 over any other and another
only where there is none; a latched entry wakes a parked `mwait`; a parked arrival counts once its phase has gone by, and a
parked `barwait` of a context outside a gang completes with its status.
R126, R260, R271, R282, R283: a parked context issues its instruction anew once a place of completion, an entry of the
array's queue, an entry of the copy unit, a stream binding or an entry of the collective engine is free; a
context that waits for something else stays parked. -/
def Obligations.WaitSteps : Prop :=
  ((∀ (s : State) (n e : Nat) (r : Registration), n < 2048 →
    (s.filters.find? fun r => r.core == n && r.entry == e && r.hit) = some r →
    exec (.watchReport n e) s = .next (({ s with filters := s.filters.erase r } : State).modCore n fun k =>
      { k with watches := k.watches.map fun w => if w.1 == e && w.2.line == r.line then (w.1, w.2.latchWith 0) else w })) ∧
  (∀ (s : State) (n e : Nat), n < 2048 → exec (.watchTimeout n e) s = .next (s.modCore n fun k =>
    { k with watches := k.watches.map fun w => if w.1 == e && (w.2.deadline.any fun t => decide (t ≤ s.nowNs n))
        then (w.1, w.2.latchWith 1) else w })) ∧
  (∀ (w : Watch) (st : Nat), (w.latchWith st).latch = some (if w.latch.isNone ∨ st = 0 then st else w.latch.getD 0) ∧
    (w.latchWith st).line = w.line ∧ (w.latchWith st).owner = w.owner) ∧
  (∀ (s : State) (c k t e : Nat) (w : Watch), (s.ctx (.ctx c k t)).park = some (.mwait e) → coreId c k < 2048 →
    Map.find (s.core (coreId c k)).watches e = some w → w.latch.isSome = true →
    exec (.mwaitWake (.ctx c k t)) s = .next (s.modCtx (.ctx c k t) fun x => { x with park := none })) ∧
  (∀ (s : State) (a : Agent) (loc : Nat) (e x : Word) (xa xb : Reg) (g : PReg), (s.ctx a).park = some (.bararr loc e x xa xb g) →
    (s.barAt loc).full = false → s.portShut a loc 16 = false → s.moving a = true →
    exec (.parkedBararrArrival a) s = .next (((s.putBar loc ((s.barAt loc).arrive x.toInt) (s.fromAgent 1 a)).modCtx a fun c =>
      { c with arrRec := some (e, BitVec.ofNat 32 (s.barAt loc).epoch) }).completeParked a (.bararr xa xb g) [])) ∧
  ∀ (s : State) (a : Agent) (loc : Nat) (e : Word) (e0 : W32) (dl : Option Nat) (d xa : Reg) (g : PReg),
    (s.ctx a).park = some (.barwait loc e e0 dl d xa g) → s.group a = [a] → s.moving a = true →
    ((s.barAt loc).epoch ≠ e0.toNat → exec (.barwaitWake a) s =
      .next ((s.modCtx a fun c => { c with arrRec := none }).completeParked a (.barwait d xa g) [.toX d.val 0])) ∧
    ((s.barAt loc).epoch = e0.toNat → (s.barAt loc).fault = true → exec (.barwaitWake a) s =
      .next (s.completeParked a (.barwait d xa g) [.toX d.val 2])) ∧
    ∀ t, (s.barAt loc).epoch = e0.toNat → (s.barAt loc).fault = false → dl = some t → t ≤ s.agentNs a →
      exec (.barwaitTimeout a) s = .next (s.completeParked a (.barwait d xa g) [.toX d.val 1])) ∧
  (∀ (s : State) (a : Agent) (n c : Nat), a.core? = some n → a.course? = some c →
    let wakes := fun (i : Instr) (p : Park) (free : Prop) =>
      ((s.ctx a).park = some p → free → exec i s = .next (s.modCtx a fun x => { x with park := none })) ∧
      ((s.ctx a).park ≠ some p → exec i s = .next s)
    wakes (.reservationRetry a) .reserve ((s.core n).places + s.inMortar n < 4160) ∧
    wakes (.arrayJoinRetry a) .array ((s.course c).jobs.length < 8) ∧
    wakes (.copyEntryRetry a) .copy (s.entriesUsed c < 32) ∧
    wakes (.streamBindingRetry a) .stream (s.bindings c < 16 ∧ s.entriesUsed c < 32) ∧
    wakes (.collectiveJoinRetry a) .coll (s.collUsed (n / 256) < 16))

/-! ### Chunks, pending results, caches -/

/-- R211, R213, R214, R291, R293, R295: the arbiter commits a closed chunk unless another one holds the token; the device
closes a chunk that has reached its limit; the commit of a chunk of near stores alone performs them in program order; an
operation that completes lands its result where its window has closed; the fill that was asked for first brings the registers that
its context waits for into a register file with room for them; a line of code arrives in the fetch buffer. -/
def Obligations.ChunkSteps : Prop :=
  (∀ (s : State) (a : Agent), (s.group a).any (fun b => (s.ctx b).chunk.closed) = true → s.mayCommit a = true →
    exec (.chunkCommit a) s = .next (s.commit a)) ∧
  (∀ (s : State) (a : Agent), s.chunkFull a = true → s.group a = [a] → exec (.chunkLimitClose a) s =
    .next (s.modCtx a fun c => { c with chunk := { c.chunk with closed := true } })) ∧
  (∀ (s : State) (a : Agent), s.group a = [a] → 512 ≤ (s.ctx a).chunk.count → s.chunkFull a = true) ∧
  (∀ (s : State) (a : Agent), s.group a = [a] → (∀ b, a ∈ s.group b → b = a) → (s.ctx a).chunk.far = [] →
    (∀ w ∈ (s.ctx a).chunk.near, match homeOf w.loc with | .slice _ off => off < 0x370000 | _ => False) →
    let t := s.commit a
    t.mem = ((s.ctx a).chunk.near.foldl (fun s w => s.land w (s.fromAgent 0 a) [a]) s).mem ∧
    (t.ctx a).chunk = Chunk.empty ∧ (t.ctx a).arch.xs = (s.ctx a).arch.xs ∧ (t.ctx a).arch.vs = (s.ctx a).arch.vs ∧
    t.fabric = s.fabric) ∧
  (∀ (s : State) (a : Agent) (p q : List Pending) (r : Pending), (s.ctx a).arch.pend = p ++ r :: q → r.done = false →
    (s.requests.any fun x => x.src == a && match x.op with | .amo _ _ _ _ _ _ d => r.kind == .x && r.reg == d.val | _ => false) = false →
    (s.comingReplies.any fun x => x.dst == a && match x.op with | .value d _ => r.kind == .x && r.reg == d.val | _ => false) = false →
    exec (.pendingResultLanding a p.length) s =
      .next ((s.modCtx a fun c => (c.withPend (p ++ { r with done := true } :: q)).settle).sink s a)) ∧
  (∀ (c : Ctx) (r : Pending), c.arch.pend = [r] → r.left = 0 → r.done = true →
    c.settle = (c.withPend []).write r.result) ∧
  (∀ (s : State) (a : Agent) (n : Nat) (xs vs : List Reg) (rest : List Nat), a.core? = some n →
    (s.core n).fillQ = a.tid :: rest →
    let new := (s.fillOf a).map fun r => (⟨a.tid, r.1, r.2, false, true⟩ : RegEntry)
    (s.fillOf a = [] → exec (.registerFill a xs vs) s = .next (s.modCore n fun k => { k with fillQ := rest })) ∧
    (s.fillOf a ≠ [] → (∀ r, r ∈ s.fillOf a ↔ r ∈ xs.map (fun q => (RKind.x, q.val)) ∨ r ∈ vs.map (fun q => (RKind.v, q.val))) →
      s.poison = [] → (((s.core n).rfile ++ new).filter fun e => e.kind == .x).length ≤ 128 →
      (((s.core n).rfile ++ new).filter fun e => e.kind == .v).length ≤ 96 →
      exec (.registerFill a xs vs) s = .next (s.modCore n fun k => { k with rfile := k.rfile ++ new, fillQ := rest }))) ∧
  ∀ (s : State) (n : Nat) (line : Word) (loc : Nat), s.resolve (ctxOf n 0) .fetch (line &&& ~~~(0xFF#64)) = .ok loc →
    ∃ t : State, exec (.fetchBufferFill n line) s = .next t ∧ t.mem = s.mem ∧
      Map.find (t.core n).fetch (loc / 256) = some (s.homeBytes loc 256) ∧
      ∀ a, (t.ctx a).arch = (s.ctx a).arch

/-! ### Contexts as the supervisor and the hardware act on them -/

/-- R165, R168, R172, R174, R178, R180, R305: a fault that the hardware finds is raised at the instruction at which a ready context
stands, where that instruction can meet it, and the course's bank records it; a held context that is resumed goes on at
`epc` with intrap as it stood, one that waits in `wfi` goes on after it; a context that is ended is free, with its watches, bindings
and set-aside results gone, and the end of an `hstart` helper posts its message; a waiting context and a free one are not ended.
Which instructions can meet which of these causes (`State.meets`) and what the record of one says (`State.foundError`) are the
model's deduction, log entry 25; a member of a gang at a transfer is left to the model's own rule (log entry 63). -/
def Obligations.ContextSteps : Prop :=
  ∀ (s : State) (c k t : Nat), c < 256 → k < 8 →
    let a := Agent.ctx c k t
    (∀ i cause sub faddr, s.nextInstr a = some i → s.ready a = true → s.meets a i cause sub faddr = true → s.canTrap a = true →
      (i.transfer = true → (s.group a).length ≤ 1) →
      let u := s.raise a ⟨cause, sub, faddr, false⟩ 0
      exec (.trap a cause sub faddr) s = .next (u.recordFound a (s.foundError a cause sub faddr))) ∧
    (s.inStop c = false →
      (s.ctx a).arch.pend.all (fun p => decide (p.reg < 32)) = true →
      ((s.ctx a).run = 1 →
        ∃ u : State, exec (.contextResume a) s = .next u ∧ (u.ctx a).run = 0 ∧ (u.ctx a).arch.pc = (s.ctx a).epc ∧
          (u.ctx a).intrap = (s.ctx a).intrap ∧ (u.ctx a).cause = (s.ctx a).cause ∧
          ((∀ vas, (s.ctx a).park ≠ some (.miss vas)) → (u.ctx a).park = none) ∧ u.mem = s.mem) ∧
      ((s.ctx a).run = 2 → ∃ u : State, exec (.contextResume a) s = .next u ∧ (u.ctx a).run = 0 ∧
        (u.ctx a).arch = (s.ctx a).arch ∧ u.mem = s.mem)) ∧
    (s.inStop c = false → (s.ctx a).run ≠ 3 → (s.ctx a).run ≠ 2 →
      ∃ u : State, exec (.contextEnd a) s = .next u ∧ (u.ctx a).run = 3 ∧ (u.ctx a).arch.pend = [] ∧
        (u.ctx a).arch.streams = [] ∧ (u.ctx a).park = none ∧ t ∉ (u.core (coreId c k)).order ∧ u.mem = s.mem ∧
        (∀ w ∈ (u.core (coreId c k)).watches, w.2.owner ≠ t) ∧
        ((s.ctx a).origin = .hstart → s.gated (coreId c k) = false →
          (u.core (coreId c k)).inbox ++ (u.core (coreId c k)).spill = (s.core (coreId c k)).inbox ++ (s.core (coreId c k)).spill ++
            [⟨0, msgHeader (s.cidOf (coreId c k)) t 3 0, BitVec.ofNat 64 (16 + t % 16)⟩])) ∧
    ((s.ctx a).run = 3 ∨ (s.ctx a).run = 2 → exec (.contextEnd a) s = .next s)

/-- R50, R132, R151, R179, R335, R336, R374, R379, R380, R387: what writes of the plinth's and the supervisor's registers change,
by the access codes of their fields: values that a field does not admit change nothing, and a write that the code denies is the
writer's trap. That a write of `boost` gives its slots to the ashlar of the new `sel` is the model's presumption (log entry 38), and
that a denied write traps at the course's quoin or at the plinth is its deduction (log entry 69). -/
def Obligations.RegisterWriteSteps : Prop :=
  ∀ (s : State) (site course fn : Nat) (v : Word),
    (∃ t : State, exec (.cadenceWrite site v) s = .next t ∧ t.mem = s.mem ∧ (t.block site).gap = (s.block site).gap ∧
      (t.block site).cadence = if 1 ≤ fld v 0 5 ∧ fld v 0 5 ≤ 16 then BitVec.ofNat 5 (fld v 0 5) else (s.block site).cadence) ∧
    (∃ t : State, exec (.issuegapWrite site v) s = .next t ∧ t.mem = s.mem ∧ (t.block site).cadence = (s.block site).cadence ∧
      (t.block site).gap = BitVec.ofNat 3 (fld v 0 3)) ∧
    (∃ t : State, exec (.rstatWrite course v) s = .next t ∧ (∀ b, 16 ≤ b → b < 18 → (t.course course).rstat.getLsbD b = v.getLsbD b) ∧
      (∀ b, b < 5 → (t.course course).rstat.getLsbD b = ((s.course course).rstat.getLsbD b && !v.getLsbD b)) ∧
      (t.course course).rmode = (s.course course).rmode) ∧
    (∃ t : State, exec (.errorBankClear course) s = .next t ∧ (t.course course).bank0 = 0 ∧ (t.course course).bank1 = 0 ∧
      t.mem = s.mem) ∧
    (∃ t : State, exec (.rotationControlWrite v) s = .next t ∧ t.dev.rotEnable = v.getLsbD 63 ∧ t.dev.rotTicks = s.dev.rotTicks ∧
      (s.dev.launched = true → t.dev.rotLayout = s.dev.rotLayout) ∧
      (s.dev.launched = false → s.dev.fuses = [] → fld v 60 3 ∈ [0, 1, 2, 7] → t.dev.rotLayout = BitVec.ofNat 3 (fld v 60 3)) ∧
      (s.dev.launched = false → fld v 60 3 ∈ [3, 4, 5, 6] → t.dev.rotLayout = s.dev.rotLayout) ∧
      t.dev.rotInterval = if 1 ≤ fld v 32 10 ∧ fld v 32 10 ≤ 1000 then BitVec.ofNat 10 (fld v 32 10) else s.dev.rotInterval) ∧
    (∃ t : State, exec (.boostWrite v) s = .next t ∧ t.dev.boostEnable = v.getLsbD 63 ∧ t.dev.boostSel = BitVec.ofNat 8 (fld v 48 8) ∧
      (t.ashlar (fld v 48 8 / 32)).slots = fld v 44 4 ∧
      (v.getLsbD 63 = false → ∀ e ∈ t.courses, e.2.step ≠ 0 → e.2.sprintEnd = true)) ∧
    (∀ a n, csrKnown a n = true → s.reachable a = true →
      let written := s.csrWrite (if a = .plinth then .machine else .supervisor) a n v v
      (∀ t, written = .ok t → exec (.registerWrite (.csr a n) v) s = .next t) ∧
      ∀ tr, written = .error tr → exec (.registerWrite (.csr a n) v) s = .next (s.raise (writerOf a) tr 0)) ∧
    (fn ≠ 0 → exec (.registerWrite (.target fn) v) s =
      .next (s.modFn fn fun x => { x with target := BitVec.ofNat 64 (v.toNat % 2 ^ 16) })) ∧
    (fn ≠ 0 → exec (.registerWrite (.pasid fn) v) s = .next (s.modFn fn fun x => { x with pasid := BitVec.ofNat 20 v.toNat }))

/-! ### Supersteps -/

/-- R353, R354, R363: in a region whose engines, requests, replies and chunks are quiet, the keystone completes where every counted
control context has arrived and no vote is pending: its journals are cleared, `sscount` advances, every counted context is in the
compute phase, each parked `ssync` performs, and a snapshot is taken; a vote completes with each context's own combination once
every counted context has voted; the watchdog raises cause 0x0B in the contexts that have not arrived. -/
def Obligations.SuperstepSteps : Prop :=
  ∀ (s : State) (rid : Nat) (r : Region), s.region? (BitVec.ofNat 16 rid) = some r → r.run = .running →
    ((∀ n ∈ r.cores, s.gated n = false) → r.arrived ≠ [] → r.votes = [] → (∀ n ∈ s.counted r, s.cidOf n ∈ r.arrived) → r.colls = [] →
      (∀ c ∈ r.courses, (s.course c).copies = []) →
      (∀ a ∈ s.helpers r, (s.ctx a).chunkOpen = false ∧ s.missing a = false) → s.poison = [] →
      (∀ e ∈ s.cores, e.2.port = []) → s.fabric = [] → s.replies = [] → (∀ a, (s.ctx a).unsent = []) →
      ∃ t : State, exec (.keystoneCompletion rid) s = .next t ∧ t.mem = s.mem ∧
        (∃ q, t.region? (BitVec.ofNat 16 rid) = some q ∧ q.sscount = r.sscount + 1 ∧ q.arrived = [] ∧ q.wdFrom = none ∧ q.snap.isSome = true) ∧
        (∀ n ∈ r.cores, (t.core n).journal = Journal.clear) ∧
        (∀ n ∈ s.counted r, (t.ctx (ctxOf n 0)).exchange = false ∧ (t.ctx (ctxOf n 0)).voteOrd = 0 ∧
          ∀ g, (t.ctx (ctxOf n 0)).park ≠ some (.ssync g))) ∧
    (∀ (v : Vote), (∀ n ∈ r.cores, s.gated n = false) → r.votes = [v] →
      (∀ n ∈ s.counted r, (Map.find v.vals (s.cidOf n)).isSome = true) →
      exec (.voteCompletion rid v.ord) s = .next (r.cores.foldl (fun u n =>
        match (u.ctx (ctxOf n 0)).park with
        | some (.vote j op d a g) =>
          if j = v.ord then u.completeParked (ctxOf n 0) (.vote op d a g) [.toX d.val (combine op (v.vals.map (·.2)))] else u
        | _ => u) (s.modRegion (BitVec.ofNat 16 rid) fun q => { q with votes := [] }))) ∧
    ∀ t0 : Nat, r.wdFrom = some t0 → r.wdFired = false → r.eff.watchdog ≠ 0 → t0 + r.eff.watchdog.toNat * 10000 ≤ r.gtime10 →
      (∀ c ∈ r.courses, s.inStop c = false) →
      (∀ n ∈ s.counted r, s.cidOf n ∉ r.arrived → s.canClose (ctxOf n 0) = true ∧ s.amoOut (ctxOf n 0) = false) →
      exec (.superstepWatchdog rid) s = .next
        (((s.counted r).filter fun n => !r.arrived.contains (s.cidOf n)).foldl (fun u n => u.watchdogTrap n r.sscount)
          (s.modRegion (BitVec.ofNat 16 rid) fun q => { q with wdFired := true }))

/-! ### Errors and recovery -/

/-- R179 to R181: an error makes a record in an empty bank, an uncorrectable one replaces a correctable record, others are counted up
to 0xFFFF, a second uncorrectable one is marked; the notice carries the words; a self-test of its unit is then due: the course stops
for it and goes on with its outcome, by which a failed band leaves the course and any other failed unit makes its site unusable.
R20, R182 to R185: a region that has a snapshot and whose slices' journals allow it returns to its last keystone; a region fault
reaches every region of its fault domain; containment takes the notice and rolls back, faults, or resets; after the warm reset no
region lives and the device is as after reset, HBM and the sites' health apart, or in the safe state where a signature fails; a
takeover by the standby plinth disturbs nothing. The model's own choices in it: which units have a self-test, the owner of what
failed and the unit that a fault names (log entry 46), what a warm reset keeps of ports and partitions (log entry 47), the notices
that go with a rollback and the takeover as two steps (log entry 48). -/
def Obligations.ErrorRecoverySteps : Prop :=
  (∀ (s : State) (course : Nat) (e : ErrorEvent),
    ∃ t : State, exec (.errorRecord course e) s = .next t ∧ t.mem = s.mem ∧
      (tested e.kind = true → eventUnit e ∈ (t.course course).tests) ∧
      (t.course course).notices = (s.course course).notices ++ [.error e] ∧
      let old := (s.course course).bank0
      let new := (t.course course).bank0
      new.getLsbD 63 = true ∧ (old.getLsbD 63 = true → fld new 0 16 = Nat.min (fld old 0 16 + 1) 0xFFFF) ∧
      (old.getLsbD 63 = false → fld new 0 16 = 0) ∧
      ((old.getLsbD 63 = false ∨ (e.uncorrectable = true ∧ old.getLsbD 62 = false)) →
        new.getLsbD 62 = e.uncorrectable ∧ fld new 40 8 = e.index.toNat ∧ fld new 37 3 = e.core.val ∧
        fld new 48 8 = kindCode e.kind ∧ (t.course course).bank1 = e.addr.setWidth 64) ∧
      (old.getLsbD 63 = true → (old.getLsbD 62 = true ∨ e.uncorrectable = false) →
        (t.course course).bank1 = (s.course course).bank1 ∧ fld new 16 45 = fld old 16 45 ∧
        new.getLsbD 61 = (old.getLsbD 61 || e.uncorrectable))) ∧
  (∀ (s : State) (course : Nat) (u : TestUnit) (rest : List TestUnit) (o : TestOutcome) (b : Fin 4), (s.course course).tests = u :: rest →
    ((s.course course).testing = false → s.pausing (course / 32) = false → s.inStop course = false →
      ∃ t : State, exec (.targetedSelfTest course o) s = .next t ∧ (t.course course).stopped = true ∧ (t.course course).testing = true) ∧
    ((s.course course).testing = true → u.admits o = true →
      exec (.targetedSelfTest course o) s = .next ((s.testFound course u o).endTest course)) ∧
    ((s.course course).testing = true → u.admits o = false → exec (.targetedSelfTest course o) s = .next s) ∧
    s.testFound course u .pass = s ∧
    (let t := s.testFound course u .failedUnit
     t.mem = s.mem ∧ (t.block (s.siteOf course)).failed = (s.block (s.siteOf course)).failed ++ [u] ∧
       (t.block (s.siteOf course)).usable = false) ∧
    (let t := s.testFound course u (.failedBand b)
     t.mem = s.mem ∧ (t.block (s.siteOf course)).healthy = (s.block (s.siteOf course)).healthy &&& ~~~(1#4 <<< b.val) ∧
       (t.course course).present.getLsbD b.val = false ∧ (t.course course).station.empty.getLsbD b.val = true) ∧
    ((s.endTest course).course course).stopped = false ∧ ((s.endTest course).course course).testing = false ∧
    ((s.endTest course).course course).tests = rest) ∧
  (∀ (s : State) (rid course : Nat),
    let key := BitVec.ofNat 16 rid
    (∀ (r : Region) (p : Snapshot), s.region? key = some r → r.snap = some p → r.run = .running → r.saved = none →
      (∀ n ∈ r.cores, (s.core n).journal.overflow = false ∧ (s.core n).journal.far = false ∧ (s.core n).journal.array = false ∧
        (s.core n).journal.rolled = false) → (∀ c ∈ r.courses, s.inStop c = false) →
      exec (.rollback rid) s = .next (s.rollback key) ∧
      ((p.ctxs.map fun e => reAgent (courseOf r.courses) e.1).Nodup →
        ∀ e ∈ p.ctxs, (s.rollback key).ctx (reAgent (courseOf r.courses) e.1) = e.2)) ∧
    (∀ (r : Region) (p : Snapshot) (v : Saved), s.region? key = some r → r.snap = some p → r.run = .preempted → r.saved = some v →
      (∀ e ∈ v.cores, e.2.journal.overflow = false ∧ e.2.journal.far = false ∧ e.2.journal.array = false ∧
        e.2.journal.rolled = false) → r.courses = [] →
      exec (.rollback rid) s = .next (s.rollback key) ∧
      ∃ (q : Region) (w : Saved), (s.rollback key).region? key = some q ∧ q.saved = some w ∧ w.ctxs = p.ctxs) ∧
    (∀ (r : Region) (n : Notice), s.region? key = some r → (s.course course).notices.find? Notice.isError = some n →
      s.errorOwners course n = [key] → s.domainStops r = false →
      let t := s.modCourse course fun k => { k with notices := k.notices.eraseP Notice.isError }
      (s.canRollback r = true → s.fromFailed course n = false →
        exec (.errorContainment course (some rid)) s = .next (t.rollback key)) ∧
      (s.canRollback r = false ∨ s.fromFailed course n = true →
        exec (.errorContainment course (some rid)) s = .next (t.faultDomain r (n.fault?.getD (0x09, 0))))) ∧
    (∀ n, (s.course course).notices.find? Notice.isError = some n → (s.errorOwners course n).length ≠ 1 →
      exec (.errorContainment course none) s = .next
        ((s.modCourse course fun k => { k with notices := k.notices.eraseP Notice.isError }).warmReset (s.errorOwners course n))) ∧
    (∀ r : Region, s.region? key = some r → s.domainStops r = false →
      exec (.regionFault rid) s = .next (((s.regions.filter fun e => e.2.eff.fdom == r.eff.fdom).map (·.1)).foldl
        (fun t q => t.faultRegion q (s.faultUnit key r).1 (s.faultUnit key r).2) s)) ∧
    (∀ c : Ctx, c.run ≠ 3 → c.holdFault.run = 1 ∧ c.holdFault.epc = c.epc ∧ c.holdFault.cause = c.cause) ∧
    (∀ lost : List Nat, ∃ t : State, exec (.warmReset lost) s = .next t ∧ t.regions = [] ∧ t.ctxs = [] ∧ t.cores = [] ∧
      (∀ c, (t.course c).jobs = [] ∧ (t.course c).copies = [] ∧ (t.course c).notices = [] ∧ (t.course c).bank0 = 0) ∧
      t.fabric = [] ∧ t.replies = [] ∧ t.partitions.map (·.1) = s.partitions.map (·.1) ∧ (∀ e ∈ t.partitions, e.2.shortfall = 0) ∧
      t.ports = s.ports ∧ t.dev.rotTicks = 0 ∧ t.dev.launched = false ∧
      (∀ off core, off < 0x400000 → core < 2048 → t.rawByte (Home.loc (.slice core off)) = 0) ∧
      (t.dev.statusState = 2 ↔ s.dev.statusState = 2 ∨ s.dev.unverified ≠ 0) ∧
      Map.get 0 t.dev.measure 1 =
        Config.sha3 (natBytes 64 (Map.get 0 s.dev.measure 1).toNat ++ natBytes 64 (s.dev.firmware 1).digest.toNat) ∧
      (t.dev.statusState = 2 → ∀ fn, 1 ≤ fn → fn ≤ 64 → (t.fn fn).enabled = false) ∧
      (t.dev.statusState = 2 → ∀ a, a < 640 * 2 ^ 30 → t.rawByte (Home.loc (.hbm a)) = 0) ∧
      (t.dev.statusState ≠ 2 → s.regions = [] → ∀ a, a < 640 * 2 ^ 30 →
        t.rawByte (Home.loc (.hbm a)) = s.rawByte (Home.loc (.hbm a)))) ∧
    (s.dev.takeover = false → exec .standbyTakeover s = .next { s with dev := { s.dev with takeover := true } }) ∧
    (s.dev.takeover = true → exec .standbyTakeover s = .next { s with dev := { s.dev with standby := true, takeover := false } }))

/-! ### The array's and the engines' steps -/

/-- R123 to R127, R130, R133 to R137, R153: a full entry that is first of its kind starts, with the bands of its effective set;
an injection of a running product performs its rows, an armed injection is taken once and then disarmed; an
entry that has ended leaves the queue and posts its completion to each context that joined it; a load fills the shadow plane; a
ready swap exchanges the planes; with eight entries that all wait and a parked join the oldest is abandoned.
R131, R138, R372: a band begins to switch on 16 cycles after its `mshape` in its turn, is pending for 1,250 cycles more, both in
cycles of the course's clock as it ran, and one that is switched off loses its power, and with it its weights, when no started job
holds it. The model's own choices in it: an entry whose joins disagree ends at its turn (log entry 71), the groups and bands of a
completion (log entry 72), and the armed injection that takes `rinject` at its first row (log entry 73). -/
def Obligations.ArraySteps : Prop :=
  (∀ (s : State) (c : Nat) (p q : List Job) (j : Job), (s.course c).jobs = p ++ j :: q → s.courseRuns c = true →
    let k := s.course c
    let k' := k.settleBands
    (j.kind ≠ .swap → j.joins.length = 8 → j.started = false → j.status = 0 → (∀ e ∈ p, e.kind ≠ .swap ∧ e.kind ≠ j.kind) →
      (j.bands &&& k.pending = 0 ∨ j.kind = .load ∨ j.disagree = true) →
      exec (.arrayJobStart c p.length) s = .next (s.setCourse c { k' with jobs := p ++ j.start k' (s.courseCycles c) :: q })) ∧
    (∀ cycle, (j.disagree = true → (j.start k' cycle).status = 2) ∧
      (j.disagree = false → j.kind = .load → (j.start k' cycle).started = true ∧ (j.start k' cycle).status = j.status) ∧
      (j.disagree = false → j.kind = .product → (j.start k' cycle).started = true ∧
        (j.start k' cycle).effBands = j.bands &&& k.on ∧ (j.start k' cycle).startCycle = cycle ∧
        ((j.start k' cycle).status = 3 ↔ ¬(k'.station.fmt = some j.awin ∧ acceptsOut j.awin j.owin = true ∧
          ¬(j.awin = 7 ∧ j.transpose = true) ∧ j.bands &&& k.on &&& k'.station.empty = 0)))) ∧
    (j.kind = .product → j.started = true → j.isOver = false →
      let rows := (List.range (rowsPerInjection j.awin)).map (j.row + ·)
      s.rowsShut c j (if rows.any (s.rowError c j) then List.range j.rows else rows) = false →
      exec (.arrayInjection c p.length) s = .next (rows.foldl (fun u _ => u.arrayRow c p.length) (s.beforeRow c p.length j))) ∧
    (j.armed = true → j.row = 0 → k.rinject.getLsbD 63 = true →
      ((s.beforeRow c p.length j).course c).rinject = k.rinject &&& 0x7FFFFFFFFFFFFFFF ∧
      (((s.beforeRow c p.length j).course c).jobs[p.length]?).map (fun e => (e.armed, e.inject)) = some (false, some k.rinject)) ∧
    (j.kind = .product → j.isOver = true →
      exec (.arrayJobCompletion c p.length) s = .next ((s.setCourse c { k with jobs := p ++ q }).postJob c j)) ∧
    (j.kind = .load → j.isOver = true → exec (.arrayJobCompletion c p.length) s = .next
      (let t := (s.finishLoad c p.length j).markArray c j
       let e := ((t.course c).jobs[p.length]?).getD j
       (t.modCourse c fun k => { k with jobs := dropAt p.length k.jobs }).postJob c e)) ∧
    (∀ pl cycles, pl = j.payload cycles → fld pl 16 4 = j.status % 16 ∧ fld pl 0 12 = j.id.toNat ∧ fld pl 20 4 = j.effBands.toNat ∧
      fld pl 24 8 = j.effGroups.toNat ∧ fld pl 12 4 = if j.kind = .load then 1 else 2) ∧
    (j.kind = .swap → j.joins.length = 8 → j.started = false → p = [] →
      exec (.arraySwap c 0) s = .next ((s.setCourse c { k' with station := k'.shadow, shadow := k'.station, jobs := q }).markArray c j)) ∧
    (p = [] → 8 ≤ k.jobs.length → (∀ e ∈ k.jobs, e.joins.length < 8) → s.arrayParked c = true → j.kind = .product →
      exec (.arrayAbandon c) s = .next ((s.setCourse c { k with jobs := q }).postJob c { j with status := 4 })) ∧
    (p = [] → 8 ≤ k.jobs.length → (∀ e ∈ k.jobs, e.joins.length < 8) → s.arrayParked c = true → j.kind = .load →
      exec (.arrayAbandon c) s = .next
        ((s.setCourse c { k with jobs := q, shadow := Plane.undefined k.lost, lost := k.lost + 1 }).postJob c { j with status := 4 })) ∧
    (p = [] → 8 ≤ k.jobs.length → (∀ e ∈ k.jobs, e.joins.length < 8) → s.arrayParked c = true → j.kind = .swap →
      exec (.arrayAbandon c) s = .next (s.setCourse c { k with jobs := q }))) ∧
  (∀ (s : State) (c : Nat) (b : Fin 4) (t f : Nat),
    let k := s.course c
    (Map.find k.switching b.val = some (t, f) → f + 16 * 80 ≤ k.clock80 → s.beforeInTurn c t b.val = false →
      s.beganNow (c / 32) < 4 →
      exec (.bandSwitchOn c b) s = .next (s.setCourse c
        { k with switching := Map.erase k.switching b.val, began := Map.set k.began b.val (s.devTime, k.clock80) })) ∧
    (Map.find k.switching b.val = some (t, f) → k.clock80 < f + 16 * 80 → exec (.bandSwitchOn c b) s = .next s) ∧
    (Map.find k.began b.val = some (t, f) → k.clock80 < f + 1250 * 80 → exec (.bandPendingClear c b) s = .next s) ∧
    (Map.find k.began b.val = some (t, f) → f + 1250 * 80 ≤ k.clock80 →
      ∃ p : BitVec 4, exec (.bandPendingClear c b) s = .next (s.setCourse c { k with began := Map.erase k.began b.val, pending := p }) ∧
        ∀ i, i < 4 → p.getLsbD i = (k.pending.getLsbD i && i != b.val)) ∧
    (k.leaving.getLsbD b.val = true → (∀ j ∈ k.jobs, j.started = true → j.effBands.getLsbD b.val = false) →
      ∃ l : BitVec 4, exec (.bandPowerOff c b) s = .next (s.setCourse c
        (let e := k.emptyBand b.val
         { e with leaving := l, lost := k.lost + 2, station := e.station.lose b.val k.lost, shadow := e.shadow.lose b.val (k.lost + 1) })) ∧
        ∀ i, i < 4 → l.getLsbD i = (k.leaving.getLsbD i && i != b.val)) ∧
    (∀ i, i < 4 → (k.emptyBand b.val).station.empty.getLsbD i = (k.station.empty.getLsbD i || i == b.val) ∧
      (k.emptyBand b.val).shadow.empty.getLsbD i = (k.shadow.empty.getLsbD i || i == b.val)) ∧
    ((k.leaving.getLsbD b.val = false ∨ ∃ j ∈ k.jobs, j.started = true ∧ j.effBands.getLsbD b.val = true) →
      exec (.bandPowerOff c b) s = .next (s.setCourse c k))) ∧
  (∀ (p : Plane) (b : Fin 4) (i r n : Nat), r < p.w.length → n < 256 → n / 64 ≠ b.val →
    lane ((p.lose b.val i).w.getD r []) n = lane (p.w.getD r []) n ∧ (p.lose b.val i).empty = p.empty)

/-- R274, R279 to R283, R287: a running copy performs one element, and a copy that is over posts its completion to its issuer
and frees its entry; a stream's next element is fetched ahead; a collective starts with its P joins, or ends with status 2 where
they make none, performs one element of a rank's output, and posts each rank's completion; a copy or collective that was parked for a
page goes on at its element. The element that an engine performs next is free, by `freePick`, which is the model's choice (log entry
18), and so is status 2 for joins that make no collective, which takes in joins that differ in q of an operation without a root (log
entry 33). -/
def Obligations.EngineSteps : Prop :=
  (∀ (s : State) (c : Nat) (p q : List CopyJob) (j : CopyJob), (s.course c).copies = p ++ j :: q → s.moving j.who = true →
    (j.isOver = false → s.engineParked j.who (.copy j.id) = false → exec (.copyElement c p.length) s =
      .next (s.copyAt c p.length j (j.parked.getD (freePick s (copyTotal j.cmd) j.performed)))) ∧
    (j.isOver = true → exec (.copyCompletion c p.length) s = .next ((s.setCourse c { s.course c with copies := p ++ q }).completeFor
      j.who j.cmd.tag (match j.ended with
        | some (st, va) => engPayload st va.toNat
        | none => engPayload 0 (copySize j.cmd * copyTotal j.cmd))))) ∧
  (∀ (s : State) (c i : Nat) (j : CopyJob) (k : Nat) (src dst : List Nat),
    s.engineLocs j.who .read (j.from k) (copySize j.cmd) j.cmd.sswz true = .ok src → j.pre = [] → j.bar = none →
    inAperture (j.to k) = false → s.engineLocs j.who .write (j.to k) (copySize j.cmd) j.cmd.dswz true = .ok dst →
    s.poison = [] → s.readWaits j.who src = false → s.engineWaits j.who dst = false →
    let u := ((s.touchCourse j.who (j.from k)).touchCourse j.who (j.to k)).ask j.who.core? (src.headD 0) (copySize j.cmd)
    s.copyAt c i j k = ((u.tick.modCopy c i fun j =>
        { j with performed := insertUp k j.performed, pre := keepOld u j.pre dst, parked := none }).enginePut j.who dst (src.map u.homeByte)).healBy
      (dst.headD 0) (j.to k) (copySize j.cmd) ((insertUp k j.performed).map j.to)) ∧
  (∀ (s : State) (n : Nat) (ps : List Nat), ps.Pairwise (· < ·) → (∀ x ∈ ps, x < n) → ps.length < n →
    freePick s n ps < n ∧ freePick s n ps ∉ ps) ∧
  (∀ (s : State) (a : Agent) (r : Fin 8) (f : Fetched), (s.ctx a).bufs = [] → (s.ctx a).arch.taken = [] →
    let t := (s.ctx a).stream r.val
    let n := t.span (decide (4 ≤ r.val))
    t.bound = true → t.done = false → s.moving a = true → (s.ctx a).run = 0 → s.engineParked a (.stream r.val) = false →
    (∀ loc, s.resolve a .read t.addr = .ok loc → s.gateShut a loc = false) →
    (if r.val < 4 then s.streamX a t else s.streamV a t) = .ok f →
    exec (.streamRefill a r) s = .next
      ((match s.resolve a .read t.addr with
        | .ok loc => (s.touchSpan a t.addr n).ask a.core? loc n
        | _ => s.touchSpan a t.addr n).modCtx a fun c => { c with bufs := [(r.val, [f])] })) ∧
  ∀ (s : State) (rid : Nat) (r : Region) (c : Coll), s.region? (BitVec.ofNat 16 rid) = some r → r.colls = [c] →
    (∀ j js, c.joins = j :: js → c.started = false → j.cmd.ranks.toNat ≤ c.joins.length → c.sound = true →
      exec (.collectiveStart rid c.tag) s =
        .next (s.modRegion (BitVec.ofNat 16 rid) fun q => { q with colls := [{ c with started := true }] })) ∧
    (∀ j js, c.joins = j :: js → c.started = false → j.cmd.ranks.toNat ≤ c.joins.length → c.sound = false →
      exec (.collectiveStart rid c.tag) s = .next (s.modRegion (BitVec.ofNat 16 rid) fun q =>
        { q with colls := [{ c with started := true, joins := c.joins.map fun j => { j with ended := some (2, 0) } }] })) ∧
    (∀ (j : CollJoin) (k : Nat), c.joins = [j] → c.started = true → j.isOver = false → c.parked = some (j.cmd.rank.toNat, k) →
      s.collParked r c.tag = false → s.moving j.who = true →
      exec (.collectiveElement rid c.tag) s = .next (s.collAt (BitVec.ofNat 16 rid)
        (fun x => x.tag == c.tag && x.started && x.joins.any fun j => !j.isOver) c j k)) ∧
    (c.started = true → c.joins.any (fun j => !j.isOver) = true → (∀ j ∈ c.joins, s.moving j.who = true) → c.parked = none →
      s.collParked r c.tag = false →
      ∃ j ∈ c.joins, j.isOver = false ∧ exec (.collectiveElement rid c.tag) s = .next (s.tick.collAt (BitVec.ofNat 16 rid)
        (fun x => x.tag == c.tag && x.started && x.joins.any fun j => !j.isOver) c j
        (freePick s.tick (collOutputs j.op j.cmd) j.written))) ∧
    ∀ (j : CollJoin) (rank : Nat), c.joins = [j] → c.started = true → j.cmd.rank.toNat = rank → j.isOver = true → j.posted = false →
      s.moving j.who = true →
      exec (.collectiveCompletion rid c.tag rank) s =
        .next ((s.modRegion (BitVec.ofNat 16 rid) fun q => { q with colls := [] }).completeFor j.who c.tag (match j.ended with
          | some (st, va) => engPayload st va.toNat
          | none => engPayload 0 (collBytes j.cmd.ty * collOutputs j.op j.cmd)))

/-! ### Translation -/

/-- R318, R322, R323, R326, R331: a quoin that does not wait takes its oldest miss notice and installs the answer for the owner,
within the owner's budgets, or leaves the access parked on a request; the host's answers do the same where an access waits for the
page, and are kept while the quoin waits; an invalidation removes the pages named from a course of the partition, and is complete
once no access translated under them is outstanding. R385: a page request that the host has not answered is outstanding, and a
function has 512 of them at most. Host answers kept as notices while the quoin waits are the model's deduction (log entry 41), and so
are the grants behind `mayGrant` with the absent entry beyond them (log entry 20). -/
def Obligations.TranslationSteps : Prop :=
  ∀ (s : State) (c : Nat) (va e : Word),
    let owner := s.ownerRid c
    let installed := fun (t : State) (e : Word) => t.install c (entryFor owner va e)
    (s.quoinBusy c = false →
      (∀ (h x : Word) (p q : List Notice), (s.course c).notices = p ++ .miss h x :: q → (∀ n ∈ p, ∀ h' x', n ≠ .miss h' x') →
        fld h 53 11 ≠ 0x7FF → va = BitVec.ofNat 64 (fld x 0 57) →
        let taken := s.setCourse c { s.course c with notices := p ++ q }
        exec (.missNotice c .absent) s = .next (installed taken 0x3000000000000000) ∧
        (s.mayRequest c = true → exec (.missNotice c .request) s = .next (taken.requestPage c va)) ∧
        (s.mayRequest c = false → exec (.missNotice c .request) s = .next s) ∧
        (tlbwTrap va e 0 = none → fld e 60 2 ≠ 0 → exec (.missNotice c (.entry e)) s = .next (installed taken e)) ∧
        ∀ r, tlbwTrap va e 0 = none → fld e 60 2 = 0 → owner ≠ 0 → taken.region? owner = some r →
          exec (.missNotice c (.entry e)) s = .next (installed taken
            (if taken.mayGrant owner r (entryFor owner va e).base.toNat (entryFor owner va e).frame (entryFor owner va e).size then e
              else 0x3000000000000000))) ∧
      (((s.course c).miss.find? fun m => pageOf m.va == pageOf va).any (·.who.program) = true →
        (exec (.priResponse c va .absent) s = .next (installed (s.requestDone c va) 0x3000000000000000) ∧
         exec (.atsTranslationCompletion c va .absent) s = .next (installed s 0x3000000000000000) ∧
         exec (.atsTranslationCompletion c va .request) s = .next (s.requestPage c va)) ∧
        (tlbwTrap va e 0 = none → fld e 60 2 ≠ 0 →
          exec (.priResponse c va (.entry e)) s = .next (installed (s.requestDone c va) e) ∧
          exec (.atsTranslationCompletion c va (.entry e)) s = .next (installed s e))) ∧
      ∀ (key : BitVec 16) (vas : List Word), s.coursesOfKey key = [c] → s.invals = [] →
        let removed := s.beginTlbi c fun e => vas.any e.covers
        (removed.shotBusy c = false → exec (.atsInvalidation key vas) s =
          .next (removed.modCourse c fun k => { k with shot := [] })) ∧
        (removed.shotBusy c = true → exec (.atsInvalidation key vas) s =
          .next { removed with invals := removed.invals ++ [⟨vas, [(c, true)]⟩] })) ∧
    (∀ ans, s.quoinBusy c = true →
      exec (.priResponse c va ans) s =
        .next ((s.requestDone c va).modCourse c fun k => { k with notices := k.notices ++ [.host va ans] }) ∧
      exec (.atsTranslationCompletion c va ans) s = .next (s.modCourse c fun k => { k with notices := k.notices ++ [.host va ans] }) ∧
      exec (.missNotice c ans) s = .next s) ∧
    (s.mayRequest c = (decide ((s.priOf (s.pageFn c)).length < 512)) ∧ (s.requestPage c va).mem = s.mem ∧
      (s.mayRequest c = true → (c, pageOf va) ∈ (s.requestPage c va).priOf (s.pageFn c)) ∧
      (s.mayRequest c = false → s.requestPage c va = s) ∧
      ∀ fn, (c, pageOf va) ∉ (s.requestDone c va).priOf fn) ∧
    (∀ t : TlbEntry, t ∈ ((s.install c t).course c).tlb ∧
      ∀ x ∈ ((s.install c t).course c).tlb, x.owner = t.owner → x.overlaps t = true → x = t) ∧
    ∀ (p : TlbEntry → Bool), ∀ x ∈ ((s.shootDown c p).course c).tlb, ¬(x.owner = owner ∧ p x = true)

/-! ### Sweeps -/

/-- R238 to R240, R242, R245 to R250: the engine begins in its helper as the `sweep` that waits completes, passes over a strip whose
skip bit is clear and reads one whose bit is set, dispatches a routine with its registers, writes a strip back when no lane of it is
active, and posts its completion when every strip is done or the sweep has ended early; a wake or skip command that reaches its
engine is taken there.
R246 to R248: what a command does at its engine: one for an empty slot or outside the tensor is dropped and counted; one for
the strip that is open waits for its write-back; any other is applied at once: a wake returns a sleeping element to run, with kind
and operand 0 and its state as it was, leaves the mark of any other as it is, and sets its strip's skip bit; a skip command sets or
clears the strip's bit. -/
def Obligations.SweepSteps : Prop :=
  ((∀ (s : State) (n : Nat) (w : Sweep) (d : Desc), (s.core n).sweep = some w → s.desc? n w.slot = some d →
    let a := ctxOf n w.helper
    (s.sweepBegun n w = false → w.ending = none → s.moving a = true → w.issuer ≠ w.helper →
      ∀ xd xa g, (s.ctx (ctxOf n w.issuer)).park = some (.sweep xd xa g) →
      exec (.sweepStart n) s = .next ((s.startHelper n w.helper 0 0 (s.ctx (ctxOf n w.issuer)).deleg .sweep).completeParked
        (ctxOf n w.issuer) (.sweep xd xa g) [.toX xd.val (BitVec.ofNat 64 w.helper)])) ∧
    (s.sweepActs n w = true → w.cur = none → w.next < d.strips → s.poisoned (d.skipLoc n w.next) 1 = false →
      ((s.homeByte (d.skipLoc n w.next)).getLsbD (w.next % 8) = false →
        exec (.sweepDispatch n) s = .next (s.setSweep n { w with next := w.next + 1 })) ∧
      ((s.homeByte (d.skipLoc n w.next)).getLsbD (w.next % 8) = true →
        exec (.sweepDispatch n) s = .next (s.setSweep n { s.openStrip n w d w.next with next := w.next + 1 }))) ∧
    (∀ k r rest, s.sweepActs n w = true → w.cur = some k → w.running = none →
      let w' := if w.round = [] then w.beginRound d.states else w
      (w'.round = r :: rest → exec (.sweepDispatch n) s =
        .next ((s.dispatch n w' d r).setSweep n { w' with round := rest, running := some r })) ∧
      (w'.round = [] → exec (.sweepDispatch n) s = .next (s.setSweep n w'))) ∧
    (∀ k, s.sweepActs n w = true → w.cur = some k → w.running = none → w.round = [] → w.active = 0 → s.stripShut n d k = false →
      exec (.sweepStripWriteback n) s = .next (s.writeStrip n w d k)) ∧
    (s.sweepActs n w = true → w.ending = none → w.cur = none → d.strips ≤ w.next →
      exec (.sweepCompletion n) s = .next (((s.retireCtx a).modCore n fun k =>
        { k with sweep := none, dropped := Map.erase k.dropped w.slot }).complete n w.issuer d.tag
          (w.payload 0 (Map.get 0 (s.core n).dropped w.slot)))) ∧
    (∀ st, w.ending = some st → s.sweepBegun n w = true → s.moving a = true →
      exec (.sweepCompletion n) s = .next (((s.retireCtx a).modCore n fun k =>
        { k with sweep := none, dropped := Map.erase k.dropped w.slot }).complete n w.issuer d.tag
          (w.payload st (Map.get 0 (s.core n).dropped w.slot))))) ∧
  (∀ (w : Sweep) (st dr : Nat), st < 16 → dr < 256 → fld (w.payload st dr) 48 16 = Nat.min w.nFaulted 0xFFFF ∧
    fld (w.payload st dr) 28 20 = w.nStepped % 2 ^ 20 ∧ fld (w.payload st dr) 24 4 = st ∧ fld (w.payload st dr) 16 8 = dr ∧
    fld (w.payload st dr) 0 16 = w.nStrips % 2 ^ 16) ∧
  (∀ (s : State) (n : Nat) (w : Sweep) (d : Desc) (r : Nat × Word), w.first = false →
    let c := (s.dispatch n w d r).ctx (ctxOf n w.helper)
    let old := s.ctx (ctxOf n w.helper)
    c.arch.pc = w.table.getD r.1 0 ∧ (∀ x, x ∈ [1, 2, 3, 4] → c.x x = [BitVec.ofNat 64 (w.cur.getD 0),
      BitVec.ofNat 64 (s.cidOf n * 4 + w.slot), r.2, BitVec.ofNat 64 r.1].getD (x - 1) 0) ∧
    (∀ i, i < 64 → lane (c.v 8) i = if i < d.lanes (w.cur.getD 0) then w.marks.getD i 0 else lane (old.v 8) i) ∧ (∀ x, 4 < x → x < 32 → c.x x = old.x x) ∧ (∀ v, v ≠ 8 → v < 32 → c.v v = old.v v) ∧
    c.arch.ps = old.arch.ps) ∧
  ∀ (s : State) (p q : List Req) (a : Agent) (cid slot : Nat) (rid : BitVec 16) (c : ScreedCmd) (r : Region) (n : Nat),
    s.fabric = p ++ ⟨a, .screed cid slot rid c⟩ :: q → s.behindPort p.length = false → p.all (fun r => r.src != a) = true →
    s.region? rid = some r → r.run = .running → r.coreOf cid = some n → s.gatedFrom a n = false → s.screedWaits n slot c = false →
    exec (match c with | .wake _ => .swakeApply p.length | .skip _ _ => .skipsetApply p.length) s =
      .next (({ s with fabric := p ++ q } : State).receiveScreed n slot c)) ∧
  (∀ (s : State) (n slot : Nat) (c : ScreedCmd),
    (s.desc? n slot = none → s.receiveScreed n slot c = s.dropWake n slot) ∧
    ∀ d : Desc, s.desc? n slot = some d →
      let strip := match c with | .wake j => j / 64 | .skip k _ => k
      let out := match c with | .wake j => d.count ≤ j | .skip k _ => (d.count + 63) / 64 ≤ k
      let open' := fun w : Sweep => w.slot = slot ∧ w.cur = some strip
      (out → s.receiveScreed n slot c = s.dropWake n slot) ∧
      (∀ w, ¬out → (s.core n).sweep = some w → open' w → s.receiveScreed n slot c =
        s.modCore n fun k => { k with sweep := some { w with buffered := w.buffered ++ [c] } }) ∧
      (¬out → (∀ w, (s.core n).sweep = some w → ¬open' w) → s.receiveScreed n slot c = s.applyScreed n d c) ∧
      Map.get 0 ((s.dropWake n slot).core n).dropped slot = Nat.min (Map.get 0 (s.core n).dropped slot + 1) 255 ∧
      (∀ j m, m = BitVec.ofNat 32 (bytesNat (s.homeBytes (d.markLoc n j) 4)) →
        (markStatus m ≠ 1 → s.applyScreed n d (.wake j) = s.setSkip n d (j / 64) true) ∧
        (markStatus m = 1 → s.applyScreed n d (.wake j) =
          (s.screedPut n (d.markLoc n j) (natBytes 4 (m.toNat % 64))).setSkip n d (j / 64) true)) ∧
      ∀ k on, s.applyScreed n d (.skip k on) = s.setSkip n d k on ∧
        ∃ b : Byte, s.setSkip n d k on = s.screedPut n (d.skipLoc n k) [b] ∧
          ∀ i, i < 8 → b.getLsbD i = if i = k % 8 then on else (s.homeByte (d.skipLoc n k)).getLsbD i)

/-! ### Rotation, power, thermal control -/

/-- R336, R339, R341, R343, R344: a tick counts and sets the next one an interval later; at a tick each ashlar that is not deferred is
deferred where its rotation cannot be posted now, and takes the notice else, where a course would move, which stops every course of
it; an ashlar that is deferred stays as it is; the stop, the move and the restarts follow one another, and at a restart each course of the circuit
that is done next stands, where it moves, at the next position of its circuit, has its count advanced, and goes on. -/
def Obligations.RotationSteps : Prop :=
  ∀ (s : State) (a : Fin 8),
    (∀ t, s.dev.nextTick = some t → t ≤ s.devTime → (∀ x, x < 8 → (s.ashlar x).deferred = true) →
      exec .rotationTick s = .next ({ s with dev := { s.dev with
        rotTicks := s.dev.rotTicks + 1, prevTick := t, nextTick := some (t + s.dev.rotInterval.toNat * 10000000) } }.regWritten 0)) ∧
    (∀ t, s.dev.nextTick = some t → t ≤ s.devTime → (∀ c, c < 256 → (s.block (s.siteOf c)).usable = true) →
      ∃ u : State, exec .rotationTick s = .next u ∧ u.mem = s.mem ∧ u.dev.rotTicks = s.dev.rotTicks + 1 ∧ u.dev.prevTick = t ∧
        u.dev.nextTick = some (t + s.dev.rotInterval.toNat * 10000000) ∧ ∀ x, x < 8 →
        let would := s.dev.rotEnable = true ∧ ∃ c ∈ coursesOf x, s.moves c = true
        ((s.ashlar x).deferred = true → u.ashlar x = s.ashlar x ∧ ∀ c ∈ coursesOf x, u.course c = s.course c) ∧
        ((s.ashlar x).deferred = false → s.defers x = true →
          u.ashlar x = { s.ashlar x with deferred := true } ∧ ∀ c ∈ coursesOf x, u.course c = s.course c) ∧
        ((s.ashlar x).deferred = false → s.defers x = false → would →
          (u.ashlar x).phase = .posted ∧ (u.ashlar x).deferred = false ∧
            ∀ c ∈ coursesOf x, u.course c = { s.course c with stopped := true }) ∧
        ((s.ashlar x).deferred = false → s.defers x = false → ¬would →
          u.ashlar x = s.ashlar x ∧ ∀ c ∈ coursesOf x, u.course c = s.course c)) ∧
    (∀ t, s.dev.nextTick = some t → s.devTime < t → exec .rotationTick s = .next s) ∧
    ((s.ashlar a.val).deferred = true → s.defers a.val = false →
      exec (.rotationDeferredPost a) s = .next (s.postRotation a.val)) ∧
    ((∀ c ∈ coursesOf a.val, (s.block (s.siteOf c)).usable = true) →
      (s.dev.rotEnable = true → (∃ c ∈ coursesOf a.val, s.moves c = true) →
        ((s.postRotation a.val).ashlar a.val).phase = .posted ∧ ∀ c ∈ coursesOf a.val, ((s.postRotation a.val).course c).stopped = true) ∧
      (s.dev.rotEnable = false ∨ (∀ c ∈ coursesOf a.val, s.moves c = false) →
        s.postRotation a.val = s.modAshlar a.val fun x => { x with deferred := false })) ∧
    ((s.ashlar a.val).phase = .posted → exec (.rotationStop a) s = .next
      (((coursesOf a.val).foldl (fun u c => if (u.course c).step = 0 then u else u.modCourse c fun k => { k with sprintEnd := true })
        (s.stopCourses (coursesOf a.val))).modAshlar a.val fun x =>
          { x with phase := .stopped })) ∧
    ((s.ashlar a.val).phase = .stopped → (∀ q ∈ s.requests, s.inside a.val q = false) →
      exec (.rotationMove a) s = .next (s.modAshlar a.val fun x => { x with phase := .moved, moving := List.range 32 })) ∧
    ((s.ashlar a.val).phase = .moved → s.mortar = [] →
      ∃ t : State, exec (.rotationRestart a) s = .next t ∧ t.mem = s.mem ∧
      (t.ashlar a.val).moving = ((s.ashlar a.val).moving.filter fun i => !(s.nextGroup a.val).contains (32 * a.val + i)) ∧
      (t.ashlar a.val).phase = (if (t.ashlar a.val).moving = [] then .none else .moved) ∧
      (∀ c, c ∉ s.nextGroup a.val → t.course c = s.course c ∧ t.site c = s.site c) ∧
      ∀ c ∈ s.nextGroup a.val, (t.course c).stopped = false ∧
        (s.moves c = false → t.site c = s.site c ∧ (t.course c).rotnCount = (s.course c).rotnCount) ∧
        (s.moves c = true → (t.site c).position.toNat = nextPos (s.circuitOf c) (s.site c).position.toNat % 8 ∧
          (t.site c).site.toNat = ringSite (s.circuitOf c) (nextPos (s.circuitOf c) (s.site c).position.toNat) ∧
          (t.site c).rid = (s.site c).rid ∧ (t.course c).rotnCount = (s.course c).rotnCount + 1))

/-- R366 to R371, R373, R378 to R382: an observer update writes its sites' words and then advances the sequence; a sensor's
report is its reading; current control runs once a boundary and ends with every cadence the greater of demand and floor;
a boost boundary accounts for the interval that has ended in every course that exists, a sprint in a rotation pause apart, and then
grants sprints to courses that claim one: none where 4.5 A more would exceed 4800 A, and every claimant of an ashlar that has slots
enough where the current admits all; the slots follow the stack's heat; an idle core is gated after 10 µs; heat levels rise at their
temperatures, level 2 with no slots left, and fall after 10 ms; the shortfall counts the bytes withheld of those a partition has
requested, up to one for a fraction.
R379: a course's permits, cool-down and clock step after each interval.
The model's own choices in it: the fraction of a byte of shortfall, the bytes that count as requested, and the current that raised
demands lead to (log entry 19); that a grant adds 4.5 A to the current as it was, that a sprint in a rotation pause is passed by,
from when an idle core's 10 µs count, and 10 ms for each heat level that is left (log entry 50). -/
def Obligations.PowerSteps : Prop :=
  (∀ (s : State) (i : Fin 76) (reading : BitVec 16) (a : Fin 8) (n : Nat),
    (∀ (rs : List SiteReport) (ms : List (Nat × BitVec 16)), ∃ t : State, exec (.observerUpdate rs ms) s = .next t ∧ t.mem = s.mem ∧
      t.dev.observerSeq = s.dev.observerSeq + 1 ∧ ∀ x r, x < 256 → rs.find? (fun r => r.site == x) = some r →
        fld (t.block x).thermal 32 16 = r.est.toNat ∧ fld (t.block x).thermal 0 16 = r.pred.toNat ∧
        (t.block x).thermal.getLsbD 62 = decide (2000 ≤ r.est.toInt) ∧ (t.block x).power = r.mw.setWidth 64) ∧
    (∃ t : State, exec (.sensorReport i reading) s = .next t ∧ t.mem = s.mem ∧ (t.sensor i.val).reading = reading ∧
      (reading.toInt < -640 ∨ 2400 < reading.toInt → (t.sensor i.val).suspect = true)) ∧
    (s.dev.controlAt < s.devTime / 40000 → ∃ t : State, exec .currentControl s = .next t ∧ t.mem = s.mem ∧
      t.dev.controlAt = s.dev.controlAt + 1 ∧
      ∀ x, x < 256 → (t.block x).cadence = BitVec.ofNat 5 (max (t.block x).demand (t.block x).floor)) ∧
    (s.devTime / 40000 ≤ s.dev.controlAt → exec .currentControl s = .next s) ∧
    (s.dev.boostAt < s.devTime / 40000 → ∃ t : State, exec .boostBoundary s = .next t ∧ t.mem = s.mem ∧
      t.dev.boostAt = s.dev.boostAt + 1 ∧
      let now := (s.dev.boostAt + 1) * 40000
      let after := fun c : Nat =>
        if (s.course c).stopped = true ∧ s.pausing (c / 32) = true ∧ (s.course c).step ≠ 0 then s.course c
        else (s.course c).interval (s.claims c) now
      let granted := fun c : Nat => ({ after c with step := 2, sprintFrom := some now, sprintEnd := false, idle := 0 } : Course)
      let wants := fun c : Nat => (s.site c).valid && decide ((after c).step = 0) && !(after c).stopped && (s.setCourse c (after c)).claims c
      (∀ c, c < 256 → (s.site c).valid = false → t.course c = s.course c) ∧
      (∀ c, c < 256 → (s.site c).valid = true → t.course c = after c ∨ (t.course c = granted c ∧ wants c = true)) ∧
      (4800 * ampere < s.current + 45 * ampere / 10 → ∀ c, c < 256 → (s.site c).valid = true → t.course c = after c) ∧
      ∀ x, x < 8 → s.current + 256 * (45 * ampere / 10) ≤ 4800 * ampere →
        ((coursesOf x).filter fun c => (s.site c).valid && decide ((after c).step ≠ 0)).length + ((coursesOf x).filter wants).length ≤
          (s.ashlar x).slots →
        ∀ c ∈ coursesOf x, wants c = true → t.course c = granted c) ∧
    (s.dev.boostAt ≥ s.devTime / 40000 → exec .boostBoundary s = .next s) ∧
    exec (.slotsUpdate a) s = .next (s.modAshlar a.val fun x =>
      { x with slots := if Map.get 0 s.dev.heat a.val = 0 then 14 else if Map.get 0 s.dev.heat a.val = 1 then 1 else 0 }) ∧
    (∀ t, s.coreIdle n = true → (s.core n).idleFrom = some t → t + 100000 ≤ s.devTime →
      exec (.powerGateEntry n) s = .next (s.modCore n fun k => { k with gated := true })) ∧
    (s.coreIdle n = true → (s.core n).idleFrom = none →
      exec (.powerGateEntry n) s = .next (s.modCore n fun k => { k with idleFrom := some s.devTime })) ∧
    (s.coreIdle n = false → exec (.powerGateEntry n) s = .next s) ∧
    (1520 ≤ s.stackTemp a.val → Map.get 0 s.dev.heat a.val < 2 → ∃ t : State, exec (.hbmHeatLevel a) s = .next t ∧
      Map.get 0 t.dev.heat a.val = 2 ∧ (t.ashlar a.val).slots = 0 ∧ t.mem = s.mem) ∧
    (1360 ≤ s.stackTemp a.val → s.stackTemp a.val < 1520 → Map.get 0 s.dev.heat a.val = 0 →
      ∃ t : State, exec (.hbmHeatLevel a) s = .next t ∧ Map.get 0 t.dev.heat a.val = 1 ∧ t.mem = s.mem) ∧
    (s.stackTemp a.val < 1360 → Map.get 0 s.dev.heat a.val = 0 → exec (.hbmHeatLevel a) s = .next s) ∧
    (∀ t0, Map.get 0 s.dev.heat a.val = 1 → s.stackTemp a.val ≤ 1312 → Map.find s.dev.heatSince a.val = some t0 →
      t0 + 100000000 ≤ s.devTime → ∃ t : State, exec (.hbmHeatLevel a) s = .next t ∧ Map.get 0 t.dev.heat a.val = 0) ∧
    (∀ (key : BitVec 16) (p : Partition) (r : Region) (o k : Nat), s.ownerRegion (n / 8) = some r → r.pkey = key →
      Map.find s.partitions key = some p → o < 640 * 2 ^ 30 →
      (Map.get 0 s.dev.heat (o / (80 * 2 ^ 30)) = 0 → s.ask (some n) (Home.loc (.hbm o)) k = s) ∧
      (Map.get 0 s.dev.heat (o / (80 * 2 ^ 30)) ≠ 0 → ∃ q : Partition,
        Map.find (s.ask (some n) (Home.loc (.hbm o)) k).partitions key = some q ∧
          (q.asked.map (·.2.2)).sum = (p.asked.map (·.2.2)).sum + k)) ∧
    ∀ (key : BitVec 16) (p : Partition) (e : Nat × Nat × Nat) (req : Nat), Map.find s.partitions key = some p →
      p.due a.val (s.devTime / 10000) = some e →
      (e.2.2 ≠ req → exec (.shortfallUpdate key a req) s = .next s) ∧
      let d := e.2.2 * 655360
      let g := p.share.toNat * 36000000
      let low := Map.get 0 s.dev.heat a.val
      let lost := Nat.min d g - Nat.min d (g * (if low = 0 then 10 else if low = 1 then 8 else 5) / 10)
      ∃ (t : State) (q : Partition) (up : Nat), exec (.shortfallUpdate key a e.2.2) s = .next t ∧
        Map.find t.partitions key = some q ∧ q.asked = p.asked.erase e ∧ up ≤ 1 ∧ (lost % 655360 = 0 → up = 0) ∧
        q.shortfall = p.shortfall + BitVec.ofNat 64 (lost / 655360 + up) ∧ t.mem = s.mem) ∧
  (∀ (k : Course) (claims : Bool) (now : Nat),
    (k.step = 2 → (k.interval claims now).permits = k.permits - 1 ∧
      (k.interval claims now).step = if k.permits ≤ 1 ∨ claims = false ∨ k.sprintEnd = true then 1 else 2) ∧
    (k.step = 1 → (k.interval claims now).step = 0 ∧ (k.interval claims now).permits = k.permits ∧ (k.interval claims now).idle = 0 ∧
      now + 10000000 ≤ (k.interval claims now).coolUntil ∧
      ∀ t, k.sprintFrom = some t → now + (now - t) ≤ (k.interval claims now).coolUntil) ∧
    (k.step = 0 → k.permits ≤ 64 → k.idle < 4 →
      (k.idle = 3 → (k.interval claims now).permits = Nat.min (k.permits + 1) 64 ∧ (k.interval claims now).idle = 0) ∧
      (k.idle < 3 → (k.interval claims now).permits = k.permits ∧ (k.interval claims now).idle = k.idle + 1)))

/-! ### The host, Gweam, pre-emption, bring-up -/

/-- R25 to R28, R329, R345, R389 to R391, R396: a request that the plinth takes is answered with its status, and a refused one
changes nothing but the reply; a launch starts a region on the courses that the device assigns, each core's context 0 at the entry
point, and waits while an ashlar is in a pause; a teardown ends the region and every one below it; a partition reset and a Function
Level Reset end the partition's regions and leave none of its key; a migration stop begins the region's stop, and a region resumed goes
on under a new rid. The model's own choices in it: which courses and which rid a launch takes, and that a request made before the
reply of an earlier one is read is ignored (`State.takes`; log entry 42); the migrated region that a block resumes, found by its save
area or a copy of it (log entry 31). -/
def Obligations.HostRequests : Prop :=
  ∀ (s : State) (fn : Nat) (msg : BitVec 128) (named : List Nat),
    (∀ f : Fn, s.fn fn = f → exec (.replyWordRead fn) s = .next (s.modFn fn fun x =>
        { x with reply := f.reply &&& 0x7FFFFFFFFFFFFFFF })) ∧
    (∀ r st, (((s.reply fn r st).fn fn).reply.getLsbD 63 = true ∧ fld ((s.reply fn r st).fn fn).reply 16 16 = r.toNat) ∧
      (st < 256 → fld ((s.reply fn r st).fn fn).reply 0 8 = st)) ∧
    (s.takes fn = true → s.dev.takeover = false →
      (s.anyPause = true → exec (.launch fn msg named) s = .next { s with waiting := s.waiting ++ [⟨fn, msg, .launch named⟩] } ∧
        exec (.migrationResume fn msg named) s = .next { s with waiting := s.waiting ++ [⟨fn, msg, .resume named⟩] }) ∧
      (s.anyPause = false →
        (∀ b bs cs, s.launchStatus fn msg (s.assign · named) = (0, b :: bs, cs) → exec (.launch fn msg named) s =
          .next ((s.startRegion fn (msgKey msg) (b :: bs) b cs).reply fn s.newRid 0)) ∧
        (∀ n ch cs, n ≠ 0 → s.launchStatus fn msg (s.assign · named) = (n, ch, cs) →
          exec (.launch fn msg named) s = .next (s.reply fn 0 n)) ∧
        (∀ b bs cs old r v, s.launchStatus fn msg (s.reassign (msgKey msg) named) = (0, b :: bs, cs) →
          s.migrated (msgKey msg) (effective (b :: bs)).save = some (old, r, v) →
          exec (.migrationResume fn msg named) s =
            .next ((s.resumeMigrated fn (msgKey msg) (b :: bs) b cs old r v).reply fn s.newRid 0) ∧
          ∃ r' : Region, (s.resumeMigrated fn (msgKey msg) (b :: bs) b cs old r v).region? s.newRid = some r' ∧
            r'.run = .running ∧ r'.courses = cs ∧ r'.gtime10 / 10 = r.gtime10 / 10) ∧
        (∀ n ch cs, n ≠ 0 → n ≠ 2 → s.launchStatus fn msg (s.reassign (msgKey msg) named) = (n, ch, cs) →
          exec (.migrationResume fn msg named) s = .next (s.reply fn 0 n))) ∧
      (∀ r : Region, s.ridStatus fn msg = (0, some r) →
        (s.inPause (s.below r) = false →
          exec (.teardown fn msg) s = .next (((s.below r).foldl State.endRegion s).reply fn 0 0)) ∧
        (s.inPause (s.below r) = true →
          exec (.teardown fn msg) s = .next { s with waiting := s.waiting ++ [⟨fn, msg, .teardown⟩] }) ∧
        (r.run = .running → exec (.migrationStop fn msg) s = .next (s.beginStop (BitVec.ofNat 16 msg.toNat) (some fn))) ∧
        (r.run = .preempted → exec (.migrationStop fn msg) s =
          .next ((s.modRegion (BitVec.ofNat 16 msg.toNat) fun r => { r with run := .migrating, still10 := 0 }).reply fn 0 0)) ∧
        (r.run = .stopping → exec (.migrationStop fn msg) s =
          .next (s.modRegion (BitVec.ofNat 16 msg.toNat) fun r => { r with migration := some fn }))) ∧
      (∀ n o, n ≠ 0 → s.ridStatus fn msg = (n, o) → exec (.teardown fn msg) s = .next (s.reply fn 0 n) ∧
        exec (.migrationStop fn msg) s = .next (s.reply fn 0 n)) ∧
      (msg.toNat % 2 ^ 112 = 0 → s.keyOf fn = some (msgKey msg) → s.inPause (s.regionsOf (msgKey msg)) = false →
        exec (.partitionReset fn msg) s = .next ((s.resetPartition fn (msgKey msg)).reply fn 0 0)) ∧
      (msg.toNat % 2 ^ 112 ≠ 0 → exec (.partitionReset fn msg) s = .next (s.reply fn 0 1))) ∧
    (s.takes fn = false → ∀ i ∈ [Instr.launch fn msg named, .teardown fn msg, .partitionReset fn msg, .migrationStop fn msg,
      .migrationResume fn msg named], exec i s = .next s) ∧
    (∀ key, s.keyOf fn = some key → s.inPause (s.regionsOf key) = false → s.dev.takeover = false →
      exec (.functionLevelReset fn) s =
        .next (({ s with waiting := s.waiting.filter fun q => q.fn != fn } : State).resetPartition fn key)) ∧
    (∀ key, (s.resetPartition fn key).fn fn = { Fn.fresh with enabled := (s.fn fn).enabled } ∧
      ∀ e ∈ (s.resetPartition fn key).regions, e.2.pkey ≠ key) ∧
    (∀ key b bs cs,
      let t := s.startRegion fn key (b :: bs) b cs
      ∃ r : Region, t.region? s.newRid = some r ∧ r.run = .running ∧ r.courses = cs ∧ r.pkey = key ∧ r.fn = fn ∧ r.sscount = 0 ∧
        ∀ n ∈ r.cores, (t.ctx (ctxOf n 0)).arch.pc = b.entry ∧ (t.ctx (ctxOf n 0)).run = 0 ∧
          (∀ i, i < 32 → (t.ctx (ctxOf n 0)).x i = 0) ∧ ∀ k, k ≠ 0 → (t.ctx (ctxOf n k)).run = 3) ∧
    ∀ (rid : BitVec 16), (s.region? rid).isSome = true → (s.endRegion rid).region? rid = none

/-- R173, R177, R224, R329, R387, R388, R393, R397 to R400: a pre-emption posts its notice, or is due where a pause holds it back, and
the region is saved when its stop ends; a resumed one is restored on the courses assigned; an inbound write lands as raw bytes at the
HBM that its partition holds or in a slice of the region its function targets, waits behind its requester's earlier writes and while
the slice's ingress is shut, and one that BAR2 does not accept is logged and changes nothing else; a Gweam packet whose key is not in
the port's set is counted, whatever it asks for, and a request with one that is lands, or waits at the port behind earlier ones; a
partition's key enters its ports' sets; the device after bring-up has no region, and is in the safe state where the signature of
stage 1 or 3 or a stage fails; an attestation returns the registers, the nonce and a signature over them.
The model's own choices in it: the pre-emption as two steps and the device time from which a slice counts (log entry 44), `ownsHbm` by
the grants that are recorded (log entry 20), what a Gweam packet that only reads leaves, when one waits, and a peer's `mon` (log entry
52), and the opaque signature and its check (log entry 16). -/
def Obligations.DeviceSteps : Prop :=
  ∀ (s : State) (rid fn off requester : Nat) (cs : List Nat) (bs : List Byte) (port : Fin 32) (key : BitVec 16)
    (ports : List (Fin 32)) (nonce : BitVec 256) (images : List Firmware),
    (∀ r : Region, s.region? (BitVec.ofNat 16 rid) = some r →
      let sliceEnded := r.eff.slice ≠ 0 ∧ r.slice10 + r.eff.slice.toNat * 10000 ≤ s.devTime
      (s.mayPreempt r = true → sliceEnded → exec (.preemption rid) s = .next (r.courses.foldl
        (fun s c => s.modCourse c fun k => if k.step = 0 then k else { k with sprintEnd := true })
        (s.modRegion (BitVec.ofNat 16 rid) fun r => { r with run := .stopping, due := false }))) ∧
      (r.run = .running → s.mayPreempt r = false → sliceEnded → exec (.preemption rid) s =
        .next (s.modRegion (BitVec.ofNat 16 rid) fun r => { r with due := true })) ∧
      (r.run = .stopping → r.migration = none → exec (.preemption rid) s = .next (s.save (BitVec.ofNat 16 rid) .preempted)) ∧
      (∀ f, r.run = .stopping → r.migration = some f → exec (.preemption rid) s =
        .next (((s.save (BitVec.ofNat 16 rid) .migrating).modRegion (BitVec.ofNat 16 rid) fun r =>
          { r with migration := none, still10 := 0 }).reply f 0 0)) ∧
      (r.run = .running → ¬sliceEnded → exec (.preemption rid) s = .next s)) ∧
    (∀ (r : Region) v b bs' cs', s.region? (BitVec.ofNat 16 rid) = some r → r.run = .preempted → r.saved = some v →
      s.readChain 8 r.rcb.toNat = some (b :: bs') →
      ((chainOf (b :: bs')).any fun c => decide (c.2.1 < s.subtreeCourses c.1 + v.courses.length)) = false →
      s.pickCourses v.courses.length cs = some cs' → (∀ c ∈ cs', s.pausing (c / 32) = false) →
      let t := ((s.loadRanks r.pkey (b :: bs')).modRegion (BitVec.ofNat 16 rid) fun r =>
        { r with eff := effective (b :: bs'), chain := chainOf (b :: bs') }).restore (BitVec.ofNat 16 rid) v r.eff.save cs'
      exec (.preemptionResume rid cs) s = .next t ∧
        ∃ r' : Region, t.region? (BitVec.ofNat 16 rid) = some r' ∧ r'.run = .running ∧ r'.courses = cs' ∧ r'.saved = none) ∧
    (∀ n x, s.pickCourses n cs = some x → x.length = n ∧ ∀ c ∈ x, c ∈ s.freeCourses) ∧
    (bs ≠ [] → s.inboundBehind requester = true → exec (.inboundBar2Access fn off requester (.write bs)) s =
        .next { s with inbound := s.inbound ++ [⟨fn, off, requester, .write bs⟩] }) ∧
    (bs ≠ [] → (s.fn fn).enabled = true → s.inboundBehind requester = false →
      (∀ a, s.bar2 fn off bs.length = .hbm a → exec (.inboundBar2Access fn off requester (.write bs)) s =
        .next (s.land ⟨Home.loc (.hbm a), bs, 0, 0⟩ From.outside [])) ∧
      (∀ c o w, s.bar2 fn off bs.length = .slice c o w →
        (s.ingressShut c = false → s.tokenBlocks (Home.loc (.slice c o)) bs.length [] = false →
          exec (.inboundBar2Access fn off requester (.write bs)) s =
            .next (s.land ⟨Home.loc (.slice c o), bs, w, 0⟩ From.outside [])) ∧
        (s.ingressShut c = true → exec (.inboundBar2Access fn off requester (.write bs)) s =
            .next { s with inbound := s.inbound ++ [⟨fn, off, requester, .write bs⟩] })) ∧
      (s.bar2 fn off bs.length = .refused → exec (.inboundBar2Access fn off requester (.write bs)) s =
        .next { s with dev := { s.dev with aer := s.dev.aer ++ [⟨fn, off, true⟩] } }) ∧
      (∀ k, s.keyOf fn = some k → off + bs.length ≤ 640 * 2 ^ 30 →
        s.bar2 fn off bs.length = if s.ownsHbm k off bs.length then .hbm off else .refused)) ∧
    (bs ≠ [] → (s.fn fn).enabled = false → s.inboundBehind requester = false → exec (.inboundBar2Access fn off requester (.write bs)) s =
        .next { s with dev := { s.dev with aer := s.dev.aer ++ [⟨fn, off, true⟩] } }) ∧
    (∀ f : Flit,
      (s.dev.statusState ≠ 2 → (s.port port.val).keys.contains key = false → ∃ t : State,
        exec (.gweamFlitArrival port key f) s = .next t ∧ t.mem = s.mem ∧ t.dev = s.dev ∧
          (t.port port.val).refused = (s.port port.val).refused + 1 ∧ (t.port port.val).keys = (s.port port.val).keys) ∧
      (s.dev.statusState = 2 → exec (.gweamFlitArrival port key f) s = .next s) ∧
      (s.dev.statusState ≠ 2 → (s.port port.val).keys.contains key = true →
        (f.cls ≠ .request → exec (.gweamFlitArrival port key f) s = .next s) ∧
        (f.cls = .request → (s.late = true ∨ ∃ x ∈ s.dev.flits, x.1 = port.val) → exec (.gweamFlitArrival port key f) s =
          .next { s with dev := { s.dev with flits := s.dev.flits ++ [(port.val, f)] } }))) ∧
    (∀ src dst : BitVec 10, s.dev.statusState ≠ 2 → (s.port port.val).keys.contains key = true → s.late = false →
      (∀ x ∈ s.dev.flits, x.1 ≠ port.val) →
      let arrives := fun op : GweamOp => exec (.gweamFlitArrival port key ⟨.request, src, dst, op⟩) s
      let loc := Home.loc (.hbm off)
      (off + bs.length ≤ 640 * 2 ^ 30 → arrives (.store off bs) = .next (s.land ⟨loc, bs, 0, 0⟩ From.outside [])) ∧
      (∀ n, arrives (.load off n) = .next s ∧ arrives (.cellrd off) = .next s) ∧
      (∀ (op : Option AmoOp) (ty : AmoTy) (cmp new : Word), off + ty.size ≤ 640 * 2 ^ 30 → off % ty.size = 0 →
        arrives (.amo op ty off cmp new) = .next (s.amoFrom From.outside op ty loc 0 cmp new).2) ∧
      (∀ x : W32, off + 32 ≤ 640 * 2 ^ 30 → off % 32 = 0 →
        arrives (.faddx off x) = .next (s.land (s.cellWrite loc x) From.outside [])) ∧
      (off + 1 ≤ 640 * 2 ^ 30 → arrives (.mon off) = .next (s.register loc ⟨lineOf loc, peerCore src, 0, false⟩))) ∧
    (s.dev.statusState = 1 → fn ≠ 0 → Map.find s.partitions key = none → s.keyOf fn = none → ∃ t : State,
      exec (.partitionCreation fn key ports) s = .next t ∧ t.mem = s.mem ∧ (t.port port.val).refused = (s.port port.val).refused ∧
        (∃ p : Partition, Map.find t.partitions key = some p ∧ p.fn = fn ∧ p.shortfall = 0) ∧
        ∀ k, k ∈ (t.port port.val).keys ↔ k ∈ (s.port port.val).keys ∨ (k = key ∧ port ∈ ports)) ∧
    (∃ t : State, exec (.bringUp 0 [] images) s = .next t ∧ t.regions = [] ∧ t.ctxs = [] ∧ t.cores = [] ∧
      t.courses = [] ∧ t.siteBlocks = [] ∧ t.partitions = [] ∧
      (t.dev.statusState = 1 ↔ t.dev.verified 1 = true ∧ t.dev.verified 3 = true) ∧ (t.dev.statusState ≠ 1 → t.dev.statusState = 2) ∧
      ∀ i f, images[i]? = some f → t.dev.firmware (i + 1) = f) ∧
    (∀ f : Fin 6, f.val ≠ 0 → ∃ t : State, exec (.bringUp f [] images) s = .next t ∧ t.dev.statusState = 2 ∧
      (let stage := if t.dev.verified 1 = false then 1 else if t.dev.verified 3 = false then Nat.min f.val 3 else f.val
       t.dev.statusStage = BitVec.ofNat 4 stage ∧ t.bar0 0x200 = BitVec.ofNat 64 (2 * 2 ^ 60 + stage * 2 ^ 56)) ∧
      ∀ n, 1 ≤ n → n ≤ 64 → t.takes n = false) ∧
    ∃ t : State, exec (.spdmRequest nonce) s = .next t ∧ t.mem = s.mem ∧
      (t.dev.spdm.drop 512).take 32 = natBytes 32 nonce.toNat ∧
      (∀ i, i < 8 → (t.dev.spdm.drop (64 * i)).take 64 = natBytes 64 (Map.get 0 s.dev.measure (i + 1)).toNat) ∧
      t.dev.spdm.drop 544 = Config.sign (t.dev.spdm.take 544)

/-! ### Every form -/

/-- R32, R70, R295: what performing a form that does not close its chunk leaves unchanged beside its own results and the pending
results that its count lands: memory, every other agent's context, every register that no result names, and everything else of
its own context; the same of a taken transfer, which also drops words fetched ahead. A form that is guarded off changes no
register at all. -/
def Obligations.RegisterFrame : Prop :=
  (∀ (s t : State) (i : Instr) (rs : List Result) (pc : Word), i.closes = false →
    (t = s.completed i rs ∨ t = s.jumped i pc rs ∨ (t = s.skip s.cur i ∧ rs = [])) →
    let c := s.ctx s.cur
    let d := t.ctx s.cur
    let named := fun (k : RKind) (r : Nat) => rs.any (fun x => x.kind == k && x.reg == r) ||
      c.arch.pend.any fun p => p.kind == k && p.reg == r
    (∃ cs, t = { s with ctxs := t.ctxs, courses := cs }) ∧
    (∀ n, t.course n = { s.course n with token := (t.course n).token }) ∧
    (∀ b, b ≠ s.cur → t.ctx b = s.ctx b) ∧
    d = { c with arch := d.arch, chunk := d.chunk, stalled := false, ahead := d.ahead, bufs := d.bufs,
                 lost := c.lost.map fun l => (l.1, true) } ∧
    (s.cur ≠ .plinth → d.bufs = c.bufs) ∧
    d.chunk = { c.chunk with count := d.chunk.count, start := d.chunk.start } ∧ d.arch.outs = c.arch.outs ∧
    d.arch.loopa = c.arch.loopa ∧ (∀ j, j ∉ c.pops i → d.stream j = c.stream j) ∧
    (∀ r, r ≠ 0 → r < 32 → named .x r = false → Map.get 0 d.arch.xs r = Map.get 0 c.arch.xs r) ∧
    (∀ r, r < 32 → named .v r = false → Map.get [] d.arch.vs r = Map.get [] c.arch.vs r) ∧
    (∀ r, r < 8 → named .p r = false → d.p r = c.p r) ∧ d.x 0 = 0 ∧ d.p 0 = BitVec.allOnes 64) ∧
  ∀ (s : State) (i : Instr), i.encoded = true → s.illegal s.cur i = false → s.guardMask s.cur i = 0 →
    exec i s = .next (s.skip s.cur i) ∧ ((s.skip s.cur i).ctx s.cur).arch.pend = (s.ctx s.cur).arch.pend

/-- R195, R197, R201, R204, R209, R285, R286: every byte of memory outside the bytes that a form stores to is unchanged. A plain
store and a vector store that their chunk holds change no other byte that their agent reads and no byte of memory; a releasing store,
whose chunk commits with it, no byte outside it and what the chunk held; an atomic, `faddx`, `barinit` and `bararr` no other byte than
the bytes, cells or barrier that they update; `barwait` and an atomic that leaves as a request no byte at all. The reserved parts of
slices and of saved slices are no memory but views of the machine's state. -/
def Obligations.MemoryFrame : Prop :=
  ∀ (s : State) (other : Nat),
  let plain := fun (v : State) (loc n : Nat) => match homeOf loc with
    | .regs _ => False | .slice _ off => off + n ≤ progEnd | .hbm a => (v.savedAt a).isNone = true | _ => True
  (∀ (t : IntTy) (d a : Reg) (off : MemOff) (loc : Nat),
    let i := Instr.st t .plain d a off
    let e := (s.ctxAt i).x a.val + BitVec.ofInt 64 (off.getD 0).toInt
    s.performs i = true → (s.before i).writable e t.size loc ((s.ctxAt i).x d.val) = true → s.cur ≠ .plinth →
    (near s.cur loc = true → (s.ctx s.cur).chunk.far = []) →
    (match homeOf other with | .regs _ => False | .slice _ off => off < progEnd | _ => True) →
    ∃ u : State, exec i s = .next u ∧ u.mem = s.mem ∧
      (other < loc ∨ loc + t.size ≤ other → u.loadByte s.cur other = s.loadByte s.cur other) ∧
      ∀ k, k < t.size → u.loadByte s.cur (loc + k) = BitVec.ofNat 8 (((s.ctxAt i).x d.val).toNat / 2 ^ (8 * k))) ∧
  (∀ (t : IntTy) (d a : Reg) (off : MemOff) (loc : Nat),
    let i := Instr.st t .rel d a off
    let v := s.before i
    let e := (s.ctxAt i).x a.val + BitVec.ofInt 64 (off.getD 0).toInt
    s.performs i = true → v.writable e t.size loc ((s.ctxAt i).x d.val) = true → s.cur ≠ .plinth → s.group s.cur = [s.cur] →
    v.canClose s.cur = true → (s.ctxAt i).chunk.far = [] → v.performed s.cur (beyond loc) = true →
    plain v loc t.size → plain v other 1 → (other < loc ∨ loc + t.size ≤ other) →
    (∀ w ∈ (s.ctxAt i).chunk.near, plain v w.loc w.data.length ∧ (other < w.loc ∨ w.loc + w.data.length ≤ other)) →
    ∃ u : State, exec i s = .next u ∧ u.homeByte other = v.homeByte other) ∧
  (∀ (i : Instr) (mode : VAddr) (d a : Reg) (lay : Option (BitVec 3)) (g : PReg) (locs : List Nat),
    ((i = .vst d a lay g ∧ mode = .unit) ∨ (∃ b, i = .vsts d a b lay g ∧ mode = .stride b) ∨
      ∃ b, i = .vstx d a b lay g ∧ mode = .index b) →
    let v := s.before i
    let win := winOf ((s.ctxAt i).x a.val)
    let es := laneAddrs (s.ctxAt i) mode a (winSize win) (v.guardMask s.cur i)
    let writes := ((es.zip locs).map fun e =>
      (⟨e.2, natBytes (winSize win) (winEncode win (lane ((s.ctxAt i).v d.val) e.1.1)), win, winSize win⟩ : Write)).foldl joinWrite []
    s.performs i = true → winDx win = none → s.cur ≠ .plinth →
    v.vecCheck s.cur .write (es.map (·.2)) (winSize win) (lay.getD 0).toNat win (mode == .unit) true = .ok locs →
    (∀ l ∈ locs, v.partPoison (writes ++ v.heldStores s.cur) l (winSize win) = false ∧ v.areaShut l = false) →
    (∀ w ∈ writes, v.areaDenied w = none) → plain v other 1 →
    (((∀ w ∈ writes, near s.cur w.loc = true) ∧ (s.ctxAt i).chunk.far = []) ∨ ∀ w ∈ writes, near s.cur w.loc = false) →
    ∃ u : State, exec i s = .next u ∧ u.mem = s.mem ∧
      ((∀ l ∈ locs, other < l ∨ l + winSize win ≤ other) → u.loadByte s.cur other = s.loadByte s.cur other)) ∧
  (∀ (i : Instr) (t : AmoTy) (d a b : Reg) (g : PReg) (loc : Nat),
    ((∃ op, i = .amo op t d a b g) ∨ i = .cas t d a b g) →
    let v := s.before i
    let e := (s.ctxAt i).x a.val
    s.performs i = true → v.locateRmw s.cur e t.size = .ok loc → v.barred s.cur .write e = false →
    v.meetsError s.cur loc t.size = false →
    (v.late = false ∨ near s.cur loc = true → v.rmwWaits s.cur loc t.size = false → plain v loc t.size → plain v other 1 →
      (other < loc ∨ loc + t.size ≤ other) →
      ∃ u : State, exec i s = .next u ∧ u.homeByte other = v.homeByte other ∧ u.fabric = v.fabric) ∧
    (v.late = true → near s.cur loc = false → v.reserved loc = false → v.slotsFree s.cur 1 = true → (s.ctxAt i).unsent = [] →
      ∃ u : State, exec i s = .next u ∧ u.mem = v.mem ∧ u.fabric.length = v.fabric.length + 1)) ∧
  (∀ (a : Reg) (b : XV) (g : PReg) (locs : List Nat),
    let i := Instr.faddx a b g
    let v := s.before i
    let ps := faddxParts (s.ctxAt i) a b (v.guardMask s.cur i)
    s.performs i = true →
    v.faddxLocs s.cur (match b with | .v _ => true | _ => false) ((s.ctxAt i).x a.val) (ps.map (·.1)) = .ok locs →
    (∀ l ∈ locs, v.meetsError s.cur l 32 = false ∧ v.rmwWaits s.cur l 32 = false ∧ plain v l 32 ∧ (other < l ∨ l + 32 ≤ other)) →
    v.slotsFree s.cur (locs.filter fun l => v.late && !near s.cur l).length = true → (s.ctxAt i).unsent = [] → plain v other 1 →
    ∃ u : State, exec i s = .next u ∧ u.homeByte other = v.homeByte other) ∧
  ∀ (d a b : Reg) (g : PReg) (loc : Nat),
    (∀ i : Instr, i = .barinit a b g ∨ i = .bararr a b g →
      let v := s.before i
      s.performs i = true → v.locateBar s.cur .write ((s.ctxAt i).x a.val) = .ok loc →
      plain v loc 16 → plain v other 1 → (other < loc ∨ loc + 16 ≤ other) →
      ∃ u : State, exec i s = .next u ∧ u.homeByte other = v.homeByte other) ∧
    (let i := Instr.barwait d a g
     s.performs i = true → (s.before i).locateBar s.cur .read ((s.ctxAt i).x a.val) = .ok loc →
     ∃ u : State, exec i s = .next u ∧ u.mem = (s.before i).mem)

/-- R47, R293, R294, R298, R303, R321: a step of the agenda that names the context which its core selects, and whose next word
decodes, performs exactly that instruction, on the context or on its gang together, and what R28, R214, R291, R305 and R340 let follow
at once follows; where a member found a condition of R293 unmet the selection is not made; a context that its core does not select
does not issue, and one whose next words miss their page parks without a selection; a quoin or the plinth needs no selection. A step
that names a step of the device performs that step. The agenda is the model's own (log entry 2); an entry of it that names what the
device does not have is the fault `illFormedStep`, which is the model's choice too (log entry 56). -/
def Obligations.StepRunsDecoded : Prop :=
  (∀ (s : State) (c : Fin 256) (k : Fin 8) (t : Fin 11) (el : Nat) (late : Bool) (busy : List Agent) (rest : List Slot),
    let a := Agent.ctx c.val k.val t.val
    s.agenda = ⟨el, late, busy, .issue a⟩ :: rest →
    let u := ({ s with agenda := rest, late := late, busy := busy } : State).advance el
    (u.fetchMisses a = false →
      (∀ (v : State) (i : Instr), u.choice (coreId c.val k.val) = some (t.val, v) → FetchesNext v a i →
        step s = andThen (performsNext v a i) fun r =>
          if (u.group a).any fun b => (r.ctx b).stalled then andThen (issueAgent a u) fun r => .next r.follow'
          else .next (r.retried (u.group a)).follow'.wake) ∧
      ((∀ v, u.choice (coreId c.val k.val) ≠ some (t.val, v)) → step s = .next u)) ∧
    (u.fetchMisses a = true → step s = andThen (issueAgent a u) fun r => .next (r.retried (u.group a)).follow'.wake)) ∧
  (∀ (s : State) (a : Agent) (el : Nat) (late : Bool) (busy : List Agent) (rest : List Slot) (i : Instr),
    s.agenda = ⟨el, late, busy, .issue a⟩ :: rest → a.wf = true → a.program = false →
    let u := ({ s with agenda := rest, late := late, busy := busy } : State).advance el
    FetchesNext u a i →
    step s = andThen (performsNext u a i) fun r => if (r.ctx a).stalled then .next r.follow' else .next r.follow'.wake) ∧
  (∀ (s : State) (i : Instr) (el : Nat) (late : Bool) (busy : List Agent) (rest : List Slot),
    s.agenda = ⟨el, late, busy, .event i⟩ :: rest → i.wf = true → encode i = [] →
    step s = andThen (exec i (({ s with agenda := rest, late := late, busy := busy } : State).advance el)) fun t =>
      .next t.follow'.wake) ∧
  ∀ (s : State) (e : Slot) (rest : List Slot), s.agenda = e :: rest → e.pick.wf = false → step s = .fault .illFormedStep

/-- R37 to R47: words written out from the encodings decode to the instructions they stand for. -/
def Obligations.DecodedWords : Prop :=
  decodeWords 0x01380110 [0x40200000] = .ok (.add 7 0 (.lit 0x40200000)) ∧
  decodeWords 0x3C205802 [] = .ok (.ld .i64 .plain 4 1 none 2) ∧
  decodeWords 0x87000080 [] = .ok (.ecall 2) ∧
  decodeWords 0x997C0000 [] = .ok (.recv 15 16 0) ∧
  decodeWords 0x89000000 [] = .ok (.eret 0)

/-- R29 to R46: decoding the words of a well-formed instruction gives it back, and its first word says how many follow. -/
def Obligations.EncodeRoundTrip : Prop :=
  ∀ i : Instr, i.wf = true → i.encoded = true →
    ∃ w ws, encode i = w :: ws ∧ decodeWords w ws = .ok i ∧ extraWords w = ws.length

/-- Every step keeps the canonical form of memory, whatever it performs: addresses rise and no entry lists a byte that an
unlisted address reads as (the model's own form, log entry 5). -/
def Obligations.MemoryFormKept : Prop :=
  ∀ s t : State, s.memOk = true → step s = .next t → t.memOk = true

/-- R1, R9, R162, R329, R335, R338, R382, R393, R397: after reset no region lives, run is 00 in context 0 and 11 in every helper, the
course of an index stands on the site of that index, rotation is enabled with an interval of 100 ms, no port's key set holds a key, and
memory is in its canonical form and reads zero. The site of a course has no reset value in R338, and its index is the model's choice
(log entry 4); so are the bytes that nothing has written, which read zero (log entry 5), and run of a quoin and of the plinth (log
entry 14). -/
def Obligations.ResetValues : Prop :=
  let s := State.reset
  s.memOk = true ∧ s.regions = [] ∧ s.partitions = [] ∧ s.fabric = [] ∧ s.replies = [] ∧
  (∀ c k t, (s.ctx (.ctx c k t)).run = if t = 0 then 0 else 3) ∧ (∀ c, (s.ctx (.quoin c)).run = 0) ∧ (s.ctx .plinth).run = 0 ∧
  (∀ c, c < 256 → (s.site c).rid = 0 ∧ (s.site c).site.toNat = c % 32 ∧ s.siteOf c = c) ∧
  s.dev.rotEnable = true ∧ s.dev.rotInterval = 100 ∧ (∀ n, (s.port n).keys = [] ∧ (s.port n).refused = 0) ∧
  ∀ loc, s.rawByte loc = 0

end
end

