-- ==== Sys2Proof/Laws/Map.lean ====
section
/-! SUPPORT. Laws of tables (`Map`) and of memory: reading after writing, and that every memory operation keeps the canonical
form. -/

namespace Sys2Proof

section Tables

variable {κ α : Type} [DecidableEq κ]

@[simp] theorem Map.get_set_self (d : α) (m : List (κ × α)) (k : κ) (v : α) : Map.get d (Map.set m k v) k = v := by
  induction m with
  | nil => simp [Map.set, Map.get]
  | cons e m ih => obtain ⟨k', v'⟩ := e; by_cases h : k' = k <;> simp [Map.set, Map.get, h, ih]

theorem Map.get_set_ne (d : α) (m : List (κ × α)) {k j : κ} (v : α) (h : k ≠ j) :
    Map.get d (Map.set m k v) j = Map.get d m j := by
  induction m with
  | nil => simp [Map.set, Map.get, h]
  | cons e m ih =>
    obtain ⟨k', v'⟩ := e
    by_cases h1 : k' = k
    · subst h1; simp [Map.set, Map.get, h]
    · by_cases h2 : k' = j
      · subst h2; simp [Map.set, Map.get, h1]
      · simp [Map.set, Map.get, h1, h2, ih]

@[simp] theorem Map.find_set_self (m : List (κ × α)) (k : κ) (v : α) : Map.find (Map.set m k v) k = some v := by
  induction m with
  | nil => simp [Map.set, Map.find]
  | cons e m ih => obtain ⟨k', v'⟩ := e; by_cases h : k' = k <;> simp [Map.set, Map.find, h, ih]

theorem Map.find_set_ne (m : List (κ × α)) {k j : κ} (v : α) (h : k ≠ j) : Map.find (Map.set m k v) j = Map.find m j := by
  induction m with
  | nil => simp [Map.set, Map.find, h]
  | cons e m ih =>
    obtain ⟨k', v'⟩ := e
    by_cases h1 : k' = k
    · subst h1; simp [Map.set, Map.find, h]
    · by_cases h2 : k' = j
      · subst h2; simp [Map.set, Map.find, h1]
      · simp [Map.set, Map.find, h1, h2, ih]

@[simp] theorem Map.find_erase_self (m : List (κ × α)) (k : κ) : Map.find (Map.erase m k) k = none := by
  induction m with
  | nil => rfl
  | cons e m ih => obtain ⟨k', v'⟩ := e; by_cases h : k' = k <;> simp [Map.erase, Map.find, h, ih]

theorem Map.get_erase_self (d : α) (m : List (κ × α)) (k : κ) : Map.get d (Map.erase m k) k = d := by
  induction m with
  | nil => rfl
  | cons e m ih => obtain ⟨k', v'⟩ := e; by_cases h : k' = k <;> simp [Map.erase, Map.get, h, ih]

theorem Map.get_erase_ne (d : α) (m : List (κ × α)) {k j : κ} (h : k ≠ j) : Map.get d (Map.erase m k) j = Map.get d m j := by
  induction m with
  | nil => rfl
  | cons e m ih =>
    obtain ⟨k', v'⟩ := e
    by_cases h1 : k' = k
    · subst h1; simp [Map.erase, Map.get, h, ih]
    · by_cases h2 : k' = j
      · subst h2; simp [Map.erase, Map.get, h1]
      · simp [Map.erase, Map.get, h1, h2, ih]

end Tables

/-! ### The canonical form of memory -/

theorem Memory.wfFrom_mono {m : Memory} {i j : Nat} (h : i ≤ j) (hw : Memory.wfFrom j m = true) :
    Memory.wfFrom i m = true := by
  cases m with
  | nil => rfl
  | cons e m =>
    obtain ⟨a, b⟩ := e
    simp only [Memory.wfFrom, Bool.and_eq_true, decide_eq_true_eq] at hw ⊢
    exact ⟨⟨by omega, hw.1.2⟩, hw.2⟩

theorem Memory.wfFrom_filter (p : Nat × Byte → Bool) : ∀ {m : Memory} {i : Nat}, Memory.wfFrom i m = true →
    Memory.wfFrom i (m.filter p) = true
  | [], _, h => h
  | (a, b) :: m, i, h => by
    simp only [Memory.wfFrom, Bool.and_eq_true, decide_eq_true_eq] at h
    have ih := Memory.wfFrom_filter p h.2
    by_cases hp : p (a, b) = true
    · simp only [List.filter, hp, Memory.wfFrom, Bool.and_eq_true, decide_eq_true_eq]
      exact ⟨h.1, ih⟩
    · simp only [List.filter, hp]
      exact Memory.wfFrom_mono (by omega) ih

theorem Memory.wfFrom_insert {b : Byte} (hb : b ≠ 0) : ∀ {m : Memory} {i a : Nat}, i ≤ a → Memory.wfFrom i m = true →
    Memory.wfFrom i (Memory.insert m a b) = true
  | [], i, a, hi, _ => by simpa [Memory.insert, Memory.wfFrom, hi] using hb
  | (a', b') :: m, i, a, hi, h => by
    simp only [Memory.wfFrom, Bool.and_eq_true, decide_eq_true_eq] at h
    unfold Memory.insert
    split
    · rename_i he; subst he
      simp only [Memory.wfFrom, Bool.and_eq_true, decide_eq_true_eq]
      exact ⟨⟨hi, by simpa using hb⟩, h.2⟩
    · split
      · simp only [Memory.wfFrom, Bool.and_eq_true, decide_eq_true_eq]
        exact ⟨⟨hi, by simpa using hb⟩, ⟨by omega, h.1.2⟩, h.2⟩
      · simp only [Memory.wfFrom, Bool.and_eq_true, decide_eq_true_eq]
        exact ⟨h.1, Memory.wfFrom_insert hb (by omega) h.2⟩

theorem Memory.wfFrom_erase : ∀ {m : Memory} {i : Nat} (a : Nat), Memory.wfFrom i m = true →
    Memory.wfFrom i (Map.erase m a) = true
  | [], _, _, h => h
  | (a', b') :: m, i, a, h => by
    simp only [Memory.wfFrom, Bool.and_eq_true, decide_eq_true_eq] at h
    unfold Map.erase
    split
    · exact Memory.wfFrom_mono (by omega) (Memory.wfFrom_erase a h.2)
    · simp only [Memory.wfFrom, Bool.and_eq_true, decide_eq_true_eq]
      exact ⟨h.1, Memory.wfFrom_erase a h.2⟩

/-- Writing a byte keeps the canonical form. -/
theorem Memory.wf_put {m : Memory} (h : m.wf = true) (a : Nat) (b : Byte) : (Memory.put m a b).wf = true := by
  unfold Memory.put
  split
  · exact Memory.wfFrom_erase a h
  · exact Memory.wfFrom_insert (by assumption) (Nat.zero_le _) h

/-- Writing consecutive bytes keeps the canonical form. -/
theorem Memory.wf_write : ∀ (bs : List Byte) {m : Memory} (a : Nat), m.wf = true → (Memory.write m a bs).wf = true
  | [], _, _, h => h
  | b :: bs, _, a, h => Memory.wf_write bs (a + 1) (Memory.wf_put h a b)

/-- Dropping entries keeps the canonical form. -/
theorem Memory.wf_filter {m : Memory} (h : m.wf = true) (p : Nat × Byte → Bool) : Memory.wf (m.filter p) = true :=
  Memory.wfFrom_filter p h

/-! ### Reading after writing -/

theorem Memory.get_insert_self (b : Byte) : ∀ (m : Memory) (a : Nat), Memory.get (Memory.insert m a b) a = b
  | [], a => by simp [Memory.insert, Memory.get, Map.get]
  | (a', b') :: m, a => by
    unfold Memory.insert
    split
    · simp [Memory.get, Map.get]
    · split
      · simp [Memory.get, Map.get]
      · rename_i h1 h2
        have := Memory.get_insert_self b m a
        simpa [Memory.get, Map.get, h1] using this

theorem Memory.get_insert_ne (b : Byte) {a j : Nat} (h : a ≠ j) : ∀ m : Memory, Memory.get (Memory.insert m a b) j = Memory.get m j
  | [] => by simp [Memory.insert, Memory.get, Map.get, h]
  | (a', b') :: m => by
    unfold Memory.insert
    split
    · rename_i he; subst he; simp [Memory.get, Map.get, h]
    · split
      · simp [Memory.get, Map.get, h]
      · have := Memory.get_insert_ne b h m
        by_cases hj : a' = j
        · simp [Memory.get, Map.get, hj]
        · simpa [Memory.get, Map.get, hj] using this

/-- A byte reads as it was written. -/
@[simp] theorem Memory.get_put_self (m : Memory) (a : Nat) (b : Byte) : Memory.get (Memory.put m a b) a = b := by
  unfold Memory.put
  split
  · rename_i h; subst h; exact Map.get_erase_self 0 m a
  · exact Memory.get_insert_self b m a

/-- A write leaves every other byte alone. -/
theorem Memory.get_put_ne (m : Memory) {a j : Nat} (b : Byte) (h : a ≠ j) : Memory.get (Memory.put m a b) j = Memory.get m j := by
  unfold Memory.put
  split
  · exact Map.get_erase_ne 0 m h
  · exact Memory.get_insert_ne b h m

/-- A write of consecutive bytes leaves every byte outside them alone. -/
theorem Memory.get_write_out : ∀ (bs : List Byte) (m : Memory) (a j : Nat), j < a ∨ a + bs.length ≤ j →
    Memory.get (Memory.write m a bs) j = Memory.get m j
  | [], _, _, _, _ => rfl
  | b :: bs, m, a, j, h => by
    simp only [List.length_cons] at h
    rw [Memory.write, Memory.get_write_out bs _ (a + 1) j (by omega), Memory.get_put_ne _ _ (by omega)]

/-- Every byte of a write of consecutive bytes reads as it was written. -/
theorem Memory.get_write_in : ∀ (bs : List Byte) (m : Memory) (a i : Nat) (h : i < bs.length),
    Memory.get (Memory.write m a bs) (a + i) = bs[i]
  | b :: bs, m, a, 0, _ => by
    rw [Memory.write, Memory.get_write_out bs _ (a + 1) (a + 0) (by omega)]; simp
  | b :: bs, m, a, i + 1, h => by
    have := Memory.get_write_in bs (Memory.put m a b) (a + 1) i (by simpa using h)
    rw [Memory.write]
    simpa [Nat.add_assoc, Nat.add_comm 1 i] using this

end Sys2Proof
end

