-- ==== Sys2Proof/Laws/State.lean ====
section
/-! SUPPORT. What each named update of the state leaves in each of its fields, and reading a part of the state after writing
it. -/

namespace Sys2Proof.Machine

open Sys2Proof

/-! ### `setCtx` -/

@[simp] theorem State.setCtx_cur (s : State) (a : Agent) (c : Ctx) : (s.setCtx a c).cur = s.cur := rfl
@[simp] theorem State.setCtx_agenda (s : State) (a : Agent) (c : Ctx) : (s.setCtx a c).agenda = s.agenda := rfl
@[simp] theorem State.setCtx_turn (s : State) (a : Agent) (c : Ctx) : (s.setCtx a c).turn = s.turn := rfl
@[simp] theorem State.setCtx_engineTurn (s : State) (a : Agent) (c : Ctx) : (s.setCtx a c).engineTurn = s.engineTurn := rfl
@[simp] theorem State.setCtx_freeCount (s : State) (a : Agent) (c : Ctx) : (s.setCtx a c).freeCount = s.freeCount := rfl
@[simp] theorem State.setCtx_late (s : State) (a : Agent) (c : Ctx) : (s.setCtx a c).late = s.late := rfl
@[simp] theorem State.setCtx_busy (s : State) (a : Agent) (c : Ctx) : (s.setCtx a c).busy = s.busy := rfl
@[simp] theorem State.setCtx_lead (s : State) (a : Agent) (c : Ctx) : (s.setCtx a c).lead = s.lead := rfl
@[simp] theorem State.setCtx_together (s : State) (a : Agent) (c : Ctx) : (s.setCtx a c).together = s.together := rfl
@[simp] theorem State.setCtx_devTime (s : State) (a : Agent) (c : Ctx) : (s.setCtx a c).devTime = s.devTime := rfl
@[simp] theorem State.setCtx_mem (s : State) (a : Agent) (c : Ctx) : (s.setCtx a c).mem = s.mem := rfl
@[simp] theorem State.setCtx_poison (s : State) (a : Agent) (c : Ctx) : (s.setCtx a c).poison = s.poison := rfl
@[simp] theorem State.setCtx_cores (s : State) (a : Agent) (c : Ctx) : (s.setCtx a c).cores = s.cores := rfl
@[simp] theorem State.setCtx_courses (s : State) (a : Agent) (c : Ctx) : (s.setCtx a c).courses = s.courses := rfl
@[simp] theorem State.setCtx_ashlars (s : State) (a : Agent) (c : Ctx) : (s.setCtx a c).ashlars = s.ashlars := rfl
@[simp] theorem State.setCtx_regions (s : State) (a : Agent) (c : Ctx) : (s.setCtx a c).regions = s.regions := rfl
@[simp] theorem State.setCtx_siteBlocks (s : State) (a : Agent) (c : Ctx) : (s.setCtx a c).siteBlocks = s.siteBlocks := rfl
@[simp] theorem State.setCtx_sensors (s : State) (a : Agent) (c : Ctx) : (s.setCtx a c).sensors = s.sensors := rfl
@[simp] theorem State.setCtx_fabric (s : State) (a : Agent) (c : Ctx) : (s.setCtx a c).fabric = s.fabric := rfl
@[simp] theorem State.setCtx_replies (s : State) (a : Agent) (c : Ctx) : (s.setCtx a c).replies = s.replies := rfl
@[simp] theorem State.setCtx_mortar (s : State) (a : Agent) (c : Ctx) : (s.setCtx a c).mortar = s.mortar := rfl
@[simp] theorem State.setCtx_inbound (s : State) (a : Agent) (c : Ctx) : (s.setCtx a c).inbound = s.inbound := rfl
@[simp] theorem State.setCtx_waiting (s : State) (a : Agent) (c : Ctx) : (s.setCtx a c).waiting = s.waiting := rfl
@[simp] theorem State.setCtx_filters (s : State) (a : Agent) (c : Ctx) : (s.setCtx a c).filters = s.filters := rfl
@[simp] theorem State.setCtx_invals (s : State) (a : Agent) (c : Ctx) : (s.setCtx a c).invals = s.invals := rfl
@[simp] theorem State.setCtx_fns (s : State) (a : Agent) (c : Ctx) : (s.setCtx a c).fns = s.fns := rfl
@[simp] theorem State.setCtx_partitions (s : State) (a : Agent) (c : Ctx) : (s.setCtx a c).partitions = s.partitions := rfl
@[simp] theorem State.setCtx_ports (s : State) (a : Agent) (c : Ctx) : (s.setCtx a c).ports = s.ports := rfl
@[simp] theorem State.setCtx_grants (s : State) (a : Agent) (c : Ctx) : (s.setCtx a c).grants = s.grants := rfl
@[simp] theorem State.setCtx_dev (s : State) (a : Agent) (c : Ctx) : (s.setCtx a c).dev = s.dev := rfl

/-! ### `modCtx` -/

@[simp] theorem State.modCtx_cur (s : State) (a : Agent) (f : Ctx → Ctx) : (s.modCtx a f).cur = s.cur := rfl
@[simp] theorem State.modCtx_agenda (s : State) (a : Agent) (f : Ctx → Ctx) : (s.modCtx a f).agenda = s.agenda := rfl
@[simp] theorem State.modCtx_turn (s : State) (a : Agent) (f : Ctx → Ctx) : (s.modCtx a f).turn = s.turn := rfl
@[simp] theorem State.modCtx_engineTurn (s : State) (a : Agent) (f : Ctx → Ctx) : (s.modCtx a f).engineTurn = s.engineTurn := rfl
@[simp] theorem State.modCtx_freeCount (s : State) (a : Agent) (f : Ctx → Ctx) : (s.modCtx a f).freeCount = s.freeCount := rfl
@[simp] theorem State.modCtx_late (s : State) (a : Agent) (f : Ctx → Ctx) : (s.modCtx a f).late = s.late := rfl
@[simp] theorem State.modCtx_busy (s : State) (a : Agent) (f : Ctx → Ctx) : (s.modCtx a f).busy = s.busy := rfl
@[simp] theorem State.modCtx_lead (s : State) (a : Agent) (f : Ctx → Ctx) : (s.modCtx a f).lead = s.lead := rfl
@[simp] theorem State.modCtx_together (s : State) (a : Agent) (f : Ctx → Ctx) : (s.modCtx a f).together = s.together := rfl
@[simp] theorem State.modCtx_devTime (s : State) (a : Agent) (f : Ctx → Ctx) : (s.modCtx a f).devTime = s.devTime := rfl
@[simp] theorem State.modCtx_mem (s : State) (a : Agent) (f : Ctx → Ctx) : (s.modCtx a f).mem = s.mem := rfl
@[simp] theorem State.modCtx_poison (s : State) (a : Agent) (f : Ctx → Ctx) : (s.modCtx a f).poison = s.poison := rfl
@[simp] theorem State.modCtx_cores (s : State) (a : Agent) (f : Ctx → Ctx) : (s.modCtx a f).cores = s.cores := rfl
@[simp] theorem State.modCtx_courses (s : State) (a : Agent) (f : Ctx → Ctx) : (s.modCtx a f).courses = s.courses := rfl
@[simp] theorem State.modCtx_ashlars (s : State) (a : Agent) (f : Ctx → Ctx) : (s.modCtx a f).ashlars = s.ashlars := rfl
@[simp] theorem State.modCtx_regions (s : State) (a : Agent) (f : Ctx → Ctx) : (s.modCtx a f).regions = s.regions := rfl
@[simp] theorem State.modCtx_siteBlocks (s : State) (a : Agent) (f : Ctx → Ctx) : (s.modCtx a f).siteBlocks = s.siteBlocks := rfl
@[simp] theorem State.modCtx_sensors (s : State) (a : Agent) (f : Ctx → Ctx) : (s.modCtx a f).sensors = s.sensors := rfl
@[simp] theorem State.modCtx_fabric (s : State) (a : Agent) (f : Ctx → Ctx) : (s.modCtx a f).fabric = s.fabric := rfl
@[simp] theorem State.modCtx_replies (s : State) (a : Agent) (f : Ctx → Ctx) : (s.modCtx a f).replies = s.replies := rfl
@[simp] theorem State.modCtx_mortar (s : State) (a : Agent) (f : Ctx → Ctx) : (s.modCtx a f).mortar = s.mortar := rfl
@[simp] theorem State.modCtx_inbound (s : State) (a : Agent) (f : Ctx → Ctx) : (s.modCtx a f).inbound = s.inbound := rfl
@[simp] theorem State.modCtx_waiting (s : State) (a : Agent) (f : Ctx → Ctx) : (s.modCtx a f).waiting = s.waiting := rfl
@[simp] theorem State.modCtx_filters (s : State) (a : Agent) (f : Ctx → Ctx) : (s.modCtx a f).filters = s.filters := rfl
@[simp] theorem State.modCtx_invals (s : State) (a : Agent) (f : Ctx → Ctx) : (s.modCtx a f).invals = s.invals := rfl
@[simp] theorem State.modCtx_fns (s : State) (a : Agent) (f : Ctx → Ctx) : (s.modCtx a f).fns = s.fns := rfl
@[simp] theorem State.modCtx_partitions (s : State) (a : Agent) (f : Ctx → Ctx) : (s.modCtx a f).partitions = s.partitions := rfl
@[simp] theorem State.modCtx_ports (s : State) (a : Agent) (f : Ctx → Ctx) : (s.modCtx a f).ports = s.ports := rfl
@[simp] theorem State.modCtx_grants (s : State) (a : Agent) (f : Ctx → Ctx) : (s.modCtx a f).grants = s.grants := rfl
@[simp] theorem State.modCtx_dev (s : State) (a : Agent) (f : Ctx → Ctx) : (s.modCtx a f).dev = s.dev := rfl

/-! ### `modArch` -/

@[simp] theorem State.modArch_cur (s : State) (a : Agent) (f : Arch → Arch) : (s.modArch a f).cur = s.cur := rfl
@[simp] theorem State.modArch_agenda (s : State) (a : Agent) (f : Arch → Arch) : (s.modArch a f).agenda = s.agenda := rfl
@[simp] theorem State.modArch_turn (s : State) (a : Agent) (f : Arch → Arch) : (s.modArch a f).turn = s.turn := rfl
@[simp] theorem State.modArch_engineTurn (s : State) (a : Agent) (f : Arch → Arch) : (s.modArch a f).engineTurn = s.engineTurn := rfl
@[simp] theorem State.modArch_freeCount (s : State) (a : Agent) (f : Arch → Arch) : (s.modArch a f).freeCount = s.freeCount := rfl
@[simp] theorem State.modArch_late (s : State) (a : Agent) (f : Arch → Arch) : (s.modArch a f).late = s.late := rfl
@[simp] theorem State.modArch_busy (s : State) (a : Agent) (f : Arch → Arch) : (s.modArch a f).busy = s.busy := rfl
@[simp] theorem State.modArch_lead (s : State) (a : Agent) (f : Arch → Arch) : (s.modArch a f).lead = s.lead := rfl
@[simp] theorem State.modArch_together (s : State) (a : Agent) (f : Arch → Arch) : (s.modArch a f).together = s.together := rfl
@[simp] theorem State.modArch_devTime (s : State) (a : Agent) (f : Arch → Arch) : (s.modArch a f).devTime = s.devTime := rfl
@[simp] theorem State.modArch_mem (s : State) (a : Agent) (f : Arch → Arch) : (s.modArch a f).mem = s.mem := rfl
@[simp] theorem State.modArch_poison (s : State) (a : Agent) (f : Arch → Arch) : (s.modArch a f).poison = s.poison := rfl
@[simp] theorem State.modArch_cores (s : State) (a : Agent) (f : Arch → Arch) : (s.modArch a f).cores = s.cores := rfl
@[simp] theorem State.modArch_courses (s : State) (a : Agent) (f : Arch → Arch) : (s.modArch a f).courses = s.courses := rfl
@[simp] theorem State.modArch_ashlars (s : State) (a : Agent) (f : Arch → Arch) : (s.modArch a f).ashlars = s.ashlars := rfl
@[simp] theorem State.modArch_regions (s : State) (a : Agent) (f : Arch → Arch) : (s.modArch a f).regions = s.regions := rfl
@[simp] theorem State.modArch_siteBlocks (s : State) (a : Agent) (f : Arch → Arch) : (s.modArch a f).siteBlocks = s.siteBlocks := rfl
@[simp] theorem State.modArch_sensors (s : State) (a : Agent) (f : Arch → Arch) : (s.modArch a f).sensors = s.sensors := rfl
@[simp] theorem State.modArch_fabric (s : State) (a : Agent) (f : Arch → Arch) : (s.modArch a f).fabric = s.fabric := rfl
@[simp] theorem State.modArch_replies (s : State) (a : Agent) (f : Arch → Arch) : (s.modArch a f).replies = s.replies := rfl
@[simp] theorem State.modArch_mortar (s : State) (a : Agent) (f : Arch → Arch) : (s.modArch a f).mortar = s.mortar := rfl
@[simp] theorem State.modArch_inbound (s : State) (a : Agent) (f : Arch → Arch) : (s.modArch a f).inbound = s.inbound := rfl
@[simp] theorem State.modArch_waiting (s : State) (a : Agent) (f : Arch → Arch) : (s.modArch a f).waiting = s.waiting := rfl
@[simp] theorem State.modArch_filters (s : State) (a : Agent) (f : Arch → Arch) : (s.modArch a f).filters = s.filters := rfl
@[simp] theorem State.modArch_invals (s : State) (a : Agent) (f : Arch → Arch) : (s.modArch a f).invals = s.invals := rfl
@[simp] theorem State.modArch_fns (s : State) (a : Agent) (f : Arch → Arch) : (s.modArch a f).fns = s.fns := rfl
@[simp] theorem State.modArch_partitions (s : State) (a : Agent) (f : Arch → Arch) : (s.modArch a f).partitions = s.partitions := rfl
@[simp] theorem State.modArch_ports (s : State) (a : Agent) (f : Arch → Arch) : (s.modArch a f).ports = s.ports := rfl
@[simp] theorem State.modArch_grants (s : State) (a : Agent) (f : Arch → Arch) : (s.modArch a f).grants = s.grants := rfl
@[simp] theorem State.modArch_dev (s : State) (a : Agent) (f : Arch → Arch) : (s.modArch a f).dev = s.dev := rfl

/-! ### `setCore` -/

@[simp] theorem State.setCore_cur (s : State) (n : Nat) (c : Core) : (s.setCore n c).cur = s.cur := rfl
@[simp] theorem State.setCore_agenda (s : State) (n : Nat) (c : Core) : (s.setCore n c).agenda = s.agenda := rfl
@[simp] theorem State.setCore_turn (s : State) (n : Nat) (c : Core) : (s.setCore n c).turn = s.turn := rfl
@[simp] theorem State.setCore_engineTurn (s : State) (n : Nat) (c : Core) : (s.setCore n c).engineTurn = s.engineTurn := rfl
@[simp] theorem State.setCore_freeCount (s : State) (n : Nat) (c : Core) : (s.setCore n c).freeCount = s.freeCount := rfl
@[simp] theorem State.setCore_late (s : State) (n : Nat) (c : Core) : (s.setCore n c).late = s.late := rfl
@[simp] theorem State.setCore_busy (s : State) (n : Nat) (c : Core) : (s.setCore n c).busy = s.busy := rfl
@[simp] theorem State.setCore_lead (s : State) (n : Nat) (c : Core) : (s.setCore n c).lead = s.lead := rfl
@[simp] theorem State.setCore_together (s : State) (n : Nat) (c : Core) : (s.setCore n c).together = s.together := rfl
@[simp] theorem State.setCore_devTime (s : State) (n : Nat) (c : Core) : (s.setCore n c).devTime = s.devTime := rfl
@[simp] theorem State.setCore_mem (s : State) (n : Nat) (c : Core) : (s.setCore n c).mem = s.mem := rfl
@[simp] theorem State.setCore_poison (s : State) (n : Nat) (c : Core) : (s.setCore n c).poison = s.poison := rfl
@[simp] theorem State.setCore_ctxs (s : State) (n : Nat) (c : Core) : (s.setCore n c).ctxs = s.ctxs := rfl
@[simp] theorem State.setCore_courses (s : State) (n : Nat) (c : Core) : (s.setCore n c).courses = s.courses := rfl
@[simp] theorem State.setCore_ashlars (s : State) (n : Nat) (c : Core) : (s.setCore n c).ashlars = s.ashlars := rfl
@[simp] theorem State.setCore_regions (s : State) (n : Nat) (c : Core) : (s.setCore n c).regions = s.regions := rfl
@[simp] theorem State.setCore_siteBlocks (s : State) (n : Nat) (c : Core) : (s.setCore n c).siteBlocks = s.siteBlocks := rfl
@[simp] theorem State.setCore_sensors (s : State) (n : Nat) (c : Core) : (s.setCore n c).sensors = s.sensors := rfl
@[simp] theorem State.setCore_fabric (s : State) (n : Nat) (c : Core) : (s.setCore n c).fabric = s.fabric := rfl
@[simp] theorem State.setCore_replies (s : State) (n : Nat) (c : Core) : (s.setCore n c).replies = s.replies := rfl
@[simp] theorem State.setCore_mortar (s : State) (n : Nat) (c : Core) : (s.setCore n c).mortar = s.mortar := rfl
@[simp] theorem State.setCore_inbound (s : State) (n : Nat) (c : Core) : (s.setCore n c).inbound = s.inbound := rfl
@[simp] theorem State.setCore_waiting (s : State) (n : Nat) (c : Core) : (s.setCore n c).waiting = s.waiting := rfl
@[simp] theorem State.setCore_filters (s : State) (n : Nat) (c : Core) : (s.setCore n c).filters = s.filters := rfl
@[simp] theorem State.setCore_invals (s : State) (n : Nat) (c : Core) : (s.setCore n c).invals = s.invals := rfl
@[simp] theorem State.setCore_fns (s : State) (n : Nat) (c : Core) : (s.setCore n c).fns = s.fns := rfl
@[simp] theorem State.setCore_partitions (s : State) (n : Nat) (c : Core) : (s.setCore n c).partitions = s.partitions := rfl
@[simp] theorem State.setCore_ports (s : State) (n : Nat) (c : Core) : (s.setCore n c).ports = s.ports := rfl
@[simp] theorem State.setCore_grants (s : State) (n : Nat) (c : Core) : (s.setCore n c).grants = s.grants := rfl
@[simp] theorem State.setCore_dev (s : State) (n : Nat) (c : Core) : (s.setCore n c).dev = s.dev := rfl

/-! ### `modCore` -/

@[simp] theorem State.modCore_cur (s : State) (n : Nat) (f : Core → Core) : (s.modCore n f).cur = s.cur := rfl
@[simp] theorem State.modCore_agenda (s : State) (n : Nat) (f : Core → Core) : (s.modCore n f).agenda = s.agenda := rfl
@[simp] theorem State.modCore_turn (s : State) (n : Nat) (f : Core → Core) : (s.modCore n f).turn = s.turn := rfl
@[simp] theorem State.modCore_engineTurn (s : State) (n : Nat) (f : Core → Core) : (s.modCore n f).engineTurn = s.engineTurn := rfl
@[simp] theorem State.modCore_freeCount (s : State) (n : Nat) (f : Core → Core) : (s.modCore n f).freeCount = s.freeCount := rfl
@[simp] theorem State.modCore_late (s : State) (n : Nat) (f : Core → Core) : (s.modCore n f).late = s.late := rfl
@[simp] theorem State.modCore_busy (s : State) (n : Nat) (f : Core → Core) : (s.modCore n f).busy = s.busy := rfl
@[simp] theorem State.modCore_lead (s : State) (n : Nat) (f : Core → Core) : (s.modCore n f).lead = s.lead := rfl
@[simp] theorem State.modCore_together (s : State) (n : Nat) (f : Core → Core) : (s.modCore n f).together = s.together := rfl
@[simp] theorem State.modCore_devTime (s : State) (n : Nat) (f : Core → Core) : (s.modCore n f).devTime = s.devTime := rfl
@[simp] theorem State.modCore_mem (s : State) (n : Nat) (f : Core → Core) : (s.modCore n f).mem = s.mem := rfl
@[simp] theorem State.modCore_poison (s : State) (n : Nat) (f : Core → Core) : (s.modCore n f).poison = s.poison := rfl
@[simp] theorem State.modCore_ctxs (s : State) (n : Nat) (f : Core → Core) : (s.modCore n f).ctxs = s.ctxs := rfl
@[simp] theorem State.modCore_courses (s : State) (n : Nat) (f : Core → Core) : (s.modCore n f).courses = s.courses := rfl
@[simp] theorem State.modCore_ashlars (s : State) (n : Nat) (f : Core → Core) : (s.modCore n f).ashlars = s.ashlars := rfl
@[simp] theorem State.modCore_regions (s : State) (n : Nat) (f : Core → Core) : (s.modCore n f).regions = s.regions := rfl
@[simp] theorem State.modCore_siteBlocks (s : State) (n : Nat) (f : Core → Core) : (s.modCore n f).siteBlocks = s.siteBlocks := rfl
@[simp] theorem State.modCore_sensors (s : State) (n : Nat) (f : Core → Core) : (s.modCore n f).sensors = s.sensors := rfl
@[simp] theorem State.modCore_fabric (s : State) (n : Nat) (f : Core → Core) : (s.modCore n f).fabric = s.fabric := rfl
@[simp] theorem State.modCore_replies (s : State) (n : Nat) (f : Core → Core) : (s.modCore n f).replies = s.replies := rfl
@[simp] theorem State.modCore_mortar (s : State) (n : Nat) (f : Core → Core) : (s.modCore n f).mortar = s.mortar := rfl
@[simp] theorem State.modCore_inbound (s : State) (n : Nat) (f : Core → Core) : (s.modCore n f).inbound = s.inbound := rfl
@[simp] theorem State.modCore_waiting (s : State) (n : Nat) (f : Core → Core) : (s.modCore n f).waiting = s.waiting := rfl
@[simp] theorem State.modCore_filters (s : State) (n : Nat) (f : Core → Core) : (s.modCore n f).filters = s.filters := rfl
@[simp] theorem State.modCore_invals (s : State) (n : Nat) (f : Core → Core) : (s.modCore n f).invals = s.invals := rfl
@[simp] theorem State.modCore_fns (s : State) (n : Nat) (f : Core → Core) : (s.modCore n f).fns = s.fns := rfl
@[simp] theorem State.modCore_partitions (s : State) (n : Nat) (f : Core → Core) : (s.modCore n f).partitions = s.partitions := rfl
@[simp] theorem State.modCore_ports (s : State) (n : Nat) (f : Core → Core) : (s.modCore n f).ports = s.ports := rfl
@[simp] theorem State.modCore_grants (s : State) (n : Nat) (f : Core → Core) : (s.modCore n f).grants = s.grants := rfl
@[simp] theorem State.modCore_dev (s : State) (n : Nat) (f : Core → Core) : (s.modCore n f).dev = s.dev := rfl

/-! ### `setCourse` -/

@[simp] theorem State.setCourse_cur (s : State) (n : Nat) (c : Course) : (s.setCourse n c).cur = s.cur := rfl
@[simp] theorem State.setCourse_agenda (s : State) (n : Nat) (c : Course) : (s.setCourse n c).agenda = s.agenda := rfl
@[simp] theorem State.setCourse_turn (s : State) (n : Nat) (c : Course) : (s.setCourse n c).turn = s.turn := rfl
@[simp] theorem State.setCourse_engineTurn (s : State) (n : Nat) (c : Course) : (s.setCourse n c).engineTurn = s.engineTurn := rfl
@[simp] theorem State.setCourse_freeCount (s : State) (n : Nat) (c : Course) : (s.setCourse n c).freeCount = s.freeCount := rfl
@[simp] theorem State.setCourse_late (s : State) (n : Nat) (c : Course) : (s.setCourse n c).late = s.late := rfl
@[simp] theorem State.setCourse_busy (s : State) (n : Nat) (c : Course) : (s.setCourse n c).busy = s.busy := rfl
@[simp] theorem State.setCourse_lead (s : State) (n : Nat) (c : Course) : (s.setCourse n c).lead = s.lead := rfl
@[simp] theorem State.setCourse_together (s : State) (n : Nat) (c : Course) : (s.setCourse n c).together = s.together := rfl
@[simp] theorem State.setCourse_devTime (s : State) (n : Nat) (c : Course) : (s.setCourse n c).devTime = s.devTime := rfl
@[simp] theorem State.setCourse_mem (s : State) (n : Nat) (c : Course) : (s.setCourse n c).mem = s.mem := rfl
@[simp] theorem State.setCourse_poison (s : State) (n : Nat) (c : Course) : (s.setCourse n c).poison = s.poison := rfl
@[simp] theorem State.setCourse_ctxs (s : State) (n : Nat) (c : Course) : (s.setCourse n c).ctxs = s.ctxs := rfl
@[simp] theorem State.setCourse_cores (s : State) (n : Nat) (c : Course) : (s.setCourse n c).cores = s.cores := rfl
@[simp] theorem State.setCourse_ashlars (s : State) (n : Nat) (c : Course) : (s.setCourse n c).ashlars = s.ashlars := rfl
@[simp] theorem State.setCourse_regions (s : State) (n : Nat) (c : Course) : (s.setCourse n c).regions = s.regions := rfl
@[simp] theorem State.setCourse_siteBlocks (s : State) (n : Nat) (c : Course) : (s.setCourse n c).siteBlocks = s.siteBlocks := rfl
@[simp] theorem State.setCourse_sensors (s : State) (n : Nat) (c : Course) : (s.setCourse n c).sensors = s.sensors := rfl
@[simp] theorem State.setCourse_fabric (s : State) (n : Nat) (c : Course) : (s.setCourse n c).fabric = s.fabric := rfl
@[simp] theorem State.setCourse_replies (s : State) (n : Nat) (c : Course) : (s.setCourse n c).replies = s.replies := rfl
@[simp] theorem State.setCourse_mortar (s : State) (n : Nat) (c : Course) : (s.setCourse n c).mortar = s.mortar := rfl
@[simp] theorem State.setCourse_inbound (s : State) (n : Nat) (c : Course) : (s.setCourse n c).inbound = s.inbound := rfl
@[simp] theorem State.setCourse_waiting (s : State) (n : Nat) (c : Course) : (s.setCourse n c).waiting = s.waiting := rfl
@[simp] theorem State.setCourse_filters (s : State) (n : Nat) (c : Course) : (s.setCourse n c).filters = s.filters := rfl
@[simp] theorem State.setCourse_invals (s : State) (n : Nat) (c : Course) : (s.setCourse n c).invals = s.invals := rfl
@[simp] theorem State.setCourse_fns (s : State) (n : Nat) (c : Course) : (s.setCourse n c).fns = s.fns := rfl
@[simp] theorem State.setCourse_partitions (s : State) (n : Nat) (c : Course) : (s.setCourse n c).partitions = s.partitions := rfl
@[simp] theorem State.setCourse_ports (s : State) (n : Nat) (c : Course) : (s.setCourse n c).ports = s.ports := rfl
@[simp] theorem State.setCourse_grants (s : State) (n : Nat) (c : Course) : (s.setCourse n c).grants = s.grants := rfl
@[simp] theorem State.setCourse_dev (s : State) (n : Nat) (c : Course) : (s.setCourse n c).dev = s.dev := rfl

/-! ### `modCourse` -/

@[simp] theorem State.modCourse_cur (s : State) (n : Nat) (f : Course → Course) : (s.modCourse n f).cur = s.cur := rfl
@[simp] theorem State.modCourse_agenda (s : State) (n : Nat) (f : Course → Course) : (s.modCourse n f).agenda = s.agenda := rfl
@[simp] theorem State.modCourse_turn (s : State) (n : Nat) (f : Course → Course) : (s.modCourse n f).turn = s.turn := rfl
@[simp] theorem State.modCourse_engineTurn (s : State) (n : Nat) (f : Course → Course) : (s.modCourse n f).engineTurn = s.engineTurn := rfl
@[simp] theorem State.modCourse_freeCount (s : State) (n : Nat) (f : Course → Course) : (s.modCourse n f).freeCount = s.freeCount := rfl
@[simp] theorem State.modCourse_late (s : State) (n : Nat) (f : Course → Course) : (s.modCourse n f).late = s.late := rfl
@[simp] theorem State.modCourse_busy (s : State) (n : Nat) (f : Course → Course) : (s.modCourse n f).busy = s.busy := rfl
@[simp] theorem State.modCourse_lead (s : State) (n : Nat) (f : Course → Course) : (s.modCourse n f).lead = s.lead := rfl
@[simp] theorem State.modCourse_together (s : State) (n : Nat) (f : Course → Course) : (s.modCourse n f).together = s.together := rfl
@[simp] theorem State.modCourse_devTime (s : State) (n : Nat) (f : Course → Course) : (s.modCourse n f).devTime = s.devTime := rfl
@[simp] theorem State.modCourse_mem (s : State) (n : Nat) (f : Course → Course) : (s.modCourse n f).mem = s.mem := rfl
@[simp] theorem State.modCourse_poison (s : State) (n : Nat) (f : Course → Course) : (s.modCourse n f).poison = s.poison := rfl
@[simp] theorem State.modCourse_ctxs (s : State) (n : Nat) (f : Course → Course) : (s.modCourse n f).ctxs = s.ctxs := rfl
@[simp] theorem State.modCourse_cores (s : State) (n : Nat) (f : Course → Course) : (s.modCourse n f).cores = s.cores := rfl
@[simp] theorem State.modCourse_ashlars (s : State) (n : Nat) (f : Course → Course) : (s.modCourse n f).ashlars = s.ashlars := rfl
@[simp] theorem State.modCourse_regions (s : State) (n : Nat) (f : Course → Course) : (s.modCourse n f).regions = s.regions := rfl
@[simp] theorem State.modCourse_siteBlocks (s : State) (n : Nat) (f : Course → Course) : (s.modCourse n f).siteBlocks = s.siteBlocks := rfl
@[simp] theorem State.modCourse_sensors (s : State) (n : Nat) (f : Course → Course) : (s.modCourse n f).sensors = s.sensors := rfl
@[simp] theorem State.modCourse_fabric (s : State) (n : Nat) (f : Course → Course) : (s.modCourse n f).fabric = s.fabric := rfl
@[simp] theorem State.modCourse_replies (s : State) (n : Nat) (f : Course → Course) : (s.modCourse n f).replies = s.replies := rfl
@[simp] theorem State.modCourse_mortar (s : State) (n : Nat) (f : Course → Course) : (s.modCourse n f).mortar = s.mortar := rfl
@[simp] theorem State.modCourse_inbound (s : State) (n : Nat) (f : Course → Course) : (s.modCourse n f).inbound = s.inbound := rfl
@[simp] theorem State.modCourse_waiting (s : State) (n : Nat) (f : Course → Course) : (s.modCourse n f).waiting = s.waiting := rfl
@[simp] theorem State.modCourse_filters (s : State) (n : Nat) (f : Course → Course) : (s.modCourse n f).filters = s.filters := rfl
@[simp] theorem State.modCourse_invals (s : State) (n : Nat) (f : Course → Course) : (s.modCourse n f).invals = s.invals := rfl
@[simp] theorem State.modCourse_fns (s : State) (n : Nat) (f : Course → Course) : (s.modCourse n f).fns = s.fns := rfl
@[simp] theorem State.modCourse_partitions (s : State) (n : Nat) (f : Course → Course) : (s.modCourse n f).partitions = s.partitions := rfl
@[simp] theorem State.modCourse_ports (s : State) (n : Nat) (f : Course → Course) : (s.modCourse n f).ports = s.ports := rfl
@[simp] theorem State.modCourse_grants (s : State) (n : Nat) (f : Course → Course) : (s.modCourse n f).grants = s.grants := rfl
@[simp] theorem State.modCourse_dev (s : State) (n : Nat) (f : Course → Course) : (s.modCourse n f).dev = s.dev := rfl

/-! ### `modAshlar` -/

@[simp] theorem State.modAshlar_cur (s : State) (n : Nat) (f : Ashlar → Ashlar) : (s.modAshlar n f).cur = s.cur := rfl
@[simp] theorem State.modAshlar_agenda (s : State) (n : Nat) (f : Ashlar → Ashlar) : (s.modAshlar n f).agenda = s.agenda := rfl
@[simp] theorem State.modAshlar_turn (s : State) (n : Nat) (f : Ashlar → Ashlar) : (s.modAshlar n f).turn = s.turn := rfl
@[simp] theorem State.modAshlar_engineTurn (s : State) (n : Nat) (f : Ashlar → Ashlar) : (s.modAshlar n f).engineTurn = s.engineTurn := rfl
@[simp] theorem State.modAshlar_freeCount (s : State) (n : Nat) (f : Ashlar → Ashlar) : (s.modAshlar n f).freeCount = s.freeCount := rfl
@[simp] theorem State.modAshlar_late (s : State) (n : Nat) (f : Ashlar → Ashlar) : (s.modAshlar n f).late = s.late := rfl
@[simp] theorem State.modAshlar_busy (s : State) (n : Nat) (f : Ashlar → Ashlar) : (s.modAshlar n f).busy = s.busy := rfl
@[simp] theorem State.modAshlar_lead (s : State) (n : Nat) (f : Ashlar → Ashlar) : (s.modAshlar n f).lead = s.lead := rfl
@[simp] theorem State.modAshlar_together (s : State) (n : Nat) (f : Ashlar → Ashlar) : (s.modAshlar n f).together = s.together := rfl
@[simp] theorem State.modAshlar_devTime (s : State) (n : Nat) (f : Ashlar → Ashlar) : (s.modAshlar n f).devTime = s.devTime := rfl
@[simp] theorem State.modAshlar_mem (s : State) (n : Nat) (f : Ashlar → Ashlar) : (s.modAshlar n f).mem = s.mem := rfl
@[simp] theorem State.modAshlar_poison (s : State) (n : Nat) (f : Ashlar → Ashlar) : (s.modAshlar n f).poison = s.poison := rfl
@[simp] theorem State.modAshlar_ctxs (s : State) (n : Nat) (f : Ashlar → Ashlar) : (s.modAshlar n f).ctxs = s.ctxs := rfl
@[simp] theorem State.modAshlar_cores (s : State) (n : Nat) (f : Ashlar → Ashlar) : (s.modAshlar n f).cores = s.cores := rfl
@[simp] theorem State.modAshlar_courses (s : State) (n : Nat) (f : Ashlar → Ashlar) : (s.modAshlar n f).courses = s.courses := rfl
@[simp] theorem State.modAshlar_regions (s : State) (n : Nat) (f : Ashlar → Ashlar) : (s.modAshlar n f).regions = s.regions := rfl
@[simp] theorem State.modAshlar_siteBlocks (s : State) (n : Nat) (f : Ashlar → Ashlar) : (s.modAshlar n f).siteBlocks = s.siteBlocks := rfl
@[simp] theorem State.modAshlar_sensors (s : State) (n : Nat) (f : Ashlar → Ashlar) : (s.modAshlar n f).sensors = s.sensors := rfl
@[simp] theorem State.modAshlar_fabric (s : State) (n : Nat) (f : Ashlar → Ashlar) : (s.modAshlar n f).fabric = s.fabric := rfl
@[simp] theorem State.modAshlar_replies (s : State) (n : Nat) (f : Ashlar → Ashlar) : (s.modAshlar n f).replies = s.replies := rfl
@[simp] theorem State.modAshlar_mortar (s : State) (n : Nat) (f : Ashlar → Ashlar) : (s.modAshlar n f).mortar = s.mortar := rfl
@[simp] theorem State.modAshlar_inbound (s : State) (n : Nat) (f : Ashlar → Ashlar) : (s.modAshlar n f).inbound = s.inbound := rfl
@[simp] theorem State.modAshlar_waiting (s : State) (n : Nat) (f : Ashlar → Ashlar) : (s.modAshlar n f).waiting = s.waiting := rfl
@[simp] theorem State.modAshlar_filters (s : State) (n : Nat) (f : Ashlar → Ashlar) : (s.modAshlar n f).filters = s.filters := rfl
@[simp] theorem State.modAshlar_invals (s : State) (n : Nat) (f : Ashlar → Ashlar) : (s.modAshlar n f).invals = s.invals := rfl
@[simp] theorem State.modAshlar_fns (s : State) (n : Nat) (f : Ashlar → Ashlar) : (s.modAshlar n f).fns = s.fns := rfl
@[simp] theorem State.modAshlar_partitions (s : State) (n : Nat) (f : Ashlar → Ashlar) : (s.modAshlar n f).partitions = s.partitions := rfl
@[simp] theorem State.modAshlar_ports (s : State) (n : Nat) (f : Ashlar → Ashlar) : (s.modAshlar n f).ports = s.ports := rfl
@[simp] theorem State.modAshlar_grants (s : State) (n : Nat) (f : Ashlar → Ashlar) : (s.modAshlar n f).grants = s.grants := rfl
@[simp] theorem State.modAshlar_dev (s : State) (n : Nat) (f : Ashlar → Ashlar) : (s.modAshlar n f).dev = s.dev := rfl

/-! ### `modSite` -/

@[simp] theorem State.modSite_cur (s : State) (c : Nat) (f : SiteEntry → SiteEntry) : (s.modSite c f).cur = s.cur := rfl
@[simp] theorem State.modSite_agenda (s : State) (c : Nat) (f : SiteEntry → SiteEntry) : (s.modSite c f).agenda = s.agenda := rfl
@[simp] theorem State.modSite_turn (s : State) (c : Nat) (f : SiteEntry → SiteEntry) : (s.modSite c f).turn = s.turn := rfl
@[simp] theorem State.modSite_engineTurn (s : State) (c : Nat) (f : SiteEntry → SiteEntry) : (s.modSite c f).engineTurn = s.engineTurn := rfl
@[simp] theorem State.modSite_freeCount (s : State) (c : Nat) (f : SiteEntry → SiteEntry) : (s.modSite c f).freeCount = s.freeCount := rfl
@[simp] theorem State.modSite_late (s : State) (c : Nat) (f : SiteEntry → SiteEntry) : (s.modSite c f).late = s.late := rfl
@[simp] theorem State.modSite_busy (s : State) (c : Nat) (f : SiteEntry → SiteEntry) : (s.modSite c f).busy = s.busy := rfl
@[simp] theorem State.modSite_lead (s : State) (c : Nat) (f : SiteEntry → SiteEntry) : (s.modSite c f).lead = s.lead := rfl
@[simp] theorem State.modSite_together (s : State) (c : Nat) (f : SiteEntry → SiteEntry) : (s.modSite c f).together = s.together := rfl
@[simp] theorem State.modSite_devTime (s : State) (c : Nat) (f : SiteEntry → SiteEntry) : (s.modSite c f).devTime = s.devTime := rfl
@[simp] theorem State.modSite_mem (s : State) (c : Nat) (f : SiteEntry → SiteEntry) : (s.modSite c f).mem = s.mem := rfl
@[simp] theorem State.modSite_poison (s : State) (c : Nat) (f : SiteEntry → SiteEntry) : (s.modSite c f).poison = s.poison := rfl
@[simp] theorem State.modSite_ctxs (s : State) (c : Nat) (f : SiteEntry → SiteEntry) : (s.modSite c f).ctxs = s.ctxs := rfl
@[simp] theorem State.modSite_cores (s : State) (c : Nat) (f : SiteEntry → SiteEntry) : (s.modSite c f).cores = s.cores := rfl
@[simp] theorem State.modSite_courses (s : State) (c : Nat) (f : SiteEntry → SiteEntry) : (s.modSite c f).courses = s.courses := rfl
@[simp] theorem State.modSite_regions (s : State) (c : Nat) (f : SiteEntry → SiteEntry) : (s.modSite c f).regions = s.regions := rfl
@[simp] theorem State.modSite_siteBlocks (s : State) (c : Nat) (f : SiteEntry → SiteEntry) : (s.modSite c f).siteBlocks = s.siteBlocks := rfl
@[simp] theorem State.modSite_sensors (s : State) (c : Nat) (f : SiteEntry → SiteEntry) : (s.modSite c f).sensors = s.sensors := rfl
@[simp] theorem State.modSite_fabric (s : State) (c : Nat) (f : SiteEntry → SiteEntry) : (s.modSite c f).fabric = s.fabric := rfl
@[simp] theorem State.modSite_replies (s : State) (c : Nat) (f : SiteEntry → SiteEntry) : (s.modSite c f).replies = s.replies := rfl
@[simp] theorem State.modSite_mortar (s : State) (c : Nat) (f : SiteEntry → SiteEntry) : (s.modSite c f).mortar = s.mortar := rfl
@[simp] theorem State.modSite_inbound (s : State) (c : Nat) (f : SiteEntry → SiteEntry) : (s.modSite c f).inbound = s.inbound := rfl
@[simp] theorem State.modSite_waiting (s : State) (c : Nat) (f : SiteEntry → SiteEntry) : (s.modSite c f).waiting = s.waiting := rfl
@[simp] theorem State.modSite_filters (s : State) (c : Nat) (f : SiteEntry → SiteEntry) : (s.modSite c f).filters = s.filters := rfl
@[simp] theorem State.modSite_invals (s : State) (c : Nat) (f : SiteEntry → SiteEntry) : (s.modSite c f).invals = s.invals := rfl
@[simp] theorem State.modSite_fns (s : State) (c : Nat) (f : SiteEntry → SiteEntry) : (s.modSite c f).fns = s.fns := rfl
@[simp] theorem State.modSite_partitions (s : State) (c : Nat) (f : SiteEntry → SiteEntry) : (s.modSite c f).partitions = s.partitions := rfl
@[simp] theorem State.modSite_ports (s : State) (c : Nat) (f : SiteEntry → SiteEntry) : (s.modSite c f).ports = s.ports := rfl
@[simp] theorem State.modSite_grants (s : State) (c : Nat) (f : SiteEntry → SiteEntry) : (s.modSite c f).grants = s.grants := rfl
@[simp] theorem State.modSite_dev (s : State) (c : Nat) (f : SiteEntry → SiteEntry) : (s.modSite c f).dev = s.dev := rfl

/-! ### `modBlock` -/

@[simp] theorem State.modBlock_cur (s : State) (n : Nat) (f : SiteBlock → SiteBlock) : (s.modBlock n f).cur = s.cur := rfl
@[simp] theorem State.modBlock_agenda (s : State) (n : Nat) (f : SiteBlock → SiteBlock) : (s.modBlock n f).agenda = s.agenda := rfl
@[simp] theorem State.modBlock_turn (s : State) (n : Nat) (f : SiteBlock → SiteBlock) : (s.modBlock n f).turn = s.turn := rfl
@[simp] theorem State.modBlock_engineTurn (s : State) (n : Nat) (f : SiteBlock → SiteBlock) : (s.modBlock n f).engineTurn = s.engineTurn := rfl
@[simp] theorem State.modBlock_freeCount (s : State) (n : Nat) (f : SiteBlock → SiteBlock) : (s.modBlock n f).freeCount = s.freeCount := rfl
@[simp] theorem State.modBlock_late (s : State) (n : Nat) (f : SiteBlock → SiteBlock) : (s.modBlock n f).late = s.late := rfl
@[simp] theorem State.modBlock_busy (s : State) (n : Nat) (f : SiteBlock → SiteBlock) : (s.modBlock n f).busy = s.busy := rfl
@[simp] theorem State.modBlock_lead (s : State) (n : Nat) (f : SiteBlock → SiteBlock) : (s.modBlock n f).lead = s.lead := rfl
@[simp] theorem State.modBlock_together (s : State) (n : Nat) (f : SiteBlock → SiteBlock) : (s.modBlock n f).together = s.together := rfl
@[simp] theorem State.modBlock_devTime (s : State) (n : Nat) (f : SiteBlock → SiteBlock) : (s.modBlock n f).devTime = s.devTime := rfl
@[simp] theorem State.modBlock_mem (s : State) (n : Nat) (f : SiteBlock → SiteBlock) : (s.modBlock n f).mem = s.mem := rfl
@[simp] theorem State.modBlock_poison (s : State) (n : Nat) (f : SiteBlock → SiteBlock) : (s.modBlock n f).poison = s.poison := rfl
@[simp] theorem State.modBlock_ctxs (s : State) (n : Nat) (f : SiteBlock → SiteBlock) : (s.modBlock n f).ctxs = s.ctxs := rfl
@[simp] theorem State.modBlock_cores (s : State) (n : Nat) (f : SiteBlock → SiteBlock) : (s.modBlock n f).cores = s.cores := rfl
@[simp] theorem State.modBlock_courses (s : State) (n : Nat) (f : SiteBlock → SiteBlock) : (s.modBlock n f).courses = s.courses := rfl
@[simp] theorem State.modBlock_ashlars (s : State) (n : Nat) (f : SiteBlock → SiteBlock) : (s.modBlock n f).ashlars = s.ashlars := rfl
@[simp] theorem State.modBlock_regions (s : State) (n : Nat) (f : SiteBlock → SiteBlock) : (s.modBlock n f).regions = s.regions := rfl
@[simp] theorem State.modBlock_sensors (s : State) (n : Nat) (f : SiteBlock → SiteBlock) : (s.modBlock n f).sensors = s.sensors := rfl
@[simp] theorem State.modBlock_fabric (s : State) (n : Nat) (f : SiteBlock → SiteBlock) : (s.modBlock n f).fabric = s.fabric := rfl
@[simp] theorem State.modBlock_replies (s : State) (n : Nat) (f : SiteBlock → SiteBlock) : (s.modBlock n f).replies = s.replies := rfl
@[simp] theorem State.modBlock_mortar (s : State) (n : Nat) (f : SiteBlock → SiteBlock) : (s.modBlock n f).mortar = s.mortar := rfl
@[simp] theorem State.modBlock_inbound (s : State) (n : Nat) (f : SiteBlock → SiteBlock) : (s.modBlock n f).inbound = s.inbound := rfl
@[simp] theorem State.modBlock_waiting (s : State) (n : Nat) (f : SiteBlock → SiteBlock) : (s.modBlock n f).waiting = s.waiting := rfl
@[simp] theorem State.modBlock_filters (s : State) (n : Nat) (f : SiteBlock → SiteBlock) : (s.modBlock n f).filters = s.filters := rfl
@[simp] theorem State.modBlock_invals (s : State) (n : Nat) (f : SiteBlock → SiteBlock) : (s.modBlock n f).invals = s.invals := rfl
@[simp] theorem State.modBlock_fns (s : State) (n : Nat) (f : SiteBlock → SiteBlock) : (s.modBlock n f).fns = s.fns := rfl
@[simp] theorem State.modBlock_partitions (s : State) (n : Nat) (f : SiteBlock → SiteBlock) : (s.modBlock n f).partitions = s.partitions := rfl
@[simp] theorem State.modBlock_ports (s : State) (n : Nat) (f : SiteBlock → SiteBlock) : (s.modBlock n f).ports = s.ports := rfl
@[simp] theorem State.modBlock_grants (s : State) (n : Nat) (f : SiteBlock → SiteBlock) : (s.modBlock n f).grants = s.grants := rfl
@[simp] theorem State.modBlock_dev (s : State) (n : Nat) (f : SiteBlock → SiteBlock) : (s.modBlock n f).dev = s.dev := rfl

/-! ### `tick` -/

@[simp] theorem State.tick_cur (s : State) : s.tick.cur = s.cur := rfl
@[simp] theorem State.tick_agenda (s : State) : s.tick.agenda = s.agenda := rfl
@[simp] theorem State.tick_turn (s : State) : s.tick.turn = s.turn := rfl
@[simp] theorem State.tick_engineTurn (s : State) : s.tick.engineTurn = s.engineTurn := rfl
@[simp] theorem State.tick_late (s : State) : s.tick.late = s.late := rfl
@[simp] theorem State.tick_busy (s : State) : s.tick.busy = s.busy := rfl
@[simp] theorem State.tick_lead (s : State) : s.tick.lead = s.lead := rfl
@[simp] theorem State.tick_together (s : State) : s.tick.together = s.together := rfl
@[simp] theorem State.tick_devTime (s : State) : s.tick.devTime = s.devTime := rfl
@[simp] theorem State.tick_mem (s : State) : s.tick.mem = s.mem := rfl
@[simp] theorem State.tick_poison (s : State) : s.tick.poison = s.poison := rfl
@[simp] theorem State.tick_ctxs (s : State) : s.tick.ctxs = s.ctxs := rfl
@[simp] theorem State.tick_cores (s : State) : s.tick.cores = s.cores := rfl
@[simp] theorem State.tick_courses (s : State) : s.tick.courses = s.courses := rfl
@[simp] theorem State.tick_ashlars (s : State) : s.tick.ashlars = s.ashlars := rfl
@[simp] theorem State.tick_regions (s : State) : s.tick.regions = s.regions := rfl
@[simp] theorem State.tick_siteBlocks (s : State) : s.tick.siteBlocks = s.siteBlocks := rfl
@[simp] theorem State.tick_sensors (s : State) : s.tick.sensors = s.sensors := rfl
@[simp] theorem State.tick_fabric (s : State) : s.tick.fabric = s.fabric := rfl
@[simp] theorem State.tick_replies (s : State) : s.tick.replies = s.replies := rfl
@[simp] theorem State.tick_mortar (s : State) : s.tick.mortar = s.mortar := rfl
@[simp] theorem State.tick_inbound (s : State) : s.tick.inbound = s.inbound := rfl
@[simp] theorem State.tick_waiting (s : State) : s.tick.waiting = s.waiting := rfl
@[simp] theorem State.tick_filters (s : State) : s.tick.filters = s.filters := rfl
@[simp] theorem State.tick_invals (s : State) : s.tick.invals = s.invals := rfl
@[simp] theorem State.tick_fns (s : State) : s.tick.fns = s.fns := rfl
@[simp] theorem State.tick_partitions (s : State) : s.tick.partitions = s.partitions := rfl
@[simp] theorem State.tick_ports (s : State) : s.tick.ports = s.ports := rfl
@[simp] theorem State.tick_grants (s : State) : s.tick.grants = s.grants := rfl
@[simp] theorem State.tick_dev (s : State) : s.tick.dev = s.dev := rfl

/-! ### `modRegion` -/

@[simp] theorem State.modRegion_cur (s : State) (r : BitVec 16) (f : Region → Region) : (s.modRegion r f).cur = s.cur := by
  unfold State.modRegion; split <;> rfl
@[simp] theorem State.modRegion_agenda (s : State) (r : BitVec 16) (f : Region → Region) : (s.modRegion r f).agenda = s.agenda := by
  unfold State.modRegion; split <;> rfl
@[simp] theorem State.modRegion_turn (s : State) (r : BitVec 16) (f : Region → Region) : (s.modRegion r f).turn = s.turn := by
  unfold State.modRegion; split <;> rfl
@[simp] theorem State.modRegion_engineTurn (s : State) (r : BitVec 16) (f : Region → Region) : (s.modRegion r f).engineTurn = s.engineTurn := by
  unfold State.modRegion; split <;> rfl
@[simp] theorem State.modRegion_freeCount (s : State) (r : BitVec 16) (f : Region → Region) : (s.modRegion r f).freeCount = s.freeCount := by
  unfold State.modRegion; split <;> rfl
@[simp] theorem State.modRegion_late (s : State) (r : BitVec 16) (f : Region → Region) : (s.modRegion r f).late = s.late := by
  unfold State.modRegion; split <;> rfl
@[simp] theorem State.modRegion_busy (s : State) (r : BitVec 16) (f : Region → Region) : (s.modRegion r f).busy = s.busy := by
  unfold State.modRegion; split <;> rfl
@[simp] theorem State.modRegion_lead (s : State) (r : BitVec 16) (f : Region → Region) : (s.modRegion r f).lead = s.lead := by
  unfold State.modRegion; split <;> rfl
@[simp] theorem State.modRegion_together (s : State) (r : BitVec 16) (f : Region → Region) : (s.modRegion r f).together = s.together := by
  unfold State.modRegion; split <;> rfl
@[simp] theorem State.modRegion_devTime (s : State) (r : BitVec 16) (f : Region → Region) : (s.modRegion r f).devTime = s.devTime := by
  unfold State.modRegion; split <;> rfl
@[simp] theorem State.modRegion_mem (s : State) (r : BitVec 16) (f : Region → Region) : (s.modRegion r f).mem = s.mem := by
  unfold State.modRegion; split <;> rfl
@[simp] theorem State.modRegion_poison (s : State) (r : BitVec 16) (f : Region → Region) : (s.modRegion r f).poison = s.poison := by
  unfold State.modRegion; split <;> rfl
@[simp] theorem State.modRegion_ctxs (s : State) (r : BitVec 16) (f : Region → Region) : (s.modRegion r f).ctxs = s.ctxs := by
  unfold State.modRegion; split <;> rfl
@[simp] theorem State.modRegion_cores (s : State) (r : BitVec 16) (f : Region → Region) : (s.modRegion r f).cores = s.cores := by
  unfold State.modRegion; split <;> rfl
@[simp] theorem State.modRegion_courses (s : State) (r : BitVec 16) (f : Region → Region) : (s.modRegion r f).courses = s.courses := by
  unfold State.modRegion; split <;> rfl
@[simp] theorem State.modRegion_ashlars (s : State) (r : BitVec 16) (f : Region → Region) : (s.modRegion r f).ashlars = s.ashlars := by
  unfold State.modRegion; split <;> rfl
@[simp] theorem State.modRegion_siteBlocks (s : State) (r : BitVec 16) (f : Region → Region) : (s.modRegion r f).siteBlocks = s.siteBlocks := by
  unfold State.modRegion; split <;> rfl
@[simp] theorem State.modRegion_sensors (s : State) (r : BitVec 16) (f : Region → Region) : (s.modRegion r f).sensors = s.sensors := by
  unfold State.modRegion; split <;> rfl
@[simp] theorem State.modRegion_fabric (s : State) (r : BitVec 16) (f : Region → Region) : (s.modRegion r f).fabric = s.fabric := by
  unfold State.modRegion; split <;> rfl
@[simp] theorem State.modRegion_replies (s : State) (r : BitVec 16) (f : Region → Region) : (s.modRegion r f).replies = s.replies := by
  unfold State.modRegion; split <;> rfl
@[simp] theorem State.modRegion_mortar (s : State) (r : BitVec 16) (f : Region → Region) : (s.modRegion r f).mortar = s.mortar := by
  unfold State.modRegion; split <;> rfl
@[simp] theorem State.modRegion_inbound (s : State) (r : BitVec 16) (f : Region → Region) : (s.modRegion r f).inbound = s.inbound := by
  unfold State.modRegion; split <;> rfl
@[simp] theorem State.modRegion_waiting (s : State) (r : BitVec 16) (f : Region → Region) : (s.modRegion r f).waiting = s.waiting := by
  unfold State.modRegion; split <;> rfl
@[simp] theorem State.modRegion_filters (s : State) (r : BitVec 16) (f : Region → Region) : (s.modRegion r f).filters = s.filters := by
  unfold State.modRegion; split <;> rfl
@[simp] theorem State.modRegion_invals (s : State) (r : BitVec 16) (f : Region → Region) : (s.modRegion r f).invals = s.invals := by
  unfold State.modRegion; split <;> rfl
@[simp] theorem State.modRegion_fns (s : State) (r : BitVec 16) (f : Region → Region) : (s.modRegion r f).fns = s.fns := by
  unfold State.modRegion; split <;> rfl
@[simp] theorem State.modRegion_partitions (s : State) (r : BitVec 16) (f : Region → Region) : (s.modRegion r f).partitions = s.partitions := by
  unfold State.modRegion; split <;> rfl
@[simp] theorem State.modRegion_ports (s : State) (r : BitVec 16) (f : Region → Region) : (s.modRegion r f).ports = s.ports := by
  unfold State.modRegion; split <;> rfl
@[simp] theorem State.modRegion_grants (s : State) (r : BitVec 16) (f : Region → Region) : (s.modRegion r f).grants = s.grants := by
  unfold State.modRegion; split <;> rfl
@[simp] theorem State.modRegion_dev (s : State) (r : BitVec 16) (f : Region → Region) : (s.modRegion r f).dev = s.dev := by
  unfold State.modRegion; split <;> rfl

/-! ### Reading after writing -/

@[simp] theorem State.ctx_setCtx_self (s : State) (a : Agent) (c : Ctx) : (s.setCtx a c).ctx a = c := by
  simp [State.ctx, State.setCtx]

theorem State.ctx_setCtx_ne (s : State) {a b : Agent} (c : Ctx) (h : a ≠ b) : (s.setCtx a c).ctx b = s.ctx b :=
  Map.get_set_ne _ _ _ h

@[simp] theorem State.ctx_modCtx_self (s : State) (a : Agent) (f : Ctx → Ctx) : (s.modCtx a f).ctx a = f (s.ctx a) := by
  simp [State.modCtx]

theorem State.ctx_modCtx_ne (s : State) {a b : Agent} (f : Ctx → Ctx) (h : a ≠ b) : (s.modCtx a f).ctx b = s.ctx b :=
  State.ctx_setCtx_ne s _ h

@[simp] theorem State.core_setCore_self (s : State) (n : Nat) (c : Core) : (s.setCore n c).core n = c := by
  simp [State.core, State.setCore]

theorem State.core_setCore_ne (s : State) {n m : Nat} (c : Core) (h : n ≠ m) : (s.setCore n c).core m = s.core m :=
  Map.get_set_ne _ _ _ h

@[simp] theorem State.core_modCore_self (s : State) (n : Nat) (f : Core → Core) : (s.modCore n f).core n = f (s.core n) := by
  simp [State.modCore]

theorem State.core_modCore_ne (s : State) {n m : Nat} (f : Core → Core) (h : n ≠ m) : (s.modCore n f).core m = s.core m :=
  State.core_setCore_ne s _ h

@[simp] theorem State.course_setCourse_self (s : State) (n : Nat) (c : Course) : (s.setCourse n c).course n = c := by
  simp [State.course, State.setCourse]

theorem State.course_setCourse_ne (s : State) {n m : Nat} (c : Course) (h : n ≠ m) : (s.setCourse n c).course m = s.course m :=
  Map.get_set_ne _ _ _ h

@[simp] theorem State.course_modCourse_self (s : State) (n : Nat) (f : Course → Course) :
    (s.modCourse n f).course n = f (s.course n) := by
  simp [State.modCourse]

theorem State.course_modCourse_ne (s : State) {n m : Nat} (f : Course → Course) (h : n ≠ m) :
    (s.modCourse n f).course m = s.course m :=
  State.course_setCourse_ne s _ h

@[simp] theorem State.ashlar_modAshlar_self (s : State) (n : Nat) (f : Ashlar → Ashlar) :
    (s.modAshlar n f).ashlar n = f (s.ashlar n) := by
  simp [State.ashlar, State.modAshlar]

theorem State.ashlar_modAshlar_ne (s : State) {n m : Nat} (f : Ashlar → Ashlar) (h : n ≠ m) :
    (s.modAshlar n f).ashlar m = s.ashlar m :=
  Map.get_set_ne _ _ _ h

@[simp] theorem State.site_modSite_self (s : State) (c : Nat) (f : SiteEntry → SiteEntry) :
    (s.modSite c f).site c = f (s.site c) := by
  simp [State.site, State.modSite]

@[simp] theorem State.block_modBlock_self (s : State) (n : Nat) (f : SiteBlock → SiteBlock) :
    (s.modBlock n f).block n = f (s.block n) := by
  simp [State.block, State.modBlock]

theorem State.block_modBlock_ne (s : State) {n m : Nat} (f : SiteBlock → SiteBlock) (h : n ≠ m) :
    (s.modBlock n f).block m = s.block m :=
  Map.get_set_ne _ _ _ h

/-! ### Readers that an update does not reach -/

@[simp] theorem State.core_setCtx (s : State) (a : Agent) (c : Ctx) (m : Nat) : (s.setCtx a c).core m = s.core m := rfl
@[simp] theorem State.ashlar_setCtx (s : State) (a : Agent) (c : Ctx) (m : Nat) : (s.setCtx a c).ashlar m = s.ashlar m := rfl
@[simp] theorem State.block_setCtx (s : State) (a : Agent) (c : Ctx) (m : Nat) : (s.setCtx a c).block m = s.block m := rfl
@[simp] theorem State.site_setCtx (s : State) (a : Agent) (c : Ctx) (m : Nat) : (s.setCtx a c).site m = s.site m := rfl
@[simp] theorem State.siteOf_setCtx (s : State) (a : Agent) (c : Ctx) (m : Nat) : (s.setCtx a c).siteOf m = s.siteOf m := rfl
@[simp] theorem State.course_setCtx (s : State) (a : Agent) (c : Ctx) (m : Nat) : (s.setCtx a c).course m = s.course m := rfl
@[simp] theorem State.regionQ_setCtx (s : State) (a : Agent) (c : Ctx) (r : BitVec 16) : (s.setCtx a c).region? r = s.region? r := rfl
@[simp] theorem State.ownerRid_setCtx (s : State) (a : Agent) (c : Ctx) (m : Nat) : (s.setCtx a c).ownerRid m = s.ownerRid m := rfl
@[simp] theorem State.ownerRegion_setCtx (s : State) (a : Agent) (c : Ctx) (m : Nat) : (s.setCtx a c).ownerRegion m = s.ownerRegion m := rfl
@[simp] theorem State.cidOf_setCtx (s : State) (a : Agent) (c : Ctx) (m : Nat) : (s.setCtx a c).cidOf m = s.cidOf m := rfl
@[simp] theorem State.core_modCtx (s : State) (a : Agent) (f : Ctx → Ctx) (m : Nat) : (s.modCtx a f).core m = s.core m := rfl
@[simp] theorem State.ashlar_modCtx (s : State) (a : Agent) (f : Ctx → Ctx) (m : Nat) : (s.modCtx a f).ashlar m = s.ashlar m := rfl
@[simp] theorem State.block_modCtx (s : State) (a : Agent) (f : Ctx → Ctx) (m : Nat) : (s.modCtx a f).block m = s.block m := rfl
@[simp] theorem State.site_modCtx (s : State) (a : Agent) (f : Ctx → Ctx) (m : Nat) : (s.modCtx a f).site m = s.site m := rfl
@[simp] theorem State.siteOf_modCtx (s : State) (a : Agent) (f : Ctx → Ctx) (m : Nat) : (s.modCtx a f).siteOf m = s.siteOf m := rfl
@[simp] theorem State.course_modCtx (s : State) (a : Agent) (f : Ctx → Ctx) (m : Nat) : (s.modCtx a f).course m = s.course m := rfl
@[simp] theorem State.regionQ_modCtx (s : State) (a : Agent) (f : Ctx → Ctx) (r : BitVec 16) : (s.modCtx a f).region? r = s.region? r := rfl
@[simp] theorem State.ownerRid_modCtx (s : State) (a : Agent) (f : Ctx → Ctx) (m : Nat) : (s.modCtx a f).ownerRid m = s.ownerRid m := rfl
@[simp] theorem State.ownerRegion_modCtx (s : State) (a : Agent) (f : Ctx → Ctx) (m : Nat) : (s.modCtx a f).ownerRegion m = s.ownerRegion m := rfl
@[simp] theorem State.cidOf_modCtx (s : State) (a : Agent) (f : Ctx → Ctx) (m : Nat) : (s.modCtx a f).cidOf m = s.cidOf m := rfl
@[simp] theorem State.ctx_setCore (s : State) (n : Nat) (c : Core) (a0 : Agent) : (s.setCore n c).ctx a0 = s.ctx a0 := rfl
@[simp] theorem State.ashlar_setCore (s : State) (n : Nat) (c : Core) (m : Nat) : (s.setCore n c).ashlar m = s.ashlar m := rfl
@[simp] theorem State.block_setCore (s : State) (n : Nat) (c : Core) (m : Nat) : (s.setCore n c).block m = s.block m := rfl
@[simp] theorem State.site_setCore (s : State) (n : Nat) (c : Core) (m : Nat) : (s.setCore n c).site m = s.site m := rfl
@[simp] theorem State.siteOf_setCore (s : State) (n : Nat) (c : Core) (m : Nat) : (s.setCore n c).siteOf m = s.siteOf m := rfl
@[simp] theorem State.course_setCore (s : State) (n : Nat) (c : Core) (m : Nat) : (s.setCore n c).course m = s.course m := rfl
@[simp] theorem State.regionQ_setCore (s : State) (n : Nat) (c : Core) (r : BitVec 16) : (s.setCore n c).region? r = s.region? r := rfl
@[simp] theorem State.ownerRid_setCore (s : State) (n : Nat) (c : Core) (m : Nat) : (s.setCore n c).ownerRid m = s.ownerRid m := rfl
@[simp] theorem State.ownerRegion_setCore (s : State) (n : Nat) (c : Core) (m : Nat) : (s.setCore n c).ownerRegion m = s.ownerRegion m := rfl
@[simp] theorem State.cidOf_setCore (s : State) (n : Nat) (c : Core) (m : Nat) : (s.setCore n c).cidOf m = s.cidOf m := rfl
@[simp] theorem State.ctx_modCore (s : State) (n : Nat) (f : Core → Core) (a0 : Agent) : (s.modCore n f).ctx a0 = s.ctx a0 := rfl
@[simp] theorem State.ashlar_modCore (s : State) (n : Nat) (f : Core → Core) (m : Nat) : (s.modCore n f).ashlar m = s.ashlar m := rfl
@[simp] theorem State.block_modCore (s : State) (n : Nat) (f : Core → Core) (m : Nat) : (s.modCore n f).block m = s.block m := rfl
@[simp] theorem State.site_modCore (s : State) (n : Nat) (f : Core → Core) (m : Nat) : (s.modCore n f).site m = s.site m := rfl
@[simp] theorem State.siteOf_modCore (s : State) (n : Nat) (f : Core → Core) (m : Nat) : (s.modCore n f).siteOf m = s.siteOf m := rfl
@[simp] theorem State.course_modCore (s : State) (n : Nat) (f : Core → Core) (m : Nat) : (s.modCore n f).course m = s.course m := rfl
@[simp] theorem State.regionQ_modCore (s : State) (n : Nat) (f : Core → Core) (r : BitVec 16) : (s.modCore n f).region? r = s.region? r := rfl
@[simp] theorem State.ownerRid_modCore (s : State) (n : Nat) (f : Core → Core) (m : Nat) : (s.modCore n f).ownerRid m = s.ownerRid m := rfl
@[simp] theorem State.ownerRegion_modCore (s : State) (n : Nat) (f : Core → Core) (m : Nat) : (s.modCore n f).ownerRegion m = s.ownerRegion m := rfl
@[simp] theorem State.cidOf_modCore (s : State) (n : Nat) (f : Core → Core) (m : Nat) : (s.modCore n f).cidOf m = s.cidOf m := rfl
@[simp] theorem State.ctx_setCourse (s : State) (n : Nat) (c : Course) (a0 : Agent) : (s.setCourse n c).ctx a0 = s.ctx a0 := rfl
@[simp] theorem State.core_setCourse (s : State) (n : Nat) (c : Course) (m : Nat) : (s.setCourse n c).core m = s.core m := rfl
@[simp] theorem State.ashlar_setCourse (s : State) (n : Nat) (c : Course) (m : Nat) : (s.setCourse n c).ashlar m = s.ashlar m := rfl
@[simp] theorem State.block_setCourse (s : State) (n : Nat) (c : Course) (m : Nat) : (s.setCourse n c).block m = s.block m := rfl
@[simp] theorem State.site_setCourse (s : State) (n : Nat) (c : Course) (m : Nat) : (s.setCourse n c).site m = s.site m := rfl
@[simp] theorem State.siteOf_setCourse (s : State) (n : Nat) (c : Course) (m : Nat) : (s.setCourse n c).siteOf m = s.siteOf m := rfl
@[simp] theorem State.regionQ_setCourse (s : State) (n : Nat) (c : Course) (r : BitVec 16) : (s.setCourse n c).region? r = s.region? r := rfl
@[simp] theorem State.ownerRid_setCourse (s : State) (n : Nat) (c : Course) (m : Nat) : (s.setCourse n c).ownerRid m = s.ownerRid m := rfl
@[simp] theorem State.ownerRegion_setCourse (s : State) (n : Nat) (c : Course) (m : Nat) : (s.setCourse n c).ownerRegion m = s.ownerRegion m := rfl
@[simp] theorem State.cidOf_setCourse (s : State) (n : Nat) (c : Course) (m : Nat) : (s.setCourse n c).cidOf m = s.cidOf m := rfl
@[simp] theorem State.ctx_modCourse (s : State) (n : Nat) (f : Course → Course) (a0 : Agent) : (s.modCourse n f).ctx a0 = s.ctx a0 := rfl
@[simp] theorem State.core_modCourse (s : State) (n : Nat) (f : Course → Course) (m : Nat) : (s.modCourse n f).core m = s.core m := rfl
@[simp] theorem State.ashlar_modCourse (s : State) (n : Nat) (f : Course → Course) (m : Nat) : (s.modCourse n f).ashlar m = s.ashlar m := rfl
@[simp] theorem State.block_modCourse (s : State) (n : Nat) (f : Course → Course) (m : Nat) : (s.modCourse n f).block m = s.block m := rfl
@[simp] theorem State.site_modCourse (s : State) (n : Nat) (f : Course → Course) (m : Nat) : (s.modCourse n f).site m = s.site m := rfl
@[simp] theorem State.siteOf_modCourse (s : State) (n : Nat) (f : Course → Course) (m : Nat) : (s.modCourse n f).siteOf m = s.siteOf m := rfl
@[simp] theorem State.regionQ_modCourse (s : State) (n : Nat) (f : Course → Course) (r : BitVec 16) : (s.modCourse n f).region? r = s.region? r := rfl
@[simp] theorem State.ownerRid_modCourse (s : State) (n : Nat) (f : Course → Course) (m : Nat) : (s.modCourse n f).ownerRid m = s.ownerRid m := rfl
@[simp] theorem State.ownerRegion_modCourse (s : State) (n : Nat) (f : Course → Course) (m : Nat) : (s.modCourse n f).ownerRegion m = s.ownerRegion m := rfl
@[simp] theorem State.cidOf_modCourse (s : State) (n : Nat) (f : Course → Course) (m : Nat) : (s.modCourse n f).cidOf m = s.cidOf m := rfl
@[simp] theorem State.ctx_modAshlar (s : State) (n : Nat) (f : Ashlar → Ashlar) (a0 : Agent) : (s.modAshlar n f).ctx a0 = s.ctx a0 := rfl
@[simp] theorem State.core_modAshlar (s : State) (n : Nat) (f : Ashlar → Ashlar) (m : Nat) : (s.modAshlar n f).core m = s.core m := rfl
@[simp] theorem State.block_modAshlar (s : State) (n : Nat) (f : Ashlar → Ashlar) (m : Nat) : (s.modAshlar n f).block m = s.block m := rfl
@[simp] theorem State.regionQ_modAshlar (s : State) (n : Nat) (f : Ashlar → Ashlar) (r : BitVec 16) : (s.modAshlar n f).region? r = s.region? r := rfl
@[simp] theorem State.ctx_modSite (s : State) (c : Nat) (f : SiteEntry → SiteEntry) (a0 : Agent) : (s.modSite c f).ctx a0 = s.ctx a0 := rfl
@[simp] theorem State.core_modSite (s : State) (c : Nat) (f : SiteEntry → SiteEntry) (m : Nat) : (s.modSite c f).core m = s.core m := rfl
@[simp] theorem State.block_modSite (s : State) (c : Nat) (f : SiteEntry → SiteEntry) (m : Nat) : (s.modSite c f).block m = s.block m := rfl
@[simp] theorem State.regionQ_modSite (s : State) (c : Nat) (f : SiteEntry → SiteEntry) (r : BitVec 16) : (s.modSite c f).region? r = s.region? r := rfl
@[simp] theorem State.ctx_modBlock (s : State) (n : Nat) (f : SiteBlock → SiteBlock) (a0 : Agent) : (s.modBlock n f).ctx a0 = s.ctx a0 := rfl
@[simp] theorem State.core_modBlock (s : State) (n : Nat) (f : SiteBlock → SiteBlock) (m : Nat) : (s.modBlock n f).core m = s.core m := rfl
@[simp] theorem State.ashlar_modBlock (s : State) (n : Nat) (f : SiteBlock → SiteBlock) (m : Nat) : (s.modBlock n f).ashlar m = s.ashlar m := rfl
@[simp] theorem State.site_modBlock (s : State) (n : Nat) (f : SiteBlock → SiteBlock) (m : Nat) : (s.modBlock n f).site m = s.site m := rfl
@[simp] theorem State.siteOf_modBlock (s : State) (n : Nat) (f : SiteBlock → SiteBlock) (m : Nat) : (s.modBlock n f).siteOf m = s.siteOf m := rfl
@[simp] theorem State.regionQ_modBlock (s : State) (n : Nat) (f : SiteBlock → SiteBlock) (r : BitVec 16) : (s.modBlock n f).region? r = s.region? r := rfl
@[simp] theorem State.ownerRid_modBlock (s : State) (n : Nat) (f : SiteBlock → SiteBlock) (m : Nat) : (s.modBlock n f).ownerRid m = s.ownerRid m := rfl
@[simp] theorem State.ownerRegion_modBlock (s : State) (n : Nat) (f : SiteBlock → SiteBlock) (m : Nat) : (s.modBlock n f).ownerRegion m = s.ownerRegion m := rfl
@[simp] theorem State.cidOf_modBlock (s : State) (n : Nat) (f : SiteBlock → SiteBlock) (m : Nat) : (s.modBlock n f).cidOf m = s.cidOf m := rfl
@[simp] theorem State.ctx_tick (s : State) (a0 : Agent) : s.tick.ctx a0 = s.ctx a0 := rfl
@[simp] theorem State.core_tick (s : State) (m : Nat) : s.tick.core m = s.core m := rfl
@[simp] theorem State.ashlar_tick (s : State) (m : Nat) : s.tick.ashlar m = s.ashlar m := rfl
@[simp] theorem State.block_tick (s : State) (m : Nat) : s.tick.block m = s.block m := rfl
@[simp] theorem State.site_tick (s : State) (m : Nat) : s.tick.site m = s.site m := rfl
@[simp] theorem State.siteOf_tick (s : State) (m : Nat) : s.tick.siteOf m = s.siteOf m := rfl
@[simp] theorem State.course_tick (s : State) (m : Nat) : s.tick.course m = s.course m := rfl
@[simp] theorem State.regionQ_tick (s : State) (r : BitVec 16) : s.tick.region? r = s.region? r := rfl
@[simp] theorem State.ownerRid_tick (s : State) (m : Nat) : s.tick.ownerRid m = s.ownerRid m := rfl
@[simp] theorem State.ownerRegion_tick (s : State) (m : Nat) : s.tick.ownerRegion m = s.ownerRegion m := rfl
@[simp] theorem State.cidOf_tick (s : State) (m : Nat) : s.tick.cidOf m = s.cidOf m := rfl

end Sys2Proof.Machine
end

