-- ==== Sys2Proof/Laws/Ops.lean ====
section
/-! SUPPORT. What the shared operations leave of memory: the ones that do not reach it, and that the others keep its canonical
form (landing a write, committing a chunk, taking a trap, issuing an instruction). -/

namespace Sys2Proof

/-- A range reads zero after it is cleared, and clearing keeps the canonical form. -/
theorem Machine.Memory.wf_clear {m : Memory} (h : Memory.wf m = true) (lo n : Nat) :
    Memory.wf (Machine.Memory.clear m lo n) = true :=
  Memory.wf_filter h _

theorem Machine.Memory.wf_copyRange {m : Memory} (h : Memory.wf m = true) (src n dst : Nat) :
    Memory.wf (Machine.Memory.copyRange m src n dst) = true := by
  unfold Machine.Memory.copyRange
  generalize m.filter _ = cells
  have h0 := Machine.Memory.wf_clear h dst n
  revert h0
  generalize Machine.Memory.clear m dst n = m0
  induction cells generalizing m0 with
  | nil => exact id
  | cons c cs ih => exact fun h0 => ih _ (Memory.wf_put h0 _ _)

namespace Machine

/-- A function of the state that keeps memory's canonical form. -/
def KeepsWf (f : State → State) : Prop := ∀ s, Memory.wf s.mem = true → Memory.wf (f s).mem = true

theorem foldl_mem {α : Type} {f : State → α → State} (h : ∀ s x, (f s x).mem = s.mem) :
    ∀ (l : List α) (s : State), (l.foldl f s).mem = s.mem
  | [], _ => rfl
  | x :: l, s => (foldl_mem h l (f s x)).trans (h s x)

theorem foldl_wf {α : Type} {f : State → α → State} (h : ∀ x, KeepsWf (f · x)) :
    ∀ (l : List α), KeepsWf (l.foldl f)
  | [], _, hs => hs
  | x :: l, s, hs => foldl_wf h l (f s x) (h x s hs)

/-! ### Operations that do not reach memory -/


@[simp] theorem State.setWatches_mem (s : State) (c : Nat) (ws : List (Nat × Watch)) : (s.setWatches c ws).mem = s.mem := by
  unfold State.setWatches; split
  · simp
  · repeat' split
    all_goals rfl

@[simp] theorem State.latchWhere_mem (s : State) (c : Nat) (p : Nat → Watch → Bool) (st : Nat) :
    (s.latchWhere c p st).mem = s.mem := by simp [State.latchWhere]

@[simp] theorem State.reportLine_mem (now : Nat → Bool) (s : State) (l : Nat) : (s.reportLine now l).mem = s.mem := by
  unfold State.reportLine
  exact foldl_mem (fun s r => State.latchWhere_mem s _ _ _) _ _

@[simp] theorem State.regWritten_mem (s : State) (o : Nat) : (s.regWritten o).mem = s.mem := by simp [State.regWritten]

@[simp] theorem State.ask_mem (s : State) (c : Option Nat) (l n : Nat) : (s.ask c l n).mem = s.mem := by
  unfold State.ask
  repeat' split
  all_goals rfl

@[simp] theorem State.push_mem (s : State) (c : Nat) (m : Msg) : (s.push c m).mem = s.mem := by
  unfold State.push; split <;> simp

@[simp] theorem State.postReserved_mem (s : State) (c : Nat) (m : Msg) : (s.postReserved c m).mem = s.mem := by
  simp [State.postReserved]

@[simp] theorem State.complete_mem (s : State) (c t : Nat) (tag : BitVec 16) (p : Word) : (s.complete c t tag p).mem = s.mem := by
  simp [State.complete]

@[simp] theorem State.trace_mem (s : State) (c o w : Nat) (f : From) : (s.trace c o w f).mem = s.mem := by
  unfold State.trace; dsimp only; split <;> (try split) <;> simp

@[simp] theorem State.traceAll_mem (s : State) (c o n : Nat) (w : Write) (f : From) : (s.traceAll c o n w f).mem = s.mem := by
  unfold State.traceAll
  exact foldl_mem (fun s i => State.trace_mem s _ _ _ _) _ _

@[simp] theorem State.markFar_mem (s : State) (f : From) : (s.markFar f).mem = s.mem := by
  unfold State.markFar; split <;> simp

@[simp] theorem State.heal_mem (s : State) (l n : Nat) : (s.heal l n).mem = s.mem := rfl

@[simp] theorem State.dropMisses_mem (s : State) (c : Nat) (g : List Agent) : (s.dropMisses c g).mem = s.mem := rfl

@[simp] theorem State.squash_mem (s : State) (n : Nat) (g : List Agent) : (s.squash n g).mem = s.mem := by
  have h : ∀ (l : List Agent) (s : State), (l.foldl (fun s a => s.modCtx a Ctx.squash) s).mem = s.mem :=
    foldl_mem (fun _ _ => rfl)
  unfold State.squash
  dsimp only
  split
  · rw [State.dropMisses_mem, h]
  · split
    · rw [State.modCourse_mem, State.dropMisses_mem, h]
    · rw [State.dropMisses_mem, h]

@[simp] theorem State.squashHits_mem (s : State) (n : Nat) (ls : List Nat) (but : List Agent) :
    (s.squashHits n ls but).mem = s.mem := by
  unfold State.squashHits
  refine foldl_mem (fun s a => ?_) _ _
  split <;> simp

@[simp] theorem State.notify_mem (s : State) (c : Nat) (n : Notice) : (s.notify c n).mem = s.mem := by simp [State.notify]

@[simp] theorem State.dissolve_mem (s : State) (n : Nat) : (s.dissolve n).mem = s.mem := by
  have h : ∀ (l : List Nat) (s : State), (l.foldl (fun s n => s.modCore n fun k => { k with gang := none }) s).mem = s.mem :=
    foldl_mem (fun _ _ => rfl)
  unfold State.dissolve
  exact h _ _

@[simp] theorem State.loseMember_mem (s : State) (a : Agent) (d : Bool) : (s.loseMember a d).mem = s.mem := by
  unfold State.loseMember
  split
  · dsimp only; split
    · rfl
    · rw [State.dissolve_mem]; exact foldl_mem (fun _ _ => State.modCtx_mem _ _ _) _ _
  · rfl

@[simp] theorem State.freeWatches_mem (s : State) (c t : Nat) : (s.freeWatches c t).mem = s.mem := by
  simp [State.freeWatches]

@[simp] theorem State.dropToken_mem (s : State) (a : Agent) : (s.dropToken a).mem = s.mem := by
  unfold State.dropToken; split
  · split <;> simp
  · rfl

@[simp] theorem State.retireCtx_mem (s : State) (a : Agent) : (s.retireCtx a).mem = s.mem := by
  unfold State.retireCtx; simp only; split <;> simp

@[simp] theorem State.endCtx_mem (s : State) (a : Agent) : (s.endCtx a).mem = s.mem := by
  unfold State.endCtx; split
  · rfl
  · simp only; split <;> simp

@[simp] theorem State.writeBack_mem (s : State) (a : Agent) : (s.writeBack a).mem = s.mem := by
  unfold State.writeBack; split
  · simp only; split <;> simp
  · rfl

@[simp] theorem State.sink_mem (s o : State) (a : Agent) : (s.sink o a).mem = s.mem := by
  unfold State.sink; split
  · simp only [State.modCore_mem]
    exact foldl_mem (fun s r => State.modCtx_mem s _ _) _ _
  · rfl

@[simp] theorem State.cleanFile_mem (s : State) (a : Agent) : (s.cleanFile a).mem = s.mem := by
  unfold State.cleanFile; split <;> simp

@[simp] theorem State.deliver_mem (s : State) (a : Agent) (t : Trap) (e : Word) : (s.deliver a t e).mem = s.mem := by
  unfold State.deliver; simp only; split
  · simp
  · split <;> simp

@[simp] theorem State.badHeader_mem (s : State) (a : Agent) : (s.badHeader a).mem = s.mem := by
  unfold State.badHeader; simp only; split <;> simp

@[simp] theorem State.resumeCtx_mem (s : State) (a : Agent) : (s.resumeCtx a).mem = s.mem := by
  unfold State.resumeCtx; simp only
  repeat' split
  all_goals simp

@[simp] theorem State.writeStatusSv_mem (s : State) (a : Agent) (w c : Word) : (s.writeStatusSv a w c).mem = s.mem := by
  unfold State.writeStatusSv; simp only; split <;> simp

@[simp] theorem State.endSprint_mem (s : State) (n : Nat) : (s.endSprint n).mem = s.mem := by
  unfold State.endSprint; split
  · split <;> simp
  · rfl

@[simp] theorem State.writeReg_mem (s : State) (o : Nat) (w : Word) : (s.writeReg o w).mem = s.mem := by
  unfold State.writeReg
  split
  · rfl
  · split
    · rfl
    · split
      · unfold State.writeCadence; simp only; split <;> simp
      · unfold State.writeGap; simp only; split <;> simp
      · rfl

@[simp] theorem State.writeArea_mem (s : State) (c o : Nat) (w : Word) : (s.writeArea c o w).mem = s.mem := by
  unfold State.writeArea; simp only
  repeat' split
  all_goals simp

@[simp] theorem State.writeAreas_mem (s : State) (c o : Nat) (ws : List (Nat × Word)) : (s.writeAreas c o ws).mem = s.mem := by
  unfold State.writeAreas
  exact foldl_mem (fun s e => State.writeArea_mem s _ _ _) _ _

@[simp] theorem State.writeSaved_mem (s : State) (r : BitVec 16) (c o : Nat) (ws : List (Nat × Word)) :
    (s.writeSaved r c o ws).mem = s.mem := by
  simp [State.writeSaved]

@[simp] theorem State.sendStore_mem (s : State) (a : Agent) (w : Write) : (s.sendStore a w).mem = s.mem := by
  unfold State.sendStore; split <;> rfl

@[simp] theorem State.pump_mem (s : State) (a : Agent) : (s.pump a).mem = s.mem := by
  unfold State.pump
  exact foldl_mem (fun s w => State.sendStore_mem s a w) _ _

@[simp] theorem State.openChunk_mem (s : State) (a : Agent) : (s.openChunk a).mem = s.mem := by
  unfold State.openChunk; split
  · rfl
  · split
    · rfl
    · simp only; split
      · split <;> simp
      · simp

@[simp] theorem State.noteRead_mem (s : State) (a : Agent) (l n : Nat) : (s.noteRead a l n).mem = s.mem := by
  unfold State.noteRead; dsimp only; split <;> simp

@[simp] theorem State.touchCourse_mem (s : State) (a : Agent) (va : Word) : (s.touchCourse a va).mem = s.mem := by
  unfold State.touchCourse; split
  · simp only; split <;> simp
  · rfl

@[simp] theorem State.touchSpan_mem (s : State) (a : Agent) (va : Word) (n : Nat) : (s.touchSpan a va n).mem = s.mem := by
  unfold State.touchSpan
  exact foldl_mem (fun s i => by simp) _ _

@[simp] theorem State.touchTlb_mem (s : State) (a : Agent) (va : Word) : (s.touchTlb a va).mem = s.mem := by
  unfold State.touchTlb; split
  · simp only
    repeat' split
    all_goals simp
  · simp
  · rfl

@[simp] theorem State.parkMiss_mem (s : State) (a : Agent) (x : Access) (vas : List Word) : (s.parkMiss a x vas).mem = s.mem := by
  unfold State.parkMiss; simp only; split
  · simp only [State.modCtx_mem]; exact foldl_mem (fun _ _ => by simp) _ _
  · rfl

@[simp] theorem State.countDrop_mem (s : State) (a : Agent) : (s.countDrop a).mem = s.mem := by simp [State.countDrop]

@[simp] theorem State.freeDead_mem (s : State) (a : Agent) : (s.freeDead a).mem = s.mem := by
  unfold State.freeDead; split <;> simp

@[simp] theorem State.stall_mem (s : State) (a : Agent) : (s.stall a).mem = s.mem := rfl
@[simp] theorem State.park_mem (s : State) (a : Agent) (p : Park) : (s.park a p).mem = s.mem := rfl
@[simp] theorem State.retire_mem (s : State) (a : Agent) (i : Instr) (rs : List Result) : (s.retire a i rs).mem = s.mem := rfl
@[simp] theorem State.retireLive_mem (s : State) (a : Agent) (i : Instr) (l : Word) (rs : List Result) :
    (s.retireLive a i l rs).mem = s.mem := by unfold State.retireLive; simp only; split <;> simp
@[simp] theorem State.leave_mem (s : State) (a : Agent) (i : Instr) (pc : Word) (rs : List Result) :
    (s.leave a i pc rs).mem = s.mem := rfl
@[simp] theorem State.begin_mem (s : State) (a : Agent) (i : Instr) (n : BitVec 5) (l : W32) : (s.begin a i n l).mem = s.mem := rfl
@[simp] theorem State.follow_mem (s : State) (a : Agent) (i : Instr) (l : Lead) : (s.follow a i l).mem = s.mem := rfl
@[simp] theorem State.skip_mem (s : State) (a : Agent) (i : Instr) : (s.skip a i).mem = s.mem := by simp [State.skip]

/-! ### Operations that write memory -/

theorem State.markPiece_wf (c o : Nat) : KeepsWf (·.markPiece c o) := by
  intro s h
  simp only [State.markPiece]; split
  · exact h
  · exact Memory.wf_clear h _ _

theorem State.journalLine_mem (s : State) (c l : Nat) : (s.journalLine c l).mem = s.mem := by
  unfold State.journalLine; simp only; split
  · rfl
  · split <;> rfl

theorem State.touchLines_wf (c o n : Nat) : KeepsWf (·.touchLines c o n) := by
  intro s h
  unfold State.touchLines
  refine foldl_wf (fun i s hs => ?_) _ s h
  simp only [State.journalLine_mem]
  exact State.markPiece_wf c _ s hs

/-- Landing a write at its home keeps the canonical form. -/
theorem State.land_wf (w : Write) (f : From) (but : List Agent) : KeepsWf (·.land w f but) := by
  intro s h
  have told : ∀ (now : Nat → Bool) (ls : List Nat) (s : State), (ls.foldl (State.reportLine now) s).mem = s.mem :=
    fun now ls s => foldl_mem (fun s l => State.reportLine_mem now s l) ls s
  simp only [State.land]
  split
  · exact h
  · split
    · split
      · simp only [State.squashHits_mem, told, State.traceAll_mem, State.heal_mem]
        exact Memory.wf_write _ _ (State.touchLines_wf _ _ _ s h)
      · simpa only [told, State.traceAll_mem, State.writeAreas_mem] using h
    · simpa only [told, State.writeReg_mem] using h
    · simp only [told, State.heal_mem]; exact Memory.wf_write _ _ h
    · simp only [told, State.heal_mem]; exact Memory.wf_write _ _ h
    · split
      · simpa only [told, State.markFar_mem, State.heal_mem, State.writeSaved_mem] using h
      · simp only [told, State.ask_mem, State.heal_mem, State.markFar_mem]; exact Memory.wf_write _ _ h
    all_goals simp only [told, State.heal_mem, State.markFar_mem]; exact Memory.wf_write _ _ h

theorem State.commitOne_wf (but : List Agent) (a : Agent) : KeepsWf (·.commitOne but a) := by
  intro s h
  simp only [State.commitOne, State.freeDead_mem, State.modCtx_mem]
  have hf : ∀ (l : List Write) (s : State), (l.foldl (fun s w => s.sendStore a w) s).mem = s.mem :=
    foldl_mem (fun s w => State.sendStore_mem s a w)
  rw [hf]
  exact foldl_wf (fun w s hs => State.land_wf w _ but s hs) _ s h

/-- Committing a chunk keeps the canonical form. -/
theorem State.commit_wf (a : Agent) : KeepsWf (·.commit a) := by
  intro s h
  simp only [State.commit]
  rw [foldl_mem (fun s b => State.dropToken_mem s b)]
  exact foldl_wf (fun b => State.commitOne_wf _ b) _ s h

theorem State.close_wf (a : Agent) : KeepsWf (·.close a) := by
  intro s h
  simp only [State.close]; split
  · exact State.commit_wf a s h
  · exact h

/-- A fault that every member of a gang takes keeps the canonical form. -/
theorem State.raiseAll_wf (a : Agent) (t : Trap) (len : Nat) : KeepsWf (·.raiseAll a t len) := by
  intro s h
  simp only [State.raiseAll]
  split
  · simpa using h
  · rw [foldl_mem (fun s b => State.deliver_mem s b t _)]
    have hc := State.close_wf a s h
    repeat' split
    all_goals first | exact hc | simpa using hc

/-- Taking a trap at an instruction keeps the canonical form. -/
theorem State.raise_wf (a : Agent) (t : Trap) (len : Nat) : KeepsWf (·.raise a t len) := by
  intro s h
  simp only [State.raise]
  split
  · exact State.raiseAll_wf a t len s h
  · split
    · simpa using h
    · split
      · simpa using h
      · simpa using State.close_wf a s h

theorem State.store_wf (a : Agent) (w : Write) : KeepsWf (·.store a w) := by
  intro s h
  simp only [State.store]; split
  · simpa using h
  · split
    · exact State.land_wf w _ _ s h
    · simpa using h

/-- The state a result of an operation carries keeps the canonical form. -/
def Res.wf : Res → Prop
  | .done s _ | .loop s _ _ | .jump s _ _ | .mask s _ _ | .leaves s | .wait s => Memory.wf s.mem = true
  | .trap _ => True

/-- Issuing an instruction keeps the canonical form where its operation does. -/
theorem State.run_wf (i : Instr) (body : State → Res) (hb : ∀ s, Memory.wf s.mem = true → (body s).wf) :
    KeepsWf (·.run i body) := by
  intro s h
  simp only [State.run]
  split
  · exact State.raise_wf _ _ _ s h
  split
  · simpa using h
  split
  · exact State.raise_wf _ _ _ s h
  split
  · simpa using h
  have h1 : Memory.wf (if i.closes = true then s.close s.cur else s.openChunk s.cur).mem = true := by
    split
    · exact State.close_wf _ s h
    · simpa using h
  revert h1
  generalize (if i.closes = true then s.close s.cur else s.openChunk s.cur) = s1
  intro h1
  split
  · split
    · simpa using State.close_wf _ s1 h1
    · simpa using h1
  split
  · exact State.raise_wf _ _ _ s h
  split
  · simpa using h1
  have hr := hb s1 h1
  revert hr
  cases body s1 <;> simp only [Res.wf, State.retire_mem, State.leave_mem, State.begin_mem, State.retireLive_mem, imp_self]
  intro _
  exact State.raise_wf _ _ _ s h

/-- An issue answers a next state, and that one keeps the canonical form where the operation does. -/
theorem issue_wf {i : Instr} {body : State → Res} (hb : ∀ s, Memory.wf s.mem = true → (body s).wf) {s t : State}
    (h : issue i s body = .next t) (hs : Memory.wf s.mem = true) : Memory.wf t.mem = true := by
  simp only [issue, Host.Outcome.next.injEq] at h
  subst h
  exact State.run_wf i body hb s hs

/-- Memory after reset is in its canonical form. -/
theorem State.reset_mem_wf : Memory.wf State.reset.mem = true := rfl

end Machine
end Sys2Proof
end

