-- ==== Sys2Proof/Laws/Issue.lean ====
section
/-! SUPPORT. What an instruction that passes the checks of R47 does, once for every form: its outcome is its operation's. -/

namespace Sys2Proof.Machine

/-- The parts of `State.performs`. -/
theorem State.performs_iff (s : State) (i : Instr) : s.performs i = true ↔
    s.illegal s.cur i = false ∧ s.guardMask s.cur i ≠ 0 ∧ s.denied s.cur i = none ∧
      (i.closes = true → s.canClose s.cur = true) ∧
      (∀ j ∈ (s.ctxAt i).pops i, (s.ctxAt i).popReady j = true ∧ (s.ctxAt i).popFault j = none) ∧
      (i.transfer = true → s.lead = none) := by
  simp only [State.performs, Bool.and_eq_true, Bool.not_eq_true', bne_iff_ne, ne_eq, Option.isNone_iff_eq_none,
    Bool.or_eq_true, List.all_eq_true, and_assoc]
  cases hc : i.closes <;> cases ht : i.transfer <;> cases hl : s.lead <;> simp

/-- What follows the checks: the operation's outcome. -/
def State.conclude (s : State) (i : Instr) : Res → State
  | .done t rs => t.retire s.cur i rs
  | .jump t pc rs => t.leave s.cur i pc rs
  | .loop t n left => t.begin s.cur i n left
  | .mask t live rs => t.retireLive s.cur i live rs
  | .leaves t => t
  | .trap tr => s.raise s.cur tr i.bytes
  | .wait t => t

/-- An instruction that passes the checks of R47 has its operation's outcome. -/
theorem State.run_performs {s : State} {i : Instr} (h : s.performs i = true) (body : State → Res) :
    s.run i body = s.conclude i (body (s.before i)) := by
  obtain ⟨h1, h2, h3, h5, h6, h7⟩ := (State.performs_iff s i).1 h
  have hb : (if i.closes = true then s.close s.cur else s.openChunk s.cur) = s.before i := rfl
  have h5' : (i.closes && !s.canClose s.cur) = false := by
    cases hc : i.closes
    · rfl
    · simp [h5 hc]
  have h6a : (((s.before i).ctx s.cur).pops i).find? (fun j => !((s.before i).ctx s.cur).popReady j) = none := by
    rw [List.find?_eq_none]
    intro j hj
    have := (h6 j hj).1
    simp only [State.ctxAt] at this
    simp [this]
  have h6b : (((s.before i).ctx s.cur).pops i).findSome? ((s.before i).ctx s.cur).popFault = none := by
    rw [List.findSome?_eq_none_iff]
    exact fun j hj => (h6 j hj).2
  have h7' : (if i.transfer = true then s.lead else none) = none := by
    split
    · exact h7 ‹_›
    · rfl
  simp only [State.run, h1, h2, h3, h5', hb, h6a, h6b, h7', Bool.false_eq_true, if_false]
  cases body (s.before i) <;> rfl

/-- The same for the answer. -/
theorem issue_performs {s : State} {i : Instr} (h : s.performs i = true) (body : State → Res) :
    issue i s body = .next (s.conclude i (body (s.before i))) :=
  congrArg _ (State.run_performs h body)

end Sys2Proof.Machine
end

