-- ==== Sys2Proof/Laws/Cur.lean ====
section
/-! SUPPORT. The shared operations leave the acting agent as it is, and what a form that writes one register gives. -/

namespace Sys2Proof.Machine

theorem foldl_cur {α : Type} {f : State → α → State} (h : ∀ s x, (f s x).cur = s.cur) :
    ∀ (l : List α) (s : State), (l.foldl f s).cur = s.cur
  | [], _ => rfl
  | x :: l, s => (foldl_cur h l (f s x)).trans (h s x)


@[simp] theorem State.setWatches_cur (s : State) (c : Nat) (ws : List (Nat × Watch)) : (s.setWatches c ws).cur = s.cur := by
  unfold State.setWatches; split
  · simp
  · repeat' split
    all_goals rfl

@[simp] theorem State.latchWhere_cur (s : State) (c : Nat) (p : Nat → Watch → Bool) (st : Nat) :
    (s.latchWhere c p st).cur = s.cur := by simp [State.latchWhere]

@[simp] theorem State.reportLine_cur (now : Nat → Bool) (s : State) (l : Nat) : (s.reportLine now l).cur = s.cur := by
  unfold State.reportLine
  exact foldl_cur (fun s r => State.latchWhere_cur s _ _ _) _ _

@[simp] theorem State.regWritten_cur (s : State) (o : Nat) : (s.regWritten o).cur = s.cur := by simp [State.regWritten]

@[simp] theorem State.ask_cur (s : State) (c : Option Nat) (l n : Nat) : (s.ask c l n).cur = s.cur := by
  unfold State.ask
  repeat' split
  all_goals rfl

@[simp] theorem State.push_cur (s : State) (c : Nat) (m : Msg) : (s.push c m).cur = s.cur := by
  unfold State.push; split <;> simp

@[simp] theorem State.postReserved_cur (s : State) (c : Nat) (m : Msg) : (s.postReserved c m).cur = s.cur := by
  simp [State.postReserved]

@[simp] theorem State.complete_cur (s : State) (c t : Nat) (tag : BitVec 16) (p : Word) : (s.complete c t tag p).cur = s.cur := by
  simp [State.complete]

@[simp] theorem State.trace_cur (s : State) (c o w : Nat) (f : From) : (s.trace c o w f).cur = s.cur := by
  unfold State.trace; dsimp only; split <;> (try split) <;> simp

@[simp] theorem State.traceAll_cur (s : State) (c o n : Nat) (w : Write) (f : From) : (s.traceAll c o n w f).cur = s.cur := by
  unfold State.traceAll
  exact foldl_cur (fun s i => State.trace_cur s _ _ _ _) _ _

@[simp] theorem State.markFar_cur (s : State) (f : From) : (s.markFar f).cur = s.cur := by
  unfold State.markFar; split <;> simp

@[simp] theorem State.heal_cur (s : State) (l n : Nat) : (s.heal l n).cur = s.cur := rfl

@[simp] theorem State.dropMisses_cur (s : State) (c : Nat) (g : List Agent) : (s.dropMisses c g).cur = s.cur := rfl

@[simp] theorem State.squash_cur (s : State) (n : Nat) (g : List Agent) : (s.squash n g).cur = s.cur := by
  have h : ∀ (l : List Agent) (s : State), (l.foldl (fun s a => s.modCtx a Ctx.squash) s).cur = s.cur :=
    foldl_cur (fun _ _ => rfl)
  unfold State.squash
  dsimp only
  split
  · rw [State.dropMisses_cur, h]
  · split
    · rw [State.modCourse_cur, State.dropMisses_cur, h]
    · rw [State.dropMisses_cur, h]

@[simp] theorem State.squashHits_cur (s : State) (n : Nat) (ls : List Nat) (but : List Agent) :
    (s.squashHits n ls but).cur = s.cur := by
  unfold State.squashHits
  refine foldl_cur (fun s a => ?_) _ _
  split <;> simp

@[simp] theorem State.notify_cur (s : State) (c : Nat) (n : Notice) : (s.notify c n).cur = s.cur := by simp [State.notify]

@[simp] theorem State.dissolve_cur (s : State) (n : Nat) : (s.dissolve n).cur = s.cur := by
  have h : ∀ (l : List Nat) (s : State), (l.foldl (fun s n => s.modCore n fun k => { k with gang := none }) s).cur = s.cur :=
    foldl_cur (fun _ _ => rfl)
  unfold State.dissolve
  exact h _ _

@[simp] theorem State.loseMember_cur (s : State) (a : Agent) (d : Bool) : (s.loseMember a d).cur = s.cur := by
  unfold State.loseMember
  split
  · dsimp only; split
    · rfl
    · rw [State.dissolve_cur]; exact foldl_cur (fun _ _ => State.modCtx_cur _ _ _) _ _
  · rfl

@[simp] theorem State.freeWatches_cur (s : State) (c t : Nat) : (s.freeWatches c t).cur = s.cur := by
  simp [State.freeWatches]

@[simp] theorem State.dropToken_cur (s : State) (a : Agent) : (s.dropToken a).cur = s.cur := by
  unfold State.dropToken; split
  · split <;> simp
  · rfl

@[simp] theorem State.retireCtx_cur (s : State) (a : Agent) : (s.retireCtx a).cur = s.cur := by
  unfold State.retireCtx; simp only; split <;> simp

@[simp] theorem State.endCtx_cur (s : State) (a : Agent) : (s.endCtx a).cur = s.cur := by
  unfold State.endCtx; split
  · rfl
  · simp only; split <;> simp

@[simp] theorem State.writeBack_cur (s : State) (a : Agent) : (s.writeBack a).cur = s.cur := by
  unfold State.writeBack; split
  · simp only; split <;> simp
  · rfl

@[simp] theorem State.sink_cur (s o : State) (a : Agent) : (s.sink o a).cur = s.cur := by
  unfold State.sink; split
  · simp only [State.modCore_cur]
    exact foldl_cur (fun s r => State.modCtx_cur s _ _) _ _
  · rfl

@[simp] theorem State.cleanFile_cur (s : State) (a : Agent) : (s.cleanFile a).cur = s.cur := by
  unfold State.cleanFile; split <;> simp

@[simp] theorem State.deliver_cur (s : State) (a : Agent) (t : Trap) (e : Word) : (s.deliver a t e).cur = s.cur := by
  unfold State.deliver; simp only; split
  · simp
  · split <;> simp

@[simp] theorem State.badHeader_cur (s : State) (a : Agent) : (s.badHeader a).cur = s.cur := by
  unfold State.badHeader; simp only; split <;> simp

@[simp] theorem State.resumeCtx_cur (s : State) (a : Agent) : (s.resumeCtx a).cur = s.cur := by
  unfold State.resumeCtx; simp only
  repeat' split
  all_goals simp

@[simp] theorem State.writeStatusSv_cur (s : State) (a : Agent) (w c : Word) : (s.writeStatusSv a w c).cur = s.cur := by
  unfold State.writeStatusSv; simp only; split <;> simp

@[simp] theorem State.endSprint_cur (s : State) (n : Nat) : (s.endSprint n).cur = s.cur := by
  unfold State.endSprint; split
  · split <;> simp
  · rfl

@[simp] theorem State.writeReg_cur (s : State) (o : Nat) (w : Word) : (s.writeReg o w).cur = s.cur := by
  unfold State.writeReg
  split
  · rfl
  · split
    · rfl
    · split
      · unfold State.writeCadence; simp only; split <;> simp
      · unfold State.writeGap; simp only; split <;> simp
      · rfl

@[simp] theorem State.writeArea_cur (s : State) (c o : Nat) (w : Word) : (s.writeArea c o w).cur = s.cur := by
  unfold State.writeArea; simp only
  repeat' split
  all_goals simp

@[simp] theorem State.writeAreas_cur (s : State) (c o : Nat) (ws : List (Nat × Word)) : (s.writeAreas c o ws).cur = s.cur := by
  unfold State.writeAreas
  exact foldl_cur (fun s e => State.writeArea_cur s _ _ _) _ _

@[simp] theorem State.writeSaved_cur (s : State) (r : BitVec 16) (c o : Nat) (ws : List (Nat × Word)) :
    (s.writeSaved r c o ws).cur = s.cur := by
  simp [State.writeSaved]

@[simp] theorem State.sendStore_cur (s : State) (a : Agent) (w : Write) : (s.sendStore a w).cur = s.cur := by
  unfold State.sendStore; split <;> rfl

@[simp] theorem State.pump_cur (s : State) (a : Agent) : (s.pump a).cur = s.cur := by
  unfold State.pump
  exact foldl_cur (fun s w => State.sendStore_cur s a w) _ _

@[simp] theorem State.openChunk_cur (s : State) (a : Agent) : (s.openChunk a).cur = s.cur := by
  unfold State.openChunk; split
  · rfl
  · split
    · rfl
    · simp only; split
      · split <;> simp
      · simp

@[simp] theorem State.noteRead_cur (s : State) (a : Agent) (l n : Nat) : (s.noteRead a l n).cur = s.cur := by
  unfold State.noteRead; dsimp only; split <;> simp

@[simp] theorem State.touchCourse_cur (s : State) (a : Agent) (va : Word) : (s.touchCourse a va).cur = s.cur := by
  unfold State.touchCourse; split
  · simp only; split <;> simp
  · rfl

@[simp] theorem State.touchSpan_cur (s : State) (a : Agent) (va : Word) (n : Nat) : (s.touchSpan a va n).cur = s.cur := by
  unfold State.touchSpan
  exact foldl_cur (fun s i => by simp) _ _

@[simp] theorem State.touchTlb_cur (s : State) (a : Agent) (va : Word) : (s.touchTlb a va).cur = s.cur := by
  unfold State.touchTlb; split
  · simp only
    repeat' split
    all_goals simp
  · simp
  · rfl

@[simp] theorem State.parkMiss_cur (s : State) (a : Agent) (x : Access) (vas : List Word) : (s.parkMiss a x vas).cur = s.cur := by
  unfold State.parkMiss; simp only; split
  · simp only [State.modCtx_cur]; exact foldl_cur (fun _ _ => by simp) _ _
  · rfl

@[simp] theorem State.countDrop_cur (s : State) (a : Agent) : (s.countDrop a).cur = s.cur := by simp [State.countDrop]

@[simp] theorem State.freeDead_cur (s : State) (a : Agent) : (s.freeDead a).cur = s.cur := by
  unfold State.freeDead; split <;> simp

@[simp] theorem State.stall_cur (s : State) (a : Agent) : (s.stall a).cur = s.cur := rfl
@[simp] theorem State.park_cur (s : State) (a : Agent) (p : Park) : (s.park a p).cur = s.cur := rfl
@[simp] theorem State.retire_cur (s : State) (a : Agent) (i : Instr) (rs : List Result) : (s.retire a i rs).cur = s.cur := rfl
@[simp] theorem State.retireLive_cur (s : State) (a : Agent) (i : Instr) (l : Word) (rs : List Result) :
    (s.retireLive a i l rs).cur = s.cur := by unfold State.retireLive; simp only; split <;> simp
@[simp] theorem State.leave_cur (s : State) (a : Agent) (i : Instr) (pc : Word) (rs : List Result) :
    (s.leave a i pc rs).cur = s.cur := rfl
@[simp] theorem State.begin_cur (s : State) (a : Agent) (i : Instr) (n : BitVec 5) (l : W32) : (s.begin a i n l).cur = s.cur := rfl
@[simp] theorem State.follow_cur (s : State) (a : Agent) (i : Instr) (l : Lead) : (s.follow a i l).cur = s.cur := rfl
@[simp] theorem State.skip_cur (s : State) (a : Agent) (i : Instr) : (s.skip a i).cur = s.cur := by simp [State.skip]

@[simp] theorem State.markPiece_cur (s : State) (c o : Nat) : (s.markPiece c o).cur = s.cur := by
  simp only [State.markPiece]; split <;> rfl

@[simp] theorem State.journalLine_cur (s : State) (c l : Nat) : (s.journalLine c l).cur = s.cur := by
  unfold State.journalLine; simp only; split
  · rfl
  · split <;> rfl

@[simp] theorem State.touchLines_cur (s : State) (c o n : Nat) : (s.touchLines c o n).cur = s.cur := by
  unfold State.touchLines
  exact foldl_cur (fun s i => by simp) _ _

@[simp] theorem State.land_cur (s : State) (w : Write) (f : From) (but : List Agent) : (s.land w f but).cur = s.cur := by
  have told : ∀ (now : Nat → Bool) (ls : List Nat) (s : State), (ls.foldl (State.reportLine now) s).cur = s.cur :=
    fun now ls s => foldl_cur (fun s l => State.reportLine_cur now s l) ls s
  simp only [State.land]
  repeat' split
  all_goals simp [told]

@[simp] theorem State.commitOne_cur (s : State) (but : List Agent) (a : Agent) : (s.commitOne but a).cur = s.cur := by
  have hf : ∀ (l : List Write) (s : State), (l.foldl (fun s w => s.sendStore a w) s).cur = s.cur :=
    foldl_cur (fun s w => State.sendStore_cur s a w)
  simp only [State.commitOne, State.freeDead_cur, State.modCtx_cur, hf]
  exact foldl_cur (fun s w => State.land_cur s w _ but) _ s

@[simp] theorem State.commit_cur (s : State) (a : Agent) : (s.commit a).cur = s.cur := by
  simp only [State.commit]
  rw [foldl_cur (fun s b => State.dropToken_cur s b)]
  exact foldl_cur (fun s b => State.commitOne_cur s _ b) _ s

@[simp] theorem State.close_cur (s : State) (a : Agent) : (s.close a).cur = s.cur := by
  simp only [State.close]; split <;> simp

/-- The agent that acts is the same where the operation is performed. -/
@[simp] theorem State.before_cur (s : State) (i : Instr) : (s.before i).cur = s.cur := by
  simp only [State.before]; split <;> simp

/-- A class 01 form whose operation writes one v register. -/
theorem givesV_of {i : Instr} {d : Reg} {la : Nat} {f : Ctx → Nat → W32} {op : Word → State → Res}
    (h : ∀ s, exec i s = issueV i s op)
    (hop : ∀ m s, op m s = .done s [.toV d.val m (lanesOf (f (s.ctx s.cur))) la]) :
    GivesV i d la f := by
  intro s hs
  rw [h, issueV, issue_performs hs, hop, State.before_cur]
  rfl

/-- An instruction whose meaning is `issueX` writes that value to its register. -/
theorem givesX_of {i : Instr} {d : Reg} {la : Nat} {v : Ctx → Word} (h : ∀ s, exec i s = issueX i d la s v) :
    GivesX i d la v := by
  intro s hs
  rw [h, issueX, issue_performs hs, State.before_cur]
  rfl

/-- Two ways to write one value. -/
theorem GivesX.congr {i : Instr} {d : Reg} {la : Nat} {v w : Ctx → Word} (h : GivesX i d la v) (e : ∀ c, v c = w c) :
    GivesX i d la w := by
  rw [funext e] at h
  exact h

end Sys2Proof.Machine
end

