-- ==== Sys2Proof/Tests/Slice0.lean ====
section
/-! SUPPORT. Tests: ill-formed terms, words written out from the encodings of spec/, single steps with results worked from the
rules, and a state and operands that meet the hypotheses of each statement. -/

section

set_option Elab.async false

open Sys2Proof Sys2Proof.Machine

/-! ### Well-formedness: a term that each check refuses -/

theorem test_wf_refuses : ([.fadd .rna 1 2 (.reg 3) 0, .vfdiv .rna 1 2 (.v 3) 0, .fcvt .i32 .n32 .rne 1 2,
    .vcvt .i64 .f32 .rne 1 2 0, .vcvt .f32 .dx4 .rtz 1 2 0, .rfwd true 1 3 0 0, .vcmp .eq 0 1 (.v 2) 0,
    .vfcmp .eq 0 1 (.v 2) 0, .pset 0 1 0, .plog .and 0 1 2 0, .plog .not 1 2 3 0,
    .pairWord 0 ⟨.clz, 1, 2, .reg 3⟩ (.mov 1 2), .pairWord 0 ⟨.add, 1, 2, .reg 3⟩ (.bcast 1 (.lit 5)),
    .pairWord 0 ⟨.add, 1, 2, .reg 3⟩ (.pset 0 1),
    .smodeX 0 1 .i64 ⟨1, 0, 0, 1, 1, 0, 0, 8, 0, 0, 0⟩ 0, .smodeV 0 1 ⟨1, 2, 0, 1, 1, 1, 1, 8, 0, 0, 0⟩ 0,
    .recvWake (.ctx 256 0 0), .recvWake (.ctx 0 8 0),
    .chunkCommit (.ctx 0 0 11), .chunkCommit (.quoin 256), .spillRefill 2048, .arrayAbandon 256, .launch 65 0 [],
    .cadenceWrite 256 1, .registerWrite (.target 65) 0] : List Instr).all (fun i => !i.wf) = true := by
  decide +kernel

theorem test_wf_admits : ([.fadd .rtz 1 2 (.reg 3) 0, .fcvt .i32 .f32 .rna 1 2, .vcvt .f32 .dx4 .rne 1 2 0, .rfwd true 1 2 0 0,
    .rfwd false 1 3 0 0, .pset 7 1 0, .plog .not 1 2 0 0, .smodeX 0 1 .i64 ⟨1, 3, 0, 1, 1, 1, 1, 8, 8, 8, 8⟩ 0,
    .copy 1 2 3 ⟨1, 1, 3, 4, 1, 0, 0, 1, 0, 0, 1, 0, 0, 0, 0, 63⟩ 0, .recvWake (.ctx 255 7 10), .chunkCommit .plinth,
    .launch 64 0 []] : List Instr).all Instr.wf = true := by decide +kernel

/-! ### Decoding: words of the manual's own examples -/

/-- Whether a word with its literals decodes to an instruction. -/
def wordIs (w : W32) (ws : List W32) (i : Instr) : Bool :=
  match decodeWords w ws with
  | .ok j => decide (j = i)
  | .error _ => false

/-- Whether a word is refused. -/
def wordRefused (w : W32) (ws : List W32) : Bool :=
  match decodeWords w ws with
  | .ok _ => false
  | .error _ => true

/-- R38, R40, R195, R63, R72: class 00. -/
theorem test_decode_class00 : (wordIs 0x01380110 [0x40200000] (.add 7 0 (.lit 0x40200000)) &&
    wordIs 0x2A31CA01 [] (.fcvt .i32 .f32 .rtz 6 7) && wordIs 0x38280005 [] (.csrr 5 5) &&
    wordIs 0x3C205802 [] (.ld .i64 .plain 4 1 none 2) && wordIs 0x3D289C10 [8] (.st .i64 .rel 5 2 (some 8)) &&
    wordIs 0x3D590000 [] (.st .i8 .plain 11 4 none) && wordIs 0x1B294040 [] (.sext .b16 5 5)) = true := by decide +kernel

/-- R44, R82, R110, R112, R197: class 01. -/
theorem test_decode_class01 : (wordIs 0x6A190818 [] (.vcvt .i32 .f32 .rtz 3 4 0) && wordIs 0x6B307000 [] (.vquant .dx4 6 1 0) &&
    wordIs 0x6C288004 [] (.vexp2 5 (.v 2) 4 0) && wordIs 0x70084000 [] (.vld 1 1 none 0 0) &&
    wordIs 0x73108000 [] (.vst 2 2 none 0) && wordIs 0x72298EC1 [] (.vldx 5 6 7 none 1 3) &&
    wordIs 0x70190010 [4] (.vld 3 4 (some 4) 0 0)) = true := by decide +kernel

/-- R45, R201 to R205, R229: class 10. -/
theorem test_decode_class10 : (wordIs 0x8B298E10 [] (.amo .add .i64 5 6 7 0) && wordIs 0x8C298E00 [] (.cas .i32 5 6 7 0) &&
    wordIs 0x8D018E01 [] (.faddx 6 (.v 7) 0) && wordIs 0x8D018E00 [] (.faddx 6 (.x 7) 0) &&
    wordIs 0x8E498002 [] (.cellrd 9 6 2 0) && wordIs 0x8F000001 [] (.fence .course 0) &&
    wordIs 0x8F0000C3 [] (.fence .device 3) && wordIs 0x87000080 [] (.ecall 2) && wordIs 0x89000000 [] (.eret 0)) = true := by
  decide +kernel

/-- R234, R244, R246, R265, R268, R271: engines, messages, streams. -/
theorem test_decode_engines : (wordIs 0x94000600 [] (.swstepImmediate 3 0) && wordIs 0x94000A01 [] (.swstepVector 5 0) &&
    wordIs 0x95000C02 [] (.swait (.wake 6) 0) && wordIs 0x95000003 [] (.swait .done 0) &&
    wordIs 0x9600C800 [] (.swake 3 (.x 4) 0) && wordIs 0x9600C801 [] (.swake 3 (.v 4) 0) &&
    wordIs 0x9700CA01 [] (.skipset true 3 5 0) && wordIs 0x9348C000 [] (.sweep 9 3 0) &&
    wordIs 0x997C0000 [] (.recv 15 16 0) && wordIs 0x9B389200 [] (.mon 7 2 9 0) &&
    wordIs 0x9EC00000 [] (.sexit false 0 0) && wordIs 0x9EC80200 [] (.sexit true 1 0)) = true := by decide +kernel

/-- R42: the pair of R14's fragment. -/
theorem test_decode_pair : (match decodeWords 0xC14A4260 [0x41109008] with | .ok (.pairWord ..) => true | _ => false) = true := by
  decide +kernel

/-- R45: majors 0x00 and 0x30 to 0x3F of class 10 are unassigned; R169: a reserved field that is not zero. -/
theorem test_decode_refuses : ([0x80000000, 0xB0000000, 0xBF000000, 0x87000001] : List W32).all (wordRefused · []) = true := by
  decide +kernel

/-- The bits of a table row, read by the same decoder. -/
theorem test_decode_table : decodeTableWord 64 0x4020000001380110 = some (.add 7 0 (.lit 0x40200000)) ∧
    decodeTableWord 32 0x997C0000 = some (.recv 15 16 0) := by
  refine ⟨?_, ?_⟩ <;> decide +kernel

/-! ### States for the tests -/

/-- A region of one course whose context 0 runs on core 0 of course 0. -/
def wit : State := { State.reset.withFetchWord 0 0 with agenda := [] }

/-- Sets x registers of the acting context. -/
def setXs (rs : List (Nat × Word)) (s : State) : State :=
  s.modCtx s.cur fun c => rs.foldl (fun c r => c.setX r.1 r.2) c

/-- Address of a byte of core 0's slice through window 0. -/
def own (off : Nat) : Word := BitVec.ofNat 64 (0x400000000000 + off)

/-- Location of a byte of core 0's slice. -/
def at0 (off : Nat) : Nat := Home.loc (.slice 0 off)

/-- The acting context in its program handler. -/
def inHandler (s : State) : State := s.modCtx s.cur fun c => { c with intrap := true }

/-- The quoin of course 0 acts. -/
def quoin (s : State) : State := { s with cur := .quoin 0 }

/-- A helper of a sweep acts, with two lanes to step. -/
def routine (s : State) : State :=
  let s := { s with cur := .ctx 0 0 1 }
  let s := s.modCtx s.cur fun c => { c with run := 0, origin := .sweep, arch := { c.arch with pc := 0x1000 } }
  s.modCore 0 fun k => { k with
    slots := [(0, ⟨own 0x10000, own 0x20000, own 0x30000, own 0x31000, 64, 0, 1, 0⟩)]
    sweep := some ⟨0, 1, 0, [0x1000], 1, some 0, [], List.replicate 64 0, [], 0, 3, 0, [], some (0, 3), false, [], 0, 0, 0, none⟩ }

/-- The exchange phase. -/
def inExchange (s : State) : State := s.modCtx s.cur fun c => { c with exchange := true }

/-- A helper acts. -/
def helper (s : State) : State :=
  ({ s with cur := .ctx 0 0 10 } : State).modCtx (.ctx 0 0 10) fun c => { c with run := 0, origin := .hstart, arch := { c.arch with pc := 0x1000 } }

/-- Whether an instruction leaves a state. -/
def gives (i : Instr) (s t : State) : Bool := match exec i s with | .next u => decide (u = t) | _ => false

/-- A witness of a clause `Does`: the instruction is performed, the condition holds, and its conclusion is what `exec` answers. -/
def does (s : State) (i : Instr) (c : State → Bool) (f : State → State) (rs : State → List Result := fun _ => []) : Bool :=
  s.performs i && c (s.before i) && gives i s ((f (s.before i)).retire s.cur i (rs (s.before i)))

/-- A witness of a clause `Leaves`. -/
def leaves (s : State) (i : Instr) (c : State → Bool) (f : State → State) : Bool :=
  s.performs i && c (s.before i) && gives i s (f (s.before i))

/-- A witness of a clause `Raises`. -/
def raises (s : State) (i : Instr) (c : State → Bool) (x : State → Trap) : Bool :=
  s.performs i && c (s.before i) && gives i s (s.raise s.cur (x (s.before i)) i.bytes)

/-- A witness of a clause `Denies`. -/
def denies (s : State) (i : Instr) (c : State → Bool) (x : State → Trap) : Bool :=
  !s.illegal s.cur i && s.guardMask s.cur i != 0 && ((s.ctx s.cur).streamDst i).isNone && i.stream?.isNone && c s &&
    gives i s (s.raise s.cur (x s) i.bytes)

/-- The test state with an instruction's first word at the pc and its issue next. -/
def next (w : Nat) : State := State.reset.withFetchWord 32 w

/-! ### Every form is performed somewhere: the hypotheses of the result statements -/

/-- Class 00 forms with their operands at boundary values: literal, immediate and register operands, x0, the greatest
lookahead. -/
def forms00 : List Instr :=
  [.add 1 2 (.reg 3), .sub 0 2 (.imm 31), .and 1 2 (.lit 5), .or 1 2 (.lit2 5 6), .xor 31 31 (.reg 31), .andn 1 2 (.reg 3),
   .sll 1 2 (.imm 16), .srl 1 2 (.reg 3), .sra 1 2 (.reg 3), .rol 1 2 (.reg 3), .slt 1 2 (.reg 3), .sltn 1 2 (.reg 3),
   .min 1 2 (.reg 3), .max 1 2 (.reg 3), .minn 1 2 (.reg 3), .maxn 1 2 (.reg 3), .mul 1 2 (.reg 3) 15, .mulh 1 2 (.reg 3) 0,
   .mulhn 1 2 (.reg 3) 0, .div 1 2 (.reg 3) 15, .divn 1 2 (.reg 3) 0, .rem 1 2 (.reg 3) 0, .remn 1 2 (.reg 3) 0, .clz 1 2, .ctz 1 2,
   .popc 1 2, .sext .b8 1 2, .zext .b32 1 2, .bext 1 2 (.reg 3), .bins 1 2 (.reg 3), .sel 1 2 (.reg 3), .lim true 1 2 (.reg 3),
   .lim false 1 2 (.reg 3), .addpc 1 (.lit 8), .lea 1 2 (.reg 3) 3] ++
  [.fadd .rtz 1 2 (.reg 3) 15, .fsub .rne 1 2 (.lit 5) 0, .fmul .rne 1 2 (.reg 3) 0, .fma .rne 1 2 (.reg 3) 0,
   .fmin 1 2 (.reg 3) 0, .fmax 1 2 (.reg 3) 0, .fcmp .eq 1 2 (.reg 3) 0, .fcvt .i32 .f32 .rna 1 2, .fclass 1 (.reg 2) 0,
   .fsgn .neg 1 2 (.reg 3) 0, .beq 1 (.reg 2) (.near 4) .none, .bne 1 (.imm 31) (.far 9) .taken, .blt 1 (.reg 2) (.near 4) .none,
   .bge 1 (.reg 2) (.near 4) .none, .bltn 1 (.reg 2) (.near 4) .none, .bgen 1 (.reg 2) (.near 4) .none, .jal 1 (.near 4),
   .jal 1 (.far 4), .jalr 1 1 (.imm 0), .jtab 1 2 3, .rep 31 (.imm 5), .nop .l7, .csrr 1 5, .csrw 1 2 0x203, .csrs 1 0 5, .csrs 1 2 0x204,
   .csrc 1 0 5, .csrc 1 2 0x205, .csrw 1 2 7, .ld .i64 .plain 1 2 none 15, .ld .n8 .acq 1 2 (some 1) 0, .st .i64 .plain 1 2 none,
     .st .i8 .rel 1 2 none]

/-- Class 01 forms. -/
def forms01 : List Instr :=
  [.pairWord 0 ⟨.add, 1, 2, .reg 3⟩ (.mov 1 2), .vadd .sat 1 2 (.v 3) 0, .vsub .satn 1 2 (.x 3) 0, .vmul 1 2 (.lit 3) 0,
   .vmulh true 1 2 (.v 3) 0, .vmac 1 2 (.v 3) 0, .vand 1 2 (.v 3) 0, .vor 1 2 (.v 3) 0, .vxor 1 2 (.v 3) 0, .vsll 1 2 (.v 3) 0,
   .vsrl 1 2 (.v 3) 0, .vsra 1 2 (.v 3) 0, .vmin 1 2 (.v 3) 0, .vmax 1 2 (.v 3) 0, .vminn 1 2 (.v 3) 0, .vmaxn 1 2 (.v 3) 0,
   .vabs 1 2 0, .vfadd .rne 1 2 (.v 3) 0, .vfsub .rne 1 2 (.v 3) 0, .vfmul .rne 1 2 (.v 3) 0, .vfma .rne 1 2 (.v 3) 0,
   .vfmin 1 2 (.v 3) 0, .vfmax 1 2 (.v 3) 0, .vfsgn .neg 1 2 (.v 3) 0, .vfdiv .rne 1 2 (.v 3) 0, .vsqrt 1 (.v 2) 15 0,
   .vcmp .eq 1 2 (.v 3) 0, .vfcmp .lt 1 2 (.v 3) 0, .vsel 1 1 2 (.v 3) 0, .vmov 1 2 0, .vbcast 1 (.reg 2) 0,
   .vperm true 1 2 (.v 3) 0, .vslide true 1 2 (.v 3) 0, .vzip 1 2 (.v 3) 0, .vunzip 1 2 (.v 3) 0] ++
  [.vred .add 1 2 0, .vscan .min 1 2 0, .vclass 1 2 0, .pset 1 2 0, .plog .not 1 2 0 0, .pcnt 1 2 0, .pfirst 1 2 0,
   .vcvt .i32 .f32 .rtz 1 2 0, .vcvt .f32 .dx4 .rne 1 2 0, .vquant .dx7 1 2 0, .vexp2 1 (.v 2) 15 0, .vlog2 1 (.x 2) 0 0,
   .vrcp 1 (.v 2) 0 0, .vrsq 1 (.v 2) 0 0, .vld 1 2 none 15 0, .vlds 1 2 3 none 0 0, .vldx 1 2 3 none 0 0, .vst 1 2 none 0,
   .vsts 1 2 3 none 0, .vstx 1 2 3 none 0, .rfwd true 7 30 15 0, .rrev 15 7 2 0 0, .rchk 1 2 0 0, .radd 1 2 (.q 3) 0,
   .rmul 1 2 (.x 3) 0, .rbase 1 2 3 0 0]

/-- Class 10 forms that a program context performs outside a routine. -/
def forms10 : List Instr :=
  [.rsel (.cred 2) 0, .mload 1 2 ⟨1, 0, 0⟩ 0, .mswap 0, .mgo true true 1 2 3 ⟨1, 1, 1, 15, 0, 0, 0, 0, 0⟩ 0, .mshape 1 2 0, .mstat 1 2 0,
   .ecall 0, .ebreak 0, .wfi 0, .amo .add .i64 1 2 3 0, .cas .n32 1 2 3 0, .faddx 1 (.v 2) 0, .cellrd 1 2 15 0,
   .fence .system 0, .chunk 0, .ifence 0, .mdecl 1 2 3 ⟨1, 0, 0, 3, 0, 0, 1⟩ 0, .sweep 1 2 0, .swake 1 (.v 2) 0, .skipset true 1 2 0,
   .send true 1 2 10 5 0, .recv 1 2 0, .peek 1 2 0, .mon 1 2 3 0, .mwait 1 2 0] ++
  [.smodeX 3 1 .i64 ⟨0, 0, 0, 1, 0, 0, 0, 8, 0, 0, 0⟩ 0, .smodeV 0 1 ⟨0, 0, 0, 1, 0, 0, 0, 8, 0, 0, 0⟩ 0, .sexit true 3 0,
   .copy 1 2 3 ⟨1, 0, 3, 4, 0, 0, 0, 0, 0, 0, 0, 0, 0, 0, 0, 0⟩ 0, .coll .allreduce 1 2 ⟨1, 1, 0, .i32, .add, 1, 0, 0⟩ 0, .barinit 1 2 0,
   .bararr 1 2 0, .barwait 1 2 0, .hstart 1 2 4 0, .gang 1 0, .split 0, .live 1 0, .yield 0, .xphase 0]

/-- IntegerResults, DivisionResults, BitFieldResults, FloatResults, ControlTransfers, JumpLinks, CsrAccess, ScalarAccess. -/
theorem test_performs_class00 : forms00.all wit.performs = true := by decide +kernel
/-- VectorAccess, VectorIntegerResults, VectorFloatResults, VectorRearrangement, PredicateResults, PredicateCounts,
ReductionResults, ResidueResults, ResidueChecks, PairResult. -/
theorem test_performs_class01 : forms01.all wit.performs = true := by decide +kernel
/-- ArrayForms to SuperstepForms. -/
theorem test_performs_class10 : forms10.all wit.performs = true := by decide +kernel
/-- TrapForms, SuperstepForms, HelperGangForms. -/
theorem test_performs_modes : ((inHandler wit).performs (.eret 0) && (inExchange wit).performs (.ssync 0) &&
    (inExchange wit).performs (.vote .min 1 2 0) && (helper wit).performs (.hend 0)) = true := by decide +kernel
/-- RoutineForms. -/
theorem test_performs_routine : ([.swstepImmediate 63 0, .swstepVector 1 0, .swait .next 0, .swait (.delay 1) 0, .swait (.wake 1) 0,
    .swait .done 0, .swake 1 (.x 2) 0, .skipset false 1 2 0] : List Instr).all (routine wit).performs = true := by decide +kernel
/-- TranslationForms. -/
theorem test_performs_quoin : ([.tlbw 1 2 0, .tlbi 1 0, .tlbiAll 0, .replay 0] : List Instr).all (quoin wit).performs = true := by
  decide +kernel

/-! ### A state and operands for each clause -/

/-- An instruction is performed, and a condition holds of the state before its operation. -/
def meets (s : State) (i : Instr) (c : State → Bool) : Bool := s.performs i && c (s.before i)

/-- Whether a check passes. -/
def isOk {α β : Type} (o : Except α β) : Bool := match o with | .ok _ => true | .error _ => false

/-- ControlTransfers: both outcomes of a branch; an index in its bound whose table word lies in the slice, one beyond it, a misaligned
table; a
repetition that begins, one that is skipped. -/
theorem test_control : (meets (setXs [(2, own 0x100)] wit) (.jtab 1 2 1) (fun t => t.readable 0 (own 0x100) 4 (at0 0x100)) &&
    meets wit (.jtab 1 2 0) (fun t => decide ((0 : W32).toNat ≤ (t.reads 1).toNat)) &&
    raises (setXs [(2, own 0x102)] wit) (.jtab 1 2 1) (fun t => (t.reads 1).toNat == 0 &&
      t.cur.program) (fun t => ⟨0x01, 0, t.reads 2, false⟩) &&
    meets wit (.rep 0 (.imm 0)) (fun t => match t.addressAfter t.cur 1 0x1004 with | .ok _ => true | _ => false) &&
    meets wit (.rep 31 (.imm 3)) (fun t => (t.reads 0) == 0)) = true := by decide +kernel

/-- JumpLinks: a target that is a multiple of 4, and one that is not. -/
theorem test_jalr : (meets (setXs [(1, 0x2000)] wit) (.jalr 1 1 (.imm 4)) (fun t => (t.reads 1 + 4).toNat % 4 == 0) &&
    meets (setXs [(1, 0x2000)] wit) (.jalr 1 1 (.imm 2)) (fun t => (t.reads 1 + 2).toNat % 4 != 0)) = true := by decide +kernel

/-- RepetitionPasses: each clause, at the ends of its ranges. -/
theorem test_passes : ∃ r : Arch, r.loopActive = true ∧ r.loopIndex = r.loopLen ∧ r.loopLeft ≠ 0 ∧ r.loopLen = 31 :=
  ⟨{ Arch.zero 0 with loopActive := true, loopIndex := 31, loopLen := 31, loopLeft := 1 }, by decide, by decide, by decide, by decide⟩
theorem test_passes_last : ∃ r : Arch, r.loopActive = true ∧ r.loopIndex = r.loopLen ∧ r.loopLeft = 0 :=
  ⟨{ Arch.zero 0 with loopActive := true }, by decide, by decide, by decide⟩
theorem test_passes_inside : ∃ r : Arch, r.loopActive = true ∧ r.loopIndex.toNat < r.loopLen.toNat :=
  ⟨{ Arch.zero 0 with loopActive := true, loopIndex := 30, loopLen := 31 }, by decide, by decide⟩
theorem test_passes_none : (Arch.zero 0).loopActive = false := rfl

/-- CsrAccess: a write that takes effect, writes that the check of the value and the protection deny, a write of `live`, and a
region whose counters are read. -/
theorem test_csr : ([
    meets wit (.csrw 1 2 0x203) (fun t => isOk (t.csrWrite (levelOf t.cur) t.cur 0x203 0 0)),
    denies wit (.csrw 1 2 0x008) (fun t => t.cur.program) (fun _ => ⟨0x06, 1, 0x008, false⟩),
    denies wit (.csrs 1 2 0x201) (fun t => t.cur.program) (fun _ => ⟨0x06, 1, 0x201, false⟩),
    meets (setXs [(2, 0x10002)] wit) (.csrw 1 2 0x000) (fun t => !isOk (t.csrWrite (levelOf t.cur) t.cur 0x000 (t.reads 2) (t.reads 2))),
    meets wit (.csrs 1 2 0x007) (fun _ => true), (wit.regionOf (.ctx 0 0 0)).isSome] : List Bool).all id = true := by decide +kernel

/-- ScalarAccess, MemoryFrame: loads and stores at the slice's ends, releases, and each trap of its list. -/
theorem test_scalar_access : ([
    meets (setXs [(2, own 0x36FFF8)] wit) (.ld .i64 .plain 1 2 none 0) (fun t => t.readable 1 (own 0x36FFF8) 8 (at0 0x36FFF8)),
    meets (setXs [(2, own 0)] wit) (.ld .i8 .plain 1 2 (some 3) 0) (fun t => t.readable 1 (own 3) 1 (at0 3)),
    meets (setXs [(2, own 0)] wit) (.st .i64 .plain 1 2 none) (fun t => t.writable (own 0) 8 (at0 0) (t.reads 1)),
    meets (setXs [(2, own 8)] wit) (.st .i64 .rel 1 2 none) (fun t => t.writable (own 8) 8 (at0 8) (t.reads 1) && t.canClose t.cur &&
      (t.ctx t.cur).chunk.far == [] && t.performed t.cur (beyond (at0 8))),
    decide ((own 4).toNat % 8 ≠ 0), inAperture (own 0) && decide ((own 0).toNat % 8 = 0) && wit.cur.program,
    decide (2 ≤ apWin (own 0x400000000)), (own 0x400000000).toNat % 8 == 0 && inAperture (own 0x400000000),
    decide (apWin (own 0x370000) < 2) && decide (0x370000 ≤ apOff (own 0x370000)),
    !regsAddr wit.cur (own 0) && wit.cur != .plinth,
    match wit.resolve wit.cur .read 0x8000000000000000 with | .fault _ => true | _ => false] : List Bool).all id = true := by
  decide +kernel

/-- ScalarAccess: accesses of the plinth to its register block that are not aligned ones of 8 bytes, at its ends. -/
theorem test_register_block : ([(0x0100000000000000, 4), (0x0100000000013FFC, 8)] : List (Word × Nat)).all (fun e =>
    match ({ wit with cur := .plinth } : State).locate .plinth .write 1 e.1 e.2 with
    | .error (.trap t) => t == ⟨0x06, 3, e.1, false⟩
    | _ => false) = true := by decide +kernel

/-- StoredBytes: a held near store, a held far store, a write that lands at the last bytes of the program part, one in HBM that is no
saved slice. -/
theorem test_stored : (let s := wit.openChunk wit.cur
    [(s.ctx s.cur).chunkOpen, near s.cur (at0 0) && (s.ctx s.cur).chunk.far == [], !near s.cur (Home.loc (.hbm 0)),
    (match homeOf (at0 0x36FFF8) with | .slice _ off => decide (off + 8 ≤ progEnd) | _ => false),
    (match homeOf (Home.loc (.hbm 0)) with | .hbm a => (s.savedAt a).isNone | _ => false)] : List Bool).all id = true := by decide +kernel

/-- The addresses of a vector form's guard-on lanes. -/
def lanesAt (s : State) (i : Instr) (m : VAddr) : List (Nat × Word) :=
  laneAddrs (s.ctxAt i) m 2 (winSize (winOf ((s.ctxAt i).x 2))) ((s.before i).guardMask s.cur i)

/-- Locations of a vector form's lanes, where it is performed and its checks pass. -/
def vecOk (s : State) (i : Instr) (m : VAddr) (acc : Access) : Option (List Nat) :=
  let win := winOf ((s.ctxAt i).x 2)
  match (s.before i).vecCheck s.cur acc ((lanesAt s i m).map (·.2)) (winSize win) 0 win (m == .unit) true with
  | .ok ls => if s.performs i then some ls else none
  | .error _ => none

/-- VectorAccess, MemoryFrame: a contiguous, a strided and an indexed load and store of 64 lanes through a plain window. -/
theorem test_vector_access : (let s := setXs [(2, own 0x100), (3, 4)] wit
    let win := winOf (own 0x100)
    ([.unit, .stride 3, .index 3] : List VAddr).flatMap (fun m =>
      let i : Instr := match m with | .unit => .vld 1 2 none 0 0 | .stride b => .vlds 1 2 b none 0 0 | .index b => .vldx 1 2 b none 0 0
      let j : Instr := match m with | .unit => .vst 1 2 none 0 | .stride b => .vsts 1 2 b none 0 | .index b => .vstx 1 2 b none 0
      let writes := fun (ls : List Nat) => (((lanesAt s j m).zip ls).map fun e =>
        (⟨e.2, natBytes (winSize win) (winEncode win (lane ((s.ctxAt j).v 1) e.1.1)), win, winSize win⟩ : Write)).foldl joinWrite []
      [(winDx win).isNone,
       (vecOk s i m .read).any fun ls => ls.length == 64 && ls.all fun l => (s.before i).clear s.cur l (winSize win) &&
         !(s.before i).areaShut l,
       (vecOk s j m .write).any fun ls => ls.all (fun l => !(s.before j).areaShut l &&
         !(s.before j).partPoison (writes ls ++ (s.before j).heldStores s.cur) l (winSize win)) &&
         (writes ls).all fun w => ((s.before j).areaDenied w).isNone]) : List Bool).all id = true := by
  decide +kernel

/-- VectorAccess: strip records through each dx window, contiguous ones, and strided and indexed ones that trap. -/
theorem test_vector_records : (([(4, Dx.dx7), (5, .dx4), (6, .dx2)] : List (Nat × Dx)).flatMap (fun w =>
    let s := setXs [(2, own (0x200000000 * w.1 + 0x200))] wit
    let ws := (List.range (dxBytes w.2 / 8)).map fun j => (s.ctx s.cur).x 2 + BitVec.ofNat 64 (8 * j)
    let ok := fun (i : Instr) (acc : Access) => s.performs i && match (s.before i).vecCheck s.cur acc ws 8 0 w.1 true true with
      | .ok ls => ls.all fun l => !(s.before i).meetsError s.cur l 8 && !(s.before i).areaShut l
      | .error _ => false
    [winDx (winOf ((s.ctx s.cur).x 2)) == some w.2, ok (.vld 1 2 none 0 0) .read, ok (.vst 1 2 none 0) .write,
     (s.before (.vld 1 2 none 0 0)).clear s.cur (at0 0x200) (dxBytes w.2), raises s (.vlds 1 2 0 none 0 0) (fun _ => true)
       (fun t => ⟨0x06, 3, t.reads 2, false⟩), raises s (.vldx 1 2 3 none 0 0) (fun _ => true) (fun t => ⟨0x06, 3, t.reads 2, false⟩),
     raises s (.vsts 1 2 0 none 0) (fun _ => true) (fun t => ⟨0x06, 3, t.reads 2, false⟩),
     raises s (.vstx 1 2 3 none 0) (fun _ => true) (fun t => ⟨0x06, 3, t.reads 2, false⟩)]) : List Bool).all id = true := by decide +kernel

/-- VectorFloatResults: types with and without strip records. -/
theorem test_cvt_types : tyDx .f32 = none ∧ (tyDx .dx4).isSome = true := by decide +kernel

/-- PredicateCounts: a guard with no lane on. -/
theorem test_guard_off : (([.pcnt 1 2 1, .pfirst 1 2 1] : List Instr).all fun i => !wit.illegal wit.cur i && wit.guardMask wit.cur i == 0)
    = true := by decide +kernel

/-- ResidueChecks: no trap armed, a course, modes that are admitted and refused. -/
theorem test_residue_checks : ((wit.cur.course? == some 0) && !(wit.course 0).rstat.getLsbD 16 && !(wit.course 0).rstat.getLsbD 17 &&
    modeAllowed (wit.course 0).present .normal && !modeAllowed 0 (.cred 0)) = true := by decide +kernel

/-- ResidueCode: the zero element and one with channel 7 wrong. -/
theorem test_residue_code : ((List.range 8).all fun k => decide (0 < modulus k)) = true ∧
    2 * (0 : Int).natAbs < prodOf (working .normal) ∧ ((if 7 = 7 then 1 else 0 : Nat) : Int) ≠ (0 : Int) % modulus 7 ∧
    (1 : Nat) < modulus 7 := by decide +kernel

/-- PairResult: a pair whose vector half gives results, and one whose vector half traps. -/
theorem test_pair : (meets wit (.pairWord 0 ⟨.add, 1, 2, .imm 1⟩ (.pcnt 1 2))
      (fun t => match doVec (.pcnt 1 2) (t.guardMask t.cur (.pairWord 0 ⟨.add, 1, 2,
        .imm 1⟩ (.pcnt 1 2))) t with | .done .. => true | _ => false) &&
    meets (setXs [(2, own 0x370000)] wit) (.pairWord 0 ⟨.add, 1, 2, .imm 1⟩ (.load .unit 1 2 none 0))
      (fun t => match doVec (.load .unit 1 2 none 0) (t.guardMask t.cur (.pairWord 0 ⟨.add, 1, 2, .imm 1⟩ (.load .unit 1 2 none 0))) t with
        | .trap _ => true | _ => false)) = true := by decide +kernel

/-- ArrayForms: a first join of each kind, a join of an entry that waits, room in the queue. -/
theorem test_array_forms : (let c : MloadCmd := ⟨1, 0, 0⟩
    let m : MgoCmd := ⟨1, 1, 1, 15, 0, 0, 0, 0, 0⟩
    let s := setXs [(2, own 0x100000), (3, own 0x200000)] wit
    let e : Job := { Job.blank .load with tag := 1, joins := [⟨0, 0, 0, 0, 0, 0, 0, 0, 0⟩] }
    let l : Job := { Job.blank .load with tag := 1, awin := 0, joins := [⟨0, 0, own 0x100000, 0, 0, 0, 0, 0, 0⟩] }
    let w : Job := { Job.blank .swap with joins := [⟨0, 0, 0, 0, 0, 0, 0, 0, 0⟩] }
    let room := fun (e : Job) (t : State) => !(t.course 0).queueFull e 0 && t.performed t.cur false && t.placeFree 0
    let after := fun (e : Job) (t : State) => t.setCourse 0 ((t.course 0).join e 0).2
    [does s (.mload 1 2 c 0) (fun t => (t.checkMload 0 (own 0x100000) c).isNone && room l t) (fun t => (after l t).reserve 0)
       (fun t => [.toX 1 (((t.course 0).join l 0).1.setWidth 64)]),
     meets s (.mgo false true 1 2 3 m 0) (fun t => (t.checkMgo 0 (own 0x100000) (own 0x200000) m).isNone &&
       room { l with kind := .product } t),
     does s (.mswap 0) (room w) (after w),
     ({ e with joins := [⟨1, 0, 0, 0, 0, 0, 0, 0, 0⟩] } : Job).takes e 0, (s.course 0).jobs.all fun j => !j.takes e 0,
     does (setXs [(2, 10)] wit) (.mshape 1 2 0) (fun t => t.cur.course? == some 0)
       (fun t => t.modCourse 0 fun k => k.mshape ((t.reads 2).setWidth 4) t.devTime) (fun t => [.toX 1 (t.course 0).ashape]),
     does wit (.mstat 1 2 0) (fun t => t.cur.course? == some 0) id (fun _ => [.toX 1 0])] : List Bool).all id = true := by
  decide +kernel

/-- AtomicResults, MemoryFrame: an atomic at a near word, one at HBM whose value comes late, one whose value `loopa` refuses. -/
theorem test_atomic : (let s := setXs [(2, own 0x40)] wit
    let far := setXs [(2, 0x1F00)] { wit with late := true }
    [meets s (.amo .add .i64 1 2 3 0) (fun t => (match t.locateRmw t.cur (own 0x40) 8 with | .ok l => l == at0 0x40 | .error _ => false) &&
      !t.barred t.cur .write (own 0x40) && !t.meetsError t.cur (at0 0x40) 8 && !t.late && !t.rmwWaits t.cur (at0 0x40) 8),
     meets s (.cas .i64 1 2 3 0) (fun t => near t.cur (at0 0x40) && !t.rmwWaits t.cur (at0 0x40) 8),
     raises (setXs [(2, own 0x372170), (3, 2)] (quoin wit)) (.amo .swap .i64 1 2 3 0) (fun t =>
       (match t.locateRmw t.cur (own 0x372170) 8 with | .ok l => l == at0 0x372170 | .error _ => false) && t.reserved (at0 0x372170) &&
       !t.barred t.cur .write (own 0x372170) && !t.meetsError t.cur (at0 0x372170) 8 && !t.rmwWaits t.cur (at0 0x372170) 8 &&
       ((t.amoWrite (some .swap) .i64 (at0 0x372170) 0 0 2).bind t.areaDenied).isSome) (fun _ => .at 0x06 1 9),
     meets far (.cas .i32 1 2 3 0) (fun t => (match t.locateRmw t.cur 0x1F00 4 with | .ok l => l == Home.loc (.hbm 0x1F00) | .error _ => false) &&
      !t.barred t.cur .write 0x1F00 && !near t.cur (Home.loc (.hbm 0x1F00)) && t.late && decide (t.slotsUsed 0 < 4096) &&
        (t.cur.core? == some 0) &&
      (t.ctx t.cur).unsent == [])] : List Bool).all id = true := by
  decide +kernel

/-- CellResults, MemoryFrame: 64 addends to one cell, an addend at the edge of its range, a cell read. -/
theorem test_cells : (let s := setXs [(1, own 0x40)] wit
    let i := Instr.faddx 1 (.v 2) 0
    let ps := faddxParts (s.ctxAt i) 1 (.v 2) ((s.before i).guardMask s.cur i)
    [meets s i (fun t => (match t.faddxLocs t.cur true (own 0x40) (ps.map (·.1)) with
      | .ok ls => ls.all fun l => !t.meetsError t.cur l 32 && !t.rmwWaits t.cur l 32 && (t.areaDenied (t.cellWrite l 0)).isNone
      | .error _ => false) && !t.late && t.slotsFree t.cur 0 && (t.ctx t.cur).unsent == []),
     meets s (.cellrd 1 1 15 0) (fun t => match t.locate t.cur .read 0 (own 0x40) 32 with
      | .ok l => !atHost l && t.clear t.cur l 32 && !t.areaShut l
      | .error _ => false)] : List Bool).all id = true := by decide +kernel
theorem test_addend : cellAddend (f32 0x3F800000) = 2 ^ 66 ∧ (2 : Int) ^ 66 < 2 ^ 127 := by decide +kernel

/-- OrderForms: a fence whose accesses are performed, and one that waits behind a far store. -/
theorem test_order : (let far : State := { wit with fabric := [⟨.ctx 0 0 0, .store ⟨Home.loc (.hbm 0), [1], 0, 1⟩⟩] }
    [does wit (.fence .course 0) (fun t => t.performed t.cur false && t.noSend t.cur) id,
     leaves far (.fence .device 0) (fun t => !t.performed t.cur false) (fun t => t.stall t.cur),
     gives (.chunk 0) wit ((wit.close wit.cur).retire wit.cur (.chunk 0) []),
     meets wit (.ifence 0) (fun t => t.performed t.cur true)] : List Bool).all id = true := by decide +kernel

/-- TrapForms: calls, waits with and without an operation under way, returns in the handler and outside it. -/
theorem test_trap_forms : (let busy := wit.modCtx wit.cur fun c => c.withPend [⟨.x, 5, 0, [], 0, 2, false, none, []⟩]
    let shut := fun t : State => t.modCtx t.cur Ctx.closeWindows
    let pc := (wit.ctx wit.cur).arch.pc
    [(wit.group wit.cur).all (fun a => !wit.amoOut a) && !wit.together && wit.performs (.ecall 0) && wit.performs (.ebreak 0),
     gives (.ecall 0) wit (((wit.close wit.cur).loseMember wit.cur false).deliver wit.cur ⟨0x0C, 0, pc, true⟩ (pc + 4)),
     gives (.ebreak 0) wit (((wit.close wit.cur).loseMember wit.cur false).deliver wit.cur ⟨0x0D, 0, pc, true⟩ (pc + 4)),
     does wit (.wfi 0) (fun t => ((shut t).ctx t.cur).arch.pend.all Pending.done)
       (fun t => ((shut t).leaveGang t.cur).modCtx t.cur fun c => { c with run := 2 }),
     leaves busy (.wfi 0) (fun t => !((shut t).ctx t.cur).arch.pend.all Pending.done)
       (fun t => (shut t).modCtx t.cur fun c => { c with stalled := true }),
     leaves (inHandler wit) (.eret 0) (fun t => (t.ctx t.cur).intrap && (t.ctx t.cur).arch.pend.all Pending.done)
       (fun t => t.modCtx t.cur fun c => { c with intrap := false, ahead := [], stalled := false, arch := { c.arch with pc := c.epc } }),
     !(wit.ctx wit.cur).intrap && gives (.eret 0) wit (wit.raise wit.cur ⟨0x02, 0, (Instr.eret 0).word,
       false⟩ 4)] : List Bool).all id = true := by
  decide +kernel

/-- A context whose block delegates every cause that can be delegated to a handler at 0x4000. -/
def delegating : State :=
  ({ wit with regions := wit.regions.map fun e => (e.1, { e.2 with eff := { e.2.eff with trap := 0x4000 } }) } : State).modCtx wit.cur
    fun c => { c with deleg := 0xFFFFFFFF }

/-- TrapTaking: a delegated trap, one that is not delegated, and the region of the acting context. -/
theorem test_trap_taking : (delegating.delegates (.ctx 0 0 0) ⟨0x0C, 0, 0x1000, true⟩ == some 0x4000 &&
    (delegating.delegates (.ctx 0 0 0) ⟨0x04, 0, 0x1000, false⟩).isNone && (wit.delegates (.ctx 0 0 0) ⟨0x0C, 0, 0, true⟩).isNone &&
    (wit.regionOf (.ctx 0 0 0)).isSome && (wit.ctx (.ctx 0 0 0)).arch.pend == [] &&
    (List.range 64).all (fun r => !wit.slotPoison 0 0 .x r && !wit.slotPoison 0 0 .v r &&
      !wit.slotPoison 0 0 .p r)) = true := by decide +kernel

/-- A declaration of one strip in slot 0 of core 0. -/
def desc0 : Desc := ⟨own 0x10000, own 0x20000, own 0x30000, own 0x31000, 64, 0, 1, 0⟩

/-- A sweep of slot 0 by helper 1 that has not begun. -/
def begun : Sweep := ⟨0, 1, 0, [0x1000], 0, none, [], [], [], 0, 0, 0, [], none, true, [], 0, 0, 0, none⟩

/-- Core 0 with that slot declared and a sweep under way. -/
def sweeping (w : Sweep) (s : State) : State := s.modCore 0 fun k => { k with slots := [(0, desc0)], sweep := some w }

/-- ScreedForms: declarations of the greatest count that fits, of a count of zero, misaligned, beyond window 0, into the reserved part
and over the slice's end, of a slot in use. -/
theorem test_mdecl : (let c : MdeclCmd := ⟨1, 0, 0, 3, own 0x30000, own 0x31000, 64⟩
    let i := fun c : MdeclCmd => Instr.mdecl 1 2 3 c 0
    let s := setXs [(2, own 0x10000), (3, own 0x20000)] wit
    let desc := fun (c : MdeclCmd) (t : State) =>
      (⟨t.reads 2, t.reads 3, c.skip, c.table, c.count.toNat, c.esize, c.states.toNat + 1, c.tag⟩ : Desc)
    let within := fun (t : State) (w : Word) (n : Nat) => inAperture w && apWin w == 0 && apCore w == t.cidOf 0 &&
      decide (apOff w + n ≤ 0x370000)
    let fits := fun (c : MdeclCmd) (t : State) => t.cur.core? == some 0 && (t.reads 2).toNat % 256 == 0 && (t.reads 3).toNat % 256 == 0 &&
      c.skip.toNat % 8 == 0 && c.table.toNat % 8 == 0 && within t (t.reads 2) 256 && within t (t.reads 3) 256 && within t c.skip 8
    [raises s (i { c with count := 0 }) (fun t => t.cur.core? == some 0) (fun _ => ⟨0x02, 0, (i { c with count := 0 }).word, false⟩),
     raises (setXs [(2, own 0x10080)] s) (i c) (fun t => (t.reads 2).toNat % 256 != 0) (fun t => ⟨0x01, 0, t.reads 2, false⟩),
     raises s (i { c with table := 4 }) (fun _ => true) (fun _ => ⟨0x01, 0, 4, false⟩),
     raises (setXs [(2, 0x10000)] s) (i c) (fun t => !inAperture (t.reads 2)) (fun t => ⟨0x06, 3, t.reads 2, false⟩),
     raises (setXs [(2, own 0x36FF00), (3, own 0x370000)] s) (i c) (fun t => inAperture (t.reads 3) && apWin (t.reads 3) == 0 &&
       decide (apOff (t.reads 3) + 256 ≤ 0x400000)) (fun t => ⟨0x06, 5, t.reads 3, false⟩),
     raises (setXs [(2, own 0x3FFF00)] s) (i { c with count := 128 }) (fun t => decide ((t.reads 2).toNat + 512 ≤ 0x400200000000) &&
       decide (0x400000 < apOff (t.reads 2) + 512)) (fun t => ⟨0x06, 5, t.reads 2, false⟩),
     does s (i c) (fun t => fits c t && (t.core 0).sweep.isNone)
       (fun t => t.modCore 0 fun k => { k with slots := Map.set k.slots 3 (desc c t), dropped := Map.erase k.dropped 3 })
       (fun t => [.toX 1 (BitVec.ofNat 64 (t.cidOf 0 * 4 + 3))]),
     does (sweeping begun s) (i { c with slot := 0 }) (fun t => fits c t && (t.core 0).sweep.any fun w => w.slot == 0) id
       (fun _ => [.toX 1 (BitVec.allOnes 64)])] : List Bool).all id = true := by decide +kernel

/-- ScreedForms: a sweep of a declared tensor, of an empty slot, one whose engine is in use, and the sweep's start. -/
theorem test_sweep : (let d := setXs [(2, 0)] (wit.modCore 0 fun k => { k with slots := [(0, desc0)] })
    let held := fun t : State => (t.reads 2).toNat / 4 == t.cidOf 0 && (t.desc? 0 ((t.reads 2).toNat % 4)).isSome
    let parked := (sweeping begun wit).modCtx wit.cur fun c => { c with park := some (.sweep 1 2 0) }
    [raises (setXs [(1, 3)] wit) (.sweep 1 1 0) (fun t => (t.desc? 0 3).isNone) (fun t => ⟨0x06, 1, t.reads 1, false⟩),
     does (sweeping begun d) (.sweep 1 2 0) (fun t => held t && (t.core 0).sweep.isSome) id (fun _ => [.toX 1 (BitVec.allOnes 64)]),
     leaves d (.sweep 1 2 0) (fun t => held t && t.freeSlot 0 == some 1 && (t.core 0).sweep.isNone &&
         (match t.tableLocs t.cur (own 0x31000) 1 with
          | .ok ls => ls.all fun l => !t.meetsError t.cur l 8 && !t.farWaits t.cur l && t.loadNat t.cur l 8 % 4 == 0
          | .error _ => false) && t.placeFree 0 && t.performed t.cur false)
       (fun t => ((t.reserve 0).modCore 0 fun k => { k with sweep := some { begun with table := [0], first := false } }).modCtx t.cur fun x =>
         { x with park := some (.sweep 1 2 0) }),
     (parked.core 0).sweep == some begun && (parked.ctx (ctxOf 0 1)).origin != .sweep && parked.moving (ctxOf 0 1),
     gives (.sweepStart 0) parked ((parked.startHelper 0 1 0 0 (parked.ctx (ctxOf 0 0)).deleg .sweep).completeParked
       (ctxOf 0 0) (.sweep 1 2 0) [.toX 1 1])] : List Bool).all id = true := by decide +kernel

/-- RoutineForms: a step that leaves a lane, one that leaves none, commands to another engine, to the own one, by a bad
handle. -/
theorem test_routine_forms : (let r := routine wit
    let one := r.modCtx r.cur fun c => { c with arch := { c.arch with ps := [(1, 1)] } }
    let outs := fun (ls : List (Nat × Bool × W32)) (t : State) => t.modArch t.cur fun a => { a with outs := a.outs ++ ls }
    let wakes := fun t : State => ((List.range 64).filter fun l => (t.guardMask t.cur (.swake 1 (.v 2) 0)).getLsbD l).map fun l =>
      ScreedCmd.wake (lane ((t.ctx t.cur).v 2) l).toNat
    [does one (.swstepImmediate 63 1) (fun t => (outs [(0, false, 63)] t).stepMask t.cur != 0) (outs [(0, false, 63)]),
     does r (.swait .done 0) (fun t => (outs [(0, true, 0x380), (1, true, 0x380)] t).stepMask t.cur == 0 && t.canClose t.cur)
       (fun t => (outs [(0, true, 0x380), (1, true, 0x380)] t).close t.cur),
     does (setXs [(1, 4), (2, 9)] wit) (.swake 1 (.x 2) 0) (fun t => t.handleOf t.cur (t.reads 1) == some (1, 0) && t.performed t.cur false)
       (fun t => { t with fabric := t.fabric ++ [⟨t.cur, .screed 1 0 1 (.wake 9)⟩] }),
     does r (.swake 1 (.v 2) 0) (fun t => t.handleOf t.cur (t.reads 1) == some (0, 0) && (t.ctx t.cur).origin == .sweep &&
       t.cidOf 0 == 0 && t.performed t.cur false &&
         !(wakes t).any (t.screedWaits 0 0)) (fun t => (wakes t).foldl (fun u c => u.receiveScreed 0 0 c) t),
     raises (setXs [(1, 0xFFFFF)] wit) (.skipset true 1 2 0) (fun t => (t.handleOf t.cur (t.reads 1)).isNone)
       (fun t => ⟨0x06, 1, t.reads 1, false⟩)] : List Bool).all id = true := by decide +kernel

/-- Sets one message in core 0's inbox. -/
def mailed (ctx : Nat) (s : State) : State := s.modCore 0 fun k => { k with inbox := [⟨3, 7, 8⟩, ⟨ctx, 1, 2⟩] }

/-- A watch of context 0 in entry 0 of core 0, latched or not. -/
def watching (latch : Option Nat) (s : State) : State :=
  s.modCore 0 fun k => { k with watches := [(0, ⟨0, lineOf (at0 0x40), 0, none, latch⟩)] }

/-- MessageForms: a target beyond the region, one target, a multicast to every core, a message for the context behind one for
another, in two registers and in one, none. -/
theorem test_message_forms : (let m := mailed 0 wit
    let first := fun t : State => ((t.core 0).inbox ++ (t.core 0).spill).find? fun x => x.ctx == 0
    [raises (setXs [(2, 8)] wit) (.send false 2 3 0 5 0) (fun t => (t.sendTargets t.cur false (t.reads 2)).isNone)
       (fun t => ⟨0x06, 1, t.reads 2, false⟩),
     does (setXs [(2, 7)] wit) (.send false 2 3 10 5 0) (fun t => t.sendTargets t.cur false (t.reads 2) == some [7] && t.noSend t.cur &&
       t.performed t.cur false && decide (t.slotsUsed 0 + 1 ≤ 4096) && t.cur.course?.map t.ownerRid == some 1 &&
       (t.regionOf t.cur).any fun r => !([7].any (t.sendPaused r)))
       (fun t => { t with fabric := t.fabric ++ [⟨t.cur, .send 7 10 1 (msgHeader (t.cidOf 0) 0 1 5) (t.reads 3)⟩] }),
     meets (setXs [(2, 0xFF)] wit) (.send true 2 3 10 5 0) (fun t => (t.sendTargets t.cur true (t.reads 2)).map List.length == some 8),
     does m (.recv 1 2 0) (fun t => first t == some ⟨0, 1, 2⟩) (fun t => t.modCore 0 fun x => x.dequeue 0) (fun _ => [.toX 1 1, .toX 2 2]),
     does m (.recv 2 2 0) (fun t => first t == some ⟨0, 1, 2⟩) (fun t => t.modCore 0 fun x => x.dequeue 0) (fun _ => [.toX 2 2]),
     leaves wit (.recv 1 2 0) (fun t => first t == none) (fun t => t.modCtx t.cur fun x => { x with park := some .recv }),
     does m (.peek 1 2 0) (fun t => first t == some ⟨0, 1, 2⟩) id (fun _ => [.toX 1 1, .toX 2 2]),
     does wit (.peek 1 2 0) (fun t => first t == none) id (fun _ => [.toX 1 0, .toX 2 0]),
     ((m.core 0).inbox ++ (m.core 0).spill) == [⟨3, 7, 8⟩] ++ ⟨0, 1, 2⟩ :: []] : List Bool).all id = true := by decide +kernel
theorem test_header : fld (msgHeader 0x7FF 15 15 0xFFFF) 53 11 = 0x7FF ∧ fld (msgHeader 0x7FF 15 15 0xFFFF) 49 4 = 15 := by decide +kernel

/-- WatchForms: no free entry, a line in the reserved part, a line that is armed and its acknowledgement; an entry that is not armed,
latched, waiting. -/
theorem test_watch_forms : (let full := wit.modCore 0 fun k => { k with watches := (List.range 16).map fun e => (e, ⟨0, 0, 0, none, none⟩) }
    let s := setXs [(2, own 0x40)] wit
    let shown : State := { watching none wit with replies := [⟨.ctx 0 0 0, .watched, 0⟩] }
    let shown := shown.modCtx shown.cur fun c => { c with park := some (.mon 0 1 2 3 0) }
    let armed := fun (w : Option Nat) (t : State) => (t.armed t.cur (t.reads 2)).map (fun x => (x.1, x.2.1, x.2.2.latch)) == some (0, 0, w)
    [does full (.mon 1 2 3 0) (fun t => (freeEntry (t.watchesOf 0)).isNone &&
      t.cur.core? == some 0) id (fun _ => [.toX 1 (BitVec.allOnes 64)]),
     raises (setXs [(2, own 0x370000)] wit) (.mon 1 2 3 0) (fun t => (freeEntry (t.watchesOf 0)).isSome && inAperture (t.reads 2) &&
       decide (0x370000 ≤ apOff (t.reads 2))) (fun t => ⟨0x06, 5, t.reads 2, false⟩),
     leaves (setXs [(3, 7)] s) (.mon 1 2 3 0) (fun t => freeEntry (t.watchesOf 0) == some 0 && (match t.resolve t.cur .read (t.reads 2) with
         | .ok l => l == at0 0x40 | _ => false) && decide (t.slotsUsed 0 < 4096) && !t.gateShut t.cur (at0 0x40))
       (fun t =>
         let u := ((t.touchTlb t.cur (t.reads 2)).setWatches 0 [(0, ⟨0, lineOf (at0 0x40), pageOf (t.reads 2), some (t.nowNs 0 + 7),
           none⟩)]).register
           (at0 0x40) ⟨lineOf (at0 0x40), 0, 0, false⟩
         ({ u with replies := u.replies ++ [⟨t.cur, .watched, (filterOf (at0 0x40)).1⟩] } : State).modCtx t.cur fun c => { c with park := some (.mon 0 1 2 3 0) }),
     !shown.gated 0 && gives (.replySink 0) shown ((({ shown with replies := [] } : State).completeParked shown.cur (.mon 1 2 3 0)
       [.toX 1 0]).pumpCore shown.cur),
     does (setXs [(2, 5)] wit) (.mwait 1 2 0) (fun t => (t.armed t.cur (t.reads 2)).isNone) id (fun _ => [.toX 1 5]),
     does (watching (some 1) wit) (.mwait 1 2 0) (armed (some 1)) (fun t => t.freeEntryAt 0 0) (fun _ => [.toX 1 1]),
     leaves (watching none wit) (.mwait 1 2 0) (armed none) (fun t => t.modCtx t.cur fun c => { c with park := some (.mwait 0) })] :
     List Bool).all id = true := by
  decide +kernel

/-- StreamForms: bindings of an x and a v register with the greatest count, the end of one that is bound and of one that is
not. -/
theorem test_stream_forms : (let c : StreamCmd := ⟨0, 0, 0, 0xFFFF, 0, 0, 0, 8, 0, 0, 0⟩
    let s := setXs [(1, own 0x100)] wit
    let bound := wit.modCtx wit.cur fun x => { x with arch := { x.arch with streams := [(0, { Stream.off with bound := true })] } }
    let ready := fun (k : RKind) (n : Nat) (t : State) => (t.reads 1).toNat % 8 == 0 && (t.ctx t.cur).arch.pend == [] &&
      t.cur.course? == some 0 && ((t.ctx t.cur).bound? k n).isNone && decide (t.bindings 0 < 16) && decide (t.entriesUsed 0 < 32) &&
      t.performed t.cur true
    let bind := fun (j : Nat) (ty : IntTy) (t : State) => t.modCtx t.cur fun x =>
      let x := x.unbind j
      { x with arch := { x.arch with streams := Map.set x.arch.streams j (
        ⟨true, false, t.reads 1, [8, 0, 0, 0], [0xFFFF, 0, 0, 0], [0, 0, 0, 0], 0, 0, ty, false⟩ : Stream) } }
    [does s (.smodeX 3 1 .i64 c 0) (ready .x 27) (bind 3 .i64), does s (.smodeV 0 1 c 0) (ready .v 24) (bind 4 .i8),
     does bound (.sexit false 0 0) (fun t => ((t.ctx t.cur).bound? .x 24).isSome) (fun t => t.modCtx t.cur fun x => x.unbind 0),
     does wit (.sexit true 3 0) (fun t => ((t.ctx t.cur).bound? .v 27).isNone) id] : List Bool).all id = true := by decide +kernel

/-- CopyCollectiveForms: reserved bits, a count of zero, a misaligned destination, a copy of four dimensions with no barrier, a
collective. -/
theorem test_copy_forms : (let c : CopyCmd := ⟨1, 3, 3, 4, 1, 1, 1, 0, 0, 0, 0, 0, 0, 0, 0, 0⟩
    let s := setXs [(1, own 0x100), (2, own 0x200)] wit
    let i := fun c : CopyCmd => Instr.copy 1 2 0 c 0
    let none? := fun t : State => match t.engineBar t.cur 0 with | .ok b => b == none | .error _ => false
    let l : CollCmd := ⟨1, 1, 0, .i32, .add, 1, own 0x200, 0⟩
    [raises s (i { c with n3 := 0 }) (fun _ => true) (fun _ => ⟨0x02, 0, (i { c with n3 := 0 }).word, false⟩),
     raises s (i { c with rsv := 1 }) (fun _ => !({ c with rsv := 1 } : CopyCmd).clean) (fun _ => ⟨0x02, 0,
       (i { c with rsv := 1 }).word, false⟩),
     raises (setXs [(1, own 0x104)] s) (i c) (fun t => (t.reads 1).toNat % 8 != 0) (fun t => ⟨0x01, 0, t.reads 1, false⟩),
     does s (i c) (fun t => none? t && c.clean && apWin (t.reads 1) == 0 && t.placeFree 0 && decide (t.entriesUsed 0 < 32) &&
       t.performed t.cur true)
       (fun t => (t.reserve 0).modCourse 0 fun k => { k with
         copies := k.copies ++ [⟨k.nextCopy, t.cur, c, own 0x100, own 0x200, none, [], [], none, none, false⟩], nextCopy := k.nextCopy + 1 }),
     does s (.coll .broadcast 1 0 l 0) (fun t => none? t && decide (t.collUsed 0 < 16) && t.placeFree 0 && t.performed t.cur true)
       (fun t => (t.reserve 0).modRegion 1 fun r => { r with colls := [⟨1, [⟨t.cur, .broadcast, l, own 0x100, none, [], none, false, false⟩], false, [], none⟩] })] :
     List Bool).all id = true := by decide +kernel

/-- A barrier at the word 0x40 of core 0's slice. -/
def barred (b : Bar) (s : State) : State := { s with mem := Memory.write s.mem (at0 0x40) (natBytes 16 b.toNat) }.modCore 0 fun k => { k with foot := 1 }

/-- Barriers, MemoryFrame: forms on a barrier that is free, full, passed, faulty, and whose epoch stands. -/
theorem test_barrier_forms : (let s := setXs [(1, own 0x40), (2, 3)] wit
    let full : Bar := ⟨1, 1, 5, false, 0, false, 9, 3⟩
    let passed := (barred { full with epoch := 4 } s).modCtx s.cur fun c => { c with arrRec := some (own 0x40, 3) }
    let loc := at0 0x40
    let free := fun (t : State) => !t.requests.any (Req.onLine t.cur [lineOf loc]) && (t.ctx t.cur).unsent == [] && !t.portShut t.cur loc 16
    let found := fun (t : State) (acc : Access) => match t.locateBar t.cur acc (t.reads 1) with | .ok l => l == loc | .error _ => false
    let put := fun (t : State) (x : Bar) => t.land (⟨loc, natBytes 16 x.toNat, 0, 0⟩ : Write) (t.fromAgent 1 t.cur) []
    let here := fun t : State => found t .read && !t.requests.any (Req.onLine t.cur [lineOf loc]) && decide ((t.group t.cur).length ≤ 1) &&
      (t.barAt loc).timeout != 0
    [does s (.barinit 1 2 0) (fun t => found t .write && free t)
       (fun t => put t ⟨fld (t.reads 2) 0 16, 0, 0, false, 0, false, fld (t.reads 2) 32 32, (t.barAt loc).epoch⟩),
     does (barred { full with arrived := 0 } s) (.bararr 1 2 0) (fun t => found t .write && free t && t.performed t.cur false &&
       !(t.barAt loc).full)
       (fun t => (put t ((t.barAt loc).arrive 3)).modCtx t.cur fun c => { c with arrRec := some (own 0x40, 3) }),
     leaves (barred full s) (.bararr 1 2 0) (fun t => found t .write && free t && (t.barAt loc).full && t.performed t.cur false)
       (fun t => t.modCtx t.cur fun c => { c with park := some (.bararr loc (own 0x40) 3 1 2 0) }),
     does passed (.barwait 2 1 0) (fun t => here t && (t.barAt loc).epoch != 3) (fun t => t.modCtx t.cur fun c => { c with arrRec := none })
       (fun _ => [.toX 2 0]),
     does (barred { full with fault := true } s) (.barwait 2 1 0) (fun t => here t && (t.barAt loc).fault && (t.barAt loc).epoch == 3) id
       (fun _ => [.toX 2 2]),
     leaves (barred full s) (.barwait 2 1 0) (fun t => here t && !(t.barAt loc).fault && (t.barAt loc).epoch == 3)
       (fun t => t.modCtx t.cur fun c => { c with park := some (.barwait loc (own 0x40) 3 (some (t.agentNs t.cur + 9)) 2 1 0) })] :
     List Bool).all id = true := by decide +kernel
/-- Barriers: each outcome of the check, sums at both ends of 28 signed bits. -/
theorem test_barrier_sums : (∃ b : Bar, b.expected ≠ 0 ∧ b.arrived = b.expected ∧ b.pending = 0 ∧ b.fault = false) ∧
    (∃ b : Bar, b.pending + 1 < 2 ^ 27 ∧ -(2 ^ 27) ≤ b.pending + 1) ∧ (∃ b : Bar, 2 ^ 27 ≤ b.pending + 1) ∧ ∃ b : Bar,
      b.pending - (1 : Nat) < -(2 ^ 27) :=
  ⟨⟨⟨0xFFFF, 0xFFFF, 0, false, 0, false, 0, 0⟩, by decide⟩, ⟨⟨1, 0, 2 ^ 27 - 2, false, 0, false, 0, 0⟩, by decide⟩,
    ⟨⟨1, 0, 2 ^ 27 - 1, false, 0, false, 0, 0⟩, by decide⟩, ⟨⟨1, 0, -(2 ^ 27), false, 0, false, 0, 0⟩, by decide⟩⟩

/-- HelperGangForms: a free helper and none, a helper that ends and one that waits, each form in the other kind of context. -/
theorem test_helper_forms : (let busy := (List.range 11).foldl (fun s t => s.modCtx (.ctx 0 0 t) fun c => { c with run := 0 }) wit
    let shut := fun t : State => t.modCtx t.cur Ctx.closeWindows
    let waits := (helper wit).modCtx (.ctx 0 0 10) fun c => c.withPend [⟨.x, 5, 0, [], 0, 2, false, none, []⟩]
    let finished := fun t : State => ((shut t).ctx t.cur).arch.pend.all Pending.done && (shut t).performed t.cur false &&
      (shut t).noSend t.cur
    let pc := fun t : State => (⟨0x06, 1, (t.ctx t.cur).arch.pc, false⟩ : Trap)
    [does (setXs [(2, 9)] wit) (.hstart 1 2 4 0) (fun t => t.freeSlot 0 == some 1 && t.placeFree 0 && t.performed t.cur false)
       (fun t => (t.reserve 0).startHelper 0 1 ((t.ctx t.cur).arch.pc + 16) 9 (t.ctx t.cur).deleg .hstart) (fun _ => [.toX 1 1]),
     does busy (.hstart 1 2 4 0) (fun t => (t.freeSlot 0).isNone) id (fun _ => [.toX 1 (BitVec.allOnes 64)]),
     denies (helper wit) (.hstart 1 2 4 0) (fun t => t.cur == .ctx 0 0 10) pc, denies wit (.hend 0) (fun t => t.cur == .ctx 0 0 0) pc,
     leaves (helper wit) (.hend 0) finished (fun t => ((shut t).retireCtx t.cur).postReserved 0 ⟨0, msgHeader ((shut t).cidOf 0) 10 3 0, 10⟩),
     leaves waits (.hend 0) (fun t => !finished t) (fun t => (shut t).modCtx t.cur fun c => { c with park := some .hend })] :
     List Bool).all id = true := by decide +kernel

/-- HelperGangForms: masks that are no run, a gang that waits, one that forms, one with another mask; `split` in a gang and outside;
`live`; `yield` under both policies. -/
theorem test_gang_forms : (let s := setXs [(1, 3)] wit
    let waits := fun (m : BitVec 8) (s : State) => s.modCtx (.ctx 0 1 0) fun c => { c with run := 0, park := some (.gang m 1 0) }
    let others := fun t : State => match (t.ctx (ctxOf (coreId 0 1) 0)).park with | some (.gang m _ _) => some m | _ => none
    let ganged := { wit with cores := [(0, { wit.core 0 with gang := some 3 })] }
    let hardware := wit.modCore 0 fun k => { k with policy := true }
    [raises (setXs [(1, 5)] wit) (.gang 1 0) (fun t => (t.core 0).gang == none) (fun _ => ⟨0x10, 0xFF, 0, false⟩),
     leaves s (.gang 1 0) (fun t => others t == none) (fun t => t.modCtx t.cur fun c => { c with park := some (.gang 3 1 0) }),
     leaves (waits 3 s) (.gang 1 0) (fun t => others t == some 3) (fun t => t.formGang 0 3 (.gang 1 0)),
     leaves (waits 7 s) (.gang 1 0) (fun t => others t == some 7 && !([t.cur, .ctx 0 1 0] : List Agent).any t.amoOut)
       (fun t => [.ctx 0 1 0, t.cur].foldl (fun u b => u.deliver b ⟨0x10, 0xFF, 0, false⟩ (t.ctx b).arch.pc) t),
     meets ganged (.split 0) (fun t => (t.core 0).gang.isSome) && gives (.split 0) ganged
       (((ganged.before (.split 0)).leaveGang ganged.cur).leave ganged.cur (.split 0) ((ganged.ctxAt (.split 0)).arch.pc + 4) []),
     does wit (.split 0) (fun t => (t.core 0).gang.isNone) id,
     gives (.live 1 0) s ((s.before (.live 1 0)).retireLive s.cur (.live 1 0) 3 []),
     does wit (.yield 0) (fun t => !(t.core 0).policy)
       (fun t => t.modCore 0 fun x => { x with order := x.order.filter (· != 0) ++ [0], current := none }),
     does hardware (.yield 0) (fun t => (t.core 0).policy) (fun t => t.modCore 0 fun x => { x with passes := addLines x.passes [0] })] :
     List Bool).all id = true := by decide +kernel

/-- TranslationForms: an owned course and one without an owner, each outcome of the checks, an access that stops `tlbi`, a retry that
stops `replay`. -/
theorem test_translation_forms : (let q := quoin wit
    let free := { quoin wit with cur := .quoin 1 }
    let e : Word := 0x0E00000000002000
    let busy := q.modCtx (.ctx 0 0 0) fun c => { c with unsent := [⟨Home.loc (.hbm 0x1000), [1], 0, 1⟩] }
    let missed := (q.modCourse 0 fun k => { k with miss := [⟨.ctx 0 0 0, none, 0x1008, 0, false⟩] }).modCtx (.ctx 0 0 0) fun c =>
      { c with park := some (.miss [0x1008]) }
    let removed := fun (p : TlbEntry → Bool) (t : State) => if (t.course 0).shot = [] then (t.shootDown 0 p).modCourse 0 fun k =>
      { k with shot := ((t.course 0).tlb.filter fun e => e.owner == t.ownerRid 0 && p e).filterMap (t.reach 0) } else t
    let word := fun i : Instr => i.word
    [does (setXs [(1, 0x2000), (2, e)] q) (.tlbw 1 2 0) (fun t => t.ownerRid 0 == 1 &&
      (tlbwTrap (t.reads 1) (t.reads 2) (word (.tlbw 1 2 0))).isNone)
       (fun t => t.install 0 (entryFor 1 0x2000 e)),
     raises (setXs [(1, own 0), (2, e)] q) (.tlbw 1 2 0) (fun t => (tlbwTrap (t.reads 1) (t.reads 2) 0).isSome) (fun t => ⟨0x06, 3,
       t.reads 1, false⟩),
     does free (.tlbw 1 2 0) (fun t => t.ownerRid 1 == 0) id, does free (.replay 0) (fun t => t.ownerRid 1 == 0) id,
     does q (.tlbi 1 0) (fun t => !((removed (fun e => e.covers (t.reads 1)) t).shotBusy 0))
       (fun t => (removed (fun e => e.covers (t.reads 1)) t).modCourse 0 fun k => { k with shot := [] }),
     does q (.tlbiAll 0) (fun t => !((removed (fun _ => true) t).shotBusy 0)) (fun t => (removed (fun _ => true) t).modCourse 0 fun k => { k with shot := [] }),
     leaves busy (.tlbiAll 0) (fun t => (removed (fun _ => true) t).shotBusy 0)
       (fun t => (removed (fun _ => true) t).modCtx t.cur fun x => { x with stalled := true }),
     does q (.replay 0) (fun t => (t.course 0).replay == none && (t.beginReplay 0).replaying 0 == [])
       (fun t => (t.beginReplay 0).modCourse 0 fun k => { k with replay := none }),
     leaves missed (.replay 0) (fun t => (t.beginReplay 0).replaying 0 != [])
       (fun t => (t.beginReplay 0).modCtx t.cur fun x => { x with stalled := true }),
     ([.tlbw 1 2 0, .tlbi 1 0, .tlbiAll 0, .replay 0] : List Instr).all fun i =>
       denies wit i (fun t => t.cur.program) (fun t => ⟨0x06, 1, (t.ctx t.cur).arch.pc, false⟩)] : List Bool).all id = true := by
  decide +kernel
theorem test_entry_checks : tlbwTrap (own 0) 0 0 = some ⟨0x06, 3, own 0, false⟩ ∧ tlbwTrap 0x1000 1 0 = some ⟨0x02, 0, 0, false⟩ ∧
    tlbwTrap 0x1000 0x4E00000000001000 0 = some ⟨0x01, 0, 0x1000, false⟩ ∧ tlbwTrap 0x1000 0x3000000000000000 0 = none := by
  decide +kernel

/-- SuperstepForms: the control context in either phase, and a helper. -/
theorem test_superstep_forms : (let x := inExchange wit
    let shut := fun t : State => t.modCtx t.cur Ctx.closeWindows
    [leaves x (.ssync 0) (fun t => ((shut t).ctx t.cur).arch.pend.all Pending.done)
        (fun t => ((shut t).modRegion 1 fun r => { r with arrived := [0], wdFrom := r.wdFrom.or (some r.gtime10) }).modCtx t.cur fun c =>
          { c with park := some (.ssync 0) }),
      leaves (setXs [(2, 5)] x) (.vote .max 1 2 0) (fun t => t.performed t.cur false)
        (fun t => ((t.modRegion 1 fun r => { r with votes := addVote 0 0 5 r.votes }).modCtx t.cur fun c => { c with voteOrd := 1 }).modCtx t.cur
          fun c => { c with park := some (.vote 0 .max 1 2 0) }),
      does wit (.xphase 0) (fun t => t.cur == .ctx 0 0 0) (fun t => t.modCtx t.cur fun c => { c with exchange := true }),
     ([.ssync 0, .vote .max 1 2 0] : List Instr).all fun i => !(wit.ctx wit.cur).exchange &&
       gives i wit (wit.raise wit.cur ⟨0x02, 0, i.word, false⟩ i.bytes),
     ([.ssync 0, .vote .max 1 2 0, .xphase 0] : List Instr).all fun i =>
       denies (helper wit) i (fun t => t.cur == .ctx 0 0 10) (fun t => ⟨0x06, 1, (t.ctx t.cur).arch.pc,
         false⟩)] : List Bool).all id = true := by
  decide +kernel

/-! ### A state for each clause on the device's steps -/

/-- Changes region 1 of the test state. -/
def region (f : Region → Region) (s : State) : State := s.modRegion 1 f

/-- Context 0 of core 0. -/
def c0 : Agent := .ctx 0 0 0

/-- A reply from the port of a location is added. -/
def answered (u : State) (a : Agent) (r : ReplyOp) (loc : Nat) : State := { u with replies := u.replies ++ [⟨a, r, (filterOf loc).1⟩] }

/-- A message's reply from its target's port is added. -/
def verdict (u : State) (a : Agent) (r : ReplyOp) (port : Nat) : State := { u with replies := u.replies ++ [⟨a, r, port⟩] }

/-- FabricSteps: each kind of request behind another agent's, and what holds one back, an earlier message to its port among it. -/
theorem test_fabric : (let p : List Req := [⟨.ctx 0 1 0, .store ⟨Home.loc (.hbm 0), [1], 0, 1⟩⟩]
    let with' := fun (s : State) (r : ReqOp) => ({ s with fabric := p ++ [⟨c0, r⟩] } : State)
    let gone : State := { wit with fabric := p }
    let l := Home.loc (.hbm 0)
    let w : Write := ⟨l, [7], 0, 1⟩
    let near0 : Write := ⟨at0 0, [7], 0, 1⟩
    let go := Instr.farAccessAtHome 1
    let behind : State := { wit with fabric := [⟨c0, .send 7 2 1 8 9⟩, ⟨c0, .store ⟨Home.loc (.slice 7 0), [1], 0, 1⟩⟩] }
    let shut := (wit.modCourse 0 fun k => { k with token := some (.ctx 0 2 0) }).modCtx (.ctx 0 2 0) fun c =>
      { c with chunk := { c.chunk with start := some c.arch, reads := [lineOf (at0 0)] } }
    let gated := wit.modAshlar 0 fun x => { x with phase := .moved, moving := [0] }
    [!(with' wit (.store w)).behindPort 1 && behind.behindPort 1 && gives go behind behind, !p.any (Req.onLine c0 (linesOf l 8)) &&
      !(with' wit (.store w)).portShut c0 l 1 && !p.any (Req.onLine c0 [lineOf (at0 0)]),
     gives go (with' wit (.store w)) (answered (if wit.barredAt c0 l then gone.countDrop c0 else gone.land w (wit.fromAgent 0 c0) []) c0 (.ack l) l),
     !(with' wit (.amo (some .add) .i64 l 0 0 5 3)).portShut c0 l 8, !(with' wit (.cell (at0 0) 5)).portShut c0 (at0 0) 32,
     gated.gatedFrom c0 0 && gives go (with' gated (.store near0)) (with' gated (.store near0)),
     (with' shut (.store near0)).tokenBlocks (at0 0) 1 [] && !(with' shut (.store near0)).gatedFrom c0 0 &&
       gives go (with' shut (.store near0)) (({ shut with fabric := p } : State).modCore 0 fun k => { k with port := k.port ++ [.req ⟨c0, .store near0⟩] })] :
    List Bool).all id = true := by decide +kernel

/-- FabricSteps: replies that sink, one behind another of its port, and one that a mortar buffer takes. -/
theorem test_replies : (let later : State := { wit with replies := [⟨c0, .ack 5, 0⟩, ⟨c0, .value 3 9, 0⟩] }
    let with' := fun (s : State) (r : ReplyOp) => ({ s with replies := [⟨c0, r, 0⟩] } : State)
    let gated := wit.modAshlar 0 fun x => { x with phase := .moved, moving := [0] }
    [!wit.gated 0 && !(with' wit (.ack 5)).behindReply 0, later.behindReply 1 &&
      gives (.replySink 1) later later, gives (.replySink 0) (with' wit (.ack 5)) (wit.pumpCore c0),
     gives (.replySink 0) (with' wit (.value 3 9)) (((wit.modCtx c0 fun c => c.fill 3 9).sink wit c0).pumpCore c0),
     gated.gated 0 && gives (.replySink 0) (with' gated (.value 3 9)) { gated with mortar := [⟨0, .reply ⟨c0, .value 3 9, 0⟩⟩] },
     (wit.ctx c0).unsent == [] && ((wit.ctx c0).withPend [⟨.x, 3, 0, [], 0, 0, false, none,
       []⟩]).chunk.start == none] : List Bool).all id = true := by
  decide +kernel

/-- MessageSteps: a target that lives with room and one that is full, one that does not live, one in an image; verdicts; resends that
are due; a spilled message, a parked `recv`, supervisor's messages. -/
theorem test_message_steps : (let send : ReqOp := .send 7 2 1 8 9
    let with' := fun (s : State) (r : ReqOp) => ({ s with fabric := [⟨c0, r⟩] } : State)
    let reply := fun (s : State) (r : ReplyOp) => ({ s with replies := [⟨c0, r, 0⟩] } : State)
    let full := wit.modCore 7 fun k => { k with resv := 4160 }
    let v : Saved := ⟨[], [(7, Core.fresh)], [(0, Course.fresh 15)], [], [], [], []⟩
    let image := region (fun r => { r with run := .preempted, saved := some v }) wit
    let spilled := wit.modCore 0 fun k => { k with spill := [⟨0, 1, 2⟩] }
    let parked := (mailed 0 wit).modCtx c0 fun c => { c with park := some .recv }
    let m : Msg := ⟨2, msgHeader 0x7FF 2 4 5, 6⟩
    let kept := fun (u : State) => u.modRegion 1 fun r => { r with supSince := r.supSince ++ [(7, m)] }
    let put := fun (m : Msg) (s : State) => s.modRegion 1 fun r => { r with saved := r.saved.map fun v =>
      { v with cores := Map.set v.cores 7 ((Map.get Core.fresh v.cores 7).push m) } }
    [!(with' wit send).behindPort 0 && (wit.region? 1).any (fun r => r.saved == none && r.coreOf 7 == some 7) && !wit.gatedFrom c0 7,
     gives (.sendDelivery 0) (with' wit send) (verdict ((wit.modCore 7 fun k => k.push ⟨2, 8, 9⟩).recordSup 1 7 ⟨2, 8,
       9⟩) c0 .accepted (wit.portOf 1 7)),
     gives (.sendDelivery 0) (with' full send) (verdict full c0 (.busy send) (full.portOf 1 7)),
     (wit.region? 2).isNone && gives (.sendDelivery 0) (with' wit (.send 7 2 2 8 9)) (verdict (wit.countDrop c0) c0 .dropped (wit.portOf 2 7)),
     gives (.sendDelivery 0) (with' image send) (verdict ((put ⟨2, 8, 9⟩ image).recordSup 1 7 ⟨2, 8, 9⟩) c0 .accepted (image.portOf 1 7)),
     gives (.sendVerdict 0) (reply wit .accepted) (wit.pumpCore c0), gives (.sendVerdict 0) (reply wit .dropped) (wit.pumpCore c0),
     gives (.sendVerdict 0) (reply wit (.busy send)) ((reply wit (.resend send ((wit.core 0).ltime80 + 5120))).pumpCore c0),
     !(reply wit (.resend send 0)).toPaused send && gives (.sendResend 0) (reply wit (.resend send 0)) (with' wit send),
     gives (.spillRefill 0) spilled (wit.modCore 0 fun k => { k with inbox := [⟨0, 1, 2⟩] }),
     (parked.front c0).isSome && gives (.recvWake c0) parked (parked.modCtx c0 fun c => { c with park := none }),
     wit.regionCore (imageCore 1 7) == (1, 7) && wit.regionCore 7 == ((wit.site 0).rid, (wit.site 0).ocn.toNat * 8 + 7),
     gives (.supervisorMessage 7 2 5 6) wit (kept (wit.modCore 7 fun k => k.push m)),
     gives (.supervisorMessage (imageCore 1 7) 2 5 6) image (kept (put m image))] : List Bool).all id = true := by decide +kernel

/-- WaitSteps: a report, a deadline, a latched entry, a parked arrival and parked waits. -/
theorem test_wait_steps : (let parked := fun (p : Park) (s : State) => s.modCtx c0 fun c => { c with park := some p }
    let reg : Registration := ⟨lineOf (at0 0x40), 0, 0, true⟩
    let hit : State := { watching none wit with filters := [reg] }
    let b : Bar := ⟨1, 0, 0, false, 0, false, 9, 4⟩
    let w := Park.barwait (at0 0x40) (own 0x40) 3 (some 0) 5 1 0
    let same := Park.barwait (at0 0x40) (own 0x40) 4 (some 0) 5 1 0
    let arrival := barred b (parked (.bararr (at0 0x40) (own 0x40) 8 1 2 0) wit)
    let passed := barred b (parked w wit)
    let faulty := barred { b with fault := true } (parked same wit)
    let stands := barred b (parked same wit)
    let due := (watching none wit).modCore 0 fun k => { k with watches := [(0, ⟨0, lineOf (at0 0x40), 0, some 0, none⟩)] }
    let latched := watching (some 1) (parked (.mwait 0) wit)
    [hit.filters.find? (fun r => r.core == 0 && r.entry == 0 && r.hit) == some reg,
     gives (.watchReport 0 0) hit (watching (some 0) { wit with filters := [] }),
     gives (.watchTimeout 0 0) due (due.modCore 0 fun k => { k with watches := [(0, ⟨0, lineOf (at0 0x40), 0, some 0, some 1⟩)] }),
     gives (.mwaitWake c0) latched (latched.modCtx c0 fun c => { c with park := none }),
     !(arrival.barAt (at0 0x40)).full && !arrival.portShut c0 (at0 0x40) 16 && arrival.moving c0 && gives (.parkedBararrArrival c0) arrival
       (((arrival.putBar (at0 0x40) ((arrival.barAt (at0 0x40)).arrive 8) (arrival.fromAgent 1 c0)).modCtx c0 fun c =>
         { c with arrRec := some (own 0x40, 4) }).completeParked c0 (.bararr 1 2 0) []),
     passed.group c0 == [c0] && (passed.barAt (at0 0x40)).epoch == 4 && gives (.barwaitWake c0) passed
       ((passed.modCtx c0 fun c => { c with arrRec := none }).completeParked c0 (.barwait 5 1 0) [.toX 5 0]),
     gives (.barwaitWake c0) faulty (faulty.completeParked c0 (.barwait 5 1 0) [.toX 5 2]),
     decide (0 ≤ stands.agentNs c0) && gives (.barwaitTimeout c0) stands (stands.completeParked c0 (.barwait 5 1 0) [.toX 5 1])] :
     List Bool).all id = true := by decide +kernel

/-- WaitSteps: each retry of a context that is parked for it, and of one that is not. -/
theorem test_retries : ((let parked := fun (p : Park) (s : State) => s.modCtx c0 fun c => { c with park := some p }
    ([(.reservationRetry c0, .reserve), (.arrayJoinRetry c0, .array), (.copyEntryRetry c0, .copy), (.streamBindingRetry c0, .stream),
      (.collectiveJoinRetry c0, .coll)] : List (Instr × Park)).map fun e => gives e.1 (parked e.2 wit) (wit.modCtx c0 fun c => { c with park := none }) &&
        gives e.1 (parked .recv wit) (parked .recv wit)) ++
    [decide ((wit.core 0).places + wit.inMortar 0 < 4160), decide ((wit.course 0).jobs.length < 8), decide (wit.entriesUsed 0 < 32),
     decide (wit.bindings 0 < 16), decide (wit.collUsed 0 < 16)] : List Bool).all id = true := by decide +kernel

/-- ChunkSteps: a closed chunk, a full one at its limit, one near store, a pending result, fills, a line that is mapped. -/
theorem test_chunk_steps : (let opened := fun (n : Nat) (closed : Bool) => wit.modCtx c0 fun c => { c with chunk := { Chunk.empty with
      start := some c.arch, count := n, closed := closed, near := [⟨at0 0x36FFF8, [1], 0, 1⟩] } }
    let r : Pending := ⟨.x, 3, 7, [], 0, 0, false, none, []⟩
    let late := wit.modCtx c0 fun c => c.withPend [r]
    let asks := (next 0x70084000).modCore 0 fun k => { k with rfile := [], fillQ := [0] }
    let idle := wit.modCore 0 fun k => { k with fillQ := [0] }
    [((opened 1 true).group c0).any (fun b => ((opened 1 true).ctx b).chunk.closed) && (opened 1 true).mayCommit c0 &&
       gives (.chunkCommit c0) (opened 1 true) ((opened 1 true).commit c0),
     (opened 512 false).chunkFull c0 && (opened 512 false).group c0 == [c0] &&
       gives (.chunkLimitClose c0) (opened 512 false) (opened 512 true),
     ((opened 1 true).ctx c0).chunk.far == [] && (match homeOf (at0 0x36FFF8) with | .slice _ off => decide (off < 0x370000) | _ => false),
     gives (.pendingResultLanding c0 0) late ((wit.modCtx c0 fun c => (c.withPend [{ r with done := true }]).settle).sink late c0) &&
       late.replies == [],
     (idle.fillOf c0).isEmpty && gives (.registerFill c0 [] []) idle (wit.modCore 0 fun k => { k with fillQ := [] }),
     wit.poison == [] && (asks.fillOf c0) == [(.x, 1), (.v, 1)] && gives (.registerFill c0 [1] [1]) asks
       (asks.modCore 0 fun k => { k with rfile := [⟨0, .x, 1, false, true⟩, ⟨0, .v, 1, false, true⟩], fillQ := [] }),
     (match wit.resolve (ctxOf 0 0) .fetch (0x10FF &&& ~~~(0xFF#64)) with | .ok l => l == Home.loc (.hbm 0x1000) | _ => false)] :
     List Bool).all id = true := by decide +kernel

/-- ContextSteps: a ready context whose instruction can meet the fault, held, waiting and free ones, a helper of `hstart`. -/
theorem test_context_steps : (let s := next 0x70084000
    let run := fun (r : BitVec 2) => wit.modCtx c0 fun c => { c with run := r }
    let after := fun (i : Instr) (s : State) (p : State → Bool) => match exec i s with | .next u => p u | _ => false
    let i := (s.instrAt c0).getD (.nop .l0)
    [s.ready c0 && s.nextInstr c0 == some i && s.meets c0 i 0x09 3 0 && s.canTrap c0 && !i.transfer &&
       after (.trap c0 0x09 3 0) s (fun u => (u.ctx c0).run == 1 && (u.ctx c0).cause.toNat == 0x30009 && (u.course 0).notices.length == 2),

     !wit.inStop 0 && ((run 1).ctx c0).arch.pend == [] && after (.contextResume c0) (run 1) (fun u => (u.ctx c0).run == 0 &&
       (u.ctx c0).arch.pc == (wit.ctx c0).epc),
     after (.contextResume c0) (run 2) (fun u => (u.ctx c0).run == 0 && (u.ctx c0).arch == (wit.ctx c0).arch),
     after (.contextEnd c0) wit (fun u => (u.ctx c0).run == 3 && !(u.core 0).order.contains 0),
     after (.contextEnd (.ctx 0 0 10)) (helper wit) (fun u => (u.core 0).inbox ++ (u.core 0).spill == [⟨0, msgHeader 0 10 3 0, 26⟩]),
     gives (.contextEnd c0) (run 2) (run 2), gives (.contextEnd (.ctx 0 0 5)) wit wit] : List Bool).all id = true := by decide +kernel

/-- What a step leaves, where it leaves a state. -/
def then' (i : Instr) (s : State) (p : State → Bool) : Bool := match exec i s with | .next u => p u | _ => false

/-- RegisterWriteSteps: cadences at the ends of their range, layouts before the first launch, a known CSR, values that are denied. -/
theorem test_register_writes : ([decide (1 ≤ fld 16 0 5 ∧ fld 16 0 5 ≤ 16), decide (¬(1 ≤ fld 0 0 5)), !State.reset.dev.launched &&
  State.reset.dev.fuses == [],
    decide (fld 0x7000000000000000 60 3 ∈ [0, 1, 2, 7]) && decide (fld 0x3000000000000000 60 3 ∈ [3, 4, 5, 6]), csrKnown c0 0x305 &&
      csrKnown .plinth 0x702,
    wit.reachable c0 && wit.reachable .plinth, isOk (wit.csrWrite .supervisor c0 1 5 5), !isOk (wit.csrWrite .supervisor c0 0x201 5 5),
    gives (.registerWrite (.pasid 1) 0x12345678) wit (wit.modFn 1 fun x => { x with pasid := 0x45678 }),
    !isOk (wit.csrWrite .supervisor c0 8 0x2000000000 0x2000000000)] : List Bool).all id = true := by decide +kernel
/-- RegisterWriteSteps: a denied write is the trap of the course's quoin. -/
theorem test_register_denied : (then' (.registerWrite (.csr c0 0x201) 5) wit (fun u => (u.ctx (.quoin 0)).cause.toNat % 256 == 0x06 &&
    (u.block 0).cadence == (wit.block 0).cadence) && then' (.cadenceWrite 0 5) wit (fun u => (u.block 0).cadence == 5) &&
    then' (.rstatWrite 0 0x30000) wit (fun u => (u.course 0).rstat.getLsbD 16 && (u.course 0).rstat.getLsbD 17)) = true := by decide +kernel

/-- SuperstepSteps: a region whose one counted context has arrived, one whose vote is complete, one whose watchdog is due. -/
theorem test_superstep_steps : (let arrived := (region (fun r => { r with courses := [0], arrived := (List.range 8) }) wit).modCtx c0 fun c =>
      { c with park := some (.ssync 0), exchange := true }
    let voted := (region (fun r => { r with votes := [⟨0, (List.range 8).map fun k => (k, 5)⟩] }) wit).modCtx c0 fun c => { c with park := some (.vote 0 .max 1 2 0) }
    let late := region (fun r => { r with wdFrom := some 0, gtime10 := 10000, eff := { r.eff with watchdog := 1 } }) wit
    [(arrived.region? 1).any (fun r => r.run == .running && r.colls == [] && r.votes == [] && r.arrived != [] &&
        (arrived.counted r).all (fun n => r.arrived.contains (arrived.cidOf n)) && r.cores.all (fun n => !arrived.gated n) &&
        r.courses.all (fun c => (arrived.course c).copies == []) &&
        (arrived.helpers r).all fun a => !(arrived.ctx a).chunkOpen && !arrived.missing a) && arrived.fabric == [] && arrived.replies == [] &&
        arrived.cores.all (fun e => e.2.port == []) && arrived.ctxs.all fun e => e.2.unsent == [],
     then' (.keystoneCompletion 1) arrived (fun u => (u.region? 1).any (fun r => r.sscount == 1 && r.arrived == [] && r.snap.isSome) &&
       (u.ctx c0).park == none && !(u.ctx c0).exchange && (u.core 0).journal == Journal.clear),
     (voted.region? 1).any (fun r => r.votes.all fun v => (voted.counted r).all fun n => (Map.find v.vals (voted.cidOf n)).isSome) &&
       then' (.voteCompletion 1 0) voted (fun u => (u.ctx c0).park == none && (u.ctx c0).x 1 == 5),
     (late.region? 1).any (fun r => r.wdFrom == some 0 && !r.wdFired && decide (0 + r.eff.watchdog.toNat * 10000 ≤ r.gtime10) &&
       r.courses.all (fun c => !late.inStop c) && (late.counted r).all fun n => late.canClose (ctxOf n 0) && !late.amoOut (ctxOf n 0)) &&
       then' (.superstepWatchdog 1) late (fun u => (u.ctx c0).cause.toNat % 256 == 0x0B)] : List Bool).all id = true := by decide +kernel

/-- An uncorrectable error of core 0's slice. -/
def sramError : ErrorEvent := ⟨true, .sram, 7, 0, 3, 0x40⟩

/-- ErrorRecoverySteps: an empty bank and a full one, a self-test that is due and one under way. -/
theorem test_error_steps : (let free := State.reset.modCourse 0 fun k => { k with tests := [eventUnit sramError] }
    let under := State.reset.modCourse 0 fun k => { k with tests := [eventUnit sramError], testing := true, stopped := true }
    let full := State.reset.modCourse 0 fun k => { k with bank0 := 0x8000000000000000 }
    [!(State.reset.course 0).bank0.getLsbD 63 && (full.course 0).bank0.getLsbD 63 && !(full.course 0).bank0.getLsbD 62,
     then' (.errorRecord 0 sramError) State.reset (fun u => (u.course 0).bank0.getLsbD 63 && (u.course 0).bank0.getLsbD 62 &&
       (u.course 0).tests == [eventUnit sramError]),
     !(free.course 0).testing && !free.pausing 0 && !free.inStop 0 &&
       then' (.targetedSelfTest 0 .pass) free (fun u => (u.course 0).stopped && (u.course 0).testing),
     (eventUnit sramError).admits .pass && (eventUnit sramError).admits .failedUnit && !(eventUnit sramError).admits (.failedBand 0) &&
       (⟨2, 0, 0⟩ : TestUnit).admits (.failedBand 0),
     then' (.targetedSelfTest 0 .failedUnit) under (fun u => !(u.block 0).usable && !(u.course 0).testing && !(u.course 0).stopped),
     gives (.targetedSelfTest 0 (.failedBand 0)) under under, !State.reset.dev.takeover &&
       then' .standbyTakeover State.reset (·.dev.takeover)] :
     List Bool).all id = true := by decide +kernel

/-- ErrorRecoverySteps: a region with a snapshot and an error's notice, one without, a pre-empted one with a snapshot, an
error that no single region owns. -/
theorem test_recovery_steps : (let noticed := wit.modCourse 0 fun k => { k with notices := [.error sramError] }
    let snapped := region (fun r => { r with snap := some { ctxs := [], cores := [], jobs := [] } }) noticed
    let held := region (fun r => { r with run := .preempted, courses := [], snap := some { ctxs := [], cores := [], jobs := [] }, saved := some ⟨[], [(0, Core.fresh)], [], [], [], [], []⟩ }) wit
    let lone := State.reset.modCourse 0 fun k => { k with notices := [.error sramError] }
    let n : Notice := .error sramError
    [(held.region? 1).any (fun r => r.snap.isSome && r.run == .preempted && r.courses == [] && r.saved.any fun v => v.cores.all fun e =>
       !e.2.journal.overflow) && then' (.rollback 1) held (fun u => (u.region? 1).any fun q => q.saved.any fun w => w.ctxs == []),
     (snapped.region? 1).any (fun r => r.run == .running && r.saved == none && r.cores.all (fun n => !(snapped.core n).journal.overflow &&
      !(snapped.core n).journal.far && !(snapped.core n).journal.array && !(snapped.core n).journal.rolled) &&
      r.courses.all (fun c => !snapped.inStop c) && !snapped.domainStops r && snapped.canRollback r),
     n.isError && snapped.errorOwners 0 n == [1] && !snapped.fromFailed 0 n &&
       then' (.errorContainment 0 (some 1)) snapped (fun u => (u.course 0).notices == []),
     (noticed.region? 1).any (fun r => !noticed.canRollback r) && then' (.errorContainment 0 (some 1)) noticed (fun u => (u.ctx c0).run == 1),
     then' (.regionFault 1) wit (fun u => (u.ctx c0).run == 1), (lone.errorOwners 0 n).length != 1,
     (wit.ctx c0).run != 3, State.reset.regions == []] : List Bool).all id = true := by decide +kernel

/-- Eight joins, one of each core. -/
def joins8 : List Join := (List.range 8).map fun k => ⟨k, 0, own (k * 0x400000 + 0x100000), own (k * 0x400000 + 0x200000), 0, 0, 0, 0, 0⟩

/-- A job of one kind with some joins, first in the queue. -/
def queued (j : Job) (s : State) : State := s.modCourse 0 fun k => { k with jobs := [j] }

/-- ArraySteps: entries that start, disagree, inject, are armed, end, swap. -/
theorem test_array_steps : (let p : Job := { Job.blank .product with joins := joins8, rows := 1, bands := 15, groups := 1 }
    let running : Job := { p with started := true, effBands := 15 }
    let ended : Job := { running with row := 1 }
    let load : Job := { Job.blank .load with joins := joins8 }
    let swap : Job := { Job.blank .swap with joins := joins8 }
    let armed := (queued { running with armed := true } wit).modCourse 0 fun k => { k with rinject := 0x8000000000000000 }
    let k := wit.course 0
    [wit.courseRuns 0 && p.joins.length == 8 && (p.bands &&& k.pending) == 0 && gives (.arrayJobStart 0 0) (queued p wit)
       ((queued p wit).setCourse 0 { ((queued p wit).course 0).settleBands with jobs := [p.start ((queued p wit).course 0).settleBands (wit.courseCycles 0)] }),
     (p.start k 0).status == 3 && (({ p with disagree := true } : Job).start k 0).status == 2 && (load.start k 0).started,
     !(queued running wit).rowsShut 0 running [0] && rowsPerInjection 0 == 1 && !running.isOver &&
       then' (.arrayInjection 0 0) (queued running wit) (fun u => ((u.course 0).jobs.map (·.row)) == [1] &&
         decide (u.freeCount = (queued running wit).freeCount + 1)),
     ((armed.beforeRow 0 0 { running with armed := true }).course 0).rinject == 0,
     ended.isOver && gives (.arrayJobCompletion 0 0) (queued ended wit) ((wit.setCourse 0 k).postJob 0 ended),
     ({ load with started := true } : Job).isOver, gives (.arraySwap 0 0) (queued swap wit)
       (((queued swap wit).setCourse 0 { ((queued swap wit).course 0).settleBands with
         station := k.settleBands.shadow, shadow := k.settleBands.station, jobs := [] }).markArray 0 swap)] : List Bool).all id = true := by
  decide +kernel

/-- ArraySteps: entries of each kind that are abandoned, bands that switch on and off. -/
theorem test_array_bands : (let full := fun (x : JobKind) => (wit.modCourse 0 fun k =>
      let j := fun (x : JobKind) => { Job.blank x with joins := [⟨1, 0, 0, 0, 0, 0, 0, 0, 0⟩] }
      { k with jobs := j x :: List.replicate 7 (j .product) }).modCtx c0 fun c => { c with park := some .array }
    let switching := wit.modCourse 0 fun k => { k with switching := [(0, 0, 0)], began := [(1, 0, 0)], leaving := 4, pending := 3 }
    let later : State := ({ switching with devTime := 100000 } : State).modCourse 0 fun k => { k with clock80 := 100000 }
    ([.product, .load, .swap] : List JobKind).map (fun x => decide (8 ≤ ((full x).course 0).jobs.length) && (full x).arrayParked 0 &&
      ((full x).course 0).jobs.all (fun e => decide (e.joins.length < 8)) &&
        then' (.arrayAbandon 0) (full x) (fun u => (u.course 0).jobs.length == 7)) ++
    [Map.find (later.course 0).switching 0 == some (0, 0) && decide (0 + 16 * 80 ≤ (later.course 0).clock80) && !later.beforeInTurn 0 0 0 &&
       decide (later.beganNow 0 < 4) && gives (.bandSwitchOn 0 0) later (later.modCourse 0 fun k => { k with switching := [], began := [(1, 0, 0), (0, 100000, 100000)] }),
     gives (.bandSwitchOn 0 0) switching switching && gives (.bandPendingClear 0 1) switching switching,
     decide (0 + 1250 * 80 ≤ (later.course 0).clock80) &&
       gives (.bandPendingClear 0 1) later (later.modCourse 0 fun k => { k with began := [], pending := 1 }),
     (later.course 0).leaving.getLsbD 2 && gives (.bandPowerOff 0 2) later (later.setCourse 0
       (let e := (later.course 0).emptyBand 2
        { e with leaving := 0, lost := 2, station := e.station.lose 2 0, shadow := e.shadow.lose 2 1 })),
     then' (.arrayAbandon 0) (full .load) (fun u => (u.course 0).lost == 1 && (u.course 0).shadow.empty == (Plane.undefined 0).empty),
     (let p : Plane := ⟨some 0, 0, List.replicate 2 (lanesOf fun _ => 7)⟩
      decide (1 < p.w.length) && lane ((p.lose 1 5).w.getD 1 []) 63 == 7 && (p.lose 0 5).empty == 0),
     gives (.bandPowerOff 0 3) later later] : List Bool).all id = true := by
  decide +kernel

/-- A copy command of one element. -/
def oneElem : CopyCmd := ⟨1, 0, 3, 1, 0, 0, 0, 0, 0, 0, 0, 0, 0, 0, 0, 0⟩

/-- EngineSteps: a copy with an element left and one that is finished, its element's bytes, a bound stream. -/
theorem test_engine_steps : (let j : CopyJob := ⟨0, c0, oneElem, 0x1800, own 0x100, none, [], [], none, none, false⟩
    let finished : CopyJob := { j with performed := [0] }
    let with' := fun (j : CopyJob) => wit.modCourse 0 fun k => { k with copies := [j] }
    let st : Stream := { Stream.off with bound := true, base := own 0x100, counts := [4, 1, 1, 1], strides := [8, 0, 0, 0], ty := .i64 }
    let bound := wit.modCtx c0 fun x => { x with arch := { x.arch with streams := [(0, st)] } }
    let locs := fun (acc : Access) (w : Word) => match wit.engineLocs c0 acc w 8 0 true with | .ok ls => ls | _ => []
    [wit.moving c0 && !j.isOver && finished.isOver,
     !(with' j).engineParked c0 (.copy 0) && gives (.copyElement 0 0) (with' j) ((with' j).copyAt 0 0 j 0) &&
       gives (.copyElement 0 0) (with' { j with parked := some 0 }) ((with' { j with parked := some 0 }).copyAt 0 0 { j with parked := some 0 } 0),
     gives (.copyCompletion 0 0) (with' finished) ((wit.setCourse 0 (wit.course 0)).completeFor c0 1 (engPayload 0 8)),
     (locs .read (own 0x100)).length == 8 && (locs .write 0x1800).length == 8 && !inAperture 0x1800 &&
       !wit.readWaits c0 (locs .read (own 0x100)) &&
       !wit.engineWaits c0 (locs .write 0x1800),
     (wit.ctx c0).bufs == [] && (bound.ctx c0).arch.taken == [] && (bound.ctx c0).run == 0 && !bound.gateShut c0 (at0 0x100) &&
       !bound.engineParked c0 (.stream 0) &&
       (match bound.resolve c0 .read (own 0x100) with | .ok l => l == at0 0x100 | _ => false) &&
         isOk (bound.streamX c0 ((bound.ctx c0).stream 0)) &&
       then' (.streamRefill c0 0) bound (fun u => (u.ctx c0).bufs.map (·.1) == [0])] : List Bool).all id = true := by decide +kernel
theorem test_free_pick : ([0, 2] : List Nat).Pairwise (· < ·) ∧ (∀ x ∈ ([0, 2] : List Nat), x < 3) ∧ ([0,
  2] : List Nat).length < 3 := by decide

/-- EngineSteps: a collective that starts, one whose joins make none, one that works, one that was parked and one that has ended. -/
theorem test_collective_steps : (let cj : CollJoin := ⟨c0, .broadcast, ⟨1, 1, 0, .i32, .add, 1, own 0x200, 0⟩, own 0x100, none, [],
  none, false, false⟩
    let c : Coll := ⟨1, [cj], false, [], none⟩
    let finished : CollJoin := { cj with written := [0] }
    let bad : CollJoin := { cj with cmd := { cj.cmd with root := 1 } }
    let with' := fun (c : Coll) => region (fun r => { r with colls := [c] }) wit
    [c.sound && decide (cj.cmd.ranks.toNat ≤ c.joins.length) && gives (.collectiveStart 1 1) (with' c) (with' { c with started := true }),
     !({ c with joins := [bad] } : Coll).sound && gives (.collectiveStart 1 1) (with' { c with joins := [bad] })
       (with' { c with started := true, joins := [{ bad with ended := some (2, 0) }] }),
     !cj.isOver && (wit.region? 1).any (fun r => !wit.collParked r 1) &&
       then' (.collectiveElement 1 1) (with' { c with started := true, parked := some (0, 0) })
       (fun u => (u.region? 1).any fun r => r.colls.any fun c => c.parked == none) &&
         then' (.collectiveElement 1 1) (with' { c with started := true }) (fun u => (u.region? 1).any fun r => r.colls.any fun c => c.joins.any (·.isOver)),
     finished.isOver && !finished.posted && wit.moving c0 &&
       gives (.collectiveCompletion 1 1 0) (with' { c with started := true, joins := [finished] })
       ((with' { c with started := true, joins := [finished] } |> region fun r => { r with colls := [] }).completeFor c0 1 (engPayload 0 4))] :
     List Bool).all id = true := by decide +kernel

/-- TranslationSteps: an owner's miss notice behind another notice, answers that the budget admits and refuses, a function
whose requests are all outstanding, the host's answers
to a parked access and to a quoin that waits, a partition of one course whose entry is removed. -/
theorem test_translation_steps : (let h : Word := msgHeader 0 0 5 0
    let e : Word := 0x0E00000000002000
    let missed := wit.modCourse 0 fun k => { k with notices := [.error sramError, .miss h 0x2000], miss := [⟨c0, none, 0x2000, 0, false⟩] }
    let taken := missed.modCourse 0 fun k => { k with notices := [.error sramError] }
    let busy := missed.modCourse 0 fun k => { k with shot := [(0, 1)] }
    let mapped := wit.install 0 (entryFor 1 0x2000 e)
    let used := mapped.modCtx c0 fun c => { c with unsent := [⟨Home.loc (.hbm 0x2000), [1], 0, 1⟩] }
    let absent : Word := 0x3000000000000000
    let asked := missed.modFn (missed.pageFn 0) fun x => { x with pri := (List.range 512).map fun k => (0, BitVec.ofNat 64 k) }
    [!missed.quoinBusy 0 && fld h 53 11 != 0x7FF && gives (.missNotice 0 .absent) missed (taken.install 0 (entryFor 1 0x2000 absent)),
     missed.mayRequest 0 && !asked.mayRequest 0 && gives (.missNotice 0 .request) asked asked &&
       gives (.missNotice 0 .request) missed (taken.requestPage 0 0x2000),
     (tlbwTrap 0x2000 absent 0).isNone && fld absent 60 2 != 0 &&
       gives (.missNotice 0 (.entry absent)) missed (taken.install 0 (entryFor 1 0x2000 absent)),
     (tlbwTrap 0x2000 e 0).isNone && fld e 60 2 == 0 && taken.ownerRid 0 == 1 && (taken.region? 1).any (fun r =>
       gives (.missNotice 0 (.entry e)) missed (taken.install 0 (entryFor 1 0x2000
         (if taken.mayGrant 1 r (entryFor 1 0x2000 e).base.toNat (entryFor 1 0x2000 e).frame (entryFor 1 0x2000 e).size then e else absent)))),
     ((missed.course 0).miss.find? fun m => pageOf m.va == pageOf 0x2000).any (·.who.program) &&
       gives (.priResponse 0 0x2000 .absent) missed ((missed.requestDone 0 0x2000).install 0 (entryFor 1 0x2000 absent)) &&
       gives (.atsTranslationCompletion 0 0x2000 (.entry absent)) missed (missed.install 0 (entryFor 1 0x2000 absent)) &&
       gives (.atsTranslationCompletion 0 0x2000 .request) missed (missed.requestPage 0 0x2000),
     mapped.coursesOfKey 0 == [0] && mapped.invals == [] && !mapped.quoinBusy 0 && ((mapped.course 0).tlb.any fun t => t.covers 0x2000),
     then' (.atsInvalidation 0 [0x2000]) mapped (fun u => u.invals == [] && !(u.course 0).tlb.any fun t => t.covers 0x2000),
     (used.beginTlbi 0 (fun e => ([0x2000] : List Word).any e.covers)).shotBusy 0 &&
       then' (.atsInvalidation 0 [0x2000]) used (fun u => u.invals == [⟨[0x2000], [(0, true)]⟩] &&
         !(u.course 0).tlb.any fun t => t.covers 0x2000),
     busy.quoinBusy 0 && gives (.priResponse 0 0x2000 .absent) busy (busy.notify 0 (.host 0x2000 .absent)) &&
       gives (.missNotice 0 .absent) busy busy] :
    List Bool).all id = true := by decide +kernel

/-- SweepSteps: each phase of a sweep: one that begins, a strip passed over and one read, a round fixed and one without a routine,
a write-back, its completion and its early end. -/
theorem test_sweep_steps : (let r := routine wit
    let w : Sweep := { begun with first := false }
    let with' := fun (w : Sweep) => sweeping w r
    let parked := (sweeping begun wit).modCtx c0 fun c => { c with park := some (.sweep 3 4 0) }
    let marked := ({ with' w with mem := Memory.write wit.mem (at0 0x30000) [1] } : State).modCore 0 fun k => { k with foot := 2 ^ 0x30 }
    let w1 : Sweep := { w with cur := some 0, next := 1, active := 1, marks := [mark 0 0 0 0], steps := [0] }
    let w2 : Sweep := { w1 with active := 0 }
    let d := desc0
    [!(sweeping begun wit).sweepBegun 0 begun && begun.ending == none && wit.moving (ctxOf 0 1) && begun.issuer != begun.helper &&
       then' (.sweepStart 0) parked (fun u => (u.ctx c0).park == none && (u.ctx c0).x 3 == 1 && (u.ctx (ctxOf 0 1)).origin == .sweep),
     (with' w).sweepActs 0 w && (with' w).desc? 0 0 == some d && decide (w.next < d.strips) && !(with' w).poisoned (d.skipLoc 0 0) 1 &&
       !((with' w).homeByte (d.skipLoc 0 0)).getLsbD 0 && gives (.sweepDispatch 0) (with' w) ((with' w).setSweep 0 { w with next := 1 }),
     (marked.homeByte (d.skipLoc 0 0)).getLsbD 0 && marked.sweepActs 0 w &&
       gives (.sweepDispatch 0) marked (marked.setSweep 0 { marked.openStrip 0 w d 0 with next := 1 }),
     (with' w1).sweepActs 0 w1 && (w1.beginRound d.states).round == [(0, 1)] && gives (.sweepDispatch 0) (with' w1)
       (((with' w1).dispatch 0 (w1.beginRound 1) d (0, 1)).setSweep 0 { w1.beginRound 1 with round := [], running := some (0, 1) }),
     (w2.beginRound d.states).round == [] && gives (.sweepDispatch 0) (with' w2) ((with' w2).setSweep 0 (w2.beginRound 1)),
     !(with' w2).stripShut 0 d 0 && gives (.sweepStripWriteback 0) (with' w2) ((with' w2).writeStrip 0 w2 d 0),
     then' (.sweepCompletion 0) (with' { w with next := 1 }) (fun u => (u.core 0).sweep == none && (u.ctx (ctxOf 0 1)).run == 3),
     then' (.sweepCompletion 0) (with' { w with ending := some 6 }) (fun u => (u.core 0).sweep == none && (u.ctx (ctxOf 0 1)).run == 3)] :
    List Bool).all id = true := by decide +kernel

/-- SweepSteps: what a dispatch leaves in the helper, at a tensor's last strip of one lane; payloads at the ends of their fields. -/
theorem test_sweep_dispatch : (let r := (routine wit).modCtx (ctxOf 0 1) fun c => c.setV 8 (BitVec.allOnes 64) (lanesOf fun _ => 7)
    let d : Desc := { desc0 with count := 1 }
    let w : Sweep := { begun with first := false, cur := some 0, marks := [5], nFaulted := 0x10000, nStepped := 2 ^ 20 - 1, nStrips := 0xFFFF }
    let c := (r.dispatch 0 w d (0, 1)).ctx (ctxOf 0 1)
    [c.arch.pc == 0x1000, c.x 1 == 0 && c.x 2 == 0 && c.x 3 == 1 && c.x 4 == 0, lane (c.v 8) 0 == 5 && lane (c.v 8) 1 == 7 &&
      lane (c.v 8) 63 == 7,
     fld (w.payload 15 255) 48 16 == 0xFFFF && fld (w.payload 15 255) 28 20 == 2 ^ 20 - 1 && fld (w.payload 15 255) 24 4 == 15 &&
       fld (w.payload 15 255) 16 8 == 255 && fld (w.payload 15 255) 0 16 == 0xFFFF] : List Bool).all id = true := by decide +kernel

/-- SweepSteps: commands that arrive at an empty slot, outside the tensor, at the open strip, and at another, where its element
sleeps and where it does not. -/
theorem test_sweep_commands : (let send := fun (c : ScreedCmd) (s : State) => ({ s with fabric := [⟨ctxOf 1 0, .screed 0 0 1 c⟩] } : State)
    let s := sweeping { begun with cur := some 0 } (region (fun r => { r with courses := [0] }) wit)
    let bare := region (fun r => { r with courses := [0] }) wit
    [!(send (.wake 63) s).behindPort 0 && (s.region? 1).any (fun r => r.run == .running && r.coreOf 0 == some 0) &&
      !s.gatedFrom (ctxOf 1 0) 0 &&
       !s.screedWaits 0 0 (.wake 63) && gives (.swakeApply 0) (send (.wake 63) s) (s.modCore 0 fun k => { k with
         sweep := some { begun with cur := some 0, buffered := [.wake 63] } }),
     gives (.skipsetApply 0) (send (.skip 0 true) bare) (bare.dropWake 0 0), gives (.swakeApply 0) (send (.wake 64) s) (s.dropWake 0 0),
     (let t := sweeping begun bare
      gives (.skipsetApply 0) (send (.skip 0 true) t) (t.applyScreed 0 desc0 (.skip 0 true))),
     Map.get 0 (((s.modCore 0 fun k => { k with dropped := [(0, 255)] }).dropWake 0 0).core 0).dropped 0 == 255,
     (let m := BitVec.ofNat 32 (bytesNat (s.homeBytes (desc0.markLoc 0 0) 4))
      decide (markStatus m ≠ 1)) && s.applyScreed 0 desc0 (.wake 0) == s.setSkip 0 desc0 0 true,
     (let z := { s with mem := Memory.write s.mem (at0 0x20000) (natBytes 4 (mark 5 1 1 7).toNat) }.modCore 0 fun k => { k with foot := 2 ^ 0x20 }
      markStatus (BitVec.ofNat 32 (bytesNat (z.homeBytes (desc0.markLoc 0 0) 4))) == 1 &&
        bytesNat ((z.applyScreed 0 desc0 (.wake 0)).homeBytes (desc0.markLoc 0 0) 4) == 7 &&
        ((z.applyScreed 0 desc0 (.wake 0)).homeByte (desc0.skipLoc 0 0)).getLsbD 0 &&
          !((z.applyScreed 0 desc0 (.skip 0 false)).homeByte (desc0.skipLoc 0 0)).getLsbD 0)] : List Bool).all id = true := by decide +kernel

/-- RotationSteps: a tick that is not due; at one that is due, ashlars that it leaves, defers and stops, and one where nothing moves. -/
theorem test_rotation_tick : (let launched := wit.firstLaunch
    let early : State := { launched with dev := { launched.dev with nextTick := some 5 } }
    let late : State := { launched with dev := { launched.dev with nextTick := some 0 } }
    let mixed := (([1, 3, 5, 6, 7].foldl (fun (s : State) a => s.modAshlar a fun x => { x with deferred := true }) late).modAshlar 2 fun x =>
      { x with phase := .posted }).modAshlar 4 fun x => { x with circuits := [] }
    [gives .rotationTick early early, (List.range 256).all (fun c => (mixed.block (mixed.siteOf c)).usable) && (mixed.ashlar 1).deferred,
     mixed.defers 2 && !(mixed.ashlar 2).deferred && !mixed.defers 0 && (coursesOf 0).any mixed.moves && !mixed.defers 4 &&
       !(coursesOf 4).any mixed.moves,
     then' .rotationTick mixed (fun u => u.ashlar 1 == mixed.ashlar 1 && (u.ashlar 2).deferred && (u.ashlar 0).phase == .posted &&
       (u.course 31).stopped && u.ashlar 4 == mixed.ashlar 4 && !(u.course 128).stopped)] : List Bool).all id = true := by decide +kernel

/-- RotationSteps: a tick at which every ashlar is deferred, a deferred ashlar, courses that move, each phase of a pause. -/
theorem test_rotation_steps : (let s : State := { State.reset with dev := { State.reset.dev with nextTick := some 0 }, ashlars := (List.range 8).map fun a =>
      (a, { State.reset.ashlar a with deferred := true }) }
    let launched := wit.firstLaunch
    let off := { launched with dev := { launched.dev with rotEnable := false } }
    let phase := fun (p : RotPhase) => (launched.modAshlar 0 fun x => { x with phase := p })
    let moved := launched.modAshlar 0 fun x => { x with phase := .moved, moving := List.range 32 }
    [s.dev.nextTick == some 0 && (List.range 8).all (fun x => (s.ashlar x).deferred) && gives .rotationTick s
       ({ s with dev := { s.dev with rotTicks := 1, prevTick := 0, nextTick := some 1000000000 } }.regWritten 0),
     !(launched.modAshlar 0 fun x => { x with deferred := true }).defers 0 && gives (.rotationDeferredPost 0)
       (launched.modAshlar 0 fun x => { x with deferred := true }) ((launched.modAshlar 0 fun x => { x with deferred := true }).postRotation 0),
     (coursesOf 0).all (fun c => (launched.block (launched.siteOf c)).usable) && launched.dev.rotEnable && (coursesOf 0).any launched.moves &&
       ((launched.postRotation 0).ashlar 0).phase == .posted && (coursesOf 0).all fun c => ((launched.postRotation 0).course c).stopped,
     !off.dev.rotEnable && off.postRotation 0 == off.modAshlar 0 fun x => { x with deferred := false },
     gives (.rotationStop 0) (phase .posted) (((phase .posted).stopCourses (coursesOf 0)).modAshlar 0 fun x =>
       { x with phase := .stopped }),
     (phase .stopped).requests == [] && gives (.rotationMove 0) (phase .stopped) moved,
     moved.mortar == [] && then' (.rotationRestart 0) moved (fun t => (t.ashlar 0).phase == .moved &&
       (t.ashlar 0).moving == ((moved.ashlar 0).moving.filter fun i => !(moved.nextGroup 0).contains i) &&
         (moved.nextGroup 0).any moved.moves &&
       (moved.nextGroup 0).all fun c => !(t.course c).stopped && (!moved.moves c ||
         ((t.site c).position.toNat == nextPos (moved.circuitOf c) (moved.site c).position.toNat % 8 &&
          (t.site c).site.toNat == ringSite (moved.circuitOf c) (nextPos (moved.circuitOf c) (moved.site c).position.toNat) &&
          (t.course c).rotnCount == (moved.course c).rotnCount + 1)))] : List Bool).all id = true := by
  decide +kernel

/-- PowerSteps: a report, readings out of range, boundaries that are due and that are not, slots of a cool stack, an idle core
after 10 µs, one that becomes idle, one that is not, heat that falls after 10 ms. -/
theorem test_power_steps : (let s : State := { State.reset with devTime := 200000000 }
    let idle := (wit.modCtx c0 fun c => { c with run := 3 }).modCore 0 fun k => { k with idleFrom := some 0 }
    let later : State := { idle with devTime := 100000 }
    let hot : State := { s with dev := { s.dev with heat := [(0, 1)], heatSince := [(0, 0)] } }
    [then' (.observerUpdate [⟨255, 2000, 5, 7⟩] []) s (fun t => t.dev.observerSeq == 1 && (t.block 255).thermal.getLsbD 62 &&
      (t.block 255).power == 7 &&
       fld (t.block 255).thermal 32 16 == 2000 && fld (t.block 255).thermal 0 16 == 5),
     then' (.sensorReport 75 (-641)) s (fun t => (t.sensor 75).suspect) && then' (.sensorReport 0 2401) s (fun t => (t.sensor 0).suspect),
     decide (s.dev.controlAt < s.devTime / 40000) && then' .currentControl s (fun t => t.dev.controlAt == s.dev.controlAt + 1 &&
       (List.range 256).all fun x => (t.block x).cadence == BitVec.ofNat 5 (max (t.block x).demand (t.block x).floor)),
     decide (State.reset.devTime / 40000 ≤ State.reset.dev.controlAt) && gives .currentControl State.reset State.reset,
          decide (State.reset.dev.boostAt ≥ State.reset.devTime / 40000) && gives .boostBoundary State.reset State.reset,
     gives (.slotsUpdate 7) hot (hot.modAshlar 7 fun x => { x with slots := 14 }) &&
       gives (.slotsUpdate 0) hot (hot.modAshlar 0 fun x => { x with slots := 1 }),
     later.coreIdle 0 && gives (.powerGateEntry 0) later (later.modCore 0 fun k => { k with gated := true }),
     (let u := idle.modCore 0 fun k => { k with idleFrom := none }
      gives (.powerGateEntry 0) u (u.modCore 0 fun k => { k with idleFrom := some u.devTime })),
     !wit.coreIdle 0 && gives (.powerGateEntry 0) wit wit,
     decide (hot.stackTemp 0 ≤ 1312) && decide (0 + 100000000 ≤ hot.devTime) &&
       then' (.hbmHeatLevel 0) hot (fun t => Map.get 0 t.dev.heat 0 == 0)] :
    List Bool).all id = true := by decide +kernel
/-- PowerSteps: boundaries of two courses, one of which claims a sprint, with current for it and without, and one in a pause; an interval
that has ended and the other courses as they were. -/
theorem test_power_boost : (let only := fun a => (a, { Ashlar.fresh with sites := (List.range 32).map fun i =>
      (i, { SiteEntry.initial i with valid := decide (a = 0 ∧ i < 2) }) })
    let s : State := { State.reset with devTime := 200000000, ashlars := (List.range 8).map only, dev := { Device.reset with boostEnable := true } }
    let claims := s.modCourse 0 fun k => { k with jobs := [{ Job.blank .product with joins := joins8 }] }
    let spent : State := { claims with siteBlocks := [(9, { SiteBlock.fresh true with power := 0xFFFFFFFF })] }
    let paused := (s.modAshlar 0 fun x => { x with phase := .posted }).modCourse 0 fun k => { k with stopped := true, step := 2 }
    [decide (s.dev.boostAt < s.devTime / 40000) && claims.claims 0 && decide (claims.current + 256 * (45 * ampere / 10) ≤ 4800 * ampere) &&
       then' .boostBoundary claims (fun t => t.dev.boostAt == s.dev.boostAt + 1 && (t.course 0).step == 2 && (t.course 1).step == 0 &&
         (t.course 1).idle == 1),
     !(s.site 2).valid && (s.site 1).valid && then' .boostBoundary s (fun t => (t.course 2).idle == 0),
     decide (4800 * ampere < spent.current + 45 * ampere / 10) && spent.claims 0 &&
       then' .boostBoundary spent (fun t => (t.course 0).step == 0),
     (paused.course 0).stopped && paused.pausing 0 &&
       then' .boostBoundary paused (fun t => t.course 0 == paused.course 0)] : List Bool).all id = true := by
  decide +kernel

/-- PowerSteps: stacks at 95 °C, at 87.5 °C and cool, a request that counts and one that does not, a shortfall of a fraction
of a byte and of whole bytes; a course in each clock step. -/
theorem test_power_heat : (let s : State := { State.reset with sensors := [(64, { State.reset.sensor 64 with reading := 1520 })] }
    let p : Partition := ⟨1, [], 0, [], 1000, [(0, 0, 1000000), (0, 0, 0)], [], []⟩
    let u : State := { State.reset with devTime := 10000, partitions := [(7, p)], dev := { State.reset.dev with heat := [(0, 2)] } }
    let k : Course := { Course.fresh 15 with permits := 1 }
    let warm : State := { State.reset with sensors := [(64, { State.reset.sensor 64 with reading := 1400 })] }
    let cool : State := { wit with partitions := [(0, { p with asked := [] })] }
    let asks : State := { cool with dev := { cool.dev with heat := [(0, 1)] } }
    let none' : State := { u with partitions := [(7, { p with asked := [(0, 0, 0)] })] }
    [decide (1520 ≤ s.stackTemp 0) && decide (Map.get 0 s.dev.heat 0 < 2) &&
      then' (.hbmHeatLevel 0) s (fun t => Map.get 0 t.dev.heat 0 == 2 &&
       (t.ashlar 0).slots == 0),
     decide (1360 ≤ warm.stackTemp 0) && decide (warm.stackTemp 0 < 1520) &&
       then' (.hbmHeatLevel 0) warm (fun t => Map.get 0 t.dev.heat 0 == 1),
     decide (State.reset.stackTemp 0 < 1360) && gives (.hbmHeatLevel 0) State.reset State.reset,
     (asks.ownerRegion 0).map (·.pkey) == some 0 &&
       (Map.find (asks.ask (some 0) (Home.loc (.hbm 64)) 8).partitions 0).map (·.asked) == some [(0, 0, 8)] &&
       cool.ask (some 0) (Home.loc (.hbm 64)) 8 == cool,
     p.due 0 (u.devTime / 10000) == some (0, 0, 1000000) &&
       then' (.shortfallUpdate 7 0 1000000) u (fun t => (Map.find t.partitions 7).any fun q =>
       q.asked == [(0, 0, 0)]) && gives (.shortfallUpdate 7 0 5) u u &&
       then' (.shortfallUpdate 7 0 0) none' (fun t => (Map.find t.partitions 7).any fun q => q.shortfall == 0),
     (({ k with step := 2 } : Course).interval true 0).permits == 0 &&
       (({ k with step := 2 } : Course).interval true 0).step == 1,
         (({ k with step := 1, sprintFrom := some 0 } : Course).interval true 5).step == 0,
     (({ k with idle := 3 } : Course).interval false 0).permits == 2 &&
       (({ k with idle := 2 } : Course).interval false 0).idle == 3] : List Bool).all id = true := by
  decide +kernel

/-- The words of a root block with a budget of four courses, a partition's block and a region's block, in HBM from 0x1000 on, and a
function that holds their key. -/
def hosted : State :=
  { State.reset with
    dev := { Device.reset with statusState := 1 }
    partitions := [(7, ⟨1, [], 0, [], 0, [], [], []⟩)]
    mem := [(0x1008, 0x00001FFF00000000), (0x1028, 0x0004000000000000), (0x1100, 0x1000), (0x1108, 0x2000000000000007),
      (0x1200, 0x1100), (0x1208, 0x4000000000000007), (0x1210, 0x4000)].foldl
      (fun m (w : Nat × Nat) => Memory.write m (Home.loc (.hbm w.1)) (natBytes 8 w.2)) [] }

/-- A message of key 7. -/
def key7 : BitVec 128 := 0x00070000000000000000000000000000

/-- Region 3 of key 7 on course 0 of function 1. -/
def living : State := ({ hosted with regions := [(3, { oneCourse with pkey := 7, fn := 1 })] } : State).modSite 0 fun e => { e with rid := 3 }

/-- A saved image of one course. -/
def image1 : Saved := ⟨[], [], [(0, Course.fresh 15)], [], [], [], []⟩

/-- HostRequests: a reply that is read, a launch that is taken, that waits, of a malformed block, of another key. -/
theorem test_launches : (let pausing := hosted.modAshlar 0 fun x => { x with phase := .posted }
    let full : State := { hosted with fns := [(1, { Fn.fresh with reply := 0x8000000000000000 })] }
    let replied := full.modFn 1 fun x => { x with reply := 0 }
    [gives (.replyWordRead 1) full replied, ((hosted.reply 1 3 255).fn 1).reply.getLsbD 63 &&
      fld ((hosted.reply 1 3 255).fn 1).reply 16 16 == 3 &&
       fld ((hosted.reply 1 3 255).fn 1).reply 0 8 == 255,
     hosted.takes 1 && !hosted.dev.takeover && pausing.takes 1 && pausing.anyPause &&
       gives (.launch 1 (key7 + 0x1200) []) pausing { pausing with waiting := [⟨1, key7 + 0x1200, .launch []⟩] } &&
       gives (.migrationResume 1 (key7 + 0x1200) []) pausing { pausing with waiting := [⟨1, key7 + 0x1200, .resume []⟩] },
     !hosted.anyPause && (match hosted.launchStatus 1 (key7 + 0x1200) (hosted.assign · [4, 5, 6, 7]) with
       | (0, b :: bs, cs) => b.entry == 0x4000 && cs == [4, 5, 6, 7] && gives (.launch 1 (key7 + 0x1200) [4, 5, 6, 7]) hosted
           ((hosted.startRegion 1 7 (b :: bs) b cs).reply 1 1 0)
       | _ => false),
     (hosted.launchStatus 1 (key7 + 0x1300) (hosted.assign · [])).1 == 1 && gives (.launch 1 (key7 + 0x1300) []) hosted (hosted.reply 1 0 1),
     (hosted.launchStatus 2 (key7 + 0x1200) (hosted.assign · [])).1 == 3 && gives (.launch 2 (key7 + 0x1200) []) hosted (hosted.reply 2 0 3),
     !full.takes 1 && [Instr.launch 1 (key7 + 0x1200) [], .teardown 1 (key7 + 3), .partitionReset 1 key7, .migrationStop 1 (key7 + 3),
       .migrationResume 1 (key7 + 0x1200) []].all fun i => gives i full full] : List Bool).all id = true := by decide +kernel

/-- HostRequests: requests that name a region, in a pause and out of one, one that names none, partition requests. -/
theorem test_requests : (let pausing := living.modAshlar 0 fun x => { x with phase := .posted }
    let waits := living.modRegion 3 fun r => { r with run := .preempted, saved := some image1 }
    [(match living.ridStatus 1 (key7 + 3) with | (0, some r) => !living.inPause (living.below r) && r.run == .running | _ => false) &&
       then' (.teardown 1 (key7 + 3)) living (fun u => u.regions == [] && (u.fn 1).reply.getLsbD 63),
     (match pausing.ridStatus 1 (key7 + 3) with | (0, some r) => pausing.inPause (pausing.below r) | _ => false) &&
       gives (.teardown 1 (key7 + 3)) pausing { pausing with waiting := [⟨1, key7 + 3, .teardown⟩] },
     gives (.migrationStop 1 (key7 + 3)) living (living.beginStop 3 (some 1)),
     (match waits.ridStatus 1 (key7 + 3) with | (0, some r) => r.run == .preempted | _ => false) && gives (.migrationStop 1 (key7 + 3)) waits
       ((waits.modRegion 3 fun r => { r with run := .migrating, still10 := 0 }).reply 1 0 0),
     (living.modRegion 3 fun r => { r with run := .stopping }).region? 3 != none &&
       gives (.migrationStop 1 (key7 + 3)) (living.modRegion 3 fun r =>
       { r with run := .stopping }) (living.modRegion 3 fun r => { r with run := .stopping, migration := some 1 }),
     (living.ridStatus 2 (key7 + 3)).1 == 3 && gives (.teardown 2 (key7 + 3)) living (living.reply 2 0 3) &&
       gives (.migrationStop 2 (key7 + 3)) living (living.reply 2 0 3), (living.ridStatus 1 (key7 + 4)).1 == 6 &&
         ((living.modRegion 3 fun r => { r with run := .migrating }).ridStatus 1 (key7 + 3)).1 == 6,
     key7.toNat % 2 ^ 112 == 0 && living.keyOf 1 == some (msgKey key7) && !living.inPause (living.regionsOf 7) &&
       gives (.partitionReset 1 key7) living ((living.resetPartition 1 7).reply 1 0 0),
     (key7 + 1).toNat % 2 ^ 112 != 0 && gives (.partitionReset 1 (key7 + 1)) living (living.reply 1 0 1),
     then' (.functionLevelReset 1) living (fun u => u.regions == [] && (u.fn 1) == Fn.fresh),
     (living.region? 3).isSome && ((living.endRegion 3).region? 3).isNone &&
       (living.resetPartition 1 7).regions.all fun e => e.2.pkey != 7] : List Bool).all id = true := by decide +kernel

/-- HostRequests: a region that has been stopped for its migration goes on under a new rid. -/
theorem test_migration : (let m : State := { hosted with regions := [(3, { oneCourse with run := .migrating, pkey := 7, gtime10 := 55, saved := some image1 })] }
    [(match m.launchStatus 1 (key7 + 0x1200) (m.reassign (msgKey (key7 + 0x1200)) []) with
      | (0, b :: bs, cs) => (match m.migrated 7 (effective (b :: bs)).save with
        | some (old, r, v) => old == 3 && gives (.migrationResume 1 (key7 + 0x1200) []) m
            ((m.resumeMigrated 1 7 (b :: bs) b cs old r v).reply 1 m.newRid 0) &&
            ((m.resumeMigrated 1 7 (b :: bs) b cs old r v).region? m.newRid).any fun r' => r'.run == .running && r'.courses == cs &&
              r'.gtime10 / 10 == 5
        | none => false)
      | _ => false),
     (m.launchStatus 1 (key7 + 0x1300) (m.reassign (msgKey (key7 + 0x1300)) [])).1 == 1 &&
       gives (.migrationResume 1 (key7 + 0x1300) []) m (m.reply 1 0 1)] : List Bool).all id = true := by decide +kernel

/-- DeviceSteps: a region that may be pre-empted, one in a pause, one of no time slice and one whose slice is not over, one
whose stop ends, one that resumes. -/
theorem test_preemption : (let early := region (fun r => { r with eff := { r.eff with slice := 1 } }) wit
    let sliced : State := { early with devTime := 10000 }
    let paused := sliced.modAshlar 0 fun x => { x with phase := .posted }
    let stopping := region (fun r => { r with run := .stopping }) sliced
    let leaving := region (fun r => { r with migration := some 1 }) stopping
    let waits : State := { hosted with regions := [(3, { oneCourse with rcb := 0x1200, run := .preempted, saved := some image1 })] }
    [(sliced.region? 1).any (fun r => sliced.mayPreempt r && r.eff.slice != 0 &&
      decide (r.slice10 + r.eff.slice.toNat * 10000 ≤ sliced.devTime)) &&
       gives (.preemption 1) sliced ((region (fun r => { r with run := .stopping, due := false }) sliced).modCourse 0 id),
     (paused.region? 1).any (fun r => !paused.mayPreempt r && r.run == .running) &&
       gives (.preemption 1) paused (region (fun r => { r with due := true }) paused),
     gives (.preemption 1) stopping (stopping.save 1 .preempted), gives (.preemption 1) leaving
       (((leaving.save 1 .migrating).modRegion 1 fun r => { r with migration := none, still10 := 0 }).reply 1 0 0),
     (wit.region? 1).any (fun r => r.eff.slice == 0) && gives (.preemption 1) wit wit && gives (.preemption 1) early early,
     (match waits.readChain 8 0x1200 with
      | some (b :: bs) => !(chainOf (b :: bs)).any (fun c => decide (c.2.1 < waits.subtreeCourses c.1 + 1)) &&
          gives (.preemptionResume 3 [9]) waits (((waits.loadRanks 0 (b :: bs)).modRegion 3 fun r =>
            { r with eff := effective (b :: bs), chain := chainOf (b :: bs) }).restore 3 image1 0 [9])
      | _ => false), waits.pickCourses 1 [9] == some [9] && !waits.pausing 0 && waits.freeCourses.contains 9] : List Bool).all id = true := by
  decide +kernel

/-- DeviceSteps: writes that BAR2 takes to HBM and to a slice, that wait behind another and at a closed ingress, that are refused; flits
whose key is and is not in a port's set, that wait, that carry no request; a partition that is created. -/
theorem test_device_steps : (let mine : State := { hosted with grants := [⟨0x10000, 0x1000, 7, 0, 0⟩], ports := [(0, ⟨[7], 0⟩)] }
    let aimed : State := { living with fns := [(1, { Fn.fresh with target := 3 })] }
    let shut := aimed.modRegion 3 fun r => { r with run := .stopping }
    let behind : State := { mine with inbound := [⟨1, 0, 5, .write [1]⟩] }
    let off : State := { mine with fns := [(1, { Fn.fresh with enabled := false })] }
    let ready : State := { mine with dev := { mine.dev with statusState := 1 } }
    let safe : State := { mine with dev := { mine.dev with statusState := 2 } }
    let bs : List Byte := [1, 2]
    [behind.inboundBehind 5 && gives (.inboundBar2Access 1 0x10000 5 (.write bs)) behind { behind with inbound := behind.inbound ++ [⟨1, 0x10000, 5, .write bs⟩] },
     (mine.fn 1).enabled && !mine.inboundBehind 5 && (match mine.bar2 1 0x10000 2 with | .hbm a => a == 0x10000 | _ => false) &&
       gives (.inboundBar2Access 1 0x10000 5 (.write bs)) mine (mine.land ⟨Home.loc (.hbm 0x10000), bs, 0, 0⟩ From.outside []),
     (match aimed.bar2 1 0x10000000100 2 with
      | .slice c o w => c == 0 && o == 0x100 && !aimed.ingressShut 0 && !aimed.tokenBlocks (at0 0x100) 2 [] &&
          gives (.inboundBar2Access 1 0x10000000100 5 (.write bs)) aimed (aimed.land ⟨at0 0x100, bs, w, 0⟩ From.outside [])
      | _ => false),
     (match shut.bar2 1 0x10000000100 2 with | .slice 0 _ _ => shut.ingressShut 0 | _ => false) &&
       gives (.inboundBar2Access 1 0x10000000100 5 (.write bs)) shut { shut with inbound := [⟨1, 0x10000000100, 5, .write bs⟩] },
     (match mine.bar2 1 0x20000 2 with | .refused => true | _ => false) && gives (.inboundBar2Access 1 0x20000 5 (.write bs)) mine
       { mine with dev := { mine.dev with aer := [⟨1, 0x20000, true⟩] } },
     !(off.fn 1).enabled && gives (.inboundBar2Access 1 0x10000 5 (.write bs)) off { off with dev := { off.dev with aer := [⟨1, 0x10000, true⟩] } },
     !(mine.port 31).keys.contains 7 && then' (.gweamFlitArrival 31 7 ⟨.request, 1, 2,
       .store 0 bs⟩) mine (fun t => t.mem == mine.mem && (t.port 31).refused == 1),
     (mine.port 0).keys.contains 7 && !mine.late && gives (.gweamFlitArrival 0 7 ⟨.request, 1, 2, .store 0x10000 bs⟩) mine
       (mine.land ⟨Home.loc (.hbm 0x10000), bs, 0, 0⟩ From.outside []) &&
         gives (.gweamFlitArrival 0 7 ⟨.request, 1, 2, .load 0 1⟩) mine mine &&
       gives (.gweamFlitArrival 0 7 ⟨.reply, 1, 2, .load 0 1⟩) mine mine,
     ([.amo none .i64 0x10000 0 5, .faddx 0x10000 0x3F800000, .mon 0x10000] : List GweamOp).all fun o =>
       gives (.gweamFlitArrival 0 7 ⟨.request, 1, 2,
         o⟩) { mine with late := true } { mine with late := true, dev := { mine.dev with flits := [(0, ⟨.request, 1, 2, o⟩)] } },
     then' (.gweamFlitArrival 0 7 ⟨.request, 1, 2, .amo none .i64 0x10000 0 5⟩) mine (fun t => t.rawByte (Home.loc (.hbm 0x10000)) == 5) &&
       then' (.gweamFlitArrival 0 7 ⟨.request, 1, 2, .mon 0x10000⟩) mine (fun t => t.filters.length == 1),
     gives (.gweamFlitArrival 0 7 ⟨.request, 1, 2, .store 0x10000 bs⟩) safe safe,
     ready.dev.statusState == 1 && (Map.find ready.partitions 9).isNone && (ready.keyOf 2).isNone &&
       then' (.partitionCreation 2 9 [31]) ready (fun t => (t.port 31).keys == [9] &&
       (t.port 0).keys == [7] && (Map.find t.partitions 9).any fun p => p.fn == 2)] : List Bool).all id = true := by
  decide +kernel

/-! ### Hypotheses of the statements on every form -/

/-- RegisterFrame: forms that do not close their chunk, one that is guarded off. -/
theorem test_register_frame : ((forms00.take 20 ++ forms01.take 20).all (fun i => !i.closes && i.encoded) &&
    !wit.illegal wit.cur (.vmov 1 2 1) && wit.guardMask wit.cur (.vmov 1 2 1) == 0 &&
      gives (.vmov 1 2 1) wit (wit.skip wit.cur (.vmov 1 2 1))) =
    true := by decide +kernel

/-- MemoryFrame: a byte before and one after the stored ones, at the slice's end; an atomic performed as it issues; what the clauses on
releasing and vector stores ask of the chunk and of the homes. -/
theorem test_memory_frame : (let s := setXs [(1, own 0x36FFF8)] wit
    let a := setXs [(2, own 0x40)] wit
    let i : Instr := .amo .add .i64 1 2 3 0
    [s.performs (.st .i64 .plain 1 1 none) && (s.before (.st .i64 .plain 1 1 none)).writable (own 0x36FFF8) 8 (at0 0x36FFF8) (own 0x36FFF8) && s.cur != .plinth,
     (s.group s.cur) == [s.cur] && (s.ctx s.cur).chunk.near == [] && near s.cur (at0 0x100) && !near s.cur (Home.loc (.hbm 0)),
     (s.ctx s.cur).chunk.far == [] && (match homeOf (at0 0x36FFF7) with | .slice _ off => decide (off < progEnd) | _ => false) &&
       decide (at0 0x36FFF7 < at0 0x36FFF8) && decide (at0 0x36FFF0 + 8 ≤ at0 0x36FFF8),
     a.performs i && (match (a.before i).locateRmw a.cur (own 0x40) 8 with
       | .ok loc => loc == at0 0x40 && !(a.before i).barred a.cur .write (own 0x40) && !(a.before i).meetsError a.cur loc 8 &&
         !(a.before i).late &&
           !(a.before i).rmwWaits a.cur loc 8
       | _ => false) && then' i a (fun w => w.homeByte (at0 0x48) == (a.before i).homeByte (at0 0x48))] : List Bool).all id = true := by decide +kernel

/-- StepRunsDecoded: a word of the context that its core selects, one that it does not select, one whose words miss, a step
of the device, a slot that
names none. -/
theorem test_step : (let s := next 0x70084000
    let i : Instr := .vld 1 1 none 0 0
    let u := ({ s with agenda := [], late := false } : State).advance 8
    let other := s.modCtx (.ctx 0 0 1) fun c => { c with arch := { c.arch with pc := 0x1000 } }
    let lost := s.modCtx c0 fun c => { c with arch := { c.arch with pc := 0x5000 } }
    let event : State := { s with agenda := [⟨0, false, [], .event .rotationTick⟩] }
    [s.agenda == [⟨8, false, [], .issue c0⟩] && !u.fetchMisses c0 && (match u.choice 0 with
       | some (t, v) => t == 0 && (v.group c0).all v.ready && (v.ctx c0).lost == none &&
           (match ({ v with cur := c0, lead := none, together := false } : State).fetchInstr c0 0x1000 with
            | .ok w ws => (v.fetchError c0 0x1000 (1 + ws.length)).isNone && wordIs w ws i
            | _ => false)
       | none => false),
     (match step (State.reset.withFetchWord 64 0x4020000001380110) with
      | .next t => (t.ctx c0).arch.pc == 0x1008 && (t.ctx c0).x 7 == 0x40200000
      | _ => false),
     !(other.fetchMisses (.ctx 0 0 1)) && (other.choice 0).map (·.1) == some 0 &&
       (match step { other with agenda := [⟨8, false, [], .issue (.ctx 0 0 1)⟩] } with
      | .next t => t == ({ other with agenda := [] } : State).advance 8 | _ => false),
     lost.fetchMisses c0 && (match step lost with | .next t => (t.ctx c0).park == some (.miss [0x5000]) | _ => false),
     (Instr.rotationTick).wf && (encode Instr.rotationTick).isEmpty &&
       (match step event, exec .rotationTick (({ event with agenda := [], late := false } : State).advance 0) with
      | .next t, .next u => t == u.follow'.wake | _, _ => false),
        !(Pick.issue (.ctx 256 0 0)).wf] : List Bool).all id = true := by decide +kernel
/-- StepRunsDecoded: a quoin needs no selection. -/
theorem test_step_quoin : (let w := next 0x70084000
    let s := ({ w with agenda := [⟨8, false, [], .issue (.quoin 0)⟩] } : State).modCtx (.quoin 0) fun c => { c with arch := { c.arch with pc := 0x1000 } }
    let s := { s with mem := Memory.write s.mem (Home.loc (.hbm 0x1000)) (natBytes 4 0x70084000) }
    (Agent.quoin 0).wf && !(Agent.quoin 0).program &&
      match step s with | .next t => decide (t.cur = .quoin 0 ∨ t.agenda = []) | _ => false) = true := by
  decide +kernel

/-- EncodeRoundTrip: well-formed encoded instructions. -/
theorem test_encoded : (forms00 ++ forms01 ++ forms10).all (fun i => i.wf && i.encoded) = true := by decide +kernel

/-- MemoryFormKept: reset is in the form, and its next step goes on. -/
theorem test_memory_form : ([State.reset.memOk, wit.memOk,
  match step wit with | .next t => t.memOk | _ => false] : List Bool).all id = true := by
  decide +kernel

/-! ### Results worked in spec/04 to 06, 08 and 10 -/

/-- What x1 holds after a form is performed where x2 holds a, x3 holds b and x1 holds an older value. -/
def after (i : Instr) (a b old : Word) : Word :=
  match exec i (setXs [(1, old), (2, a), (3, b)] wit) with
  | .next t => (t.ctx t.cur).x 1
  | _ => 0

/-- R55: the worked quotients and remainders. -/
theorem test_divide : (after (.div 1 2 (.reg 3) 0) (-7) 2 0 == -3 && after (.rem 1 2 (.reg 3) 0) (-7) 2 0 == -1 &&
    after (.div 1 2 (.reg 3) 0) (2 ^ 63) (-1) 0 == 2 ^ 63 && after (.divn 1 2 (.reg 3) 0) 7 0 0 == 0xFFFFFFFFFFFFFFFF &&
    after (.remn 1 2 (.reg 3) 0) 7 0 0 == 7) = true := by decide +kernel

/-- R54, R56 to R58: the worked products, fields and clamps. -/
theorem test_integers : (after (.mulh 1 2 (.reg 3) 0) (-1) (-1) 5 == 0 && after (.mulhn 1 2 (.reg 3) 0) (-1) (-1) 0 == -2 &&
    after (.bext 1 2 (.reg 3)) 0xABCD 0x204 0 == 0xBC && after (.bins 1 2 (.reg 3)) 0xF 0x23C 0 == 0xF000000000000000 &&
    after (.lim false 1 2 (.reg 3)) (-300) 8 0 == -128 && after (.lim true 1 2 (.reg 3)) 300 8 0 == 255 &&
    after (.clz 1 2) 0 0 0 == 64 && after (.sra 1 2 (.imm 31)) (-4) 0 0 == -1) = true := by decide +kernel

/-- R63: the worked conversions. -/
theorem test_convert : (after (.fcvt .i32 .f32 .rtz 1 2) 0xC02CCCCD 0 0 == -2 && after (.fcvt .i32 .f32 .rna 1 2) 0x40200000 0 0 == 3 &&
    after (.fcvt .i32 .f32 .rne 1 2) 0x40200000 0 0 == 2 && after (.fcvt .i32 .f32 .rne 1 2) 0x4F32D05E 0 0 == 0x7FFFFFFF &&
    after (.fcvt .n8 .f32 .rne 1 2) 0xBF800000 0 7 == 0 && after (.fcvt .i64 .f32 .rne 1 2) 0x7FC00000 0 7 == 0 &&
    after (.fcvt .f16 .f32 .rne 1 2) 0x477FF000 0 0 == 0x7C00 && after (.fcvt .f16 .f32 .rtz 1 2) 0x477FF000 0 0 == 0x7BFF) = true := by
  decide +kernel

/-- What lane 0 of v1 holds after a form is performed on lanes a of v2 and b of v3. -/
def laneAfter (i : Instr) (a b : W32) : W32 :=
  match exec i (wit.modCtx wit.cur fun c => (c.setV 2 (BitVec.allOnes 64) (lanesOf fun _ => a)).setV 3 (BitVec.allOnes 64) (lanesOf fun _ => b)) with
  | .next t => lane ((t.ctx t.cur).v 1) 0
  | _ => 0

/-- R83: the worked integer lanes. -/
theorem test_lanes : (laneAfter (.vadd .wrap 1 2 (.v 3) 0) 0x7FFFFFF0 0x20 == 0x80000010 &&
    laneAfter (.vadd .sat 1 2 (.v 3) 0) 0x7FFFFFF0 0x20 == 0x7FFFFFFF && laneAfter (.vadd .satn 1 2 (.v 3) 0) 0x7FFFFFF0 0x20 == 0x80000010 &&
    laneAfter (.vsub .satn 1 2 (.v 3) 0) 5 9 == 0 && laneAfter (.vmulh true 1 2 (.v 3) 0) 0xFFFFFFFF 0xFFFFFFFF == 0xFFFFFFFE &&
    laneAfter (.vabs 1 2 0) 0x80000000 0 == 0x7FFFFFFF) = true := by decide +kernel

/-- R110, R111: the worked lane conversions. -/
theorem test_lane_convert : (laneAfter (.vcvt .i8 .f32 .rne 1 2 0) 0x43480000 0 == 0x7F &&
    laneAfter (.vcvt .i8 .f32 .rdn 1 2 0) 0xC0200000 0 == 0xFFFFFFFD && laneAfter (.vcvt .n16 .f32 .rne 1 2 0) 0xC0E00000 0 == 0 &&
    laneAfter (.vcvt .b16 .f32 .rne 1 2 0) 0x3F808000 0 == 0x3F80 && laneAfter (.vcvt .b16 .f32 .rna 1 2 0) 0x3F808000 0 == 0x3F81 &&
    laneAfter (.vcvt .f32 .f16 .rne 1 2 0) 1 0 == 0x33800000) = true := by decide +kernel

/-- R104 to R106: the worked dx4 record and what it decodes to. -/
theorem test_dx4 : (let record := 0x1630022C + 2 ^ 320 * 8 + 2 ^ 352 * 0x1111 + 2 ^ 384 * 0x80
    dxEncode .dx4 (fun i => [0x40400000#32, 0xBE99999A, 0, 0, 0x3E4CCCCD, 0x3F333333].getD i 0) == record &&
    (List.range 8).map (dxDecode .dx4 record) == [0x40400000, 0xBE800000, 0, 0, 0x3E400000, 0x3F300000, 0, 0]) = true := by decide +kernel

/-- R149, R157: the worked check of two lanes. -/
theorem test_residue_check : (checkElem .normal (fun i => [529, 289, 81, 10, 81, 169, 361, 441].getD i 0) == .mismatch 3 &&
    checkElem .normal (fun i => (10 ^ 18) % modulus i) == .overflow &&
    crt [0, 1, 2, 4, 5, 6] (fun i => [529, 289, 81, 10, 81, 169, 361, 441].getD i 0) == 1000000 &&
    crt (working .normal) (fun i => (10 ^ 18) % modulus i) == 30121111802834831) = true := by decide +kernel

/-- R203 to R205: the worked cell. -/
theorem test_cell : (let c := [0x3FC00000#32, 0xBE800000, 0x1E000000, 0x1E000000, 0x1EC00000].foldl cellAdd 0
    c == 5 * 2 ^ 64 + 2 && cellValue c == 0x3FA00000) = true := by decide +kernel
end
end

-- Every step keeps memory's canonical form (O59), and the state after reset (O60).

section
namespace Sys2Proof.Machine
open Sys2Proof

/-! ## Memory's canonical form through the operations of the state

Only the writes of memory in `Laws/Map.lean` and `Laws/State.lean` change `State.mem`. Each operation of the state therefore
has one of two rules: `X_mem`, it leaves memory as it is, or `X_keeps`, it keeps memory's canonical form. A proof about
an operation uses the rules of the operations that it calls and never unfolds those. A loop goes by `foldl_mem` or
`foldl_keeps`; where the loop's body nests further ones it goes by `foldl_memOk`, which names the predicate and so lets the
kernel match its argument without evaluating the state. -/

/-- A loop over the state keeps the canonical form when each turn of it does. -/
theorem foldl_keeps {α : Type} {f : State → α → State} {l : List α} {s : State}
    (hf : ∀ s x, Memory.wf s.mem = true → Memory.wf (f s x).mem = true) (h : Memory.wf s.mem = true) :
    Memory.wf (l.foldl f s).mem = true :=
  foldl_wf (fun x s => hf s x) l s h

/-- The same of `memOk`, whose argument the kernel compares before it looks into the state. -/
theorem foldl_memOk {α : Type} {f : State → α → State} {l : List α} {s : State}
    (hf : ∀ s x, s.memOk = true → (f s x).memOk = true) (h : s.memOk = true) : (l.foldl f s).memOk = true :=
  foldl_wf (fun x s => hf s x) l s h

@[simp] theorem State.mem_ite (c : Prop) [Decidable c] (s t : State) :
    (if c then s else t).mem = if c then s.mem else t.mem := apply_ite State.mem c s t

@[simp] theorem memory_wf_ite (c : Prop) [Decidable c] (m n : Memory) :
    Memory.wf (if c then m else n) = if c then Memory.wf m else Memory.wf n :=
  apply_ite Memory.wf c m n

theorem memory_foldl_keeps {α : Type} {f : Memory → α → Memory}
    (hf : ∀ m x, Memory.wf m = true → Memory.wf (f m x) = true) (l : List α) {m : Memory}
    (h : Memory.wf m = true) : Memory.wf (l.foldl f m) = true :=
  List.foldlRecOn (motive := fun m => Memory.wf m = true) l f h fun m hm x _ => hf m x hm

section
variable {s : State}

/-! ### Shared operations of the state -/

@[simp] theorem State.land_keeps (h : Memory.wf s.mem = true) (w : Write) (f : From) (but : List Agent) :
    Memory.wf (s.land w f but).mem = true := State.land_wf w f but s h
@[simp] theorem State.commit_keeps (h : Memory.wf s.mem = true) (a : Agent) :
    Memory.wf (s.commit a).mem = true := State.commit_wf a s h
@[simp] theorem State.close_keeps (h : Memory.wf s.mem = true) (a : Agent) :
    Memory.wf (s.close a).mem = true := State.close_wf a s h
@[simp] theorem State.raiseAll_keeps (h : Memory.wf s.mem = true) (a : Agent) (t : Trap) (len : Nat) :
    Memory.wf (s.raiseAll a t len).mem = true := State.raiseAll_wf a t len s h
@[simp] theorem State.raise_keeps (h : Memory.wf s.mem = true) (a : Agent) (t : Trap) (len : Nat) :
    Memory.wf (s.raise a t len).mem = true := State.raise_wf a t len s h
@[simp] theorem State.store_keeps (h : Memory.wf s.mem = true) (a : Agent) (w : Write) :
    Memory.wf (s.store a w).mem = true := State.store_wf a w s h

@[simp] theorem State.writeRotation_mem (s : State) (w : Word) : (s.writeRotation w).mem = s.mem := rfl

@[simp] theorem State.writeCadence_mem (s : State) (site : Nat) (w : Word) : (s.writeCadence site w).mem = s.mem := by
  simp [State.writeCadence]

@[simp] theorem State.writeGap_mem (s : State) (site : Nat) (w : Word) : (s.writeGap site w).mem = s.mem := by
  simp [State.writeGap]

@[simp] theorem State.pumpCore_mem (s : State) (a : Agent) : (s.pumpCore a).mem = s.mem := by
  unfold State.pumpCore
  split <;> simp [foldl_mem]

/-! ### Fetching -/

@[simp] theorem State.completeParked_mem (s : State) (a : Agent) (i : Instr) (rs : List Result) :
    (s.completeParked a i rs).mem = s.mem := by
  simp [State.completeParked]

/-! ### Vector memory -/

@[simp] theorem State.touchAll_mem (s : State) (a : Agent) (ws : List Word) : (s.touchAll a ws).mem = s.mem := by
  simp [State.touchAll, foldl_mem]

/-! ### Atomic operations -/

@[simp] theorem State.amoFrom_keeps (h :
    Memory.wf s.mem = true) (f : From) (op : Option AmoOp) (t : AmoTy) (loc win : Nat)
    (cmp new : Word) : Memory.wf (s.amoFrom f op t loc win cmp new).2.mem = true := by
  unfold State.amoFrom
  dsimp only
  split <;> simp [h]

@[simp] theorem State.amoAtHome_keeps (h :
    Memory.wf s.mem = true) (a : Agent) (op : Option AmoOp) (t : AmoTy) (loc win : Nat)
    (cmp new : Word) : Memory.wf (s.amoAtHome a op t loc win cmp new).2.mem = true :=
  State.amoFrom_keeps h _ op t loc win cmp new

@[simp] theorem State.cellAtHome_keeps (h : Memory.wf s.mem = true) (a : Agent) (loc : Nat) (f : W32) :
    Memory.wf (s.cellAtHome a loc f).mem = true := by
  simp [State.cellAtHome, h]

/-! ### Queues, messages and replies -/

@[simp] theorem State.take_mem (s : State) (a : Agent) : (s.take a).mem = s.mem := by
  unfold State.take
  split <;> simp

@[simp] theorem State.pushImage_mem (s : State) (rid : BitVec 16) (cid : Nat) (m : Msg) :
    (s.pushImage rid cid m).mem = s.mem := by
  simp [State.pushImage]

@[simp] theorem State.recordSup_mem (s : State) (rid : BitVec 16) (cid : Nat) (m : Msg) :
    (s.recordSup rid cid m).mem = s.mem := by
  simp [State.recordSup]

@[simp] theorem State.sendVerdictOf_mem (s : State) (rid : BitVec 16) (cid ctx : Nat) (header payload : Word) (op : ReqOp) :
    (s.sendVerdictOf rid cid ctx header payload op).2.mem = s.mem := by
  unfold State.sendVerdictOf
  dsimp only
  repeat' split
  all_goals simp

@[simp] theorem State.deliverSend_mem (s : State) (i : Nat) : (s.deliverSend i).mem = s.mem := by
  simp only [State.deliverSend]
  repeat' split
  all_goals simp

@[simp] theorem State.takeVerdict_mem (s : State) (r : Reply) : (s.takeVerdict r).mem = s.mem := by
  unfold State.takeVerdict
  split <;> simp

@[simp] theorem State.sinkReply_mem (s : State) (i : Nat) (r : Reply) {f : State → Reply → State}
    (hf : ∀ s r, (f s r).mem = s.mem) : (s.sinkReply i r f).mem = s.mem := by
  unfold State.sinkReply
  dsimp only
  split
  · split
    · rfl
    · simp [hf]
  · simp [hf]

@[simp] theorem State.unpark_mem (s : State) (a : Agent) : (s.unpark a).mem = s.mem := rfl

@[simp] theorem State.queueAt_mem (s : State) (loc i : Nat) : (s.queueAt loc i).mem = s.mem := by
  unfold State.queueAt
  split <;> simp

@[simp] theorem State.atHome_keeps (h : Memory.wf s.mem = true) (r : Req) : Memory.wf (s.atHome r).mem = true := by
  unfold State.atHome
  split <;> simp [h]

@[simp] theorem State.drainPort_keeps (core n : Nat) : ∀ {s : State}, Memory.wf s.mem = true →
    Memory.wf (s.drainPort core n).mem = true := by
  induction n with
  | zero => exact id
  | succ n ih =>
    intro s h
    unfold State.drainPort
    split
    · exact h
    · split
      · exact h
      · apply ih
        split <;> simp [h]

@[simp] theorem State.drainPorts_keeps (h : Memory.wf s.mem = true) : Memory.wf s.drainPorts.mem = true := by
  simp +contextual [State.drainPorts, h, foldl_keeps]

@[simp] theorem State.watched_mem (s : State) (a : Agent) : (s.watched a).mem = s.mem := by
  unfold State.watched
  split <;> simp

@[simp] theorem State.takeReply_mem (s : State) (r : Reply) : (s.takeReply r).mem = s.mem := by
  unfold State.takeReply
  split <;> simp

@[simp] theorem State.register_mem (s : State) (loc : Nat) (r : Registration) : (s.register loc r).mem = s.mem := by
  simp [State.register, foldl_mem]

@[simp] theorem State.freeEntryAt_mem (s : State) (n e : Nat) : (s.freeEntryAt n e).mem = s.mem := by
  simp [State.freeEntryAt]

/-! ### Barriers -/

@[simp] theorem State.putBar_keeps (h : Memory.wf s.mem = true) (loc : Nat) (b : Bar) (f : From) :
    Memory.wf (s.putBar loc b f).mem = true := by
  simp [State.putBar, h]

@[simp] theorem State.lowerBar_keeps (h : Memory.wf s.mem = true) (a : Agent) (bar : Option Word) (bytes : Nat) :
    Memory.wf (s.lowerBar a bar bytes).mem = true := by
  simp only [State.lowerBar]
  repeat' split
  all_goals simp [h]

@[simp] theorem State.arriveBar_keeps (h : Memory.wf s.mem = true) (a : Agent) (loc : Nat) (addr bytes : Word) :
    Memory.wf (s.arriveBar a loc addr bytes).mem = true := by
  simp [State.arriveBar, h]

@[simp] theorem State.clearRecord_mem (s : State) (a : Agent) (st : Nat) : (s.clearRecord a st).mem = s.mem := by
  simp [State.clearRecord]

@[simp] theorem State.finishBarwait_mem (s : State) (a : Agent) (p : Nat → Bool) :
    (s.finishBarwait a p).mem = s.mem := by
  unfold State.finishBarwait
  dsimp only
  split
  · refine foldl_mem (fun s b => ?_) _ _
    split <;> simp
  · rfl

/-! ### Traps -/

@[simp] theorem State.leaveGang_mem (s : State) (a : Agent) : (s.leaveGang a).mem = s.mem := by
  unfold State.leaveGang
  split <;> simp

/-! ### Contexts and gangs -/

@[simp] theorem State.reserve_mem (s : State) (core : Nat) : (s.reserve core).mem = s.mem := rfl

@[simp] theorem State.startHelper_mem (s : State) (core t : Nat) (pc x1 : Word) (deleg : BitVec 32) (o : Origin) :
    (s.startHelper core t pc x1 deleg o).mem = s.mem := rfl

@[simp] theorem State.finishHend_mem (s : State) (a : Agent) : (s.finishHend a).mem = s.mem := by
  unfold State.finishHend
  split <;> simp

@[simp] theorem State.formGang_mem (s : State) (course : Nat) (m : BitVec 8) (own : Instr) :
    (s.formGang course m own).mem = s.mem := by
  unfold State.formGang
  exact foldl_mem (fun s k => by simp) _ _

/-! ### Streams -/

@[simp] theorem State.engineMiss_mem (s : State) (a : Agent) (op : EngineOp) (va : Word) :
    (s.engineMiss a op va).mem = s.mem := by
  unfold State.engineMiss
  split <;> simp

/-! ### Copies -/

@[simp] theorem State.enginePut_keeps (h : Memory.wf s.mem = true) (a : Agent) (locs : List Nat) (data : List Byte) :
    Memory.wf (s.enginePut a locs data).mem = true := by
  simp +contextual [State.enginePut, h, foldl_keeps]

@[simp] theorem State.healBy_mem (s : State) (loc : Nat) (va : Word) (size : Nat) (written : List Word) :
    (s.healBy loc va size written).mem = s.mem := by
  simp [State.healBy]

@[simp] theorem State.completeFor_mem (s : State) (a : Agent) (tag : BitVec 16) (payload : Word) :
    (s.completeFor a tag payload).mem = s.mem := by
  unfold State.completeFor
  split <;> simp

@[simp] theorem State.setTag_mem (s : State) (loc : Nat) (t : BitVec 3) : (s.setTag loc t).mem = s.mem := by
  unfold State.setTag
  split <;> simp

@[simp] theorem State.modCopy_mem (s : State) (course i : Nat) (f : CopyJob → CopyJob) :
    (s.modCopy course i f).mem = s.mem := rfl

@[simp] theorem State.copyAt_keeps (h : Memory.wf s.mem = true) (course i : Nat) (j : CopyJob) (k : Nat) :
    Memory.wf (s.copyAt course i j k).mem = true := by
  simp only [State.copyAt]
  repeat' split
  all_goals simp [h]

@[simp] theorem State.reserveFor_mem (s : State) (a : Agent) : (s.reserveFor a).mem = s.mem := by
  unfold State.reserveFor
  split <;> simp

/-! ### Registers of the device -/

@[simp] theorem State.writeBoost_mem (s : State) (w : Word) : (s.writeBoost w).mem = s.mem := by
  simp [State.writeBoost]

@[simp] theorem State.writeTsens_mem (s : State) (w : Word) : (s.writeTsens w).mem = s.mem := by
  simp [State.writeTsens]

/-! ### Time -/

@[simp] theorem State.advanceRegion_mem (s : State) (u : Nat) (e : BitVec 16 × Region) :
    (s.advanceRegion u e).mem = s.mem := by
  unfold State.advanceRegion
  dsimp only
  split
  · rw [State.modRegion_mem]
    exact foldl_mem (fun s c => foldl_mem (fun s k => by simp) _ _) _ _
  · split <;> simp

@[simp] theorem State.clocks_mem (s : State) (u : Nat) : (s.clocks u).mem = s.mem := rfl

@[simp] theorem State.advance_mem (s : State) (u : Nat) : (s.advance u).mem = s.mem := by
  simp [State.advance, foldl_mem]

/-! ### The array -/

@[simp] theorem State.modJob_mem (s : State) (course i : Nat) (f : Job → Job) : (s.modJob course i f).mem = s.mem := rfl

@[simp] theorem State.freeOutputs_keeps (h : Memory.wf s.mem = true) (course : Nat) (j : Job) :
    Memory.wf (s.freeOutputs course j).mem = true := by
  unfold State.freeOutputs
  refine foldl_memOk (fun s row h => ?_) h
  refine foldl_memOk (fun s x h => ?_) h
  dsimp only
  refine foldl_memOk (fun s i h => ?_) h
  exact State.land_wf _ _ _ s.tick h

@[simp] theorem State.accumulate_mem (s : State) (course : Nat) : (s.accumulate course).mem = s.mem := rfl

@[simp] theorem State.arrayRow_keeps (h : Memory.wf s.mem = true) (course i : Nat) :
    Memory.wf (s.arrayRow course i).mem = true := by
  unfold State.arrayRow
  split
  · dsimp only
    split
    · exact h
    split
    · simp [h]
    split
    · simp [h]
    · rw [State.modJob_mem]
      exact foldl_keeps (fun s e h => by simp [h]) (by simp [h])
  · exact h

@[simp] theorem State.beforeRow_mem (s : State) (course i : Nat) (j : Job) : (s.beforeRow course i j).mem = s.mem := by
  simp [State.beforeRow]

@[simp] theorem State.finishLoad_mem (s : State) (course i : Nat) (j : Job) :
    (s.finishLoad course i j).mem = s.mem := by
  simp [State.finishLoad]

@[simp] theorem State.postJob_mem (s : State) (course : Nat) (j : Job) : (s.postJob course j).mem = s.mem := by
  simp [State.postJob, foldl_mem]

@[simp] theorem State.markArray_mem (s : State) (course : Nat) (j : Job) : (s.markArray course j).mem = s.mem := by
  unfold State.markArray
  split
  · rfl
  · exact foldl_mem (fun s x => by simp) _ _

@[simp] theorem State.captureArray_mem (s : State) (course : Nat) : (s.captureArray course).mem = s.mem := by
  unfold State.captureArray
  exact foldl_mem (fun s k => by simp) _ _

@[simp] theorem State.restoreArray_mem (s : State) (course : Nat) : (s.restoreArray course).mem = s.mem := rfl

/-! ### Scheduling -/

@[simp] theorem State.takeSlot_mem (s : State) (n : Nat) (k : Core) : (s.takeSlot n k).mem = s.mem := rfl

theorem State.byPolicy_mem {n : Nat} {cand : List Nat} {u : Nat × State} (hu : s.byPolicy n cand = some u) :
    u.2.mem = s.mem := by
  unfold State.byPolicy at hu
  split at hu
  · cases hu; simp
  · cases hu

theorem State.byRelief_mem {n : Nat} {cand : List Nat} {u : Nat × State} (hu : s.byRelief n cand = some u) :
    u.2.mem = s.mem := by
  unfold State.byRelief at hu
  dsimp only at hu
  split at hu
  · cases hu; simp
  · exact State.byPolicy_mem hu

@[simp] theorem State.holdBackGang_mem (s : State) (n : Nat) : (s.holdBackGang n).mem = s.mem := by
  unfold State.holdBackGang
  exact foldl_mem (fun s m => by simp) _ _

@[simp] theorem State.gangIssues_mem (s : State) (n : Nat) : (s.gangIssues n).mem = s.mem := by
  unfold State.gangIssues
  exact foldl_mem (fun s m => State.takeSlot_mem s m _) _ _

theorem State.choice_mem {n : Nat} {u : Nat × State} (hu : s.choice n = some u) : u.2.mem = s.mem := by
  simp only [State.choice] at hu
  split at hu
  · cases hu
  split at hu
  · exact State.byPolicy_mem hu
  split at hu
  · exact State.byRelief_mem hu
  split at hu
  · exact State.byPolicy_mem hu
  split at hu
  · simpa using State.byRelief_mem hu
  · cases hu; simp

@[simp] theorem State.splitGang_mem (t s0 : State) (g : List Agent) : (t.splitGang s0 g).mem = t.mem := by
  unfold State.splitGang
  dsimp only
  split
  · rw [foldl_mem (fun t a => by simp), State.dissolve_mem]
  · rfl

/-! ### Chunks -/

@[simp] theorem State.slotFault_keeps (h : Memory.wf s.mem = true) (core : Nat) (sub : BitVec 8) (e : RegEntry) :
    Memory.wf (s.slotFault core sub e).mem = true := by
  simp [State.slotFault, h]

@[simp] theorem State.askFills_mem (s : State) : s.askFills.mem = s.mem := by
  unfold State.askFills
  refine foldl_mem (fun s a => ?_) _ _
  split
  · split
    · rfl
    split
    · simp
    · rfl
  · rfl

@[simp] theorem State.sinkReplies_mem (s : State) (p : Agent → Bool) : (s.sinkReplies p).mem = s.mem := by
  simp [State.sinkReplies, foldl_mem]

@[simp] theorem State.settleReplies_mem (s : State) (p : Agent → Bool) : (s.settleReplies p).mem = s.mem := by
  simp [State.settleReplies, foldl_mem]

@[simp] theorem State.performReq_keeps (h : Memory.wf s.mem = true) (i : Nat) :
    Memory.wf (s.performReq i).mem = true := by
  simp only [State.performReq]
  repeat' split
  all_goals simp [h]

@[simp] theorem State.drainReqs_keeps (p : Agent → Bool) (n : Nat) : ∀ {s : State}, Memory.wf s.mem = true →
    Memory.wf (State.drainReqs p n s).mem = true := by
  induction n with
  | zero => intro s h; simp [State.drainReqs, h]
  | succ n ih =>
    intro s h
    unfold State.drainReqs; dsimp only
    split
    · exact ih (by simp [h])
    · simp [h]

@[simp] theorem State.drain_keeps (h : Memory.wf s.mem = true) (p : Agent → Bool) :
    Memory.wf (s.drain p).mem = true := by
  simp [State.drain, h]

/-! ### Collectives -/

@[simp] theorem State.collAt_keeps (h : Memory.wf s.mem = true) (rid : BitVec 16) (is : Coll → Bool) (c : Coll)
    (j : CollJoin) (k : Nat) : Memory.wf (s.collAt rid is c j k).mem = true := by
  simp only [State.collAt]
  repeat' split
  all_goals simp [h, foldl_mem]

/-! ### Blocks of memory -/

@[simp] theorem State.writeRoot_keeps (h : Memory.wf s.mem = true) : Memory.wf s.writeRoot.mem = true := by
  unfold State.writeRoot
  exact foldl_keeps (fun s e h => Memory.wf_write _ _ h) (Memory.wf_clear h _ _)

@[simp] theorem State.writeLive_keeps (h : Memory.wf s.mem = true) (addr : Nat) (rid : BitVec 16) :
    Memory.wf (s.writeLive addr rid).mem = true := by
  simp [State.writeLive, h]

@[simp] theorem State.loadRanks_mem (s : State) (key : BitVec 16) (ch : List Block) :
    (s.loadRanks key ch).mem = s.mem := by
  unfold State.loadRanks
  split <;> simp

@[simp] theorem State.release_mem (s : State) (p : Grant → Bool) : (s.release p).mem = s.mem := rfl

@[simp] theorem State.grant_mem (s : State) (rid : BitVec 16) (pkey : BitVec 16) (va base size : Nat) :
    (s.grant rid pkey va base size).mem = s.mem := by
  simp [State.grant]

/-! ### Translation -/

@[simp] theorem State.dropEntries_mem (s : State) (course : Nat) (p : TlbEntry → Bool) :
    (s.dropEntries course p).mem = s.mem := by
  unfold State.dropEntries
  rw [foldl_mem (fun s k => by simp), State.modCourse_mem]

@[simp] theorem State.retryMisses_mem (s : State) (course : Nat) (p : Word → Bool) :
    (s.retryMisses course p).mem = s.mem := by
  unfold State.retryMisses
  dsimp only
  rw [foldl_mem (fun s a => by split <;> simp), State.modCourse_mem]

@[simp] theorem State.install_mem (s : State) (course : Nat) (t : TlbEntry) : (s.install course t).mem = s.mem := by
  simp only [State.install]
  repeat' split
  all_goals simp

@[simp] theorem State.unmap_mem (s : State) (owner : BitVec 16) (p : TlbEntry → Bool) :
    (s.unmap owner p).mem = s.mem := rfl

@[simp] theorem State.shootDown_mem (s : State) (course : Nat) (p : TlbEntry → Bool) :
    (s.shootDown course p).mem = s.mem := by
  simp [State.shootDown, foldl_mem]

@[simp] theorem State.beginTlbi_mem (s : State) (c : Nat) (p : TlbEntry → Bool) : (s.beginTlbi c p).mem = s.mem := by
  simp [State.beginTlbi]

@[simp] theorem State.retryEngine_mem (s : State) (m : Miss) : (s.retryEngine m).mem = s.mem := by
  unfold State.retryEngine
  split <;> simp

@[simp] theorem State.serveReplay_mem (s : State) (course : Nat) : (s.serveReplay course).mem = s.mem := by
  unfold State.serveReplay
  split <;> simp [foldl_mem]

@[simp] theorem State.beginReplay_mem (s : State) (course : Nat) : (s.beginReplay course).mem = s.mem := by
  simp [State.beginReplay]

@[simp] theorem State.serveReplays_mem (s : State) : s.serveReplays.mem = s.mem := by
  simp [State.serveReplays, foldl_mem]

@[simp] theorem State.requestPage_mem (s : State) (course : Nat) (va : Word) :
    (s.requestPage course va).mem = s.mem := by
  simp [State.requestPage]

@[simp] theorem State.requestDone_mem (s : State) (course : Nat) (va : Word) :
    (s.requestDone course va).mem = s.mem := rfl

@[simp] theorem State.answer_mem (s : State) (course : Nat) (owner : BitVec 16) (va : Word) (ans : MissAnswer) :
    (s.answer course owner va ans).mem = s.mem := by
  unfold State.answer
  split <;> simp

@[simp] theorem State.hostAnswer_mem (s : State) (course : Nat) (va : Word) (ans : MissAnswer) :
    (s.hostAnswer course va ans).mem = s.mem := by
  simp [State.hostAnswer]

@[simp] theorem State.invalidate_mem (s : State) (v : Invalidation) (w : Nat × Bool) :
    (s.invalidate v w).1.mem = s.mem := by
  simp only [State.invalidate]
  repeat' split
  all_goals simp

/-- The quoins of one invalidation work at it in turn. -/
theorem foldl_invalidate_mem (v : Invalidation) (ws : List (Nat × Bool)) : ∀ r : State × List (Nat × Bool),
    (ws.foldl (fun r w => let q := r.1.invalidate v w; (q.1, r.2 ++ q.2)) r).1.mem = r.1.mem := by
  induction ws with
  | nil => exact fun _ => rfl
  | cons w ws ih => exact fun r => (ih _).trans (State.invalidate_mem r.1 v w)

@[simp] theorem State.serveInvals_mem (s : State) : s.serveInvals.mem = s.mem := by
  unfold State.serveInvals
  rw [foldl_mem]
  exact fun s v => foldl_invalidate_mem v v.waits (s, [])

@[simp] theorem State.serveAnswers_mem (s : State) : s.serveAnswers.mem = s.mem := by
  simp [State.serveAnswers, foldl_mem]

/-! ### Stopping, saving and resuming a region -/

@[simp] theorem State.stopChunks_keeps (h : Memory.wf s.mem = true) (course : Nat) :
    Memory.wf (s.stopChunks course).mem = true := by
  unfold State.stopChunks
  split <;> simp +contextual [h, foldl_keeps]

@[simp] theorem State.abandonMisses_mem (s : State) (course : Nat) : (s.abandonMisses course).mem = s.mem := rfl

@[simp] theorem State.stopCtx_mem (s : State) (a : Agent) : (s.stopCtx a).mem = s.mem := by
  simp [State.stopCtx]

@[simp] theorem State.stopCourses_keeps (h : Memory.wf s.mem = true) (cs : List Nat) :
    Memory.wf (s.stopCourses cs).mem = true := by
  unfold State.stopCourses
  dsimp only
  rw [foldl_mem State.captureArray_mem, foldl_mem State.stopCtx_mem]
  refine State.drain_keeps ?_ _
  rw [foldl_mem State.abandonMisses_mem]
  exact foldl_keeps (fun s c h => State.stopChunks_keeps h c) h

@[simp] theorem State.writeImages_mem (s : State) (cs : List Nat) : (s.writeImages cs).mem = s.mem := by
  unfold State.writeImages
  exact foldl_mem (fun s c => foldl_mem (fun s k => by simp) _ _) _ _

@[simp] theorem State.pauseWatches_mem (s : State) (course : Nat) : (s.pauseWatches course).mem = s.mem := by
  simp [State.pauseWatches, foldl_mem]

@[simp] theorem State.endStill_mem (s : State) (rid : BitVec 16) : (s.endStill rid).mem = s.mem := by
  simp [State.endStill]

@[simp] theorem State.copyRange_keeps (h : Memory.wf s.mem = true) (src n dst : Nat) :
    Memory.wf (s.copyRange src n dst).mem = true := Memory.wf_copyRange h src n dst

@[simp] theorem State.moveAreas_mem (s : State) (src dst : Nat) : (s.moveAreas src dst).mem = s.mem := rfl

@[simp] theorem State.saveSlice_keeps (h : Memory.wf s.mem = true) (save : Word) (core cid : Nat) :
    Memory.wf (s.saveSlice save core cid).mem = true := by
  unfold State.saveSlice
  rw [State.moveAreas_mem]
  refine foldl_memOk (fun s p h => ?_) h
  dsimp only
  split
  · exact State.copyRange_keeps h _ _ _
  · exact h

@[simp] theorem State.restoreSlice_keeps (h : Memory.wf s.mem = true) (save : Word) (core cid : Nat) :
    Memory.wf (s.restoreSlice save core cid).mem = true := by
  unfold State.restoreSlice
  rw [State.moveAreas_mem]
  refine foldl_memOk (fun s p h => ?_) h
  dsimp only
  split
  · exact State.copyRange_keeps h _ _ _
  · exact Memory.wf_clear h _ _

@[simp] theorem State.writeSaveArea_keeps (h : Memory.wf s.mem = true) (save : Word) (v : Saved) :
    Memory.wf (s.writeSaveArea save v).mem = true := by
  unfold State.writeSaveArea
  refine foldl_memOk (fun s e h => ?_) h
  dsimp only [State.memOk]
  refine memory_foldl_keeps ?_ _ ?_
  · exact fun m off h => Memory.wf_write _ _ h
  · split
    · exact Memory.wf_clear h _ _
    · exact h

@[simp] theorem State.dropImage_keeps (h : Memory.wf s.mem = true) (rid : BitVec 16) :
    Memory.wf (s.dropImage rid).mem = true := by
  simp only [State.dropImage]
  repeat' split
  all_goals simp [h]

@[simp] theorem State.freeCourse_mem (s : State) (c : Nat) : (s.freeCourse c).mem = s.mem := by
  unfold State.freeCourse
  dsimp only
  rw [State.modSite_mem]
  dsimp only
  rw [foldl_mem (fun s k => State.setCore_mem s _ _), State.setCourse_mem]

@[simp] theorem State.beginStop_mem (s : State) (rid : BitVec 16) (migration : Option Nat) :
    (s.beginStop rid migration).mem = s.mem := by
  unfold State.beginStop
  split
  · split
    · rw [foldl_mem (fun s c => by simp), State.modRegion_mem]
    · split <;> simp
  · rfl

@[simp] theorem State.beginDue_mem (s : State) : s.beginDue.mem = s.mem := by
  simp [State.beginDue, foldl_mem]

@[simp] theorem State.settleReports_mem (s : State) (r : Region) : (s.settleReports r).mem = s.mem := by
  simp [State.settleReports, foldl_mem]

@[simp] theorem State.keepFilters_mem (s : State) (rid : BitVec 16) (r : Region) :
    (s.keepFilters rid r).mem = s.mem := rfl

@[simp] theorem State.modFn_mem (s : State) (n : Nat) (f : Fn → Fn) : (s.modFn n f).mem = s.mem := rfl

@[simp] theorem State.reply_mem (s : State) (fn : Nat) (rid : BitVec 16) (status : Nat) :
    (s.reply fn rid status).mem = s.mem := rfl

@[simp] theorem State.save_keeps (h : Memory.wf s.mem = true) (rid : BitVec 16) (run : RegionRun) :
    Memory.wf (s.save rid run).mem = true := by
  unfold State.save
  split <;> simp +contextual [h, foldl_keeps, foldl_mem]

@[simp] theorem State.finishStop_keeps (h : Memory.wf s.mem = true) (rid : BitVec 16) :
    Memory.wf (s.finishStop rid).mem = true := by
  simp only [State.finishStop]
  repeat' split
  all_goals simp [h]

@[simp] theorem State.takeFilters_mem (s : State) (rid : BitVec 16) (v : Saved) (f : Nat → Nat) :
    (s.takeFilters rid v f).mem = s.mem := rfl

@[simp] theorem State.restore_keeps (h :
    Memory.wf s.mem = true) (rid : BitVec 16) (v : Saved) (save : Word) (cs : List Nat) :
    Memory.wf (s.restore rid v save cs).mem = true := by
  unfold State.restore
  dsimp only
  rw [foldl_mem (fun s a => by simp), foldl_mem State.restoreArray_mem, State.endStill_mem, State.modRegion_mem,
    State.takeFilters_mem]
  refine foldl_keeps (fun s e h => State.restoreSlice_keeps h _ _ _) ?_
  rw [foldl_mem (fun s e => State.setCtx_mem s _ _), foldl_mem (fun s e => State.setCore_mem s _ _),
    foldl_mem (fun s e => by simp)]
  exact State.writeSaveArea_keeps h _ _

/-! ### Supersteps -/

@[simp] theorem State.arriveKeystone_mem (s : State) (core : Nat) : (s.arriveKeystone core).mem = s.mem := by
  simp [State.arriveKeystone]

@[simp] theorem State.control_mem (s : State) (n : Nat) (m : MortarItem) {f : State → State}
    (hf : ∀ s, (f s).mem = s.mem) : (s.control n m f).mem = s.mem := by
  unfold State.control
  split
  · rfl
  · exact hf s

@[simp] theorem State.takeVote_mem (s : State) (n k : Nat) (x : Word) : (s.takeVote n k x).mem = s.mem := by
  simp only [State.takeVote]
  repeat' split
  all_goals simp

@[simp] theorem State.takeKeystone_mem (s : State) (n : Nat) : (s.takeKeystone n).mem = s.mem := by
  unfold State.takeKeystone
  split <;> simp

@[simp] theorem State.beforeNext_mem (s : State) (r : Region) : (s.beforeNext r).mem = s.mem := by
  unfold State.beforeNext
  exact foldl_mem (fun s c => by simp) _ _

@[simp] theorem State.writeBackAll_mem (s : State) (r : Region) : (s.writeBackAll r).mem = s.mem := by
  simp [State.writeBackAll, foldl_mem]

@[simp] theorem State.withdraw_mem (s : State) (n : Nat) : (s.withdraw n).mem = s.mem := by
  unfold State.withdraw
  split <;> simp

@[simp] theorem State.watchdogTrap_keeps (h : Memory.wf s.mem = true) (n : Nat) (count : Word) :
    Memory.wf (s.watchdogTrap n count).mem = true := by
  simp [State.watchdogTrap, h]

/-! ### Errors and rollback -/

@[simp] theorem State.recordError_mem (s : State) (course : Nat) (e : ErrorEvent) :
    (s.recordError course e).mem = s.mem := rfl

@[simp] theorem State.poisonBy_mem (s : State) (course : Nat) (e : ErrorEvent) : (s.poisonBy course e).mem = s.mem := rfl

@[simp] theorem State.recordFound_mem (s : State) (a : Agent) (e : ErrorEvent) : (s.recordFound a e).mem = s.mem := by
  unfold State.recordFound
  split <;> simp

@[simp] theorem State.beginTest_keeps (h : Memory.wf s.mem = true) (course : Nat) :
    Memory.wf (s.beginTest course).mem = true := by
  simp [State.beginTest, h]

@[simp] theorem State.endTest_mem (s : State) (course : Nat) : (s.endTest course).mem = s.mem := by
  simp [State.endTest]

@[simp] theorem State.testFound_mem (s : State) (course : Nat) (u : TestUnit) (o : TestOutcome) :
    (s.testFound course u o).mem = s.mem := by
  unfold State.testFound
  split <;> simp

@[simp] theorem State.dropErrors_mem (s : State) (rid : BitVec 16) : (s.dropErrors rid).mem = s.mem := rfl

@[simp] theorem State.rollSlice_keeps (h : Memory.wf s.mem = true) (n : Nat) :
    Memory.wf (s.rollSlice n).mem = true := by
  unfold State.rollSlice
  dsimp only
  rw [State.modCore_mem]
  exact foldl_keeps (fun s e h => Memory.wf_write _ _ h) h

@[simp] theorem State.rearm_mem (s : State) (n : Nat) (ws : List (Nat × Watch)) : (s.rearm n ws).mem = s.mem := by
  simp [State.rearm, foldl_mem]

@[simp] theorem State.dropWork_mem (s : State) (mine : Agent → Bool) : (s.dropWork mine).mem = s.mem := rfl

@[simp] theorem State.rollSaved_keeps (h : Memory.wf s.mem = true) (save : Word) (k : Core) :
    Memory.wf (s.rollSaved save k).mem = true := by
  unfold State.rollSaved
  refine foldl_memOk (fun s e h => ?_) h
  split
  · dsimp only
    split
    · exact Memory.wf_write _ _ h
    · exact h
  · exact h

@[simp] theorem State.rollImage_keeps (h : Memory.wf s.mem = true) (rid : BitVec 16) (r : Region) (v : Saved)
    (p : Snapshot) : Memory.wf (s.rollImage rid r v p).mem = true := by
  simp +contextual [State.rollImage, h, foldl_keeps, foldl_mem]

@[simp] theorem State.rollback_keeps (h : Memory.wf s.mem = true) (rid : BitVec 16) :
    Memory.wf (s.rollback rid).mem = true := by
  unfold State.rollback
  dsimp only
  split
  · split
    · simp [h]
    · rw [State.modRegion_mem, foldl_mem (fun s e => State.modCourse_mem s _ _),
        foldl_mem (fun s n => State.rearm_mem s _ _), foldl_mem (fun s e => State.modCore_mem s _ _),
        foldl_mem (fun s e => State.setCtx_mem s _ _)]
      exact foldl_keeps (fun s n h => State.rollSlice_keeps h n) (by simp [h])
    · exact h
  · exact h

@[simp] theorem State.tellFault_mem (s : State) (key rid : BitVec 16) (cause unit : BitVec 8) :
    (s.tellFault key rid cause unit).mem = s.mem := rfl

@[simp] theorem State.faultRegion_keeps (h : Memory.wf s.mem = true) (rid : BitVec 16) (cause unit : BitVec 8) :
    Memory.wf (s.faultRegion rid cause unit).mem = true := by
  unfold State.faultRegion
  split <;> simp +contextual [h, foldl_keeps, foldl_mem]

@[simp] theorem State.faultDomain_keeps (h : Memory.wf s.mem = true) (r : Region) (x : BitVec 8 × BitVec 8) :
    Memory.wf (s.faultDomain r x).mem = true := by
  simp +contextual [State.faultDomain, h, foldl_keeps]

@[simp] theorem State.loseHbm_keeps (h : Memory.wf s.mem = true) (lost : List (BitVec 16)) :
    Memory.wf (s.loseHbm lost).mem = true := by
  unfold State.loseHbm
  exact foldl_keeps (fun s g h => Memory.wf_clear h _ _) h

@[simp] theorem State.warmReset_keeps (h : Memory.wf s.mem = true) (touched : List (BitVec 16)) :
    Memory.wf (s.warmReset touched).mem = true := by
  unfold State.warmReset
  dsimp only
  refine Memory.wf_filter ?_ _
  refine foldl_keeps (fun s e h => State.writeLive_keeps h _ _) (State.loseHbm_keeps ?_ _)
  exact foldl_keeps (fun s e h => State.dropImage_keeps h _) h

/-! ### Rotation -/

@[simp] theorem State.writeTables_mem (s : State) (ashlar : Nat) : (s.writeTables ashlar).mem = s.mem := by
  unfold State.writeTables
  dsimp only
  rw [foldl_mem (fun s i => State.modSite_mem s _ _), State.modAshlar_mem]

@[simp] theorem State.dissolveCircuit_mem (s : State) (ashlar n : Nat) : (s.dissolveCircuit ashlar n).mem = s.mem := by
  simp [State.dissolveCircuit, foldl_mem]

@[simp] theorem State.removeCourse_mem (s : State) (c : Nat) : (s.removeCourse c).mem = s.mem := by
  simp [State.removeCourse]

@[simp] theorem State.removeFailed_mem (s : State) (ashlar : Nat) : (s.removeFailed ashlar).mem = s.mem := by
  simp [State.removeFailed, foldl_mem]

@[simp] theorem State.postRotation_mem (s : State) (ashlar : Nat) : (s.postRotation ashlar).mem = s.mem := by
  unfold State.postRotation
  dsimp only
  split
  · simp
  split
  · rw [foldl_mem (fun s c => State.modCourse_mem s _ _)]; simp
  · simp

@[simp] theorem State.restartCourse_mem (s : State) (c : Nat) (e : SiteEntry) (moved : Bool) :
    (s.restartCourse c e moved).mem = s.mem := by
  unfold State.restartCourse
  dsimp only
  rw [State.modCourse_mem, State.mem_ite, State.restoreArray_mem, ite_self, foldl_mem (fun s k => State.modCore_mem s _ _),
    State.pauseWatches_mem, State.modSite_mem]

@[simp] theorem State.handOn_mem (s : State) (m : Mortar) : (s.handOn m).mem = s.mem := by
  unfold State.handOn
  split <;> simp

@[simp] theorem State.forwardMortar_mem (s : State) (cs : List Nat) : (s.forwardMortar cs).mem = s.mem := by
  simp [State.forwardMortar, foldl_mem]

@[simp] theorem State.restart_mem (s : State) (ashlar : Nat) (cs : List Nat) : (s.restart ashlar cs).mem = s.mem := by
  simp [State.restart, foldl_mem]

/-! ### Power -/

@[simp] theorem State.writeBlock_mem (s : State) (site : Nat) (f : SiteBlock → SiteBlock) :
    (s.writeBlock site f).mem = s.mem := by
  simp [State.writeBlock]

@[simp] theorem State.setFloors_mem (s : State) (ashlar : Nat) : (s.setFloors ashlar).mem = s.mem := by
  unfold State.setFloors
  exact foldl_mem (fun s site => by simp) _ _

@[simp] theorem State.observe_mem (s : State) (r : SiteReport) : (s.observe r).mem = s.mem := by
  simp [State.observe]

/-- Raising demands changes only the device's power tables, however many turns it takes. -/
@[simp] theorem State.raiseDemands_mem (n : Nat) : ∀ s : State, (State.raiseDemands n s).mem = s.mem := by
  induction n with
  | zero => exact fun _ => rfl
  | succ n ih =>
    intro s
    unfold State.raiseDemands
    split
    · rfl
    · dsimp only
      split
      · rw [ih]; rfl
      · rfl

@[simp] theorem State.lowerDemand_mem (s : State) : s.lowerDemand.mem = s.mem := by
  unfold State.lowerDemand
  split <;> simp

@[simp] theorem State.writeCadences_mem (s : State) : s.writeCadences.mem = s.mem := by
  unfold State.writeCadences
  exact foldl_mem (fun s n => by simp) _ _

@[simp] theorem State.grantSprints_mem (ashlar now n : Nat) : ∀ (i : Nat) (s : State),
    (State.grantSprints ashlar now n i s).1.mem = s.mem := by
  induction n with
  | zero => exact fun _ _ => rfl
  | succ n ih =>
    intro i s
    rw [State.grantSprints]
    cases s.claimant ashlar with
    | none => rfl
    | some c =>
      dsimp only
      rw [apply_ite Prod.fst, State.mem_ite, ih, State.modAshlar_mem, State.modCourse_mem, ite_self]

@[simp] theorem State.boostAshlar_mem (s : State) (now i ashlar : Nat) :
    (s.boostAshlar now i ashlar).1.mem = s.mem := by
  simp [State.boostAshlar, foldl_mem, apply_ite State.mem]

/-! ### The host -/

@[simp] theorem State.firstLaunch_mem (s : State) : s.firstLaunch.mem = s.mem := by
  simp [State.firstLaunch, foldl_mem]

@[simp] theorem State.launchCore_keeps (h : Memory.wf s.mem = true) (b : Block) (deleg : BitVec 32) (n : Nat) :
    Memory.wf (s.launchCore b deleg n).mem = true := by
  unfold State.launchCore
  dsimp only
  rw [State.setCtx_mem]
  exact Memory.wf_copyRange (Memory.wf_clear h _ _) _ _ _

@[simp] theorem State.startRegion_keeps (h :
    Memory.wf s.mem = true) (fn : Nat) (key : BitVec 16) (ch : List Block) (b : Block)
    (cs : List Nat) : Memory.wf (s.startRegion fn key ch b cs).mem = true := by
  unfold State.startRegion
  dsimp only
  refine State.writeLive_keeps ?_ _ _
  refine foldl_keeps (fun s n h => State.launchCore_keeps h _ _ _) ?_
  dsimp only
  rw [foldl_mem (fun s e => by simp), State.loadRanks_mem, State.firstLaunch_mem]
  exact h

@[simp] theorem State.answerLaunch_keeps (h : Memory.wf s.mem = true) (fn : Nat) (msg : BitVec 128) (courses : List Nat) :
    Memory.wf (s.answerLaunch fn msg courses).mem = true := by
  unfold State.answerLaunch
  split <;> simp [h]

@[simp] theorem State.endImage_mem (s : State) (rid : BitVec 16) : (s.endImage rid).mem = s.mem := by
  simp [State.endImage]

@[simp] theorem State.endRegion_keeps (h : Memory.wf s.mem = true) (rid : BitVec 16) :
    Memory.wf (s.endRegion rid).mem = true := by
  unfold State.endRegion
  split
  · dsimp only
    refine State.writeLive_keeps ?_ _ _
    dsimp only
    rw [foldl_mem (fun s n => State.setCtx_mem s _ _), foldl_mem State.freeCourse_mem]
    simp [h]
  · exact h

theorem State.answerTeardown_keeps (h : Memory.wf s.mem = true) {fn : Nat} {msg : BitVec 128} {t : State}
    (ht : s.answerTeardown fn msg = some t) : Memory.wf t.mem = true := by
  unfold State.answerTeardown at ht
  split at ht
  · split at ht
    · cases ht
    · cases ht; simp +contextual [foldl_keeps, h]
  · cases ht; simp [h]

@[simp] theorem State.resetPartition_keeps (h : Memory.wf s.mem = true) (fn : Nat) (key : BitVec 16) :
    Memory.wf (s.resetPartition fn key).mem = true := by
  simp +contextual [State.resetPartition, h, foldl_keeps]

theorem State.answerReset_keeps (h : Memory.wf s.mem = true) {fn : Nat} {msg : BitVec 128} {t : State}
    (ht : s.answerReset fn msg = some t) : Memory.wf t.mem = true := by
  unfold State.answerReset at ht
  split at ht
  · cases ht; simp [h]
  split at ht
  · cases ht; simp [h]
  split at ht
  · cases ht
  · cases ht; simp [h]

theorem State.functionReset_keeps (h : Memory.wf s.mem = true) {fn : Nat} {t : State}
    (ht : s.functionReset fn = some t) : Memory.wf t.mem = true := by
  unfold State.functionReset at ht
  split at ht
  · split at ht
    · cases ht
    · cases ht; simp [h]
  · cases ht; simp [h]

@[simp] theorem State.answerStop_mem (s : State) (fn : Nat) (msg : BitVec 128) : (s.answerStop fn msg).mem = s.mem := by
  simp only [State.answerStop]
  repeat' split
  all_goals simp

@[simp] theorem State.reRid_mem (s : State) (old new : BitVec 16) : (s.reRid old new).mem = s.mem := rfl

@[simp] theorem State.resumeMigrated_keeps (h : Memory.wf s.mem = true) (fn : Nat) (key : BitVec 16) (ch : List Block)
    (b : Block) (cs : List Nat) (old : BitVec 16) (r : Region) (v : Saved) :
    Memory.wf (s.resumeMigrated fn key ch b cs old r v).mem = true := by
  unfold State.resumeMigrated
  dsimp only
  refine State.writeLive_keeps (State.restore_keeps ?_ _ _ _ _) _ _
  dsimp only
  rw [State.reRid_mem, State.loadRanks_mem]
  exact State.dropImage_keeps h old

@[simp] theorem State.answerResume_keeps (h : Memory.wf s.mem = true) (fn : Nat) (msg : BitVec 128) (courses : List Nat) :
    Memory.wf (s.answerResume fn msg courses).mem = true := by
  simp only [State.answerResume]
  repeat' split
  all_goals simp [h]

theorem State.serve_keeps (h : Memory.wf s.mem = true) {q : HostReq} {t : State} (ht : s.serve q = some t) :
    Memory.wf t.mem = true := by
  unfold State.serve at ht
  split at ht
  · cases ht
  split at ht
  · split at ht
    · cases ht
    · cases ht; simp [h]
  · split at ht
    · cases ht
    · cases ht; simp [h]
  · exact State.answerTeardown_keeps h ht
  · exact State.answerReset_keeps h ht
  · exact State.functionReset_keeps h ht
  · cases ht; simp [h]

@[simp] theorem State.submit_keeps (h : Memory.wf s.mem = true) (q : HostReq) : Memory.wf (s.submit q).mem = true := by
  unfold State.submit
  split
  · exact State.serve_keeps h ‹_›
  · exact h

@[simp] theorem State.serveRequests_keeps (h : Memory.wf s.mem = true) : Memory.wf s.serveRequests.mem = true := by
  simp +contextual [State.serveRequests, h, foldl_keeps]

@[simp] theorem State.request_keeps (h : Memory.wf s.mem = true) (fn : Nat) (msg : BitVec 128) (op : HostOp) :
    Memory.wf (s.request fn msg op).mem = true := by
  simp [State.request, h]

@[simp] theorem State.imageWrite_keeps (h : Memory.wf s.mem = true) (rid : BitVec 16) (cid off : Nat) (bs : List Byte) :
    Memory.wf (s.imageWrite rid cid off bs).mem = true := by
  show (s.imageWrite rid cid off bs).memOk = true
  unfold State.imageWrite
  split
  · split
    · dsimp only
      rw [State.memOk, State.modRegion_mem]
      have hclear : ∀ (k : Core) (place : Nat → Nat) (held : Nat → Bool) (l : List Nat), (l.foldl (fun s p =>
          if k.foot.testBit p || !held p then s
          else { s with mem := Memory.clear s.mem (place p) 4096 }) s).memOk = true := fun k place held l =>
        foldl_memOk (fun s p h => by
          split
          · exact h
          · exact Memory.wf_clear h _ _) h
      refine (?_ : State.memOk _ = true)
      split
      · exact Memory.wf_write _ _ (hclear _ _ _ _)
      · exact hclear _ _ _ _
    · exact h
  · exact h

theorem State.letIn_keeps (h : Memory.wf s.mem = true) {x : Inbound} {t : State} (ht : s.letIn x = some t) :
    Memory.wf t.mem = true := by
  unfold State.letIn at ht
  split at ht
  · cases ht
  split at ht
  · cases ht; exact h
  · cases ht; exact h
  · split at ht
    · cases ht
    split at ht
    · cases ht; exact h
    · cases ht; simp [h]
  · split at ht
    · cases ht
    · cases ht; exact h
  · cases ht; simp [h]
  · cases ht; simp [h]
  · cases ht; exact h

@[simp] theorem State.arriveInbound_keeps (h : Memory.wf s.mem = true) (x : Inbound) :
    Memory.wf (s.arriveInbound x).mem = true := by
  unfold State.arriveInbound
  split
  · exact State.letIn_keeps h ‹_›
  · exact h

@[simp] theorem State.drainInbound_keeps (h : Memory.wf s.mem = true) : Memory.wf s.drainInbound.mem = true := by
  simp +contextual [State.drainInbound, h, foldl_keeps]

@[simp] theorem State.performFlit_keeps (h : Memory.wf s.mem = true) (f : Flit) :
    Memory.wf (s.performFlit f).mem = true := by
  unfold State.performFlit
  split <;> simp [h]

@[simp] theorem State.admitFlit_keeps (h : Memory.wf s.mem = true) (x : Nat × Flit) :
    Memory.wf (s.admitFlit x).mem = true := by
  simp [State.admitFlit, h]

@[simp] theorem State.drainFlits_keeps (h : Memory.wf s.mem = true) : Memory.wf s.drainFlits.mem = true := by
  simp +contextual [State.drainFlits, h, foldl_keeps]

/-! ### Declarations and sweeps -/

@[simp] theorem State.screedPut_keeps (h : Memory.wf s.mem = true) (core loc : Nat) (data : List Byte) :
    Memory.wf (s.screedPut core loc data).mem = true := by
  simp [State.screedPut, h]

@[simp] theorem State.setSkip_keeps (h : Memory.wf s.mem = true) (core : Nat) (d : Desc) (k : Nat) (on : Bool) :
    Memory.wf (s.setSkip core d k on).mem = true := by
  simp [State.setSkip, h]

@[simp] theorem State.dropWake_mem (s : State) (core slot : Nat) : (s.dropWake core slot).mem = s.mem := rfl

@[simp] theorem State.applyWake_keeps (h : Memory.wf s.mem = true) (core : Nat) (d : Desc) (j : Nat) :
    Memory.wf (s.applyWake core d j).mem = true := by
  simp [State.applyWake, h]

@[simp] theorem State.applyScreed_keeps (h : Memory.wf s.mem = true) (core : Nat) (d : Desc) (c : ScreedCmd) :
    Memory.wf (s.applyScreed core d c).mem = true := by
  cases c <;> simp [State.applyScreed, h]

@[simp] theorem State.receiveScreed_keeps (h : Memory.wf s.mem = true) (core slot : Nat) (c : ScreedCmd) :
    Memory.wf (s.receiveScreed core slot c).mem = true := by
  simp only [State.receiveScreed]
  repeat' split
  all_goals simp [h]

@[simp] theorem State.sweepIssued_mem (s : State) (a : Agent) (helper : Nat) :
    (s.sweepIssued a helper).mem = s.mem := by
  unfold State.sweepIssued
  split <;> simp

@[simp] theorem State.setSweep_mem (s : State) (core : Nat) (w : Sweep) : (s.setSweep core w).mem = s.mem := rfl

@[simp] theorem State.takeOutcomes_mem (s : State) (core : Nat) (w : Sweep) :
    (s.takeOutcomes core w).2.mem = s.mem := rfl

@[simp] theorem State.dispatch_mem (s : State) (core : Nat) (w : Sweep) (d : Desc) (r : Nat × Word) :
    (s.dispatch core w d r).mem = s.mem := rfl

@[simp] theorem State.writeStrip_keeps (h : Memory.wf s.mem = true) (core : Nat) (w : Sweep) (d : Desc) (k : Nat) :
    Memory.wf (s.writeStrip core w d k).mem = true := by
  have put : ∀ {s : State}, s.memOk = true → ∀ (l : Nat) (bs : List Byte), (s.screedPut core l bs).memOk = true :=
    fun h l bs => State.screedPut_keeps h core l bs
  show (s.writeStrip core w d k).memOk = true
  unfold State.writeStrip
  dsimp only
  rw [State.memOk, State.setSweep_mem]
  refine foldl_memOk (fun s c h => State.applyScreed_keeps h _ _ _) (State.setSkip_keeps ?_ _ _ _ _)
  exact foldl_memOk (fun s i h => put h _ _) (foldl_memOk (fun s i h => put h _ _) h)

@[simp] theorem State.screedArrive_keeps (h : Memory.wf s.mem = true) (i : Nat) (is : ScreedCmd → Bool) :
    Memory.wf (s.screedArrive i is).mem = true := by
  simp only [State.screedArrive]
  repeat' split
  all_goals simp [h]

/-! ### Driving a step -/

@[simp] theorem State.holdGang_mem (s t : State) (g : List Agent) : (s.holdGang t g).mem = s.mem := by
  unfold State.holdGang
  refine foldl_mem (fun h a => ?_) _ _
  split
  · simp
  · simp
  · split <;> simp
  · simp

@[simp] theorem State.partForWfi_keeps (h : Memory.wf s.mem = true) (g : List Agent) :
    Memory.wf (s.partForWfi g).mem = true := by
  simp only [State.partForWfi]
  repeat' split
  all_goals simp [h]

@[simp] theorem State.refer_mem (s : State) (a : Agent) (i : Instr) : (s.refer a i).mem = s.mem := by
  unfold State.refer
  split <;> simp

@[simp] theorem State.issued_mem (t s : State) (g : List Agent) (i : Instr) : (t.issued s g i).mem = t.mem := by
  simp [State.issued, foldl_mem]

@[simp] theorem State.firstIssue_mem (s : State) (a : Agent) : (s.firstIssue a).mem = s.mem := by
  unfold State.firstIssue
  split <;> simp

@[simp] theorem State.touchCode_mem (s : State) (a : Agent) (i : Instr) : (s.touchCode a i).mem = s.mem := by
  simp [State.touchCode]

@[simp] theorem State.wake_mem (s : State) : s.wake.mem = s.mem := rfl

@[simp] theorem State.endHelpers_mem (s : State) : s.endHelpers.mem = s.mem := by
  simp [State.endHelpers, foldl_mem]

@[simp] theorem State.follow'_keeps (h : Memory.wf s.mem = true) : Memory.wf s.follow'.mem = true := by
  have hq : Memory.wf s.drainPorts.drainInbound.drainFlits.beginDue.mem = true := by
    rw [State.beginDue_mem]
    exact State.drainFlits_keeps (State.drainInbound_keeps (State.drainPorts_keeps h))
  simpa [State.follow'] using State.serveRequests_keeps hq

@[simp] theorem State.retried_mem (s : State) (g : List Agent) : (s.retried g).mem = s.mem := by
  unfold State.retried
  split <;> simp

end

/-! ## What an instruction answers

`exec` answers by `issue`, whose rule `State.run_wf` asks of an instruction's body that the `Res` it ends in be in the
canonical form (`Res.wf`). A body is a chain of checks joined by `Or.then`, so each check has a rule of the form
`(check …).wf good` with what is good about the value it gives. -/

/-- A check of an operation that gives a value gives a good one, and one that ends the operation keeps the canonical form. -/
def Or.wf {α : Type} (good : α → Prop) : Or α → Prop
  | .ok x => good x
  | .error r => r.wf

theorem Or.then_wf {α : Type} {good : α → Prop} {o : Or α} {f : α → Res} (ho : o.wf good)
    (hf : ∀ x, good x → (f x).wf) : (o.then f).wf := by
  cases o with
  | ok x => exact hf x ho
  | error r => exact ho

theorem Or.wf_error {α : Type} {good : α → Prop} {o : Or α} {r : Res} (ho : o.wf good) (e : o = .error r) : r.wf := by
  subst e
  exact ho

/-- Where the operation goes on from the state before its check, the value checked does not matter. -/
theorem Or.then_wf' {α : Type} {o : Or α} {f : α → Res} (ho : o.wf fun _ => True)
    (hf : ∀ x, (f x).wf) : (o.then f).wf :=
  Or.then_wf ho fun x _ => hf x

/-- The next state that an instruction or a step of the device answers is in the canonical form. -/
def nextWf : Host.Outcome State Fault Refusal → Prop
  | .next t => Memory.wf t.mem = true
  | .fault _ | .refused _ => True

@[simp] theorem nextWf_next (t : State) : nextWf (.next t) ↔ Memory.wf t.mem = true := Iff.rfl

theorem andThen_wf {o : Host.Outcome State Fault Refusal} {f : State → Host.Outcome State Fault Refusal} (ho : nextWf o)
    (hf : ∀ t, Memory.wf t.mem = true → nextWf (f t)) : nextWf (andThen o f) := by
  cases o with
  | next t => exact hf t ho
  | fault r => trivial
  | refused r => trivial

section
variable {s : State} (h : Memory.wf s.mem = true)
include h

/-! ### The checks of an access -/

theorem State.locate_wf (a : Agent) (acc : Access) (maxWin : Nat) (e : Word) (size : Nat) :
    (s.locate a acc maxWin e size).wf fun _ => True := by
  unfold State.locate
  repeat' split
  all_goals simp [Or.wf, Res.wf, h]

theorem State.apart_wf (a : Agent) {f : State → Res} (hf : ∀ s, Memory.wf s.mem = true → (f s).wf) :
    (s.apart a f).wf := by
  unfold State.apart
  split
  · exact hf _ (State.close_keeps h a)
  · exact h

theorem State.readAt_wf (a : Agent) (e : Word) (loc size : Nat) :
    (s.readAt a e loc size).wf fun r => Memory.wf r.2.mem = true := by
  unfold State.readAt
  repeat' split
  all_goals simp [Or.wf, Res.wf, h]

theorem State.readScalar_wf (a : Agent) (maxWin : Nat) (e : Word) (size : Nat) {f : Nat → State → Res}
    (hf : ∀ v s, Memory.wf s.mem = true → (f v s).wf) : (s.readScalar a maxWin e size f).wf := by
  unfold State.readScalar
  refine Or.then_wf' (State.locate_wf h _ _ _ _ _) fun loc => ?_
  have go : ∀ s : State, Memory.wf s.mem = true → ((s.readAt a e loc size).then fun r => f r.1 r.2).wf :=
    fun s h => Or.then_wf (State.readAt_wf h _ _ _ _) fun r hr => hf _ _ hr
  dsimp only
  split
  · exact State.apart_wf h a go
  · exact go s h

theorem State.storeAt_wf (a : Agent) (e : Word) (loc size : Nat) (v : Word) :
    (s.storeAt a e loc size v).wf fun t => Memory.wf t.mem = true := by
  unfold State.storeAt
  dsimp only
  repeat' split
  all_goals simp [Or.wf, Res.wf, h]

theorem State.locateAll_wf (a : Agent) (acc : Access) (ws : List Word) : (s.locateAll a acc ws).wf fun _ => True := by
  unfold State.locateAll
  dsimp only
  repeat' split
  all_goals simp [Or.wf, Res.wf, h]

theorem State.vecCheck_wf (a : Agent) (acc : Access) (ws : List Word) (align span win : Nat) (unit fits : Bool) :
    (s.vecCheck a acc ws align span win unit fits).wf fun _ => True := by
  unfold State.vecCheck
  dsimp only
  split
  · trivial
  split
  · trivial
  split
  · trivial
  split
  · trivial
  split
  · trivial
  have hl := State.locateAll_wf h a acc ws
  split
  · exact Or.wf_error hl ‹_›
  · split <;> trivial

theorem State.locateRmw_wf (a : Agent) (e : Word) (size : Nat) : (s.locateRmw a e size).wf fun _ => True := by
  unfold State.locateRmw
  have hl := State.locate_wf h a .write 0 e size
  split
  · exact Or.wf_error hl ‹_›
  · repeat' split
    all_goals trivial

theorem State.faddxLocs_wf (a : Agent) (vec : Bool) (base : Word) (es : List Word) :
    (s.faddxLocs a vec base es).wf fun _ => True := by
  unfold State.faddxLocs
  split
  · trivial
  split
  · trivial
  split
  · trivial
  split
  · simp [Or.wf, Res.wf, h]
  next hpages =>
    clear hpages
    induction es with
    | nil => trivial
    | cons e es ih =>
      rw [List.foldr_cons]
      have hl := State.locateRmw_wf h a e 32
      split
      · exact Or.wf_error hl ‹_›
      · exact Or.wf_error ih ‹_›
      · trivial

theorem State.locateBar_wf (a : Agent) (acc : Access) (e : Word) : (s.locateBar a acc e).wf fun _ => True := by
  unfold State.locateBar
  split
  · trivial
  split
  · trivial
  · exact State.locate_wf h _ _ _ _ _

theorem State.engineBar_wf (a : Agent) (b : Reg) : (s.engineBar a b).wf fun _ => True := by
  unfold State.engineBar
  split
  · trivial
  · dsimp only
    have hl := State.locateBar_wf h a .write ((s.ctx a).x b.val)
    split
    · trivial
    · exact Or.wf_error hl ‹_›

theorem State.tableLocs_wf (a : Agent) (base : Word) (n : Nat) : (s.tableLocs a base n).wf fun _ => True := by
  induction n with
  | zero => trivial
  | succ n ih =>
    unfold State.tableLocs
    split
    · exact Or.wf_error ih ‹_›
    · have hl := State.locate_wf h a .read 0 (base + BitVec.ofNat 64 (8 * n)) 8
      split
      · exact Or.wf_error hl ‹_›
      · trivial

/-! ### Operations that several instructions share -/

omit h in
theorem State.csrWrite_mem {l : Level} {a : Agent} {n : BitVec 12} {new clr : Word} {t : State}
    (ht : s.csrWrite l a n new clr = .ok t) : t.mem = s.mem := by
  simp only [State.csrWrite, csrDenied] at ht
  split at ht
  all_goals repeat' split at ht
  all_goals cases ht
  all_goals simp

theorem State.csrModify_wf (d : Reg) (n : BitVec 12) (f : Word → Word) (clr : Word) : (s.csrModify d n f clr).wf := by
  unfold State.csrModify
  dsimp only
  split
  · exact h
  split
  next t ht =>
    have e := State.csrWrite_mem ht
    simpa [Res.wf, e] using h
  · trivial

theorem doCvt_wf (dst src : Ty) (r : Rm) (d a : Reg) (m : Word) : (doCvt dst src r d a m s).wf := by
  unfold doCvt
  dsimp only
  split <;> exact h

theorem doRchk_wf (d : Reg) (a : Quad) (la : La) (m : Word) : (doRchk d a la m s).wf := by
  unfold doRchk
  dsimp only
  repeat' split
  all_goals simp [Res.wf, h]

theorem doLoad_wf (mode : VAddr) (d a : Reg) (lay : Option (BitVec 3)) (la : La) (m : Word) :
    (doLoad mode d a lay la m s).wf := by
  unfold doLoad
  dsimp only
  split
  · refine Or.then_wf' (State.vecCheck_wf h _ _ _ _ _ _ _ _) fun locs => ?_
    split
    · trivial
    split <;> simp [Res.wf, h]
  · refine Or.then_wf' (State.vecCheck_wf h _ _ _ _ _ _ _ _) fun locs => ?_
    split
    · trivial
    split <;> simp [Res.wf, h, foldl_mem]

theorem doStore_wf (mode : VAddr) (d a : Reg) (lay : Option (BitVec 3)) (m : Word) : (doStore mode d a lay m s).wf := by
  have stores : ∀ {t : State} (ws : List Write), Memory.wf t.mem = true →
      Memory.wf (ws.foldl (fun s w => s.store s.cur w) t).mem = true :=
    fun ws ht => foldl_keeps (fun s w h => State.store_keeps h s.cur w) ht
  unfold doStore
  dsimp only
  split
  · refine Or.then_wf' (State.vecCheck_wf h _ _ _ _ _ _ _ _) fun locs => ?_
    split
    · exact h
    split
    · trivial
    · simp [Res.wf, stores, h]
  · refine Or.then_wf' (State.vecCheck_wf h _ _ _ _ _ _ _ _) fun locs => ?_
    split
    · trivial
    split
    · exact h
    split
    · trivial
    · simp [Res.wf, stores, h]

theorem State.joinArray_wf (course core : Nat) (n : Job) (d : Option Reg) : (s.joinArray course core n d).wf := by
  unfold State.joinArray
  dsimp only
  repeat' split
  all_goals simp [Res.wf, h]

theorem doAmo_wf (op : Option AmoOp) (t : AmoTy) (d a b : Reg) : (doAmo op t d a b s).wf := by
  unfold doAmo
  refine Or.then_wf' (State.locateRmw_wf h _ _ _) fun loc => ?_
  repeat' split
  all_goals simp [Res.wf, h]

theorem doSmode_wf (kind : RKind) (n : Fin 4) (a : Reg) (t : IntTy) (cmd : StreamCmd) (size : Nat) (i : Instr) :
    (doSmode kind n a t cmd size i s).wf := by
  unfold doSmode
  dsimp only
  repeat' split
  all_goals simp [Res.wf, h]

theorem doTlbi_wf (p : Word → TlbEntry → Bool) (a : Option Reg) : (doTlbi p a s).wf := by
  unfold doTlbi
  dsimp only
  repeat' split
  all_goals simp [Res.wf, h]

theorem doStep_wf (i : Instr) (f : Nat → W32 → Bool × W32) : (doStep i f s).wf := by
  unfold doStep
  dsimp only
  repeat' split
  all_goals simp [Res.wf, h]

theorem State.sendScreed_wf (t : Nat × Nat) (cs : List ScreedCmd) : (s.sendScreed t cs).wf := by
  have own : ∀ n, Memory.wf (cs.foldl (fun s c => s.receiveScreed n t.2 c) s).mem = true :=
    fun n => foldl_keeps (fun s c h => State.receiveScreed_keeps h _ _ _) h
  unfold State.sendScreed
  dsimp only
  repeat' split
  all_goals simp [Res.wf, h, own]

theorem doVec_wf (v : VecForm) (m : Word) : (doVec v m s).wf := by
  cases v with
  | cvt => exact doCvt_wf h ..
  | load => exact doLoad_wf h ..
  | store => exact doStore_wf h ..
  | rchk => exact doRchk_wf h ..
  | _ => exact h

end

theorem issue_nextWf {s : State} (hs : Memory.wf s.mem = true) {i : Instr} {body : State → Res}
    (hb : ∀ s, Memory.wf s.mem = true → (body s).wf) : nextWf (issue i s body) := State.run_wf i body hb s hs

section
variable {s : State} (hs : Memory.wf s.mem = true)
include hs

/-! ### The shapes that many instructions share -/

theorem issueX_wf {i : Instr} {d : Reg} {la : Nat} {f : Ctx → Word} : nextWf (issueX i d la s f) :=
  issue_nextWf hs fun _ h => h

theorem issueBranch_wf {i : Instr} {k : BrCond} {a : Reg} {b : RegImm} {o : BrOff} :
    nextWf (issueBranch i k a b o s) := by
  refine issue_nextWf hs fun s h => ?_
  dsimp only
  split <;> exact h

theorem issueV_wf {i : Instr} {f : Word → State → Res} (hf : ∀ m s, Memory.wf s.mem = true → (f m s).wf) :
    nextWf (issueV i s f) :=
  issue_nextWf hs fun s h => hf _ s h

theorem issueS_wf {i : Instr} {op : SOp} {d a : Reg} {b : SrcB} {la : Nat} : nextWf (issueS i op d a b la s) :=
  issueX_wf hs

theorem issueU_wf {i : Instr} {op : SOp} {d a : Reg} : nextWf (issueU i op d a s) :=
  issueX_wf hs

theorem issueF_wf {i : Instr} {d a : Reg} {b : FSrc} {la : La} {f : W32 → W32 → W32 → W32} :
    nextWf (issueF i d a b la s f) :=
  issueX_wf hs

/-! ### Control transfers -/

theorem execJal_wf (d : Reg) (o : JOff) : nextWf (execJal d o s) := by
  refine issue_nextWf hs fun s h => ?_
  simp [Res.wf, h]

theorem execJalr_wf (d a : Reg) (b : SrcB) : nextWf (execJalr d a b s) := by
  refine issue_nextWf hs fun s h => ?_
  dsimp only
  split <;> simp [Res.wf, h]

theorem execJtab_wf (a b : Reg) (bound : W32) : nextWf (execJtab a b bound s) := by
  refine issue_nextWf hs fun s h => ?_
  dsimp only
  split
  · exact h
  · exact State.readScalar_wf h _ _ _ _ fun _ _ h => h

theorem execRep_wf (n : Reg) (b : SrcB) : nextWf (execRep n b s) := by
  refine issue_nextWf hs fun s h => ?_
  dsimp only
  repeat' split
  all_goals simp [Res.wf, h]

/-- A gang's common transfer is performed as the transfer instruction itself. -/
@[simp] theorem State.transfer_keeps (i : Instr) : Memory.wf (s.transfer i).mem = true := by
  unfold State.transfer
  dsimp only
  split
  next t ht =>
    rw [← nextWf_next, ← ht]
    split
    · exact issueBranch_wf hs
    · exact issueBranch_wf hs
    · exact issueBranch_wf hs
    · exact issueBranch_wf hs
    · exact issueBranch_wf hs
    · exact issueBranch_wf hs
    · exact execJal_wf hs ..
    · exact execJalr_wf hs ..
    · exact execJtab_wf hs ..
    · exact execRep_wf hs ..
    · exact hs
  · exact hs

@[simp] theorem State.trapMember_keeps (a : Agent) (i : Instr) (t : Trap) :
    Memory.wf (s.trapMember a i t).mem = true := by
  simp +contextual [State.trapMember, hs, foldl_keeps]

/-! ### Loads and stores -/

theorem execLd_wf (t : IntTy) (o : LdOrder) (d a : Reg) (off : MemOff) (la : La) :
    nextWf (execLd t o d a off la s) := by
  refine issue_nextWf hs fun s h => ?_
  dsimp only
  split
  · trivial
  · exact State.readScalar_wf h _ _ _ _ fun _ _ h => h

theorem execSt_wf (t : IntTy) (o : StOrder) (d a : Reg) (off : MemOff) : nextWf (execSt t o d a off s) := by
  refine issue_nextWf hs fun s h => ?_
  dsimp only
  split
  · trivial
  refine Or.then_wf' (State.locate_wf h _ _ _ _ _) fun loc => ?_
  have put := State.storeAt_wf h s.cur (effAddr (s.ctx s.cur) a off) loc t.size ((s.ctx s.cur).x d.val)
  split
  · exact Or.then_wf put fun _ ht => ht
  · split
    · exact h
    split
    · simp [Res.wf, h]
    split
    · exact h
    · exact Or.then_wf put fun t ht => State.close_keeps ht t.cur

/-! ### Atomic operations -/

theorem execFaddx_wf (a : Reg) (b : XV) (g : PReg) : nextWf (execFaddx a b g s) := by
  refine issue_nextWf hs fun s h => ?_
  refine Or.then_wf' (State.faddxLocs_wf h _ _ _ _) fun locs => ?_
  dsimp only
  split
  · trivial
  split
  · exact h
  split
  · trivial
  · refine foldl_keeps (fun s e h => State.cellAtHome_keeps h _ _ _) ?_
    simpa using h

theorem execCellrd_wf (d a : Reg) (la : La) (g : PReg) : nextWf (execCellrd d a la g s) := by
  refine issue_nextWf hs fun s h => ?_
  refine Or.then_wf' (State.locate_wf h _ _ _ _ _) fun loc => ?_
  have read : ∀ s : State, ∀ e : Word, Memory.wf s.mem = true →
      ((s.readAt s.cur e loc 32).then fun r => .done r.2 [.toX d.val (cellValue r.1) la.val]).wf :=
    fun s e h => Or.then_wf (State.readAt_wf h _ _ _ _) fun _ hr => hr
  dsimp only
  split
  · trivial
  · exact State.apart_wf h _ fun s h => read s _ h
  · exact read s _ h

theorem execAmo_wf (op : AmoOp) (t : AmoTy) (d a b : Reg) (g : PReg) : nextWf (execAmo op t d a b g s) :=
  issue_nextWf hs fun _ h => doAmo_wf h ..

theorem execCas_wf (t : AmoTy) (d a b : Reg) (g : PReg) : nextWf (execCas t d a b g s) :=
  issue_nextWf hs fun _ h => doAmo_wf h ..

/-! ### Queues, messages and replies -/

theorem execRecv_wf (d a : Reg) (g : PReg) : nextWf (execRecv d a g s) := by
  refine issue_nextWf hs fun s h => ?_
  split <;> simp [Res.wf, h]

theorem execPeek_wf (d a : Reg) (g : PReg) : nextWf (execPeek d a g s) := by
  refine issue_nextWf hs fun s h => ?_
  simp [Res.wf, h]

theorem execSend_wf (mc : Bool) (a b : Reg) (ctx : Fin 11) (tag : BitVec 16) (g : PReg) :
    nextWf (execSend mc a b ctx tag g s) := by
  refine issue_nextWf hs fun s h => ?_
  dsimp only
  repeat' split
  all_goals simp [Res.wf, h]

theorem execSendDelivery_wf (i : Nat) : nextWf (execSendDelivery i s) := by
  simp [execSendDelivery, hs]

theorem execSendVerdict_wf (i : Nat) : nextWf (execSendVerdict i s) := by
  unfold execSendVerdict
  split <;> simp [hs]

theorem execSendResend_wf (i : Nat) : nextWf (execSendResend i s) := by
  unfold execSendResend
  split <;> simp [hs]

theorem execSpillRefill_wf (core : Nat) : nextWf (execSpillRefill core s) := by
  simp [execSpillRefill, hs]

theorem execRecvWake_wf (a : Agent) : nextWf (execRecvWake a s) := by
  unfold execRecvWake
  split <;> simp [hs]

theorem execFarAccessAtHome_wf (i : Nat) : nextWf (execFarAccessAtHome i s) := by
  simp only [execFarAccessAtHome, nextWf_next]
  repeat' split
  all_goals simp [hs]

theorem execReplySink_wf (i : Nat) : nextWf (execReplySink i s) := by
  unfold execReplySink
  split <;> simp [hs]

theorem execMon_wf (d a b : Reg) (g : PReg) : nextWf (execMon d a b g s) := by
  refine issue_nextWf hs fun s h => ?_
  dsimp only
  repeat' split
  all_goals simp [Res.wf, h]

theorem execMwait_wf (d a : Reg) (g : PReg) : nextWf (execMwait d a g s) := by
  refine issue_nextWf hs fun s h => ?_
  split
  · exact h
  · split
    · simp [Res.wf, h]
    · exact h

theorem execWatchReport_wf (core entry : Nat) : nextWf (execWatchReport core entry s) := by
  unfold execWatchReport
  split <;> simp [hs]

theorem execWatchTimeout_wf (core entry : Nat) : nextWf (execWatchTimeout core entry s) := by
  simp [execWatchTimeout, hs]

theorem execMwaitWake_wf (a : Agent) : nextWf (execMwaitWake a s) := by
  unfold execMwaitWake
  split <;> simp [hs]

theorem execSupervisorMessage_wf (core tid : Nat) (tag : BitVec 16) (payload : Word) :
    nextWf (execSupervisorMessage core tid tag payload s) := by
  simp [execSupervisorMessage, hs]

/-! ### Barriers -/

theorem execBarinit_wf (a b : Reg) (g : PReg) : nextWf (execBarinit a b g s) := by
  refine issue_nextWf hs fun s h => ?_
  refine Or.then_wf' (State.locateBar_wf h _ _ _) fun loc => ?_
  split <;> simp [Res.wf, h]

theorem execBararr_wf (a b : Reg) (g : PReg) : nextWf (execBararr a b g s) := by
  refine issue_nextWf hs fun s h => ?_
  refine Or.then_wf' (State.locateBar_wf h _ _ _) fun loc => ?_
  rw [apply_ite Res.wf, apply_ite Res.wf]
  simp [Res.wf, h]

theorem execParkedBararrArrival_wf (a : Agent) : nextWf (execParkedBararrArrival a s) := by
  unfold execParkedBararrArrival
  split <;> simp [hs]

theorem execBarwait_wf (d a : Reg) (g : PReg) : nextWf (execBarwait d a g s) := by
  refine issue_nextWf hs fun s h => ?_
  refine Or.then_wf' (State.locateBar_wf h _ _ _) fun loc => ?_
  dsimp only
  repeat' split
  all_goals simp [Res.wf, h]

theorem execBarwaitWake_wf (a : Agent) : nextWf (execBarwaitWake a s) := by
  simp [execBarwaitWake, hs]

theorem execBarwaitTimeout_wf (a : Agent) : nextWf (execBarwaitTimeout a s) := by
  simp [execBarwaitTimeout, hs]

/-! ### Traps -/

theorem execEcall_wf (g : PReg) : nextWf (execEcall g s) := issue_nextWf hs fun _ _ => trivial

theorem execEbreak_wf (g : PReg) : nextWf (execEbreak g s) := issue_nextWf hs fun _ _ => trivial

theorem execEret_wf (g : PReg) : nextWf (execEret g s) := by
  refine issue_nextWf hs fun s h => ?_
  dsimp only
  split <;> simp [Res.wf, h]

theorem execWfi_wf (g : PReg) : nextWf (execWfi g s) := by
  refine issue_nextWf hs fun s h => ?_
  dsimp only
  split <;> simp [Res.wf, h]

/-! ### Contexts and gangs -/

theorem execHstart_wf (d a : Reg) (off : W32) (g : PReg) : nextWf (execHstart d a off g s) := by
  refine issue_nextWf hs fun s h => ?_
  dsimp only
  repeat' split
  all_goals simp [Res.wf, h]

theorem execHend_wf (g : PReg) : nextWf (execHend g s) := by
  refine issue_nextWf hs fun s h => ?_
  dsimp only
  split <;> simp [Res.wf, h]

theorem execGang_wf (a : Reg) (g : PReg) : nextWf (execGang a g s) := by
  refine issue_nextWf hs fun s h => ?_
  dsimp only
  repeat' split
  all_goals simp [Res.wf, h, foldl_mem]

theorem execSplit_wf (g : PReg) : nextWf (execSplit g s) := by
  refine issue_nextWf hs fun s h => ?_
  dsimp only
  repeat' split
  all_goals simp [Res.wf, h]

theorem execLive_wf (a : Reg) (g : PReg) : nextWf (execLive a g s) := by
  refine issue_nextWf hs fun s h => ?_
  simp [Res.wf, h]

theorem execYield_wf (g : PReg) : nextWf (execYield g s) := by
  refine issue_nextWf hs fun s h => ?_
  dsimp only
  repeat' split
  all_goals simp [Res.wf, h]

theorem execReservationRetry_wf (a : Agent) : nextWf (execReservationRetry a s) := by
  unfold execReservationRetry
  split <;> simp [hs]

/-! ### Streams -/

theorem execSmodeX_wf (n : Fin 4) (a : Reg) (t : IntTy) (c : StreamCmd) (g : PReg) : nextWf (execSmodeX n a t c g s) :=
  issue_nextWf hs fun _ h => doSmode_wf h ..

theorem execSmodeV_wf (n : Fin 4) (a : Reg) (c : StreamCmd) (g : PReg) : nextWf (execSmodeV n a c g s) :=
  issue_nextWf hs fun _ h => doSmode_wf h ..

theorem execSexit_wf (vector : Bool) (n : Fin 4) (g : PReg) : nextWf (execSexit vector n g s) := by
  refine issue_nextWf hs fun s h => ?_
  split <;> simp [Res.wf, h]

theorem execStreamRefill_wf (a : Agent) (r : Fin 8) : nextWf (execStreamRefill a r s) := by
  simp only [execStreamRefill, nextWf_next]
  repeat' split
  all_goals simp [hs, foldl_mem]

theorem execStreamBindingRetry_wf (a : Agent) : nextWf (execStreamBindingRetry a s) := by
  unfold execStreamBindingRetry
  split <;> simp [hs]

/-! ### Copies -/

theorem execCopyElement_wf (course i : Nat) : nextWf (execCopyElement course i s) := by
  unfold execCopyElement
  split <;> simp [hs]

theorem execCopyCompletion_wf (course i : Nat) : nextWf (execCopyCompletion course i s) := by
  unfold execCopyCompletion
  split <;> simp [hs]

theorem execCopy_wf (d a b : Reg) (c : CopyCmd) (g : PReg) : nextWf (execCopy d a b c g s) := by
  refine issue_nextWf hs fun s h => ?_
  dsimp only
  have hbar := State.engineBar_wf h s.cur b
  split
  · trivial
  split
  · trivial
  split
  · trivial
  split
  · trivial
  split
  · trivial
  split
  · exact Or.wf_error hbar ‹_›
  · exact h
  · repeat' split
    all_goals simp [Res.wf, h]

theorem execCopyEntryRetry_wf (a : Agent) : nextWf (execCopyEntryRetry a s) := by
  unfold execCopyEntryRetry
  split <;> simp [hs]

/-! ### Registers of the device -/

theorem execCsrr_wf (d : Reg) (csr : BitVec 12) : nextWf (execCsrr d csr s) := by
  refine issue_nextWf hs fun s h => ?_
  simp [Res.wf, h]

theorem execCsrw_wf (d a : Reg) (csr : BitVec 12) : nextWf (execCsrw d a csr s) :=
  issue_nextWf hs fun _ h => State.csrModify_wf h ..

theorem execCsrs_wf (d a : Reg) (csr : BitVec 12) : nextWf (execCsrs d a csr s) := by
  refine issue_nextWf hs fun s h => ?_
  dsimp only
  split
  · exact h
  · exact State.csrModify_wf h ..

theorem execCsrc_wf (d a : Reg) (csr : BitVec 12) : nextWf (execCsrc d a csr s) := by
  refine issue_nextWf hs fun s h => ?_
  dsimp only
  split
  · exact h
  · exact State.csrModify_wf h ..

/-! ### Residues -/

theorem execRsel_wf (m : RMode) (g : PReg) : nextWf (execRsel m g s) := by
  refine issue_nextWf hs fun s h => ?_
  split <;> simp [Res.wf, h]

/-! ### The array -/

theorem execMload_wf (d a : Reg) (c : MloadCmd) (g : PReg) : nextWf (execMload d a c g s) := by
  refine issue_nextWf hs fun s h => ?_
  dsimp only
  split
  · split
    · trivial
    · exact State.joinArray_wf h ..
  · exact h

theorem execMswap_wf (g : PReg) : nextWf (execMswap g s) := by
  refine issue_nextWf hs fun s h => ?_
  dsimp only
  split
  · exact State.joinArray_wf h ..
  · exact h

theorem execMgo_wf (transpose acc : Bool) (d a b : Reg) (c : MgoCmd) (g : PReg) :
    nextWf (execMgo transpose acc d a b c g s) := by
  refine issue_nextWf hs fun s h => ?_
  dsimp only
  split
  · split
    · trivial
    · exact State.joinArray_wf h ..
  · exact h

theorem execMshape_wf (d a : Reg) (g : PReg) : nextWf (execMshape d a g s) := by
  refine issue_nextWf hs fun s h => ?_
  split <;> simp [Res.wf, h]

theorem execMstat_wf (d a : Reg) (g : PReg) : nextWf (execMstat d a g s) := by
  refine issue_nextWf hs fun s h => ?_
  simp [Res.wf, h]

theorem execArrayJobStart_wf (course i : Nat) : nextWf (execArrayJobStart course i s) := by
  simp only [execArrayJobStart, nextWf_next]
  repeat' split
  all_goals simp [hs]

theorem execArrayInjection_wf (course i : Nat) : nextWf (execArrayInjection course i s) := by
  simp only [execArrayInjection, nextWf_next]
  repeat' split
  all_goals simp +contextual [hs, foldl_keeps]

theorem execArrayJobCompletion_wf (course i : Nat) : nextWf (execArrayJobCompletion course i s) := by
  unfold execArrayJobCompletion
  split <;> simp [hs]

theorem execArraySwap_wf (course i : Nat) : nextWf (execArraySwap course i s) := by
  simp only [execArraySwap, nextWf_next]
  repeat' split
  all_goals simp [hs]

theorem execArrayAbandon_wf (course : Nat) : nextWf (execArrayAbandon course s) := by
  simp only [execArrayAbandon, nextWf_next]
  repeat' split
  all_goals simp [hs]

theorem execArrayJoinRetry_wf (a : Agent) : nextWf (execArrayJoinRetry a s) := by
  unfold execArrayJoinRetry
  split <;> simp [hs]

theorem execBandSwitchOn_wf (course : Nat) (band : Fin 4) : nextWf (execBandSwitchOn course band s) := by
  unfold execBandSwitchOn
  split <;> simp [hs]

theorem execBandPendingClear_wf (course : Nat) (band : Fin 4) : nextWf (execBandPendingClear course band s) := by
  unfold execBandPendingClear
  split <;> simp [hs]

theorem execBandPowerOff_wf (course : Nat) (band : Fin 4) : nextWf (execBandPowerOff course band s) := by
  simp [execBandPowerOff, hs]

theorem execCadenceWrite_wf (site : Nat) (v : Word) : nextWf (execCadenceWrite site v s) := by
  simp [execCadenceWrite, hs]

theorem execIssuegapWrite_wf (site : Nat) (v : Word) : nextWf (execIssuegapWrite site v s) := by
  simp [execIssuegapWrite, hs]

theorem execRstatWrite_wf (course : Nat) (v : Word) : nextWf (execRstatWrite course v s) := by
  simp [execRstatWrite, hs]

/-! ### Chunks -/

theorem execChunkCommit_wf (a : Agent) : nextWf (execChunkCommit a s) := by
  simp [execChunkCommit, hs]

theorem execChunkLimitClose_wf (a : Agent) : nextWf (execChunkLimitClose a s) := by
  simp +contextual [execChunkLimitClose, hs, foldl_keeps]

theorem execPendingResultLanding_wf (a : Agent) (i : Nat) : nextWf (execPendingResultLanding a i s) := by
  unfold execPendingResultLanding
  split <;> simp [hs]

theorem execRegisterFill_wf (a : Agent) (xs vs : List Reg) : nextWf (execRegisterFill a xs vs s) := by
  have sunk : ∀ (n : Nat) (k : Core) (l : List RegEntry), Memory.wf
      (l.foldl (fun s e => s.modCtx (ctxOf n e.tid) (·.sinkSlot (e.kind, e.reg))) (s.setCore n k)).mem = true :=
    fun n k l => by rw [foldl_mem (fun s e => State.modCtx_mem s _ _)]; exact hs
  have fault : ∀ {t : State} (n : Nat) (sub : BitVec 8) (l : List RegEntry), Memory.wf t.mem = true →
      Memory.wf (l.foldl (fun s e => s.slotFault n sub e) t).mem = true :=
    fun n sub l ht => foldl_keeps (fun s e h => State.slotFault_keeps h n sub e) ht
  unfold execRegisterFill
  dsimp only
  split
  · split
    · exact hs
    split
    · exact hs
    split
    · exact hs
    split
    · exact hs
    split
    · exact hs
    · refine fault _ _ _ ?_
      split
      · exact State.slotFault_keeps (sunk _ _ _) _ _ _
      · exact sunk _ _ _
  · exact hs

theorem execFetchBufferFill_wf (core : Nat) (line : Word) : nextWf (execFetchBufferFill core line s) := by
  simp only [execFetchBufferFill, nextWf_next]
  repeat' split
  all_goals simp [hs, foldl_mem]

/-! ### Collectives -/

theorem execColl_wf (op : CollOp) (a b : Reg) (c : CollCmd) (g : PReg) : nextWf (execColl op a b c g s) := by
  refine issue_nextWf hs fun s h => ?_
  have hbar := State.engineBar_wf h s.cur b
  split
  · exact Or.wf_error hbar ‹_›
  · exact h
  · repeat' split
    all_goals simp [Res.wf, h]

theorem execCollectiveStart_wf (rid : Nat) (tag : BitVec 16) : nextWf (execCollectiveStart rid tag s) := by
  simp [execCollectiveStart, hs]

theorem execCollectiveElement_wf (rid : Nat) (tag : BitVec 16) : nextWf (execCollectiveElement rid tag s) := by
  simp only [execCollectiveElement, nextWf_next]
  repeat' split
  all_goals simp [hs]

theorem execCollectiveCompletion_wf (rid : Nat) (tag : BitVec 16) (rank : Nat) :
    nextWf (execCollectiveCompletion rid tag rank s) := by
  simp only [execCollectiveCompletion, nextWf_next]
  repeat' split
  all_goals simp [hs]

theorem execCollectiveJoinRetry_wf (a : Agent) : nextWf (execCollectiveJoinRetry a s) := by
  unfold execCollectiveJoinRetry
  split <;> simp [hs]

/-! ### No operation -/

theorem execNop_wf (l : NopLits) : nextWf (execNop l s) := by
  refine issue_nextWf hs fun s h => ?_
  simp [Res.wf, h]

/-! ### Translation -/

theorem execTlbw_wf (a b : Reg) (g : PReg) : nextWf (execTlbw a b g s) := by
  refine issue_nextWf hs fun s h => ?_
  dsimp only
  repeat' split
  all_goals simp [Res.wf, h]

theorem execTlbi_wf (a : Reg) (g : PReg) : nextWf (execTlbi a g s) :=
  issue_nextWf hs fun _ h => doTlbi_wf h ..

theorem execTlbiAll_wf (g : PReg) : nextWf (execTlbiAll g s) :=
  issue_nextWf hs fun _ h => doTlbi_wf h ..

theorem execReplay_wf (g : PReg) : nextWf (execReplay g s) := by
  refine issue_nextWf hs fun s h => ?_
  dsimp only
  repeat' split
  all_goals simp [Res.wf, h]

theorem execMissNotice_wf (course : Nat) (ans : MissAnswer) : nextWf (execMissNotice course ans s) := by
  unfold execMissNotice
  split <;> simp [hs]

theorem execAtsTranslationCompletion_wf (course : Nat) (va : Word) (ans : MissAnswer) :
    nextWf (execAtsTranslationCompletion course va ans s) := by
  simp [execAtsTranslationCompletion, hs]

theorem execPriResponse_wf (course : Nat) (va : Word) (ans : MissAnswer) :
    nextWf (execPriResponse course va ans s) := by
  simp [execPriResponse, hs]

theorem execAtsInvalidation_wf (pkey : BitVec 16) (vas : List Word) : nextWf (execAtsInvalidation pkey vas s) := by
  simp [execAtsInvalidation, hs]

/-! ### Stopping, saving and resuming a region -/

theorem execPreemption_wf (rid : Nat) : nextWf (execPreemption rid s) := by
  simp only [execPreemption, nextWf_next]
  repeat' split
  all_goals simp [hs]

theorem execPreemptionResume_wf (rid : Nat) (courses : List Nat) : nextWf (execPreemptionResume rid courses s) := by
  simp only [execPreemptionResume, nextWf_next]
  repeat' split
  all_goals simp [hs]

theorem execContextResume_wf (a : Agent) : nextWf (execContextResume a s) := by
  simp [execContextResume, hs]

theorem execContextEnd_wf (a : Agent) : nextWf (execContextEnd a s) := by
  simp [execContextEnd, hs]

/-! ### Supersteps -/

theorem execXphase_wf (g : PReg) : nextWf (execXphase g s) := by
  refine issue_nextWf hs fun s h => ?_
  simp [Res.wf, h]

theorem execSsync_wf (g : PReg) : nextWf (execSsync g s) := by
  refine issue_nextWf hs fun s h => ?_
  dsimp only
  repeat' split
  all_goals simp [Res.wf, h]

theorem execVote_wf (op : VoteOp) (d a : Reg) (g : PReg) : nextWf (execVote op d a g s) := by
  refine issue_nextWf hs fun s h => ?_
  dsimp only
  repeat' split
  all_goals simp [Res.wf, h]

theorem execVoteCompletion_wf (rid k : Nat) : nextWf (execVoteCompletion rid k s) := by
  simp only [execVoteCompletion, nextWf_next]
  repeat' split
  all_goals simp [hs, foldl_mem]

theorem execKeystoneCompletion_wf (rid : Nat) : nextWf (execKeystoneCompletion rid s) := by
  have closed : ∀ (l : List Agent) (p : Agent → Bool),
      Memory.wf ((l.foldl (fun s a => s.close a) s).drain p).mem = true :=
    fun l p => State.drain_keeps (foldl_keeps (fun s a h => State.close_keeps h a) hs) p
  unfold execKeystoneCompletion
  dsimp only
  split
  · split
    · exact hs
    split
    · exact hs
    · rw [nextWf_next, State.modRegion_mem, State.writeBackAll_mem,
        foldl_mem (fun s n => State.control_mem s n .keystone fun s => State.takeKeystone_mem s n),
        foldl_mem (fun s n => State.modCtx_mem s _ _), State.beforeNext_mem, State.modRegion_mem,
        foldl_mem (fun s n => State.modCore_mem s _ _)]
      exact closed _ _
  · exact hs

theorem execSuperstepWatchdog_wf (rid : Nat) : nextWf (execSuperstepWatchdog rid s) := by
  simp only [execSuperstepWatchdog, nextWf_next]
  repeat' split
  all_goals simp +contextual [hs, foldl_keeps]

/-! ### Errors and rollback -/

theorem execErrorRecord_wf (course : Nat) (e : ErrorEvent) : nextWf (execErrorRecord course e s) := by
  simp [execErrorRecord, hs]

theorem execErrorBankClear_wf (course : Nat) : nextWf (execErrorBankClear course s) := by
  simp [execErrorBankClear, hs]

theorem execTrap_wf (a : Agent) (cause sub : BitVec 8) (faddr : Word) : nextWf (execTrap a cause sub faddr s) := by
  unfold execTrap
  split <;> simp [hs]

theorem execTargetedSelfTest_wf (course : Nat) (o : TestOutcome) : nextWf (execTargetedSelfTest course o s) := by
  unfold execTargetedSelfTest
  split <;> simp [hs]

theorem execRollback_wf (rid : Nat) : nextWf (execRollback rid s) := by
  unfold execRollback
  split <;> simp [hs]

theorem execRegionFault_wf (rid : Nat) : nextWf (execRegionFault rid s) := by
  unfold execRegionFault
  split <;> simp [hs]

theorem execWarmReset_wf (lost : List Nat) : nextWf (execWarmReset lost s) := by
  simp [execWarmReset, hs]

theorem execStandbyTakeover_wf : nextWf (execStandbyTakeover s) := by
  simp [execStandbyTakeover, hs]

theorem execErrorContainment_wf (course : Nat) (pinned : Option Nat) :
    nextWf (execErrorContainment course pinned s) := by
  simp only [execErrorContainment, nextWf_next]
  repeat' split
  all_goals simp [hs]

/-! ### Rotation -/

theorem execRotationTick_wf : nextWf (execRotationTick s) := by
  simp only [execRotationTick, nextWf_next]
  repeat' split
  all_goals simp [hs, foldl_mem]

theorem execRotationDeferredPost_wf (ashlar : Fin 8) : nextWf (execRotationDeferredPost ashlar s) := by
  simp [execRotationDeferredPost, hs]

theorem execRotationStop_wf (ashlar : Fin 8) : nextWf (execRotationStop ashlar s) := by
  simp [execRotationStop, hs, foldl_mem]

theorem execRotationMove_wf (ashlar : Fin 8) : nextWf (execRotationMove ashlar s) := by
  simp [execRotationMove, hs]

theorem execRotationRestart_wf (ashlar : Fin 8) : nextWf (execRotationRestart ashlar s) := by
  simp [execRotationRestart, hs]

theorem execRotationControlWrite_wf (v : Word) : nextWf (execRotationControlWrite v s) := by
  simp [execRotationControlWrite, hs]

/-! ### Power -/

theorem execSensorReport_wf (i : Fin 76) (reading : BitVec 16) : nextWf (execSensorReport i reading s) := by
  simp [execSensorReport, hs]

theorem execObserverUpdate_wf (rs : List SiteReport) (models : List (Nat × BitVec 16)) :
    nextWf (execObserverUpdate rs models s) := by
  unfold execObserverUpdate
  dsimp only
  rw [nextWf_next, State.regWritten_mem]
  dsimp only
  rw [foldl_mem (fun s n => by split <;> simp)]
  exact foldl_keeps (fun s m h => h) hs

theorem execCurrentControl_wf : nextWf (execCurrentControl s) := by
  simp [execCurrentControl, hs]

omit hs in
/-- The ashlars' boosts in turn, with the current that they add up. -/
theorem foldl_boostAshlar_mem (now : Nat) (l : List Nat) : ∀ x : State × Nat,
    (l.foldl (fun x a => x.1.boostAshlar now x.2 a) x).1.mem = x.1.mem := by
  induction l with
  | nil => exact fun _ => rfl
  | cons a l ih => exact fun x => (ih _).trans (State.boostAshlar_mem x.1 now x.2 a)

theorem execBoostBoundary_wf : nextWf (execBoostBoundary s) := by
  unfold execBoostBoundary
  split
  · exact hs
  · rw [nextWf_next]
    dsimp only
    rw [foldl_boostAshlar_mem]
    exact hs

theorem execSlotsUpdate_wf (ashlar : Fin 8) : nextWf (execSlotsUpdate ashlar s) := by
  simp [execSlotsUpdate, hs]

theorem execBoostWrite_wf (v : Word) : nextWf (execBoostWrite v s) := by
  simp [execBoostWrite, hs]

theorem execPowerGateEntry_wf (core : Nat) : nextWf (execPowerGateEntry core s) := by
  simp only [execPowerGateEntry, nextWf_next]
  repeat' split
  all_goals simp [hs]

theorem execHbmHeatLevel_wf (stack : Fin 8) : nextWf (execHbmHeatLevel stack s) := by
  simp only [execHbmHeatLevel, nextWf_next]
  repeat' split
  all_goals simp [hs]

theorem execShortfallUpdate_wf (pkey : BitVec 16) (stack : Fin 8) (requested : Nat) :
    nextWf (execShortfallUpdate pkey stack requested s) := by
  simp only [execShortfallUpdate, nextWf_next]
  repeat' split
  all_goals simp [hs]

/-! ### The host -/

theorem execReplyWordRead_wf (fn : Nat) : nextWf (execReplyWordRead fn s) := by
  simp [execReplyWordRead, hs]

theorem execLaunch_wf (fn : Nat) (msg : BitVec 128) (courses : List Nat) : nextWf (execLaunch fn msg courses s) := by
  simp [execLaunch, hs]

theorem execTeardown_wf (fn : Nat) (msg : BitVec 128) : nextWf (execTeardown fn msg s) := by
  simp [execTeardown, hs]

theorem execPartitionReset_wf (fn : Nat) (msg : BitVec 128) : nextWf (execPartitionReset fn msg s) := by
  simp [execPartitionReset, hs]

theorem execFunctionLevelReset_wf (fn : Nat) : nextWf (execFunctionLevelReset fn s) := by
  simp [execFunctionLevelReset, hs]

theorem execMigrationStop_wf (fn : Nat) (msg : BitVec 128) : nextWf (execMigrationStop fn msg s) := by
  simp [execMigrationStop, hs]

theorem execMigrationResume_wf (fn : Nat) (msg : BitVec 128) (courses : List Nat) :
    nextWf (execMigrationResume fn msg courses s) := by
  simp [execMigrationResume, hs]

theorem execInboundBar2Access_wf (fn off requester : Nat) (op : InboundOp) :
    nextWf (execInboundBar2Access fn off requester op s) := by
  simp [execInboundBar2Access, hs]

theorem execGweamFlitArrival_wf (port : Fin 32) (pkey : BitVec 16) (op : Flit) :
    nextWf (execGweamFlitArrival port pkey op s) := by
  simp [execGweamFlitArrival, hs]

theorem execPartitionCreation_wf (fn : Nat) (pkey : BitVec 16) (ports : List (Fin 32)) :
    nextWf (execPartitionCreation fn pkey ports s) := by
  simp [execPartitionCreation, hs, foldl_mem]

omit hs in
theorem execBringUp_wf (failedStage : Fin 6) (fails : List FailRecord) (images : List Firmware) :
    nextWf (execBringUp failedStage fails images s) := by
  unfold execBringUp
  dsimp only
  split
  · exact State.writeRoot_keeps State.reset_mem_wf
  · exact State.reset_mem_wf

theorem execSpdmRequest_wf (nonce : BitVec 256) : nextWf (execSpdmRequest nonce s) := by
  simp [execSpdmRequest, hs]

theorem execRegisterWrite_wf (r : WriteReg) (v : Word) : nextWf (execRegisterWrite r v s) := by
  unfold execRegisterWrite
  split
  · split
    · exact hs
    split
    next t ht => rw [nextWf_next, State.csrWrite_mem ht]; exact hs
    · simp [hs]
  · split <;> simp [hs]
  · split <;> simp [hs]

/-! ### Ordering -/

theorem execFence_wf (k : Scope) (g : PReg) : nextWf (execFence k g s) := by
  refine issue_nextWf hs fun s h => ?_
  split <;> simp [Res.wf, h]

theorem execChunk_wf (g : PReg) : nextWf (execChunk g s) := by
  refine issue_nextWf hs fun s h => ?_
  simp [Res.wf, h]

theorem execIfence_wf (g : PReg) : nextWf (execIfence g s) := by
  refine issue_nextWf hs fun s h => ?_
  dsimp only
  repeat' split
  all_goals simp [Res.wf, h]

/-! ### The pair word -/

theorem execPairWord_wf (g : PReg) (p : ScalarHalf) (v : VecForm) : nextWf (execPairWord g p v s) := by
  refine issue_nextWf hs fun s h => ?_
  dsimp only
  have hv := doVec_wf h v (s.guardMask s.cur (.pairWord g p v))
  revert hv
  cases doVec v (s.guardMask s.cur (.pairWord g p v)) s <;> exact id

/-! ### Declarations and sweeps -/

theorem execMdecl_wf (d a b : Reg) (c : MdeclCmd) (g : PReg) : nextWf (execMdecl d a b c g s) := by
  refine issue_nextWf hs fun s h => ?_
  dsimp only
  repeat' split
  all_goals simp [Res.wf, h]

theorem execSweep_wf (d a : Reg) (g : PReg) : nextWf (execSweep d a g s) := by
  refine issue_nextWf hs fun s h => ?_
  dsimp only
  split
  · trivial
  split
  · trivial
  · exact h
  split
  · exact h
  refine Or.then_wf' (State.tableLocs_wf h _ _ _) fun ls => ?_
  repeat' split
  all_goals simp [Res.wf, h, foldl_mem]

theorem execSweepStart_wf (core : Nat) : nextWf (execSweepStart core s) := by
  unfold execSweepStart
  split <;> simp [hs]

theorem execSweepDispatch_wf (core : Nat) : nextWf (execSweepDispatch core s) := by
  simp only [execSweepDispatch, nextWf_next]
  repeat' split
  all_goals simp [hs]

theorem execSwstepImmediate_wf (state : BitVec 6) (g : PReg) : nextWf (execSwstepImmediate state g s) :=
  issue_nextWf hs fun _ h => doStep_wf h ..

theorem execSwstepVector_wf (b : Reg) (g : PReg) : nextWf (execSwstepVector b g s) :=
  issue_nextWf hs fun _ h => doStep_wf h ..

theorem execSwait_wf (k : WaitKind) (g : PReg) : nextWf (execSwait k g s) :=
  issue_nextWf hs fun _ h => doStep_wf h ..

theorem execSweepStripWriteback_wf (core : Nat) : nextWf (execSweepStripWriteback core s) := by
  simp only [execSweepStripWriteback, nextWf_next]
  repeat' split
  all_goals simp [hs]

theorem execSweepCompletion_wf (core : Nat) : nextWf (execSweepCompletion core s) := by
  simp only [execSweepCompletion, nextWf_next]
  repeat' split
  all_goals simp [hs]

theorem execSwake_wf (a : Reg) (b : XV) (g : PReg) : nextWf (execSwake a b g s) := by
  refine issue_nextWf hs fun s h => ?_
  dsimp only
  split
  · trivial
  · exact State.sendScreed_wf h ..

theorem execSkipset_wf (set : Bool) (a b : Reg) (g : PReg) : nextWf (execSkipset set a b g s) := by
  refine issue_nextWf hs fun s h => ?_
  dsimp only
  split
  · trivial
  · exact State.sendScreed_wf h ..

theorem execSwakeApply_wf (i : Nat) : nextWf (execSwakeApply i s) := by
  simp [execSwakeApply, hs]

theorem execSkipsetApply_wf (i : Nat) : nextWf (execSkipsetApply i s) := by
  simp [execSkipsetApply, hs]

/-! ### Scalar and float instructions -/

theorem execAddpc_wf (d : Reg) (b : SrcB) : nextWf (execAddpc d b s) :=
  issueX_wf hs

theorem execLea_wf (d a : Reg) (b : SrcB) (k : Fin 4) : nextWf (execLea d a b k s) :=
  issueX_wf hs

theorem execFcvt_wf (dst src : Ty) (r : Rm) (d a : Reg) : nextWf (execFcvt dst src r d a s) :=
  issueX_wf hs

theorem execFclass_wf (d : Reg) (a : FSrc) (la : La) : nextWf (execFclass d a la s) :=
  issueX_wf hs

theorem execFadd_wf (r : Rm) (d a : Reg) (b : FSrc) (la : La) : nextWf (execFadd r d a b la s) :=
  issueF_wf hs

theorem execFsub_wf (r : Rm) (d a : Reg) (b : FSrc) (la : La) : nextWf (execFsub r d a b la s) :=
  issueF_wf hs

theorem execFmul_wf (r : Rm) (d a : Reg) (b : FSrc) (la : La) : nextWf (execFmul r d a b la s) :=
  issueF_wf hs

theorem execFma_wf (r : Rm) (d a : Reg) (b : FSrc) (la : La) : nextWf (execFma r d a b la s) :=
  issueF_wf hs

theorem execFmin_wf (d a : Reg) (b : FSrc) (la : La) : nextWf (execFmin d a b la s) :=
  issueF_wf hs

theorem execFmax_wf (d a : Reg) (b : FSrc) (la : La) : nextWf (execFmax d a b la s) :=
  issueF_wf hs

theorem execFcmp_wf (c : FCmp) (d a : Reg) (b : FSrc) (la : La) : nextWf (execFcmp c d a b la s) :=
  issueF_wf hs

theorem execFsgn_wf (o : SgnOp) (d a : Reg) (b : FSrc) (la : La) : nextWf (execFsgn o d a b la s) :=
  issueF_wf hs

/-! ### Every instruction -/

/-- Performing an instruction or a step of the device keeps the canonical form. -/
theorem exec_wf (i : Instr) : nextWf (exec i s) := by
  cases i with
  | add | sub | and | or | xor | andn | sll | srl | sra | rol | slt | sltn | min | max | minn | maxn | mul | mulh |
    mulhn | div | divn | rem | remn | bext | bins | sel | lim =>
    exact issueS_wf hs
  | clz | ctz | popc | sext | zext =>
    exact issueU_wf hs
  | fadd => exact execFadd_wf hs ..
  | fsub => exact execFsub_wf hs ..
  | fmul => exact execFmul_wf hs ..
  | fma => exact execFma_wf hs ..
  | fmin => exact execFmin_wf hs ..
  | fmax => exact execFmax_wf hs ..
  | fcmp => exact execFcmp_wf hs ..
  | fsgn => exact execFsgn_wf hs ..
  | addpc => exact execAddpc_wf hs ..
  | lea => exact execLea_wf hs ..
  | fcvt => exact execFcvt_wf hs ..
  | fclass => exact execFclass_wf hs ..
  | beq | bne | blt | bge | bltn | bgen =>
    exact issueBranch_wf hs
  | vadd | vsub | vmul | vmulh | vmac | vand | vor | vxor | vsll | vsrl | vsra | vmin | vmax | vminn | vmaxn | vfadd |
    vfsub | vfmul | vfma | vfmin | vfmax | vfsgn | vfdiv | vsel | vperm | vslide | vzip | vunzip | vabs | vsqrt | vclass
    | vcmp | vfcmp | vmov | vbcast | vred | vscan | pset | plog | pcnt | pfirst | rfwd | rrev | radd | rmul | rbase |
    vquant | vexp2 | vlog2 | vrcp | vrsq =>
    exact issueV_wf hs fun _ _ h => h
  | vld | vlds | vldx =>
    exact issueV_wf hs fun _ _ h => doLoad_wf h ..
  | vst | vsts | vstx =>
    exact issueV_wf hs fun _ _ h => doStore_wf h ..
  | rchk =>
    exact issueV_wf hs fun _ _ h => doRchk_wf h ..
  | vcvt =>
    exact issueV_wf hs fun _ _ h => doCvt_wf h ..
  | ld => exact execLd_wf hs ..
  | st => exact execSt_wf hs ..
  | faddx => exact execFaddx_wf hs ..
  | cellrd => exact execCellrd_wf hs ..
  | amo => exact execAmo_wf hs ..
  | cas => exact execCas_wf hs ..
  | recv => exact execRecv_wf hs ..
  | peek => exact execPeek_wf hs ..
  | send => exact execSend_wf hs ..
  | sendDelivery => exact execSendDelivery_wf hs ..
  | sendVerdict => exact execSendVerdict_wf hs ..
  | sendResend => exact execSendResend_wf hs ..
  | spillRefill => exact execSpillRefill_wf hs ..
  | recvWake => exact execRecvWake_wf hs ..
  | farAccessAtHome => exact execFarAccessAtHome_wf hs ..
  | replySink => exact execReplySink_wf hs ..
  | mon => exact execMon_wf hs ..
  | mwait => exact execMwait_wf hs ..
  | watchReport => exact execWatchReport_wf hs ..
  | watchTimeout => exact execWatchTimeout_wf hs ..
  | mwaitWake => exact execMwaitWake_wf hs ..
  | supervisorMessage => exact execSupervisorMessage_wf hs ..
  | barinit => exact execBarinit_wf hs ..
  | bararr => exact execBararr_wf hs ..
  | parkedBararrArrival => exact execParkedBararrArrival_wf hs ..
  | barwait => exact execBarwait_wf hs ..
  | barwaitWake => exact execBarwaitWake_wf hs ..
  | barwaitTimeout => exact execBarwaitTimeout_wf hs ..
  | ecall => exact execEcall_wf hs ..
  | ebreak => exact execEbreak_wf hs ..
  | eret => exact execEret_wf hs ..
  | wfi => exact execWfi_wf hs ..
  | hstart => exact execHstart_wf hs ..
  | hend => exact execHend_wf hs ..
  | gang => exact execGang_wf hs ..
  | split => exact execSplit_wf hs ..
  | live => exact execLive_wf hs ..
  | yield => exact execYield_wf hs ..
  | reservationRetry => exact execReservationRetry_wf hs ..
  | smodeX => exact execSmodeX_wf hs ..
  | smodeV => exact execSmodeV_wf hs ..
  | sexit => exact execSexit_wf hs ..
  | streamRefill => exact execStreamRefill_wf hs ..
  | streamBindingRetry => exact execStreamBindingRetry_wf hs ..
  | copyElement => exact execCopyElement_wf hs ..
  | copyCompletion => exact execCopyCompletion_wf hs ..
  | copy => exact execCopy_wf hs ..
  | copyEntryRetry => exact execCopyEntryRetry_wf hs ..
  | csrr => exact execCsrr_wf hs ..
  | csrw => exact execCsrw_wf hs ..
  | csrs => exact execCsrs_wf hs ..
  | csrc => exact execCsrc_wf hs ..
  | rsel => exact execRsel_wf hs ..
  | mload => exact execMload_wf hs ..
  | mswap => exact execMswap_wf hs ..
  | mgo => exact execMgo_wf hs ..
  | mshape => exact execMshape_wf hs ..
  | mstat => exact execMstat_wf hs ..
  | arrayJobStart => exact execArrayJobStart_wf hs ..
  | arrayInjection => exact execArrayInjection_wf hs ..
  | arrayJobCompletion => exact execArrayJobCompletion_wf hs ..
  | arraySwap => exact execArraySwap_wf hs ..
  | arrayAbandon => exact execArrayAbandon_wf hs ..
  | arrayJoinRetry => exact execArrayJoinRetry_wf hs ..
  | bandSwitchOn => exact execBandSwitchOn_wf hs ..
  | bandPendingClear => exact execBandPendingClear_wf hs ..
  | bandPowerOff => exact execBandPowerOff_wf hs ..
  | cadenceWrite => exact execCadenceWrite_wf hs ..
  | issuegapWrite => exact execIssuegapWrite_wf hs ..
  | rstatWrite => exact execRstatWrite_wf hs ..
  | chunkCommit => exact execChunkCommit_wf hs ..
  | chunkLimitClose => exact execChunkLimitClose_wf hs ..
  | pendingResultLanding => exact execPendingResultLanding_wf hs ..
  | registerFill => exact execRegisterFill_wf hs ..
  | fetchBufferFill => exact execFetchBufferFill_wf hs ..
  | coll => exact execColl_wf hs ..
  | collectiveStart => exact execCollectiveStart_wf hs ..
  | collectiveElement => exact execCollectiveElement_wf hs ..
  | collectiveCompletion => exact execCollectiveCompletion_wf hs ..
  | collectiveJoinRetry => exact execCollectiveJoinRetry_wf hs ..
  | jal => exact execJal_wf hs ..
  | jalr => exact execJalr_wf hs ..
  | jtab => exact execJtab_wf hs ..
  | rep => exact execRep_wf hs ..
  | nop => exact execNop_wf hs ..
  | tlbw => exact execTlbw_wf hs ..
  | tlbi => exact execTlbi_wf hs ..
  | tlbiAll => exact execTlbiAll_wf hs ..
  | replay => exact execReplay_wf hs ..
  | missNotice => exact execMissNotice_wf hs ..
  | atsTranslationCompletion => exact execAtsTranslationCompletion_wf hs ..
  | priResponse => exact execPriResponse_wf hs ..
  | atsInvalidation => exact execAtsInvalidation_wf hs ..
  | preemption => exact execPreemption_wf hs ..
  | preemptionResume => exact execPreemptionResume_wf hs ..
  | contextResume => exact execContextResume_wf hs ..
  | contextEnd => exact execContextEnd_wf hs ..
  | xphase => exact execXphase_wf hs ..
  | ssync => exact execSsync_wf hs ..
  | vote => exact execVote_wf hs ..
  | voteCompletion => exact execVoteCompletion_wf hs ..
  | keystoneCompletion => exact execKeystoneCompletion_wf hs ..
  | superstepWatchdog => exact execSuperstepWatchdog_wf hs ..
  | errorRecord => exact execErrorRecord_wf hs ..
  | errorBankClear => exact execErrorBankClear_wf hs ..
  | trap => exact execTrap_wf hs ..
  | targetedSelfTest => exact execTargetedSelfTest_wf hs ..
  | rollback => exact execRollback_wf hs ..
  | regionFault => exact execRegionFault_wf hs ..
  | warmReset => exact execWarmReset_wf hs ..
  | standbyTakeover => exact execStandbyTakeover_wf hs ..
  | errorContainment => exact execErrorContainment_wf hs ..
  | rotationTick => exact execRotationTick_wf hs ..
  | rotationDeferredPost => exact execRotationDeferredPost_wf hs ..
  | rotationStop => exact execRotationStop_wf hs ..
  | rotationMove => exact execRotationMove_wf hs ..
  | rotationRestart => exact execRotationRestart_wf hs ..
  | rotationControlWrite => exact execRotationControlWrite_wf hs ..
  | sensorReport => exact execSensorReport_wf hs ..
  | observerUpdate => exact execObserverUpdate_wf hs ..
  | currentControl => exact execCurrentControl_wf hs ..
  | boostBoundary => exact execBoostBoundary_wf hs ..
  | slotsUpdate => exact execSlotsUpdate_wf hs ..
  | boostWrite => exact execBoostWrite_wf hs ..
  | powerGateEntry => exact execPowerGateEntry_wf hs ..
  | hbmHeatLevel => exact execHbmHeatLevel_wf hs ..
  | shortfallUpdate => exact execShortfallUpdate_wf hs ..
  | replyWordRead => exact execReplyWordRead_wf hs ..
  | launch => exact execLaunch_wf hs ..
  | teardown => exact execTeardown_wf hs ..
  | partitionReset => exact execPartitionReset_wf hs ..
  | functionLevelReset => exact execFunctionLevelReset_wf hs ..
  | migrationStop => exact execMigrationStop_wf hs ..
  | migrationResume => exact execMigrationResume_wf hs ..
  | inboundBar2Access => exact execInboundBar2Access_wf hs ..
  | gweamFlitArrival => exact execGweamFlitArrival_wf hs ..
  | partitionCreation => exact execPartitionCreation_wf hs ..
  | bringUp => exact execBringUp_wf ..
  | spdmRequest => exact execSpdmRequest_wf hs ..
  | registerWrite => exact execRegisterWrite_wf hs ..
  | fence => exact execFence_wf hs ..
  | chunk => exact execChunk_wf hs ..
  | ifence => exact execIfence_wf hs ..
  | pairWord => exact execPairWord_wf hs ..
  | mdecl => exact execMdecl_wf hs ..
  | sweep => exact execSweep_wf hs ..
  | sweepStart => exact execSweepStart_wf hs ..
  | sweepDispatch => exact execSweepDispatch_wf hs ..
  | swstepImmediate => exact execSwstepImmediate_wf hs ..
  | swstepVector => exact execSwstepVector_wf hs ..
  | swait => exact execSwait_wf hs ..
  | sweepStripWriteback => exact execSweepStripWriteback_wf hs ..
  | sweepCompletion => exact execSweepCompletion_wf hs ..
  | swake => exact execSwake_wf hs ..
  | skipset => exact execSkipset_wf hs ..
  | swakeApply => exact execSwakeApply_wf hs ..
  | skipsetApply => exact execSkipsetApply_wf hs ..

end

/-! ## A step

A step performs one `perform`, which is an `exec` or the issue of an agent, alone or with its gang. -/

section
variable {s : State}

/-- The members of a gang perform an instruction in turn, each on the state that the one before left. -/
theorem execMembers_wf (i : Instr) (s0 : State) (g : List Agent) :
    ∀ {s : State}, Memory.wf s.mem = true → nextWf (execMembers i s0 g s) := by
  induction g with
  | nil => exact fun h => h
  | cons a g ih =>
    intro s h
    unfold execMembers
    split
    · exact ih h
    · refine andThen_wf (exec_wf (s := { s with cur := a, together := true }) h i) fun t ht => ih ?_
      split <;> exact ht

variable (h : Memory.wf s.mem = true)
include h

/-- A gang's instruction, whichever way it ends: a trap, a wait, a split or completion. -/
theorem execTogether_wf (i : Instr) (g : List Agent) : nextWf (execTogether i g s) := by
  unfold execTogether
  dsimp only
  split
  · exact State.raiseAll_keeps h _ _ _
  refine iteInduction (fun _ => State.partForWfi_keeps h g) fun _ => ?_
  refine andThen_wf (execMembers_wf i s g h) fun t ht => ?_
  split
  · rw [nextWf_next, State.holdGang_mem]
    split
    · exact State.close_keeps h _
    · exact h
  split
  · exact ht
  split
  · simp [h]
  split
  · simp [ht]
  · refine andThen_wf (execMembers_wf i _ g (State.close_keeps h _)) fun t ht => ?_
    simp [ht]

theorem performNext_wf (i : Instr) (g : List Agent) (lead : Agent) : nextWf (performNext i g lead s) := by
  unfold performNext
  dsimp only
  have ready :
      Memory.wf ((if g.any (s.mustClose i) && s.canClose lead then s.close lead else s).touchCode lead i).mem = true := by
    rw [State.touchCode_mem]
    split
    · exact State.close_keeps h _
    · exact h
  refine andThen_wf ?_ fun t ht => by simpa using ht
  split
  · exact exec_wf ready i
  · exact execTogether_wf ready i g

theorem issueAgent_wf (a : Agent) : nextWf (issueAgent a s) := by
  unfold issueAgent
  dsimp only
  split
  · exact h
  split
  · exact State.raise_keeps (s := { s with cur := _, lead := none, together := false }) h _ _ _
  · rw [nextWf_next, foldl_mem (fun s b => State.parkMiss_mem s b _ _)]
    exact h
  · exact State.raiseAll_keeps (s := { s with cur := _, lead := none, together := false }) h _ _ _
  split
  · exact h
  split
  · exact State.raiseAll_keeps (s := { s with cur := _, lead := none, together := false }) h _ _ _
  · exact State.raiseAll_keeps (s := { s with cur := _, lead := none, together := false }) h _ _ _
  · exact performNext_wf (s := { s with cur := _, lead := none, together := false }) h _ _ _

theorem issueChosen_wf (a : Agent) : nextWf (issueChosen a s) := by
  have woken : ∀ {t : State}, Memory.wf t.mem = true → Memory.wf t.follow'.wake.mem = true := fun ht => by
    rw [State.wake_mem]
    exact State.follow'_keeps ht
  unfold issueChosen
  split
  · split
    · refine andThen_wf (issueAgent_wf h _) fun t ht => woken ?_
      rwa [State.retried_mem]
    split
    next u s' hc =>
      split
      · refine andThen_wf (issueAgent_wf (by rw [State.choice_mem hc]; exact h) _) fun t ht => ?_
        split
        · exact andThen_wf (issueAgent_wf h _) fun t ht => State.follow'_keeps ht
        · refine woken ?_
          rwa [State.retried_mem]
      · exact h
    · exact h
  · refine andThen_wf (issueAgent_wf h _) fun t ht => ?_
    split
    · exact State.follow'_keeps ht
    · exact woken ht

theorem perform_wf (p : Pick) : nextWf (perform p s) := by
  cases p with
  | event i =>
    refine andThen_wf (exec_wf h i) fun t ht => ?_
    rw [nextWf_next, State.wake_mem]
    exact State.follow'_keeps ht
  | issue a => exact issueChosen_wf h a

theorem ownOrder_wf : nextWf (ownOrder s) := by
  unfold ownOrder
  split
  · exact perform_wf h _
  · split
    next a _ => exact perform_wf (s := { s with turn := a.core?.getD 0 + 1 }) h _
    · rw [nextWf_next, State.wake_mem, State.advance_mem]
      exact h

theorem step_wf : nextWf (step s) := by
  unfold step
  split
  · split
    · exact perform_wf (by rw [State.advance_mem]; exact h) _
    · trivial
  · exact ownOrder_wf (s := { s with late := false, busy := [], engineTurn := !s.engineTurn }) h
end

/-- Settles O59: whatever a step performs, `step_wf` keeps the form of the memory it answers. -/
theorem memoryFormKept : Obligations.MemoryFormKept := by
  intro s t hs ht
  have hn := step_wf hs
  rwa [ht] at hn

/-! ## The state after reset -/

/-- In context 0 of a core `run` is 00, and in its helpers 11 (R162). -/
theorem Ctx.initial_run (c k t : Nat) : (Ctx.initial (.ctx c k t)).run = if t = 0 then 0 else 3 := by
  unfold Ctx.initial
  dsimp only
  split <;> rfl

/-- The site of a course index within its ashlar of 32 sites. -/
theorem State.reset_site_toNat (c : Nat) : (State.reset.site c).site.toNat = c % 32 := by
  have e : (State.reset.site c).site = BitVec.ofNat 5 (c % 32) := rfl
  rw [e, BitVec.toNat_ofNat, Nat.mod_mod]

theorem State.reset_siteOf (c : Nat) : State.reset.siteOf c = c := by
  rw [State.siteOf, State.reset_site_toNat, Nat.div_add_mod']

/-- Settles O60: every table of the reset state is empty, so each of its parts reads its initial value. -/
theorem resetValues : Obligations.ResetValues := by
  have sites (c : Nat) (_ : c < 256) :
      (State.reset.site c).rid = 0 ∧ (State.reset.site c).site.toNat = c % 32 ∧ State.reset.siteOf c = c :=
    ⟨rfl, State.reset_site_toNat c, State.reset_siteOf c⟩
  exact ⟨State.reset_mem_wf, rfl, rfl, rfl, rfl, Ctx.initial_run, fun _ => rfl, rfl, sites, rfl, rfl,
    fun _ => ⟨rfl, rfl⟩, fun _ => rfl⟩

end Sys2Proof.Machine
end

section
/-! # The pair word

Where a pair passes the checks of R47, its outcome is that of its class 01 form on the state before it, with the scalar
half's value added to the results (R14, R42). -/

namespace Sys2Proof.Machine

open Sys2Proof

section
variable {g : PReg} {h : ScalarHalf} {v : VecForm} {s : State} (hs : s.performs (.pairWord g h v) = true)
include hs

/-- The scalar half's value is that of the registers before the pair, and replaces a result of the class 01 form for the
same x register. -/
theorem execPairWord_of_done {u : State} {rs : List Result}
    (hv : doVec v ((s.before (.pairWord g h v)).guardMask s.cur (.pairWord g h v)) (s.before (.pairWord g h v)) =
      .done u rs) :
    execPairWord g h v s = .next (u.retire s.cur (.pairWord g h v)
      (rs.filter (fun r => !(r.kind == .x && r.reg == h.d.val)) ++
        [.toX h.d.val (ScalarHalf.value h (s.ctxAt (.pairWord g h v)))])) := by
  rw [execPairWord, issue_performs hs]
  simp only [State.before_cur, hv]
  rfl

/-- Where the class 01 form traps, the scalar half writes nothing. -/
theorem execPairWord_of_trap {x : Trap}
    (hv : doVec v ((s.before (.pairWord g h v)).guardMask s.cur (.pairWord g h v)) (s.before (.pairWord g h v)) =
      .trap x) :
    execPairWord g h v s = .next (s.raise s.cur x (Instr.pairWord g h v).bytes) := by
  rw [execPairWord, issue_performs hs]
  simp only [State.before_cur, hv]
  rfl

end

/-- Settles O21, by the two outcomes of the class 01 form: `execPairWord_of_done` and `execPairWord_of_trap`. -/
theorem pairResult : Obligations.PairResult := fun _ _ _ _ hs =>
  ⟨fun _ _ hv => execPairWord_of_done hs hv, fun _ hv => execPairWord_of_trap hs hv⟩

end Sys2Proof.Machine
end

section
/-! # The reply word of a status above a byte

R389 gives a reply word its status in bits 7:0 and the rid in bits 31:16. `State.reply` adds the status up as the number it is,
so that the two fields stand apart for every status of a byte, and one of 2^16 or more carries into the rid. -/

namespace Sys2Proof.Machine

open Sys2Proof

@[simp] theorem State.modFn_fn_self (s : State) (n : Nat) (f : Fn → Fn) : (s.modFn n f).fn n = f (s.fn n) :=
  Map.get_set_self ..

/-- The rid field of a reply holds the rid and what the status carries out of its low 16 bits. -/
theorem State.fld_rid_reply (s : State) (fn : Nat) (r : BitVec 16) (st : Nat) :
    fld ((s.reply fn r st).fn fn).reply 16 16 = (r.toNat + st / 2 ^ 16) % 2 ^ 16 := by
  have word : ((s.reply fn r st).fn fn).reply = BitVec.ofNat 64 (2 ^ 63 + r.toNat * 2 ^ 16 + st) := by
    simp [State.reply, bit', at']
  rw [word, fld, BitVec.toNat_ofNat]
  omega

/-- Refutes O52 at its clause on the reply word, which bounds the status by 256 for the status field alone and not for the rid
field: in the state after reset, a reply of rid 0 with the status 0x10000 reads 1 as its rid. -/
theorem not_hostRequests : ¬ Obligations.HostRequests := by
  unfold Obligations.HostRequests
  intro h
  obtain ⟨-, reply, -⟩ := h State.reset 0 0 []
  obtain ⟨⟨-, rid⟩, -⟩ := reply 0 0x10000
  have carried : fld ((State.reset.reply 0 0 0x10000).fn 0).reply 16 16 = 1 := State.fld_rid_reply ..
  exact absurd (carried.symm.trans rid) (by decide)

end Sys2Proof.Machine
end

section
/-! # The two ends of the checks

What an instruction gives where every check of R47 passes, in terms of its operation on the acting context and the state before
it, and what it gives where step 4 denies it. -/

namespace Sys2Proof.Machine

open Sys2Proof

/-- An instruction that is performed has the outcome of its operation on the acting context and the state before it. -/
theorem exec_performs {i : Instr} {body : Ctx → State → Res}
    (h : ∀ s, exec i s = issue i s fun t => body (t.ctx t.cur) t) {s : State} (hs : s.performs i = true) :
    exec i s = .next (s.conclude i (body (s.ctxAt i) (s.before i))) := by
  rw [h, issue_performs hs, State.before_cur]
  rfl

/-- Where step 4 of R47 denies an instruction, its trap is raised. -/
theorem exec_denied {i : Instr} {body : State → Res} (h : ∀ s, exec i s = issue i s body) {s : State}
    (legal : s.illegal s.cur i = false) (guarded : s.guardMask s.cur i ≠ 0) {t : Trap} (denied : s.denied s.cur i = some t) :
    exec i s = .next (s.raise s.cur t i.bytes) := by
  rw [h, issue, State.run]
  simp only [legal, guarded, denied, Bool.false_eq_true, if_false]

end Sys2Proof.Machine
end

section
/-! # Integer results of class 00

Each integer form of class 00 writes `sopEval` of its operation, so a result statement is `givesX_sop` and the value of that
operation as its rule gives it (R54 to R59). -/

namespace Sys2Proof.Machine

open Sys2Proof

/-- A two-operand integer form writes its operation on xd, xa and b. -/
theorem givesX_sop {i : Instr} {op : SOp} {d a : Reg} {b : SrcB} {la : Nat} (h : ∀ s, exec i s = issueS i op d a b la s) :
    GivesX i d la (fun c => sopEval op (c.x d.val) (c.x a.val) (b.val c)) := givesX_of h

/-- A one-operand integer form writes its operation on xa. -/
theorem givesX_unary {i : Instr} {op : SOp} {d a : Reg} (h : ∀ s, exec i s = issueU i op d a s) :
    GivesX i d 0 (fun c => sopEval op 0 (c.x a.val) 0) := givesX_of h

/-! ### Shifts, minima and products (R54) -/

theorem shiftLeft_eq_ofNat (a : Word) (k : Nat) : a <<< k = BitVec.ofNat 64 (a.toNat * 2 ^ k) := by
  apply BitVec.eq_of_toNat_eq
  rw [BitVec.toNat_shiftLeft, BitVec.toNat_ofNat, Nat.shiftLeft_eq]

theorem ushiftRight_eq_ofNat (a : Word) (k : Nat) : a >>> k = BitVec.ofNat 64 (a.toNat / 2 ^ k) := by
  apply BitVec.eq_of_toNat_eq
  rw [BitVec.toNat_ushiftRight, BitVec.toNat_ofNat, Nat.shiftRight_eq_div_pow,
    Nat.mod_eq_of_lt (Nat.lt_of_le_of_lt (Nat.div_le_self ..) a.isLt)]

theorem sshiftRight_eq_ofInt (a : Word) (k : Nat) : a.sshiftRight k = BitVec.ofInt 64 (a.toInt / 2 ^ k) := by
  rw [BitVec.sshiftRight, Int.shiftRight_eq_div_pow]
  rfl

theorem rotateLeft_shiftOf (a b : Word) :
    a.rotateLeft (shiftOf b) = (a <<< (b.toNat % 64)) ||| (a >>> (64 - b.toNat % 64)) := by
  rw [BitVec.rotateLeft_def, shiftOf, Nat.mod_mod]

theorem ite_toInt_lt_eq_min (a b : Word) :
    (if a.toInt < b.toInt then a else b) = BitVec.ofInt 64 (min a.toInt b.toInt) := by
  split
  next h => rw [Int.min_eq_left (Int.le_of_lt h), BitVec.ofInt_toInt]
  next h => rw [Int.min_eq_right (Int.not_lt.1 h), BitVec.ofInt_toInt]

theorem ite_toInt_lt_eq_max (a b : Word) :
    (if a.toInt < b.toInt then b else a) = BitVec.ofInt 64 (max a.toInt b.toInt) := by
  split
  next h => rw [Int.max_eq_right (Int.le_of_lt h), BitVec.ofInt_toInt]
  next h => rw [Int.max_eq_left (Int.not_lt.1 h), BitVec.ofInt_toInt]

theorem ite_toNat_lt_eq_min (a b : Word) :
    (if a.toNat < b.toNat then a else b) = BitVec.ofNat 64 (min a.toNat b.toNat) := by
  split
  next h => rw [Nat.min_eq_left (Nat.le_of_lt h), BitVec.ofNat_toNat, BitVec.setWidth_eq]
  next h => rw [Nat.min_eq_right (Nat.not_lt.1 h), BitVec.ofNat_toNat, BitVec.setWidth_eq]

theorem ite_toNat_lt_eq_max (a b : Word) :
    (if a.toNat < b.toNat then b else a) = BitVec.ofNat 64 (max a.toNat b.toNat) := by
  split
  next h => rw [Nat.max_eq_right (Nat.le_of_lt h), BitVec.ofNat_toNat, BitVec.setWidth_eq]
  next h => rw [Nat.max_eq_left (Nat.not_lt.1 h), BitVec.ofNat_toNat, BitVec.setWidth_eq]

theorem mul_eq_ofInt (a b : Word) : a * b = BitVec.ofInt 64 (a.toInt * b.toInt) := by
  rw [BitVec.ofInt_mul, BitVec.ofInt_toInt, BitVec.ofInt_toInt]

/-- Settles O1, operation by operation: `givesX_sop` gives the form's value, and the laws above write it as R54 does. -/
theorem integerResults : Obligations.IntegerResults :=
  ⟨fun _ _ _ =>
    ⟨givesX_sop (op := .add) fun _ => rfl,
     givesX_sop (op := .sub) fun _ => rfl,
     givesX_sop (op := .and) fun _ => rfl,
     givesX_sop (op := .or) fun _ => rfl,
     givesX_sop (op := .xor) fun _ => rfl,
     givesX_sop (op := .andn) fun _ => rfl,
     (givesX_sop (op := .sll) fun _ => rfl).congr fun _ => shiftLeft_eq_ofNat ..,
     (givesX_sop (op := .srl) fun _ => rfl).congr fun _ => ushiftRight_eq_ofNat ..,
     (givesX_sop (op := .sra) fun _ => rfl).congr fun _ => sshiftRight_eq_ofInt ..,
     (givesX_sop (op := .rol) fun _ => rfl).congr fun _ => rotateLeft_shiftOf ..,
     givesX_sop (op := .slt) fun _ => rfl,
     givesX_sop (op := .sltn) fun _ => rfl,
     (givesX_sop (op := .min) fun _ => rfl).congr fun _ => ite_toInt_lt_eq_min ..,
     (givesX_sop (op := .max) fun _ => rfl).congr fun _ => ite_toInt_lt_eq_max ..,
     (givesX_sop (op := .minn) fun _ => rfl).congr fun _ => ite_toNat_lt_eq_min ..,
     (givesX_sop (op := .maxn) fun _ => rfl).congr fun _ => ite_toNat_lt_eq_max ..⟩,
   fun _ _ _ _ =>
    ⟨(givesX_sop (op := .mul) fun _ => rfl).congr fun _ => mul_eq_ofInt ..,
     givesX_sop (op := .mulh) fun _ => rfl,
     givesX_sop (op := .mulhn) fun _ => rfl⟩⟩

/-! ### Division (R55) -/

/-- The only quotient that leaves 64 bits is that of the most negative number by −1, and it wraps to the dividend. -/
theorem divS_eq_ite (a b : Word) :
    divS a b = if b = 0 then BitVec.allOnes 64 else BitVec.ofInt 64 (a.toInt.tdiv b.toInt) := by
  unfold divS
  split
  · rfl
  · split
    next h =>
      obtain ⟨rfl, rfl⟩ : a = 0x8000000000000000 ∧ b = BitVec.allOnes 64 := by simpa using h
      decide
    next => rfl

/-- The remainder is that of the library, whose zero divisor also leaves the dividend. -/
theorem remS_eq_srem (a b : Word) : remS a b = a.srem b := by
  unfold remS
  split
  next h => rw [h]; exact BitVec.srem_zero.symm
  next =>
    split
    next h =>
      obtain ⟨rfl, rfl⟩ : a = 0x8000000000000000 ∧ b = BitVec.allOnes 64 := by simpa using h
      decide
    next =>
      rw [← BitVec.ofInt_toInt (x := a.srem b), BitVec.toInt_srem, Int.tmod_def, Int.mul_comm]

theorem remS_eq_ite (a b : Word) :
    remS a b = if b = 0 then a else BitVec.ofInt 64 (a.toInt.tmod b.toInt) := by
  rw [remS_eq_srem]
  split
  next h => rw [h]; exact BitVec.srem_zero
  next => rw [← BitVec.toInt_srem, BitVec.ofInt_toInt]

/-- A remainder is zero or has the sign of the dividend. -/
theorem remS_zero_or_msb (a b : Word) : remS a b = 0 ∨ (remS a b).msb = a.msb := by
  rw [remS_eq_srem, BitVec.msb_srem]
  by_cases h : a.srem b = 0
  · exact .inl h
  · exact .inr (by rw [decide_eq_true h, Bool.and_true])

/-- Settles O2: the model's corners are those of the exact quotient and remainder, by `divS_eq_ite` and `remS_eq_ite`. -/
theorem divisionResults : Obligations.DivisionResults :=
  ⟨fun _ _ _ _ =>
    ⟨(givesX_sop (op := .div) fun _ => rfl).congr fun _ => divS_eq_ite ..,
     givesX_sop (op := .divn) fun _ => rfl,
     (givesX_sop (op := .rem) fun _ => rfl).congr fun _ => remS_eq_ite ..,
     givesX_sop (op := .remn) fun _ => rfl⟩,
   remS, fun _ _ _ _ => givesX_sop (op := .rem) fun _ => rfl, remS_zero_or_msb⟩

/-! ### Bit counts (R56) -/

theorem leading0_le (v : Word) (n : Nat) : leading0 v n ≤ n := by
  induction n with
  | zero => exact Nat.le_refl 0
  | succ n ih => rw [leading0]; split <;> omega

/-- The bits that `clz` counts are zero. -/
theorem getLsbD_of_leading0 (v : Word) (n : Nat) {k : Nat} (hk : n - leading0 v n ≤ k) (hn : k < n) :
    v.getLsbD k = false := by
  induction n with
  | zero => omega
  | succ n ih =>
    rw [leading0] at hk
    split at hk
    next => omega
    next h =>
      rcases Nat.lt_succ_iff_lt_or_eq.1 hn with hlt | rfl
      · exact ih (by omega) hlt
      · exact Bool.eq_false_iff.2 h

/-- The bit below those that `clz` counts is one. -/
theorem getLsbD_below_leading0 (v : Word) (n : Nat) (hn : leading0 v n < n) :
    v.getLsbD (n - 1 - leading0 v n) = true := by
  induction n with
  | zero => omega
  | succ n ih =>
    rw [leading0] at hn ⊢
    split at hn
    next h => simp [h]
    next h =>
      rw [if_neg h, show n + 1 - 1 - (1 + leading0 v n) = n - 1 - leading0 v n by omega]
      exact ih (by omega)

theorem trailing0_le (v : Word) (n i : Nat) : trailing0 v n i ≤ n := by
  induction n generalizing i with
  | zero => exact Nat.le_refl 0
  | succ n ih => rw [trailing0]; have := ih (i + 1); split <;> omega

/-- The bits that `ctz` counts are zero. -/
theorem getLsbD_of_trailing0 (v : Word) (n i : Nat) {k : Nat} (hi : i ≤ k) (hk : k < i + trailing0 v n i) :
    v.getLsbD k = false := by
  induction n generalizing i with
  | zero => rw [trailing0] at hk; omega
  | succ n ih =>
    rw [trailing0] at hk
    split at hk
    next => omega
    next h =>
      rcases Nat.eq_or_lt_of_le hi with rfl | hlt
      · exact Bool.eq_false_iff.2 h
      · exact ih (i + 1) hlt (by omega)

/-- The bit above those that `ctz` counts is one. -/
theorem getLsbD_above_trailing0 (v : Word) (n i : Nat) (hn : trailing0 v n i < n) :
    v.getLsbD (i + trailing0 v n i) = true := by
  induction n generalizing i with
  | zero => omega
  | succ n ih =>
    rw [trailing0] at hn ⊢
    split at hn
    next h => simp [h]
    next h =>
      rw [if_neg h, ← Nat.add_assoc]
      exact ih (i + 1) (by omega)

theorem ones_eq_countP (v : Word) (n : Nat) : ones v n = (List.range n).countP v.getLsbD := by
  induction n with
  | zero => rfl
  | succ n ih =>
    rw [ones, ih, List.range_succ, List.countP_append, Nat.add_comm, List.countP_singleton]

/-- A count of at most 64 is its own word. -/
theorem toNat_ofNat_count {n : Nat} (h : n ≤ 64) : (BitVec.ofNat 64 n).toNat = n := by
  rw [BitVec.toNat_ofNat, Nat.mod_eq_of_lt (by omega)]

theorem clz_counts (v : Word) :
    let n := (BitVec.ofNat 64 (leading0 v 64)).toNat
    n ≤ 64 ∧ (∀ k, 64 - n ≤ k → v.getLsbD k = false) ∧ (n < 64 → v.getLsbD (63 - n) = true) := by
  rw [toNat_ofNat_count (leading0_le v 64)]
  refine ⟨leading0_le v 64, fun k hk => ?_, getLsbD_below_leading0 v 64⟩
  by_cases h : k < 64
  · exact getLsbD_of_leading0 v 64 hk h
  · exact BitVec.getLsbD_of_ge v k (Nat.not_lt.1 h)

theorem ctz_counts (v : Word) :
    let n := (BitVec.ofNat 64 (trailing0 v 64 0)).toNat
    n ≤ 64 ∧ (∀ k, k < n → v.getLsbD k = false) ∧ (n < 64 → v.getLsbD n = true) := by
  have above := getLsbD_above_trailing0 v 64 0
  rw [Nat.zero_add] at above
  rw [toNat_ofNat_count (trailing0_le v 64 0)]
  exact ⟨trailing0_le v 64 0, fun k hk => getLsbD_of_trailing0 v 64 0 k.zero_le (by omega), above⟩

theorem popc_counts (v : Word) : (BitVec.ofNat 64 (ones v 64)).toNat = (List.range 64).countP v.getLsbD := by
  have bound := List.countP_le_length (p := v.getLsbD) (l := List.range 64)
  rw [List.length_range] at bound
  rw [ones_eq_countP, toNat_ofNat_count bound]

/-- Zero extension from n bits is the mask of the low n bits. -/
theorem setWidth_setWidth_eq_and (a : Word) {n : Nat} (h : n ≤ 64) :
    (a.setWidth n).setWidth 64 = a &&& BitVec.ofNat 64 (2 ^ n - 1) := by
  apply BitVec.eq_of_toNat_eq
  have two : 2 ^ n ≤ 2 ^ 64 := Nat.pow_le_pow_right (by omega) h
  have pos := Nat.two_pow_pos n
  rw [BitVec.toNat_and, BitVec.toNat_ofNat, Nat.mod_eq_of_lt (a := 2 ^ n - 1) (by omega), Nat.and_two_pow_sub_one_eq_mod,
    BitVec.toNat_setWidth, BitVec.toNat_setWidth,
    Nat.mod_eq_of_lt (Nat.lt_of_lt_of_le (Nat.mod_lt _ pos) two)]

/-! ### Bit fields (R57) -/

theorem getLsbD_fieldMask (w : Word) {j : Nat} (h : j < 64) :
    (fieldMask w).getLsbD j = (decide (j < w.toNat / 64 % 128) && decide (w.toNat % 64 + j < 64)) := by
  rw [fieldMask, BitVec.getLsbD_ofNat, Nat.testBit_two_pow_sub_one, fld, fld, Bool.eq_iff_iff]
  simp only [Bool.and_eq_true, decide_eq_true_eq]
  omega

theorem fld_zero_six (w : Word) : fld w 0 6 = w.toNat % 64 := by
  simp [fld]

theorem getLsbD_bextOf (v w : Word) {j : Nat} (h : j < 64) :
    (bextOf v w).getLsbD j = (decide (j < w.toNat / 64 % 128) && v.getLsbD (w.toNat % 64 + j)) := by
  rw [bextOf, BitVec.getLsbD_and, BitVec.getLsbD_ushiftRight, getLsbD_fieldMask w h, fld_zero_six]
  by_cases hin : w.toNat % 64 + j < 64
  · simp [hin, Bool.and_comm]
  · rw [BitVec.getLsbD_of_ge v _ (Nat.not_lt.1 hin), Bool.false_and, Bool.and_false]

theorem getLsbD_binsOf (x v w : Word) {j : Nat} (h : j < 64) :
    (binsOf x v w).getLsbD j = if w.toNat % 64 ≤ j ∧ j < w.toNat % 64 + w.toNat / 64 % 128
      then v.getLsbD (j - w.toNat % 64) else x.getLsbD j := by
  rw [binsOf, fld_zero_six, BitVec.getLsbD_or, BitVec.getLsbD_and, BitVec.getLsbD_not, BitVec.getLsbD_shiftLeft,
    BitVec.getLsbD_shiftLeft, BitVec.getLsbD_and, getLsbD_fieldMask w (j := j - w.toNat % 64) (by omega)]
  by_cases below : j < w.toNat % 64
  · simp [h, below, Nat.not_le.2 below]
  · have width : j - w.toNat % 64 < w.toNat / 64 % 128 ↔ j < w.toNat % 64 + w.toNat / 64 % 128 := by omega
    by_cases field : j < w.toNat % 64 + w.toNat / 64 % 128
    · simp [h, Nat.not_lt.1 below, below, width, field]
    · simp [h, below, width, field]

/-! ### Selection and clamping (R58) -/

theorem sel_bne_eq_ite (x a b : Word) : (if x != 0 then a else b) = if x ≠ 0 then a else b := by
  by_cases h : x = 0
  · rw [if_neg (by rw [h]; decide), if_neg (not_not_intro h)]
  · rw [if_pos (bne_iff_ne.2 h), if_pos h]

/-! ### Address forms (R59) -/

theorem givesX_lea (d a : Reg) (b : SrcB) (k : Fin 4) :
    GivesX (.lea d a b k) d 0 (fun c => c.x a.val + (b.val c <<< k.val)) := givesX_of fun _ => rfl

/-- Settles O3: the counts by `clz_counts`, `ctz_counts` and `popc_counts`, the fields bit by bit by `getLsbD_bextOf` and
`getLsbD_binsOf`. -/
theorem bitFieldResults : Obligations.BitFieldResults := by
  refine ⟨⟨fun v => BitVec.ofNat 64 (leading0 v 64), fun v => BitVec.ofNat 64 (trailing0 v 64 0),
      fun v => BitVec.ofNat 64 (ones v 64), fun d a => ?_, clz_counts, ctz_counts, popc_counts, fun d a => ?_⟩,
    ⟨fun _ v w => bextOf v w, binsOf, fun d a b => ?_, fun x v w j h => ⟨getLsbD_bextOf v w h, getLsbD_binsOf x v w h⟩⟩,
    fun d a b => ?_⟩
  · exact ⟨givesX_unary (op := .clz) fun _ => rfl, givesX_unary (op := .ctz) fun _ => rfl,
      givesX_unary (op := .popc) fun _ => rfl⟩
  · exact ⟨givesX_unary (op := .sext .b8) fun _ => rfl, givesX_unary (op := .sext .b16) fun _ => rfl,
      givesX_unary (op := .sext .b32) fun _ => rfl,
      (givesX_unary (op := .zext .b8) fun _ => rfl).congr fun c =>
        setWidth_setWidth_eq_and (c.x a.val) (n := 8) (by decide),
      (givesX_unary (op := .zext .b16) fun _ => rfl).congr fun c =>
        setWidth_setWidth_eq_and (c.x a.val) (n := 16) (by decide),
      (givesX_unary (op := .zext .b32) fun _ => rfl).congr fun c =>
        setWidth_setWidth_eq_and (c.x a.val) (n := 32) (by decide)⟩
  · exact ⟨givesX_sop (op := .bext) fun _ => rfl, givesX_sop (op := .bins) fun _ => rfl⟩
  · exact ⟨(givesX_sop (op := .sel) fun _ => rfl).congr fun _ => sel_bne_eq_ite ..,
      givesX_sop (op := .lim true) fun _ => rfl, givesX_sop (op := .lim false) fun _ => rfl,
      givesX_of fun _ => rfl,
      fun k => (givesX_lea d a b k).congr fun c => congrArg (c.x a.val + ·) (shiftLeft_eq_ofNat (b.val c) k.val)⟩

end Sys2Proof.Machine
end

section
/-! # Scalar float results

The model widens an fp32 result with zeros, which is the statement's `0#32 ++ v` (R60 to R63). -/

namespace Sys2Proof.Machine

open Sys2Proof

theorem setWidth_eq_zero_append (v : W32) : v.setWidth 64 = (0#32 ++ v : Word) := by
  apply BitVec.eq_of_toNat_eq
  have wide : (0#32 ++ v : Word).toNat = (0#32).toNat <<< 32 ||| v.toNat := BitVec.toNat_append ..
  have fits : v.toNat < 2 ^ 64 := Nat.lt_trans v.isLt (by decide)
  rw [wide, BitVec.toNat_setWidth, Nat.mod_eq_of_lt fits]
  simp

/-- A float form writes the zero-extended result of its fp32 operation. -/
theorem givesX_float {i : Instr} {d a : Reg} {b : FSrc} {la : La} {f : W32 → W32 → W32 → W32}
    (h : ∀ s, exec i s = issueF i d a b la s f) :
    GivesX i d la.val fun c => (0#32 ++ f ((c.x a.val).setWidth 32) (b.val c) ((c.x d.val).setWidth 32) : Word) :=
  (givesX_of h).congr fun _ => setWidth_eq_zero_append _

theorem zero_append_ite (p : Bool) : (0#32 ++ (if p then 1 else 0 : W32) : Word) = if p then 1 else 0 := by
  cases p <;> rfl

theorem classOf_le (a : W32) : classOf a ≤ 9 := by
  unfold classOf
  dsimp only
  repeat' split
  all_goals decide

/-- The class mask of a number keeps within its 32 bits. -/
theorem fClass_setWidth (a : W32) : (fClass a).setWidth 64 = BitVec.ofNat 64 (2 ^ classOf a) := by
  have bound : 2 ^ classOf a ≤ 2 ^ 9 := Nat.pow_le_pow_right (by decide) (classOf_le a)
  apply BitVec.eq_of_toNat_eq
  rw [fClass, BitVec.toNat_setWidth, BitVec.toNat_ofNat, BitVec.toNat_ofNat, Nat.mod_eq_of_lt (a := 2 ^ classOf a) (by omega)]

/-- Settles O4: the operations are those of the statement by definition, and the widths by `setWidth_eq_zero_append`. -/
theorem floatResults : Obligations.FloatResults := fun _ _ b _ r =>
  ⟨givesX_float (f := fun x y _ => fAdd r x y) fun _ => rfl,
   givesX_float (f := fun x y _ => fSub r x y) fun _ => rfl,
   givesX_float (f := fun x y _ => fMul r x y) fun _ => rfl,
   givesX_float (f := fun x y z => fMa r x y z) fun _ => rfl,
   givesX_float (f := fun x y _ => fPick false x y) fun _ => rfl,
   givesX_float (f := fun x y _ => fPick true x y) fun _ => rfl,
   fun k => (givesX_float (f := fun x y _ => if fcmpHolds k x y then 1 else 0) fun _ => rfl).congr fun _ =>
     zero_append_ite _,
   fun o => givesX_float (f := fun x y _ => fSgn o x y) fun _ => rfl,
   (givesX_of (v := fun c => (fClass (b.val c)).setWidth 64) fun _ => rfl).congr fun c => fClass_setWidth (b.val c),
   fun _ _ => givesX_of fun _ => rfl⟩

end Sys2Proof.Machine
end

section
/-! # Control transfers

Offsets are signed counts of words (R40), so every target is `offsetFrom_ofInt` of its offset. A form's outcome is
`issue_performs` of its operation (R64 to R71). -/

namespace Sys2Proof.Machine

open Sys2Proof

/-! ### Targets (R40) -/

theorem shiftLeft_two_eq (v : Word) : v <<< 2 = BitVec.ofInt 64 (4 * v.toInt) := by
  rw [BitVec.ofInt_mul, BitVec.ofInt_toInt, BitVec.mul_comm]
  exact BitVec.shiftLeft_eq_mul_twoPow ..

theorem offsetFrom_signExtend (pc : Word) {n : Nat} (o : BitVec n) (h : n ≤ 64) :
    offsetFrom pc (o.signExtend 64) = pc + BitVec.ofInt 64 (4 * o.toInt) := by
  rw [offsetFrom, shiftLeft_two_eq, BitVec.toInt_signExtend_of_le h]

theorem offsetFrom_brWords (pc : Word) (o : BrOff) :
    offsetFrom pc (brWords o) = pc + BitVec.ofInt 64 (4 * brOffset o) := by
  cases o with
  | near o => exact offsetFrom_signExtend pc o (by decide)
  | far w => exact offsetFrom_signExtend pc w (by decide)

theorem offsetFrom_jWords (pc : Word) (o : JOff) :
    offsetFrom pc (jWords o) = pc + BitVec.ofInt 64 (4 * jumpOffset o) := by
  cases o with
  | near o => exact offsetFrom_signExtend pc o (by decide)
  | far w => exact offsetFrom_signExtend pc w (by decide)

/-! ### Branches (R64) -/

/-- A branch form goes where its condition sends it. -/
theorem branches_of {i : Instr} {k : BrCond} {a : Reg} {b : RegImm} {o : BrOff} {cond : Ctx → Prop}
    (h : ∀ s, exec i s = issueBranch i k a b o s) (hc : ∀ c : Ctx, BrCond.holds k (c.x a.val) (b.val c) = true ↔ cond c) :
    Branches i o cond := by
  intro s hs
  have run := exec_performs (body := fun c t => if BrCond.holds k (c.x a.val) (b.val c)
    then .jump t (offsetFrom c.arch.pc (brWords o)) [] else .done t []) h hs
  rw [run]
  refine ⟨fun taken => ?_, fun untaken => ?_⟩
  · rw [if_pos ((hc (s.ctxAt i)).2 taken), offsetFrom_brWords]
    rfl
  · rw [if_neg fun taken => untaken ((hc (s.ctxAt i)).1 taken)]
    rfl

/-! ### The jump table (R67) -/

/-- A read that passes its checks gives its bytes' value and records itself. -/
theorem State.readScalar_readable {s : State} {win : Nat} {e : Word} {size loc : Nat}
    (h : s.readable win e size loc = true) (f : Nat → State → Res) :
    s.readScalar s.cur win e size f = f (s.valueRead size loc) (s.afterRead e size loc) := by
  simp only [State.readable, Bool.and_eq_true, Bool.not_eq_true', Bool.or_eq_true] at h
  obtain ⟨⟨located, closable⟩, ⟨⟨noError, noUpdate⟩, noWait⟩, notShut⟩ := h
  have found : s.locate s.cur .read win e size = .ok loc := by
    split at located
    next l hl => rw [hl, beq_iff_eq.1 located]
    next => cases located
  rw [State.readScalar, found, State.valueRead, State.afterRead]
  by_cases far : beyond loc = true
  · have closes : s.canClose s.cur = true := closable.resolve_left (by simp [far])
    simp only [far, if_true, State.close_cur] at noError noUpdate noWait notShut ⊢
    simp [Or.then, far, State.apart, closes, State.readAt, noError, noUpdate, noWait, notShut]
  · simp only [far, if_false, Bool.false_eq_true] at noError noUpdate noWait notShut ⊢
    simp [Or.then, far, State.readAt, noError, noUpdate, noWait, notShut]

/-- The alignment of a program's read is checked first. -/
theorem State.readScalar_misaligned {s : State} {a : Agent} (ha : a.program = true) {e : Word} {size : Nat}
    (he : e.toNat % size ≠ 0) (win : Nat) (f : Nat → State → Res) :
    s.readScalar a win e size f = .trap (.at 0x01 0 e) := by
  have noRegs : regsAddr a e = false := by
    cases a with
    | ctx => rfl
    | quoin => rfl
    | plinth => cases ha
  simp [State.readScalar, State.locate, noRegs, he, Or.then]

/-- A jump table's outcome: past the bound it falls through, within it it jumps by the entry that it reads. -/
theorem exec_jtab {a b : Reg} {n : W32} {s : State} (hs : s.performs (.jtab a b n) = true) :
    let i := Instr.jtab a b n
    let c := s.ctxAt i
    exec i s = .next (s.conclude i
      (if n.toNat ≤ (c.x a.val).toNat then .done (s.before i) []
        else (s.before i).readScalar (s.before i).cur 0 (c.x b.val + BitVec.ofNat 64 (4 * (c.x a.val).toNat)) 4
          fun w t => .jump t (c.arch.pc + BitVec.ofInt 64 (4 * (BitVec.ofNat 32 w).toInt)) [])) := by
  have entry (v : Word) : v <<< 2 = BitVec.ofNat 64 (4 * v.toNat) :=
    (shiftLeft_eq_ofNat v 2).trans (congrArg (BitVec.ofNat 64) (Nat.mul_comm v.toNat 4))
  have offset (pc : Word) (w : Nat) := offsetFrom_signExtend pc (BitVec.ofNat 32 w) (by decide)
  have run := exec_performs (i := .jtab a b n) (body := fun c t => if n.toNat ≤ (c.x a.val).toNat then .done t []
    else t.readScalar t.cur 0 (c.x b.val + (c.x a.val <<< 2)) 4 fun w u =>
      .jump u (offsetFrom c.arch.pc ((BitVec.ofNat 32 w).signExtend 64)) []) (fun _ => rfl) hs
  simpa only [entry, offset] using run

/-- Where the operation of a jump table is performed: beyond its bound, at a misaligned entry, at an entry that it reads. -/
theorem exec_jtab_cases (a b : Reg) (n : W32) (s : State) (hs : s.performs (.jtab a b n) = true) :
    let i := Instr.jtab a b n
    let c := s.ctxAt i
    let e := c.x b.val + BitVec.ofNat 64 (4 * (c.x a.val).toNat)
    (n.toNat ≤ (c.x a.val).toNat → exec i s = .next (s.completed i [])) ∧
    ((c.x a.val).toNat < n.toNat → e.toNat % 4 ≠ 0 → s.cur.program = true →
      exec i s = .next (s.raise s.cur ⟨0x01, 0, e, false⟩ i.bytes)) ∧
    ∀ loc, (c.x a.val).toNat < n.toNat → (s.before i).readable 0 e 4 loc = true →
      exec i s = .next (((s.before i).afterRead e 4 loc).leave s.cur i
        (c.arch.pc + BitVec.ofInt 64 (4 * (BitVec.ofNat 32 ((s.before i).valueRead 4 loc)).toInt)) []) := by
  dsimp only
  rw [exec_jtab hs]
  refine ⟨fun out => ?_, fun within odd program => ?_, fun loc within reads => ?_⟩
  · rw [if_pos out]
    rfl
  · have acts : (s.before (.jtab a b n)).cur.program = true := by rw [State.before_cur, program]
    rw [if_neg (Nat.not_le.2 within), State.readScalar_misaligned acts odd]
    rfl
  · rw [if_neg (Nat.not_le.2 within), State.readScalar_readable reads]
    rfl

/-! ### Repetitions (R70, R71) -/

/-- A repetition with a count begins its body with the passes after the first. -/
theorem exec_rep_counted {n : Reg} {b : SrcB} {s : State} (hs : s.performs (.rep n b) = true)
    (h : (b.val (s.ctxAt (.rep n b))).setWidth 32 ≠ (0 : W32)) :
    exec (.rep n b) s = .next ((s.before (.rep n b)).begin s.cur (.rep n b) (BitVec.ofNat 5 n.val)
      ((b.val (s.ctxAt (.rep n b))).setWidth 32 - 1)) := by
  change execRep n b s = _
  rw [execRep, issue_performs hs, State.before_cur]
  exact congrArg (fun r => Host.Outcome.next (s.conclude (.rep n b) r)) (if_neg h)

/-- A repetition whose count is 0 skips its body. -/
theorem exec_rep_skipped {n : Reg} {b : SrcB} {s : State} (hs : s.performs (.rep n b) = true)
    (h : (b.val (s.ctxAt (.rep n b))).setWidth 32 = (0 : W32)) {pc : Word}
    (hpc : (s.before (.rep n b)).addressAfter s.cur (n.val + 1)
      ((s.ctxAt (.rep n b)).arch.pc + BitVec.ofNat 64 (Instr.rep n b).bytes) = .ok pc) :
    exec (.rep n b) s = .next (s.jumped (.rep n b) pc []) := by
  change execRep n b s = _
  rw [execRep, issue_performs hs, State.before_cur]
  dsimp only
  rw [State.ctxAt] at h hpc
  rw [if_pos h, hpc]
  rfl

/-- Settles O5: the branches by `branches_of`, the jump table by `exec_jtab_cases`, the repetition by its count. -/
theorem controlTransfers : Obligations.ControlTransfers := by
  refine ⟨fun a b o h => ?_, exec_jtab_cases, fun n b s hs => ⟨exec_rep_counted hs, fun _ h => exec_rep_skipped hs h⟩,
    fun l s hs => ?_⟩
  · exact ⟨branches_of (k := .eq) (fun _ => rfl) fun _ => beq_iff_eq,
      branches_of (k := .ne) (fun _ => rfl) fun _ => bne_iff_ne,
      branches_of (k := .lt) (fun _ => rfl) fun _ => decide_eq_true_iff,
      branches_of (k := .ge) (fun _ => rfl) fun _ => decide_eq_true_iff,
      branches_of (k := .ltn) (fun _ => rfl) fun _ => decide_eq_true_iff,
      branches_of (k := .gen) (fun _ => rfl) fun _ => decide_eq_true_iff⟩
  · exact issue_performs hs _

/-! ### Jumps with a link (R66) -/

theorem jal_near_bytes (d : Reg) (o : BitVec 17) : (Instr.jal d (.near o)).bytes = 4 := rfl

theorem jal_far_bytes (d : Reg) (w : W32) : (Instr.jal d (.far w)).bytes = 8 := rfl

theorem exec_jal {d : Reg} {o : JOff} {s : State} (hs : s.performs (.jal d o) = true) :
    exec (.jal d o) s = .next (s.jumped (.jal d o)
      (offsetFrom (s.ctxAt (.jal d o)).arch.pc (jWords o))
      [.toX d.val ((s.ctxAt (.jal d o)).arch.pc + BitVec.ofNat 64 (Instr.jal d o).bytes)]) := by
  exact exec_performs (i := .jal d o) (body := fun c t => .jump t (offsetFrom c.arch.pc (jWords o))
    [.toX d.val (c.arch.pc + BitVec.ofNat 64 (Instr.jal d o).bytes)]) (fun _ => rfl) hs

theorem exec_jalr {d a : Reg} {b : SrcB} {s : State} (hs : s.performs (.jalr d a b) = true) :
    let c := s.ctxAt (.jalr d a b)
    let t := c.x a.val + b.val c
    exec (.jalr d a b) s = .next (if t.toNat % 4 = 0
      then s.jumped (.jalr d a b) t [.toX d.val (c.arch.pc + BitVec.ofNat 64 (Instr.jalr d a b).bytes)]
      else s.raise s.cur (.at 0x01 0 t) (Instr.jalr d a b).bytes) := by
  dsimp only
  rw [exec_performs (i := .jalr d a b) (body := fun c t => if (c.x a.val + b.val c).toNat % 4 ≠ 0
    then .trap (.at 0x01 0 (c.x a.val + b.val c))
    else .jump t (c.x a.val + b.val c) [.toX d.val (c.arch.pc + BitVec.ofNat 64 (Instr.jalr d a b).bytes)])
    (fun _ => rfl) hs, ite_not, apply_ite (s.conclude (.jalr d a b))]
  rfl

/-- Settles O6, by `exec_jal` with the offset and the length of `jal`, and `exec_jalr`. -/
theorem jumpLinks : Obligations.JumpLinks := by
  refine ⟨fun d o s hs => ?_, fun d a b s hs => exec_jalr hs⟩
  dsimp only
  rw [exec_jal hs, offsetFrom_jWords]
  cases o with
  | near o => rw [jal_near_bytes]; rfl
  | far w => rw [jal_far_bytes]; rfl

/-! ### The passes of a repetition (R70, R71) -/

section
variable {r : Arch} {len : Nat}

/-- Outside a repetition, and in the program handler, an instruction is followed by the one behind it. -/
theorem Arch.next_of_not_counted {intrap : Bool} (h : (r.loopActive && !intrap) = false) :
    r.next intrap len = { r with pc := r.pc + BitVec.ofNat 64 len } := by
  rw [Arch.next, h]
  rfl

theorem Arch.next_within_body (ha : r.loopActive = true) (hi : r.loopIndex.toNat < r.loopLen.toNat) :
    r.next false len = { r with pc := r.pc + BitVec.ofNat 64 len, loopIndex := r.loopIndex + 1 } := by
  simp [Arch.next, ha, Nat.not_lt.2 (Nat.succ_le_of_lt hi)]

theorem Arch.next_pass (ha : r.loopActive = true) (hi : r.loopIndex = r.loopLen) (hl : r.loopLeft ≠ 0) :
    r.next false len = { r with pc := r.loopa, loopIndex := 0, loopLeft := r.loopLeft - 1 } := by
  simp [Arch.next, ha, hi, show ¬r.loopLeft = 0#32 from hl]

theorem Arch.next_end (ha : r.loopActive = true) (hi : r.loopIndex = r.loopLen) (hl : r.loopLeft = 0) :
    r.next false len = { r with pc := r.pc + BitVec.ofNat 64 len, loopActive := false, loopIndex := 0, loopLen := 0,
                                loopLeft := 0 } := by
  simp [Arch.next, ha, hi, hl]

end

/-- Settles O7, one law of `Arch.next` for each place in the body. -/
theorem repetitionPasses : Obligations.RepetitionPasses := by
  intro r len
  refine ⟨fun ha => ?_, fun ha hi => ?_, fun ha hi hl => ?_, fun ha hi hl => ?_, fun pc => ?_, ?_⟩
  · rw [Arch.next_of_not_counted (by rw [ha]; rfl)]
    exact ⟨rfl, ha⟩
  · rw [Arch.next_within_body ha hi]
    refine ⟨rfl, ?_, rfl, ha⟩
    bv_omega
  · rw [Arch.next_pass ha hi hl]
    refine ⟨rfl, rfl, ?_, ha⟩
    bv_omega
  · rw [Arch.next_end ha hi hl]
    exact ⟨rfl, rfl⟩
  · exact ⟨rfl, Bool.and_false _⟩
  · rw [Arch.next_of_not_counted (Bool.and_false _)]
    exact ⟨rfl, rfl⟩

end Sys2Proof.Machine
end

section
/-! # Control and status registers

A CSR form that writes has the outcome of `State.csrModify` on the state before it, which is one of three: the new liveness mask,
the written state, the trap of a denied write (R50, R72, R73). -/

namespace Sys2Proof.Machine

open Sys2Proof

/-! ### Reads (R49, R72) -/

theorem exec_csrr {d : Reg} {n : BitVec 12} {s : State} (hs : s.performs (.csrr d n) = true) :
    exec (.csrr d n) s =
      .next (s.completed (.csrr d n) [.toX d.val ((s.before (.csrr d n)).csrRead s.cur n)]) := by
  rw [exec_performs (i := .csrr d n) (body := fun _ t => .done t [.toX d.val (t.csrRead t.cur n)]) (fun _ => rfl) hs,
    State.before_cur]
  rfl

/-- Where an agent's region lives, its own CSRs read that region. -/
theorem State.csrRead_region {s : State} {a : Agent} {r : Region} (h : s.regionOf a = some r) :
    s.csrRead a 0x301 = r.gtime ∧ s.csrRead a 0x302 = r.pausedns ∧ s.csrRead a 0x303 = r.sscount ∧
      s.csrRead a 0x304 = r.dropcnt := by
  simp [State.csrRead, h]

/-! ### Writes (R72, R73) -/

/-- What `csrw`, `csrs` and `csrc` make of the old value, and what they present to W1C fields. -/
def CsrWriter (d a : Reg) (n : BitVec 12) (s : State) (i : Instr) (f : Word → Word) (clr : Word) : Prop :=
  (i = .csrw d a n ∧ (∀ o, f o = (s.ctxAt i).x a.val) ∧ clr = (s.ctxAt i).x a.val) ∨
  (i = .csrs d a n ∧ a ≠ 0 ∧ (∀ o, f o = o ||| (s.ctxAt i).x a.val) ∧ clr = (s.ctxAt i).x a.val) ∨
  (i = .csrc d a n ∧ a ≠ 0 ∧ (∀ o, f o = o &&& ~~~((s.ctxAt i).x a.val)) ∧ clr = 0)

section
variable {d a : Reg} {n : BitVec 12} {s : State}

theorem exec_csrw (hs : s.performs (.csrw d a n) = true) :
    exec (.csrw d a n) s = .next (s.conclude (.csrw d a n) ((s.before (.csrw d a n)).csrModify d n
      (fun _ => (s.ctxAt (.csrw d a n)).x a.val) ((s.ctxAt (.csrw d a n)).x a.val))) :=
  exec_performs (i := .csrw d a n) (body := fun c t => t.csrModify d n (fun _ => c.x a.val) (c.x a.val)) (fun _ => rfl) hs

theorem exec_csrs (hs : s.performs (.csrs d a n) = true) :
    exec (.csrs d a n) s = .next (s.conclude (.csrs d a n)
      (if a.val = 0 then .done (s.before (.csrs d a n)) [.toX d.val ((s.before (.csrs d a n)).csrRead s.cur n)]
        else (s.before (.csrs d a n)).csrModify d n (fun o => o ||| (s.ctxAt (.csrs d a n)).x a.val)
          ((s.ctxAt (.csrs d a n)).x a.val))) := by
  rw [exec_performs (i := .csrs d a n) (body := fun c t => if a.val = 0 then .done t [.toX d.val (t.csrRead t.cur n)]
    else t.csrModify d n (fun o => o ||| c.x a.val) (c.x a.val)) (fun _ => rfl) hs, State.before_cur]

theorem exec_csrc (hs : s.performs (.csrc d a n) = true) :
    exec (.csrc d a n) s = .next (s.conclude (.csrc d a n)
      (if a.val = 0 then .done (s.before (.csrc d a n)) [.toX d.val ((s.before (.csrc d a n)).csrRead s.cur n)]
        else (s.before (.csrc d a n)).csrModify d n (fun o => o &&& ~~~((s.ctxAt (.csrc d a n)).x a.val)) 0)) := by
  rw [exec_performs (i := .csrc d a n) (body := fun c t => if a.val = 0 then .done t [.toX d.val (t.csrRead t.cur n)]
    else t.csrModify d n (fun o => o &&& ~~~(c.x a.val)) 0) (fun _ => rfl) hs, State.before_cur]

theorem exec_of_csrWriter {i : Instr} {f : Word → Word} {clr : Word} (h : CsrWriter d a n s i f clr)
    (hs : s.performs i = true) : exec i s = .next (s.conclude i ((s.before i).csrModify d n f clr)) := by
  have nonzero {a : Reg} (ha : a ≠ 0) : ¬a.val = 0 := Fin.val_ne_zero_iff.2 ha
  rcases h with ⟨rfl, hf, rfl⟩ | ⟨rfl, ha, hf, rfl⟩ | ⟨rfl, ha, hf, rfl⟩ <;> obtain rfl := funext hf
  · exact exec_csrw hs
  · rw [exec_csrs hs, if_neg (nonzero ha)]
  · rw [exec_csrc hs, if_neg (nonzero ha)]

/-- A write of a CSR takes effect as the new liveness mask, as the written state, or as the trap of its denial. -/
theorem exec_csrWriter_cases {i : Instr} {f : Word → Word} {clr : Word} (h : CsrWriter d a n s i f clr)
    (hs : s.performs i = true) :
    let old := (s.before i).csrRead s.cur n
    (n = 7 → exec i s = .next ((s.before i).retireLive s.cur i (f old) [.toX d.val old])) ∧
    (∀ t, n ≠ 7 → (s.before i).csrWrite (levelOf s.cur) s.cur n (f old) clr = .ok t →
      exec i s = .next (t.retire s.cur i [.toX d.val old])) ∧
    (∀ tr, n ≠ 7 → (s.before i).csrWrite (levelOf s.cur) s.cur n (f old) clr = .error tr →
      exec i s = .next (s.raise s.cur tr i.bytes)) := by
  dsimp only
  rw [exec_of_csrWriter h hs, State.csrModify, State.before_cur]
  refine ⟨fun live => ?_, fun t other written => ?_, fun tr other denied => ?_⟩
  · rw [if_pos live]; rfl
  · rw [if_neg other, written]; rfl
  · rw [if_neg other, denied]; rfl

end

/-! ### Denied writes (R50, R161) -/

/-- The CSRs whose write is a program's denial whatever the value. -/
def deniedToProgram : List (BitVec 12) := [0x001, 0x002, 0x003, 0x008, 0x009, 0x201, 0x202]

theorem mem_deniedToProgram {n : BitVec 12} : n ∈ deniedToProgram ↔
    n = 0x001 ∨ n = 0x002 ∨ n = 0x003 ∨ n = 0x008 ∨ n = 0x009 ∨ n = 0x201 ∨ n = 0x202 := by
  simp only [deniedToProgram, List.mem_cons, List.not_mem_nil, or_false]

theorem csrProtected_of_program {a : Agent} (ha : a.program = true) {n : BitVec 12} (hn : n ∈ deniedToProgram) :
    csrProtected a n = true := by
  cases a with
  | ctx c k t => rcases mem_deniedToProgram.1 hn with rfl | rfl | rfl | rfl | rfl | rfl | rfl <;> rfl
  | quoin => cases ha
  | plinth => cases ha

theorem State.csrWrite_denied (s : State) (c k t : Nat) {n : BitVec 12} (hn : n ∈ deniedToProgram) (new clr : Word) :
    s.csrWrite .program (.ctx c k t) n new clr = csrDenied n := by
  rcases mem_deniedToProgram.1 hn with rfl | rfl | rfl | rfl | rfl | rfl | rfl <;> rfl

/-- A form that writes a protected CSR is denied where nothing of its streams is. -/
theorem State.denied_csr {s : State} {a : Agent} {i : Instr} {n : BitVec 12} (dst : (s.ctx a).streamDst i = none)
    (str : i.stream? = none) (sup : i.supervisor = false) (mis : i.misplaced a = false)
    (writes : i.csrWritten? = some n) (prot : csrProtected a n = true) :
    s.denied a i = some ⟨0x06, 1, n.setWidth 64, false⟩ := by
  simp only [State.denied, dst, str, sup, mis, writes, prot, Bool.false_and, Bool.or_false, Bool.false_eq_true, if_false,
    if_true]
  rfl

/-- A program's write of a protected CSR traps with its number. -/
theorem denies_csr {i : Instr} {body : State → Res} (h : ∀ s, exec i s = issue i s body) (sup : i.supervisor = false)
    (mis : ∀ a, i.misplaced a = false) {n : BitVec 12} (writes : i.csrWritten? = some n) (hn : n ∈ deniedToProgram) :
    Denies i (fun t => t.cur.program = true) (fun _ => ⟨0x06, 1, n.setWidth 64, false⟩) :=
  fun _ legal guarded dst str program => exec_denied h legal guarded
    (State.denied_csr dst str sup (mis _) writes (csrProtected_of_program program hn))

/-- Settles O8: reads by evaluation of `State.csrRead`, writes by `exec_csrWriter_cases`, denials by `exec_denied`. -/
theorem csrAccess : Obligations.CsrAccess := by
  refine ⟨fun d a n s => ⟨exec_csrr, fun hs ha => ?_, fun hs ha => ?_, fun i f clr h hs => exec_csrWriter_cases h hs⟩,
    fun s c k t => ⟨rfl, rfl, rfl, rfl, rfl, rfl, rfl, rfl, fun r hr => State.csrRead_region hr⟩,
    fun s c k t n new clr hn => ⟨State.csrWrite_denied s c k t hn new clr, fun d a i hi writes => ?_⟩⟩
  · rw [exec_csrs hs, if_pos (Fin.val_eq_zero_iff.2 ha)]; rfl
  · rw [exec_csrc hs, if_pos (Fin.val_eq_zero_iff.2 ha)]; rfl
  · simp only [List.mem_cons, List.not_mem_nil, or_false] at hi
    rcases hi with rfl | rfl | rfl
    · exact denies_csr (fun _ => rfl) rfl (fun _ => rfl) rfl hn
    · exact denies_csr (fun _ => rfl) rfl (fun _ => rfl) (if_neg (Fin.val_ne_zero_iff.2 (writes.resolve_left nofun))) hn
    · exact denies_csr (fun _ => rfl) rfl (fun _ => rfl) (if_neg (Fin.val_ne_zero_iff.2 (writes.resolve_left nofun))) hn

end Sys2Proof.Machine
end

section
/-! # Writes of plinth and supervisor registers

A write of the plinth's register block is told to its watches (R364), which changes none of the registers: the rules `regWritten_…`
say so once. What a field admits is its write's own rule (R132, R151, R335, R336, R374, R379, R380). -/

namespace Sys2Proof.Machine

open Sys2Proof

/-! ### What telling the watches leaves -/

/-- What of the state each turn of a loop leaves, the loop leaves. -/
theorem foldl_leaves {α β : Type} (g : State → β) {f : State → α → State} (h : ∀ s x, g (f s x) = g s) (l : List α)
    (s : State) : g (l.foldl f s) = g s :=
  List.foldlRecOn (motive := fun t => g t = g s) l f rfl fun t ht x _ => (h t x).trans ht

/-- The device's registers without the watches that the plinth has set. -/
def Device.unwatched (d : Device) : Device := { d with plinthWatches := [] }

theorem State.setWatches_unwatched (s : State) (c : Nat) (ws : List (Nat × Watch)) :
    (s.setWatches c ws).dev.unwatched = s.dev.unwatched := by
  unfold State.setWatches
  split
  · rw [State.modRegion_dev]
  · repeat' split
    all_goals rfl

theorem State.setWatches_siteBlocks (s : State) (c : Nat) (ws : List (Nat × Watch)) :
    (s.setWatches c ws).siteBlocks = s.siteBlocks := by
  unfold State.setWatches
  split
  · rw [State.modRegion_siteBlocks]
  · repeat' split
    all_goals rfl

theorem State.regWritten_unwatched (s : State) (o : Nat) : (s.regWritten o).dev.unwatched = s.dev.unwatched :=
  foldl_leaves (·.dev.unwatched) (fun s _ => State.setWatches_unwatched s _ _) _ _

@[simp] theorem State.regWritten_siteBlocks (s : State) (o : Nat) : (s.regWritten o).siteBlocks = s.siteBlocks :=
  foldl_leaves State.siteBlocks (fun s _ => State.setWatches_siteBlocks s _ _) _ _

@[simp] theorem State.regWritten_block (s : State) (o n : Nat) : (s.regWritten o).block n = s.block n := by
  have fuses : (s.regWritten o).dev.fuses = s.dev.fuses := (congrArg Device.fuses (s.regWritten_unwatched o) :)
  simp only [State.block, State.siteEnabled, State.regWritten_siteBlocks, fuses]

/-! ### Site blocks (R132, R374, R379) -/

/-- A cadence of 1 to 16 is taken, any other value changes nothing. -/
theorem State.writeCadence_block (s : State) (site : Nat) (v : Word) : (s.writeCadence site v).block site =
    if 1 ≤ fld v 0 5 ∧ fld v 0 5 ≤ 16 then { s.block site with cadence := BitVec.ofNat 5 (fld v 0 5) } else s.block site := by
  unfold State.writeCadence
  simp only [Bool.and_eq_true, decide_eq_true_eq]
  split
  · rw [State.block_modBlock_self]
  · rfl

theorem State.endSprint_block (s : State) (site n : Nat) : (s.endSprint site).block n = s.block n := by
  unfold State.endSprint
  repeat' split
  · rfl
  · rw [State.block_modCourse]
  · rfl

theorem State.writeGap_block (s : State) (site : Nat) (v : Word) :
    (s.writeGap site v).block site = { s.block site with gap := BitVec.ofNat 3 (fld v 0 3) } := by
  unfold State.writeGap
  dsimp only
  split
  · rw [State.endSprint_block, State.block_modBlock_self]
  · rw [State.block_modBlock_self]

/-! ### `rstat` (R151) -/

/-- The fields that a write of `rstat` clears with the lane, chan and loc flags lie apart from the flags and the trap fields. -/
theorem Course.writeRstat_getLsbD (k : Course) (new clr : Word) {b : Nat} (h : (0xFF000F00#64).getLsbD b = false) (hb : b < 64) :
    (k.writeRstat new clr).rstat.getLsbD b =
      ((k.rstat.getLsbD b && !(0x30000#64).getLsbD b && !(clr.getLsbD b && (0x1F#64).getLsbD b)) ||
        (new.getLsbD b && (0x30000#64).getLsbD b)) := by
  rw [Course.writeRstat]
  dsimp only
  split <;> simp only [BitVec.getLsbD_or, BitVec.getLsbD_and, BitVec.getLsbD_not, h, hb, decide_true, Bool.true_and,
    Bool.not_false, Bool.and_true]

/-- `trapo` and `trapm` take their new values. -/
theorem Course.writeRstat_traps (k : Course) (new clr : Word) {b : Nat} (lo : 16 ≤ b) (hi : b < 18) :
    (k.writeRstat new clr).rstat.getLsbD b = new.getLsbD b := by
  have masks : ∀ b < 18, 16 ≤ b → (0xFF000F00#64).getLsbD b = false ∧ (0x30000#64).getLsbD b = true := by decide
  obtain ⟨apart, trap⟩ := masks b hi lo
  rw [Course.writeRstat_getLsbD _ _ _ apart (by omega), trap, Bool.not_true, Bool.and_false, Bool.false_and,
    Bool.false_or, Bool.and_true]

/-- Bits 4:0 are W1C. -/
theorem Course.writeRstat_flags (k : Course) (new clr : Word) {b : Nat} (hi : b < 5) :
    (k.writeRstat new clr).rstat.getLsbD b = (k.rstat.getLsbD b && !clr.getLsbD b) := by
  have masks : ∀ b < 5, (0xFF000F00#64).getLsbD b = false ∧ (0x30000#64).getLsbD b = false ∧
      (0x1F#64).getLsbD b = true := by decide
  obtain ⟨apart, trap, flag⟩ := masks b hi
  rw [Course.writeRstat_getLsbD _ _ _ apart (by omega), trap, flag, Bool.not_false, Bool.and_true, Bool.and_true,
    Bool.and_false, Bool.or_false]

/-! ### The rotation control word (R335, R336) -/

/-- Whether a layout code names a layout of the device (R335). -/
def Device.admitsLayout (d : Device) (code : BitVec 3) : Bool :=
  code == 0 || code == 7 || ((code == 1 || code == 2) && d.fuses.isEmpty)

theorem State.writeRotation_layout (s : State) (v : Word) : (s.writeRotation v).dev.rotLayout =
    if s.dev.admitsLayout (BitVec.ofNat 3 (fld v 60 3)) && !s.dev.launched then BitVec.ofNat 3 (fld v 60 3)
    else s.dev.rotLayout := rfl

theorem Device.admitsLayout_named {d : Device} (h : d.fuses = []) {n : Nat} (hn : n ∈ [0, 1, 2, 7]) :
    d.admitsLayout (BitVec.ofNat 3 n) = true := by
  rw [Device.admitsLayout, h]
  simp only [List.mem_cons, List.not_mem_nil, or_false] at hn
  rcases hn with rfl | rfl | rfl | rfl <;> rfl

theorem Device.admitsLayout_unnamed (d : Device) {n : Nat} (hn : n ∈ [3, 4, 5, 6]) :
    d.admitsLayout (BitVec.ofNat 3 n) = false := by
  simp only [List.mem_cons, List.not_mem_nil, or_false] at hn
  rcases hn with rfl | rfl | rfl | rfl <;> rfl

theorem State.writeRotation_interval (s : State) (v : Word) : (s.writeRotation v).dev.rotInterval =
    if 1 ≤ fld v 32 10 ∧ fld v 32 10 ≤ 1000 then BitVec.ofNat 10 (fld v 32 10) else s.dev.rotInterval := by
  simp [State.writeRotation]

/-! ### `boost` (R379, R380) -/

theorem State.writeBoost_dev (s : State) (v : Word) : (s.writeBoost v).dev =
    { s.dev with boostEnable := v.getLsbD 63, boostSel := BitVec.ofNat 8 (fld v 48 8) } := by
  unfold State.writeBoost
  dsimp only
  split <;> rfl

theorem State.writeBoost_ashlar (s : State) (v : Word) (n : Nat) : (s.writeBoost v).ashlar n =
    (s.modAshlar ((BitVec.ofNat 8 (fld v 48 8)).toNat / 32) fun x => { x with slots := fld v 44 4 }).ashlar n := by
  unfold State.writeBoost
  dsimp only
  split <;> rfl

/-- The slots go to the ashlar of the new `sel`. -/
theorem State.writeBoost_slots (s : State) (v : Word) : ((s.writeBoost v).ashlar (fld v 48 8 / 32)).slots = fld v 44 4 := by
  have sel : (BitVec.ofNat 8 (fld v 48 8)).toNat = fld v 48 8 :=
    (BitVec.toNat_ofNat ..).trans (Nat.mod_eq_of_lt (Nat.mod_lt _ (by decide)))
  rw [State.writeBoost_ashlar, sel, State.ashlar_modAshlar_self]

/-- Disabling boost ends every sprint. -/
theorem State.writeBoost_sprints (s : State) (v : Word) (h : v.getLsbD 63 = false) :
    ∀ e ∈ (s.writeBoost v).courses, e.2.step ≠ 0 → e.2.sprintEnd = true := by
  unfold State.writeBoost
  simp only [h, Bool.false_eq_true, if_false, List.mem_map]
  rintro _ ⟨e, -, rfl⟩ sprints
  dsimp only at sprints ⊢
  split at sprints
  next idle => exact absurd idle sprints
  next busy => rw [if_neg busy]

/-! ### Registers that the supervisor or the plinth names (R7, R50, R385, R387) -/

theorem levelOf_writerOf (a : Agent) : levelOf (writerOf a) = if a = .plinth then .machine else .supervisor := by
  cases a <;> rfl

/-- A write of an implemented CSR that can be reached is made, or traps at its writer. -/
theorem exec_registerWrite_csr {s : State} {a : Agent} {n : BitVec 12} (known : csrKnown a n = true)
    (near : s.reachable a = true) (v : Word) :
    (∀ t, s.csrWrite (levelOf (writerOf a)) a n v v = .ok t → exec (.registerWrite (.csr a n) v) s = .next t) ∧
    ∀ tr, s.csrWrite (levelOf (writerOf a)) a n v v = .error tr →
      exec (.registerWrite (.csr a n) v) s = .next (s.raise (writerOf a) tr 0) := by
  change (∀ t, _ → execRegisterWrite (.csr a n) v s = _) ∧ ∀ tr, _ → execRegisterWrite (.csr a n) v s = _
  refine ⟨fun t written => ?_, fun tr denied => ?_⟩
  · simp [execRegisterWrite, known, near, written]
  · simp [execRegisterWrite, known, near, denied]

theorem exec_registerWrite_target {fn : Nat} (h : fn ≠ 0) (v : Word) (s : State) :
    exec (.registerWrite (.target fn) v) s =
      .next (s.modFn fn fun x => { x with target := BitVec.ofNat 64 (v.toNat % 2 ^ 16) }) := by
  have low : v &&& 0xFFFF#64 = BitVec.ofNat 64 (v.toNat % 2 ^ 16) := by
    apply BitVec.eq_of_toNat_eq
    calc (v &&& 0xFFFF#64).toNat = v.toNat &&& 2 ^ 16 - 1 := BitVec.toNat_and ..
      _ = v.toNat % 2 ^ 16 := Nat.and_two_pow_sub_one_eq_mod ..
      _ = (BitVec.ofNat 64 (v.toNat % 2 ^ 16)).toNat := by rw [BitVec.toNat_ofNat]; omega
  change execRegisterWrite (.target fn) v s = _
  rw [← low]
  exact congrArg _ (if_neg h)

theorem exec_registerWrite_pasid {fn : Nat} (h : fn ≠ 0) (v : Word) (s : State) :
    exec (.registerWrite (.pasid fn) v) s = .next (s.modFn fn fun x => { x with pasid := BitVec.ofNat 20 v.toNat }) :=
  congrArg _ (if_neg h)

/-- Settles O43, register by register. -/
theorem registerWriteSteps : Obligations.RegisterWriteSteps := by
  intro s site course fn v
  refine ⟨⟨_, rfl, ?_, ?_, ?_⟩, ⟨_, rfl, ?_, ?_, ?_⟩, ⟨_, rfl, fun b lo hi => ?_, fun b hi => ?_, ?_⟩, ⟨_, rfl, ?_, ?_, rfl⟩,
    ⟨_, rfl, ?_⟩, ⟨_, rfl, ?_, ?_, State.writeBoost_slots s v, State.writeBoost_sprints s v⟩, fun a n known near => ?_,
    fun h => exec_registerWrite_target h v s, fun h => exec_registerWrite_pasid h v s⟩
  · rw [State.regWritten_mem, State.writeCadence_mem]
  · rw [State.regWritten_block, State.writeCadence_block]
    split <;> rfl
  · rw [State.regWritten_block, State.writeCadence_block]
    split <;> rfl
  · rw [State.regWritten_mem, State.writeGap_mem]
  · rw [State.regWritten_block, State.writeGap_block]
  · rw [State.regWritten_block, State.writeGap_block]
  · rw [State.course_modCourse_self, Course.writeRstat_traps _ _ _ lo hi]
  · rw [State.course_modCourse_self, Course.writeRstat_flags _ _ _ hi]
  · rw [State.course_modCourse_self]; rfl
  · rw [State.course_modCourse_self]
  · rw [State.course_modCourse_self]
  · have told := (s.writeRotation v).regWritten_unwatched 0
    have layout := (congrArg Device.rotLayout told :).trans (s.writeRotation_layout v)
    refine ⟨(congrArg Device.rotEnable told :), (congrArg Device.rotTicks told :), fun launched => ?_,
      fun unlaunched whole named => ?_, fun unlaunched unnamed => ?_,
      (congrArg Device.rotInterval told :).trans (s.writeRotation_interval v)⟩
    · exact layout.trans (if_neg (by simp [launched]))
    · exact layout.trans (if_pos (by simp [unlaunched, Device.admitsLayout_named whole named]))
    · exact layout.trans (if_neg (by simp [Device.admitsLayout_unnamed s.dev unnamed]))
  · rw [State.writeBoost_dev]
  · rw [State.writeBoost_dev]
  · rw [← levelOf_writerOf]
    exact exec_registerWrite_csr known near v

end Sys2Proof.Machine
end

section
/-! # What a vector form gives

A form of spec/05 that is performed has the outcome of its operation under its effective guard. Here are the rules for each kind of
destination (R78): the lanes of a v register, the bits of a predicate, an x register. -/

namespace Sys2Proof.Machine

open Sys2Proof

/-- A class 01 form that is performed has the outcome of its operation on its effective guard and the state before it. -/
theorem exec_issueV_performs {i : Instr} {op : Word → State → Res} (h : ∀ s, exec i s = issueV i s op) {s : State}
    (hs : s.performs i = true) :
    exec i s = .next (s.conclude i (op ((s.before i).guardMask s.cur i) (s.before i))) := by
  rw [h, issueV, issue_performs hs, State.before_cur]

/-- A class 01 form that is legal and guarded off is skipped. -/
theorem exec_issueV_guarded_off {i : Instr} {op : Word → State → Res} (h : ∀ s, exec i s = issueV i s op) {s : State}
    (legal : s.illegal s.cur i = false) (off : s.guardMask s.cur i = 0) : exec i s = .next (s.skip s.cur i) := by
  rw [h, issueV, issue, State.run]
  simp only [legal, off, Bool.false_eq_true, if_false, if_true]

theorem lanesOf_congr {f g : Nat → W32} (h : ∀ j, j < 64 → f j = g j) : lanesOf f = lanesOf g :=
  List.map_congr_left fun j hj => h j (List.mem_range.1 hj)

/-- Two ways to give the 64 lanes of one value. -/
theorem GivesV.congr {i : Instr} {d : Reg} {la : Nat} {f g : Ctx → Nat → W32} (h : GivesV i d la f)
    (e : ∀ c j, j < 64 → f c j = g c j) : GivesV i d la g := by
  intro s hs
  rw [h s hs, lanesOf_congr (e (s.ctxAt i))]

/-! ### Binary forms -/

/-- The predicate that selects the lanes of `vsel`, as `Ctx.binary` reads it (R90). -/
def Ctx.selector (c : Ctx) : VBin → Word
  | .vsel p => c.p p.val
  | _ => 0

/-- A binary form computes its lanes from those of vd and va and from the lanes of operand b (R77). -/
theorem Ctx.binary_eq (c : Ctx) (op : VBin) (d a : Reg) (b : VSrc) :
    c.binary op d a b = lanesOf (binLanes op (c.selector op) (lane (c.v d.val)) (lane (c.v a.val)) fun j => b.lane c j) := by
  cases b <;> rfl

/-- A binary form writes what `binLanes` gives each lane. -/
theorem givesV_bin {i : Instr} (op : VBin) {d a : Reg} {b : VSrc} (h : ∀ s, exec i s = issueV i s (doBin op d a b)) :
    GivesV i d 0 (fun c => binLanes op (c.selector op) (lane (c.v d.val)) (lane (c.v a.val)) fun j => b.lane c j) :=
  givesV_of h fun m s => by rw [doBin, Ctx.binary_eq]

/-- A unary form writes its function of each lane. -/
theorem givesV_map {i : Instr} {d a : Reg} (f : W32 → W32) (h : ∀ s, exec i s = issueV i s (doMap d a f)) :
    GivesV i d 0 (fun c j => f (lane (c.v a.val) j)) := givesV_of h fun _ _ => rfl

/-- A unary VL form writes its function of each lane of its source, with its lookahead. -/
theorem givesV_map1 {i : Instr} {d : Reg} {v : VSrc1} {la : La} (f : W32 → W32)
    (h : ∀ s, exec i s = issueV i s (doMap1 d v la f)) :
    GivesV i d la.val (fun c j => f (v.lane c j)) := givesV_of h fun _ _ => rfl

/-! ### Predicates -/

/-- Guard-on bits of a predicate take their new value, the others keep theirs (R78). -/
theorem getLsbD_predMerge (m old new : Word) {j : Nat} (hj : j < 64) :
    (predMerge m old new).getLsbD j = if m.getLsbD j then new.getLsbD j else old.getLsbD j := by
  rw [predMerge, BitVec.getLsbD_or, BitVec.getLsbD_and, BitVec.getLsbD_and, BitVec.getLsbD_not]
  cases m.getLsbD j <;> simp [hj]

/-- A form whose destination is a predicate writes the bits of its word on the lanes of its guard. -/
theorem givesP_of {i : Instr} {p : PReg} {w : Ctx → Word} {f : Ctx → Nat → Bool}
    (h : ∀ s, exec i s = issueV i s (doPred p w)) (hf : ∀ c j, j < 64 → (w c).getLsbD j = f c j) : GivesP i p f := by
  intro s hs
  refine ⟨predMerge ((s.before i).guardMask s.cur i) ((s.ctxAt i).p p.val) (w (s.ctxAt i)), ?_, fun j hj => ?_⟩
  · rw [exec_issueV_performs h hs, doPred, State.before_cur]
    rfl
  · rw [getLsbD_predMerge _ _ _ hj, hf _ _ hj]

end Sys2Proof.Machine
end

section
/-! # Integer lanes

Each form writes `binLanes` of its operation (R83), or `absLane` (R84); the laws here write a lane's value as the rule gives it. -/

namespace Sys2Proof.Machine

open Sys2Proof

/-! ### Products and shifts, at every width -/

theorem bits_mul_eq_ofInt {w : Nat} (a b : BitVec w) : a * b = BitVec.ofInt w (a.toInt * b.toInt) := by
  rw [BitVec.ofInt_mul, BitVec.ofInt_toInt, BitVec.ofInt_toInt]

theorem bits_shiftLeft_eq_ofNat {w : Nat} (a : BitVec w) (k : Nat) : a <<< k = BitVec.ofNat w (a.toNat * 2 ^ k) := by
  apply BitVec.eq_of_toNat_eq
  rw [BitVec.toNat_shiftLeft, BitVec.toNat_ofNat, Nat.shiftLeft_eq]

theorem bits_ushiftRight_eq_ofNat {w : Nat} (a : BitVec w) (k : Nat) : a >>> k = BitVec.ofNat w (a.toNat / 2 ^ k) := by
  apply BitVec.eq_of_toNat_eq
  rw [BitVec.toNat_ushiftRight, BitVec.toNat_ofNat, Nat.shiftRight_eq_div_pow,
    Nat.mod_eq_of_lt (Nat.lt_of_le_of_lt (Nat.div_le_self ..) a.isLt)]

theorem bits_sshiftRight_eq_ofInt {w : Nat} (a : BitVec w) (k : Nat) : a.sshiftRight k = BitVec.ofInt w (a.toInt / 2 ^ k) := by
  rw [BitVec.sshiftRight, Int.shiftRight_eq_div_pow]
  rfl

/-! ### Minima and maxima -/

theorem minLane_signed_min (a b : W32) : minLane false false a b = BitVec.ofInt 32 (min a.toInt b.toInt) := by
  by_cases h : a.toInt < b.toInt
  · simp [minLane, h, Int.min_eq_left (Int.le_of_lt h)]
  · simp [minLane, h, Int.min_eq_right (Int.not_lt.1 h)]

theorem minLane_signed_max (a b : W32) : minLane true false a b = BitVec.ofInt 32 (max a.toInt b.toInt) := by
  by_cases h : a.toInt < b.toInt
  · simp [minLane, h, Int.max_eq_right (Int.le_of_lt h)]
  · simp [minLane, h, Int.max_eq_left (Int.not_lt.1 h)]

theorem minLane_unsigned_min (a b : W32) : minLane false true a b = BitVec.ofNat 32 (min a.toNat b.toNat) := by
  by_cases h : a.toNat < b.toNat
  · simp [minLane, h, Nat.min_eq_left (Nat.le_of_lt h)]
  · simp [minLane, h, Nat.min_eq_right (Nat.not_lt.1 h)]

theorem minLane_unsigned_max (a b : W32) : minLane true true a b = BitVec.ofNat 32 (max a.toNat b.toNat) := by
  by_cases h : a.toNat < b.toNat
  · simp [minLane, h, Nat.max_eq_right (Nat.le_of_lt h)]
  · simp [minLane, h, Nat.max_eq_left (Nat.not_lt.1 h)]

/-! ### Absolute values (R84) -/

/-- Only −2^31 has an absolute value that leaves 31 bits, and it saturates. -/
theorem absLane_eq_ofNat (a : W32) : absLane a = BitVec.ofNat 32 (min a.toInt.natAbs (2 ^ 31 - 1)) := by
  have value := BitVec.toInt_eq_toNat_cond a
  unfold absLane
  split
  next least => rw [least]; rfl
  next other =>
    have apart : a.toNat ≠ 0x80000000 := fun h => other (BitVec.eq_of_toNat_eq h)
    have bound : a.toInt.natAbs ≤ 2 ^ 31 - 1 := by split at value <;> omega
    rw [Nat.min_eq_left bound]
    apply BitVec.eq_of_toNat_eq
    split
    next neg =>
      rw [BitVec.toNat_neg, BitVec.toNat_ofNat]
      split at value <;> omega
    next nonneg =>
      rw [BitVec.toNat_ofNat]
      split at value <;> omega

/-- Settles O12: `givesV_bin` gives each form's lanes, and the laws above write them as R83 and R84 do. -/
theorem vectorIntegerResults : Obligations.VectorIntegerResults := fun _ _ _ _ =>
  ⟨givesV_bin (.vadd .wrap) fun _ => rfl,
   givesV_bin (.vadd .sat) fun _ => rfl,
   givesV_bin (.vadd .satn) fun _ => rfl,
   givesV_bin (.vsub .wrap) fun _ => rfl,
   givesV_bin (.vsub .sat) fun _ => rfl,
   givesV_bin (.vsub .satn) fun _ => rfl,
   (givesV_bin .vmul fun _ => rfl).congr fun _ _ _ => bits_mul_eq_ofInt ..,
   givesV_bin (.vmulh false) fun _ => rfl,
   givesV_bin (.vmulh true) fun _ => rfl,
   givesV_bin .vmac fun _ => rfl,
   givesV_bin .vand fun _ => rfl,
   givesV_bin .vor fun _ => rfl,
   givesV_bin .vxor fun _ => rfl,
   (givesV_bin .vsll fun _ => rfl).congr fun _ _ _ => bits_shiftLeft_eq_ofNat ..,
   (givesV_bin .vsrl fun _ => rfl).congr fun _ _ _ => bits_ushiftRight_eq_ofNat ..,
   (givesV_bin .vsra fun _ => rfl).congr fun _ _ _ => bits_sshiftRight_eq_ofInt ..,
   (givesV_bin .vmin fun _ => rfl).congr fun _ _ _ => minLane_signed_min ..,
   (givesV_bin .vmax fun _ => rfl).congr fun _ _ _ => minLane_signed_max ..,
   (givesV_bin .vminn fun _ => rfl).congr fun _ _ _ => minLane_unsigned_min ..,
   (givesV_bin .vmaxn fun _ => rfl).congr fun _ _ _ => minLane_unsigned_max ..,
   (givesV_map absLane fun _ => rfl).congr fun _ _ _ => absLane_eq_ofNat _⟩

end Sys2Proof.Machine
end

section
/-! # Float lanes and conversions

Each form writes the lanes of its operation on exact values, rounded once (R85 to R88, R110 to R114). -/

namespace Sys2Proof.Machine

open Sys2Proof

/-- A conversion from a dx format decodes the elements of the strip record in the low lanes of va (R111). -/
theorem givesV_cvt_record {dst src : Ty} {f : Dx} (h : tyDx src = some f) (r : Rm) (d a : Reg) (g : PReg) :
    GivesV (.vcvt dst src r d a g) d 0 (fun c j => dxDecode f (recordOf (c.v a.val) (dxBytes f / 4)) j) :=
  givesV_of (op := doCvt dst src r d a) (fun _ => rfl) fun m s => by simp only [doCvt, h]

/-- Any other conversion is made lane by lane (R110). -/
theorem givesV_cvt_lanes {dst src : Ty} (h : tyDx src = none) (r : Rm) (d a : Reg) (g : PReg) :
    GivesV (.vcvt dst src r d a g) d 0 (fun c j => convert 32 dst src r (lane (c.v a.val) j).toNat) :=
  givesV_of (op := doCvt dst src r d a) (fun _ => rfl) fun m s => by simp only [doCvt, h]

/-- Settles O13: the binary forms by `givesV_bin`, the unary ones by `givesV_map` and `givesV_map1`, the conversions by their
source's format. -/
theorem vectorFloatResults : Obligations.VectorFloatResults :=
  ⟨fun _ _ _ _ _ r _ =>
    ⟨givesV_bin (.vfadd r) fun _ => rfl,
     givesV_bin (.vfsub r) fun _ => rfl,
     givesV_bin (.vfmul r) fun _ => rfl,
     givesV_bin (.vfma r) fun _ => rfl,
     givesV_bin (.vfdiv r) fun _ => rfl,
     givesV_bin .vfmin fun _ => rfl,
     givesV_bin .vfmax fun _ => rfl,
     fun o => givesV_bin (.vfsgn o) fun _ => rfl,
     givesV_map fClass fun _ => rfl,
     givesV_map1 fSqrt fun _ => rfl,
     givesV_map1 exp2Lane fun _ => rfl,
     givesV_map1 log2Lane fun _ => rfl,
     givesV_map1 rcpLane fun _ => rfl,
     givesV_map1 rsqLane fun _ => rfl⟩,
   fun d a g r =>
    ⟨fun _ _ lanes => givesV_cvt_lanes lanes r d a g,
     fun _ _ _ record => givesV_cvt_record record r d a g,
     fun f => givesV_of (op := doQuant f d a) (fun _ => rfl) fun _ _ => rfl⟩⟩

end Sys2Proof.Machine
end

section
/-! # Rearrangement

The lanes of each form are those of `binLanes` as the statement writes them; only the scatter needs an argument, that the last
source lane which names a destination is the highest one (R90 to R93). -/

namespace Sys2Proof.Machine

open Sys2Proof

/-- Overwriting by each element that passes a test leaves the last such element's value. -/
theorem foldl_ite_eq_getLast?_filter {α β : Type} (p : α → Prop) [DecidablePred p] (f : α → β) (old : β) (l : List α) :
    l.foldl (fun v i => if p i then f i else v) old = ((l.filter fun i => p i).getLast?).elim old f := by
  induction l generalizing old with
  | nil => rfl
  | cons x l ih =>
    rw [List.foldl_cons, ih]
    by_cases h : p x
    · rw [if_pos h, List.filter_cons_of_pos (p := fun i => decide (p i)) (decide_eq_true h), List.getLast?_cons]
      cases (l.filter fun i => p i).getLast? with
      | none => rfl
      | some i => rfl
    · rw [if_neg h, List.filter_cons_of_neg (p := fun i => decide (p i)) (mt of_decide_eq_true h)]

/-- A scatter's lane k is that of the highest lane that names k, or kept (R91). -/
theorem binLanes_scatter (sel : Word) (d a b : Nat → W32) (k : Nat) : binLanes (.vperm true) sel d a b k =
    (((List.range 64).filter fun i => (b i).toNat % 64 = k).getLast?).elim (d k) a :=
  foldl_ite_eq_getLast?_filter (fun i => (b i).toNat % 64 = k) a (d k) (List.range 64)

theorem binLanes_slideDown (sel : Word) (d a b : Nat → W32) (j : Nat) : binLanes (.vslide true) sel d a b j =
    if j + min (b 0).toNat 64 < 64 then a (j + min (b 0).toNat 64) else 0 :=
  ite_congr (propext Nat.lt_succ_iff.symm) (fun _ => rfl) fun _ => rfl

/-- Settles O14: by `givesV_bin`, with `binLanes_scatter` and `binLanes_slideDown`. -/
theorem vectorRearrangement : Obligations.VectorRearrangement := fun d a b y p g =>
  ⟨givesV_bin (.vsel p) fun _ => rfl,
   givesV_map id fun _ => rfl,
   givesV_of (op := doBcast d y) (fun _ => rfl) fun _ _ => rfl,
   givesV_bin (.vperm false) fun _ => rfl,
   (givesV_bin (.vperm true) fun _ => rfl).congr fun _ _ _ => by
     rw [binLanes_scatter]
     split
     next named => rw [named]; rfl
     next unnamed => rw [unnamed]; rfl,
   (givesV_bin (.vslide true) fun _ => rfl).congr fun _ _ _ => binLanes_slideDown ..,
   givesV_bin (.vslide false) fun _ => rfl,
   givesV_bin .vzip fun _ => rfl,
   givesV_bin .vunzip fun _ => rfl⟩

end Sys2Proof.Machine
end

section
/-! # Predicates

Comparisons and predicate logic bit by bit (R89, R97), and the counts of a predicate under its guard (R98). -/

namespace Sys2Proof.Machine

open Sys2Proof

/-! ### Masks of lane numbers -/

/-- The sum of the powers of two of the numbers below n that f takes has f for its low n bits, and nothing above them. -/
theorem sum_bit'_lt_and_testBit (f : Nat → Bool) (n : Nat) :
    ((List.range n).map fun i => bit' (f i) i).sum < 2 ^ n ∧
      ∀ j < n, ((List.range n).map fun i => bit' (f i) i).sum.testBit j = f j := by
  induction n with
  | zero => exact ⟨Nat.one_pos, nofun⟩
  | succ n ih =>
    obtain ⟨bound, bits⟩ := ih
    rw [List.range_succ, List.map_append, List.sum_append, List.map_singleton, List.sum_singleton, Nat.pow_succ]
    generalize ((List.range n).map fun i => bit' (f i) i).sum = low at bound bits ⊢
    cases hn : f n with
    | false =>
      refine ⟨by simp only [bit', Bool.false_eq_true, if_false]; omega, fun j hj => ?_⟩
      rcases Nat.lt_succ_iff_lt_or_eq.1 hj with below | rfl
      · exact bits j below
      · rw [hn]; exact Nat.testBit_lt_two_pow bound
    | true =>
      refine ⟨by simp only [bit', if_true]; omega, fun j hj => ?_⟩
      rw [bit', if_pos rfl, Nat.add_comm]
      rcases Nat.lt_succ_iff_lt_or_eq.1 hj with below | rfl
      · rw [Nat.testBit_two_pow_add_gt below, bits j below]
      · rw [Nat.testBit_two_pow_add_eq, Nat.testBit_lt_two_pow bound, hn]; rfl

/-- A lane mask has the test of a lane number for its bit. -/
theorem getLsbD_maskOf (f : Nat → Bool) {j : Nat} (hj : j < 64) : (maskOf f).getLsbD j = f j := by
  rw [maskOf, BitVec.getLsbD_ofNat, (sum_bit'_lt_and_testBit f 64).2 j hj, decide_eq_true hj, Bool.true_and]

/-- A comparison writes its relation of each lane of va with the lane of b (R89). -/
theorem givesP_cmp {i : Instr} {p : PReg} {a : Reg} {b : VSrc} (f : W32 → W32 → Bool)
    (h : ∀ s, exec i s = issueV i s (doCmp f p a b)) :
    GivesP i p (fun c j => f (lane (c.v a.val) j) (b.lane c j)) :=
  givesP_of (w := fun c => maskOf fun j => f (lane (c.v a.val) j) (b.lane c j)) h fun _ _ hj => getLsbD_maskOf _ hj

/-- Settles O15: comparisons by `givesP_cmp`, the logic bit by bit. -/
theorem predicateResults : Obligations.PredicateResults := fun a b p q r g =>
  ⟨givesP_cmp (ICond.holds .eq) fun _ => rfl,
   givesP_cmp (ICond.holds .ne) fun _ => rfl,
   givesP_cmp (ICond.holds .lt) fun _ => rfl,
   givesP_cmp (ICond.holds .ge) fun _ => rfl,
   givesP_cmp (ICond.holds .ltn) fun _ => rfl,
   givesP_cmp (ICond.holds .gen) fun _ => rfl,
   fun k => givesP_cmp (FCond.holds k) fun _ => rfl,
   givesP_of (w := fun c => c.x a.val) (fun _ => rfl) fun _ _ _ => rfl,
   givesP_of (w := fun c => plogOf .and (c.p q.val) (c.p r.val)) (fun _ => rfl) fun _ _ _ => BitVec.getLsbD_and,
   givesP_of (w := fun c => plogOf .or (c.p q.val) (c.p r.val)) (fun _ => rfl) fun _ _ _ => BitVec.getLsbD_or,
   givesP_of (w := fun c => plogOf .xor (c.p q.val) (c.p r.val)) (fun _ => rfl) fun _ _ _ => BitVec.getLsbD_xor,
   givesP_of (w := fun c => plogOf .andn (c.p q.val) (c.p r.val)) (fun _ => rfl) fun _ _ hj => by
     rw [plogOf, BitVec.getLsbD_and, BitVec.getLsbD_not, decide_eq_true hj, Bool.true_and],
   givesP_of (w := fun c => plogOf .not (c.p q.val) (c.p r.val)) (fun _ => rfl) fun _ _ hj => by
     rw [plogOf, BitVec.getLsbD_not, decide_eq_true hj, Bool.true_and]⟩

/-! ### Counts (R98) -/

/-- What `trailing0` counts from bit i ends at the lowest one bit, or behind the last bit. -/
theorem add_trailing0_eq_find? (v : Word) (n i : Nat) :
    i + trailing0 v n i = ((List.range' i n).find? v.getLsbD).getD (i + n) := by
  induction n generalizing i with
  | zero => rfl
  | succ n ih =>
    rw [trailing0, List.range'_succ, List.find?_cons]
    cases v.getLsbD i with
    | true => rfl
    | false =>
      have := ih (i + 1)
      rw [if_neg Bool.false_ne_true, ← Nat.add_assoc, this, Nat.add_right_comm]
      rfl

theorem trailing0_eq_find? (v : Word) : trailing0 v 64 0 = ((List.range 64).find? v.getLsbD).getD 64 := by
  have := add_trailing0_eq_find? v 64 0
  rwa [Nat.zero_add, Nat.zero_add, ← List.range_eq_range'] at this

theorem getLsbD_and_fun (v w : Word) : (v &&& w).getLsbD = fun j => v.getLsbD j && w.getLsbD j :=
  funext fun _ => BitVec.getLsbD_and

/-! ### What a skipped instruction leaves (R32) -/

/-- Opening a chunk changes nothing of its context's registers. -/
theorem State.ctx_openChunk_arch (s : State) (a : Agent) : ((s.openChunk a).ctx a).arch = (s.ctx a).arch := by
  have started : ((s.modCtx a fun c => { c with chunk := { c.chunk with start := some c.arch } }).ctx a).arch =
      (s.ctx a).arch := by rw [State.ctx_modCtx_self]
  unfold State.openChunk
  split
  · rfl
  · dsimp only
    split
    · rfl
    · split
      · split
        · rw [State.ctx_modCourse, started]
        · exact started
      · exact started

@[simp] theorem Ctx.inChunk_xs (c : Ctx) : c.inChunk.arch.xs = c.arch.xs := by
  unfold Ctx.inChunk
  dsimp only
  split <;> rfl

@[simp] theorem Ctx.inChunk_live (c : Ctx) : c.inChunk.arch.live = c.arch.live := by
  unfold Ctx.inChunk
  dsimp only
  split <;> rfl

@[simp] theorem Arch.next_xs (r : Arch) (intrap : Bool) (len : Nat) : (r.next intrap len).xs = r.xs := by
  unfold Arch.next
  dsimp only
  repeat' split
  all_goals rfl

@[simp] theorem Arch.next_live (r : Arch) (intrap : Bool) (len : Nat) : (r.next intrap len).live = r.live := by
  unfold Arch.next
  dsimp only
  repeat' split
  all_goals rfl

theorem State.skip_ctx_xs (s : State) (a : Agent) (i : Instr) : ((s.skip a i).ctx a).arch.xs = (s.ctx a).arch.xs := by
  rw [State.skip, State.ctx_modCtx_self, Arch.next_xs, Ctx.inChunk_xs, State.ctx_openChunk_arch]

theorem State.skip_ctx_live (s : State) (a : Agent) (i : Instr) : ((s.skip a i).ctx a).arch.live = (s.ctx a).arch.live := by
  rw [State.skip, State.ctx_modCtx_self, Arch.next_live, Ctx.inChunk_live, State.ctx_openChunk_arch]

/-- A class 01 form that is guarded off leaves memory and the x registers as they are. -/
theorem exec_issueV_off_keeps {i : Instr} {op : Word → State → Res} (h : ∀ s, exec i s = issueV i s op) {s : State}
    (legal : s.illegal s.cur i = false) (off : s.guardMask s.cur i = 0) :
    ∃ t : State, exec i s = .next t ∧ t.mem = s.mem ∧ (t.ctx s.cur).arch.xs = (s.ctx s.cur).arch.xs ∧
      (t.ctx s.cur).arch.live = (s.ctx s.cur).arch.live :=
  ⟨s.skip s.cur i, exec_issueV_guarded_off h legal off, State.skip_mem .., State.skip_ctx_xs .., State.skip_ctx_live ..⟩

/-- Settles O16: the count by `ones_eq_countP`, the lowest lane by `trailing0_eq_find?`, the guarded-off form by its skip. -/
theorem predicateCounts : Obligations.PredicateCounts := by
  refine fun d q g s => ⟨fun hs => ?_, fun hs => ?_, fun i hi legal off => ?_⟩
  · rw [exec_issueV_performs (op := doPcnt d q) (fun _ => rfl) hs, doPcnt, State.before_cur, ones_eq_countP, getLsbD_and_fun]
    rfl
  · rw [exec_issueV_performs (op := doPfirst d q) (fun _ => rfl) hs, doPfirst, State.before_cur, trailing0_eq_find?,
      getLsbD_and_fun]
    rfl
  · simp only [List.mem_cons, List.not_mem_nil, or_false] at hi
    rcases hi with rfl | rfl
    · exact exec_issueV_off_keeps (op := doPcnt d q) (fun _ => rfl) legal off
    · exact exec_issueV_off_keeps (op := doPfirst d q) (fun _ => rfl) legal off

end Sys2Proof.Machine
end

section
/-! # Reductions and scans

A level of the pairwise tree keeps the sum of its lanes and halves their number (R95), so that the six levels over 64 lanes leave
their sum. -/

namespace Sys2Proof.Machine

open Sys2Proof

theorem redLevel_sum (l : List Word) : (redLevel (· + ·) l).sum = l.sum := by
  fun_induction redLevel with
  | case1 a b l ih => simp only [List.sum_cons, ih, BitVec.add_assoc]
  | case2 l => rfl

theorem redTree_sum (l : List Word) : (redTree (· + ·) l).sum = l.sum := by
  simp only [redTree, redLevel_sum]

theorem length_redLevel {α : Type} (f : α → α → α) (l : List α) : (redLevel f l).length = (l.length + 1) / 2 := by
  fun_induction redLevel with
  | case1 a b l ih => simp only [List.length_cons, ih]; omega
  | case2 l h =>
    match l with
    | [] => simp
    | [_] => simp
    | a :: b :: l => exact (h a b l rfl).elim

/-- The tree over 64 lanes leaves one node. -/
theorem length_redTree {α : Type} (f : α → α → α) {l : List α} (h : l.length = 64) : (redTree f l).length = 1 := by
  simp only [redTree, length_redLevel, h]

theorem headD_redTree_add {l : List Word} (h : l.length = 64) : (redTree (· + ·) l).headD 0 = l.sum := by
  obtain ⟨root, hroot⟩ := List.length_eq_one_iff.1 (length_redTree (· + ·) h)
  rw [← redTree_sum l, hroot, List.headD_cons, List.sum_singleton]

/-- A guard-off lane adds the identity 0 to the sum (R94). -/
theorem map_signExtend_redIn (m : Word) (v : Lanes) : (redIn .add m v).map (fun x => x.signExtend 64) =
    (List.range 64).map fun j => if m.getLsbD j then (lane v j).signExtend 64 else (0 : Word) := by
  rw [redIn, lanesOf, List.map_map]
  refine List.map_congr_left fun j _ => ?_
  exact apply_ite (fun x : W32 => x.signExtend 64) ..

/-- Settles O17: the forms have their operations' outcomes, and the sum is `headD_redTree_add`. -/
theorem reductionResults : Obligations.ReductionResults := by
  refine fun d a g s => ⟨fun op hs => ?_, fun op hs => ?_, fun m v => ?_⟩
  · dsimp only
    rw [exec_issueV_performs (op := doRed op d a) (fun _ => rfl) hs, doRed, State.before_cur]
    rfl
  · dsimp only
    rw [exec_issueV_performs (op := doScan op d a) (fun _ => rfl) hs, doScan, State.before_cur]
    rfl
  · rw [redResult, map_signExtend_redIn, headD_redTree_add]
    rw [List.length_map, List.length_range]

end Sys2Proof.Machine
end

section
/-! # Joins, shape and status of the array

A join that has room and a place answers what `Course.join` gives: an entry of the queue that waits for its core, or a new one at the
end (R125, R126). -/

namespace Sys2Proof.Machine

open Sys2Proof

/-! ### Joins (R125) -/

/-- What changes the first element that a test selects leaves the elements before it and after it. -/
theorem modFirst_append {α : Type} {p : α → Bool} (f : α → α) {l : List α} {x : α} (r : List α)
    (before : ∀ e ∈ l, p e = false) (here : p x = true) : modFirst p f (l ++ x :: r) = l ++ f x :: r := by
  induction l with
  | nil => exact if_pos here
  | cons y l ih =>
    have later := ih fun e he => before e (List.mem_cons_of_mem y he)
    rw [List.cons_append, modFirst, before y List.mem_cons_self, later]
    rfl

/-- A load or product that no entry takes makes an entry of its own. -/
theorem Course.join_new {k : Course} {n : Job} {core : Nat} (alone : ∀ j ∈ k.jobs, j.takes n core = false)
    (kind : n.kind ≠ .swap) : k.join n core =
      (k.nextId, { k with jobs := k.jobs ++ [{ n with id := k.nextId }], nextId := k.nextId + 1 }) := by
  have absent : k.jobs.find? (·.takes n core) = none := List.find?_eq_none.2 fun j hj => by simp [alone j hj]
  rw [Course.join, absent]
  exact if_neg kind

/-- A join goes to the first entry that takes it. -/
theorem Course.join_first {k : Course} {n j : Job} {core : Nat} {p q : List Job} (queue : k.jobs = p ++ j :: q)
    (before : ∀ e ∈ p, e.takes n core = false) (here : j.takes n core = true) : k.join n core = (j.id,
      { k with jobs := p ++ { j with joins := j.joins ++ n.joins, disagree := j.disagree || !j.agrees n } :: q }) := by
  have found : k.jobs.find? (·.takes n core) = some j :=
    List.find?_eq_some_iff_append.2 ⟨here, p, q, queue, fun e he => by simp [before e he]⟩
  rw [Course.join, found]
  dsimp only
  rw [queue, modFirst_append _ _ before here]

/-- A join that has room, a completion place where it needs one, and nothing to wait for is made (R126, R226, R260). -/
theorem State.joinArray_done {s : State} {course core : Nat} {n : Job} {d : Option Reg}
    (room : (s.course course).queueFull n core = false) (released : s.performed s.cur false = true)
    (place : n.kind ≠ .swap → s.placeFree (coreId course core) = true) :
    s.joinArray course core n d =
      let r := (s.course course).join n core
      let u := s.setCourse course r.2
      .done (if n.kind = .swap then u else u.reserve (coreId course core)) (d.elim [] fun d => [.toX d.val (r.1.setWidth 64)]) := by
  have placed : (n.kind != .swap && !s.placeFree (coreId course core)) = false := by
    by_cases swap : n.kind = .swap
    · rw [swap]; rfl
    · rw [place swap, Bool.not_true, Bool.and_false]
  simp only [State.joinArray, room, placed, released, Bool.not_true, Bool.false_eq_true, if_false]
  cases d <;> rfl

theorem State.before_ctx {s : State} {a : Agent} (cur : s.cur = a) (i : Instr) : (s.before i).ctx a = s.ctxAt i := by
  rw [State.ctxAt, cur]

/-- A form that is performed and whose operation is a join answers the join. -/
theorem exec_join {i : Instr} {s : State} {body : State → Res} {n k : Nat} {e : Job} {d : Option Reg}
    (means : exec i s = issue i s body) (hs : s.performs i = true)
    (joins : body (s.before i) = (s.before i).joinArray n k e d)
    (room : ((s.before i).course n).queueFull e k = false ∧ (s.before i).performed s.cur false = true ∧
      (e.kind ≠ .swap → (s.before i).placeFree (coreId n k) = true)) :
    exec i s = .next (
      let r := ((s.before i).course n).join e k
      let u := (s.before i).setCourse n r.2
      (if e.kind = .swap then u else u.reserve (coreId n k)).retire s.cur i
        (d.elim [] fun d => [.toX d.val (r.1.setWidth 64)])) := by
  obtain ⟨queue, released, place⟩ := room
  rw [means, issue_performs hs, joins, State.joinArray_done queue (by rwa [State.before_cur]) place]
  rfl

/-! ### Shape (R131, R138) -/

/-- Removing the power of bands changes the planes, the bands that are leaving and the count of lost weights, and nothing else. -/
theorem Course.settleBands_leaves (k : Course) :
    { k.settleBands with station := k.station, shadow := k.shadow, leaving := k.leaving, lost := k.lost } = k :=
  List.foldlRecOn (motive := fun k' : Course =>
      { k' with station := k.station, shadow := k.shadow, leaving := k.leaving, lost := k.lost } = k)
    (List.range 4) Course.powerOff rfl fun k' same b _ => by
      unfold Course.powerOff
      split
      · exact same
      · exact same

@[simp] theorem Course.settleBands_present (k : Course) : k.settleBands.present = k.present :=
  (congrArg Course.present k.settleBands_leaves :)

@[simp] theorem Course.settleBands_on (k : Course) : k.settleBands.on = k.on :=
  (congrArg Course.on k.settleBands_leaves :)

@[simp] theorem Course.settleBands_pending (k : Course) : k.settleBands.pending = k.pending :=
  (congrArg Course.pending k.settleBands_leaves :)

@[simp] theorem Course.settleBands_jobs (k : Course) : k.settleBands.jobs = k.jobs :=
  (congrArg Course.jobs k.settleBands_leaves :)

theorem Course.mshape_on (k : Course) (want : BitVec 4) (now : Nat) : (k.mshape want now).on = want &&& k.present := by
  simp only [Course.mshape, Course.settleBands_present]

theorem Course.mshape_present (k : Course) (want : BitVec 4) (now : Nat) : (k.mshape want now).present = k.present := by
  simp only [Course.mshape, Course.settleBands_present]

/-- A band is pending where it is on and was pending, or was off (R131; log entry 70). -/
theorem Course.mshape_pending_getLsbD (k : Course) (want : BitVec 4) (now : Nat) {b : Nat} (hb : b < 4) :
    (k.mshape want now).pending.getLsbD b =
      (want.getLsbD b && k.present.getLsbD b && (k.pending.getLsbD b || !k.on.getLsbD b)) := by
  simp only [Course.mshape, Course.settleBands_present, Course.settleBands_on, Course.settleBands_pending, BitVec.getLsbD_and,
    BitVec.getLsbD_or, BitVec.getLsbD_not, decide_eq_true hb, Bool.true_and]
  cases want.getLsbD b <;> cases k.present.getLsbD b <;> simp

/-- Settles O22: the queue by `Course.join_new` and `Course.join_first`, the joins by `exec_join`, the bands bit by bit. -/
theorem arrayForms : Obligations.ArrayForms := by
  refine ⟨⟨fun k n core => ⟨fun alone kind => ?_, fun p j q queue before here => ?_⟩, fun s n k t g cur => ⟨?_, ?_, ?_⟩⟩,
    ⟨fun k want now b hb => ⟨?_, k.mshape_pending_getLsbD want now hb, k.mshape_present want now⟩, fun d a g s n own => ⟨?_, ?_⟩⟩⟩
  · rw [Course.join_new alone kind]
    exact ⟨rfl, rfl, rfl⟩
  · rw [Course.join_first queue before here]
    exact ⟨rfl, rfl, rfl⟩
  · dsimp only
    intro d a c hs passes room
    refine exec_join (d := some d) rfl hs ?_ room
    simp only [State.before_cur, cur, State.before_ctx cur, passes]
  · dsimp only
    intro tr acc d a b c hs passes room
    refine exec_join (d := some d) rfl hs ?_ room
    simp only [State.before_cur, cur, State.before_ctx cur, passes]
  · intro e hs room
    refine exec_join (d := none) rfl hs ?_ room
    simp only [State.before_cur, cur]
    rfl
  · rw [Course.mshape_on, BitVec.getLsbD_and]
  · intro i hs
    refine (issue_performs hs _).trans ?_
    simp only [State.before_cur, own]
    rfl
  · intro i hs
    refine (issue_performs hs _).trans ?_
    simp only [State.before_cur, own]
    rfl

end Sys2Proof.Machine
end

section
/-! # Steps of the array

Each step looks at one entry of a course's queue: the entries before it are p and those after it q. The rules here give what each
step makes of the queue, of the planes and of the bands where its precondition holds (R126, R127, R130, R133 to R138, R372). -/

namespace Sys2Proof

/-- Of two writes at one key the later one stands. -/
theorem Map.set_set {κ α : Type} [DecidableEq κ] (m : List (κ × α)) (k : κ) (v w : α) :
    Map.set (Map.set m k v) k w = Map.set m k w := by
  induction m with
  | nil => exact if_pos rfl
  | cons e m ih =>
    obtain ⟨j, u⟩ := e
    by_cases h : j = k
    · simp only [Map.set, if_pos h, if_true]
    · simp only [Map.set, if_neg h, ih]

end Sys2Proof

namespace Sys2Proof.Machine

open Sys2Proof

/-! ### The queue of a course -/

@[simp] theorem State.setCourse_setCourse (s : State) (n : Nat) (c d : Course) :
    (s.setCourse n c).setCourse n d = s.setCourse n d := by
  simp only [State.setCourse, Map.set_set]

@[simp] theorem State.modCourse_setCourse (s : State) (n : Nat) (c : Course) (f : Course → Course) :
    (s.setCourse n c).modCourse n f = s.setCourse n (f c) := by
  rw [State.modCourse, State.setCourse_setCourse, State.course_setCourse_self]

@[simp] theorem State.modCourse_modCourse (s : State) (n : Nat) (f g : Course → Course) :
    (s.modCourse n f).modCourse n g = s.modCourse n fun k => g (f k) := State.modCourse_setCourse ..

section Queue

variable {α : Type} (p q : List α) (j : α)

theorem getElem?_append_cons : (p ++ j :: q)[p.length]? = some j := by
  rw [List.getElem?_append_right (Nat.le_refl _), Nat.sub_self]
  rfl

theorem modify_append_cons (f : α → α) : (p ++ j :: q).modify p.length f = p ++ f j :: q :=
  List.modifyTailIdx_add (List.modifyHead f) 0 p (j :: q)

theorem dropAt_append_cons : dropAt p.length (p ++ j :: q) = p ++ q := by
  rw [dropAt, List.take_left, List.drop_length_add_append]
  rfl

end Queue

theorem Job.waiting_of_joined {j : Job} (joined : j.joins.length = 8) : j.waiting = false :=
  decide_eq_false (by omega)

/-- A full load or product may start where no swap and none of its kind stand before it (R127). -/
theorem Course.mayStart_of_first {k : Course} {p q : List Job} {j : Job} (queue : k.jobs = p ++ j :: q) (kind : j.kind ≠ .swap)
    (joined : j.joins.length = 8) (waits : j.started = false) (first : ∀ e ∈ p, e.kind ≠ .swap ∧ e.kind ≠ j.kind) :
    k.mayStart p.length j = true := by
  have swaps : p.any (·.kind == .swap) = false := List.any_eq_false.2 fun e he => by simp [(first e he).1]
  have alike : p.any (·.kind == j.kind) = false := List.any_eq_false.2 fun e he => by simp [(first e he).2]
  simp only [Course.mayStart, queue, List.take_left, Job.waiting_of_joined joined, waits, swaps, alike, if_neg kind, Bool.not_false,
    Bool.and_true]

/-- A full swap may be performed where it is the oldest entry (R127). -/
theorem Course.mayStart_of_oldest {k : Course} {j : Job} (kind : j.kind = .swap) (joined : j.joins.length = 8)
    (waits : j.started = false) : k.mayStart 0 j = true := by
  simp only [Course.mayStart, List.take_zero, Job.waiting_of_joined joined, waits, kind, if_true]
  rfl

/-! ### Starting (R125, R127, R130) -/

theorem exec_arrayJobStart {s : State} {c : Nat} {p q : List Job} {j : Job} (queue : (s.course c).jobs = p ++ j :: q)
    (runs : s.courseRuns c = true) (kind : j.kind ≠ .swap) (first : (s.course c).settleBands.mayStart p.length j = true)
    (status : j.status = 0) (usable : j.bands &&& (s.course c).pending = 0 ∨ j.kind = .load ∨ j.disagree = true) :
    exec (.arrayJobStart c p.length) s = .next (s.setCourse c
      { (s.course c).settleBands with jobs := p ++ j.start (s.course c).settleBands (s.courseCycles c) :: q }) := by
  have ready : (j.kind == .load || j.disagree || j.bands &&& (s.course c).pending == 0) = true := by
    simp only [Bool.or_eq_true, beq_iff_eq]
    exact usable.symm
  show execArrayJobStart c p.length s = _
  simp only [execArrayJobStart, Course.settleBands_jobs, Course.settleBands_pending, queue, getElem?_append_cons, runs, first, status,
    ready, bne_iff_ne.2 kind, BEq.rfl, Bool.and_true, if_true, State.modJob, State.modCourse_setCourse, modify_append_cons]

theorem Job.start_of_disagree {j : Job} (disagree : j.disagree = true) (k : Course) (cycle : Nat) :
    j.start k cycle = { j with status := 2 } := if_pos disagree

theorem Job.start_load {j : Job} (agree : j.disagree = false) (kind : j.kind = .load) (k : Course) (cycle : Nat) :
    j.start k cycle = { j with started := true, startCycle := cycle, effGroups := 0xFF, effBands := k.present } := by
  rw [Job.start, agree, if_neg Bool.false_ne_true, if_pos kind]

/-- A product that starts has its effective sets fixed, and ends at once with status 3 where it does not fit the plane. -/
theorem Job.start_product {j : Job} (agree : j.disagree = false) (kind : j.kind = .product) (k : Course) (cycle : Nat) :
    (j.start k cycle).started = true ∧ (j.start k cycle).effBands = j.bands &&& k.on ∧ (j.start k cycle).startCycle = cycle ∧
      ((j.start k cycle).status = 3 ↔ j.fits k.station (j.bands &&& k.on) = false) := by
  rw [Job.start, agree, if_neg Bool.false_ne_true, if_neg (by rw [kind]; nofun)]
  dsimp only
  split
  next unfit => exact ⟨rfl, rfl, rfl, iff_of_true rfl (Bool.not_eq_true' _ ▸ unfit)⟩
  next fit =>
    refine ⟨rfl, rfl, rfl, iff_of_false ?_ fun unfit => fit (Bool.not_eq_true' _ ▸ unfit)⟩
    dsimp only
    split <;> decide

/-- The checks of a product against the stationary plane (R123, R129, R134). -/
theorem Job.fits_iff (j : Job) (p : Plane) (bands : BitVec 4) : j.fits p bands = true ↔
    p.fmt = some j.awin ∧ acceptsOut j.awin j.owin = true ∧ ¬(j.awin = 7 ∧ j.transpose = true) ∧ bands &&& p.empty = 0 := by
  simp only [Job.fits, Bool.and_eq_true, beq_iff_eq, Bool.not_eq_true', ← Bool.not_eq_true, and_assoc]

/-! ### Running (R128, R153) -/

theorem exec_arrayInjection {s : State} {c : Nat} {p q : List Job} {j : Job} (queue : (s.course c).jobs = p ++ j :: q)
    (runs : s.courseRuns c = true) (kind : j.kind = .product) (started : j.started = true) (goes : j.isOver = false) :
    let rows := (List.range (rowsPerInjection j.awin)).map (j.row + ·)
    s.rowsShut c j (if rows.any (s.rowError c j) then List.range j.rows else rows) = false →
    exec (.arrayInjection c p.length) s = .next (rows.foldl (fun u _ => u.arrayRow c p.length) (s.beforeRow c p.length j)) := by
  intro rows opened
  show execArrayInjection c p.length s = _
  have ready : (j.kind != .product || !j.started || j.isOver || !s.courseRuns c) = false := by
    rw [kind, started, goes, runs]
    rfl
  simp only [execArrayInjection, queue, getElem?_append_cons, ready, Bool.false_eq_true, if_false]
  exact congrArg _ (if_neg (ne_true_of_eq_false opened))

/-- An armed injection is taken at the first row: its job has it, and `rinject` is disarmed (R153; log entry 73). -/
theorem State.course_beforeRow_armed {s : State} {c i : Nat} {j : Job} (armed : j.armed = true) (row : j.row = 0)
    (ready : (s.course c).rinject.getLsbD 63 = true) :
    ((s.beforeRow c i j).course c).rinject = (s.course c).rinject &&& 0x7FFFFFFFFFFFFFFF ∧
      ((s.beforeRow c i j).course c).jobs[i]?.map (fun e => (e.armed, e.inject)) =
        (s.course c).jobs[i]?.map fun _ => (false, some (s.course c).rinject) := by
  simp only [State.beforeRow, armed, row, ready, BEq.rfl, Bool.and_true, if_true, State.modJob, State.course_modCourse_self,
    List.getElem?_modify_eq, Option.map_eq_map, Option.map_map]
  exact ⟨rfl, rfl⟩

/-! ### Completing (R124, R136) -/

/-- The fields of a completion's payload lie apart (R136). -/
theorem Job.fld_payload (j : Job) (cycles : Nat) : fld (j.payload cycles) 16 4 = j.status % 16 ∧
    fld (j.payload cycles) 0 12 = j.id.toNat ∧ fld (j.payload cycles) 20 4 = j.effBands.toNat ∧
    fld (j.payload cycles) 24 8 = j.effGroups.toNat ∧ fld (j.payload cycles) 12 4 = if j.kind = .load then 1 else 2 := by
  have time : (if j.started then cycles % 2 ^ 32 else 0) < 2 ^ 32 := by split <;> omega
  have kinds : (if j.kind = .load then 1 else 2) < 3 := by split <;> omega
  have id := j.id.isLt
  have bands := j.effBands.isLt
  have groups := j.effGroups.isLt
  have status := Nat.mod_lt j.status (show 0 < 16 by decide)
  simp only [fld, Job.payload, at', BitVec.toNat_ofNat]
  generalize (if j.started then cycles % 2 ^ 32 else 0) = t at time ⊢
  generalize (if j.kind = .load then 1 else 2) = kd at kinds ⊢
  generalize j.status % 16 = st at status ⊢
  omega

/-- A product that has ended leaves the queue and posts its completions. -/
theorem exec_arrayJobCompletion_product {s : State} {c : Nat} {p q : List Job} {j : Job}
    (queue : (s.course c).jobs = p ++ j :: q) (runs : s.courseRuns c = true) (kind : j.kind = .product) (ended : j.isOver = true) :
    exec (.arrayJobCompletion c p.length) s = .next ((s.setCourse c { s.course c with jobs := p ++ q }).postJob c j) := by
  show execArrayJobCompletion c p.length s = _
  have due : (j.kind == .swap || !j.isOver || !s.courseRuns c) = false := by
    rw [kind, ended, runs]
    rfl
  have other : ¬j.kind = .load := by
    rw [kind]
    nofun
  simp only [execArrayJobCompletion, queue, getElem?_append_cons, due, Bool.false_eq_true, if_false, if_neg other, Option.getD_some,
    State.modCourse, dropAt_append_cons]

/-- A load that has ended first fills the shadow plane, which may change its own entry. -/
theorem exec_arrayJobCompletion_load {s : State} {c : Nat} {p q : List Job} {j : Job}
    (queue : (s.course c).jobs = p ++ j :: q) (runs : s.courseRuns c = true) (kind : j.kind = .load) (ended : j.isOver = true) :
    exec (.arrayJobCompletion c p.length) s = .next
      (let t := (s.finishLoad c p.length j).markArray c j
       let e := ((t.course c).jobs[p.length]?).getD j
       (t.modCourse c fun k => { k with jobs := dropAt p.length k.jobs }).postJob c e) := by
  show execArrayJobCompletion c p.length s = _
  have due : (j.kind == .swap || !j.isOver || !s.courseRuns c) = false := by
    rw [kind, ended, runs]
    rfl
  simp only [execArrayJobCompletion, queue, getElem?_append_cons, due, Bool.false_eq_true, if_false, if_pos kind]

/-! ### Swaps and abandoned entries (R126, R137) -/

theorem exec_arraySwap {s : State} {c : Nat} {q : List Job} {j : Job} (queue : (s.course c).jobs = j :: q)
    (runs : s.courseRuns c = true) (kind : j.kind = .swap) (joined : j.joins.length = 8) (waits : j.started = false) :
    let k := (s.course c).settleBands
    exec (.arraySwap c 0) s =
      .next ((s.setCourse c { k with station := k.shadow, shadow := k.station, jobs := q }).markArray c j) := by
  have ready : (j.kind == .swap && (s.course c).mayStart 0 j && s.courseRuns c) = true := by
    rw [kind, Course.mayStart_of_oldest kind joined waits, runs]
    rfl
  show execArraySwap c 0 s = _
  simp only [execArraySwap, queue, List.getElem?_cons_zero, ready, if_true, State.modCourse, Course.settleBands_jobs]
  rfl

/-- The oldest entry is abandoned where eight entries all wait and a join is parked: a swap posts nothing, and a load leaves the shadow
plane undefined (R126, R133, R136). -/
theorem exec_arrayAbandon {s : State} {c : Nat} {q : List Job} {j : Job} (queue : (s.course c).jobs = j :: q)
    (runs : s.courseRuns c = true) (full : 8 ≤ (s.course c).jobs.length) (waiting : ∀ e ∈ (s.course c).jobs, e.joins.length < 8)
    (parked : s.arrayParked c = true) : exec (.arrayAbandon c) s = .next
      (let k := { s.course c with jobs := q }
       match j.kind with
       | .swap => s.setCourse c k
       | .load => (s.setCourse c k.loseShadow).postJob c { j with status := 4 }
       | .product => (s.setCourse c k).postJob c { j with status := 4 }) := by
  have due : (decide (8 ≤ (s.course c).jobs.length) && (s.course c).jobs.all Job.waiting && s.arrayParked c && s.courseRuns c) =
      true := by
    have all : (s.course c).jobs.all Job.waiting = true := List.all_eq_true.2 fun e he => decide_eq_true (waiting e he)
    rw [decide_eq_true full, all, parked, runs]
    rfl
  rw [queue] at due
  show execArrayAbandon c s = _
  simp only [execArrayAbandon, queue, due, if_true]
  cases j.kind with
  | swap => rfl
  | product => rfl
  | load =>
    simp only [reduceCtorEq, if_false, if_true, State.modCourse_modCourse]
    rfl

/-! ### Bands (R131, R138, R372) -/

/-- Bit b is set in a word, the others keep their values. -/
theorem getLsbD_or_bit {w : Nat} (v : BitVec w) (b : Nat) {i : Nat} (hi : i < w) :
    (v ||| 1#w <<< b).getLsbD i = (v.getLsbD i || i == b) := by
  rw [← BitVec.twoPow_eq, BitVec.getLsbD_or, BitVec.getLsbD_twoPow]
  by_cases h : b = i
  · subst h; simp [hi]
  · simp [h, Ne.symm h]

/-- Bit b is cleared in a word, the others keep their values. -/
theorem getLsbD_and_not_bit {w : Nat} (v : BitVec w) (b : Nat) {i : Nat} (hi : i < w) :
    (v &&& ~~~(1#w <<< b)).getLsbD i = (v.getLsbD i && i != b) := by
  rw [← BitVec.twoPow_eq, BitVec.getLsbD_and, BitVec.getLsbD_not, BitVec.getLsbD_twoPow]
  by_cases h : b = i
  · subst h; simp [hi]
  · simp [h, Ne.symm h, hi]

theorem Course.holdsBand_eq_true_iff (k : Course) (b : Nat) :
    k.holdsBand b = true ↔ ∃ j ∈ k.jobs, j.started = true ∧ j.effBands.getLsbD b = true := by
  simp only [Course.holdsBand, List.any_eq_true, Bool.and_eq_true]

/-- A band that is leaving and that no started job holds loses its power and the weights of both planes in its columns (R138). -/
theorem Course.powerOff_of_due {k : Course} {b : Nat} (leaving : k.leaving.getLsbD b = true)
    (free : ∀ j ∈ k.jobs, j.started = true → j.effBands.getLsbD b = false) : k.powerOff b =
      let e := k.emptyBand b
      { e with leaving := k.leaving &&& ~~~(1#4 <<< b), lost := k.lost + 2, station := e.station.lose b k.lost,
               shadow := e.shadow.lose b (k.lost + 1) } := by
  have unheld : k.holdsBand b = false := Bool.eq_false_iff.2 fun held => by
    obtain ⟨j, hj, started, holds⟩ := (k.holdsBand_eq_true_iff b).1 held
    exact Bool.false_ne_true ((free j hj started).symm.trans holds)
  rw [Course.powerOff, leaving, unheld]
  rfl

/-- A band that is not leaving, or that a started job holds, keeps its power. -/
theorem Course.powerOff_of_kept {k : Course} {b : Nat}
    (kept : k.leaving.getLsbD b = false ∨ ∃ j ∈ k.jobs, j.started = true ∧ j.effBands.getLsbD b = true) : k.powerOff b = k := by
  refine if_neg fun due => ?_
  rw [Bool.and_eq_true, Bool.not_eq_true', Bool.eq_false_iff, Ne, k.holdsBand_eq_true_iff] at due
  obtain stays | held := kept
  · exact Bool.false_ne_true (stays.symm.trans due.1)
  · exact due.2 held

theorem exec_bandSwitchOn {s : State} {c : Nat} {b : Fin 4} {t f : Nat}
    (asked : Map.find (s.course c).switching b.val = some (t, f)) : exec (.bandSwitchOn c b) s =
      .next (if f + 16 * 80 ≤ (s.course c).clock80 ∧ s.beforeInTurn c t b.val = false ∧ s.beganNow (c / 32) < 4 then
        s.setCourse c { s.course c with switching := Map.erase (s.course c).switching b.val,
                                        began := Map.set (s.course c).began b.val (s.devTime, (s.course c).clock80) }
      else s) := by
  show execBandSwitchOn c b s = _
  simp only [execBandSwitchOn, asked, Course.cyclesPast, Bool.and_eq_true, decide_eq_true_eq, Bool.not_eq_true', and_assoc]
  rfl

theorem exec_bandPendingClear {s : State} {c : Nat} {b : Fin 4} {t f : Nat}
    (began : Map.find (s.course c).began b.val = some (t, f)) : exec (.bandPendingClear c b) s =
      .next (if f + 1250 * 80 ≤ (s.course c).clock80 then
        s.setCourse c { s.course c with began := Map.erase (s.course c).began b.val,
                                        pending := (s.course c).pending &&& ~~~(1#4 <<< b.val) }
      else s) := by
  show execBandPendingClear c b s = _
  simp only [execBandPendingClear, began, Course.cyclesPast, decide_eq_true_eq]
  rfl

/-- The weights outside a band's columns are not lost with it. -/
theorem Plane.lane_lose_ne (p : Plane) {b i r n : Nat} (row : r < p.w.length) (column : n < 256) (other : n / 64 ≠ b) :
    lane ((p.lose b i).w.getD r []) n = lane (p.w.getD r []) n := by
  simp only [Plane.lose, lane, List.getD_eq_getElem?_getD, List.getElem?_map, List.getElem?_zipIdx, List.getElem?_eq_getElem row,
    List.getElem?_range column, Option.map_some, Option.getD_some, if_neg other]

/-- Settles O46, step by step: `Job.start_product` and `Job.fits_iff` for the start, `Job.fld_payload` for the completion, and the rule of
each step for its new state. -/
theorem arraySteps : Obligations.ArraySteps := by
  refine ⟨fun s c p q j queue runs => ⟨?_, fun cycle => ⟨?_, ?_, ?_⟩, ?_, ?_, ?_, ?_, ?_, ?_, ?_, ?_, ?_⟩,
    fun s c b t f => ⟨?_, ?_, ?_, ?_, ?_, ?_, ?_⟩, fun p b i r n row column other => ⟨p.lane_lose_ne row column other, rfl⟩⟩
  · intro kind joined waits status first usable
    exact exec_arrayJobStart queue runs kind
      (Course.mayStart_of_first ((s.course c).settleBands_jobs.trans queue) kind joined waits first) status usable
  · intro disagree
    rw [Job.start_of_disagree disagree]
  · intro agree kind
    rw [Job.start_load agree kind]
    exact ⟨rfl, rfl⟩
  · intro agree kind
    have outcome := Job.start_product agree kind (s.course c).settleBands cycle
    rwa [Course.settleBands_on, ← Bool.not_eq_true, Job.fits_iff] at outcome
  · exact exec_arrayInjection queue runs
  · intro armed row ready
    have taken := State.course_beforeRow_armed (i := p.length) armed row ready
    rwa [queue, getElem?_append_cons] at taken
  · exact exec_arrayJobCompletion_product queue runs
  · exact exec_arrayJobCompletion_load queue runs
  · rintro _ cycles rfl
    exact j.fld_payload cycles
  · rintro kind joined waits rfl
    exact exec_arraySwap queue runs kind joined waits
  · rintro rfl full waiting parked kind
    rw [exec_arrayAbandon queue runs full waiting parked, kind]
  · rintro rfl full waiting parked kind
    rw [exec_arrayAbandon queue runs full waiting parked, kind]
    rfl
  · rintro rfl full waiting parked kind
    rw [exec_arrayAbandon queue runs full waiting parked, kind]
  · intro asked elapsed turn room
    rw [exec_bandSwitchOn asked, if_pos ⟨elapsed, turn, room⟩]
  · intro asked early
    rw [exec_bandSwitchOn asked, if_neg fun due => Nat.not_le.2 early due.1]
  · intro began early
    rw [exec_bandPendingClear began, if_neg (Nat.not_le.2 early)]
  · intro began elapsed
    refine ⟨_, ?_, fun i hi => getLsbD_and_not_bit (s.course c).pending b.val hi⟩
    rw [exec_bandPendingClear began, if_pos elapsed]
  · intro leaving free
    refine ⟨_, ?_, fun i hi => getLsbD_and_not_bit (s.course c).leaving b.val hi⟩
    show Host.Outcome.next (s.setCourse c ((s.course c).powerOff b.val)) = _
    rw [Course.powerOff_of_due leaving free]
  · exact fun i hi => ⟨getLsbD_or_bit _ _ hi, getLsbD_or_bit _ _ hi⟩
  · intro kept
    show Host.Outcome.next (s.setCourse c ((s.course c).powerOff b.val)) = _
    rw [Course.powerOff_of_kept kept]

end Sys2Proof.Machine
end

section
/-! # Residue conversion and channel arithmetic

A residue form writes the four band registers of a quad from the channels of each element (R146, R155, R156, R159). -/

namespace Sys2Proof.Machine

open Sys2Proof

/-- A residue form writes the channels that its operation gives each element. -/
theorem givesQ_of {i : Instr} {d : Quad} {la : Nat} {f : State → Ctx → Nat → Nat → Nat} {op : Word → State → Res}
    (h : ∀ s, exec i s = issueV i s op)
    (hop : ∀ m s, op m s = .done s (quadResults d m la (f s (s.ctx s.cur)))) : GivesQ i d la f := by
  intro s hs
  rw [exec_issueV_performs h hs, hop, State.before_cur]
  rfl

/-- Settles O18, by `givesQ_of` for each form. -/
theorem residueResults : Obligations.ResidueResults := fun d a v b x la _ band =>
  ⟨givesQ_of (op := doRfwd false d v la) (fun _ => rfl) fun _ _ => rfl,
   givesQ_of (op := doRfwd true d v la) (fun _ => rfl) fun _ _ => rfl,
   givesQ_of (op := doRop (fun x y => x + y) d a (.q b)) (fun _ => rfl) fun _ _ => rfl,
   givesQ_of (op := doRop (fun x y => x + y) d a (.x x)) (fun _ => rfl) fun _ _ => rfl,
   givesQ_of (op := doRop (fun x y => x * y) d a (.q b)) (fun _ => rfl) fun _ _ => rfl,
   givesQ_of (op := doRop (fun x y => x * y) d a (.x x)) (fun _ => rfl) fun _ _ => rfl,
   givesQ_of (op := doRbase d a band la) (fun _ => rfl) fun _ _ => rfl⟩

end Sys2Proof.Machine
end

section
/-! # The residue code

Reconstruction from distinct channels has the residues that were given and lies within half of the channels' product, so that it is
the one number of that range with these residues (R149). Any six channels hold the range of the six working channels, which are the six
least moduli; two numbers of that range that agree on six channels are therefore equal, and a wrong channel is found by
leaving each one out in turn. -/

namespace Sys2Proof.Machine

open Sys2Proof

/-! ### Moduli (R142) -/

theorem modulus_pos : ∀ c < 8, 0 < modulus c := by decide

theorem modulus_coprime : ∀ c < 8, ∀ d < 8, c ≠ d → (modulus c).Coprime (modulus d) := by decide

theorem foldl_mul_modulus (cs : List Nat) (q : Nat) : cs.foldl (fun p c => p * modulus c) q = q * prodOf cs := by
  rw [prodOf]
  induction cs generalizing q with
  | nil => exact (Nat.mul_one q).symm
  | cons c cs ih => rw [List.foldl_cons, List.foldl_cons, ih, ih (1 * modulus c), Nat.one_mul, Nat.mul_assoc]

theorem prodOf_cons (c : Nat) (cs : List Nat) : prodOf (c :: cs) = modulus c * prodOf cs := by
  rw [← Nat.one_mul (modulus c)]
  exact foldl_mul_modulus cs (1 * modulus c)

theorem modulus_dvd_prodOf {cs : List Nat} {c : Nat} (h : c ∈ cs) : modulus c ∣ prodOf cs := by
  induction h with
  | head cs => exact prodOf_cons c cs ▸ Nat.dvd_mul_right ..
  | tail d _ ih => exact prodOf_cons d _ ▸ Nat.dvd_mul_left_of_dvd ih _

/-- A channel's modulus is prime to the product of others. -/
theorem modulus_coprime_prodOf {c : Nat} (hc : c < 8) {cs : List Nat} (channels : ∀ d ∈ cs, d < 8) (fresh : c ∉ cs) :
    (modulus c).Coprime (prodOf cs) := by
  induction cs with
  | nil => exact Nat.coprime_one_right _
  | cons d cs ih =>
    obtain ⟨hd, hcs⟩ := List.forall_mem_cons.1 channels
    obtain ⟨apart, fresh⟩ := not_or.1 (mt List.mem_cons.2 fresh)
    rw [prodOf_cons]
    exact (modulus_coprime c hc d hd apart).mul_right (ih hcs fresh)

/-- A number that every one of some distinct channels divides is a multiple of their product. -/
theorem prodOf_dvd {cs : List Nat} (channels : ∀ c ∈ cs, c < 8) (distinct : cs.Nodup) {n : Nat}
    (h : ∀ c ∈ cs, modulus c ∣ n) : prodOf cs ∣ n := by
  induction cs with
  | nil => exact Nat.one_dvd n
  | cons c cs ih =>
    obtain ⟨hc, hcs⟩ := List.forall_mem_cons.1 channels
    obtain ⟨fresh, distinct⟩ := List.nodup_cons.1 distinct
    obtain ⟨divides, h⟩ := List.forall_mem_cons.1 h
    rw [prodOf_cons]
    exact (modulus_coprime_prodOf hc hcs fresh).mul_dvd_of_dvd_of_dvd divides (ih hcs distinct h)

/-- Two numbers with the same residues in some distinct channels differ by a multiple of their product. -/
theorem prodOf_dvd_sub {cs : List Nat} (channels : ∀ c ∈ cs, c < 8) (distinct : cs.Nodup) {m n : Int}
    (h : ∀ c ∈ cs, m % modulus c = n % modulus c) : (prodOf cs : Int) ∣ m - n :=
  Int.ofNat_dvd_left.2 <| prodOf_dvd channels distinct fun c hc => Int.ofNat_dvd_left.1 <|
    Int.dvd_of_emod_eq_zero (Int.emod_eq_emod_iff_emod_sub_eq_zero.1 (h c hc))

/-! ### Inverses

`crtStep` inverts the product q of the moduli taken so far as q^(p − 2) modulo p. That this is its inverse, q^(p − 1) ≡ 1, holds
of a product where it holds of the factors, and so rests on the 56 pairs of distinct moduli. -/

theorem powMod_mod (p n b e : Nat) (he : e < 2 ^ n) : powMod p n b e % p = b ^ e % p := by
  induction n generalizing b e with
  | zero =>
    obtain rfl : e = 0 := by omega
    rfl
  | succ n ih =>
    have square : powMod p n (b * b % p) (e / 2) % p = b ^ (2 * (e / 2)) % p := by
      rw [ih _ _ (by omega), ← Nat.pow_mod, Nat.pow_mul, Nat.pow_two]
    rw [powMod]
    split
    next odd =>
      have halves : b ^ e = b ^ (2 * (e / 2)) * b := by rw [← Nat.pow_succ]; congr 1; omega
      rw [halves, Nat.mod_mod, Nat.mul_mod, square, ← Nat.mul_mod]
    next even =>
      have halves : 2 * (e / 2) = e := by omega
      rw [square, halves]

/-- The power p − 1 of q is one modulo p, as Fermat's theorem has it of a prime p that does not divide q. -/
def FermatOne (q p : Nat) : Prop := q ^ (p - 1) % p = 1 % p

theorem FermatOne.one (p : Nat) : FermatOne 1 p := by rw [FermatOne, Nat.one_pow]

theorem FermatOne.mul {q r p : Nat} (hq : FermatOne q p) (hr : FermatOne r p) : FermatOne (q * r) p := by
  rw [FermatOne, Nat.mul_pow, Nat.mul_mod, hq, hr, ← Nat.mul_mod]

theorem powMod_modulus : ∀ c < 8, ∀ d < 8, d ≠ c →
    powMod (modulus c) 10 (modulus d) (modulus c - 1) % modulus c = 1 % modulus c := by decide

theorem modulus_exponent : ∀ c < 8, 2 ≤ modulus c ∧ modulus c - 1 < 2 ^ 10 := by decide

theorem FermatOne.modulus {c d : Nat} (hc : c < 8) (hd : d < 8) (apart : d ≠ c) :
    FermatOne (modulus d) (modulus c) := by
  obtain ⟨-, exponent⟩ := modulus_exponent c hc
  rw [FermatOne, ← powMod_mod _ 10 _ _ exponent, powMod_modulus c hc d hd apart]

theorem mul_powMod_mod {c q : Nat} (hc : c < 8) (fermat : FermatOne q (modulus c)) :
    q * powMod (modulus c) 10 (q % modulus c) (modulus c - 2) % modulus c = 1 % modulus c := by
  obtain ⟨two, exponent⟩ := modulus_exponent c hc
  have succ : q * q ^ (modulus c - 2) = q ^ (modulus c - 1) := by
    rw [Nat.mul_comm, ← Nat.pow_succ]; congr 1; omega
  rw [Nat.mul_mod, powMod_mod _ _ _ _ (by omega), ← Nat.pow_mod, ← Nat.mul_mod, succ, fermat]

/-! ### Reconstruction (R149) -/

/-- The multiple of q that `crtStep` adds for channel c. -/
def crtDigit (x : Nat → Nat) (c v q : Nat) : Nat :=
  (x c + modulus c - v % modulus c) % modulus c * powMod (modulus c) 10 (q % modulus c) (modulus c - 2) % modulus c

theorem crtStep_cons (x : Nat → Nat) (c : Nat) (cs : List Nat) (v q : Nat) :
    crtStep x (c :: cs) v q = crtStep x cs (v + q * crtDigit x c v q) (q * modulus c) := rfl

theorem add_mul_crtDigit_mod (x : Nat → Nat) {c v q : Nat} (hc : c < 8) (fermat : FermatOne q (modulus c)) :
    (v + q * crtDigit x c v q) % modulus c = x c % modulus c := by
  have inverse := mul_powMod_mod hc fermat
  have least : v % modulus c < modulus c := Nat.mod_lt _ (modulus_pos c hc)
  rw [crtDigit]
  generalize powMod (modulus c) 10 (q % modulus c) (modulus c - 2) = inv at *
  generalize modulus c = p at *
  have digit : q * ((x c + p - v % p) % p * inv % p) % p = (x c + p - v % p) % p :=
    calc q * ((x c + p - v % p) % p * inv % p) % p
      _ = (x c + p - v % p) * (q * inv) % p := by rw [Nat.mul_mod_mod, Nat.mul_left_comm, Nat.mod_mul_mod]
      _ = (x c + p - v % p) % p := by rw [Nat.mul_mod, inverse, ← Nat.mul_mod, Nat.mul_one]
  calc (v + q * ((x c + p - v % p) % p * inv % p)) % p
    _ = (v % p + (x c + p - v % p)) % p := by rw [Nat.add_mod, digit, ← Nat.mod_mod v, ← Nat.add_mod, Nat.mod_mod]
    _ = (x c + p) % p := by congr 1; omega
    _ = x c % p := Nat.add_mod_right ..

theorem crtStep_snd (x : Nat → Nat) (cs : List Nat) (v q : Nat) : (crtStep x cs v q).2 = q * prodOf cs := by
  induction cs generalizing v q with
  | nil => exact (Nat.mul_one q).symm
  | cons c cs ih => rw [crtStep_cons, ih, prodOf_cons, Nat.mul_assoc]

theorem crtStep_fst_lt (x : Nat → Nat) {cs : List Nat} (channels : ∀ c ∈ cs, c < 8) {v q : Nat} (hv : v < q) :
    (crtStep x cs v q).1 < (crtStep x cs v q).2 := by
  induction cs generalizing v q with
  | nil => exact hv
  | cons c cs ih =>
    obtain ⟨hc, hcs⟩ := List.forall_mem_cons.1 channels
    have digit : crtDigit x c v q + 1 ≤ modulus c := Nat.mod_lt _ (modulus_pos c hc)
    refine ih hcs ?_
    calc v + q * crtDigit x c v q
      _ < q + q * crtDigit x c v q := Nat.add_lt_add_right hv _
      _ = q * (crtDigit x c v q + 1) := by rw [Nat.mul_succ, Nat.add_comm]
      _ ≤ q * modulus c := Nat.mul_le_mul_left q digit

/-- Each step keeps the residues found before it and adds that of its channel. -/
theorem crtStep_fst_mod (x : Nat → Nat) {cs : List Nat} (channels : ∀ c ∈ cs, c < 8) (distinct : cs.Nodup) {v q : Nat}
    (fermat : ∀ c ∈ cs, FermatOne q (modulus c)) :
    (crtStep x cs v q).1 % q = v % q ∧ ∀ c ∈ cs, (crtStep x cs v q).1 % modulus c = x c % modulus c := by
  induction cs generalizing v q with
  | nil => exact ⟨rfl, nofun⟩
  | cons c cs ih =>
    obtain ⟨hc, hcs⟩ := List.forall_mem_cons.1 channels
    obtain ⟨fresh, distinct⟩ := List.nodup_cons.1 distinct
    obtain ⟨hq, fermat⟩ := List.forall_mem_cons.1 fermat
    obtain ⟨kept, found⟩ := ih hcs distinct (v := v + q * crtDigit x c v q) (q := q * modulus c) fun d hd =>
      (fermat d hd).mul (.modulus (hcs d hd) hc fun e => fresh (e ▸ hd))
    rw [crtStep_cons]
    refine ⟨?_, List.forall_mem_cons.2 ⟨?_, found⟩⟩
    · rw [← Nat.mod_mod_of_dvd _ (Nat.dvd_mul_right q (modulus c)), kept, Nat.mod_mod_of_dvd _ (Nat.dvd_mul_right ..),
        Nat.add_mul_mod_self_left]
    · rw [← Nat.mod_mod_of_dvd _ (Nat.dvd_mul_left (modulus c) q), kept, Nat.mod_mod_of_dvd _ (Nat.dvd_mul_left ..),
        add_mul_crtDigit_mod x hc hq]

theorem crt_eq_ite (cs : List Nat) (x : Nat → Nat) : crt cs x =
    if (prodOf cs - 1) / 2 < (crtStep x cs 0 1).1 then ((crtStep x cs 0 1).1 : Int) - prodOf cs
    else (crtStep x cs 0 1).1 := by
  have product := crtStep_snd x cs 0 1
  rw [Nat.one_mul] at product
  rw [← product]
  rfl

section
variable {cs : List Nat} (channels : ∀ c ∈ cs, c < 8)
include channels

/-- The reconstructed number lies within half of the product of its channels. -/
theorem two_mul_natAbs_crt_le (x : Nat → Nat) : 2 * (crt cs x).natAbs ≤ prodOf cs := by
  have bound := crtStep_fst_lt x channels Nat.zero_lt_one
  rw [crtStep_snd, Nat.one_mul] at bound
  rw [crt_eq_ite]
  split <;> omega

variable (distinct : cs.Nodup)
include distinct

/-- It has the residues that were given. -/
theorem crt_emod (x : Nat → Nat) {c : Nat} (hc : c ∈ cs) : crt cs x % modulus c = (x c : Int) % modulus c := by
  obtain ⟨-, found⟩ := crtStep_fst_mod x channels distinct (v := 0) (q := 1) fun _ _ => .one _
  have least : ((crtStep x cs 0 1).1 : Int) % modulus c = (x c : Int) % modulus c := congrArg Nat.cast (found c hc)
  rw [crt_eq_ite]
  split
  · obtain ⟨k, hk⟩ := modulus_dvd_prodOf hc
    rw [hk, Int.natCast_mul, Int.sub_mul_emod_self_left, least]
  · exact least

/-- It is the one number of its range with these residues. -/
theorem crt_eq_of_emod {x : Nat → Nat} {n : Int} (range : 2 * n.natAbs < prodOf cs)
    (residues : ∀ c ∈ cs, n % modulus c = (x c : Int) % modulus c) : crt cs x = n := by
  have bound := two_mul_natAbs_crt_le channels x
  have agree := prodOf_dvd_sub channels distinct fun c hc => (crt_emod channels distinct x hc).trans (residues c hc).symm
  have equal : crt cs x - n = 0 := Int.eq_zero_of_dvd_of_natAbs_lt_natAbs agree (by omega)
  omega

end

/-! ### The check in the normal mode (R143, R149) -/

/-- The channels other than one. -/
def channelsBut (c : Nat) : List Nat := (List.range 8).filter (· != c)

theorem mem_channelsBut {c k : Nat} : k ∈ channelsBut c ↔ k < 8 ∧ k ≠ c := by
  rw [channelsBut, List.mem_filter, List.mem_range, bne_iff_ne]

theorem channelsBut_nodup (c : Nat) : (channelsBut c).Nodup := List.Pairwise.filter _ List.nodup_range

theorem lt_of_mem_channelsBut {c k : Nat} (h : k ∈ channelsBut c) : k < 8 := (mem_channelsBut.1 h).1

theorem lt_of_mem_working {k : Nat} (h : k ∈ working .normal) : k < 8 :=
  Nat.lt_trans (List.mem_range.1 h) (by decide)

theorem working_nodup : (working .normal).Nodup := List.nodup_range

theorem prodOf_working_odd : prodOf (working .normal) % 2 = 1 := by decide

theorem prodOf_working_le_channelsBut : ∀ c < 8, prodOf (working .normal) ≤ prodOf (channelsBut c) := by decide

/-- The six working channels have the least moduli. -/
theorem prodOf_working_le_without_two :
    ∀ c < 8, ∀ d < 8, c ≠ d → prodOf (working .normal) ≤ prodOf ((channelsBut c).filter (· != d)) := by decide

/-- In the normal mode each channel is left out of all eight in turn. -/
theorem channels_normal : working .normal ++ checks .normal = List.range 8 ∧
    (List.range 8).filter (fun c => (working .normal).contains c || (checks .normal).contains c) = List.range 8 := by decide

theorem checkElem_normal_of_agree {y : Nat → Nat}
    (agree : (checks .normal).all fun c => y c == residue (crt (working .normal) y) c) :
    checkElem .normal y = .consistent := by
  have checked : (checks .normal).isEmpty = false := rfl
  simp only [checkElem, checked, Bool.false_eq_true, if_false, if_pos agree]

/-- The channel found is the first without which the others give a number in range. -/
theorem checkElem_normal_of_first {y : Nat → Nat} {c : Nat} (hc : c < 8)
    (disagree : ¬ (checks .normal).all fun k => y k == residue (crt (working .normal) y) k)
    (fits : (crt (channelsBut c) y).natAbs ≤ (prodOf (working .normal) - 1) / 2)
    (first : ∀ d < c, (prodOf (working .normal) - 1) / 2 < (crt (channelsBut d) y).natAbs) :
    checkElem .normal y = .mismatch c := by
  obtain ⟨joined, all⟩ := channels_normal
  have checked : (checks .normal).isEmpty = false := rfl
  have found : (List.range 8).find? (fun d => decide
      ((crt ((List.range 8).filter (· != d)) y).natAbs ≤ (prodOf (working .normal) - 1) / 2)) = some c :=
    List.find?_range_eq_some.2 ⟨decide_eq_true fits, List.mem_range.2 hc, fun d hd => by
      rw [Bool.not_eq_true', decide_eq_false_iff_not]
      exact Nat.not_le.2 (first d hd)⟩
  simp only [checkElem, checked, Bool.false_eq_true, if_false, if_neg disagree, all, joined, found]

theorem residue_eq_iff {n : Int} {c : Nat} (hc : c < 8) {a : Nat} : a = residue n c ↔ (a : Int) = n % modulus c := by
  have nonneg : 0 ≤ n % (modulus c : Int) := Int.emod_nonneg _ (Int.natCast_ne_zero.2 (Nat.ne_of_gt (modulus_pos c hc)))
  rw [residue]
  omega

theorem crt_emod_eq {cs : List Nat} (channels : ∀ c ∈ cs, c < 8) (distinct : cs.Nodup) {y : Nat → Nat} {c : Nat}
    (hc : c ∈ cs) (reduced : y c < modulus c) : crt cs y % modulus c = y c :=
  (crt_emod channels distinct y hc).trans (Int.emod_eq_of_lt (Int.natCast_nonneg _) (Int.ofNat_lt.2 reduced))

section
variable {x : Int} {y : Nat → Nat} {c : Nat} (hc : c < 8) (range : 2 * x.natAbs < prodOf (working .normal))
  (right : ∀ k, k < 8 → k ≠ c → (y k : Int) = x % modulus k)
include hc range right

/-- The number is recovered from the right channels. -/
theorem crt_channelsBut_eq : crt (channelsBut c) y = x := by
  have six := prodOf_working_le_channelsBut c hc
  refine crt_eq_of_emod (fun _ => lt_of_mem_channelsBut) (channelsBut_nodup c) (by omega) fun k hk => ?_
  obtain ⟨hk, other⟩ := mem_channelsBut.1 hk
  rw [right k hk other]
  exact (Int.emod_emod ..).symm

variable (wrong : (y c : Int) ≠ x % modulus c)
include wrong

/-- A number that has the wrong channel's residue and those of six others is out of the working channels' range: within it, it would
be the number that those six stand for, of which the wrong channel holds no residue. -/
theorem prodOf_working_le_of_wrong {v : Int} {d : Nat} (hd : d < 8) (apart : c ≠ d)
    (residues : ∀ k, k < 8 → k ≠ d → (y k : Int) = v % modulus k) : prodOf (working .normal) ≤ 2 * v.natAbs := by
  refine Nat.not_lt.1 fun within => ?_
  have agree : (prodOf ((channelsBut c).filter (· != d)) : Int) ∣ x - v := by
    refine prodOf_dvd_sub (fun k hk => lt_of_mem_channelsBut (List.mem_filter.1 hk).1)
      (List.Pairwise.filter _ (channelsBut_nodup c)) fun k hk => ?_
    obtain ⟨hk, other⟩ := List.mem_filter.1 hk
    obtain ⟨hk, notWrong⟩ := mem_channelsBut.1 hk
    rw [← right k hk notWrong, residues k hk (bne_iff_ne.1 other)]
  have six := prodOf_working_le_without_two c hc d hd apart
  have equal : x - v = 0 := Int.eq_zero_of_dvd_of_natAbs_lt_natAbs agree (by omega)
  obtain rfl : x = v := by omega
  exact wrong (residues c hc apart)

variable (reduced : ∀ k, k < 8 → y k < modulus k)
include reduced

/-- Leaving out a right channel gives a number out of range. -/
theorem prodOf_working_le_crt_channelsBut {d : Nat} (hd : d < 8) (apart : c ≠ d) :
    prodOf (working .normal) ≤ 2 * (crt (channelsBut d) y).natAbs :=
  prodOf_working_le_of_wrong hc range right wrong hd apart fun k hk other =>
    (crt_emod_eq (fun _ => lt_of_mem_channelsBut) (channelsBut_nodup d) (mem_channelsBut.2 ⟨hk, other⟩) (reduced k hk)).symm

/-- A check channel differs: otherwise the number that the working channels stand for would have all eight residues. -/
theorem checks_disagree : ¬ (checks .normal).all fun k => y k == residue (crt (working .normal) y) k := by
  intro agree
  rw [List.all_eq_true] at agree
  obtain ⟨d, hd, apart⟩ : ∃ d < 8, c ≠ d := ⟨if c = 0 then 1 else 0, by split <;> omega, by split <;> omega⟩
  have bound := two_mul_natAbs_crt_le (fun _ => lt_of_mem_working) y
  have odd := prodOf_working_odd
  have out := prodOf_working_le_of_wrong hc range right wrong (v := crt (working .normal) y) hd apart fun k hk _ => ?_
  · omega
  by_cases work : k ∈ working .normal
  · exact (crt_emod_eq (fun _ => lt_of_mem_working) working_nodup work (reduced k hk)).symm
  · have check : k ∈ checks .normal := by
      have : ¬ k < 6 := fun h => work (List.mem_range.2 h)
      obtain rfl | rfl : k = 6 ∨ k = 7 := by omega
      · exact .head _
      · exact .tail _ (.head _)
    exact (residue_eq_iff hk).1 (beq_iff_eq.1 (agree k check))

theorem checkElem_of_wrong : checkElem .normal y = .mismatch c := by
  refine checkElem_normal_of_first hc (checks_disagree hc range right wrong reduced) ?_ fun d hd => ?_
  · rw [crt_channelsBut_eq hc range right]
    omega
  · have out := prodOf_working_le_crt_channelsBut hc range right wrong reduced (d := d) (by omega) (by omega)
    have odd := prodOf_working_odd
    omega

end

theorem crt_working_eq {x : Int} {y : Nat → Nat} (range : 2 * x.natAbs < prodOf (working .normal))
    (right : ∀ k, k < 8 → (y k : Int) = x % modulus k) : crt (working .normal) y = x := by
  refine crt_eq_of_emod (fun _ => lt_of_mem_working) working_nodup range fun k hk => ?_
  rw [right k (lt_of_mem_working hk)]
  exact (Int.emod_emod ..).symm

theorem lt_of_mem_checks {k : Nat} (h : k ∈ checks .normal) : k < 8 := by
  revert k
  decide

theorem checkElem_of_right {x : Int} {y : Nat → Nat} (range : 2 * x.natAbs < prodOf (working .normal))
    (right : ∀ k, k < 8 → (y k : Int) = x % modulus k) : checkElem .normal y = .consistent := by
  refine checkElem_normal_of_agree <| List.all_eq_true.2 fun k hk => beq_iff_eq.2 ?_
  rw [crt_working_eq range right, residue_eq_iff (lt_of_mem_checks hk)]
  exact right k (lt_of_mem_checks hk)

/-- Settles O20: `checkElem_of_wrong` locates the wrong channel and `crt_channelsBut_eq` recovers the number; of an element with
eight right residues, the working channels are those that `rrev` reads. -/
theorem residueCode : Obligations.ResidueCode :=
  ⟨fun _ _ _ hc range reduced right wrong =>
    ⟨checkElem_of_wrong hc range right wrong reduced, crt_channelsBut_eq hc range right⟩,
   fun _ _ range right => ⟨checkElem_of_right range right, crt_working_eq range right⟩⟩

end Sys2Proof.Machine
end

section
/-! # The residue checks

`rchk` notes its inconsistent elements one by one, so that a flag of `rstat` is set when one of them sets it (R157); `rrev` writes two
lanes of a register for each element (R158); `rsel` takes a mode or refuses it (R160). -/

namespace Sys2Proof.Machine

open Sys2Proof

/-! ### Inconsistent elements (R149, R157) -/

/-- The elements under a guard that are not consistent, with their results, where f gives each element's result. -/
def inconsistent (m : Word) (f : Nat → ChkRes) : List (Nat × ChkRes) :=
  (((List.range 64).filter fun i => m.getLsbD i).map fun i => (i, f i)).filter fun e => e.2 != .consistent

theorem inconsistent_eq (m : Word) (f : Nat → ChkRes) : inconsistent m f =
    ((List.range 64).filter fun i => m.getLsbD i && f i != .consistent).map fun i => (i, f i) := by
  rw [inconsistent, List.filter_map, List.filter_filter]
  exact congrArg (List.map _) (List.filter_congr fun i _ => Bool.and_comm ..)

theorem inconsistent_any (m : Word) (f : Nat → ChkRes) (p : ChkRes → Bool) :
    (inconsistent m f).any (fun e => p e.2) =
      (List.range 64).any fun i => m.getLsbD i && f i != .consistent && p (f i) := by
  rw [inconsistent_eq, List.any_map, List.any_filter]
  rfl

/-- The sum of the powers of two of the lanes that pass a test is their mask. -/
theorem ofNat_sum_filter_eq_maskOf (f : Nat → Bool) :
    BitVec.ofNat 64 (((List.range 64).filter f).map fun i => 2 ^ i).sum = maskOf f := by
  have sums (l : List Nat) : ((l.filter f).map fun i => 2 ^ i).sum = (l.map fun i => bit' (f i) i).sum := by
    induction l with
    | nil => rfl
    | cons i l ih => cases h : f i <;> simp [h, ih, bit']
  rw [maskOf, sums]

theorem inconsistent_mask (m : Word) (f : Nat → ChkRes) :
    BitVec.ofNat 64 ((inconsistent m f).map fun e => 2 ^ e.1).sum =
      maskOf fun i => m.getLsbD i && f i != .consistent := by
  rw [inconsistent_eq, List.map_map, ← ofNat_sum_filter_eq_maskOf]
  rfl

/-! ### What `rchk` notes (R151, R157) -/

/-- The bit of `rstat` that an inconsistent element sets: 0 for a mismatch, 1 for an overflow. -/
def ChkRes.flag : ChkRes → Nat
  | .mismatch _ => 0
  | _ => 1

theorem getLsbD_ofNat_at' (n : Nat) {k b : Nat} (hb : b < k) : (BitVec.ofNat 64 (at' n k)).getLsbD b = false := by
  rw [BitVec.getLsbD_ofNat, at', Nat.testBit_mul_two_pow, decide_eq_false (Nat.not_le.2 hb), Bool.false_and, Bool.and_false]

/-- Replacing the field of `rstat` from bit k on leaves the bits below it. -/
theorem getLsbD_replaceField (w field : Word) (n : Nat) {k b : Nat} (hb : b < k) (apart : field.getLsbD b = false)
    (hw : b < 64) : ((w &&& ~~~field) ||| BitVec.ofNat 64 (at' n k)).getLsbD b = w.getLsbD b := by
  rw [BitVec.getLsbD_or, BitVec.getLsbD_and, BitVec.getLsbD_not, apart, getLsbD_ofNat_at' n hb, decide_eq_true hw,
    Bool.not_false, Bool.and_true, Bool.and_true, Bool.or_false]

theorem rstatNote_getLsbD (w : Word) (e : Nat × ChkRes) {b : Nat} (hb : b < 2) :
    (rstatNote w e).getLsbD b = (w.getLsbD b || e.2.flag == b) := by
  have masks : ∀ b < 2, (0xFF000000#64).getLsbD b = false ∧ (0xF00#64).getLsbD b = false ∧ (4#64).getLsbD b = false ∧
      (1#64).getLsbD b = (0 == b) ∧ (2#64).getLsbD b = (1 == b) := by decide
  obtain ⟨laneField, chanField, multi, mismatch, overflow⟩ := masks b hb
  have lane : (if w &&& 7#64 = 0 then (w &&& ~~~(0xFF000000#64)) ||| BitVec.ofNat 64 (at' e.1 24) else w).getLsbD b =
      w.getLsbD b := by
    split
    · exact getLsbD_replaceField w _ _ (by omega) laneField (by omega)
    · rfl
  rw [← lane, rstatNote]
  generalize (if w &&& 7#64 = 0 then (w &&& ~~~(0xFF000000#64)) ||| BitVec.ofNat 64 (at' e.1 24) else w) = u
  obtain ⟨i, r⟩ := e
  cases r with
  | mismatch c =>
    have chan : at' c 9 + 256 = at' (2 * c + 1) 8 := by simp only [at']; omega
    have kept : ((u &&& ~~~(0xF00#64)) ||| BitVec.ofNat 64 (at' c 9 + 256)).getLsbD b = u.getLsbD b := by
      rw [chan, getLsbD_replaceField u _ _ (by omega) chanField (by omega)]
    dsimp only [ChkRes.flag]
    rw [BitVec.getLsbD_or, mismatch]
    split
    · rw [kept]
    · split
      · rw [BitVec.getLsbD_or, multi, Bool.or_false]
      · rfl
  | consistent => exact BitVec.getLsbD_or.trans (by rw [overflow]; rfl)
  | overflow => exact BitVec.getLsbD_or.trans (by rw [overflow]; rfl)

theorem foldl_rstatNote_getLsbD (l : List (Nat × ChkRes)) (w : Word) {b : Nat} (hb : b < 2) :
    (l.foldl rstatNote w).getLsbD b = (w.getLsbD b || l.any fun e => e.2.flag == b) := by
  induction l generalizing w with
  | nil => exact (Bool.or_false _).symm
  | cons e l ih => rw [List.foldl_cons, ih, rstatNote_getLsbD w e hb, List.any_cons, Bool.or_assoc]

/-- A flag of `rstat` is set after the notes if it was before them, or if an element that sets it is under the guard. -/
theorem foldl_inconsistent_getLsbD (m w : Word) (f : Nat → ChkRes) (p : ChkRes → Bool) {b : Nat} (hb : b < 2)
    (sets : ∀ r : ChkRes, (r != .consistent && r.flag == b) = p r) :
    ((inconsistent m f).foldl rstatNote w).getLsbD b =
      (w.getLsbD b || (List.range 64).any fun j => m.getLsbD j && p (f j)) := by
  rw [foldl_rstatNote_getLsbD _ _ hb, inconsistent_any m f fun r => r.flag == b]
  simp only [Bool.and_assoc, sets]

/-- With neither trap armed, `rchk` writes the mask and its notes. -/
theorem doRchk_unarmed (d : Reg) (a : Quad) (la : La) (m : Word) {s : State} {n : Nat} (course : s.cur.course? = some n)
    (trapm : (s.course n).rstat.getLsbD 16 = false) (trapo : (s.course n).rstat.getLsbD 17 = false) :
    let f := fun i => checkElem (s.course n).rmode ((s.ctx s.cur).channels a i)
    doRchk d a la m s = .done
      (s.setCourse n { s.course n with rstat := (inconsistent m f).foldl rstatNote (s.course n).rstat })
      [.toX d.val (maskOf fun i => m.getLsbD i && f i != .consistent) la.val] := by
  intro f
  rw [← inconsistent_mask]
  simp only [doRchk, State.rmodeOf, course, trapm, trapo, Bool.false_eq_true, if_false, Bool.false_and]
  rfl

/-! ### Lane pairs (R158) -/

theorem lane_lanesOf (f : Nat → W32) {j : Nat} (hj : j < 64) : lane (lanesOf f) j = f j := by
  simp [lane, lanesOf, hj]

/-- The lane pairs of 32 words from word 32 h on: low words in even lanes, high words in odd ones. -/
def pairLanes (y : Nat → Word) (h : Nat) : Lanes :=
  lanesOf fun j => if j % 2 = 0 then (y (32 * h + j / 2)).setWidth 32 else (y (32 * h + j / 2) >>> 32).setWidth 32

/-- The guard of those pairs: that of their words. -/
def pairMask (m : Word) (h : Nat) : Word := maskOf fun j => m.getLsbD (32 * h + j / 2)

section
variable (y : Nat → Word) (m : Word) (h : Nat) {j : Nat} (hj : j < 32)
include hj

theorem pairLanes_low : lane (pairLanes y h) (2 * j) = (y (32 * h + j)).setWidth 32 := by
  rw [pairLanes, lane_lanesOf _ (by omega), if_pos (by omega), Nat.mul_div_cancel_left j Nat.two_pos]

theorem pairLanes_high : lane (pairLanes y h) (2 * j + 1) = (y (32 * h + j) >>> 32).setWidth 32 := by
  rw [pairLanes, lane_lanesOf _ (by omega), if_neg (by omega), Nat.mul_add_div Nat.two_pos]
  rfl

theorem pairMask_low : (pairMask m h).getLsbD (2 * j) = m.getLsbD (32 * h + j) := by
  rw [pairMask, getLsbD_maskOf _ (by omega), Nat.mul_div_cancel_left j Nat.two_pos]

theorem pairMask_high : (pairMask m h).getLsbD (2 * j + 1) = m.getLsbD (32 * h + j) := by
  rw [pairMask, getLsbD_maskOf _ (by omega), Nat.mul_add_div Nat.two_pos]
  rfl

end

theorem doRrev_eq (d : Fin 16) (a : Quad) (b : Reg) (la : La) (m : Word) (s : State) :
    let y := fun i => BitVec.ofInt 64
      (crt (revSet (s.rmodeOf s.cur) ((s.ctx s.cur).x b.val)) ((s.ctx s.cur).channels a i))
    doRrev d a b la m s = .done s
      [.toV (2 * d.val) (pairMask m 0) (pairLanes y 0) la.val,
       .toV (2 * d.val + 1) (pairMask m 1) (pairLanes y 1) la.val] := rfl

/-! ### The outcomes -/

/-- `rchk` with neither trap armed goes on with its mask and its notes. -/
theorem exec_rchk_unarmed {d : Reg} {a : Quad} {la : La} {g : PReg} {s : State} {n : Nat}
    (hs : s.performs (.rchk d a la g) = true) (course : s.cur.course? = some n)
    (trapm : ((s.before (.rchk d a la g)).course n).rstat.getLsbD 16 = false)
    (trapo : ((s.before (.rchk d a la g)).course n).rstat.getLsbD 17 = false) :
    let i := Instr.rchk d a la g
    let k := (s.before i).course n
    let m := (s.before i).guardMask s.cur i
    let found := fun j => checkElem k.rmode ((s.ctxAt i).channels a j)
    exec i s = .next (((s.before i).setCourse n { k with rstat := (inconsistent m found).foldl rstatNote k.rstat }).retire s.cur i
      [.toX d.val (maskOf fun j => m.getLsbD j && found j != .consistent) la.val]) := by
  intro i k m found
  have acting : (s.before i).cur.course? = some n := by rw [State.before_cur, course]
  rw [exec_issueV_performs (op := doRchk d a la) (fun _ => rfl) hs, doRchk_unarmed d a la _ acting trapm trapo, State.before_cur]
  rfl

/-- `rsel` changes its course alone. -/
theorem exec_rsel {r : RMode} {g : PReg} {s : State} {n : Nat} (hs : s.performs (.rsel r g) = true)
    (course : s.cur.course? = some n) : exec (.rsel r g) s = .next (((s.before (.rsel r g)).modCourse n fun k =>
      k.rsel r).retire s.cur (.rsel r g) []) := by
  rw [show exec (.rsel r g) s = execRsel r g s from rfl, execRsel, issue_performs hs]
  simp only [State.before_cur, course]
  rfl

/-- Settles O19: `rchk` by its mask and the flags of its notes, `rrev` by the lane pairs of its words, `rsel` by its course. -/
theorem residueChecks : Obligations.ResidueChecks := by
  refine ⟨fun d a la g s n => ?_, fun d a b la g s => ?_, fun r g s n hs course => exec_rsel hs course⟩
  · intro i t k found on hs course trapm trapo
    refine ⟨_, _, exec_rchk_unarmed hs course trapm trapo, fun j hj => getLsbD_maskOf _ hj, ?_, ?_⟩
    · exact foldl_inconsistent_getLsbD _ _ found (fun r => match r with | .mismatch _ => true | _ => false) (by decide)
        fun r => by cases r <;> rfl
    · exact foldl_inconsistent_getLsbD _ _ found (fun r => r == .overflow) (by decide) fun r => by cases r <;> rfl
  · intro i t y hs
    refine ⟨pairMask (t.guardMask s.cur i), y, pairLanes y, ?_, fun h j _ hj =>
      ⟨rfl, pairLanes_low y h hj, pairLanes_high y h hj, pairMask_low _ h hj, pairMask_high _ h hj⟩⟩
    rw [exec_issueV_performs (op := doRrev d a b la) (fun _ => rfl) hs, doRrev_eq, State.before_cur]
    rfl

end Sys2Proof.Machine
end

section
/-! # Scalar loads and stores

A load gives `loaded` of the number its bytes give, a store holds the low bytes of its register; the checks of `State.locate`
in the order of R195. -/

namespace Sys2Proof.Machine

open Sys2Proof

/-! ### Little-endian numbers (R4) -/

theorem bytesNat_lt (bs : List Byte) : bytesNat bs < 2 ^ (8 * bs.length) := by
  induction bs with
  | nil => exact Nat.one_pos
  | cons b bs ih =>
    have byte : b.toNat < 256 := b.isLt
    have shift : 2 ^ (8 * (b :: bs).length) = 256 * 2 ^ (8 * bs.length) := by
      rw [List.length_cons, Nat.mul_succ, Nat.pow_add, Nat.mul_comm]
    rw [shift, bytesNat]
    omega

theorem State.loadNat_lt (s : State) (a : Agent) (loc n : Nat) : s.loadNat a loc n < 2 ^ (8 * n) := by
  have bound := bytesNat_lt (s.loadBytes a loc n)
  rwa [State.loadBytes, List.length_map, List.length_range] at bound

theorem State.valueRead_lt (s : State) (size loc : Nat) : s.valueRead size loc < 2 ^ (8 * size) :=
  State.loadNat_lt ..

/-- Byte j of a number's low bytes. -/
theorem natBytes_eq_map (n v : Nat) : natBytes n v = (List.range n).map fun j => BitVec.ofNat 8 (v / 2 ^ (8 * j)) := by
  induction n generalizing v with
  | zero => rfl
  | succ n ih =>
    have next (j : Nat) : v / 256 / 2 ^ (8 * j) = v / 2 ^ (8 * (j + 1)) := by
      rw [Nat.div_div_eq_div_mul, Nat.mul_succ, Nat.pow_add, Nat.mul_comm]
    simp [natBytes, ih, List.range_succ_eq_map, next]

@[simp] theorem length_natBytes (n v : Nat) : (natBytes n v).length = n := by
  rw [natBytes_eq_map, List.length_map, List.length_range]

/-! ### Values and addresses (R39, R195) -/

theorem signExtend_ofNat_eq {n v : Nat} (h : v < 2 ^ n) (hn : 0 < n) : (BitVec.ofNat n v).signExtend 64 =
    if 2 ^ (n - 1) ≤ v then BitVec.ofInt 64 ((v : Int) - 2 ^ n) else BitVec.ofNat 64 v := by
  have double : 2 ^ n = 2 * 2 ^ (n - 1) := by rw [← Nat.pow_succ', Nat.succ_eq_add_one, Nat.sub_add_cancel hn]
  rw [BitVec.signExtend, BitVec.toInt_eq_toNat_cond, BitVec.toNat_ofNat, Nat.mod_eq_of_lt h]
  by_cases low : v < 2 ^ (n - 1)
  · rw [if_pos (by omega), if_neg (by omega), BitVec.ofInt_natCast]
  · rw [if_neg (by omega), if_pos (by omega), Int.natCast_pow, Int.cast_ofNat_Int]

/-- The value of a load is its number, less 2 to the bits of its type where the type's sign bit is set. -/
theorem extend_eq_loaded (t : IntTy) {v : Nat} (h : v < 2 ^ (8 * t.size)) : extend t.signed t.size v = loaded t v := by
  have unsigned : BitVec.ofNat 64 (v % 2 ^ (8 * t.size)) = BitVec.ofNat 64 v := by rw [Nat.mod_eq_of_lt h]
  cases t with
  | i8 => simpa [loaded, IntTy.signed, IntTy.size, extend] using signExtend_ofNat_eq (n := 8) h (by decide)
  | i16 => simpa [loaded, IntTy.signed, IntTy.size, extend] using signExtend_ofNat_eq (n := 16) h (by decide)
  | i32 => simpa [loaded, IntTy.signed, IntTy.size, extend] using signExtend_ofNat_eq (n := 32) h (by decide)
  | n8 | n16 | n32 | n64 => simpa [loaded, IntTy.signed, IntTy.size, extend] using unsigned
  | i64 =>
    have whole : BitVec.ofNat 64 v = if 2 ^ 63 ≤ v then BitVec.ofInt 64 ((v : Int) - 2 ^ 64) else BitVec.ofNat 64 v := by
      rw [← signExtend_ofNat_eq (n := 64) h (by decide), BitVec.signExtend_eq]
    simpa [loaded, IntTy.signed, IntTy.size, extend] using unsigned.trans whole

/-- An access of type n64 outside the plinth's register block is not refused for its type (R364). -/
theorem n64_permitted {t : IntTy} {a : Agent} {e : Word} (h : t = .n64 → regsAddr a e = false) :
    ¬ (t == .n64 && regsAddr a e) = true := by
  rw [Bool.and_eq_true, beq_iff_eq]
  rintro ⟨rfl, inRegs⟩
  exact absurd inRegs (by rw [h rfl]; decide)

/-! ### Loads -/

/-- A load that passes its checks gives its bytes' value and records itself. -/
theorem exec_ld {t : IntTy} {o : LdOrder} {d a : Reg} {off : MemOff} {la : La} {s : State} {loc : Nat}
    (hs : s.performs (.ld t o d a off la) = true)
    (reads : (s.before (.ld t o d a off la)).readable 1 (effAddr (s.ctxAt (.ld t o d a off la)) a off) t.size loc = true)
    (regs : t = .n64 → regsAddr s.cur (effAddr (s.ctxAt (.ld t o d a off la)) a off) = false) :
    exec (.ld t o d a off la) s =
      .next (((s.before (.ld t o d a off la)).afterRead (effAddr (s.ctxAt (.ld t o d a off la)) a off) t.size loc).retire s.cur
        (.ld t o d a off la) [.toX d.val (loaded t ((s.before (.ld t o d a off la)).valueRead t.size loc)) la.val]) := by
  have run := exec_performs (body := fun c u => if t == .n64 && regsAddr u.cur (effAddr c a off)
    then .trap (.at 0x06 3 (effAddr c a off))
    else u.readScalar u.cur 1 (effAddr c a off) t.size fun v u => .done u [.toX d.val (extend t.signed t.size v) la.val])
    (fun _ => rfl) hs
  rw [← State.before_cur s (.ld t o d a off la)] at regs
  rw [run, if_neg (n64_permitted regs), State.readScalar_readable reads, extend_eq_loaded t (State.valueRead_lt ..)]
  rfl

/-! ### Stores -/

/-- What a scalar store that passes its checks finds and holds. -/
theorem State.storeAt_writable {s : State} {e : Word} {size loc : Nat} {v : Word} {a : Agent} (cur : s.cur = a)
    (h : s.writable e size loc v = true) :
    s.locate a .write 1 e size = .ok loc ∧ s.storeAt a e loc size v =
      .ok ((s.touchTlb a e).store a ⟨loc, natBytes size v.toNat, winOf e, size⟩) := by
  subst cur
  simp only [State.writable, Bool.and_eq_true, Bool.not_eq_true', Option.isNone_iff_eq_none] at h
  obtain ⟨⟨⟨located, whole⟩, moving⟩, allowed⟩ := h
  have found : s.locate s.cur .write 1 e size = .ok loc := by
    split at located
    next l hl => rw [hl, beq_iff_eq.1 located]
    next => cases located
  refine ⟨found, ?_⟩
  unfold State.storeAt
  refine (if_neg fun damaged => Bool.false_ne_true (whole.symm.trans damaged)).trans ?_
  rw [if_neg (by rw [moving]; exact Bool.false_ne_true), allowed]

@[simp] theorem State.store_cur (s : State) (a : Agent) (w : Write) : (s.store a w).cur = s.cur := by
  unfold State.store
  split
  · simp
  · split <;> simp

/-- The write that a store of xd makes. -/
def stWrite (c : Ctx) (t : IntTy) (d a : Reg) (off : MemOff) (loc : Nat) : Write :=
  ⟨loc, natBytes t.size (c.x d.val).toNat, winOf (effAddr c a off), t.size⟩

/-- The state in which a store's write is held in its chunk, or performed outside a chunk. -/
def State.stored (s : State) (i : Instr) (t : IntTy) (d a : Reg) (off : MemOff) (loc : Nat) : State :=
  ((s.before i).touchTlb s.cur (effAddr (s.ctxAt i) a off)).store s.cur (stWrite (s.ctxAt i) t d a off loc)

section
variable {t : IntTy} {d a : Reg} {off : MemOff} {s : State} {loc : Nat}

/-- A plain store is stored, and execution goes on after it. -/
theorem exec_st_plain (hs : s.performs (.st t .plain d a off) = true)
    (writes : (s.before (.st t .plain d a off)).writable (effAddr (s.ctxAt (.st t .plain d a off)) a off) t.size loc
      ((s.ctxAt (.st t .plain d a off)).x d.val) = true)
    (regs : t = .n64 → regsAddr s.cur (effAddr (s.ctxAt (.st t .plain d a off)) a off) = false) :
    exec (.st t .plain d a off) s =
      .next ((s.stored (.st t .plain d a off) t d a off loc).retire s.cur (.st t .plain d a off) []) := by
  have run := exec_performs (body := fun c u => if t == .n64 && regsAddr u.cur (effAddr c a off)
    then .trap (.at 0x06 3 (effAddr c a off))
    else (u.locate u.cur .write 1 (effAddr c a off) t.size).then fun l =>
      (u.storeAt u.cur (effAddr c a off) l t.size (c.x d.val)).then fun u => .done u [])
    (fun _ => rfl) hs
  obtain ⟨found, held⟩ := State.storeAt_writable (State.before_cur ..) writes
  rw [run, State.before_cur, if_neg (n64_permitted regs), found]
  simp only [Or.then, held]
  rfl

/-- A release whose context has nothing outstanding is stored, and its chunk commits with it (R212). -/
theorem exec_st_rel (hs : s.performs (.st t .rel d a off) = true)
    (writes : (s.before (.st t .rel d a off)).writable (effAddr (s.ctxAt (.st t .rel d a off)) a off) t.size loc
      ((s.ctxAt (.st t .rel d a off)).x d.val) = true)
    (regs : t = .n64 → regsAddr s.cur (effAddr (s.ctxAt (.st t .rel d a off)) a off) = false)
    (closes : (s.before (.st t .rel d a off)).canClose s.cur = true)
    (noFar : (s.ctxAt (.st t .rel d a off)).chunk.far = [])
    (quiet : (s.before (.st t .rel d a off)).performed s.cur (beyond loc) = true) :
    exec (.st t .rel d a off) s =
      .next (((s.stored (.st t .rel d a off) t d a off loc).close s.cur).retire s.cur (.st t .rel d a off) []) := by
  have run := exec_performs (body := fun c u => if t == .n64 && regsAddr u.cur (effAddr c a off)
    then .trap (.at 0x06 3 (effAddr c a off))
    else (u.locate u.cur .write 1 (effAddr c a off) t.size).then fun l =>
      if !u.canClose u.cur then .wait (u.stall u.cur)
      else if !c.chunk.far.isEmpty then .wait ((u.close u.cur).stall u.cur)
      else if !u.performed u.cur (beyond l) then .wait (u.stall u.cur)
      else (u.storeAt u.cur (effAddr c a off) l t.size (c.x d.val)).then fun u => .done (u.close u.cur) [])
    (fun _ => rfl) hs
  obtain ⟨found, held⟩ := State.storeAt_writable (State.before_cur ..) writes
  rw [run, State.before_cur, if_neg (n64_permitted regs), found]
  simp only [Or.then, closes, noFar, quiet, List.isEmpty_nil, Bool.not_true, Bool.false_eq_true, if_false, held,
    State.store_cur, State.touchTlb_cur, State.before_cur]
  rfl
end

/-! ### The checks in their order (R161, R195) -/

theorem regsAddr_eq_false {a : Agent} (h : a ≠ .plinth) (e : Word) : regsAddr a e = false := by
  simp [regsAddr, h]

section
variable {s : State} {acc : Access} {e : Word} {size : Nat}

/-- Alignment comes first. -/
theorem State.locate_misaligned {a : Agent} (ha : a ≠ .plinth) (w : Nat) (odd : e.toNat % size ≠ 0) :
    s.locate a acc w e size = .error (.trap (.at 0x01 0 e)) := by
  simp [State.locate, regsAddr_eq_false ha, odd]

/-- Then the window of an aperture address. -/
theorem State.locate_window {a : Agent} (ha : a ≠ .plinth) {w : Nat} (aligned : e.toNat % size = 0) (ap : inAperture e = true)
    (beyondMax : w < apWin e) : s.locate a acc w e size = .error (.trap (.at 0x06 3 e)) := by
  simp [State.locate, regsAddr_eq_false ha, aligned, ap, ha, beyondMax]

/-- Then the reserved part of a slice, which a program may not reach. -/
theorem State.locate_reserved {a : Agent} (ha : a ≠ .plinth) {w : Nat} (aligned : e.toNat % size = 0)
    (ap : inAperture e = true) (program : a.program = true) (within : apWin e ≤ w) (res : progEnd ≤ apOff e) :
    s.locate a acc w e size = .error (.trap (.at 0x06 5 e)) := by
  simp [State.locate, regsAddr_eq_false ha, aligned, ap, program, Nat.not_lt.2 within, res]

/-- Then translation, outside the aperture. -/
theorem State.locate_fault {a : Agent} (ha : a ≠ .plinth) (w : Nat) (aligned : e.toNat % size = 0)
    (outside : inAperture e = false) {sub : BitVec 8} (fault : s.resolve a acc e = .fault sub) :
    s.locate a acc w e size = .error (.trap (.at acc.cause sub e)) := by
  simp [State.locate, regsAddr_eq_false ha, aligned, outside, fault]

/-- The plinth's register block takes aligned accesses of 8 bytes alone (R364). -/
theorem State.locate_regs (w : Nat) (inRegs : regsAddr .plinth e = true) (odd : size ≠ 8 ∨ e.toNat % 8 ≠ 0) :
    s.locate .plinth acc w e size = .error (.trap (.at 0x06 3 e)) := by
  have refused : (size != 8 || e.toNat % 8 != 0) = true := by simpa using odd
  simp [State.locate, inRegs, refused]
end

theorem Access.cause_of_ne_fetch {acc : Access} (h : acc ≠ .fetch) : acc.cause = if acc = .read then 0x04 else 0x05 := by
  cases acc with
  | fetch => exact absurd rfl h
  | read => rfl
  | write => rfl

/-- Settles O9: `exec_ld`, `exec_st_plain` and `exec_st_rel` for what an access leaves, the `State.locate` laws for its checks. -/
theorem scalarAccess : Obligations.ScalarAccess := by
  refine ⟨fun t o d a off la s loc hs reads regs => exec_ld hs reads regs, fun t d a off s loc => ?_,
    fun s acc e size notFetch notPlinth => ⟨fun odd => State.locate_misaligned notPlinth 1 odd,
      fun aligned ap program window => State.locate_window notPlinth aligned ap window,
      fun aligned ap program window res => State.locate_reserved notPlinth aligned ap program (Nat.le_of_lt_succ window) res,
      fun sub aligned outside fault => ?_⟩,
    fun s acc e size plinth low high odd => ?_⟩
  · dsimp only
    simp only [← natBytes_eq_map]
    exact ⟨fun hs fits => exec_st_plain hs fits.1 fits.2, fun hs fits closes noFar quiet =>
      exec_st_rel hs fits.1 fits.2 closes noFar quiet⟩
  · rw [State.locate_fault notPlinth 1 aligned outside fault, Access.cause_of_ne_fetch notFetch]
    rfl
  · rw [plinth]
    exact State.locate_regs 1 (by simp [regsAddr, low, high]) odd

end Sys2Proof.Machine
end

section
/-! # A strided form of the plinth that reaches its register block

Before the window of a vector access its addresses are checked against the plinth's register block (R364), which lies above the
aperture: a strided form through a dx window that reaches both raises its trap at the block's word and not at the lowest address. -/

namespace Sys2Proof.Machine

open Sys2Proof

/-- The plinth after reset, with a base in the dx window 4, a stride from there to the register block, and lanes 0 and 1 on. -/
def dxGather : State :=
  { State.reset with cur := .plinth }.setCtx .plinth { Ctx.initial .plinth with arch :=
    { (Ctx.initial .plinth).arch with xs := [(1, 0x400800000000), (2, 0xFFBFF800000000)], ps := [(1, 3)], live := 6 } }

/-- A strided load of v3 from x1 by x2 under p1. -/
def dxGatherForm : Instr := .vlds 3 1 2 none 0 1

theorem dxGather_performs : dxGather.performs dxGatherForm = true := by decide

theorem dxGather_addresses : (laneAddrs (dxGather.ctxAt dxGatherForm) (.stride 2) 1 8
    ((dxGather.before dxGatherForm).guardMask dxGather.cur dxGatherForm)).map (·.2) =
      [0x400800000000, 0x0100000000000000] := by decide

/-- The trap is raised at the word of the register block. -/
theorem exec_dxGather : exec dxGatherForm dxGather =
    .next (dxGather.raise .plinth ⟨0x06, 3, 0x0100000000000000, false⟩ dxGatherForm.bytes) := by
  refine (exec_issueV_performs (op := doLoad (.stride 2) 3 1 none 0) (fun _ => rfl) dxGather_performs).trans ?_
  rfl

/-- The fault address of a trap of this plinth is the trap's. -/
theorem dxGather_raise_faddr (w : Word) :
    ((dxGather.raise .plinth ⟨0x06, 3, w, false⟩ dxGatherForm.bytes).ctx .plinth).faddr = w := rfl

/-- Refutes O11 at its last clause: on the plinth, a strided load through a dx window whose lane 1 reaches the register block
raises its trap there (`exec_dxGather`), above the address of lane 0. -/
theorem not_vectorAccess : ¬ Obligations.VectorAccess := by
  unfold Obligations.VectorAccess
  rintro ⟨-, -, -, refused⟩
  obtain ⟨w, -, lowest, raised⟩ := refused dxGatherForm (.stride 2) 3 1 2 none 0 1 dxGather (.inl ⟨rfl, rfl⟩)
    dxGather_performs (by decide) (by rw [dxGather_addresses]; simp)
  rw [dxGather_addresses] at lowest
  have atBlock : w = 0x0100000000000000 := by
    have same := raised.symm.trans exec_dxGather
    injection same with same
    rw [← dxGather_raise_faddr w, ← dxGather_raise_faddr 0x0100000000000000, ← same]
    rfl
  exact absurd (lowest 0x400800000000 (by decide)) (by rw [atBlock]; decide)

end Sys2Proof.Machine
end

section
/-! # Atomics and cells

`doAmo` has three ends once its checks have passed: it is performed at its home, a loop register refuses its value, or it leaves
as a request (R201, R202). A cell's number grows by its addend on the grid of the cell (R204). -/

namespace Sys2Proof.Machine

open Sys2Proof

/-! ### Atomics -/

/-- An `amo` with its operation, or a `cas`. -/
def atomicForm (op : Option AmoOp) (t : AmoTy) (d a b : Reg) (g : PReg) : Instr :=
  match op with
  | some o => .amo o t d a b g
  | none => .cas t d a b g

theorem exec_atomicForm {op : Option AmoOp} {t : AmoTy} {d a b : Reg} {g : PReg} {i : Instr} (form : i = atomicForm op t d a b g)
    {s : State} (hs : s.performs i = true) :
    exec i s = .next (s.conclude i (doAmo op t d a b (s.before i))) := by
  subst form
  cases op with
  | none => exact issue_performs hs _
  | some o => exact issue_performs hs _

/-- The checks of an atomic of `n` on the bytes at `loc` pass: its address is located, no peer's port refuses it, and it meets no
uncorrectable error. -/
def State.amoClear (v : State) (n : Agent) (e : Word) (size loc : Nat) : Prop :=
  v.locateRmw n e size = .ok loc ∧ v.barred n .write e = false ∧ v.meetsError n loc size = false

/-- An atomic is performed as it issues: its value does not come late, or its home is near or reserved, and nothing holds it back. -/
def State.amoHere (v : State) (n : Agent) (size loc : Nat) : Prop :=
  (v.late = false ∨ near n loc = true ∨ v.reserved loc = true) ∧ v.rmwWaits n loc size = false

theorem State.amoHere.stays {v : State} {n : Agent} {size loc : Nat} (h : v.amoHere n size loc) :
    (v.late && !near n loc && !v.reserved loc) = false := by
  obtain ⟨early | isNear | res, -⟩ := h
  · simp [early]
  · simp [isNear]
  · simp [res]

section
variable {op : Option AmoOp} {t : AmoTy} {d a b : Reg} {v : State} {n : Agent} {loc : Nat} (cur : v.cur = n)
  (passes : v.amoClear n ((v.ctx n).x a.val) t.size loc)
include cur passes

/-- An atomic whose value nothing refuses replaces the bytes at its home and returns the old ones. -/
theorem doAmo_here (here : v.amoHere n t.size loc)
    (allowed : (v.amoWrite op t loc (winOf ((v.ctx n).x a.val)) ((v.ctx n).x d.val) ((v.ctx n).x b.val)).bind v.areaDenied = none) :
    doAmo op t d a b v = .done ((v.touchTlb n ((v.ctx n).x a.val)).amoAtHome n op t loc (winOf ((v.ctx n).x a.val))
        ((v.ctx n).x d.val) ((v.ctx n).x b.val)).2
      [.toX d.val (extend t.signed t.size (bytesNat ((v.touchTlb n ((v.ctx n).x a.val)).homeBytes loc t.size)))] := by
  obtain ⟨found, admitted, sound⟩ := passes
  subst cur
  simp only [doAmo, found, Or.then, admitted, sound, here.stays, here.2, allowed, Bool.false_eq_true, if_false]
  rfl

/-- A loop register refuses the value of a supervisor's atomic (R69). -/
theorem doAmo_refused (here : v.amoHere n t.size loc) {x : Trap}
    (denied : (v.amoWrite op t loc (winOf ((v.ctx n).x a.val)) ((v.ctx n).x d.val) ((v.ctx n).x b.val)).bind v.areaDenied = some x) :
    doAmo op t d a b v = .trap x := by
  obtain ⟨found, admitted, sound⟩ := passes
  subst cur
  simp only [doAmo, found, Or.then, admitted, sound, here.stays, here.2, denied, Bool.false_eq_true, if_false]

/-- A far atomic whose value comes late leaves as a request, and its register waits for it (R202, R256). -/
theorem doAmo_leaves (late : v.late = true) (far : near n loc = false) (plain : v.reserved loc = false)
    (slot : v.slotsFree n 1 = true) (sent : (v.ctx n).unsent = []) :
    doAmo op t d a b v = .done { v.touchTlb n ((v.ctx n).x a.val) with fabric := v.fabric ++
        [⟨n, .amo op t loc (winOf ((v.ctx n).x a.val)) ((v.ctx n).x d.val) ((v.ctx n).x b.val) d⟩] } [.toX d.val 0] := by
  obtain ⟨found, admitted, sound⟩ := passes
  subst cur
  simp only [doAmo, found, Or.then, admitted, sound, late, far, plain, slot, sent, List.isEmpty_nil, Bool.not_false, Bool.not_true,
    Bool.and_self, Bool.or_self, if_true, Bool.false_eq_true, if_false]
end

theorem State.slotsFree_one {v : State} {a : Agent} {n : Nat} (core : a.core? = some n) (room : v.slotsUsed n < 4096) :
    v.slotsFree a 1 = true := by
  rw [State.slotsFree, core]
  exact decide_eq_true room

theorem State.fromAgent_core (s : State) (k : Nat) (a : Agent) : (s.fromAgent k a).core = a.core? := by
  unfold State.fromAgent
  split
  next h => exact h.symm
  next h => exact h.symm

/-- What a `cas` leaves at its home: the new bytes where the old value is that of xd, a request for bytes elsewhere (R201, R382). -/
theorem State.amoAtHome_cas (s : State) (n : Agent) (t : AmoTy) (loc win : Nat) (cmp new : Word) :
    (s.amoAtHome n none t loc win cmp new).2 = if bytesNat (s.homeBytes loc t.size) = cmp.toNat % 2 ^ (8 * t.size)
      then s.land ⟨loc, natBytes t.size (new.toNat % 2 ^ (8 * t.size)), win, 0⟩ (s.fromAgent 1 n) []
      else s.ask n.core? loc t.size := by
  unfold State.amoAtHome State.amoFrom State.amoWrite
  dsimp only
  by_cases same : bytesNat (s.homeBytes loc t.size) = cmp.toNat % 2 ^ (8 * t.size)
  · rw [if_pos same, if_pos same]
  · rw [if_neg same, if_neg same]
    dsimp only
    rw [State.fromAgent_core]

section
variable {op : Option AmoOp} {t : AmoTy} {d a b : Reg} {g : PReg} {i : Instr} (form : i = atomicForm op t d a b g) {s : State}
  (hs : s.performs i = true) {loc : Nat} (passes : (s.before i).amoClear s.cur ((s.ctxAt i).x a.val) t.size loc)
include form hs passes

theorem exec_atomic_here (here : (s.before i).amoHere s.cur t.size loc)
    (allowed : ((s.before i).amoWrite op t loc (winOf ((s.ctxAt i).x a.val)) ((s.ctxAt i).x d.val) ((s.ctxAt i).x b.val)).bind
      (s.before i).areaDenied = none) :
    exec i s = .next ((((s.before i).touchTlb s.cur ((s.ctxAt i).x a.val)).amoAtHome s.cur op t loc
        (winOf ((s.ctxAt i).x a.val)) ((s.ctxAt i).x d.val) ((s.ctxAt i).x b.val)).2.retire s.cur i
      [.toX d.val (extend t.signed t.size
        (bytesNat (((s.before i).touchTlb s.cur ((s.ctxAt i).x a.val)).homeBytes loc t.size)))]) := by
  rw [exec_atomicForm form hs, doAmo_here (State.before_cur s i) passes here allowed]
  rfl

theorem exec_atomic_refused (here : (s.before i).amoHere s.cur t.size loc) {x : Trap}
    (denied : ((s.before i).amoWrite op t loc (winOf ((s.ctxAt i).x a.val)) ((s.ctxAt i).x d.val) ((s.ctxAt i).x b.val)).bind
      (s.before i).areaDenied = some x) :
    exec i s = .next (s.raise s.cur x i.bytes) := by
  rw [exec_atomicForm form hs, doAmo_refused (State.before_cur s i) passes here denied]
  rfl

theorem exec_atomic_leaves (late : (s.before i).late = true) (far : near s.cur loc = false)
    (plain : (s.before i).reserved loc = false) (slot : (s.before i).slotsFree s.cur 1 = true) (sent : (s.ctxAt i).unsent = []) :
    exec i s = .next (({ (s.before i).touchTlb s.cur ((s.ctxAt i).x a.val) with fabric := (s.before i).fabric ++
        [⟨s.cur, .amo op t loc (winOf ((s.ctxAt i).x a.val)) ((s.ctxAt i).x d.val) ((s.ctxAt i).x b.val) d⟩] } : State).retire
      s.cur i [.toX d.val 0]) := by
  rw [exec_atomicForm form hs, doAmo_leaves (State.before_cur s i) passes late far plain slot sent]
  rfl
end

/-- Settles O23, by the three ends of an atomic: `exec_atomic_here`, `exec_atomic_refused` and `exec_atomic_leaves`. -/
theorem atomicResults : Obligations.AtomicResults := by
  intro t d a b g s loc
  refine ⟨fun op ⟨hs, passes⟩ ⟨here, allowed⟩ => ?_, fun ⟨hs, passes⟩ ⟨here, allowed⟩ => ?_,
    fun op i x form ⟨hs, passes⟩ here denied => exec_atomic_refused form hs passes here denied,
    fun op i n form ⟨hs, passes⟩ late far plain core room sent =>
      exec_atomic_leaves form hs passes late far plain (State.slotsFree_one core room) sent⟩
  · refine (exec_atomic_here (op := some op) rfl hs passes here allowed).trans ?_
    cases op <;> rfl
  · refine (exec_atomic_here (op := none) rfl hs passes here allowed).trans ?_
    rw [State.amoAtHome_cas]
    rfl

/-! ### Cells -/

/-- An addend in range adds to a cell's value exactly, and leaves the flags and what lies above them (R204). -/
theorem cellAdd_in_range {cell : Nat} {f : W32} {neg : Bool} {m : Nat} {e : Int} (finite : f32 f = .fin neg m e)
    (addend : -(2 ^ 127) ≤ cellAddend (f32 f) ∧ cellAddend (f32 f) < 2 ^ 127)
    (sum : -(2 ^ 127) ≤ signedOf 16 (cell % 2 ^ 128) + cellAddend (f32 f) ∧
      signedOf 16 (cell % 2 ^ 128) + cellAddend (f32 f) < 2 ^ 127) :
    signedOf 16 (cellAdd cell f % 2 ^ 128) = signedOf 16 (cell % 2 ^ 128) + cellAddend (f32 f) ∧
      cellAdd cell f / 2 ^ 128 = cell / 2 ^ 128 := by
  have inside (x : Int) (low : -(2 ^ 127) ≤ x) (high : x < 2 ^ 127) :
      (decide (x < -(2 ^ 127)) || decide (2 ^ 127 ≤ x)) = false := by
    rw [decide_eq_false (Int.not_lt.2 low), decide_eq_false (Int.not_le.2 high), Bool.or_self]
  have value : cellAdd cell f = ((signedOf 16 (cell % 2 ^ 128) + cellAddend (f32 f)) % 2 ^ 128).toNat + 2 ^ 128 * (cell / 2 ^ 128) := by
    unfold cellAdd
    rw [finite] at addend sum ⊢
    dsimp only
    simp only [inside _ addend.1 addend.2, inside _ sum.1 sum.2, Bool.or_self, Bool.false_eq_true, if_false]
  generalize signedOf 16 (cell % 2 ^ 128) + cellAddend (f32 f) = x at sum value ⊢
  have low : (x % 2 ^ 128).toNat < 2 ^ 128 := by omega
  have number : cellAdd cell f % 2 ^ 128 = (x % 2 ^ 128).toNat := by omega
  refine ⟨?_, by omega⟩
  rw [number, signedOf]
  split <;> omega

/-- A read that nothing holds back gives its bytes' number and records itself. -/
theorem State.readAt_clear {s : State} {a : Agent} {loc n : Nat} (clear : s.clear a loc n = true) (moving : s.areaShut loc = false)
    (e : Word) : s.readAt a e loc n = .ok (s.loadNat a loc n, (s.noteRead a loc n).touchTlb a e) := by
  simp only [State.clear, Bool.and_eq_true, Bool.not_eq_true'] at clear
  obtain ⟨⟨sound, settled⟩, admitted⟩ := clear
  simp only [State.readAt, sound, settled, admitted, moving, Bool.or_self, Bool.false_eq_true, if_false]

/-- A cell that an agent may read is read as it issues; one in host memory closes the chunk before it (R205). -/
theorem exec_cellrd {d a : Reg} {la : La} {g : PReg} {s : State} {loc : Nat} {t : State}
    (hs : s.performs (.cellrd d a la g) = true)
    (ht : t = if atHost loc then (s.before (.cellrd d a la g)).close s.cur else s.before (.cellrd d a la g))
    (found : (s.before (.cellrd d a la g)).locate s.cur .read 0 ((s.ctxAt (.cellrd d a la g)).x a.val) 32 = .ok loc)
    (memory : ∀ off, homeOf loc ≠ .regs off)
    (closes : atHost loc = true → (s.before (.cellrd d a la g)).canClose s.cur = true)
    (clear : t.clear s.cur loc 32 = true) (moving : t.areaShut loc = false) :
    exec (.cellrd d a la g) s =
      .next (((t.noteRead s.cur loc 32).touchTlb s.cur ((s.ctxAt (.cellrd d a la g)).x a.val)).retire s.cur (.cellrd d a la g)
        [.toX d.val (cellValue (t.loadNat s.cur loc 32)) la.val]) := by
  have value := State.readAt_clear clear moving ((s.ctxAt (.cellrd d a la g)).x a.val)
  have run := exec_performs (i := .cellrd d a la g) (body := fun c u => (u.locate u.cur .read 0 (c.x a.val) 32).then fun l =>
    match homeOf l with
    | .regs _ => .trap (.at 0x06 3 (c.x a.val))
    | .host _ => u.apart u.cur fun u => (u.readAt u.cur (c.x a.val) l 32).then fun r =>
        .done r.2 [.toX d.val (cellValue r.1) la.val]
    | _ => (u.readAt u.cur (c.x a.val) l 32).then fun r => .done r.2 [.toX d.val (cellValue r.1) la.val]) (fun _ => rfl) hs
  have acts : t.cur = s.cur := by
    rw [ht]
    split <;> simp
  rw [run, State.before_cur, found]
  simp only [Or.then]
  cases home : homeOf loc with
  | regs off => exact absurd home (memory off)
  | host p =>
    have host : atHost loc = true := by rw [atHost, home]
    rw [if_pos host] at ht
    simp only [State.apart, closes host, if_true, ← ht, acts, value]
    rfl
  | slice | hbm | quoin | plinth | peer =>
    have device : ¬ atHost loc = true := by simp [atHost, home]
    rw [if_neg device] at ht
    simp only [← ht, value]
    rfl

/-! ### Cell updates (R204) -/

@[simp] theorem State.cellAtHome_cur (s : State) (a : Agent) (loc : Nat) (f : W32) : (s.cellAtHome a loc f).cur = s.cur := by
  unfold State.cellAtHome
  split <;> simp

@[simp] theorem State.touchAll_cur (s : State) (a : Agent) (ws : List Word) : (s.touchAll a ws).cur = s.cur := by
  unfold State.touchAll
  exact foldl_cur (fun s p => State.touchTlb_cur s a p) _ _

@[simp] theorem State.touchTlb_fabric (s : State) (a : Agent) (va : Word) : (s.touchTlb a va).fabric = s.fabric := by
  unfold State.touchTlb
  split
  · simp only
    repeat' split
    all_goals simp
  · unfold State.touchCourse
    split
    · simp only
      split <;> simp
    · rfl
  · rfl

@[simp] theorem State.touchAll_fabric (s : State) (a : Agent) (ws : List Word) : (s.touchAll a ws).fabric = s.fabric := by
  unfold State.touchAll
  exact foldl_leaves State.fabric (fun s p => State.touchTlb_fabric s a p) _ _

/-- A loop whose turns name the acting agent, which no turn changes. -/
theorem foldl_at_cur {α : Type} {f : Agent → State → α → State} (h : ∀ n s x, (f n s x).cur = s.cur) (l : List α) (s : State) :
    l.foldl (fun s x => f s.cur s x) s = l.foldl (f s.cur) s := by
  induction l generalizing s with
  | nil => rfl
  | cons x l ih => rw [List.foldl_cons, ih, h, List.foldl_cons]

theorem foldl_cellAtHome_cur (l : List (Nat × W32)) (s : State) :
    l.foldl (fun u e => u.cellAtHome u.cur e.1 e.2) s = l.foldl (fun u e => u.cellAtHome s.cur e.1 e.2) s :=
  foldl_at_cur (f := fun n u (e : Nat × W32) => u.cellAtHome n e.1 e.2) (fun n u e => State.cellAtHome_cur u n e.1 e.2) l s

/-- The cell updates of a `faddx` that leave as requests. -/
def State.cellsFar (v : State) (n : Agent) (es : List (Nat × W32)) : List (Nat × W32) :=
  es.filter fun e => v.late && !near n e.1 && !v.reserved e.1

/-- The cell updates of a `faddx` that are performed as it issues. -/
def State.cellsNow (v : State) (n : Agent) (es : List (Nat × W32)) : List (Nat × W32) :=
  es.filter fun e => !(v.late && !near n e.1 && !v.reserved e.1)

/-- Cell updates leave as requests of an agent. -/
def State.sendCells (u : State) (n : Agent) (far : List (Nat × W32)) : State :=
  { u with fabric := u.fabric ++ far.map fun e => ⟨n, .cell e.1 e.2⟩ }

@[simp] theorem State.sendCells_cur (u : State) (n : Agent) (far : List (Nat × W32)) : (u.sendCells n far).cur = u.cur := rfl

/-- The state in which the updates of a `faddx` are performed: its pages are referenced and its requests have left. -/
def State.cellsSent (v : State) (n : Agent) (ws : List Word) (es : List (Nat × W32)) : State :=
  (v.touchAll n ws).sendCells n (v.cellsFar n es)

/-- Whether the operand of a `faddx` is a v register. -/
def ofLanes (b : XV) : Bool := match b with | .v _ => true | _ => false

section
variable {a : Reg} {b : XV} {g : PReg} {s : State} {locs : List Nat} (hs : s.performs (.faddx a b g) = true) {v : State}
  (hv : v = s.before (.faddx a b g)) {ps : List (Word × W32)}
  (hps : ps = faddxParts (s.ctxAt (.faddx a b g)) a b (v.guardMask s.cur (.faddx a b g)))
include hs hv hps

/-- A `faddx` whose cells are found, sound and free to be updated applies its addends in the order of its lanes. -/
theorem exec_faddx (found : v.faddxLocs s.cur (ofLanes b) ((s.ctxAt (.faddx a b g)).x a.val) (ps.map (·.1)) = .ok locs)
    (sound : ∀ l ∈ locs, v.meetsError s.cur l 32 = false)
    (free : ∀ e ∈ v.cellsNow s.cur (locs.zip (ps.map (·.2))), v.rmwWaits s.cur e.1 32 = false)
    (allowed : ∀ e ∈ v.cellsNow s.cur (locs.zip (ps.map (·.2))), v.areaDenied (v.cellWrite e.1 e.2) = none)
    (slots : v.slotsFree s.cur (v.cellsFar s.cur (locs.zip (ps.map (·.2)))).length = true)
    (sent : (s.ctxAt (.faddx a b g)).unsent = []) :
    exec (.faddx a b g) s = .next (((v.cellsNow s.cur (locs.zip (ps.map (·.2)))).foldl (fun u e => u.cellAtHome s.cur e.1 e.2)
      (v.cellsSent s.cur (ps.map (·.1)) (locs.zip (ps.map (·.2))))).retire s.cur (.faddx a b g) []) := by
  have acts : v.cur = s.cur := by rw [hv, State.before_cur]
  have noError : (ps.zip locs).find? (fun e => v.meetsError s.cur e.2 32) = none :=
    List.find?_eq_none.2 fun e he => by rw [sound e.2 (List.of_mem_zip he).2]; decide
  have noWait : (v.cellsNow s.cur (locs.zip (ps.map (·.2)))).any (fun e => v.rmwWaits s.cur e.1 32) = false :=
    List.any_eq_false.2 fun e he => by rw [free e he]; decide
  have noDenial : (v.cellsNow s.cur (locs.zip (ps.map (·.2)))).findSome?
      (fun e => v.areaDenied (v.cellWrite e.1 e.2)) = none := List.findSome?_eq_none_iff.2 allowed
  have run := exec_performs (i := .faddx a b g) (body := fun c u =>
    (u.faddxLocs u.cur (ofLanes b) (c.x a.val) ((faddxParts c a b (u.guardMask u.cur (.faddx a b g))).map (·.1))).then fun ls =>
      match ((faddxParts c a b (u.guardMask u.cur (.faddx a b g))).zip ls).find? fun e => u.meetsError u.cur e.2 32 with
      | some e => .trap (errorAt e.2 e.1.1)
      | none =>
        let es := ls.zip ((faddxParts c a b (u.guardMask u.cur (.faddx a b g))).map (·.2))
        if !u.slotsFree u.cur (u.cellsFar u.cur es).length || (u.cellsNow u.cur es).any (fun e => u.rmwWaits u.cur e.1 32) ||
            !c.unsent.isEmpty then .wait (u.stall u.cur)
        else match (u.cellsNow u.cur es).findSome? fun e => u.areaDenied (u.cellWrite e.1 e.2) with
          | some x => .trap x
          | none =>
            let sent := u.touchAll u.cur ((faddxParts c a b (u.guardMask u.cur (.faddx a b g))).map (·.1))
            .done ((u.cellsNow u.cur es).foldl (fun t e => t.cellAtHome t.cur e.1 e.2)
              (sent.sendCells sent.cur (u.cellsFar u.cur es))) []) (fun _ => rfl) hs
  rw [run, ← hv, acts, ← hps]
  simp only [found, Or.then, noError, noWait, noDenial, slots, sent, List.isEmpty_nil, Bool.not_true, Bool.or_self,
    Bool.false_eq_true, if_false, State.touchAll_cur, acts, foldl_cellAtHome_cur,
    State.sendCells_cur]
  rfl
end

/-- Settles O24: `exec_faddx`, `cellAdd_in_range` and `exec_cellrd`. -/
theorem cellResults : Obligations.CellResults := by
  refine ⟨fun a b g s locs hs found sound free allowed slots sent => ?_,
    fun cell f _ neg m e finite high low sumHigh sumLow => cellAdd_in_range finite ⟨low, high⟩ ⟨sumLow, sumHigh⟩,
    fun d a la g s loc hs found memory closes clear moving => ?_⟩
  · refine (exec_faddx hs rfl rfl found sound free allowed slots sent).trans ?_
    rw [State.cellsSent, State.sendCells, State.touchAll_fabric]
    rfl
  · have isMemory (off : Nat) : homeOf loc ≠ .regs off := by
      intro home
      rw [home] at memory
      exact memory
    exact exec_cellrd hs rfl found isMemory closes clear moving

end Sys2Proof.Machine
end

section
/-! # What plain bytes are read from

A byte outside the reserved parts of slices and of saved slices, and outside the plinth's register block, is read from memory
under the marks of its slice (R190). The view `State.homeView` holds all that such a read depends on, so an operation that keeps the
view keeps every plain byte; `State.landView` adds the requests under way. -/

namespace Sys2Proof

/-! ### Tables and memory -/

/-- A value replaced by one that reads alike leaves what a table's values read. -/
theorem Map.map_set_of_find {κ α β : Type} [DecidableEq κ] (g : α → β) (m : List (κ × α)) {k : κ} {v w : α}
    (found : Map.find m k = some v) (same : g w = g v) :
    (Map.set m k w).map (fun e => g e.2) = m.map fun e => g e.2 := by
  induction m with
  | nil => cases found
  | cons e m ih =>
    obtain ⟨j, u⟩ := e
    by_cases h : j = k
    · simp only [Map.find, h, if_true, Option.some.injEq] at found
      simp [Map.set, h, found, same]
    · simp only [Map.find, h, if_false] at found
      simp [Map.set, h, ih found]

/-- A value replaced by one that lists alike leaves what a table lists, where the default lists nothing. -/
theorem Map.flatMap_set {κ α β : Type} [DecidableEq κ] (g : α → List β) (d : α) (m : List (κ × α)) {k : κ} {v : α}
    (empty : g d = []) (same : g v = g (Map.get d m k)) :
    (Map.set m k v).flatMap (fun e => g e.2) = m.flatMap fun e => g e.2 := by
  induction m with
  | nil => simpa [Map.set, Map.get, empty] using same
  | cons e m ih =>
    obtain ⟨j, u⟩ := e
    by_cases h : j = k
    · simp only [Map.get, h, if_true] at same
      simp [Map.set, h, same]
    · simp only [Map.get, h, if_false] at same
      simp [Map.set, h, ih same]

/-- Reading a table without the entries of some keys. -/
theorem Map.get_filter_key {κ α : Type} [DecidableEq κ] (d : α) (m : List (κ × α)) (p : κ → Bool) (k : κ) :
    Map.get d (m.filter fun e => p e.1) k = if p k then Map.get d m k else d := by
  induction m with
  | nil => simp [Map.get]
  | cons e m ih =>
    obtain ⟨j, u⟩ := e
    by_cases h : j = k
    · subst h
      by_cases hp : p j = true
      · simp [List.filter, hp, Map.get]
      · simpa [List.filter, hp] using ih
    · by_cases hp : p j = true
      · simpa [List.filter, hp, Map.get, h] using ih
      · simpa [List.filter, hp, Map.get, h] using ih

/-- A cleared range reads zero, and the bytes outside it read as before. -/
theorem Machine.Memory.get_clear (m : Memory) (lo n a : Nat) : Memory.get (Machine.Memory.clear m lo n) a =
    if a < lo ∨ lo + n ≤ a then Memory.get m a else 0 := by
  rw [Machine.Memory.clear, Memory.get, Map.get_filter_key 0 m fun k => decide (k < lo) || decide (lo + n ≤ k)]
  simp only [Bool.or_eq_true, decide_eq_true_eq]
  rfl

end Sys2Proof

namespace Sys2Proof.Machine

open Sys2Proof

/-! ### The views -/

/-- Where the saved slices of pre-empted regions lie: the save areas with the numbers of their courses. -/
def State.savedShape (s : State) : List (Word × Option Nat) :=
  s.regions.map fun e => (e.2.eff.save, e.2.saved.map fun v => v.courses.length)

/-- What the reads of plain bytes depend on. -/
def State.homeView (s : State) : Memory × (Nat → Nat) × List (Word × Option Nat) :=
  (s.mem, fun n => (s.core n).foot, s.savedShape)

/-- The same with the requests under way. -/
def State.landView (s : State) : (Memory × (Nat → Nat) × List (Word × Option Nat)) × List Req := (s.homeView, s.fabric)

/-- Whether `n` bytes from a location on are plain: no view of the machine's state. -/
def State.plainAt (s : State) (loc n : Nat) : Prop :=
  match homeOf loc with
  | .regs _ => False
  | .slice _ off => off + n ≤ progEnd
  | .hbm a => (s.savedAt a).isNone = true
  | _ => True

/-- A plain byte: one of an unmarked piece of a slice reads zero (R190). -/
def State.plainByte (s : State) (loc : Nat) : Byte :=
  match homeOf loc with
  | .slice core off => if (s.core core).foot.testBit (off / 4096) then s.rawByte loc else 0
  | _ => s.rawByte loc

theorem State.savedAt_isNone_congr {s t : State} (h : t.savedShape = s.savedShape) (a : Nat) :
    (t.savedAt a).isNone = (s.savedAt a).isNone := by
  have byShape (u : State) : (u.savedAt a).isNone = u.savedShape.all fun e => e.2.all fun n =>
      !(decide (e.1.toNat ≤ a) && decide ((a - e.1.toNat) / 0x400000 < 8 * n) && decide (progEnd ≤ (a - e.1.toNat) % 0x400000)) := by
    rw [State.savedShape, State.savedAt]
    induction u.regions with
    | nil => rfl
    | cons e l ih =>
      rw [List.findSome?_cons, List.map_cons, List.all_cons, ← ih]
      cases saved : e.2.saved with
      | none => simp
      | some v =>
        dsimp only [Option.map_some, Option.all_some]
        generalize (decide (e.2.eff.save.toNat ≤ a) && _ && _) = inside
        cases inside <;> rfl
  rw [byShape, byShape, h]

theorem State.plainAt_congr {s t : State} (h : t.savedShape = s.savedShape) {loc n : Nat} (plain : s.plainAt loc n) :
    t.plainAt loc n := by
  unfold State.plainAt at plain ⊢
  cases home : homeOf loc with
  | hbm a =>
    rw [home] at plain
    exact (State.savedAt_isNone_congr h a).trans plain
  | slice | quoin | plinth | regs | host | peer =>
    rw [home] at plain
    exact plain

/-- A plain byte's home is memory under the marks of its slice. -/
theorem State.homeByte_of_plain {s : State} {loc : Nat} (plain : s.plainAt loc 1) : s.homeByte loc = s.plainByte loc := by
  unfold State.plainAt at plain
  unfold State.homeByte State.plainByte
  cases home : homeOf loc with
  | regs off => simp only [home] at plain
  | slice core off =>
    simp only [home] at plain
    exact if_pos plain
  | hbm a =>
    simp only [home, Option.isNone_iff_eq_none] at plain
    simp only [plain]
  | quoin | plinth | host | peer => rfl

theorem State.homeView_savedShape {s t : State} (h : t.homeView = s.homeView) : t.savedShape = s.savedShape :=
  congrArg (·.2.2) h

theorem State.plainByte_congr {s t : State} (mem : t.mem = s.mem) (foot : ∀ n, (t.core n).foot = (s.core n).foot) (loc : Nat) :
    t.plainByte loc = s.plainByte loc := by
  unfold State.plainByte State.rawByte
  cases homeOf loc with
  | slice core off => simp only [mem, foot]
  | hbm | quoin | plinth | regs | host | peer => simp only [mem]

/-- What keeps the view keeps every plain byte. -/
theorem State.homeByte_of_homeView {s t : State} (h : t.homeView = s.homeView) {loc : Nat} (plain : s.plainAt loc 1) :
    t.homeByte loc = s.homeByte loc := by
  rw [State.homeByte_of_plain plain, State.homeByte_of_plain (State.plainAt_congr (State.homeView_savedShape h) plain)]
  exact State.plainByte_congr (congrArg (·.1) h) (fun n => congrFun (congrArg (·.2.1) h) n) loc

theorem State.homeView_of_landView {s t : State} (h : t.landView = s.landView) : t.homeView = s.homeView := congrArg Prod.fst h

theorem State.landView_congr {s t : State} (mem : t.mem = s.mem) (foot : ∀ n, (t.core n).foot = (s.core n).foot)
    (shape : t.savedShape = s.savedShape) (fabric : t.fabric = s.fabric) : t.landView = s.landView := by
  rw [State.landView, State.landView, State.homeView, State.homeView, mem, shape, fabric, funext foot]

/-! ### Operations that keep the views -/

theorem State.foot_modCore (s : State) (n : Nat) {f : Core → Core} (h : ∀ k, (f k).foot = k.foot) (m : Nat) :
    ((s.modCore n f).core m).foot = (s.core m).foot := by
  by_cases same : n = m
  · rw [← same, State.core_modCore_self, h]
  · rw [State.core_modCore_ne s f same]

theorem State.landView_modCore (s : State) (n : Nat) {f : Core → Core} (h : ∀ k, (f k).foot = k.foot) :
    (s.modCore n f).landView = s.landView :=
  State.landView_congr rfl (State.foot_modCore s n h) rfl rfl

theorem State.savedShape_modRegion (s : State) (rid : BitVec 16) {f : Region → Region} (save : ∀ r, (f r).eff.save = r.eff.save)
    (courses : ∀ r, (f r).saved.map (fun v => v.courses.length) = r.saved.map fun v => v.courses.length) :
    (s.modRegion rid f).savedShape = s.savedShape := by
  unfold State.modRegion
  split
  next r found =>
    exact Map.map_set_of_find (fun r : Region => (r.eff.save, r.saved.map fun v => v.courses.length)) s.regions found
      (by rw [save, courses])
  next => rfl

theorem State.landView_modRegion (s : State) (rid : BitVec 16) {f : Region → Region} (save : ∀ r, (f r).eff.save = r.eff.save)
    (courses : ∀ r, (f r).saved.map (fun v => v.courses.length) = r.saved.map fun v => v.courses.length) :
    (s.modRegion rid f).landView = s.landView :=
  State.landView_congr (by simp) (fun n => by unfold State.modRegion; split <;> rfl) (State.savedShape_modRegion s rid save courses)
    (by simp)

@[simp] theorem State.landView_modCtx (s : State) (a : Agent) (f : Ctx → Ctx) : (s.modCtx a f).landView = s.landView := rfl

@[simp] theorem State.landView_heal (s : State) (loc n : Nat) : (s.heal loc n).landView = s.landView := rfl

@[simp] theorem State.landView_setWatches (s : State) (c : Nat) (ws : List (Nat × Watch)) :
    (s.setWatches c ws).landView = s.landView := by
  unfold State.setWatches
  split
  · exact State.landView_modRegion s _ (fun _ => rfl) fun r => by cases r.saved <;> rfl
  · split
    · rfl
    · split
      · rfl
      · exact State.landView_modCore s c fun _ => rfl

@[simp] theorem State.landView_reportLine (now : Nat → Bool) (s : State) (l : Nat) :
    (s.reportLine now l).landView = s.landView := by
  unfold State.reportLine
  exact foldl_leaves State.landView (fun s r => State.landView_setWatches s _ _) _ _

theorem State.landView_reportLines (now : Nat → Bool) (ls : List Nat) (s : State) :
    (ls.foldl (State.reportLine now) s).landView = s.landView :=
  foldl_leaves State.landView (fun s l => State.landView_reportLine now s l) ls s

@[simp] theorem State.landView_traceAll (s : State) (c o n : Nat) (w : Write) (f : From) :
    (s.traceAll c o n w f).landView = s.landView := by
  unfold State.traceAll
  refine foldl_leaves State.landView (fun s i => ?_) _ s
  unfold State.trace
  dsimp only
  split
  · split
    · exact State.landView_modCore s c fun _ => rfl
    · rfl
  · rfl

@[simp] theorem State.landView_markFar (s : State) (f : From) : (s.markFar f).landView = s.landView := by
  unfold State.markFar
  split
  · exact State.landView_modCore s _ fun _ => rfl
  · rfl

@[simp] theorem State.landView_ask (s : State) (c : Option Nat) (l n : Nat) : (s.ask c l n).landView = s.landView := by
  unfold State.ask
  repeat' split
  all_goals rfl

@[simp] theorem State.landView_squash (s : State) (n : Nat) (g : List Agent) : (s.squash n g).landView = s.landView := by
  have discarded : ((g.foldl (fun s a => s.modCtx a Ctx.squash) s).dropMisses n g).landView = s.landView :=
    (foldl_leaves State.landView (fun s a => State.landView_modCtx s a Ctx.squash) g s : _)
  unfold State.squash
  dsimp only
  split
  · exact discarded
  · split
    · exact discarded
    · exact discarded

@[simp] theorem State.landView_squashHits (s : State) (n : Nat) (ls : List Nat) (but : List Agent) :
    (s.squashHits n ls but).landView = s.landView := by
  unfold State.squashHits
  refine foldl_leaves State.landView (fun s a => ?_) _ s
  split
  · exact State.landView_squash s n _
  · rfl

theorem State.landView_journalLine (s : State) (core line : Nat) : (s.journalLine core line).landView = s.landView := by
  unfold State.journalLine
  dsimp only
  split
  · rfl
  · split
    · exact State.landView_modCore s core fun _ => rfl
    · exact State.landView_modCore s core fun _ => rfl

end Sys2Proof.Machine
end

section
/-! # Landing a write leaves every other plain byte

The first write of a piece of a slice marks it and clears it, and its bytes read zero before and after (R190); the write changes the
bytes that it names; what follows it keeps the view. -/

namespace Sys2Proof.Machine

open Sys2Proof

theorem homeOf_eq_slice {loc core off : Nat} (h : homeOf loc = .slice core off) :
    loc < 0x10000000000 ∧ core = loc / 0x400000 ∧ off = loc % 0x400000 := by
  unfold homeOf at h
  repeat' split at h
  all_goals cases h
  next low => exact ⟨low, rfl, rfl⟩

theorem homeOf_not_slice {loc : Nat} (h : ∀ core off, homeOf loc ≠ .slice core off) : 0x10000000000 ≤ loc :=
  Nat.le_of_not_lt fun low => h _ _ (if_pos low)

/-- Marking a piece keeps the shape of the saved slices and the requests. -/
theorem State.savedShape_markPiece (s : State) (core off : Nat) :
    (s.markPiece core off).savedShape = s.savedShape ∧ (s.markPiece core off).fabric = s.fabric := by
  unfold State.markPiece
  dsimp only
  split
  · exact ⟨rfl, rfl⟩
  · exact ⟨rfl, rfl⟩

/-- A byte reads the same before and after a piece is marked: one of the piece zero, any other from memory as before. -/
theorem State.plainByte_markPiece (s : State) {core off : Nat} (hcore : core < 0x40000) (hoff : off < 0x400000) (other : Nat) :
    (s.markPiece core off).plainByte other = s.plainByte other := by
  unfold State.markPiece
  dsimp only
  split
  · rfl
  next unmarked =>
    rw [Bool.not_eq_true] at unmarked
    unfold State.plainByte State.rawByte
    cases home : homeOf other with
    | slice c o =>
      obtain ⟨-, hc, ho⟩ := homeOf_eq_slice home
      simp only [State.setCore_mem, Machine.Memory.get_clear, Home.loc]
      by_cases same : core = c
      · subst same
        rw [State.core_setCore_self]
        by_cases piece : o / 4096 = off / 4096
        · have cleared : ¬ (other < core * 0x400000 + off / 4096 * 4096 ∨
              core * 0x400000 + off / 4096 * 4096 + 4096 ≤ other) := by omega
          rw [if_neg cleared, piece, unmarked]
          simp
        · have bit : ((s.core core).foot ||| 2 ^ (off / 4096)).testBit (o / 4096) = (s.core core).foot.testBit (o / 4096) := by
            rw [Nat.testBit_or, Nat.testBit_two_pow_of_ne (Ne.symm piece), Bool.or_false]
          have kept : other < core * 0x400000 + off / 4096 * 4096 ∨
              core * 0x400000 + off / 4096 * 4096 + 4096 ≤ other := by omega
          simp only [bit, if_pos kept]
      · have kept : other < core * 0x400000 + off / 4096 * 4096 ∨
            core * 0x400000 + off / 4096 * 4096 + 4096 ≤ other := by omega
        rw [State.core_setCore_ne _ _ same, if_pos kept]
        rfl
    | hbm | quoin | plinth | regs | host | peer =>
      have high : 0x10000000000 ≤ other := homeOf_not_slice fun c o h => by rw [home] at h; cases h
      simp only [State.setCore_mem, Machine.Memory.get_clear, Home.loc]
      rw [if_pos (by omega)]

/-- Making a slice ready for a write keeps the shape, the requests and every plain byte. -/
theorem State.touchLines_keeps (s : State) {core off n : Nat} (hcore : core < 0x40000) (hoff : off + n ≤ progEnd) (hn : 0 < n) :
    (s.touchLines core off n).savedShape = s.savedShape ∧ (s.touchLines core off n).fabric = s.fabric ∧
      ∀ other, (s.touchLines core off n).plainByte other = s.plainByte other := by
  unfold State.touchLines
  dsimp only
  refine List.foldlRecOn (motive := fun t : State => t.savedShape = s.savedShape ∧ t.fabric = s.fabric ∧
    ∀ other, t.plainByte other = s.plainByte other) _ _ ⟨rfl, rfl, fun _ => rfl⟩ fun t ⟨shape, fabric, bytes⟩ i hi => ?_
  have inside : (off / 64 + i) * 64 < 0x400000 := by
    rw [List.mem_range] at hi
    rw [progEnd] at hoff
    omega
  have view := State.landView_journalLine (t.markPiece core ((off / 64 + i) * 64)) core
    (lineOf (Home.loc (.slice core ((off / 64 + i) * 64))))
  obtain ⟨marked, asked⟩ := State.savedShape_markPiece t core ((off / 64 + i) * 64)
  refine ⟨(congrArg (·.1.2.2) view).trans (marked.trans shape), (congrArg Prod.snd view).trans (asked.trans fabric), fun other => ?_⟩
  rw [State.plainByte_congr (congrArg (·.1.1) view) (fun n => congrFun (congrArg (·.1.2.1) view) n),
    State.plainByte_markPiece t hcore inside, bytes]

/-- Bytes are written to memory, whatever their home makes of them. -/
def State.poke (s : State) (loc : Nat) (data : List Byte) : State := { s with mem := Memory.write s.mem loc data }

theorem State.plainByte_poke (s : State) {loc other : Nat} {data : List Byte} (out : other < loc ∨ loc + data.length ≤ other) :
    (s.poke loc data).plainByte other = s.plainByte other := by
  have raw : (s.poke loc data).rawByte other = s.rawByte other := Memory.get_write_out data s.mem loc other out
  unfold State.plainByte
  cases homeOf other with
  | slice core off =>
    simp only [raw]
    rfl
  | hbm | quoin | plinth | regs | host | peer => exact raw

/-- The state whose view a landed plain write leaves: in a slice its lines are made ready, then the bytes change. -/
def State.written (s : State) (w : Write) : State :=
  match homeOf w.loc with
  | .slice core off => (s.touchLines core off w.data.length).poke w.loc w.data
  | _ => s.poke w.loc w.data

/-- What a plain write leaves when it lands, in terms of the view. -/
theorem State.land_plain {s : State} {w : Write} (plain : s.plainAt w.loc w.data.length) (data : w.data ≠ []) (f : From)
    (but : List Agent) : (s.land w f but).landView = (s.written w).landView := by
  have nonempty : ¬ w.data.length = 0 := by rwa [List.length_eq_zero_iff]
  unfold State.plainAt at plain
  unfold State.land State.written
  simp only [if_neg nonempty]
  cases home : homeOf w.loc with
  | regs off => rw [home] at plain; exact plain.elim
  | slice core off =>
    rw [home] at plain
    have inside : off < progEnd := by
      have : off + w.data.length ≤ progEnd := plain
      omega
    simp only [if_pos inside]
    rw [State.landView_squashHits, State.landView_reportLines, State.landView_traceAll, State.landView_heal]
    rfl
  | hbm a =>
    rw [home] at plain
    have unsaved : s.savedAt a = none := Option.isNone_iff_eq_none.1 plain
    simp only [unsaved]
    rw [State.landView_reportLines, State.landView_ask, State.landView_markFar, State.landView_heal]
    rfl
  | quoin | plinth =>
    simp only
    rw [State.landView_reportLines, State.landView_heal]
    rfl
  | host | peer =>
    simp only
    rw [State.landView_reportLines, State.landView_markFar, State.landView_heal]
    rfl

/-- What an operation that writes elsewhere leaves of the plain byte at `other`: the byte, and where the saved slices lie. -/
structure State.Spares (s t : State) (other : Nat) : Prop where
  shape : t.savedShape = s.savedShape
  byte : s.plainAt other 1 → t.homeByte other = s.homeByte other

theorem State.Spares.refl (s : State) (other : Nat) : s.Spares s other := ⟨rfl, fun _ => rfl⟩

theorem State.Spares.trans {s t u : State} {other : Nat} (h : s.Spares t other) (k : t.Spares u other) : s.Spares u other :=
  ⟨k.shape.trans h.shape, fun plain => (k.byte (State.plainAt_congr h.shape plain)).trans (h.byte plain)⟩

theorem State.spares_of_homeView {s t : State} (h : t.homeView = s.homeView) (other : Nat) : s.Spares t other :=
  ⟨State.homeView_savedShape h, State.homeByte_of_homeView h⟩

theorem State.spares_of_landView {s t : State} (h : t.landView = s.landView) (other : Nat) : s.Spares t other :=
  State.spares_of_homeView (State.homeView_of_landView h) other

/-- A plain write that does not name a byte spares it, and leaves the requests under way. -/
theorem State.land_spares {s : State} {w : Write} (plain : s.plainAt w.loc w.data.length) {other : Nat}
    (out : other < w.loc ∨ w.loc + w.data.length ≤ other) (f : From) (but : List Agent) :
    s.Spares (s.land w f but) other ∧ (s.land w f but).fabric = s.fabric := by
  by_cases empty : w.data = []
  · have nothing : s.land w f but = s := by
      unfold State.land
      rw [empty]
      rfl
    rw [nothing]
    exact ⟨State.Spares.refl s other, rfl⟩
  · have view := State.land_plain plain empty f but
    have kept : (s.written w).savedShape = s.savedShape ∧ (s.written w).fabric = s.fabric ∧
        (s.written w).plainByte other = s.plainByte other := by
      unfold State.plainAt at plain
      unfold State.written
      cases home : homeOf w.loc with
      | slice core off =>
        rw [home] at plain
        obtain ⟨low, hcore, -⟩ := homeOf_eq_slice home
        obtain ⟨shape, fabric, bytes⟩ := State.touchLines_keeps s (core := core) (by omega) plain (List.length_pos_iff.2 empty)
        exact ⟨shape, fabric, (State.plainByte_poke _ out).trans (bytes other)⟩
      | hbm | quoin | plinth | regs | host | peer => exact ⟨rfl, rfl, State.plainByte_poke _ out⟩
    obtain ⟨shape, fabric, byte⟩ := kept
    refine ⟨(State.Spares.mk shape fun plain => ?_).trans (State.spares_of_landView view other),
      (congrArg Prod.snd view).trans fabric⟩
    rw [State.homeByte_of_plain plain, State.homeByte_of_plain (State.plainAt_congr shape plain), byte]

/-- Writes that land in turn and do not name a byte spare it. -/
theorem State.foldl_land_spares {a : Agent} {but : List Agent} {other : Nat} (ws : List Write) {s : State}
    (h : ∀ w ∈ ws, s.plainAt w.loc w.data.length ∧ (other < w.loc ∨ w.loc + w.data.length ≤ other)) :
    s.Spares (ws.foldl (fun u w => u.land w (u.fromAgent 0 a) but) s) other := by
  refine List.foldlRecOn (motive := fun t : State => s.Spares t other) ws _ (State.Spares.refl s other) fun t ht w hw => ?_
  obtain ⟨plain, out⟩ := h w hw
  exact ht.trans (State.land_spares (State.plainAt_congr ht.shape plain) out _ _).1

end Sys2Proof.Machine
end

section
/-! # What an agent's load returns

A load reads the stores that its context holds, the ones in flight, and the byte at its home (R209, R211): `Ctx.held` holds the
first and those that wait for a reply slot, `State.loadView` the rest. Completing an instruction keeps both; a store held in an open chunk
adds its bytes and no other. -/

namespace Sys2Proof.Machine

open Sys2Proof

/-! ### The stores that a context holds -/

/-- The near and far stores of a context's chunk, and those that wait for a reply slot. -/
def Ctx.held (c : Ctx) : List Write × List Write × List Write := (c.chunk.near, c.chunk.far, c.unsent)

@[simp] theorem Ctx.write_held (c : Ctx) (r : Result) : (c.write r).held = c.held := by
  unfold Ctx.write Ctx.setX Ctx.setV Ctx.setP
  repeat' split
  all_goals rfl

theorem foldl_held {α : Type} {f : Ctx → α → Ctx} (h : ∀ c x, (f c x).held = c.held) (l : List α) (c : Ctx) :
    (l.foldl f c).held = c.held :=
  List.foldlRecOn (motive := fun d : Ctx => d.held = c.held) l f rfl fun d hd x _ => (h d x).trans hd

@[simp] theorem Ctx.count_held (c : Ctx) : c.count.held = c.held := by
  unfold Ctx.count Ctx.settle
  split
  · rfl
  · exact foldl_held (fun c p => Ctx.write_held c _) _ _

@[simp] theorem Ctx.popAll_held (c : Ctx) (i : Instr) : (c.popAll i).held = c.held := by
  unfold Ctx.popAll
  refine foldl_held (fun c j => ?_) _ c
  unfold Ctx.pop
  dsimp only
  split <;> rfl

@[simp] theorem Ctx.takeAll_held (late : Bool) (pins : List RegRef) (c : Ctx) (rs : List Result) :
    (c.takeAll late pins rs).held = c.held := by
  unfold Ctx.takeAll
  refine foldl_held (fun c r => ?_) _ c
  unfold Ctx.take
  split
  · exact Ctx.write_held c r
  · rfl

@[simp] theorem Ctx.inChunk_held (c : Ctx) : c.inChunk.held = c.held := by
  unfold Ctx.inChunk
  dsimp only
  split <;> rfl

@[simp] theorem Ctx.finish_held (c : Ctx) (i : Instr) (late : Bool) (rs : List Result) : (c.finish i late rs).held = c.held := by
  simp only [Ctx.finish, Ctx.inChunk_held, Ctx.takeAll_held, Ctx.count_held, Ctx.popAll_held]

theorem State.retire_held (s : State) (a : Agent) (i : Instr) (rs : List Result) : ((s.retire a i rs).ctx a).held = (s.ctx a).held := by
  rw [State.retire, State.ctx_modCtx_self]
  exact Ctx.finish_held ..

theorem State.openChunk_held (s : State) (a : Agent) : ((s.openChunk a).ctx a).held = (s.ctx a).held := by
  unfold State.openChunk
  split
  · rfl
  · dsimp only
    repeat' split
    all_goals simp only [State.ctx_modCourse, State.ctx_modCtx_self]
    all_goals rfl

/-- An agent with chunks has one open once it is opened (R211, R364). -/
theorem State.openChunk_open (s : State) {a : Agent} (h : a ≠ .plinth) : ((s.openChunk a).ctx a).chunkOpen = true := by
  unfold State.openChunk
  split
  · exact absurd rfl h
  · dsimp only
    split
    next isOpen => exact isOpen
    next =>
      repeat' split
      all_goals simp only [State.ctx_modCourse, State.ctx_modCtx_self]
      all_goals rfl

@[simp] theorem State.ctx_touchTlb (s : State) (a : Agent) (va : Word) (b : Agent) : (s.touchTlb a va).ctx b = s.ctx b := by
  unfold State.touchTlb
  split
  · dsimp only
    repeat' split
    all_goals rfl
  · unfold State.touchCourse
    split
    · dsimp only
      split <;> rfl
    · rfl
  · rfl

@[simp] theorem State.ctx_touchAll (s : State) (a : Agent) (ws : List Word) (b : Agent) : (s.touchAll a ws).ctx b = s.ctx b := by
  unfold State.touchAll
  exact foldl_leaves (fun s => s.ctx b) (fun s p => State.ctx_touchTlb s a p b) _ _

/-! ### The rest of what a load reads -/

/-- What an agent's load depends on beside its own context, and the gangs of the cores. -/
def State.loadView (s : State) : Memory × (Nat → Nat) × List (BitVec 16 × Region) × List Req × (Nat → Option (BitVec 8)) :=
  (s.mem, fun n => (s.core n).foot, s.regions, s.requests, fun n => (s.core n).gang)

theorem State.loadView_modCtx (s : State) (a : Agent) (f : Ctx → Ctx) : (s.modCtx a f).loadView = s.loadView := rfl

theorem State.loadView_modCourse (s : State) (n : Nat) (f : Course → Course) : (s.modCourse n f).loadView = s.loadView := rfl

/-- A core whose marks, port and gang stay as they are keeps the view. -/
theorem State.loadView_modCore (s : State) (n : Nat) {f : Core → Core}
    (h : ∀ k, (f k).foot = k.foot ∧ (f k).port = k.port ∧ (f k).gang = k.gang) : (s.modCore n f).loadView = s.loadView := by
  have foot := funext (State.foot_modCore s n fun k => (h k).1)
  have gang : (fun m => ((s.modCore n f).core m).gang) = fun m => (s.core m).gang := by
    funext m
    by_cases same : n = m
    · rw [← same, State.core_modCore_self, (h _).2.2]
    · rw [State.core_modCore_ne s f same]
  have requests : (s.modCore n f).requests = s.requests := by
    unfold State.requests
    have ports := Map.flatMap_set (fun k : Core => k.port.filterMap fun x => match x with | .req r => some r | .outside _ _ => none)
      Core.fresh s.cores (k := n) (v := f (s.core n)) rfl (by rw [(h _).2.1]; rfl)
    exact congrArg (· ++ s.fabric) ports
  rw [State.loadView, State.loadView, foot, gang, requests]
  rfl

@[simp] theorem State.loadView_touchTlb (s : State) (a : Agent) (va : Word) : (s.touchTlb a va).loadView = s.loadView := by
  unfold State.touchTlb
  split
  · dsimp only
    repeat' split
    · rfl
    · exact State.loadView_modCore s _ fun _ => ⟨rfl, rfl, rfl⟩
    · refine (State.loadView_modCore _ _ ?_).trans (State.loadView_modCourse s _ _)
      exact fun _ => ⟨rfl, rfl, rfl⟩
    · rfl
  · unfold State.touchCourse
    split
    · dsimp only
      split <;> rfl
    · rfl
  · rfl

@[simp] theorem State.loadView_touchAll (s : State) (a : Agent) (ws : List Word) : (s.touchAll a ws).loadView = s.loadView := by
  unfold State.touchAll
  exact foldl_leaves State.loadView (fun s p => State.loadView_touchTlb s a p) _ _

@[simp] theorem State.loadView_openChunk (s : State) (a : Agent) : (s.openChunk a).loadView = s.loadView := by
  unfold State.openChunk
  split
  · rfl
  · dsimp only
    repeat' split
    all_goals rfl

/-- Whether a byte lies in memory: a view of the machine's state stands in the reserved part of a slice and in the plinth's register
block. -/
def inMemory (loc : Nat) : Prop :=
  match homeOf loc with
  | .regs _ => False
  | .slice _ off => off < progEnd
  | _ => True

theorem State.inMemory_of_plain {s : State} {loc : Nat} (plain : s.plainAt loc 1) : inMemory loc := by
  unfold State.plainAt at plain
  unfold inMemory
  cases home : homeOf loc with
  | regs => rw [home] at plain; exact plain
  | slice core off => rw [home] at plain; exact plain
  | hbm | quoin | plinth | host | peer => trivial

/-- A load in terms of an earlier state that has the same view and the same stores in flight. -/
theorem State.loadByte_of_view {s t : State} {a : Agent} (view : t.loadView = s.loadView)
    (unsent : (t.ctx a).unsent = (s.ctx a).unsent) {loc : Nat} (mem : inMemory loc) : t.loadByte a loc =
      overlay ((t.ctx a).chunk.near ++ (t.ctx a).chunk.far) loc (overlay (s.inFlight a) loc (s.homeByte loc)) := by
  simp only [State.loadView, Prod.mk.injEq] at view
  obtain ⟨hmem, foot, regions, requests, -⟩ := view
  have home : t.homeByte loc = s.homeByte loc := by
    unfold inMemory at mem
    unfold State.homeByte State.rawByte State.savedAt
    cases place : homeOf loc with
    | regs off => rw [place] at mem; exact mem.elim
    | slice core off =>
      rw [place] at mem
      have inside : off < progEnd := mem
      simp only [if_pos inside, congrFun foot core, hmem]
    | hbm a => simp only [regions, hmem]
    | quoin | plinth | host | peer => simp only [hmem]
  simp only [State.loadByte, State.inFlight, unsent, requests, home]

/-- What keeps the view and the stores that a context holds keeps what its loads return. -/
theorem State.loadByte_congr {s t : State} {a : Agent} (view : t.loadView = s.loadView) (held : (t.ctx a).held = (s.ctx a).held)
    {loc : Nat} (mem : inMemory loc) : t.loadByte a loc = s.loadByte a loc := by
  simp only [Ctx.held, Prod.mk.injEq] at held
  obtain ⟨near, far, unsent⟩ := held
  rw [State.loadByte_of_view view unsent mem, near, far]
  rfl

/-- Completing an instruction keeps what its context's loads return. -/
theorem State.retire_loadByte (s : State) (a : Agent) (i : Instr) (rs : List Result) {loc : Nat} (mem : inMemory loc) :
    (s.retire a i rs).loadByte a loc = s.loadByte a loc :=
  State.loadByte_congr (State.loadView_modCtx ..) (State.retire_held s a i rs) mem

/-! ### Stores held in an open chunk (R211) -/

/-- A store that does not name a byte leaves what the stores around it leave there. -/
theorem overlay_out (xs ys : List Write) {w : Write} {loc : Nat} (out : loc < w.loc ∨ w.loc + w.data.length ≤ loc) (b : Byte) :
    overlay (xs ++ w :: ys) loc b = overlay (xs ++ ys) loc b := by
  have misses : (decide (w.loc ≤ loc) && decide (loc < w.loc + w.data.length)) = false := by
    rw [Bool.and_eq_false_iff, decide_eq_false_iff_not, decide_eq_false_iff_not]
    omega
  simp only [overlay, List.foldl_append, List.foldl_cons, misses, Bool.false_eq_true, if_false]

/-- The last store that names a byte leaves it. -/
theorem overlay_last (xs : List Write) {w : Write} {k : Nat} (hk : k < w.data.length) (b : Byte) :
    overlay (xs ++ [w]) (w.loc + k) b = w.data.getD k 0 := by
  have hits : (decide (w.loc ≤ w.loc + k) && decide (w.loc + k < w.loc + w.data.length)) = true := by
    rw [Bool.and_eq_true, decide_eq_true_eq, decide_eq_true_eq]
    omega
  simp only [overlay, List.foldl_append, List.foldl_cons, List.foldl_nil, hits, if_true, Nat.add_sub_cancel_left]

section
variable {s : State} {a : Agent} (isOpen : (s.ctx a).chunkOpen = true) (w : Write)
include isOpen

/-- A store of an agent whose chunk is open is held in it. -/
theorem State.store_open : s.store a w = s.modCtx a fun c => { c with chunk := c.chunk.hold (near a w.loc) w } := by
  rw [State.store, if_pos isOpen]

theorem State.store_stays_open : ((s.store a w).ctx a).chunkOpen = true := by
  rw [State.store_open isOpen, State.ctx_modCtx_self]
  unfold Chunk.hold
  split
  · exact isOpen
  · exact isOpen

theorem State.loadView_store : (s.store a w).loadView = s.loadView := by
  rw [State.store_open isOpen, State.loadView_modCtx]

/-- What an agent's load returns once a store is held: a near one stands before the far ones of its chunk. -/
theorem State.store_loadByte {loc : Nat} (mem : inMemory loc) : (s.store a w).loadByte a loc =
    overlay (if near a w.loc then (s.ctx a).chunk.near ++ w :: (s.ctx a).chunk.far
      else ((s.ctx a).chunk.near ++ (s.ctx a).chunk.far) ++ [w]) loc (overlay (s.inFlight a) loc (s.homeByte loc)) := by
  have held : (s.store a w).ctx a = { s.ctx a with chunk := (s.ctx a).chunk.hold (near a w.loc) w } := by
    rw [State.store_open isOpen, State.ctx_modCtx_self]
  rw [State.loadByte_of_view (State.loadView_store isOpen w) (by rw [held]) mem, held, Chunk.hold]
  by_cases isNear : near a w.loc = true
  · rw [if_pos isNear, if_pos isNear, List.append_assoc]
    rfl
  · rw [if_neg isNear, if_neg isNear, List.append_assoc]

/-- A held store changes no byte but its own of what its agent reads. -/
theorem State.store_loadByte_out {loc : Nat} (mem : inMemory loc) (out : loc < w.loc ∨ w.loc + w.data.length ≤ loc) :
    (s.store a w).loadByte a loc = s.loadByte a loc := by
  rw [State.store_loadByte isOpen w mem]
  split
  · rw [overlay_out _ _ out]
    rfl
  · rw [overlay_out _ [] out, List.append_nil]
    rfl

/-- A held store is the last of its chunk, where no far store is held beside a near one. -/
theorem State.store_last (last : near a w.loc = true → (s.ctx a).chunk.far = []) :
    ∃ xs, ((s.store a w).ctx a).chunk.near ++ ((s.store a w).ctx a).chunk.far = xs ++ [w] := by
  rw [State.store_open isOpen, State.ctx_modCtx_self]
  unfold Chunk.hold
  split
  next isNear =>
    dsimp only
    exact ⟨(s.ctx a).chunk.near, by rw [last isNear, List.append_nil]⟩
  next => exact ⟨(s.ctx a).chunk.near ++ (s.ctx a).chunk.far, (List.append_assoc ..).symm⟩
end

/-- The last store that an agent's chunk holds is what the agent reads there. -/
theorem State.loadByte_last {s : State} {a : Agent} {xs : List Write} {w : Write}
    (last : (s.ctx a).chunk.near ++ (s.ctx a).chunk.far = xs ++ [w]) {k : Nat} (hk : k < w.data.length) :
    s.loadByte a (w.loc + k) = w.data.getD k 0 := by
  rw [State.loadByte, last, overlay_last xs hk]

/-- Stores held in turn that do not name a byte leave it as their agent reads it, and memory as it is. -/
theorem State.foldl_store_out {a : Agent} {loc : Nat} (mem : inMemory loc) {ws : List Write} {s : State}
    (isOpen : (s.ctx a).chunkOpen = true) (out : ∀ w ∈ ws, loc < w.loc ∨ w.loc + w.data.length ≤ loc) :
    (ws.foldl (fun u w => u.store a w) s).loadByte a loc = s.loadByte a loc := by
  refine (List.foldlRecOn (motive := fun t : State => (t.ctx a).chunkOpen = true ∧ t.loadByte a loc = s.loadByte a loc) ws _
    ⟨isOpen, rfl⟩ fun t ⟨stays, same⟩ w hw => ?_).2
  exact ⟨State.store_stays_open stays w, (State.store_loadByte_out stays w mem (out w hw)).trans same⟩

theorem State.foldl_store_mem {a : Agent} (ws : List Write) {s : State} (isOpen : (s.ctx a).chunkOpen = true) :
    (ws.foldl (fun u w => u.store a w) s).mem = s.mem := by
  refine (List.foldlRecOn (motive := fun t : State => (t.ctx a).chunkOpen = true ∧ t.mem = s.mem) ws _
    ⟨isOpen, rfl⟩ fun t ⟨stays, same⟩ w _ => ?_).2
  exact ⟨State.store_stays_open stays w, (congrArg (·.1) (State.loadView_store stays w)).trans same⟩

end Sys2Proof.Machine
end

section
/-! # Every byte outside those a form stores to (O55)

Each form leaves a state whose plain bytes are spared: by `State.land_spares` where it writes at a home, by the views everywhere
else; a store that its chunk holds is seen by its agent alone. -/

namespace Sys2Proof.Machine

open Sys2Proof

/-! ### Operations that spare every byte -/

theorem State.homeView_of_loadView {s t : State} (h : t.loadView = s.loadView) : t.homeView = s.homeView := by
  simp only [State.loadView, Prod.mk.injEq] at h
  obtain ⟨mem, foot, regions, -, -⟩ := h
  rw [State.homeView, State.homeView, State.savedShape, State.savedShape, mem, foot, regions]

theorem State.group_of_loadView {s t : State} (h : t.loadView = s.loadView) (a : Agent) : t.group a = s.group a := by
  simp only [State.loadView, Prod.mk.injEq] at h
  obtain ⟨-, -, -, -, gang⟩ := h
  have cores (n : Nat) : t.gangCores n = s.gangCores n := by
    rw [State.gangCores, State.gangCores, congrFun gang n]
  unfold State.group
  split
  · rw [cores]
  · rfl

theorem State.spares_of_loadView {s t : State} (h : t.loadView = s.loadView) (other : Nat) : s.Spares t other :=
  State.spares_of_homeView (State.homeView_of_loadView h) other

theorem State.modCtx_spares (s : State) (a : Agent) (f : Ctx → Ctx) (other : Nat) : s.Spares (s.modCtx a f) other :=
  State.spares_of_loadView (State.loadView_modCtx s a f) other

theorem State.retire_spares (s : State) (a : Agent) (i : Instr) (rs : List Result) (other : Nat) :
    s.Spares (s.retire a i rs) other := State.modCtx_spares ..

theorem State.sendStore_spares (s : State) (a : Agent) (w : Write) (other : Nat) : s.Spares (s.sendStore a w) other := by
  refine State.spares_of_homeView ?_ other
  unfold State.sendStore
  split <;> rfl

theorem State.freeDead_spares (s : State) (a : Agent) (other : Nat) : s.Spares (s.freeDead a) other := by
  refine State.spares_of_landView ?_ other
  unfold State.freeDead
  split
  · exact State.landView_modCore s _ fun _ => rfl
  · rfl

theorem State.dropToken_spares (s : State) (a : Agent) (other : Nat) : s.Spares (s.dropToken a) other := by
  refine State.spares_of_landView ?_ other
  unfold State.dropToken
  repeat' split
  all_goals rfl

theorem State.countDrop_spares (s : State) (a : Agent) (other : Nat) : s.Spares (s.countDrop a) other :=
  State.spares_of_landView (by unfold State.countDrop; exact State.landView_modRegion s _ (fun _ => rfl) fun _ => rfl) other

theorem State.ask_spares (s : State) (c : Option Nat) (loc n other : Nat) : s.Spares (s.ask c loc n) other :=
  State.spares_of_landView (State.landView_ask s c loc n) other

/-- A lone context's chunk that closes spares a byte that its near stores do not name (R211 to R213). -/
theorem State.close_spares {s : State} {a : Agent} (lone : s.group a = [a]) {other : Nat}
    (apart : ∀ w ∈ (s.ctx a).chunk.near, s.plainAt w.loc w.data.length ∧ (other < w.loc ∨ w.loc + w.data.length ≤ other)) :
    s.Spares (s.close a) other := by
  unfold State.close
  split
  · rw [State.commit, lone]
    refine State.Spares.trans ?_ (State.dropToken_spares _ a other)
    refine State.Spares.trans ?_ (State.freeDead_spares _ a other)
    refine State.Spares.trans ?_ (State.modCtx_spares _ a _ other)
    have landed := State.foldl_land_spares (a := a) (but := [a]) _ apart
    exact List.foldlRecOn (motive := fun t : State => s.Spares t other) _ _ landed fun t ht w _ =>
      ht.trans (State.sendStore_spares t a w other)
  · exact State.Spares.refl s other

/-! ### Scalar stores -/

/-- The state in which a form of an agent with chunks is performed where the form does not close its chunk: the chunk is open, and
loads return what they did. -/
theorem State.before_opens {s : State} {i : Instr} (stays : i.closes = false) (chunks : s.cur ≠ .plinth) :
    ((s.before i).ctx s.cur).chunkOpen = true ∧ (s.before i).loadView = s.loadView ∧
      ((s.before i).ctx s.cur).held = (s.ctx s.cur).held ∧ (s.before i).mem = s.mem := by
  have opens : s.before i = s.openChunk s.cur := if_neg (by rw [stays]; decide)
  rw [opens]
  exact ⟨State.openChunk_open s chunks, State.loadView_openChunk s s.cur, State.openChunk_held s s.cur, State.openChunk_mem s s.cur⟩

section
variable {t : IntTy} {d a : Reg} {off : MemOff} {s : State} {loc : Nat} (chunks : s.cur ≠ .plinth)
include chunks

/-- A plain store changes no byte but its own of what its agent reads, and no byte of memory. -/
theorem exec_st_plain_frame {i : Instr} (hi : i = .st t .plain d a off) (hs : s.performs i = true)
    (writes : (s.before i).writable (effAddr (s.ctxAt i) a off) t.size loc ((s.ctxAt i).x d.val) = true)
    (last : near s.cur loc = true → (s.ctx s.cur).chunk.far = []) {other : Nat} (mem : inMemory other) :
    ∃ u : State, exec i s = .next u ∧ u.mem = s.mem ∧
      (other < loc ∨ loc + t.size ≤ other → u.loadByte s.cur other = s.loadByte s.cur other) ∧
      ∀ k, k < t.size → u.loadByte s.cur (loc + k) = BitVec.ofNat 8 (((s.ctxAt i).x d.val).toNat / 2 ^ (8 * k)) := by
  subst hi
  obtain ⟨isOpen, view, held, memory⟩ := State.before_opens (i := .st t .plain d a off) rfl chunks
  have touched := State.ctx_touchTlb (s.before (.st t .plain d a off)) s.cur
    (effAddr (s.ctxAt (.st t .plain d a off)) a off) s.cur
  rw [← touched] at isOpen held
  have far := congrArg (·.2.1) held
  refine ⟨_, exec_st_plain hs writes fun _ => regsAddr_eq_false chunks _, ?_, fun out => ?_, fun k hk => ?_⟩
  · rw [State.retire_mem]
    exact (congrArg (·.1) (State.loadView_store isOpen _)).trans ((State.touchTlb_mem ..).trans memory)
  · rw [State.retire_loadByte _ _ _ _ mem]
    refine (State.store_loadByte_out isOpen _ mem ?_).trans
      (State.loadByte_congr ((State.loadView_touchTlb ..).trans view) held mem)
    rwa [stWrite, length_natBytes]
  · obtain ⟨xs, isLast⟩ := State.store_last isOpen (stWrite (s.ctxAt (.st t .plain d a off)) t d a off loc)
      fun isNear => far.trans (last isNear)
    have kept := State.retire_held (s.stored (.st t .plain d a off) t d a off loc) s.cur (.st t .plain d a off) []
    simp only [Ctx.held, Prod.mk.injEq] at kept
    obtain ⟨near, far, -⟩ := kept
    have bytes : k < (stWrite (s.ctxAt (.st t .plain d a off)) t d a off loc).data.length := by rwa [stWrite, length_natBytes]
    refine (State.loadByte_last (by rw [near, far]; exact isLast) bytes).trans ?_
    simp [stWrite, natBytes_eq_map, hk]

/-- A release changes no plain byte but its own and those of the stores that commit with it. -/
theorem exec_st_rel_frame {i : Instr} (hi : i = .st t .rel d a off) (hs : s.performs i = true)
    (writes : (s.before i).writable (effAddr (s.ctxAt i) a off) t.size loc ((s.ctxAt i).x d.val) = true)
    (lone : s.group s.cur = [s.cur]) (closes : (s.before i).canClose s.cur = true) (noFar : (s.ctxAt i).chunk.far = [])
    (quiet : (s.before i).performed s.cur (beyond loc) = true) (plain : (s.before i).plainAt loc t.size) {other : Nat}
    (byte : (s.before i).plainAt other 1) (out : other < loc ∨ loc + t.size ≤ other)
    (apart : ∀ w ∈ (s.ctxAt i).chunk.near, (s.before i).plainAt w.loc w.data.length ∧
      (other < w.loc ∨ w.loc + w.data.length ≤ other)) :
    ∃ u : State, exec i s = .next u ∧ u.homeByte other = (s.before i).homeByte other := by
  subst hi
  obtain ⟨isOpen, view, held, memory⟩ := State.before_opens (i := .st t .rel d a off) rfl chunks
  have touched := State.ctx_touchTlb (s.before (.st t .rel d a off)) s.cur
    (effAddr (s.ctxAt (.st t .rel d a off)) a off) s.cur
  rw [← touched] at isOpen
  have stored : (s.stored (.st t .rel d a off) t d a off loc).loadView = (s.before (.st t .rel d a off)).loadView :=
    (State.loadView_store isOpen _).trans (State.loadView_touchTlb ..)
  have spared := State.spares_of_loadView stored other
  have alone := (State.group_of_loadView (stored.trans view) s.cur).trans lone
  have landed : (s.stored (.st t .rel d a off) t d a off loc).Spares
      ((s.stored (.st t .rel d a off) t d a off loc).close s.cur) other := by
    refine State.close_spares alone fun w hw => ?_
    suffices h : (s.before (.st t .rel d a off)).plainAt w.loc w.data.length ∧
        (other < w.loc ∨ w.loc + w.data.length ≤ other) from ⟨State.plainAt_congr spared.shape h.1, h.2⟩
    rw [State.stored, State.store_open isOpen, State.ctx_modCtx_self, touched] at hw
    unfold Chunk.hold at hw
    split at hw
    · rcases List.mem_append.1 hw with old | new
      · exact apart w old
      · rw [List.mem_singleton.1 new, stWrite, length_natBytes]
        exact ⟨plain, out⟩
    · exact apart w hw
  refine ⟨_, exec_st_rel hs writes (fun _ => regsAddr_eq_false chunks _) closes noFar quiet, ?_⟩
  exact ((spared.trans landed).trans (State.retire_spares ..)).byte byte
end

/-! ### Vector stores -/

/-- The lowest of no address. -/
theorem lowestAt_eq_none {p : Nat → Bool} {es : List (Word × Nat)} (h : ∀ e ∈ es, p e.2 = false) : lowestAt p es = none := by
  rw [lowestAt, List.filter_eq_nil_iff.2 fun e he => by rw [h e he]; decide]
  rfl

/-- A vector store's form, its mode of addresses, and the operation it issues. -/
theorem vectorStore_form {i : Instr} {mode : VAddr} {d a : Reg} {lay : Option (BitVec 3)} {g : PReg}
    (form : (i = .vst d a lay g ∧ mode = .unit) ∨ (∃ b, i = .vsts d a b lay g ∧ mode = .stride b) ∨
      ∃ b, i = .vstx d a b lay g ∧ mode = .index b) :
    i.closes = false ∧ ∀ s, exec i s = issueV i s (doStore mode d a lay) := by
  obtain ⟨rfl, rfl⟩ | ⟨b, rfl, rfl⟩ | ⟨b, rfl, rfl⟩ := form
  · exact ⟨rfl, fun _ => rfl⟩
  · exact ⟨rfl, fun _ => rfl⟩
  · exact ⟨rfl, fun _ => rfl⟩

/-- The writes of a vector store through a plain window: its lanes' elements, joined where they follow one another (R198). -/
def laneWrites (win : Nat) (data : Lanes) (es : List (Nat × Word)) (locs : List Nat) : List Write :=
  ((es.zip locs).map fun e =>
    (⟨e.2, natBytes (winSize win) (winEncode win (lane data e.1.1)), win, winSize win⟩ : Write)).foldl joinWrite []

/-- Whether a form's lanes follow one another. -/
def contiguous (mode : VAddr) : Bool := match mode with | .unit => true | _ => false

theorem contiguous_eq (mode : VAddr) : contiguous mode = (mode == .unit) := by
  cases mode <;> rfl

theorem foldl_store_cur (l : List Write) (s : State) :
    l.foldl (fun u w => u.store u.cur w) s = l.foldl (fun u w => u.store s.cur w) s :=
  foldl_at_cur (f := fun n u (w : Write) => u.store n w) (fun n u w => State.store_cur u n w) l s

/-- A vector store through a plain window whose lanes pass the checks of R199 stores the elements of its lanes. -/
theorem doStore_lanes {mode : VAddr} {d a : Reg} {lay : Option (BitVec 3)} {m : Word} {v : State} {n : Agent} (cur : v.cur = n)
    {locs : List Nat} {win : Nat} (hwin : win = winOf ((v.ctx n).x a.val)) (noDx : winDx win = none) {es : List (Nat × Word)}
    (hes : es = laneAddrs (v.ctx n) mode a (winSize win) m)
    (found : v.vecCheck n .write (es.map (·.2)) (winSize win) (lay.getD 0).toNat win (contiguous mode) true = .ok locs)
    (sound : ∀ l ∈ locs, v.partPoison (laneWrites win ((v.ctx n).v d.val) es locs ++ v.heldStores n) l (winSize win) = false ∧
      v.areaShut l = false)
    (allowed : ∀ w ∈ laneWrites win ((v.ctx n).v d.val) es locs, v.areaDenied w = none) :
    doStore mode d a lay m v = .done ((laneWrites win ((v.ctx n).v d.val) es locs).foldl (fun u w => u.store n w)
      (v.touchAll n (es.map (·.2)))) [] := by
  have noError : lowestAt (fun l => v.partPoison (laneWrites win ((v.ctx n).v d.val) es locs ++ v.heldStores n) l (winSize win))
      ((es.map (·.2)).zip locs) = none := lowestAt_eq_none fun e he => (sound e.2 (List.of_mem_zip he).2).1
  have still : locs.any v.areaShut = false := List.any_eq_false.2 fun l hl => by rw [(sound l hl).2]; decide
  have noDenial : (laneWrites win ((v.ctx n).v d.val) es locs).findSome? v.areaDenied = none :=
    List.findSome?_eq_none_iff.2 allowed
  subst cur hwin hes
  unfold doStore
  simp only [noDx]
  change (v.vecCheck v.cur .write _ _ (lay.getD 0).toNat _ (contiguous mode) true).then _ = _
  simp only [laneWrites] at noError noDenial ⊢
  simp only [found, Or.then, noError, still, noDenial, Bool.false_eq_true, if_false, foldl_store_cur, State.touchAll_cur]

/-- Bytes that neither of two joined writes names are not named by what joins them. -/
theorem joinWrite_misses {ws : List Write} {w : Write} {other : Nat}
    (h : ∀ x ∈ ws, other < x.loc ∨ x.loc + x.data.length ≤ other) (hw : other < w.loc ∨ w.loc + w.data.length ≤ other) :
    ∀ x ∈ joinWrite ws w, other < x.loc ∨ x.loc + x.data.length ≤ other := by
  have appended : ∀ x ∈ ws ++ [w], other < x.loc ∨ x.loc + x.data.length ≤ other := by
    intro x hx
    rcases List.mem_append.1 hx with old | new
    · exact h x old
    · rwa [List.mem_singleton.1 new]
  unfold joinWrite
  split
  next p rest shape =>
    have hp := h p (List.mem_reverse.1 (by rw [shape]; exact List.mem_cons_self))
    have hrest : ∀ x ∈ rest, other < x.loc ∨ x.loc + x.data.length ≤ other := fun x hx =>
      h x (List.mem_reverse.1 (by rw [shape]; exact List.mem_cons_of_mem p hx))
    have replaced (q : Write) (hq : other < q.loc ∨ q.loc + q.data.length ≤ other) :
        ∀ x ∈ (q :: rest).reverse, other < x.loc ∨ x.loc + x.data.length ≤ other := by
      intro x hx
      rcases List.mem_cons.1 (List.mem_reverse.1 hx) with rfl | old
      · exact hq
      · exact hrest x old
    dsimp only
    split
    · exact appended
    · split
      next after =>
        rw [Bool.and_eq_true, decide_eq_true_eq] at after
        refine replaced _ ?_
        dsimp only
        rw [List.length_append]
        omega
      next =>
        split
        next before =>
          rw [Bool.and_eq_true, decide_eq_true_eq] at before
          refine replaced _ ?_
          dsimp only
          rw [List.length_append]
          omega
        next => exact appended
  next =>
    intro x hx
    rwa [List.mem_singleton.1 hx]

theorem laneWrites_misses {win : Nat} {data : Lanes} {es : List (Nat × Word)} {locs : List Nat} {other : Nat}
    (h : ∀ l ∈ locs, other < l ∨ l + winSize win ≤ other) :
    ∀ x ∈ laneWrites win data es locs, other < x.loc ∨ x.loc + x.data.length ≤ other := by
  unfold laneWrites
  refine List.foldlRecOn (motive := fun ws : List Write => ∀ x ∈ ws, other < x.loc ∨ x.loc + x.data.length ≤ other) _ _
    (fun x hx => absurd hx List.not_mem_nil) fun ws hws w hw => joinWrite_misses hws ?_
  obtain ⟨e, he, rfl⟩ := List.mem_map.1 hw
  rw [length_natBytes]
  exact h e.2 (List.of_mem_zip he).2

/-- A vector store that its chunk holds changes no byte but those of its lanes of what its agent reads, and no byte of memory. -/
theorem exec_vectorStore_frame {i : Instr} {mode : VAddr} {d a : Reg} {lay : Option (BitVec 3)} {g : PReg}
    (form : (i = .vst d a lay g ∧ mode = .unit) ∨ (∃ b, i = .vsts d a b lay g ∧ mode = .stride b) ∨
      ∃ b, i = .vstx d a b lay g ∧ mode = .index b) {s : State} (hs : s.performs i = true) (chunks : s.cur ≠ .plinth)
    {v : State} (hv : v = s.before i) {win : Nat} (hwin : win = winOf ((s.ctxAt i).x a.val)) (noDx : winDx win = none)
    {es : List (Nat × Word)} (hes : es = laneAddrs (s.ctxAt i) mode a (winSize win) (v.guardMask s.cur i)) {locs : List Nat}
    (found : v.vecCheck s.cur .write (es.map (·.2)) (winSize win) (lay.getD 0).toNat win (mode == .unit) true = .ok locs)
    (sound : ∀ l ∈ locs, v.partPoison (laneWrites win ((s.ctxAt i).v d.val) es locs ++ v.heldStores s.cur) l (winSize win) =
      false ∧ v.areaShut l = false)
    (allowed : ∀ w ∈ laneWrites win ((s.ctxAt i).v d.val) es locs, v.areaDenied w = none) {other : Nat} (mem : inMemory other) :
    ∃ u : State, exec i s = .next u ∧ u.mem = s.mem ∧
      ((∀ l ∈ locs, other < l ∨ l + winSize win ≤ other) → u.loadByte s.cur other = s.loadByte s.cur other) := by
  obtain ⟨stays, issues⟩ := vectorStore_form form
  obtain ⟨isOpen, view, held, memory⟩ := State.before_opens stays chunks
  subst hv
  rw [← contiguous_eq] at found
  have run := exec_issueV_performs issues hs
  rw [doStore_lanes (State.before_cur s i) hwin noDx hes found sound allowed] at run
  rw [← State.ctx_touchAll (s.before i) s.cur (es.map (·.2))] at isOpen held
  refine ⟨_, run, ?_, fun out => ?_⟩
  · change State.mem (List.foldl _ _ _) = _
    rw [State.foldl_store_mem _ isOpen, State.touchAll_mem, memory]
  · refine (State.retire_loadByte _ _ _ _ mem).trans ((State.foldl_store_out mem isOpen (laneWrites_misses out)).trans ?_)
    exact State.loadByte_congr ((State.loadView_touchAll ..).trans view) held mem

end Sys2Proof.Machine
end

section
/-! # Atomics, cells and barriers spare every other byte

A form that is performed as it issues lands its writes at their homes (R201, R204, R285, R286); one that leaves as a request, or
waits, writes nothing. -/

namespace Sys2Proof.Machine

open Sys2Proof

/-! ### Atomics -/

/-- No loop register refuses a plain write: it reaches no context area (R69). -/
theorem State.areaDenied_of_plain {s : State} {w : Write} {n : Nat} (nonempty : 0 < n) (plain : s.plainAt w.loc n) :
    s.areaDenied w = none := by
  unfold State.plainAt at plain
  unfold State.areaDenied
  cases home : homeOf w.loc with
  | slice core off =>
    rw [home] at plain
    have inside : off < progEnd := by
      have : off + n ≤ progEnd := plain
      omega
    simp [inside]
  | hbm a =>
    rw [home] at plain
    have unsaved : s.savedAt a = none := Option.isNone_iff_eq_none.1 plain
    simp [unsaved]
  | regs | quoin | plinth | host | peer => rfl

theorem amoSize_pos (t : AmoTy) : 0 < t.size := by
  cases t <;> decide

/-- An atomic writes the bytes of its type at its location, where it writes. -/
theorem State.amoWrite_place {s : State} {op : Option AmoOp} {t : AmoTy} {loc win : Nat} {cmp new : Word} {w : Write}
    (h : s.amoWrite op t loc win cmp new = some w) : w.loc = loc ∧ w.data.length = t.size := by
  unfold State.amoWrite at h
  dsimp only at h
  split at h
  · cases h
    exact ⟨rfl, length_natBytes ..⟩
  · split at h
    · cases h
      exact ⟨rfl, length_natBytes ..⟩
    · cases h

/-- An atomic at a plain home spares every byte but its own, and leaves the requests under way. -/
theorem State.amoAtHome_spares {s : State} {n : Agent} {op : Option AmoOp} {t : AmoTy} {loc win : Nat} {cmp new : Word}
    (plain : s.plainAt loc t.size) {other : Nat} (out : other < loc ∨ loc + t.size ≤ other) :
    s.Spares (s.amoAtHome n op t loc win cmp new).2 other ∧ (s.amoAtHome n op t loc win cmp new).2.fabric = s.fabric := by
  unfold State.amoAtHome State.amoFrom
  dsimp only
  cases written : s.amoWrite op t loc win cmp new with
  | none => exact ⟨State.ask_spares .., congrArg Prod.snd (State.landView_ask s _ loc t.size)⟩
  | some w =>
    obtain ⟨place, size⟩ := State.amoWrite_place written
    exact State.land_spares (by rwa [place, size]) (by rwa [place, size]) _ _

section
variable {op : Option AmoOp} {t : AmoTy} {d a b : Reg} {g : PReg} {i : Instr} (form : i = atomicForm op t d a b g) {s : State}
  (hs : s.performs i = true) {loc : Nat} (passes : (s.before i).amoClear s.cur ((s.ctxAt i).x a.val) t.size loc)
include form hs passes

/-- An atomic that is performed as it issues changes no plain byte but its own, and sends nothing. -/
theorem exec_atomic_here_frame (here : (s.before i).amoHere s.cur t.size loc) (plain : (s.before i).plainAt loc t.size) {other : Nat}
    (byte : (s.before i).plainAt other 1) (out : other < loc ∨ loc + t.size ≤ other) :
    ∃ u : State, exec i s = .next u ∧ u.homeByte other = (s.before i).homeByte other ∧ u.fabric = (s.before i).fabric := by
  have allowed : ((s.before i).amoWrite op t loc (winOf ((s.ctxAt i).x a.val)) ((s.ctxAt i).x d.val)
      ((s.ctxAt i).x b.val)).bind (s.before i).areaDenied = none := by
    rw [Option.bind_eq_none_iff]
    intro w written
    exact State.areaDenied_of_plain (amoSize_pos t) (by rwa [(State.amoWrite_place written).1])
  have touched := State.spares_of_loadView (State.loadView_touchTlb (s.before i) s.cur ((s.ctxAt i).x a.val)) other
  obtain ⟨spared, sent⟩ := State.amoAtHome_spares (s := (s.before i).touchTlb s.cur ((s.ctxAt i).x a.val)) (n := s.cur) (op := op)
    (win := winOf ((s.ctxAt i).x a.val)) (cmp := (s.ctxAt i).x d.val) (new := (s.ctxAt i).x b.val)
    (State.plainAt_congr touched.shape plain) out
  exact ⟨_, exec_atomic_here form hs passes here allowed, ((touched.trans spared).trans (State.retire_spares ..)).byte byte,
    sent.trans (State.touchTlb_fabric ..)⟩

/-- An atomic that leaves as a request changes no byte of memory, and is the only request that leaves. -/
theorem exec_atomic_leaves_frame (late : (s.before i).late = true) (far : near s.cur loc = false)
    (plain : (s.before i).reserved loc = false) (slot : (s.before i).slotsFree s.cur 1 = true) (sent : (s.ctxAt i).unsent = []) :
    ∃ u : State, exec i s = .next u ∧ u.mem = (s.before i).mem ∧ u.fabric.length = (s.before i).fabric.length + 1 := by
  refine ⟨_, exec_atomic_leaves form hs passes late far plain slot sent, State.touchTlb_mem .., ?_⟩
  change (_ ++ [_]).length = _
  rw [List.length_append, List.length_singleton]
end

/-! ### Cells -/

/-- A cell update at a plain home spares every byte but the cell's. -/
theorem State.cellAtHome_spares {s : State} {n : Agent} {loc : Nat} {f : W32} (plain : s.plainAt loc 32) {other : Nat}
    (out : other < loc ∨ loc + 32 ≤ other) : s.Spares (s.cellAtHome n loc f) other := by
  have size : (s.cellWrite loc f).data.length = 32 := length_natBytes ..
  unfold State.cellAtHome
  split
  · exact State.countDrop_spares s n other
  · exact (State.land_spares (w := s.cellWrite loc f) (by rw [size]; exact plain) (by rw [size]; exact out) _ _).1

theorem State.slotsFree_mono {s : State} {a : Agent} {m n : Nat} (le : m ≤ n) (h : s.slotsFree a n = true) :
    s.slotsFree a m = true := by
  unfold State.slotsFree at h ⊢
  split at h
  · rw [decide_eq_true_eq] at h ⊢
    omega
  · rfl

theorem length_filter_zip_le {α β : Type} {p q : α → Bool} (h : ∀ x, p x = true → q x = true) (xs : List α) (ys : List β) :
    ((xs.zip ys).filter fun e => p e.1).length ≤ (xs.filter q).length := by
  induction xs generalizing ys with
  | nil => simp
  | cons x xs ih =>
    cases ys with
    | nil => simp
    | cons y ys =>
      have step := ih ys
      rw [List.zip_cons_cons, List.filter_cons, List.filter_cons]
      by_cases hp : p x = true
      · simp only [hp, h x hp, if_true, List.length_cons]
        omega
      · simp only [hp, Bool.false_eq_true, if_false]
        split
        · rw [List.length_cons]
          omega
        · exact step

theorem State.sendCells_spares (s : State) (n : Agent) (far : List (Nat × W32)) (other : Nat) : s.Spares (s.sendCells n far) other :=
  State.spares_of_homeView (by rfl) other

/-- A `faddx` changes no plain byte but those of its cells. -/
theorem exec_faddx_frame {a : Reg} {b : XV} {g : PReg} {s : State} {locs : List Nat} (hs : s.performs (.faddx a b g) = true)
    {v : State} (hv : v = s.before (.faddx a b g)) {ps : List (Word × W32)}
    (hps : ps = faddxParts (s.ctxAt (.faddx a b g)) a b (v.guardMask s.cur (.faddx a b g))) {other : Nat}
    (found : v.faddxLocs s.cur (ofLanes b) ((s.ctxAt (.faddx a b g)).x a.val) (ps.map (·.1)) = .ok locs)
    (cells : ∀ l ∈ locs, v.meetsError s.cur l 32 = false ∧ v.rmwWaits s.cur l 32 = false ∧ v.plainAt l 32 ∧
      (other < l ∨ l + 32 ≤ other))
    (slots : v.slotsFree s.cur (locs.filter fun l => v.late && !near s.cur l).length = true)
    (sent : (s.ctxAt (.faddx a b g)).unsent = []) (byte : v.plainAt other 1) :
    ∃ u : State, exec (.faddx a b g) s = .next u ∧ u.homeByte other = v.homeByte other := by
  have cell : ∀ e ∈ v.cellsNow s.cur (locs.zip (ps.map (·.2))), e.1 ∈ locs := fun e he =>
    (List.of_mem_zip (List.mem_filter.1 he).1).1
  have room : (v.cellsFar s.cur (locs.zip (ps.map (·.2)))).length ≤ (locs.filter fun l => v.late && !near s.cur l).length :=
    length_filter_zip_le (p := fun l => v.late && !near s.cur l && !v.reserved l) (fun l h => (Bool.and_eq_true_iff.1 h).1) _ _
  have run := exec_faddx hs hv hps found (fun l hl => (cells l hl).1) (fun e he => (cells e.1 (cell e he)).2.1)
    (fun e he => State.areaDenied_of_plain (n := 32) (by decide) (cells e.1 (cell e he)).2.2.1) (State.slotsFree_mono room slots) sent
  have start : v.Spares (v.cellsSent s.cur (ps.map (·.1)) (locs.zip (ps.map (·.2)))) other :=
    (State.spares_of_loadView (State.loadView_touchAll v s.cur (ps.map (·.1))) other).trans
      (State.sendCells_spares ..)
  have updated := List.foldlRecOn (motive := fun t : State => v.Spares t other) (v.cellsNow s.cur (locs.zip (ps.map (·.2))))
    (fun u e => u.cellAtHome s.cur e.1 e.2) start fun t ht e he =>
      ht.trans (State.cellAtHome_spares (State.plainAt_congr ht.shape (cells e.1 (cell e he)).2.2.1) (cells e.1 (cell e he)).2.2.2)
  exact ⟨_, run, (updated.trans (State.retire_spares ..)).byte byte⟩

/-! ### Barriers -/

/-- A barrier's new value spares every byte but the barrier's. -/
theorem State.putBar_spares {s : State} {loc : Nat} (plain : s.plainAt loc 16) {other : Nat} (out : other < loc ∨ loc + 16 ≤ other)
    (b : Bar) (f : From) : s.Spares (s.putBar loc b f) other := by
  have size : (⟨loc, natBytes 16 b.toNat, 0, 0⟩ : Write).data.length = 16 := length_natBytes ..
  exact (State.land_spares (w := ⟨loc, natBytes 16 b.toNat, 0, 0⟩) (by rw [size]; exact plain) (by rw [size]; exact out) _ _).1

section
variable {a b : Reg} {g : PReg} {s : State} {loc other : Nat}

/-- A `barinit` changes no plain byte but the barrier's. -/
theorem exec_barinit_frame {i : Instr} (hi : i = .barinit a b g) (hs : s.performs i = true)
    (found : (s.before i).locateBar s.cur .write ((s.ctxAt i).x a.val) = .ok loc)
    (plain : (s.before i).plainAt loc 16) (byte : (s.before i).plainAt other 1) (out : other < loc ∨ loc + 16 ≤ other) :
    ∃ u : State, exec i s = .next u ∧ u.homeByte other = (s.before i).homeByte other := by
  subst hi
  have run := exec_performs (i := .barinit a b g) (body := fun c u => (u.locateBar u.cur .write (c.x a.val)).then fun l =>
    if u.barBusy u.cur l then .wait (u.stall u.cur)
    else .done (u.putBar l ⟨fld (c.x b.val) 0 16, 0, 0, false, 0, false, fld (c.x b.val) 32 32, (u.barAt l).epoch⟩
      (u.fromAgent 1 u.cur)) []) (fun _ => rfl) hs
  refine ⟨_, run, ?_⟩
  rw [State.before_cur, found]
  simp only [Or.then]
  split
  · exact (State.modCtx_spares ..).byte byte
  · exact ((State.putBar_spares plain out _ _).trans (State.retire_spares ..)).byte byte

/-- A `bararr` changes no plain byte but the barrier's. -/
theorem exec_bararr_frame {i : Instr} (hi : i = .bararr a b g) (hs : s.performs i = true)
    (found : (s.before i).locateBar s.cur .write ((s.ctxAt i).x a.val) = .ok loc)
    (plain : (s.before i).plainAt loc 16) (byte : (s.before i).plainAt other 1) (out : other < loc ∨ loc + 16 ≤ other) :
    ∃ u : State, exec i s = .next u ∧ u.homeByte other = (s.before i).homeByte other := by
  subst hi
  have run := exec_performs (i := .bararr a b g) (body := fun c u => (u.locateBar u.cur .write (c.x a.val)).then fun l =>
    if !u.performed u.cur false || u.barBusy u.cur l then .wait (u.stall u.cur)
    else if (u.barAt l).full then .wait (u.park u.cur (.bararr l (c.x a.val) (c.x b.val) a b g))
    else .done (u.arriveBar u.cur l (c.x a.val) (c.x b.val)) []) (fun _ => rfl) hs
  refine ⟨_, run, ?_⟩
  rw [State.before_cur, found]
  simp only [Or.then]
  split
  · exact (State.modCtx_spares ..).byte byte
  · split
    · exact (State.modCtx_spares ..).byte byte
    · exact (((State.putBar_spares plain out _ _).trans (State.modCtx_spares ..)).trans (State.retire_spares ..)).byte byte

/-- A `barwait` changes no byte of memory. -/
theorem exec_barwait_mem {d : Reg} (hs : s.performs (.barwait d a g) = true)
    (found : (s.before (.barwait d a g)).locateBar s.cur .read ((s.ctxAt (.barwait d a g)).x a.val) = .ok loc) :
    ∃ u : State, exec (.barwait d a g) s = .next u ∧ u.mem = (s.before (.barwait d a g)).mem := by
  refine ⟨_, issue_performs hs _, ?_⟩
  rw [State.before_cur]
  change State.mem (State.conclude s _ (Or.then (State.locateBar _ _ _ ((s.ctxAt (.barwait d a g)).x a.val)) _)) = _
  rw [found]
  simp only [Or.then]
  split
  · rfl
  · split
    · exact State.clearRecord_mem ..
    · rfl
end

/-- Settles O55, form by form: a held store by its agent's loads, a store at a home by what it spares. -/
theorem memoryFrame : Obligations.MemoryFrame := by
  intro s other
  refine ⟨fun t d a off loc hs writes chunks last mem => exec_st_plain_frame chunks rfl hs writes last mem,
    fun t d a off loc hs writes chunks lone closes noFar quiet plain byte out apart =>
      exec_st_rel_frame chunks rfl hs writes lone closes noFar quiet plain byte out apart,
    fun i mode d a lay g locs form hs noDx chunks found sound allowed byte _ =>
      exec_vectorStore_frame form hs chunks rfl rfl noDx rfl found sound allowed (State.inMemory_of_plain byte),
    fun i t d a b g loc form hs found admitted sound => ?_,
    fun a b g locs hs found cells slots sent byte => exec_faddx_frame hs rfl rfl found cells slots sent byte,
    fun d a b g loc => ⟨fun i form hs found plain byte out => ?_, fun hs found => exec_barwait_mem hs found⟩⟩
  · obtain ⟨op, form⟩ : ∃ op, i = atomicForm op t d a b g := by
      obtain ⟨op, rfl⟩ | rfl := form
      · exact ⟨some op, rfl⟩
      · exact ⟨none, rfl⟩
    refine ⟨fun home free plain byte out => ?_, fun late far plain slot sent =>
      exec_atomic_leaves_frame form hs ⟨found, admitted, sound⟩ late far plain slot sent⟩
    exact exec_atomic_here_frame form hs ⟨found, admitted, sound⟩ ⟨home.imp_right Or.inl, free⟩ plain byte out
  · obtain form | form := form
    · exact exec_barinit_frame form hs found plain byte out
    · exact exec_bararr_frame form hs found plain byte out

end Sys2Proof.Machine
end

section
/-! # The forms of order

What `fence`, `chunk` and `ifence` wait for and what they leave (R229 to R232). -/

namespace Sys2Proof.Machine

open Sys2Proof

/-- A wait at system scope leaves no store of its context outside its home (R229, R231). -/
theorem State.storesHome_of_performed {s : State} {a : Agent} (h : s.performed a true = true) : s.storesHome a = true := by
  obtain ⟨h, replies⟩ := Bool.and_eq_true_iff.1 h
  obtain ⟨h, -⟩ := Bool.and_eq_true_iff.1 h
  obtain ⟨flight, requests⟩ := Bool.and_eq_true_iff.1 h
  rw [List.all_eq_true] at flight requests replies
  have noFlight : s.inFlight a = [] := List.eq_nil_iff_forall_not_mem.2 fun w hw => by
    have counted := flight w hw
    simp only [Bool.or_true, Bool.not_true] at counted
    cases counted
  simp only [State.storesHome, Bool.and_eq_true, List.all_eq_true, noFlight, List.isEmpty_nil, true_and]
  refine ⟨fun r hr => ?_, fun r hr => ?_⟩
  · have asked := requests r hr
    cases op : r.op with
    | store w =>
      have sent : r.src ≠ a := fun mine => by
        have flying : w ∈ s.inFlight a :=
          List.mem_append_left _ (List.mem_filterMap.2 ⟨r, hr, by simp only [op, mine, if_true]⟩)
        rw [noFlight] at flying
        cases flying
      simp [sent]
    | amo | cell =>
      rw [op] at asked
      simpa using asked
    | send | screed => exact Bool.or_true _
  · have answered := replies r (List.mem_append_left _ hr)
    cases op : r.op with
    | ack loc =>
      rw [op] at answered
      have other : r.dst ≠ a := fun mine => by simp [mine] at answered
      simp [other]
    | value d x =>
      rw [op] at answered
      simpa using answered
    | watched | accepted | dropped | busy | resend => exact Bool.or_true _

section
variable {s : State} {g : PReg}

theorem exec_fence {k : Scope} (hs : s.performs (.fence k g) = true) : exec (.fence k g) s = .next
    (if (s.before (.fence k g)).performed s.cur (k == .system) = true ∧ (s.before (.fence k g)).noSend s.cur = true
     then s.completed (.fence k g) [] else (s.before (.fence k g)).stall s.cur) := by
  refine (issue_performs hs _).trans ?_
  simp only [State.before_cur, ← Bool.and_eq_true]
  split <;> rfl

theorem exec_chunk (hs : s.performs (.chunk g) = true) :
    exec (.chunk g) s = .next ((s.close s.cur).retire s.cur (.chunk g) []) := issue_performs hs _

/-- The state that an `ifence` retires from: the words fetched ahead and the core's fetch buffer are gone (R231). -/
def State.unfetched (s : State) (a : Agent) : State :=
  let t := s.modCtx a fun c => { c with ahead := [] }
  match a.core? with | some n => t.modCore n fun k => { k with fetch := [] } | none => t

theorem State.unfetched_ahead (s : State) (a : Agent) : ((s.unfetched a).ctx a).ahead = [] := by
  unfold State.unfetched
  dsimp only
  split
  · rw [State.ctx_modCore, State.ctx_modCtx_self]
  · rw [State.ctx_modCtx_self]

theorem State.unfetched_fetch (s : State) {a : Agent} {n : Nat} (h : a.core? = some n) : ((s.unfetched a).core n).fetch = [] := by
  simp only [State.unfetched, h, State.core_modCore_self]

theorem State.unfetched_mem (s : State) (a : Agent) : (s.unfetched a).mem = s.mem := by
  unfold State.unfetched
  dsimp only
  split <;> rfl

theorem exec_ifence (hs : s.performs (.ifence g) = true) (quiet : (s.before (.ifence g)).performed s.cur true = true) :
    exec (.ifence g) s = .next (((s.before (.ifence g)).unfetched s.cur).retire s.cur (.ifence g) []) := by
  refine (issue_performs hs _).trans ?_
  simp only [State.before_cur, State.storesHome_of_performed quiet, if_true, State.modCtx_cur]
  rfl
end

/-- Settles O25: each form's outcome on the state in which its operation is performed. -/
theorem orderForms : Obligations.OrderForms := fun s _ =>
  ⟨fun _ hs => exec_fence hs, exec_chunk, fun hs quiet => ⟨_, exec_ifence hs quiet, State.unfetched_ahead _ s.cur,
    fun _ core => State.unfetched_fetch _ core, State.unfetched_mem _ s.cur⟩⟩

end Sys2Proof.Machine
end

section
/-! # Requests at their homes and replies at their contexts

A request that nothing precedes is performed at its home, at a port that the commit token shuts it waits there, and before a closed
gate it stays (R214, R219, R340); a reply sinks at its context, or into a mortar buffer while the context's course moves (R256,
R341). -/

namespace Sys2Proof.Machine

open Sys2Proof

/-! ### Requests -/

/-- The parts of an open port. -/
theorem State.portShut_eq_false {s : State} {a : Agent} {loc n : Nat} : s.portShut a loc n = false ↔
    s.tokenBlocks loc n [] = false ∧ s.gateShut a loc = false ∧ s.areaShut loc = false := by
  rw [State.portShut, Bool.or_eq_false_iff, Bool.or_eq_false_iff, and_assoc]

theorem State.gateShut_slice {s : State} {a : Agent} {loc core off : Nat} (home : homeOf loc = .slice core off) :
    s.gateShut a loc = s.gatedFrom a core := by
  simp only [State.gateShut, home]

/-- A request behind a message of its ports, or a message behind it, stays where it is (R255). -/
theorem exec_farAccess_behindPort {s : State} {i : Nat} (behind : s.behindPort i = true) :
    exec (.farAccessAtHome i) s = .next s := by
  change execFarAccessAtHome i s = _
  unfold execFarAccessAtHome
  simp only [behind, Bool.or_true, Bool.true_or, if_true]
  repeat' split
  all_goals rfl

section
variable {s : State} {p q : List Req} {r : Req} {loc n : Nat} (queue : s.fabric = p ++ r :: q) (target : r.op.target = some (loc, n))
include queue target

/-- The step on a request that stands in the fabric, in terms of what can hold it back (R214, R219, R340, R345). -/
theorem exec_farAccess : exec (.farAccessAtHome p.length) s = .next
    (if p.any (Req.onLine r.src (linesOf loc n)) || s.behindPort p.length || s.gateShut r.src loc || s.areaShut loc then s
     else if s.tokenBlocks loc n [] then s.queueAt loc p.length
     else ({ s with fabric := p ++ q } : State).atHome r) := by
  change execFarAccessAtHome p.length s = _
  unfold execFarAccessAtHome State.behind
  simp only [queue, getElem?_append_cons, target, List.take_left, dropAt_append_cons]

/-- A request before a closed gate stays where it is (R340). -/
theorem exec_farAccess_gateShut (shut : s.gateShut r.src loc = true) : exec (.farAccessAtHome p.length) s = .next s := by
  rw [exec_farAccess queue target, shut, Bool.or_true, Bool.true_or, if_pos rfl]

section
variable (first : p.any (Req.onLine r.src (linesOf loc n)) = false) (clear : s.behindPort p.length = false)
include first clear

/-- A request that nothing precedes is performed where its port is open (R219). -/
theorem exec_farAccess_performs (ready : s.portShut r.src loc n = false) :
    exec (.farAccessAtHome p.length) s = .next (({ s with fabric := p ++ q } : State).atHome r) := by
  obtain ⟨free, gate, area⟩ := State.portShut_eq_false.1 ready
  rw [exec_farAccess queue target, first, clear, gate, area, free]
  rfl

/-- At a port that the commit token shuts, a request waits in order of arrival (R214). -/
theorem exec_farAccess_waits {core off : Nat} (home : homeOf loc = .slice core off) (gate : s.gatedFrom r.src core = false)
    (area : s.areaShut loc = false) (blocked : s.tokenBlocks loc n [] = true) : exec (.farAccessAtHome p.length) s =
      .next (({ s with fabric := p ++ q } : State).modCore core fun k => { k with port := k.port ++ [.req r] }) := by
  rw [exec_farAccess queue target, first, clear, State.gateShut_slice home, gate, area, blocked]
  simp only [Bool.or_false, Bool.false_eq_true, if_false, if_true, State.queueAt, home, queue, getElem?_append_cons,
    dropAt_append_cons]
end
end

/-! ### Replies -/

/-- A reply behind an earlier one from its port stays where it is (R255). -/
theorem exec_replySink_behind {s : State} {i : Nat} (behind : s.behindReply i = true) : exec (.replySink i) s = .next s := by
  change execReplySink i s = _
  unfold execReplySink
  simp only [behind, Bool.not_true, Bool.and_false, Bool.false_eq_true, if_false]
  split <;> rfl

section
variable {s : State} {l m : List Reply} {r : Reply} (queue : s.replies = l ++ r :: m) (answer : r.op.answer = true)
  (clear : s.behindReply l.length = false)
include queue answer clear

/-- An answer that no earlier reply precedes sinks at its core. -/
theorem exec_replySink_sinks :
    exec (.replySink l.length) s = .next (s.sinkReply l.length r State.takeReply) := by
  change execReplySink l.length s = _
  unfold execReplySink
  simp only [queue, getElem?_append_cons, answer, clear, Bool.not_false, Bool.and_self, if_true]

/-- A reply reaches a context whose course does not move (R256). -/
theorem exec_replySink_takes (still : ∀ n, r.dst.core? = some n → s.gated n = false) :
    exec (.replySink l.length) s = .next (({ s with replies := l ++ m } : State).takeReply r) := by
  rw [exec_replySink_sinks queue answer clear, State.sinkReply, queue, dropAt_append_cons]
  cases core : r.dst.core? with
  | none => rfl
  | some n => simp only [still n core, Bool.false_eq_true, if_false]

/-- A reply for a core whose course moves goes into a mortar buffer (R341). -/
theorem exec_replySink_buffers {n : Nat} (core : r.dst.core? = some n) (moves : s.gated n = true) :
    exec (.replySink l.length) s = .next { s with replies := l ++ m, mortar := s.mortar ++ [⟨n, .reply r⟩] } := by
  rw [exec_replySink_sinks queue answer clear, State.sinkReply, queue, dropAt_append_cons]
  simp only [core, moves, if_true]
end

/-- A pending result that is alone and has completed lands where its window has closed (R295). -/
theorem Ctx.settle_lone {c : Ctx} {r : Pending} (lone : c.arch.pend = [r]) (closed : r.left = 0) (done : r.done = true) :
    c.settle = (c.withPend []).write r.result := by
  have lands : r.lands = true := by rw [Pending.lands, closed, done]; rfl
  rw [Ctx.settle, lone]
  simp [lands]

/-- The value of an atomic whose result waits alone, with its window closed, reaches its register (R201, R295). -/
theorem Ctx.fill_lone {c : Ctx} {d : Reg} (x : Word) (waits : c.arch.pend = [⟨.x, d.val, 0, [], 0, 0, false, none, []⟩]) :
    (c.fill d x).arch.xs = (c.setX d.val x).arch.xs ∧ (c.fill d x).arch.pend = [] := by
  have filled : fillValue d x c.arch.pend = [⟨.x, d.val, x, [], 0, 0, true, none, []⟩] := by
    simp only [waits, fillValue, decide_true, Bool.not_false, Bool.and_self, if_true]
  unfold Ctx.fill
  dsimp only
  rw [Ctx.settle_lone filled rfl rfl]
  simp only [Ctx.write, Pending.result]
  unfold Ctx.setX
  split <;> exact ⟨rfl, rfl⟩

/-- Where no store waits for a reply slot, none leaves (R256). -/
theorem State.pump_nothing {s : State} {a : Agent} (sent : (s.ctx a).unsent = []) :
    (s.pump a).fabric = s.fabric ∧ (s.pump a).mem = s.mem := by
  rw [State.pump, sent]
  exact ⟨rfl, rfl⟩

/-- Settles O38: what holds a request back, its performance at its home, and the sinking of its reply. -/
theorem fabricSteps : Obligations.FabricSteps := by
  intro s p q a
  refine ⟨fun clear => ⟨fun w queue first ready => ?_, fun op t loc win cmp new d queue first ready => ⟨?_, rfl⟩,
    fun loc f queue first ready => ?_, fun w core off queue home => ⟨fun shut => ?_, fun first gate area blocked => ?_⟩⟩,
    exec_farAccess_behindPort, fun l m loc port d x => ⟨exec_replySink_behind,
      fun clear still => ⟨fun queue => ?_, fun queue => ?_⟩,
      fun n core moves clear queue => ?_, fun c _ waits => Ctx.fill_lone x waits, State.pump_nothing⟩⟩
  · exact exec_farAccess_performs queue rfl first clear ready
  · exact exec_farAccess_performs queue rfl first clear ready
  · exact exec_farAccess_performs queue rfl first clear ready
  · exact exec_farAccess_gateShut queue rfl ((State.gateShut_slice home).trans shut)
  · exact exec_farAccess_waits queue rfl first clear home gate area blocked
  · exact exec_replySink_takes queue rfl clear still
  · exact exec_replySink_takes queue rfl clear still
  · exact exec_replySink_buffers queue rfl clear core moves

end Sys2Proof.Machine
end

section
/-! # Bytes just stored and bytes just landed

A store that an open chunk holds is what its agent reads of the bytes it names, and changes no other byte (R209, R211); a write that
lands changes the bytes it names (R4, R190). -/

namespace Sys2Proof.Machine

open Sys2Proof

/-! ### Stores held in an open chunk -/

/-- The area of a context does not show its chunk (R174). -/
theorem Ctx.areaWord_chunk (c : Ctx) (k : Chunk) (off : Nat) : ({ c with chunk := k } : Ctx).areaWord off = c.areaWord off := by
  generalize changed : ({ c with chunk := k } : Ctx) = d
  obtain ⟨p, status, loopc, aside, stream, slotV, slotX, arrRec, spare⟩ : d.p = c.p ∧ d.status = c.status ∧
      d.loopc = c.loopc ∧ d.asideAt = c.asideAt ∧ d.stream = c.stream ∧ d.slotV = c.slotV ∧ d.slotX = c.slotX ∧ d.arrRec = c.arrRec ∧
      d.spare = c.spare := by
    subst changed
    exact ⟨rfl, rfl, rfl, rfl, rfl, rfl, rfl, rfl, rfl⟩
  obtain ⟨arch, cause, epc, faddr, resume⟩ : d.arch = c.arch ∧ d.cause = c.cause ∧ d.epc = c.epc ∧ d.faddr = c.faddr ∧
      d.resume = c.resume := by
    subst changed
    exact ⟨rfl, rfl, rfl, rfl, rfl⟩
  rw [Ctx.areaWord, Ctx.areaWord, p, status, loopc, aside, stream, slotV, slotX, arrRec, spare, arch, cause, epc, faddr, resume]

theorem areaView_congr {ctx ctx' : Nat → Ctx} (same : ∀ t off, (ctx t).areaWord off = (ctx' t).areaWord off) (k : Core)
    (image : List Msg) (off : Nat) : areaView ctx k image off = areaView ctx' k image off := by
  simp only [areaView, same]

/-- A change of a context that its area does not show changes no byte at its home (R174). -/
theorem State.homeByte_modCtx (s : State) (a : Agent) {f : Ctx → Ctx} (same : ∀ c off, (f c).areaWord off = c.areaWord off)
    (loc : Nat) : (s.modCtx a f).homeByte loc = s.homeByte loc := by
  have words (b : Agent) (off : Nat) : ((s.modCtx a f).ctx b).areaWord off = (s.ctx b).areaWord off := by
    by_cases h : a = b
    · rw [← h, State.ctx_modCtx_self, same]
    · rw [State.ctx_modCtx_ne s f h]
  have area (core off : Nat) : (s.modCtx a f).areaByte core off = s.areaByte core off :=
    areaView_congr (fun t => words (ctxOf core t)) (s.core core) (s.core core).image off
  have saved (b : Nat) : (s.modCtx a f).savedAt b = s.savedAt b := rfl
  have reg (off : Nat) : (s.modCtx a f).regWord off = s.regWord off := by
    have block : (s.modCtx a f).block = s.block := rfl
    rw [State.regWord, State.regWord, block, State.modCtx_dev]
  have raw (b : Nat) : (s.modCtx a f).rawByte b = s.rawByte b := rfl
  unfold State.homeByte
  simp only [area, saved, reg, raw, State.core_modCtx]

section
variable {s : State} {a : Agent} (isOpen : (s.ctx a).chunkOpen = true) (w : Write)
include isOpen

/-- A held store changes no byte but its own of what its agent reads, a view of the machine's state among them. -/
theorem State.store_loadByte_apart {loc : Nat} (out : loc < w.loc ∨ w.loc + w.data.length ≤ loc) :
    (s.store a w).loadByte a loc = s.loadByte a loc := by
  have home : (s.store a w).homeByte loc = s.homeByte loc := by
    rw [State.store_open isOpen]
    exact State.homeByte_modCtx s a (fun c off => Ctx.areaWord_chunk c _ off) loc
  rw [State.loadByte, home, State.store_open isOpen, State.ctx_modCtx_self, Chunk.hold]
  have flight : (s.modCtx a fun c => { c with chunk := c.chunk.hold (near a w.loc) w }).inFlight a = s.inFlight a := by
    rw [State.inFlight, State.ctx_modCtx_self]
    rfl
  rw [flight]
  split
  · dsimp only
    rw [List.append_assoc]
    exact overlay_out _ _ out _
  · dsimp only
    rw [← List.append_assoc]
    exact (overlay_out _ [] out _).trans (by rw [List.append_nil]; rfl)

/-- A load of its own agent returns a held store's bytes, and every other byte as before (R209, R211). -/
theorem State.store_loadByte_held (last : near a w.loc = true → (s.ctx a).chunk.far = []) (loc : Nat) :
    (s.store a w).loadByte a loc =
      if w.loc ≤ loc ∧ loc < w.loc + w.data.length then w.data.getD (loc - w.loc) 0 else s.loadByte a loc := by
  split
  next inside =>
    obtain ⟨xs, isLast⟩ := State.store_last isOpen w last
    obtain ⟨k, rfl⟩ := Nat.exists_eq_add_of_le inside.1
    rw [State.loadByte_last isLast (Nat.lt_of_add_lt_add_left inside.2), Nat.add_sub_cancel_left]
  next outside => exact State.store_loadByte_apart isOpen w (by omega)
end

/-! ### Writes that land -/

/-- A step of a loop that brings about what the other steps keep. -/
theorem foldl_reaches {α : Type} {P : State → Prop} {f : State → α → State} (keeps : ∀ s x, P s → P (f s x)) {x : α}
    (sets : ∀ s, P (f s x)) {l : List α} (hx : x ∈ l) (s : State) : P (l.foldl f s) := by
  obtain ⟨l₁, l₂, rfl⟩ := List.append_of_mem hx
  rw [List.foldl_append, List.foldl_cons]
  exact List.foldlRecOn (motive := P) l₂ f (sets _) fun t ht y _ => keeps t y ht

theorem State.foot_journalLine (s : State) (core line n : Nat) : ((s.journalLine core line).core n).foot = (s.core n).foot :=
  congrFun (congrArg (·.1.2.1) (State.landView_journalLine s core line)) n

/-- Marking a piece marks it (R190). -/
theorem State.foot_markPiece_self (s : State) (core off : Nat) :
    ((s.markPiece core off).core core).foot.testBit (off / 4096) = true := by
  unfold State.markPiece
  dsimp only
  split
  next marked => exact marked
  next =>
    rw [State.core_setCore_self]
    simp [Nat.testBit_or]

/-- Marking a piece keeps the marks of its slice. -/
theorem State.foot_markPiece_keeps (s : State) (core off : Nat) {i : Nat} (marked : (s.core core).foot.testBit i = true) :
    ((s.markPiece core off).core core).foot.testBit i = true := by
  unfold State.markPiece
  dsimp only
  split
  next => exact marked
  next =>
    rw [State.core_setCore_self]
    simp [Nat.testBit_or, marked]

/-- A write's pieces are marked once its slice is ready for it (R190). -/
theorem State.foot_touchLines (s : State) (core : Nat) {off n o : Nat} (low : off ≤ o) (high : o < off + n) :
    ((s.touchLines core off n).core core).foot.testBit (o / 4096) = true := by
  unfold State.touchLines
  refine foldl_reaches (P := fun t => (t.core core).foot.testBit (o / 4096) = true) (x := o / 64 - off / 64)
    (fun t i marked => ?_) (fun t => ?_) (List.mem_range.2 (by omega)) s
  · rw [State.foot_journalLine]
    exact State.foot_markPiece_keeps t core _ marked
  · have piece : o / 4096 = (off / 64 + (o / 64 - off / 64)) * 64 / 4096 := by omega
    rw [State.foot_journalLine, piece]
    exact State.foot_markPiece_self t core _

theorem State.rawByte_poke (s : State) (loc : Nat) {data : List Byte} {k : Nat} (hk : k < data.length) :
    (s.poke loc data).rawByte (loc + k) = data.getD k 0 := by
  rw [List.getD_eq_getElem _ _ hk]
  exact Memory.get_write_in data s.mem loc k hk

/-- A plain write leaves its bytes. -/
theorem State.plainByte_written {s : State} {w : Write} (plain : s.plainAt w.loc w.data.length) {k : Nat} (hk : k < w.data.length) :
    (s.written w).plainByte (w.loc + k) = w.data.getD k 0 := by
  unfold State.plainAt at plain
  unfold State.written State.plainByte
  cases home : homeOf w.loc with
  | slice core off =>
    rw [home] at plain
    have inside : off + w.data.length ≤ 0x370000 := plain
    obtain ⟨low, hcore, hoff⟩ := homeOf_eq_slice home
    have place : homeOf (w.loc + k) = .slice core (off + k) := by
      have low' : w.loc + k < 0x10000000000 := by omega
      rw [homeOf, if_pos low']
      congr 1 <;> omega
    have marked : (((s.touchLines core off w.data.length).poke w.loc w.data).core core).foot.testBit ((off + k) / 4096) = true :=
      State.foot_touchLines s core (Nat.le_add_right off k) (Nat.add_lt_add_left hk off)
    simp only [place, marked, if_true, State.rawByte_poke _ _ hk]
  | hbm | quoin | plinth | regs | host | peer =>
    have high : 0x10000000000 ≤ w.loc := homeOf_not_slice fun c o h => by rw [home] at h; cases h
    split
    next core off place =>
      have low := (homeOf_eq_slice place).1
      omega
    next => exact State.rawByte_poke s w.loc hk

/-- Where a plain write leaves the saved slices. -/
theorem State.land_savedShape {s : State} {w : Write} (plain : s.plainAt w.loc w.data.length) (f : From) (but : List Agent) :
    (s.land w f but).savedShape = s.savedShape :=
  (State.land_spares plain (other := w.loc + w.data.length) (Or.inr (Nat.le_refl _)) f but).1.shape

/-- A plain write that lands changes the plain bytes that it names, and no other (R4, R190). -/
theorem State.land_homeByte {s : State} {w : Write} (data : w.data ≠ []) (plain : s.plainAt w.loc w.data.length) {loc : Nat}
    (byte : s.plainAt loc 1) (f : From) (but : List Agent) : (s.land w f but).homeByte loc =
      if w.loc ≤ loc ∧ loc < w.loc + w.data.length then w.data.getD (loc - w.loc) 0 else s.homeByte loc := by
  split
  next inside =>
    obtain ⟨k, rfl⟩ := Nat.exists_eq_add_of_le inside.1
    have view := State.land_plain plain data f but
    rw [State.homeByte_of_plain (State.plainAt_congr (State.land_savedShape plain f but) byte),
      State.plainByte_congr (congrArg (·.1.1) view) (fun n => congrFun (congrArg (·.1.2.1) view) n),
      State.plainByte_written plain (Nat.lt_of_add_lt_add_left inside.2), Nat.add_sub_cancel_left]
  next outside => exact (State.land_spares plain (by omega) f but).1.byte byte

/-- Settles O10: a store held in a chunk by what its agent's loads read, a landed write by the view of plain bytes. -/
theorem storedBytes : Obligations.StoredBytes :=
  ⟨fun _ _ w loc isOpen last => ⟨State.store_loadByte_held isOpen w last loc, congrArg (·.1) (State.loadView_store isOpen w)⟩,
    fun _ _ f but _ data plain byte => State.land_homeByte data plain byte f but⟩

end Sys2Proof.Machine
end

section
/-! # Chunks, pending results and fills

The arbiter's commit of a chunk of near stores (R213, R214), the landing of a result (R295), and the fills of a register file and of
a fetch buffer (R291, R293). -/

namespace Sys2Proof.Machine

open Sys2Proof

/-! ### What a landed near store leaves of the context that commits it -/

/-- What the landing of a near store leaves: the context of its agent, the requests under way, and the gangs of the cores. -/
def State.commitView (s : State) (a : Agent) : Ctx × List Req × (Nat → Option (BitVec 8)) :=
  (s.ctx a, s.fabric, fun n => (s.core n).gang)

theorem State.group_of_gang {s t : State} (gang : (fun n => (t.core n).gang) = fun n => (s.core n).gang) (a : Agent) :
    t.group a = s.group a := by
  have cores (n : Nat) : t.gangCores n = s.gangCores n := by
    rw [State.gangCores, State.gangCores, congrFun gang n]
  unfold State.group
  split
  · rw [cores]
  · rfl

theorem State.gang_setCore (s : State) (n : Nat) {k : Core} (same : k.gang = (s.core n).gang) :
    (fun m => ((s.setCore n k).core m).gang) = fun m => (s.core m).gang := by
  funext m
  by_cases h : n = m
  · rw [← h, State.core_setCore_self, same]
  · rw [State.core_setCore_ne s k h]

theorem State.commitView_modCore (s : State) (n : Nat) (a : Agent) {f : Core → Core} (same : ∀ k, (f k).gang = k.gang) :
    (s.modCore n f).commitView a = s.commitView a := by
  have gang : (fun m => ((s.modCore n f).core m).gang) = fun m => (s.core m).gang := State.gang_setCore s n (same _)
  rw [State.commitView, gang]
  rfl

theorem State.commitView_modRegion (s : State) (rid : BitVec 16) (f : Region → Region) (a : Agent) :
    (s.modRegion rid f).commitView a = s.commitView a := by
  unfold State.modRegion
  split <;> rfl

theorem State.commitView_markPiece (s : State) (core off : Nat) (a : Agent) :
    (s.markPiece core off).commitView a = s.commitView a := by
  unfold State.markPiece
  dsimp only
  split
  · rfl
  · rw [State.commitView, State.gang_setCore _ core (by rfl)]
    rfl

theorem State.commitView_journalLine (s : State) (core line : Nat) (a : Agent) :
    (s.journalLine core line).commitView a = s.commitView a := by
  unfold State.journalLine
  dsimp only
  split
  · rfl
  · split
    · exact State.commitView_modCore s core a fun _ => rfl
    · exact State.commitView_modCore s core a fun _ => rfl

theorem State.commitView_touchLines (s : State) (core off n : Nat) (a : Agent) :
    (s.touchLines core off n).commitView a = s.commitView a :=
  foldl_leaves (·.commitView a)
    (fun t _ => (State.commitView_journalLine _ core _ a).trans (State.commitView_markPiece t core _ a)) _ s

theorem State.commitView_traceAll (s : State) (core off n : Nat) (w : Write) (f : From) (a : Agent) :
    (s.traceAll core off n w f).commitView a = s.commitView a := by
  refine foldl_leaves (·.commitView a) (fun t i => ?_) _ s
  unfold State.trace
  dsimp only
  split
  · split
    · exact State.commitView_modCore t core a fun _ => rfl
    · rfl
  · rfl

theorem State.commitView_setWatches (s : State) (core : Nat) (ws : List (Nat × Watch)) (a : Agent) :
    (s.setWatches core ws).commitView a = s.commitView a := by
  unfold State.setWatches
  split
  · exact State.commitView_modRegion s _ _ a
  · split
    · rfl
    · split
      · rfl
      · exact State.commitView_modCore s core a fun _ => rfl

theorem State.commitView_reportLines (now : Nat → Bool) (ls : List Nat) (s : State) (a : Agent) :
    (ls.foldl (State.reportLine now) s).commitView a = s.commitView a := by
  refine foldl_leaves (·.commitView a) (fun t l => ?_) ls s
  unfold State.reportLine
  exact foldl_leaves (·.commitView a) (fun u r => State.commitView_setWatches u _ _ a) _ _

/-- A squash of other contexts leaves the context (R213). -/
theorem State.commitView_squash (s : State) (course : Nat) {g : List Agent} {a : Agent} (spared : a ∉ g) :
    (s.squash course g).commitView a = s.commitView a := by
  have discarded : ((g.foldl (fun s b => s.modCtx b Ctx.squash) s).dropMisses course g).commitView a = s.commitView a := by
    refine List.foldlRecOn (motive := fun t : State => t.commitView a = s.commitView a) g _ rfl fun t same b hb => ?_
    have other : b ≠ a := fun h => spared (h ▸ hb)
    rw [← same, State.commitView, State.ctx_modCtx_ne t _ other]
    rfl
  unfold State.squash
  dsimp only
  split
  · exact discarded
  · split
    · exact discarded
    · exact discarded

section
variable {s : State} {a : Agent} (lone : ∀ b, a ∈ s.group b → b = a)
include lone

/-- The squashes that a write brings about spare the context that commits it, where no other context's group holds it (R216). -/
theorem State.commitView_squashHits {t : State} (same : t.commitView a = s.commitView a) (course : Nat) (lines : List Nat) :
    (t.squashHits course lines [a]).commitView a = s.commitView a := by
  unfold State.squashHits
  refine List.foldlRecOn (motive := fun u : State => u.commitView a = s.commitView a) _ _ same fun u kept b hb => ?_
  have other : b ≠ a := by
    have listed := (List.mem_filter.1 hb).2
    rintro rfl
    simp at listed
  split
  · refine (State.commitView_squash u course ?_).trans kept
    rw [State.group_of_gang (congrArg (·.2.2) kept)]
    exact fun member => other (lone b member)
  · exact kept

/-- A near store that lands leaves the context that commits it, the requests under way and the gangs. -/
theorem State.commitView_land {t : State} (same : t.commitView a = s.commitView a) {w : Write} {core off : Nat}
    (home : homeOf w.loc = .slice core off) (inside : off < progEnd) (f : From) :
    (t.land w f [a]).commitView a = s.commitView a := by
  unfold State.land
  simp only [home, if_pos inside]
  split
  · exact same
  · refine State.commitView_squashHits lone ?_ _ _
    rw [State.commitView_reportLines, State.commitView_traceAll]
    exact (State.commitView_touchLines t core off _ a).trans same

/-- The near stores of a chunk land and leave the context that commits them. -/
theorem State.commitView_lands {ws : List Write}
    (near : ∀ w ∈ ws, match homeOf w.loc with | .slice _ off => off < 0x370000 | _ => False) :
    (ws.foldl (fun t w => t.land w (t.fromAgent 0 a) [a]) s).commitView a = s.commitView a := by
  refine List.foldlRecOn (motive := fun t : State => t.commitView a = s.commitView a) ws _ rfl fun t same w hw => ?_
  have inside := near w hw
  cases home : homeOf w.loc with
  | slice core off =>
    rw [home] at inside
    exact State.commitView_land lone same home inside _
  | hbm | quoin | plinth | regs | host | peer =>
    rw [home] at inside
    exact inside.elim
end

/-! ### The commit -/

@[simp] theorem State.freeDead_ctx (s : State) (a b : Agent) : (s.freeDead a).ctx b = s.ctx b := by
  unfold State.freeDead
  split <;> rfl

@[simp] theorem State.freeDead_fabric (s : State) (a : Agent) : (s.freeDead a).fabric = s.fabric := by
  unfold State.freeDead
  split <;> rfl

@[simp] theorem State.dropToken_ctx (s : State) (a b : Agent) : (s.dropToken a).ctx b = s.ctx b := by
  unfold State.dropToken
  repeat' split
  all_goals rfl

@[simp] theorem State.dropToken_fabric (s : State) (a : Agent) : (s.dropToken a).fabric = s.fabric := by
  unfold State.dropToken
  repeat' split
  all_goals rfl

/-- The commit of a lone context's chunk that holds no far store: its near stores land in program order, and an empty chunk opens
(R211, R213). -/
theorem State.commit_near {s : State} {a : Agent} (alone : s.group a = [a]) (noFar : (s.ctx a).chunk.far = []) : s.commit a =
    ((((s.ctx a).chunk.near.foldl (fun t w => t.land w (t.fromAgent 0 a) [a]) s).modCtx a fun c =>
      ({ c with chunk := Chunk.empty } : Ctx).release).freeDead a).dropToken a := by
  rw [State.commit, alone]
  simp only [List.foldl_cons, List.foldl_nil, State.commitOne, noFar]

/-- The arbiter commits a closed chunk unless another one holds the token (R214). -/
theorem exec_chunkCommit {s : State} {a : Agent} (closed : (s.group a).any (fun b => (s.ctx b).chunk.closed) = true)
    (free : s.mayCommit a = true) : exec (.chunkCommit a) s = .next (s.commit a) := by
  change execChunkCommit a s = _
  rw [execChunkCommit, closed, free]
  rfl

/-- The device closes the chunk of a lone context that has reached its limit (R211). -/
theorem exec_chunkLimitClose {s : State} {a : Agent} (full : s.chunkFull a = true) (alone : s.group a = [a]) :
    exec (.chunkLimitClose a) s = .next (s.modCtx a fun c => { c with chunk := { c.chunk with closed := true } }) := by
  change execChunkLimitClose a s = _
  rw [execChunkLimitClose, if_pos full, alone]
  rfl

theorem State.chunkFull_of_count {s : State} {a : Agent} (many : 512 ≤ (s.ctx a).chunk.count) : s.chunkFull a = true := by
  rw [State.chunkFull, Bool.or_eq_true, decide_eq_true_eq]
  exact Or.inl many

/-! ### Pending results -/

/-- A result whose operation completes lands where its window has closed, unless it waits for an atomic's reply (R295). -/
theorem exec_pendingResultLanding {s : State} {a : Agent} {p q : List Pending} {r : Pending}
    (pend : (s.ctx a).arch.pend = p ++ r :: q) (undone : r.done = false)
    (noRequest : (s.requests.any fun x => x.src == a &&
      match x.op with | .amo _ _ _ _ _ _ d => r.kind == .x && r.reg == d.val | _ => false) = false)
    (noReply : (s.comingReplies.any fun x => x.dst == a &&
      match x.op with | .value d _ => r.kind == .x && r.reg == d.val | _ => false) = false) :
    exec (.pendingResultLanding a p.length) s =
      .next ((s.modCtx a fun c => (c.withPend (p ++ { r with done := true } :: q)).settle).sink s a) := by
  have found : (s.ctx a).arch.pend[p.length]? = some r := by rw [pend, getElem?_append_cons]
  have landed : (s.modCtx a fun c => (c.withPend (c.arch.pend.modify p.length fun p => { p with done := true })).settle) =
      s.modCtx a fun c => (c.withPend (p ++ { r with done := true } :: q)).settle := by
    rw [State.modCtx, State.modCtx, pend, modify_append_cons]
  change execPendingResultLanding a p.length s = _
  unfold execPendingResultLanding
  simp only [found, undone, landed, Bool.false_or]
  rw [if_neg]
  rw [Bool.or_eq_true, not_or, Bool.not_eq_true, Bool.not_eq_true]
  exact ⟨noRequest, noReply⟩

/-! ### The register file (R291) -/

/-- A file with room for its entries evicts none. -/
theorem evict_none {k : RKind} {pinned : RegEntry → Bool} {n : Nat} {file : List RegEntry}
    (room : (file.filter fun e => e.kind == k).length ≤ fileSize k) : evict k pinned n file = some (file, []) := by
  cases n with
  | zero => rw [evict, if_pos room]
  | succ n => rw [evict, if_pos room]

theorem State.fileAfter_room {s : State} {n : Nat} {new : List RegEntry}
    (roomX : (((s.core n).rfile ++ new).filter fun e => e.kind == .x).length ≤ 128)
    (roomV : (((s.core n).rfile ++ new).filter fun e => e.kind == .v).length ≤ 96) :
    s.fileAfter n new = some ((s.core n).rfile ++ new, []) := by
  unfold State.fileAfter
  simp only [evict_none (k := .x) roomX, evict_none (k := .v) roomV]
  rfl

/-- Where no byte has an uncorrectable error, no slot has. -/
theorem State.slotPoison_eq_false {s : State} (sound : s.poison = []) (core tid : Nat) (k : RKind) (r : Nat) :
    s.slotPoison core tid k r = false := by
  unfold State.slotPoison State.poisoned
  rw [sound]
  rfl

/-- The entries that the fill of a context brings in. -/
def State.newEntries (s : State) (a : Agent) : List RegEntry := (s.fillOf a).map fun r => ⟨a.tid, r.1, r.2, false, true⟩

section
variable {s : State} {a : Agent} {n : Nat} {rest : List Nat} (core : a.core? = some n) (first : (s.core n).fillQ = a.tid :: rest)
include core first

/-- A fill that finds every register in the file brings in none. -/
theorem exec_registerFill_nothing (xs vs : List Reg) (held : s.fillOf a = []) :
    exec (.registerFill a xs vs) s = .next (s.modCore n fun k => { k with fillQ := rest }) := by
  change execRegisterFill a xs vs s = _
  unfold execRegisterFill
  simp only [core, first, held, List.head?_cons, bne_self_eq_false, Bool.false_eq_true, if_false, List.isEmpty_nil, if_true,
    List.drop_succ_cons, List.drop_zero]
  rfl

/-- The fill that was asked for first brings the registers in, where the file has room for them. -/
theorem exec_registerFill_room {xs vs : List Reg} (lacks : s.fillOf a ≠ [])
    (named : ∀ r, r ∈ s.fillOf a ↔ r ∈ xs.map (fun q => (RKind.x, q.val)) ∨ r ∈ vs.map (fun q => (RKind.v, q.val)))
    (sound : s.poison = []) (roomX : (((s.core n).rfile ++ s.newEntries a).filter fun e => e.kind == .x).length ≤ 128)
    (roomV : (((s.core n).rfile ++ s.newEntries a).filter fun e => e.kind == .v).length ≤ 96) :
    exec (.registerFill a xs vs) s =
      .next (s.modCore n fun k => { k with rfile := k.rfile ++ s.newEntries a, fillQ := rest }) := by
  have wanted : ((s.fillOf a).all (xs.map (fun r => (RKind.x, r.val)) ++ vs.map fun r => (RKind.v, r.val)).contains &&
      (xs.map (fun r => (RKind.x, r.val)) ++ vs.map fun r => (RKind.v, r.val)).all (s.fillOf a).contains) = true := by
    simp only [Bool.and_eq_true, List.all_eq_true, List.contains_iff_mem, List.mem_append]
    exact ⟨fun r => (named r).1, fun r => (named r).2⟩
  have lacking : (s.fillOf a).isEmpty = false := by rwa [List.isEmpty_eq_false_iff]
  have room := State.fileAfter_room roomX roomV
  have noFault (es : List RegEntry) : es.find? (fun _ => false) = none := List.find?_eq_none.2 fun _ _ => Bool.false_ne_true
  change execRegisterFill a xs vs s = _
  unfold execRegisterFill
  rw [State.newEntries] at room
  simp only [core, first, lacking, wanted, State.slotPoison_eq_false sound, List.head?_cons, bne_self_eq_false, Bool.false_eq_true,
    if_false, Bool.not_true, Bool.not_false, List.filter_true, List.filter_false, room, List.filter_nil, List.append_nil, List.all_nil,
    List.foldl_nil, List.drop_succ_cons, List.drop_zero, noFault]
  rfl
end

/-! ### The fetch buffer (R293) -/

/-- A line of code stands in a core's fetch buffer, and its bytes were asked for. -/
def State.lineFetched (s : State) (n loc : Nat) : State :=
  (s.ask (some n) loc 256).modCore n fun k =>
    { k with fetch := ((loc / 256, s.homeBytes loc 256) :: k.fetch.filter fun e => e.1 != loc / 256).take 64 }

theorem State.lineFetched_fetch (s : State) (n loc : Nat) :
    Map.find ((s.lineFetched n loc).core n).fetch (loc / 256) = some (s.homeBytes loc 256) := by
  rw [State.lineFetched, State.core_modCore_self]
  exact if_pos rfl

theorem State.lineFetched_mem (s : State) (n loc : Nat) : (s.lineFetched n loc).mem = s.mem := State.ask_mem ..

theorem State.lineFetched_ctx (s : State) (n loc : Nat) (a : Agent) : (s.lineFetched n loc).ctx a = s.ctx a := by
  unfold State.lineFetched State.ask
  repeat' split
  all_goals rfl

/-- The running contexts of a core have the words ahead of them fetched from a line. -/
def State.wordsFetched (s : State) (n line : Nat) (bs : List Byte) : State :=
  (List.range 11).foldl (fun s t =>
    if (s.ctx (ctxOf n t)).run = 0 then
      s.modCtx (ctxOf n t) fun c => { c with ahead := fetchAhead c.arch.pc.toNat line bs c.ahead }
    else s) s

/-- Words fetched ahead change no core and no byte of memory. -/
theorem State.wordsFetched_keeps (s : State) (n line : Nat) (bs : List Byte) :
    (s.wordsFetched n line bs).mem = s.mem ∧ (s.wordsFetched n line bs).cores = s.cores := by
  refine Prod.mk.inj (foldl_leaves (fun t : State => (t.mem, t.cores)) (fun t i => ?_) (List.range 11) s)
  split <;> rfl

/-- Words fetched ahead change no register. -/
theorem State.wordsFetched_arch (s : State) (n line : Nat) (bs : List Byte) (a : Agent) :
    ((s.wordsFetched n line bs).ctx a).arch = (s.ctx a).arch := by
  refine foldl_leaves (fun t : State => (t.ctx a).arch) (fun t i => ?_) (List.range 11) s
  split
  · by_cases same : ctxOf n i = a
    · rw [← same, State.ctx_modCtx_self]
    · rw [State.ctx_modCtx_ne t _ same]
  · rfl

/-- A line of code arrives in the fetch buffer, and the words that the core's contexts have next are fetched (R210, R293). -/
theorem exec_fetchBufferFill {s : State} {n : Nat} {line : Word} {loc : Nat}
    (found : s.resolve (ctxOf n 0) .fetch (line &&& ~~~(0xFF#64)) = .ok loc) : exec (.fetchBufferFill n line) s =
      .next ((s.lineFetched n loc).wordsFetched n (line &&& ~~~(0xFF#64)).toNat (s.homeBytes loc 256)) := by
  change execFetchBufferFill n line s = _
  unfold execFetchBufferFill
  simp only [found]
  rfl

/-- Settles O41: the commit by what a landed near store leaves of its context, each other step by its outcome. -/
theorem chunkSteps : Obligations.ChunkSteps := by
  refine ⟨fun _ _ => exec_chunkCommit, fun _ _ => exec_chunkLimitClose, fun _ _ _ => State.chunkFull_of_count,
    fun s a alone lone noFar near => ?_, fun _ _ _ _ _ => exec_pendingResultLanding, fun _ _ => Ctx.settle_lone,
    fun _ _ _ xs vs _ core first => ⟨exec_registerFill_nothing core first xs vs, exec_registerFill_room core first⟩,
    fun s n line loc found => ?_⟩
  · have landed := State.commitView_lands lone near
    simp only [State.commitView, Prod.mk.injEq] at landed
    obtain ⟨ctx, fabric, -⟩ := landed
    have ended : (s.commit a).ctx a = ({ s.ctx a with chunk := Chunk.empty } : Ctx).release := by
      rw [State.commit_near alone noFar, State.dropToken_ctx, State.freeDead_ctx, State.ctx_modCtx_self, ctx]
    refine ⟨?_, by rw [ended]; rfl, by rw [ended]; rfl, by rw [ended]; rfl, ?_⟩
    · rw [State.commit_near alone noFar, State.dropToken_mem, State.freeDead_mem, State.modCtx_mem]
    · rw [State.commit_near alone noFar, State.dropToken_fabric, State.freeDead_fabric, State.modCtx_fabric, fabric]
  · obtain ⟨mem, cores⟩ := (s.lineFetched n loc).wordsFetched_keeps n (line &&& ~~~(0xFF#64)).toNat (s.homeBytes loc 256)
    refine ⟨_, exec_fetchBufferFill found, mem.trans (s.lineFetched_mem n loc), ?_, fun a => ?_⟩
    · rw [State.core, cores]
      exact s.lineFetched_fetch n loc
    · rw [State.wordsFetched_arch, State.lineFetched_ctx]

end Sys2Proof.Machine
end

section
/-! # Performed forms

What `Does`, `Leaves`, `Raises` and `Denies` claim of a form, from its operation on the state before it. -/

namespace Sys2Proof.Machine

open Sys2Proof

/-- A register that an instruction names, read in the context of the agent that acts. -/
theorem State.reads_of_cur {s : State} {a : Agent} (cur : s.cur = a) (r : Reg) : s.reads r = (s.ctx a).x r.val := by
  rw [State.reads, cur]

section
variable {i : Instr} {body : State → Res} {cond : State → Prop}

/-- A form whose operation is done where a condition holds goes on after it. -/
theorem does_of (means : ∀ s, exec i s = issue i s body) {f : State → State} {rs : State → List Result}
    (op : ∀ t, cond t → body t = .done (f t) (rs t)) : Does i cond f rs := fun s hs h => by
  rw [means, issue_performs hs, op _ h]
  rfl

/-- A form whose operation waits where a condition holds leaves the state that it gives. -/
theorem leaves_of_wait (means : ∀ s, exec i s = issue i s body) {f : State → State}
    (op : ∀ t, cond t → body t = .wait (f t)) : Leaves i cond f := fun s hs h => by
  rw [means, issue_performs hs, op _ h]
  rfl

/-- A form whose operation leaves the whole state itself where a condition holds. -/
theorem leaves_of (means : ∀ s, exec i s = issue i s body) {f : State → State}
    (op : ∀ t, cond t → body t = .leaves (f t)) : Leaves i cond f := fun s hs h => by
  rw [means, issue_performs hs, op _ h]
  rfl

/-- A form whose operation traps where a condition holds raises its trap. -/
theorem raises_of (means : ∀ s, exec i s = issue i s body) {x : State → Trap}
    (op : ∀ t, cond t → body t = .trap (x t)) : Raises i cond x := fun s hs h => by
  rw [means, issue_performs hs, op _ h]
  rfl

/-- A form of another level or of the other kind of context is denied at step 4 of R47 (R304, R305, R325, R360). -/
theorem denies_of (means : ∀ s, exec i s = issue i s body)
    (wrong : ∀ s, cond s → (i.supervisor && s.cur.program || i.misplaced s.cur) = true) :
    Denies i cond (fun t => ⟨0x06, 1, (t.ctx t.cur).arch.pc, false⟩) := fun s legal guarded dst str h =>
  exec_denied means legal guarded (by simp only [State.denied, dst, str, wrong s h, if_true]; rfl)

end

end Sys2Proof.Machine
end

section
/-! # Superstep forms (R360 to R363) -/

namespace Sys2Proof.Machine

open Sys2Proof

/-- A form outside its phase raises cause 0x02 at step 3 of R47, whatever its guard (R171, R362, R363). -/
theorem exec_wrongPhase {i : Instr} {body : State → Res} (means : ∀ s, exec i s = issue i s body) {s : State}
    (wrong : (s.ctx s.cur).wrongPhase s.cur i = true) :
    exec i s = .next (s.raise s.cur ⟨0x02, 0, i.word, false⟩ i.bytes) := by
  have illegal : s.illegal s.cur i = true := by simp only [State.illegal, wrong, Bool.or_true]
  rw [means, issue, State.run]
  simp only [illegal, if_true]
  rfl

theorem toInt_combine_min (x y : Word) : (combine .min [x, y]).toInt = min x.toInt y.toInt := by
  simp only [combine, List.foldl_cons, List.foldl_nil, BitVec.slt, decide_eq_true_eq]
  split <;> omega

theorem toInt_combine_max (x y : Word) : (combine .max [x, y]).toInt = max x.toInt y.toInt := by
  simp only [combine, List.foldl_cons, List.foldl_nil, BitVec.slt, decide_eq_true_eq]
  split <;> omega

/-- Settles O37: helpers are denied by `denies_of`, the compute phase by `exec_wrongPhase`, and the rest is each form's operation. -/
theorem superstepForms : Obligations.SuperstepForms := by
  intro op d a g n k
  refine ⟨fun i hi h hh => ?_, fun i hi s cur phase => ?_, ?_, ?_, ?_, fun x y =>
    ⟨rfl, rfl, toInt_combine_min x y, toInt_combine_max x y⟩⟩
  · obtain ⟨h, rfl⟩ := Nat.exists_eq_succ_of_ne_zero hh
    simp only [List.mem_cons, List.not_mem_nil, or_false] at hi
    rcases hi with rfl | rfl | rfl
    · exact denies_of (fun _ => rfl) fun s cur => by rw [cur]; rfl
    · exact denies_of (fun _ => rfl) fun s cur => by rw [cur]; rfl
    · exact denies_of (fun _ => rfl) fun s cur => by rw [cur]; rfl
  · simp only [List.mem_cons, List.not_mem_nil, or_false] at hi
    rcases hi with rfl | rfl
    · exact exec_wrongPhase (fun _ => rfl) (by rw [Ctx.wrongPhase, phase, cur]; rfl)
    · exact exec_wrongPhase (fun _ => rfl) (by rw [Ctx.wrongPhase, phase, cur]; rfl)
  · exact does_of (fun _ => rfl) fun t _ => rfl
  · refine leaves_of_wait (fun _ => rfl) fun t ⟨cur, landed⟩ => ?_
    have whole : ((t.modCtx t.cur Ctx.closeWindows).ctx t.cur).incomplete = false := by
      rw [Ctx.incomplete, List.any_eq_false]
      exact fun p hp => by simp [List.all_eq_true.1 landed p hp]
    simp only [State.modCtx_cur, cur, Agent.core?] at whole ⊢
    rw [whole]
    rfl
  · refine leaves_of_wait (fun _ => rfl) fun t ⟨cur, quiet⟩ => ?_
    simp only [cur, Agent.core?, State.modCtx_cur, State.modRegion_cur, State.reads_of_cur cur] at quiet ⊢
    rw [quiet]
    rfl

end Sys2Proof.Machine
end

section
/-! # Messages and watches (R258 to R269) -/

namespace Sys2Proof.Machine

open Sys2Proof

/-! ### The core of an agent -/

/-- An agent that has a core is a context of it. -/
theorem Agent.eq_ctx_of_core? {a : Agent} {n : Nat} (h : a.core? = some n) : ∃ c k u, a = .ctx c k u ∧ coreId c k = n := by
  cases a with
  | ctx c k u => exact ⟨c, k, u, rfl, Option.some.inj h⟩
  | quoin | plinth => cases h

theorem Agent.program_of_core? {a : Agent} {n : Nat} (h : a.core? = some n) : a.program = true := by
  obtain ⟨c, k, u, rfl, -⟩ := Agent.eq_ctx_of_core? h
  rfl

/-- A context arms the watch table of its core (R263). -/
theorem watchCore_of_core? {a : Agent} {n : Nat} (h : a.core? = some n) : watchCore a = some n := by
  obtain ⟨c, k, u, rfl, rfl⟩ := Agent.eq_ctx_of_core? h
  rfl

theorem State.slotsFree_of_core? (s : State) {a : Agent} {n : Nat} (h : a.core? = some n) (m : Nat) :
    s.slotsFree a m = decide (s.slotsUsed n + m ≤ 4096) := by
  rw [State.slotsFree, h]

/-! ### `send` (R265) -/

section
variable {t : State} {mc : Bool} {a b : Reg} {ctx : Fin 11} {tag : BitVec 16} {g : PReg}

theorem does_send (ts : List Nat) (n : Nat) (rid : BitVec 16) :
    Does (.send mc a b ctx tag g) (fun t => t.sendTargets t.cur mc (t.reads a) = some ts ∧ t.cur.core? = some n ∧
        t.cur.course?.map t.ownerRid = some rid ∧ (ts ≠ [] → t.noSend t.cur = true ∧ t.performed t.cur false = true ∧
        t.slotsUsed n + ts.length ≤ 4096 ∧ ∀ r, t.regionOf t.cur = some r → ts.any (t.sendPaused r) = false))
      (fun t => { t with fabric := t.fabric ++ ts.map fun c =>
        ⟨t.cur, .send c ctx.val rid (msgHeader (t.cidOf n) t.cur.tid 1 tag.toNat) (t.reads b)⟩ }) :=
  does_of (fun _ => rfl) fun t ⟨targets, core, owner, free⟩ => by
    obtain ⟨course, hc, rfl⟩ := Option.map_eq_some_iff.1 owner
    have header : t.sendHeader t.cur tag = msgHeader (t.cidOf n) t.cur.tid 1 tag.toNat := by rw [State.sendHeader, core]
    rw [State.reads] at targets
    simp only [targets]
    cases ts with
    | nil => simp only [List.isEmpty_nil, if_true, List.map_nil, List.append_nil]
    | cons c cs =>
      obtain ⟨quiet, performed, slots, running⟩ := free (List.cons_ne_nil c cs)
      have slotted : t.slotsFree t.cur (c :: cs).length = true := by rw [t.slotsFree_of_core? core, decide_eq_true slots]
      simp only [List.isEmpty_cons, Bool.false_eq_true, if_false, quiet, performed, slotted, Bool.not_true, Bool.or_self,
        Bool.false_or, hc, header]
      cases region : t.regionOf t.cur with
      | none => rfl
      | some r =>
        simp only [running r region, Bool.false_eq_true, if_false]
        rfl

end

/-! ### `recv` and `peek` (R266, R267) -/

/-- Dropping a context's first message takes it out of a list in which no earlier one is for the context. -/
theorem dropFirst_append {u : Nat} {p q : List Msg} {m : Msg} (own : m.ctx = u) (others : ∀ e ∈ p, e.ctx ≠ u) :
    dropFirst u (p ++ m :: q) = p ++ q := by
  induction p with
  | nil => exact if_pos own
  | cons e p ih =>
    rw [List.cons_append, dropFirst, if_neg (others e List.mem_cons_self), ih fun x hx => others x (List.mem_cons_of_mem e hx)]
    rfl

/-- Dropping from a sequence drops from its first part where that part holds a message for the context. -/
theorem dropFirst_append_left {u : Nat} {l r : List Msg} (holds : l.any (fun m => m.ctx == u) = true) :
    dropFirst u l ++ r = dropFirst u (l ++ r) := by
  induction l with
  | nil => cases holds
  | cons e l ih =>
    by_cases own : e.ctx = u
    · rw [List.cons_append, dropFirst, dropFirst, if_pos own, if_pos own]
    · rw [List.any_cons, beq_eq_false_iff_ne.2 own, Bool.false_or] at holds
      rw [List.cons_append, dropFirst, dropFirst, if_neg own, if_neg own, List.cons_append, ih holds]

theorem dropFirst_append_right {u : Nat} {l r : List Msg} (lacks : l.any (fun m => m.ctx == u) = false) :
    l ++ dropFirst u r = dropFirst u (l ++ r) := by
  induction l with
  | nil => rfl
  | cons e l ih =>
    obtain ⟨own, rest⟩ := Bool.or_eq_false_iff.1 (List.any_cons.symm.trans lacks)
    rw [List.cons_append, List.cons_append, dropFirst, if_neg (beq_eq_false_iff_ne.1 own), ih rest]

/-- A `recv` takes the oldest message of its context out of the core's sequence, wherever it lies (R258). -/
theorem Core.dequeue_sequence (x : Core) (u : Nat) :
    (x.dequeue u).inbox ++ (x.dequeue u).spill = dropFirst u (x.inbox ++ x.spill) := by
  unfold Core.dequeue
  split
  next holds => exact dropFirst_append_left holds
  next lacks => exact dropFirst_append_right (Bool.eq_false_iff.2 lacks)

theorem State.front_ctx (s : State) (c k u : Nat) : s.front (.ctx c k u) =
    (((s.core (coreId c k)).inbox ++ (s.core (coreId c k)).spill).find? fun m => m.ctx == u).map fun m => (m.header, m.payload) :=
  rfl

/-- The fields of a header lie apart (R259). -/
theorem fld_msgHeader {src tid kind tag : Nat} (hs : src < 2 ^ 11) (ht : tid < 16) (hk : kind < 16) (hg : tag < 2 ^ 16) :
    let h := msgHeader src tid kind tag
    fld h 53 11 = src ∧ fld h 49 4 = tid ∧ fld h 40 4 = kind ∧ fld h 0 16 = tag := by
  simp only [fld, msgHeader, at', BitVec.toNat_ofNat]
  omega

/-- Settles O30: `does_send` for `send`, `Core.dequeue_sequence` for the sequence after a `recv`, `fld_msgHeader` for the header. -/
theorem messageForms : Obligations.MessageForms := by
  refine ⟨⟨fun mc a b ctx tag g => ⟨?_, fun ts n rid => does_send ts n rid, fun s c k u v => rfl⟩, fun d a g c k u =>
    ⟨fun m => ?_, ?_, fun m => ?_, ?_, fun x p q m sequence own others => ?_⟩⟩, fun src tid kind tag hs ht hk hg =>
      fld_msgHeader hs ht hk hg⟩
  · refine raises_of (fun _ => rfl) fun t none => ?_
    rw [State.reads] at none
    simp only [none]
    rfl
  · refine does_of (fun _ => rfl) fun t ⟨cur, first⟩ => ?_
    simp only [cur, State.front_ctx, first, Option.map_some]
    rfl
  · refine leaves_of_wait (fun _ => rfl) fun t ⟨cur, first⟩ => ?_
    simp only [cur, State.front_ctx, first, Option.map_none]
    rfl
  · refine does_of (fun _ => rfl) fun t ⟨cur, first⟩ => ?_
    simp only [cur, State.front_ctx, first, Option.map_some]
    rfl
  · refine does_of (fun _ => rfl) fun t ⟨cur, first⟩ => ?_
    simp only [cur, State.front_ctx, first, Option.map_none]
    rfl
  · rw [Core.dequeue_sequence, sequence, dropFirst_append own others]

/-! ### `mon` and `mwait` (R268, R269) -/

/-- A referenced translation changes entries of the buffers alone, and no core's watches (R318). -/
theorem State.touchTlb_watches (s : State) (a : Agent) (va : Word) (m : Nat) :
    ((s.touchTlb a va).core m).watches = (s.core m).watches := by
  have first : ∀ (t : State) (n : Nat) (f : Core → List TlbEntry),
      ((t.modCore n fun x => { x with l1 := f x }).core m).watches = (t.core m).watches := fun t n f => by
    by_cases h : n = m
    · subst h; rw [State.core_modCore_self]
    · rw [State.core_modCore_ne t _ h]
  cases a with
  | ctx c k u =>
    simp only [State.touchTlb]
    split
    · rfl
    split
    · exact first s _ _
    split
    · exact first _ _ _
    · rfl
  | quoin c =>
    unfold State.touchTlb State.touchCourse
    dsimp only
    split
    · split <;> rfl
    · rfl
  | plinth => rfl

theorem State.touchTlb_regions_dev (s : State) (a : Agent) (va : Word) :
    (s.touchTlb a va).regions = s.regions ∧ (s.touchTlb a va).dev = s.dev := by
  cases a with
  | ctx c k u =>
    simp only [State.touchTlb]
    split
    · exact ⟨rfl, rfl⟩
    split
    · exact ⟨rfl, rfl⟩
    split <;> exact ⟨rfl, rfl⟩
  | quoin c =>
    unfold State.touchTlb State.touchCourse
    dsimp only
    split
    · split <;> exact ⟨rfl, rfl⟩
    · exact ⟨rfl, rfl⟩
  | plinth => exact ⟨rfl, rfl⟩

@[simp] theorem State.watchesOf_touchTlb (s : State) (a : Agent) (va : Word) (n : Nat) :
    (s.touchTlb a va).watchesOf n = s.watchesOf n := by
  obtain ⟨regions, dev⟩ := s.touchTlb_regions_dev a va
  simp only [State.watchesOf, State.region?, regions, dev, State.touchTlb_watches]

@[simp] theorem State.register_cur (s : State) (loc : Nat) (r : Registration) : (s.register loc r).cur = s.cur := by
  unfold State.register
  dsimp only
  rw [foldl_cur fun t o => State.latchWhere_cur t _ _ _]
  split <;> rfl

section
variable {d a b : Reg} {g : PReg} {n : Nat}

/-- What `mon` gives where an entry is free, the address lies in no reserved part of a slice, and its home is found (R268). -/
theorem leaves_mon (k loc : Nat) :
    Leaves (.mon d a b g) (fun t => t.cur.core? = some n ∧ freeEntry (t.watchesOf n) = some k ∧
        (inAperture (t.reads a) = true → apOff (t.reads a) < 0x370000) ∧ t.resolve t.cur .read (t.reads a) = .ok loc ∧
        t.slotsUsed n < 4096 ∧ t.gateShut t.cur loc = false)
      (fun t =>
        let u := ((t.touchTlb t.cur (t.reads a)).setWatches n (Map.set ((t.touchTlb t.cur (t.reads a)).watchesOf n) k
          ⟨t.cur.tid, lineOf loc, pageOf (t.reads a), if fld (t.reads b) 0 32 = 0xFFFFFFFF then none
            else some (t.nowNs n + fld (t.reads b) 0 32), none⟩)).register loc ⟨lineOf loc, n, k, false⟩
        ({ u with replies := u.replies ++ [⟨t.cur, .watched, (filterOf loc).1⟩] } : State).modCtx t.cur fun c =>
          { c with park := some (.mon k d a b g) }) :=
  leaves_of_wait (fun _ => rfl) fun t ⟨core, free, program, found, slots, gate⟩ => by
    have outside : (inAperture (t.reads a) && t.cur.program && decide (progEnd ≤ apOff (t.reads a))) = false := by
      cases ap : inAperture (t.reads a) with
      | false => rfl
      | true => exact Bool.and_eq_false_imp.2 fun _ => decide_eq_false (Nat.not_le.2 (program ap))
    have slotted : t.slotsFree t.cur 1 = true := by rw [t.slotsFree_of_core? core]; exact decide_eq_true slots
    rw [State.reads] at outside found
    simp only [watchCore_of_core? core, free, Option.map_some, outside, found, slotted, gate, Bool.not_true, Bool.or_self,
      Bool.false_eq_true, if_false, State.register_cur, State.setWatches_cur, State.touchTlb_cur, State.watchesOf_touchTlb]
    rfl

/-- An acknowledgement that sinks completes the `mon` that waits for it with its entry. -/
theorem exec_replySink_watched {s : State} {l m : List Reply} {e port : Nat} {c : Agent}
    (queue : s.replies = l ++ ⟨c, .watched, port⟩ :: m) (first : s.behindReply l.length = false)
    (still : ∀ k, c.core? = some k → s.gated k = false) (parked : (s.ctx c).park = some (.mon e d a b g)) :
    exec (.replySink l.length) s = .next ((({ s with replies := l ++ m } : State).completeParked c (.mon d a b g)
      [.toX d.val (BitVec.ofNat 64 e)]).pumpCore c) := by
  have told : ({ s with replies := l ++ m } : State).watched c =
      ({ s with replies := l ++ m } : State).completeParked c (.mon d a b g) [.toX d.val (BitVec.ofNat 64 e)] := by
    have same : (({ s with replies := l ++ m } : State).ctx c).park = some (.mon e d a b g) := parked
    simp only [State.watched, same]
  rw [exec_replySink_takes queue rfl first still, State.takeReply, told]

/-- Settles O31: `leaves_mon` and `exec_replySink_watched` for `mon`, and the outcomes of `mwait` by the entry that it names. -/
theorem watchForms : Obligations.WatchForms := by
  intro d a b g n
  refine ⟨⟨?_, ?_, fun k loc => leaves_mon k loc⟩, fun s l m e port c queue first still parked =>
    exec_replySink_watched queue first still parked, ?_, fun e w st => ?_, fun e w => ?_⟩
  · refine does_of (fun _ => rfl) fun t ⟨core, full⟩ => ?_
    simp only [watchCore_of_core? core, full, Option.map_none]
    rfl
  · refine raises_of (fun _ => rfl) fun t ⟨core, free, ap, reserved⟩ => ?_
    obtain ⟨k, hk⟩ := Option.isSome_iff_exists.1 free
    rw [State.reads] at ap reserved
    simp only [watchCore_of_core? core, hk, Option.map_some, ap, Agent.program_of_core? core, progEnd, reserved, decide_true,
      Bool.and_self, if_true]
    rfl
  · refine does_of (fun _ => rfl) fun t unarmed => ?_
    rw [State.reads] at unarmed
    simp only [unarmed]
    rfl
  · refine does_of (fun _ => rfl) fun t ⟨armed, latched⟩ => ?_
    rw [State.reads] at armed
    simp only [armed, latched]
  · refine leaves_of_wait (fun _ => rfl) fun t ⟨armed, latched⟩ => ?_
    rw [State.reads] at armed
    simp only [armed, latched]
    rfl

end

end Sys2Proof.Machine
end

section
/-! # What wakes a context that waits (R126, R260, R263, R264, R269, R271, R282, R283, R286, R288) -/

namespace Sys2Proof.Machine

open Sys2Proof

/-! ### Watch entries -/

/-- The core of a device's context names no image, and is not the plinth (R263). -/
theorem imageOf?_eq_none {n : Nat} (h : n < 2048) : imageOf? n = none := if_pos (by omega)

theorem State.watchesOf_core (s : State) {n : Nat} (h : n < 2048) : s.watchesOf n = (s.core n).watches := by
  rw [State.watchesOf, imageOf?_eq_none h]
  exact if_neg (Nat.ne_of_lt h)

theorem State.setWatches_core (s : State) {n : Nat} (h : n < 2048) (ws : List (Nat × Watch)) :
    s.setWatches n ws = s.modCore n fun k => { k with watches := ws } := by
  rw [State.setWatches, imageOf?_eq_none h]
  exact (if_neg (Nat.ne_of_lt h)).trans (if_neg (Nat.lt_asymm h))

/-- A status is latched in the entries of a core that a test selects. -/
theorem State.latchWhere_core (s : State) {n : Nat} (h : n < 2048) (p : Nat → Watch → Bool) (st : Nat) :
    s.latchWhere n p st = s.modCore n fun k =>
      { k with watches := k.watches.map fun w => if p w.1 w.2 then (w.1, w.2.latchWith st) else w } := by
  rw [State.latchWhere, s.setWatches_core h, s.watchesOf_core h]
  rfl

theorem exec_watchReport {s : State} {n e : Nat} {r : Registration} (h : n < 2048)
    (found : (s.filters.find? fun r => r.core == n && r.entry == e && r.hit) = some r) :
    exec (.watchReport n e) s = .next (({ s with filters := s.filters.erase r } : State).modCore n fun k =>
      { k with watches := k.watches.map fun w => if w.1 == e && w.2.line == r.line then (w.1, w.2.latchWith 0) else w }) := by
  show execWatchReport n e s = _
  simp only [execWatchReport, found, State.latchWhere_core _ h]

theorem exec_watchTimeout (s : State) {n : Nat} (e : Nat) (h : n < 2048) :
    exec (.watchTimeout n e) s = .next (s.modCore n fun k =>
      { k with watches := k.watches.map fun w => if w.1 == e && (w.2.deadline.any fun t => decide (t ≤ s.nowNs n))
          then (w.1, w.2.latchWith 1) else w }) := by
  show execWatchTimeout n e s = _
  have due (w : Watch) : (match w.deadline with | some t => decide (t ≤ s.nowNs n) | none => false) =
      w.deadline.any fun t => decide (t ≤ s.nowNs n) := by cases w.deadline <;> rfl
  simp only [execWatchTimeout, State.latchWhere_core _ h]
  simp only [← due] <;> rfl

/-- The first status stays, unless a write replaces it (R264). -/
theorem Watch.latchWith_latch (w : Watch) (st : Nat) :
    (w.latchWith st).latch = some (if w.latch.isNone ∨ st = 0 then st else w.latch.getD 0) := by
  unfold Watch.latchWith
  cases w.latch with
  | none => rfl
  | some o =>
    by_cases h : st = 0
    · simp [h]
    · simp [h]

theorem exec_mwaitWake {s : State} {c k t e : Nat} {w : Watch} (parked : (s.ctx (.ctx c k t)).park = some (.mwait e))
    (h : coreId c k < 2048) (found : Map.find (s.core (coreId c k)).watches e = some w) (latched : w.latch.isSome = true) :
    exec (.mwaitWake (.ctx c k t)) s = .next (s.modCtx (.ctx c k t) fun x => { x with park := none }) := by
  show execMwaitWake (.ctx c k t) s = _
  simp only [execMwaitWake, parked, watchCore, State.watchesOf_core _ h, found, latched, if_true]
  rfl

/-! ### Barriers -/

theorem exec_parkedBararrArrival {s : State} {a : Agent} {loc : Nat} {e x : Word} {xa xb : Reg} {g : PReg}
    (parked : (s.ctx a).park = some (.bararr loc e x xa xb g)) (room : (s.barAt loc).full = false)
    (shut : s.portShut a loc 16 = false) (moving : s.moving a = true) :
    exec (.parkedBararrArrival a) s = .next (((s.putBar loc ((s.barAt loc).arrive x.toInt) (s.fromAgent 1 a)).modCtx a fun c =>
      { c with arrRec := some (e, BitVec.ofNat 32 (s.barAt loc).epoch) }).completeParked a (.bararr xa xb g) []) := by
  show execParkedBararrArrival a s = _
  simp only [execParkedBararrArrival, parked, room, shut, moving, Bool.not_true, Bool.or_self, Bool.false_eq_true, if_false]
  rfl

section
variable {s : State} {a : Agent} {loc : Nat} {e : Word} {e0 : W32} {dl : Option Nat} {d xa : Reg} {g : PReg}

/-- A `barwait` has status 0 where the phase has completed, else 2 at a fault, else 1 once its time has passed (R288). -/
theorem State.barStatus_completed (passed : (s.barAt loc).epoch ≠ e0.toNat) : s.barStatus a loc e0 dl = some 0 := if_pos passed

theorem State.barStatus_fault (waits : (s.barAt loc).epoch = e0.toNat) (fault : (s.barAt loc).fault = true) :
    s.barStatus a loc e0 dl = some 2 :=
  (if_neg (not_not.2 waits)).trans (if_pos fault)

theorem State.barStatus_late (waits : (s.barAt loc).epoch = e0.toNat) (sound : (s.barAt loc).fault = false) {t : Nat}
    (deadline : dl = some t) (late : t ≤ s.agentNs a) : s.barStatus a loc e0 dl = some 1 := by
  subst deadline
  exact (if_neg (not_not.2 waits)).trans ((if_neg (ne_true_of_eq_false sound)).trans (if_pos late))

/-- A parked `barwait` outside a gang completes with a status that the step admits (R288). -/
theorem State.finishBarwait_lone (parked : (s.ctx a).park = some (.barwait loc e e0 dl d xa g)) (lone : s.group a = [a])
    (moving : s.moving a = true) {st : Nat} (status : s.barStatus a loc e0 dl = some st) {p : Nat → Bool} (admits : p st = true) :
    s.finishBarwait a p = (s.clearRecord a st).completeParked a (.barwait d xa g) [.toX d.val (BitVec.ofNat 64 st)] := by
  simp only [State.finishBarwait, lone, moving, parked, status, admits, List.all_cons, List.all_nil, Option.map_some,
    Option.isSome_some, Bool.and_self, if_true, List.foldl_cons, List.foldl_nil]

end

/-! ### Parked forms that issue anew -/

section
variable {s : State} {a : Agent} {n c : Nat}

theorem exec_reservationRetry (core : a.core? = some n) :
    ((s.ctx a).park = some .reserve → s.placeFree n = true → exec (.reservationRetry a) s = .next (s.unpark a)) ∧
    ((s.ctx a).park ≠ some .reserve → exec (.reservationRetry a) s = .next s) := by
  change (_ → _ → execReservationRetry a s = _) ∧ (_ → execReservationRetry a s = _)
  unfold execReservationRetry
  refine ⟨fun parked free => by simp only [parked, core, free, if_true], fun other => ?_⟩
  split
  · exact absurd ‹_› other
  · rfl

theorem exec_arrayJoinRetry (course : a.course? = some c) :
    ((s.ctx a).park = some .array → (s.course c).jobs.length < 8 → exec (.arrayJoinRetry a) s = .next (s.unpark a)) ∧
    ((s.ctx a).park ≠ some .array → exec (.arrayJoinRetry a) s = .next s) := by
  change (_ → _ → execArrayJoinRetry a s = _) ∧ (_ → execArrayJoinRetry a s = _)
  unfold execArrayJoinRetry
  refine ⟨fun parked free => by simp only [parked, course, free, if_true], fun other => ?_⟩
  split
  · exact absurd ‹_› other
  · rfl

theorem exec_copyEntryRetry (course : a.course? = some c) :
    ((s.ctx a).park = some .copy → s.entriesUsed c < 32 → exec (.copyEntryRetry a) s = .next (s.unpark a)) ∧
    ((s.ctx a).park ≠ some .copy → exec (.copyEntryRetry a) s = .next s) := by
  change (_ → _ → execCopyEntryRetry a s = _) ∧ (_ → execCopyEntryRetry a s = _)
  unfold execCopyEntryRetry
  refine ⟨fun parked free => by simp only [parked, course, free, if_true], fun other => ?_⟩
  split
  · exact absurd ‹_› other
  · rfl

theorem exec_streamBindingRetry (course : a.course? = some c) :
    ((s.ctx a).park = some .stream → s.bindings c < 16 ∧ s.entriesUsed c < 32 →
      exec (.streamBindingRetry a) s = .next (s.unpark a)) ∧
    ((s.ctx a).park ≠ some .stream → exec (.streamBindingRetry a) s = .next s) := by
  change (_ → _ → execStreamBindingRetry a s = _) ∧ (_ → execStreamBindingRetry a s = _)
  unfold execStreamBindingRetry
  refine ⟨fun parked free => by simp only [parked, course, free.1, free.2, decide_true, Bool.and_self, if_true], fun other => ?_⟩
  split
  · exact absurd ‹_› other
  · rfl

theorem exec_collectiveJoinRetry (core : a.core? = some n) :
    ((s.ctx a).park = some .coll → s.collUsed (n / 256) < 16 → exec (.collectiveJoinRetry a) s = .next (s.unpark a)) ∧
    ((s.ctx a).park ≠ some .coll → exec (.collectiveJoinRetry a) s = .next s) := by
  change (_ → _ → execCollectiveJoinRetry a s = _) ∧ (_ → execCollectiveJoinRetry a s = _)
  unfold execCollectiveJoinRetry
  refine ⟨fun parked free => by simp only [parked, core, free, if_true], fun other => ?_⟩
  split
  · exact absurd ‹_› other
  · rfl

end

/-- Settles O40, step by step: entries by `State.latchWhere_core`, `barwait` by its status, and the forms that issue anew. -/
theorem waitSteps : Obligations.WaitSteps := by
  refine ⟨⟨fun s n e r h found => exec_watchReport h found, fun s n e h => exec_watchTimeout s e h, fun w st =>
    ⟨w.latchWith_latch st, rfl, rfl⟩, fun s c k t e w parked h found latched => exec_mwaitWake parked h found latched,
    fun s a loc e x xa xb g parked room shut moving => exec_parkedBararrArrival parked room shut moving,
    fun s a loc e e0 dl d xa g parked lone moving => ⟨fun passed => ?_, fun waits fault => ?_, fun t waits sound deadline late => ?_⟩⟩,
    fun s a n c core course => ⟨?_, exec_arrayJoinRetry course, exec_copyEntryRetry course, exec_streamBindingRetry course,
      exec_collectiveJoinRetry core⟩⟩
  · exact congrArg _ (State.finishBarwait_lone parked lone moving (State.barStatus_completed passed) rfl)
  · exact congrArg _ (State.finishBarwait_lone parked lone moving (State.barStatus_fault waits fault) rfl)
  · exact congrArg _ (State.finishBarwait_lone parked lone moving (State.barStatus_late waits sound deadline late) rfl)
  · exact ⟨fun parked free => (exec_reservationRetry core).1 parked (decide_eq_true free), (exec_reservationRetry core).2⟩

end Sys2Proof.Machine
end

section
/-! # Streams, copies and collectives as they are issued (R271 to R273, R277, R279, R282, R283) -/

namespace Sys2Proof.Machine

open Sys2Proof

/-! ### Streams -/

/-- The stream record of a register of a kind that has streams: records 0 to 3 for x24 to x27, and 4 to 7 for v24 to v27 (R278). -/
theorem streamNo_x (n : Fin 4) : streamNo .x (24 + n.val) = some n.val := by
  revert n; decide

theorem streamNo_v (n : Fin 4) : streamNo .v (24 + n.val) = some (4 + n.val) := by
  revert n; decide

theorem streamNo_ite (vector : Bool) (n : Fin 4) :
    streamNo (if vector then .v else .x) (24 + n.val) = some (n.val + if vector then 4 else 0) := by
  revert vector n; decide

/-- A register that is not in stream mode has a record that is not bound. -/
theorem Ctx.stream_bound_of_bound? {c : Ctx} {k : RKind} {r j : Nat} (number : streamNo k r = some j)
    (free : (c.bound? k r).isNone = true) : (c.stream j).bound = false := by
  rw [Ctx.bound?, number] at free
  dsimp only at free
  split at free
  · cases free
  · exact Bool.eq_false_iff.2 ‹_›

@[simp] theorem Ctx.unbind_stream_bound (x : Ctx) (j : Nat) : ((x.unbind j).stream j).bound = false :=
  congrArg Stream.bound (Map.get_erase_self ..)

theorem length_streamDims (c : StreamCmd) : (streamDims c).length = c.dims.toNat + 1 := by
  have := c.dims.isLt
  simp only [streamDims, List.length_take, List.length_cons, List.length_nil]
  omega

/-- The record of a fresh binding: it stands at the first element of its pattern (R273, R278). -/
def boundStream (base : Word) (ty : IntTy) (c : StreamCmd) : Stream :=
  ⟨true, false, base, (streamDims c).map (·.2) ++ List.replicate (3 - c.dims.toNat) 0,
    (streamDims c).map (·.1) ++ List.replicate (3 - c.dims.toNat) 0, [0, 0, 0, 0], c.swz, c.dims.toNat, ty, false⟩

/-- A binding that passes its checks, with a free binding and command entry (R271, R272). -/
theorem doSmode_binds {kind : RKind} {n : Fin 4} {a : Reg} {ty : IntTy} {c : StreamCmd} {size j course : Nat} {i : Instr} {t : State}
    (number : streamNo kind (24 + n.val) = some j)
    (sound : ∀ d ∈ streamDims c, d.1 ≠ 0 ∧ d.2.toNat % size = 0) (aligned : (t.reads a).toNat % size = 0)
    (own : t.cur.course? = some course) (free : ((t.ctx t.cur).bound? kind (24 + n.val)).isNone = true)
    (bindings : t.bindings course < 16) (entries : t.entriesUsed course < 32) (quiet : t.performed t.cur true = true) :
    doSmode kind n a ty c size i t = .done (t.modCtx t.cur fun x =>
      let x := x.unbind j
      { x with arch := { x.arch with streams := Map.set x.arch.streams j (boundStream (t.reads a) ty c) } }) [] := by
  have counted : (streamDims c).any (fun d => d.1 == 0) = false :=
    List.any_eq_false.2 fun d hd => by simp [(sound d hd).1]
  have strides : (streamDims c).find? (fun d => d.2.toNat % size != 0) = none :=
    List.find?_eq_none.2 fun d hd => by simp [(sound d hd).2]
  have unbound := Ctx.stream_bound_of_bound? number free
  have room : (16 + 0 ≤ t.bindings course || 32 + 0 ≤ t.entriesUsed course : Bool) = false := by
    rw [decide_eq_false (by omega), decide_eq_false (by omega)]; rfl
  rw [State.reads] at aligned
  have padding : 4 - (c.dims.toNat + 1) = 3 - c.dims.toNat := by omega
  simp only [doSmode, counted, aligned, strides, number, Option.getD_some, own, unbound, Bool.false_eq_true, if_false, room, quiet,
    Bool.not_true, ne_eq, not_true_eq_false, List.length_map, length_streamDims, padding]
  rfl

/-- Settles O32: `doSmode_binds` for both kinds of register, and `sexit` by whether its register is in stream mode. -/
theorem streamForms : Obligations.StreamForms := by
  intro n a ty c g course
  refine ⟨?_, fun size _ => ?_, fun vector => ⟨?_, fun x j => x.unbind_stream_bound j⟩⟩
  · exact does_of (fun _ => rfl) fun t ⟨sound, aligned, _, own, free, bindings, entries, quiet⟩ =>
      doSmode_binds (streamNo_x n) sound aligned own free bindings entries quiet
  · refine does_of (fun _ => rfl) fun t ⟨width, sound, aligned, _, own, free, bindings, entries, quiet⟩ => ?_
    subst width
    exact doSmode_binds (streamNo_v n) sound aligned own free bindings entries quiet
  · refine does_of (fun _ => rfl) fun t _ => ?_
    simp only [Ctx.bound?, streamNo_ite]
    by_cases bound : ((t.ctx t.cur).stream (n.val + if vector then 4 else 0)).bound = true
    · simp only [bound, if_true, Option.isSome_some]
    · simp only [bound, Bool.false_eq_true, if_false, Option.isSome_none]

/-! ### Copies and collectives -/

theorem map_fst_copyDims (c : CopyCmd) : (copyDims c).map (·.1) =
    [c.n0.toNat, c.n1.toNat, c.n2.toNat, c.n3.toNat].take (c.dims.toNat + 1) := by
  rw [copyDims, List.map_take]
  rfl

/-- The check of a copy's command word: no reserved field is set and no used count is 0 (R281). -/
theorem copy_unsound_iff (c : CopyCmd) : (!c.clean || (copyDims c).any fun x => x.1 == 0) = true ↔
    ¬(c.clean = true ∧ 0 ∉ [c.n0.toNat, c.n1.toNat, c.n2.toNat, c.n3.toNat].take (c.dims.toNat + 1)) := by
  rw [← map_fst_copyDims]
  simp only [Bool.or_eq_true, Bool.not_eq_true', List.any_eq_true, beq_iff_eq, List.mem_map, not_and_or, not_not, Bool.not_eq_true]

theorem badBase_eq_false {w : Word} {swz : BitVec 3} (plain : if inAperture w then apWin w = 0 else swz = 0) :
    badBase w swz = false := by
  unfold badBase
  split
  next ap => rw [if_pos ap] at plain; simp [plain]
  next ap => rw [if_neg ap] at plain; simp [plain]

/-- Settles O33: the checks of a copy in their order, and the join of each form where its checks pass and its engine has room. -/
theorem copyCollectiveForms : Obligations.CopyCollectiveForms := by
  intro d a b g bar n
  refine ⟨fun c => ⟨?_, ?_, ?_⟩, fun op c => ?_⟩
  · refine raises_of (fun _ => rfl) fun t unsound => ?_
    simp only [(copy_unsound_iff c).2 unsound, if_true]
    rfl
  · refine raises_of (fun _ => rfl) fun t ⟨sound, misaligned⟩ => ?_
    have clean := Bool.eq_false_iff.2 fun h => (copy_unsound_iff c).1 h sound
    rw [State.reads] at misaligned
    simp only [clean, Bool.false_eq_true, if_false, copySize, misaligned, ne_eq, not_false_eq_true, if_true]
    rfl
  · refine does_of (fun _ => rfl) fun t ⟨sound, ⟨dst, src⟩, dstPlain, srcPlain, bars, core, place, entries, quiet, course⟩ => ?_
    have clean := Bool.eq_false_iff.2 fun h => (copy_unsound_iff c).1 h sound
    have dstGood := badBase_eq_false dstPlain
    have srcGood := badBase_eq_false srcPlain
    rw [State.reads] at dst src dstGood srcGood
    simp only [clean, Bool.false_eq_true, if_false, copySize, dst, src, dstGood, srcGood, bars, core, course, place, Bool.not_true,
      Nat.not_le.2 entries, quiet, ne_eq, not_true_eq_false, State.reserveFor]
    rfl
  · refine does_of (fun _ => rfl) fun t ⟨bars, core, place, joins, quiet⟩ => ?_
    simp only [bars, core, place, Bool.not_true, Bool.false_eq_true, if_false, Nat.not_le.2 joins, quiet]
    rfl

end Sys2Proof.Machine
end

section
/-! # Scratch barriers (R278, R284 to R288) -/

namespace Sys2Proof.Machine

open Sys2Proof

/-! ### The algebra -/

section
variable (b : Bar)

theorem Bar.check_completes (due : b.expected ≠ 0 ∧ b.arrived = b.expected ∧ b.pending = 0 ∧ b.fault = false) :
    b.check = { b with phase := !b.phase, epoch := (b.epoch + 1) % 2 ^ 32, arrived := 0 } := by
  obtain ⟨counts, arrived, landed, sound⟩ := due
  refine if_pos ?_
  simp [counts, arrived, landed, sound]

theorem Bar.check_waits (early : ¬(b.expected ≠ 0 ∧ b.arrived = b.expected ∧ b.pending = 0 ∧ b.fault = false)) : b.check = b := by
  refine if_neg fun due => early ?_
  simpa [and_assoc] using due

theorem Bar.check_of_fault (fault : b.fault = true) : b.check = b :=
  b.check_waits fun due => Bool.false_ne_true (due.2.2.2.symm.trans fault)

theorem Bar.arrive_within {n : Int} (low : -(2 ^ 27) ≤ b.pending + n) (high : b.pending + n < 2 ^ 27) :
    b.arrive n = Bar.check { b with arrived := (b.arrived + 1) % 2 ^ 16, pending := b.pending + n } := by
  have inside : (b.pending + n < -(2 ^ 27) || 2 ^ 27 ≤ b.pending + n : Bool) = false := by
    rw [decide_eq_false (Int.not_lt.2 low), decide_eq_false (Int.not_le.2 high)]; rfl
  simp only [Bar.arrive, inside, Bool.false_eq_true, if_false]

theorem Bar.arrive_outside {n : Int} (out : b.pending + n < -(2 ^ 27) ∨ 2 ^ 27 ≤ b.pending + n) :
    b.arrive n = { b with arrived := (b.arrived + 1) % 2 ^ 16, fault := true } := by
  have outside : (b.pending + n < -(2 ^ 27) || 2 ^ 27 ≤ b.pending + n : Bool) = true := by
    simpa only [Bool.or_eq_true, decide_eq_true_eq] using out
  simp only [Bar.arrive, outside, if_true]
  exact Bar.check_of_fault _ rfl

theorem Bar.lower_within {n : Nat} (low : -(2 ^ 27) ≤ b.pending - n) :
    b.lower n = Bar.check { b with pending := b.pending - n } := by
  simp only [Bar.lower, if_neg (Int.not_lt.2 low)]

theorem Bar.lower_below {n : Nat} (below : b.pending - n < -(2 ^ 27)) : b.lower n = { b with fault := true } := by
  simp only [Bar.lower, if_pos below]
  exact Bar.check_of_fault _ rfl

/-- The pending count read back from 28 bits in two's complement. -/
theorem signed28_roundtrip {p : Int} (low : -(2 ^ 27) ≤ p) (high : p < 2 ^ 27) :
    (if 2 ^ 27 ≤ (p % 2 ^ 28).toNat then ((p % 2 ^ 28).toNat : Int) - 2 ^ 28 else (p % 2 ^ 28).toNat) = p := by
  split <;> omega

/-- A barrier's 16 bytes hold its fields (R284). -/
theorem Bar.ofNat_toNat (he : b.expected < 2 ^ 16) (ha : b.arrived < 2 ^ 16) (low : -(2 ^ 27) ≤ b.pending) (high : b.pending < 2 ^ 27)
    (hs : b.spare < 4) (ht : b.timeout < 2 ^ 32) (hp : b.epoch < 2 ^ 32) : Bar.ofNat b.toNat = b := by
  obtain ⟨expected, arrived, pending, phase, spare, fault, timeout, epoch⟩ := b
  dsimp only at he ha low high hs ht hp
  have back := signed28_roundtrip low high
  have width : (pending % 2 ^ 28).toNat < 2 ^ 28 := by omega
  simp only [Bar.ofNat, Bar.toNat, at', bit', Nat.mod_eq_of_lt he, Nat.mod_eq_of_lt ha, Nat.mod_eq_of_lt hs, Nat.mod_eq_of_lt ht,
    Nat.mod_eq_of_lt hp]
  generalize (pending % 2 ^ 28).toNat = q at back width
  have phase_lt := Bool.toNat_lt phase
  have fault_lt := Bool.toNat_lt fault
  have bits (f : Bool) (k : Nat) : (if f = true then 2 ^ k else 0) = f.toNat * 2 ^ k := by cases f <;> simp
  have read (f : Bool) {m : Nat} (h : m = f.toNat) : decide (m = 1) = f := by subst h; cases f <;> rfl
  simp only [bits, Nat.testBit_eq_decide_div_mod_eq, Bar.mk.injEq]
  refine ⟨by omega, by omega, ?_, read phase (by omega), by omega, read fault (by omega), by omega, by omega⟩
  rw [show (expected + arrived * 2 ^ 16 + q * 2 ^ 32 + phase.toNat * 2 ^ 60 + spare * 2 ^ 61 + fault.toNat * 2 ^ 63 + timeout * 2 ^ 64 +
    epoch * 2 ^ 96) / 2 ^ 32 % 2 ^ 28 = q by omega]
  exact back

end

/-! ### The forms -/

/-- A barrier's address is aligned and lies in window 0 of the aperture (R285). -/
theorem State.locateBar_ok {s : State} {a : Agent} {acc : Access} {e : Word} {loc : Nat} (found : s.locateBar a acc e = .ok loc) :
    e.toNat % 16 = 0 ∧ inAperture e = true ∧ apWin e = 0 := by
  unfold State.locateBar at found
  split at found
  · cases found
  next aligned =>
    split at found
    · cases found
    next inside => simpa [not_not.1 aligned] using inside

section
variable {t : State} {loc : Nat}

theorem State.barBehind_eq_false (asked : t.requests.any (Req.onLine t.cur [lineOf loc]) = false)
    (sent : (t.ctx t.cur).unsent = []) : t.barBehind t.cur loc = false := by
  rw [State.barBehind, asked, sent]
  rfl

theorem State.barBusy_eq_false (asked : t.requests.any (Req.onLine t.cur [lineOf loc]) = false)
    (sent : (t.ctx t.cur).unsent = []) (port : t.portShut t.cur loc 16 = false) : t.barBusy t.cur loc = false := by
  rw [State.barBusy, State.barBehind_eq_false asked sent, port]
  rfl

end

/-- The time at which a `barwait` that begins now gives up (R288). -/
def State.barDeadline (t : State) (loc : Nat) : Option Nat :=
  if (t.barAt loc).timeout = 0xFFFFFFFF then none else some (t.agentNs t.cur + (t.barAt loc).timeout)

/-- The epoch that a `barwait` waits to pass: that of its context's record of the barrier, or the present one (R288). -/
def State.barEpoch (t : State) (loc : Nat) (e : Word) : W32 :=
  match (t.ctx t.cur).arrRec with
  | some r => if r.1 = e then r.2 else BitVec.ofNat 32 (t.barAt loc).epoch
  | none => BitVec.ofNat 32 (t.barAt loc).epoch

/-- A `barwait` outside a gang, at a barrier that it finds, completes with the status that there is, and parks where there is none. -/
theorem exec_barwait {d a : Reg} {g : PReg} {s : State} (hs : s.performs (.barwait d a g) = true) {t : State}
    (ht : s.before (.barwait d a g) = t) {loc : Nat} (found : t.locateBar t.cur .read (t.reads a) = .ok loc)
    (asked : t.requests.any (Req.onLine t.cur [lineOf loc]) = false) (sent : (t.ctx t.cur).unsent = [])
    (opened : near t.cur loc = true ∨ t.gateShut t.cur loc = false) (lone : (t.group t.cur).length ≤ 1)
    {e0 : W32} (record : e0 = t.barEpoch loc (t.reads a)) : exec (.barwait d a g) s = .next (s.conclude (.barwait d a g)
      (match t.barStatus t.cur loc e0 (t.barDeadline loc) with
        | some st => .done (t.clearRecord t.cur st) [.toX d.val (BitVec.ofNat 64 st)]
        | none => .wait (t.park t.cur (.barwait loc (t.reads a) e0 (t.barDeadline loc) d a g)))) := by
  subst record
  refine (issue_performs hs _).trans ?_
  have gate : (!near t.cur loc && t.gateShut t.cur loc) = false := by
    rcases opened with h | h <;> simp [h]
  rw [State.reads] at found
  simp only [ht, found, Or.then, State.barBehind_eq_false asked sent, gate, Bool.or_self, Bool.false_eq_true, if_false, lone, if_true]
  rfl

/-- A `barwait` that has not waited is not late, for its timeout is not 0. -/
theorem State.barStatus_waits {t : State} {loc : Nat} {e0 : W32} (timed : (t.barAt loc).timeout ≠ 0)
    (waits : (t.barAt loc).epoch = e0.toNat) (sound : (t.barAt loc).fault = false) :
    t.barStatus t.cur loc e0 (t.barDeadline loc) = none := by
  refine (if_neg (not_not.2 waits)).trans ((if_neg (ne_true_of_eq_false sound)).trans ?_)
  unfold State.barDeadline
  split
  next t' h =>
    split at h
    · cases h
    · exact if_neg (by rw [← Option.some.inj h]; omega)
  · rfl

/-- Settles O34: the algebra by `Bar.check`, the fields by `Bar.ofNat_toNat`, and each form's operation at a barrier that it finds. -/
theorem barriers : Obligations.Barriers := by
  refine ⟨⟨fun b => ⟨b.check_completes, b.check_waits⟩, fun b n => b.arrive_within, fun b n => b.arrive_outside,
    fun b n => ⟨b.lower_within, b.lower_below⟩, fun b => b.ofNat_toNat⟩, fun d a b g loc =>
    ⟨fun acc e s => State.locateBar_ok, ?_, ?_, ?_, fun e0 => ⟨?_, ?_, ?_⟩⟩⟩
  · refine does_of (fun _ => rfl) fun t ⟨found, asked, sent, port⟩ => ?_
    rw [State.reads] at found
    simp only [found, Or.then, State.barBusy_eq_false asked sent port, Bool.false_eq_true, if_false]
    rfl
  · refine does_of (fun _ => rfl) fun t ⟨found, ⟨asked, sent, port⟩, released, counts⟩ => ?_
    rw [State.reads] at found
    simp only [found, Or.then, State.barBusy_eq_false asked sent port, released, counts, Bool.not_true, Bool.or_self,
      Bool.false_eq_true, if_false]
    rfl
  · refine leaves_of_wait (fun _ => rfl) fun t ⟨found, ⟨asked, sent, port⟩, released, full⟩ => ?_
    rw [State.reads] at found
    simp only [found, Or.then, State.barBusy_eq_false asked sent port, released, full, Bool.not_true, Bool.or_self,
      Bool.false_eq_true, if_false, if_true]
    rfl
  · rintro s hs ⟨⟨found, asked, sent, opened, lone, timed, record⟩, passed⟩
    rw [exec_barwait hs rfl found asked sent opened lone record, State.barStatus_completed passed]
    rfl
  · rintro s hs ⟨⟨found, asked, sent, opened, lone, timed, record⟩, waits, fault⟩
    rw [exec_barwait hs rfl found asked sent opened lone record, State.barStatus_fault waits fault]
    rfl
  · rintro s hs ⟨⟨found, asked, sent, opened, lone, timed, record⟩, waits, sound⟩
    rw [exec_barwait hs rfl found asked sent opened lone record, State.barStatus_waits timed waits sound]
    rfl

end Sys2Proof.Machine
end

section
/-! # Declarations and sweeps as they are issued (R236, R237, R239) -/

namespace Sys2Proof.Machine

open Sys2Proof

/-! ### The ranges of a declaration (R237) -/

/-- Some of a list's addresses are there exactly where the list has one, so a lowest one is. -/
theorem lowestOf_isSome {ws : List Word} (h : ws ≠ []) : ∃ w, lowestOf ws = some w := by
  have step : ∀ (l : List Word) (x : Word), ∃ w, l.foldl (fun l w => match l with
      | some x => some (if w.toNat < x.toNat then w else x) | none => some w) (some x) = some w := by
    intro l
    induction l with
    | nil => exact fun x => ⟨x, rfl⟩
    | cons w l ih => exact fun x => ih _
  cases ws with
  | nil => exact absurd rfl h
  | cons w l => exact step l w

theorem filterMap_ne_nil {α β : Type} {f : α → Option β} {l : List α} {x : α} (hx : x ∈ l) (h : f x ≠ none) :
    l.filterMap f ≠ [] := by
  obtain ⟨y, hy⟩ := Option.ne_none_iff_exists'.1 h
  exact List.ne_nil_of_mem (List.mem_filterMap.2 ⟨x, hx, hy⟩)

theorem filterMap_eq_nil_of_all {α β : Type} {f : α → Option β} {l : List α} (h : ∀ x ∈ l, f x = none) : l.filterMap f = [] :=
  List.filterMap_eq_nil_iff.2 h

/-- A range lies in window 0 of the aperture (R237). -/
def InWindow0 (r : Word × Nat) : Prop := inAperture r.1 = true ∧ apWin r.1 = 0 ∧ r.1.toNat + r.2 ≤ 0x400200000000

theorem outsideWindow0_eq_none_iff (r : Word × Nat) : outsideWindow0 r = none ↔ InWindow0 r := by
  unfold outsideWindow0 InWindow0
  split
  next out =>
    simp only [reduceCtorEq, false_iff]
    intro ⟨ap, win, _⟩
    simp [ap, win] at out
  next inside =>
    have inside : inAperture r.1 = true ∧ apWin r.1 = 0 := by simpa using inside
    simp only [ite_eq_right_iff, reduceCtorEq, imp_false, Nat.not_lt, inside, true_and]
    rfl

/-- A range lies in the program part of a core's own slice (R237). -/
def State.Within (t : State) (n : Nat) (w : Word) (bytes : Nat) : Prop :=
  inAperture w = true ∧ apWin w = 0 ∧ apCore w = t.cidOf n ∧ apOff w + bytes ≤ 0x370000

theorem State.outsideOwn_eq_none {t : State} {n : Nat} {r : Word × Nat} (inside : t.Within n r.1 r.2) (some' : 0 < r.2) :
    t.outsideOwn n r = none := by
  obtain ⟨-, -, own, room⟩ := inside
  have below : ¬progEnd ≤ apOff r.1 := by rw [progEnd]; omega
  simp only [State.outsideOwn, own, bne_self_eq_false, decide_eq_false below, Bool.or_self, Bool.false_eq_true, if_false]
  exact if_neg (Nat.not_lt.2 room)

theorem State.outsideOwn_ne_none {t : State} {n : Nat} {r : Word × Nat} (window : InWindow0 r) (out : ¬t.Within n r.1 r.2) :
    t.outsideOwn n r ≠ none := by
  intro h
  unfold State.outsideOwn at h
  split at h
  · cases h
  next own =>
    split at h
    · cases h
    next room =>
      have own : apCore r.1 = t.cidOf n ∧ ¬progEnd ≤ apOff r.1 := by simpa using own
      exact out ⟨window.1, window.2.1, own.1, Nat.not_lt.1 room⟩

/-- A range in a slice's program part lies in window 0. -/
theorem State.Within.inWindow0 {t : State} {n : Nat} {w : Word} {bytes : Nat} (inside : t.Within n w bytes) : InWindow0 (w, bytes) := by
  obtain ⟨ap, win, -, room⟩ := inside
  refine ⟨ap, win, ?_⟩
  have low : apBase ≤ w.toNat := by
    simp only [inAperture, Bool.and_eq_true, decide_eq_true_eq] at ap
    exact ap.1
  simp only [apWin, apOff, apBase] at win room low ⊢
  omega

/-! ### `mdecl` -/

/-- The ranges that a declaration names (R237). -/
def Desc.ranges (e : Desc) : List (Word × Nat) :=
  [(e.elem, e.count * e.bytes), (e.mark, 4 * e.count), (e.skip, (e.strips + 63) / 64 * 8)]

/-- The addresses that a declaration names, each with the number of bytes at whose multiples it must lie (R237). -/
def Desc.alignments (e : Desc) : List (Word × Nat) := [(e.elem, 256), (e.mark, 256), (e.skip, 8), (e.table, 8)]

section
variable {t : State} {n : Nat} {i : Instr} {e : Desc}

theorem State.checkMdecl_count (bad : ¬(e.count ≠ 0 ∧ e.count ≤ 2 ^ 19)) : t.checkMdecl n i e = some (.at 0x02 0 i.word) := by
  refine if_pos ?_
  simp only [Bool.or_eq_true, decide_eq_true_eq]
  omega

section
variable (counted : e.count ≠ 0 ∧ e.count ≤ 2 ^ 19)
include counted

theorem Desc.count_within : (e.count = 0 || decide (2 ^ 19 < e.count) : Bool) = false := by
  rw [decide_eq_false counted.1, decide_eq_false (Nat.not_lt.2 counted.2)]
  rfl

theorem State.checkMdecl_misaligned {x : Word × Nat} (found : e.alignments.find? (fun x => x.1.toNat % x.2 != 0) = some x) :
    t.checkMdecl n i e = some (.at 0x01 0 x.1) := by
  rw [Desc.alignments] at found
  simp only [State.checkMdecl, Desc.count_within counted, Bool.false_eq_true, if_false, found]

section
variable (aligned : e.alignments.find? (fun x => x.1.toNat % x.2 != 0) = none)
include aligned

theorem State.checkMdecl_window {r : Word × Nat} (hr : r ∈ e.ranges) (out : ¬InWindow0 r) :
    ∃ w, t.checkMdecl n i e = some (.at 0x06 3 w) := by
  obtain ⟨w, lowest⟩ := lowestOf_isSome (filterMap_ne_nil hr (mt (outsideWindow0_eq_none_iff r).1 out))
  rw [Desc.alignments] at aligned
  rw [Desc.ranges] at lowest
  exact ⟨w, by simp only [State.checkMdecl, Desc.count_within counted, Bool.false_eq_true, if_false, aligned, lowest]⟩

section
variable (window : ∀ r ∈ e.ranges, InWindow0 r)
include window

theorem State.checkMdecl_own {r : Word × Nat} (hr : r ∈ e.ranges) (out : ¬t.Within n r.1 r.2) :
    ∃ w, t.checkMdecl n i e = some (.at 0x06 5 w) := by
  obtain ⟨w, lowest⟩ := lowestOf_isSome (filterMap_ne_nil hr (State.outsideOwn_ne_none (window r hr) out))
  have inside : lowestOf (e.ranges.filterMap outsideWindow0) = none :=
    congrArg lowestOf (filterMap_eq_nil_of_all fun r hr => (outsideWindow0_eq_none_iff r).2 (window r hr))
  rw [Desc.alignments] at aligned
  rw [Desc.ranges] at lowest inside
  simp only [State.checkMdecl, Desc.count_within counted, Bool.false_eq_true, if_false, aligned]
  generalize lowestOf (List.filterMap outsideWindow0 _) = first at inside ⊢
  generalize lowestOf (List.filterMap (t.outsideOwn n) _) = second at lowest ⊢
  subst inside lowest
  exact ⟨w, rfl⟩

end

theorem State.checkMdecl_passes (within : ∀ r ∈ e.ranges, t.Within n r.1 r.2) : t.checkMdecl n i e = none := by
  have long : ∀ r ∈ e.ranges, 0 < r.2 := by
    have size : 0 < e.bytes := Nat.mul_pos (by decide) (Nat.two_pow_pos _)
    have count := Nat.pos_of_ne_zero counted.1
    simp only [Desc.ranges, List.forall_mem_cons, List.not_mem_nil, false_implies, implies_true, and_true, Desc.strips]
    exact ⟨Nat.mul_pos count size, by omega, by omega⟩
  have inside : lowestOf (e.ranges.filterMap outsideWindow0) = none :=
    congrArg lowestOf (filterMap_eq_nil_of_all fun r hr => (outsideWindow0_eq_none_iff r).2 (within r hr).inWindow0)
  have own : lowestOf (e.ranges.filterMap (t.outsideOwn n)) = none :=
    congrArg lowestOf (filterMap_eq_nil_of_all fun r hr => State.outsideOwn_eq_none (within r hr) (long r hr))
  rw [Desc.alignments] at aligned
  rw [Desc.ranges] at inside own
  simp only [State.checkMdecl, Desc.count_within counted, Bool.false_eq_true, if_false, aligned]
  generalize lowestOf (List.filterMap outsideWindow0 _) = first at inside ⊢
  generalize lowestOf (List.filterMap (t.outsideOwn n) _) = second at own ⊢
  subst inside own
  rfl

end
end
end

/-- The addresses of a declaration are aligned exactly where none is found that is not (R237). -/
theorem Desc.find_misaligned_none {e : Desc} (aligned : e.elem.toNat % 256 = 0 ∧ e.mark.toNat % 256 = 0 ∧ e.skip.toNat % 8 = 0 ∧
    e.table.toNat % 8 = 0) : e.alignments.find? (fun x => x.1.toNat % x.2 != 0) = none := by
  simp only [Desc.alignments, List.find?_eq_none, List.forall_mem_cons, List.not_mem_nil, false_implies, implies_true, and_true,
    bne_iff_ne, not_not, ne_eq]
  exact aligned

/-- Of several misaligned addresses the first is found, in the order element, mark, skip, table (log entry 83). -/
theorem Desc.find_misaligned_some {e : Desc} (misaligned : ¬(e.elem.toNat % 256 = 0 ∧ e.mark.toNat % 256 = 0 ∧
    e.skip.toNat % 8 = 0 ∧ e.table.toNat % 8 = 0)) : ∃ x, e.alignments.find? (fun x => x.1.toNat % x.2 != 0) = some x ∧
      x.1 = if e.elem.toNat % 256 ≠ 0 then e.elem else if e.mark.toNat % 256 ≠ 0 then e.mark
        else if e.skip.toNat % 8 ≠ 0 then e.skip else e.table := by
  by_cases elem : e.elem.toNat % 256 = 0
  · by_cases mark : e.mark.toNat % 256 = 0
    · by_cases skip : e.skip.toNat % 8 = 0
      · have table : e.table.toNat % 8 ≠ 0 := fun table => misaligned ⟨elem, mark, skip, table⟩
        exact ⟨(e.table, 8), by simp [Desc.alignments, elem, mark, skip, table]⟩
      · exact ⟨(e.skip, 8), by simp [Desc.alignments, elem, mark, skip]⟩
    · exact ⟨(e.mark, 256), by simp [Desc.alignments, elem, mark]⟩
  · exact ⟨(e.elem, 256), by simp [Desc.alignments, elem]⟩

/-- The declaration that an `mdecl` makes (R236). -/
def State.declares (t : State) (a b : Reg) (c : MdeclCmd) : Desc :=
  ⟨t.reads a, t.reads b, c.skip, c.table, c.count.toNat, c.esize, c.states.toNat + 1, c.tag⟩

/-- An `mdecl` of a core ends with the first check that fails, is refused while the slot's sweep runs, and declares else. -/
theorem exec_mdecl {d a b : Reg} {c : MdeclCmd} {g : PReg} {s : State} (hs : s.performs (.mdecl d a b c g) = true) {t : State}
    (ht : s.before (.mdecl d a b c g) = t) {n : Nat} (own : t.cur.core? = some n) :
    exec (.mdecl d a b c g) s = .next (s.conclude (.mdecl d a b c g)
      (match t.checkMdecl n (.mdecl d a b c g) (t.declares a b c) with
      | some x => .trap x
      | none => if (t.core n).sweep.any (fun w => w.slot == c.slot.toNat) = true then .done t [.toX d.val (BitVec.allOnes 64)]
        else .done (t.modCore n fun k =>
            { k with slots := Map.set k.slots c.slot.toNat (t.declares a b c), dropped := Map.erase k.dropped c.slot.toNat })
          [.toX d.val (BitVec.ofNat 64 (t.cidOf n * 4 + c.slot.toNat))])) := by
  refine (issue_performs hs _).trans ?_
  simp only [ht, own]
  cases (t.core n).sweep <;> rfl

section
variable {t : State} {a b : Reg} {c : MdeclCmd} {n : Nat}

/-- The ranges of a declaration that lie in the program part of the own slice, one by one. -/
theorem State.declares_within (elem : t.Within n (t.reads a) (c.count.toNat * (4 * 2 ^ c.esize.toNat)))
    (mark : t.Within n (t.reads b) (4 * c.count.toNat))
    (skip : t.Within n c.skip (((c.count.toNat + 63) / 64 + 63) / 64 * 8)) :
    ∀ r ∈ (t.declares a b c).ranges, t.Within n r.1 r.2 := by
  simp only [Desc.ranges, List.forall_mem_cons, List.not_mem_nil, false_implies, implies_true, and_true]
  exact ⟨elem, mark, skip⟩

end

/-! ### `sweep` (R239) -/

theorem State.foldl_ask_cur (who : Agent) (ls : List Nat) (t : State) (cur : t.cur = who) :
    ls.foldl (fun s l => s.ask s.cur.core? l 8) t = ls.foldl (fun u l => u.ask who.core? l 8) t := by
  induction ls generalizing t with
  | nil => rfl
  | cons l ls ih =>
    rw [List.foldl_cons, List.foldl_cons, cur]
    exact ih _ ((State.ask_cur ..).trans cur)

theorem zipIdx_find?_eq_none {α : Type} {l : List α} {p : α × Nat → Bool} (h : ∀ x ∈ l, ∀ i, p (x, i) = false) :
    l.zipIdx.find? p = none :=
  List.find?_eq_none.2 fun e he => ne_true_of_eq_false (h e.1 (List.fst_mem_of_mem_zipIdx he) e.2)

section
variable {d a : Reg} {g : PReg} {n : Nat}

/-- A handle names a slot of the own core that holds a declaration (R239). -/
def State.HoldsHandle (t : State) (n : Nat) (h : Word) : Prop :=
  h.toNat / 4 = t.cidOf n ∧ (t.desc? n (h.toNat % 4)).isSome = true

theorem raises_sweep : Raises (.sweep d a g) (fun t => t.cur.core? = some n ∧ ¬t.HoldsHandle n (t.reads a))
    (fun t => ⟨0x06, 1, t.reads a, false⟩) :=
  raises_of (fun _ => rfl) fun t ⟨own, unheld⟩ => by
    have none' : (if (t.reads a).toNat / 4 = t.cidOf n then t.desc? n ((t.reads a).toNat % 4) else none) = none := by
      split
      next named => exact Option.not_isSome_iff_eq_none.1 fun held => unheld ⟨named, held⟩
      · rfl
    rw [State.reads] at none'
    simp only [own, none']
    rfl

theorem does_sweep_refused : Does (.sweep d a g) (fun t => t.cur.core? = some n ∧ t.HoldsHandle n (t.reads a) ∧
    (t.freeSlot n = none ∨ (t.core n).sweep.isSome = true)) id (fun _ => [.toX d.val (BitVec.allOnes 64)]) :=
  does_of (fun _ => rfl) fun t ⟨own, ⟨named, held⟩, refused⟩ => by
    obtain ⟨ds, declared⟩ := Option.isSome_iff_exists.1 held
    rw [State.reads] at named declared
    simp only [own, named, if_true, declared]
    cases free : t.freeSlot n with
    | none => rfl
    | some h =>
      have sweeps := refused.resolve_left (by rw [free]; nofun)
      simp only [sweeps, if_true]
      rfl

/-- The sweep that begins at a slot: it has visited nothing (R239). -/
def Sweep.begun (slot helper issuer : Nat) (table : List Word) : Sweep :=
  { slot := slot, helper := helper, issuer := issuer, table := table, next := 0, cur := none, elems := [], marks := [], steps := [],
    touched := 0, active := 0, stepped := 0, round := [], running := none, first := false, buffered := [], nStrips := 0,
    nStepped := 0, nFaulted := 0, ending := none }

theorem exec_sweep_begins {s : State} {h : Nat} {ls : List Nat} {ds : Desc} (hs : s.performs (.sweep d a g) = true) {t : State}
    (ht : s.before (.sweep d a g) = t) (own : t.cur.core? = some n) (named : (t.reads a).toNat / 4 = t.cidOf n)
    (declared : t.desc? n ((t.reads a).toNat % 4) = some ds) (free : t.freeSlot n = some h) (idle : (t.core n).sweep = none)
    (found : t.tableLocs t.cur ds.table ds.states = .ok ls)
    (clear : ∀ l ∈ ls, t.meetsError t.cur l 8 = false ∧ t.farWaits t.cur l = false)
    (aligned : ∀ e ∈ ls.map fun l => BitVec.ofNat 64 (t.loadNat t.cur l 8), e.toNat % 4 = 0) (place : t.placeFree n = true)
    (quiet : t.performed t.cur false = true) :
    exec (.sweep d a g) s = .next ((((ls.foldl (fun u l => u.ask t.cur.core? l 8) t).reserve n).modCore n fun k =>
      { k with sweep := some (Sweep.begun ((t.reads a).toNat % 4) h t.cur.tid
        ((ls.map fun l => BitVec.ofNat 64 (t.loadNat t.cur l 8)).map fun e => BitVec.ofNat 64 (e.toNat % 2 ^ 57))) }).modCtx t.cur
      fun x => { x with park := some (.sweep d a g) }) := by
  refine (issue_performs hs _).trans ?_
  have sound : ls.zipIdx.find? (fun e => t.meetsError t.cur e.1 8) = none := zipIdx_find?_eq_none fun l hl _ => (clear l hl).1
  have entries : (ls.map fun l => BitVec.ofNat 64 (t.loadNat t.cur l 8)).zipIdx.find? (fun e => e.1.toNat % 4 != 0) = none :=
    zipIdx_find?_eq_none fun e he _ => by simp only [aligned e he, bne_self_eq_false]
  have near' : ls.any (t.farWaits t.cur) = false := List.any_eq_false.2 fun l hl => ne_true_of_eq_false (clear l hl).2
  have cur : (ls.foldl (fun u l => u.ask t.cur.core? l 8) t).cur = t.cur := foldl_cur (fun _ _ => State.ask_cur ..) _ _
  have asks := State.foldl_ask_cur t.cur ls t rfl
  rw [State.reads] at named declared
  simp only [ht, own, named, if_true, declared, free, idle, Option.isSome_none, Bool.false_eq_true, if_false, found, Or.then, sound,
    entries, place, quiet, near', Bool.not_true, Bool.or_self]
  rw [own] at cur asks
  simp only [asks, cur]
  rfl

end

/-- The engine of a core begins in its helper, and the `sweep` that waits for it completes with the helper's number (R239, R240). -/
theorem exec_sweepStart {s : State} {n : Nat} {w : Sweep} {xd xa : Reg} {g : PReg} (sweeps : (s.core n).sweep = some w)
    (waits : s.sweepBegun n w = false) (goes : w.ending = none) (moving : s.moving (ctxOf n w.helper) = true)
    (other : w.helper ≠ w.issuer) (parked : (s.ctx (ctxOf n w.issuer)).park = some (.sweep xd xa g)) :
    exec (.sweepStart n) s = .next ((s.startHelper n w.helper 0 0 (s.ctx (ctxOf n w.issuer)).deleg .sweep).completeParked
      (ctxOf n w.issuer) (.sweep xd xa g) [.toX xd.val (BitVec.ofNat 64 w.helper)]) := by
  have apart : ctxOf n w.helper ≠ ctxOf n w.issuer := fun h => other (Agent.ctx.inj h).2.2
  have still : ((s.startHelper n w.helper 0 0 (s.ctx (ctxOf n w.issuer)).deleg .sweep).ctx (ctxOf n w.issuer)).park =
      some (.sweep xd xa g) := by
    rw [State.startHelper, State.ctx_modCore, State.ctx_setCtx_ne _ _ apart, parked]
  show execSweepStart n s = _
  simp only [execSweepStart, sweeps, waits, goes, moving, Option.isSome_none, Bool.not_true, Bool.or_self, Bool.false_eq_true, if_false,
    State.sweepIssued, still]

/-- Settles O28: `mdecl` by its checks in their order, `sweep` by its handle, its table and its helper. -/
theorem screedForms : Obligations.ScreedForms := by
  refine ⟨fun d a b c g n => ⟨?_, ?_, ?_, ?_, ?_⟩, fun d a g n => ⟨raises_sweep, does_sweep_refused,
    fun s h ls ds hs own held declared free idle found clear aligned place quiet =>
      ?_⟩, fun d a g s n w sweeps goes waits moving other parked =>
      exec_sweepStart sweeps (beq_eq_false_iff_ne.2 waits) goes moving other parked⟩
  · rintro s hs ⟨own, uncounted⟩
    rw [exec_mdecl hs rfl own, State.checkMdecl_count uncounted]
    rfl
  · rintro s hs ⟨own, counted, misaligned⟩
    obtain ⟨x, found, first⟩ := Desc.find_misaligned_some (e := (s.before (.mdecl d a b c g)).declares a b c) misaligned
    rw [exec_mdecl hs rfl own, State.checkMdecl_misaligned counted found, first]
    rfl
  · intro s hs _ _ own counted aligned _
    have none := Desc.find_misaligned_none (e := (s.before (.mdecl d a b c g)).declares a b c) aligned
    refine ⟨fun ⟨r, hr, out⟩ => ?_, fun window ⟨r, hr, out⟩ => ?_⟩
    · obtain ⟨w, check⟩ := State.checkMdecl_window (t := s.before (.mdecl d a b c g)) (n := n) (i := .mdecl d a b c g)
        (e := (s.before (.mdecl d a b c g)).declares a b c) counted none hr out
      exact ⟨w, by rw [exec_mdecl hs rfl own, check]; rfl⟩
    · obtain ⟨w, check⟩ := State.checkMdecl_own (t := s.before (.mdecl d a b c g)) (n := n) (i := .mdecl d a b c g)
        (e := (s.before (.mdecl d a b c g)).declares a b c) counted none window hr out
      exact ⟨w, by rw [exec_mdecl hs rfl own, check]; rfl⟩
  · rintro s hs ⟨own, counted, aligned, elem, mark, skip, idle⟩
    rw [exec_mdecl hs rfl own, State.checkMdecl_passes counted (Desc.find_misaligned_none aligned)
      (State.declares_within elem mark skip), if_neg (ne_true_of_eq_false idle)]
    rfl
  · rintro s hs ⟨own, counted, aligned, elem, mark, skip, busy⟩
    rw [exec_mdecl hs rfl own, State.checkMdecl_passes counted (Desc.find_misaligned_none aligned)
      (State.declares_within elem mark skip), if_pos busy]
    rfl
  · refine ⟨Sweep.begun _ h s.cur.tid _, ?_, rfl, rfl, rfl, rfl, rfl, rfl, rfl, rfl, rfl, rfl, rfl⟩
    rw [exec_sweep_begins hs rfl own held.1 declared free idle found clear aligned place quiet, State.before_cur]

end Sys2Proof.Machine
end

section
/-! # Forms of a screed routine, wakes and skip commands (R234, R243, R244, R246, R248) -/

namespace Sys2Proof.Machine

open Sys2Proof

/-! ### Marks (R233, R234) -/

/-- The fields of a mark lie apart. -/
theorem mark_fields (operand kind status st : Nat) : let m := mark operand kind status st
    m.toNat / 2 ^ 0 % 2 ^ 6 = st % 64 ∧ m.toNat / 2 ^ 6 % 2 ^ 2 = status % 4 ∧ m.toNat / 2 ^ 8 % 2 ^ 2 = kind % 4 ∧
      m.toNat / 2 ^ 10 % 2 ^ 22 = operand % 2 ^ 22 := by
  simp only [mark, at', BitVec.toNat_ofNat]
  omega

theorem mark_mod_state (operand kind status st : Nat) : mark operand kind status (st % 64) = mark operand kind status st := by
  rw [mark, Nat.mod_mod, mark]

theorem mark_mod_operand (operand kind status st : Nat) :
    mark (operand % 2 ^ 22) kind status st = mark operand kind status st := by
  rw [mark, Nat.mod_mod, mark]

theorem markState_eq (m : W32) : markState m = m.toNat / 2 ^ 0 % 2 ^ 6 := by
  rw [markState, pow_zero, Nat.div_one]
  rfl

theorem markStatus_eq (m : W32) : markStatus m = m.toNat / 2 ^ 6 % 2 ^ 2 := rfl

/-! ### Step forms (R243, R244) -/

/-- The mark of a lane as a routine's engine holds it. -/
def State.markOf (t : State) (l : Nat) : W32 :=
  (((t.cur.core?.bind fun n => (t.core n).sweep).map fun w => w.marks.getD l 0).getD 0)

/-- The outcomes of a step form are recorded, one for each lane of its effective guard. -/
def State.stepped (i : Instr) (f : State → Nat → W32 → Bool × W32) (t : State) : State :=
  t.modArch t.cur fun r => { r with outs := r.outs ++
    ((List.range 64).filter fun l => (t.guardMask t.cur i).getLsbD l).map fun l => (l, f t l (t.markOf l)) }

/-- What a step form does: it goes on where lanes are unfinished, and else closes the chunk. -/
theorem doStep_eq (i : Instr) (f : State → Nat → W32 → Bool × W32) (t : State) :
    doStep i (f t) t = if (t.stepped i f).stepMask t.cur ≠ 0 then .done (t.stepped i f) []
      else if t.canClose t.cur = false then .wait (t.stall t.cur) else .done ((t.stepped i f).close t.cur) [] := by
  simp only [doStep, lanesIn, State.stepped, State.markOf, bne_iff_ne, Bool.not_eq_true']
  obtain none' | ⟨n, core⟩ := Option.eq_none_or_eq_some t.cur.core?
  · simp only [none', Option.bind_none, Option.map_none, Option.getD_none, List.getD_nil]
  · obtain none' | ⟨w, sweep⟩ := Option.eq_none_or_eq_some (t.core n).sweep
    · simp only [core, Option.bind_some, none', Option.map_none, Option.getD_none, List.getD_nil]
    · simp only [core, Option.bind_some, sweep, Option.map_some, Option.getD_some]

/-- A step form in terms of what it records for a lane. -/
theorem does_step {i : Instr} {body : State → Res} (means : ∀ s, exec i s = issue i s body)
    {f : State → Nat → W32 → Bool × W32} (steps : ∀ t, body t = doStep i (f t) t) :
    Does i (fun t => (t.stepped i f).stepMask t.cur ≠ 0) (State.stepped i f) ∧
    Does i (fun t => (t.stepped i f).stepMask t.cur = 0 ∧ t.canClose t.cur = true) (fun t => (t.stepped i f).close t.cur) :=
  ⟨does_of means fun t more => by rw [steps, doStep_eq, if_pos more],
   does_of means fun t ⟨empty, closes⟩ => by
    rw [steps, doStep_eq, if_neg (not_not.2 empty), if_neg (by rw [closes]; decide)]⟩

/-! ### Commands to an engine (R246, R248) -/

section
variable {i : Instr} {a : Reg} {cs : State → List ScreedCmd}

/-- A form that sends commands to the engine of a handle. -/
def SendsScreed (i : Instr) (a : Reg) (cs : State → List ScreedCmd) : Prop :=
  ∀ s, exec i s = issue i s fun t => match t.handleOf t.cur (t.reads a) with
    | none => .trap (.at 0x06 1 (t.reads a))
    | some target => t.sendScreed target (cs t)

/-- Whether commands to a core's engine are those of a sweep helper to its own engine. -/
def State.ownEngine (t : State) (core : Nat) : Bool :=
  t.cur.core?.any fun n => (t.ctx t.cur).origin == .sweep && t.cidOf n == core

theorem State.sendScreed_of_performed {t : State} {core slot : Nat} {cs : List ScreedCmd} (quiet : t.performed t.cur false = true) :
    t.sendScreed (core, slot) cs =
      if t.ownEngine core = true then
        if cs.any (t.screedWaits (t.cur.core?.getD 0) slot) = true then .wait (t.stall t.cur)
        else .done (cs.foldl (fun u c => u.receiveScreed (t.cur.core?.getD 0) slot c) t) []
      else .done { t with fabric := t.fabric ++ cs.map fun c =>
        ⟨t.cur, .screed core slot ((t.cur.course?.map t.ownerRid).getD 0) c⟩ } [] := by
  simp only [State.sendScreed, quiet, Bool.not_true, Bool.false_eq_true, if_false, State.ownEngine, State.inRoutine]
  obtain ⟨a, cur⟩ : ∃ a, t.cur = a := ⟨_, rfl⟩
  cases a with
  | ctx c k u => simp only [cur, Agent.core?, Agent.course?, Option.any_some, Option.map_some, Option.getD_some]
  | quoin c => simp only [cur, Agent.core?, Agent.course?, Option.any_none, Option.map_some, Option.getD_some]
  | plinth => simp only [cur, Agent.core?, Agent.course?, Option.any_none, Option.map_none, Option.getD_none]

theorem SendsScreed.raises (h : SendsScreed i a cs) :
    Raises i (fun t => t.handleOf t.cur (t.reads a) = none) (fun t => ⟨0x06, 1, t.reads a, false⟩) :=
  raises_of h fun t unnamed => by simp only [unnamed]; rfl

/-- Commands to another engine travel as requests. -/
theorem SendsScreed.sends (h : SendsScreed i a cs) (core slot : Nat) :
    Does i (fun t => t.handleOf t.cur (t.reads a) = some (core, slot) ∧ t.ownEngine core = false ∧ t.performed t.cur false = true)
      (fun t => { t with fabric := t.fabric ++ (cs t).map fun c =>
        ⟨t.cur, .screed core slot ((t.cur.course?.map t.ownerRid).getD 0) c⟩ }) :=
  does_of h fun t ⟨target, other, quiet⟩ => by
    simp only [target, State.sendScreed_of_performed quiet, other, Bool.false_eq_true, if_false]

/-- Commands of a sweep helper to its own engine are applied at once. -/
theorem SendsScreed.applies (h : SendsScreed i a cs) (core slot n : Nat) :
    Does i (fun t => t.handleOf t.cur (t.reads a) = some (core, slot) ∧ t.ownEngine core = true ∧ t.cur.core? = some n ∧
        t.performed t.cur false = true ∧ (cs t).any (t.screedWaits n slot) = false)
      (fun t => (cs t).foldl (fun u c => u.receiveScreed n slot c) t) :=
  does_of h fun t ⟨target, mine, own, quiet, free⟩ => by
    simp only [target, State.sendScreed_of_performed quiet, mine, own, Option.getD_some, free, Bool.false_eq_true, if_false, if_true]

end

/-- Settles O29: the step forms by `does_step` with the marks that they leave, the commands by `SendsScreed`. -/
theorem routineForms : Obligations.RoutineForms := by
  refine ⟨⟨mark, fun operand kind status st => mark_fields operand kind status st, fun g b st => ⟨?_, ?_, ?_, ?_, ?_, ?_⟩⟩,
    fun a b g set => ⟨?_, ?_, ?_⟩⟩
  · refine does_step (f := fun _ _ m => (false, mark 0 0 (m.toNat / 2 ^ 6 % 2 ^ 2) st.toNat)) (fun _ => rfl) fun t => ?_
    simp only [markStatus_eq]
  · refine does_step (f := fun t l m => (false, mark 0 0 (m.toNat / 2 ^ 6 % 2 ^ 2) (lane ((t.ctx t.cur).v b.val) l).toNat))
      (fun _ => rfl) fun t => ?_
    simp only [mark_mod_state, markStatus_eq]
  · refine does_step (f := fun _ _ m => (true, mark 0 0 0 (m.toNat / 2 ^ 0 % 2 ^ 6))) (fun _ => rfl) fun t => ?_
    simp only [waitMark, markState_eq]
  · refine does_step (f := fun t l m => (true, mark (lane ((t.ctx t.cur).v b.val) l).toNat 1 0 (m.toNat / 2 ^ 0 % 2 ^ 6)))
      (fun _ => rfl) fun t => ?_
    simp only [waitMark, markState_eq, mark_mod_operand]
  · refine does_step (f := fun t l m => (true, mark (lane ((t.ctx t.cur).v b.val) l).toNat 2 1 (m.toNat / 2 ^ 0 % 2 ^ 6)))
      (fun _ => rfl) fun t => ?_
    simp only [waitMark, markState_eq, mark_mod_operand]
  · refine does_step (f := fun _ _ m => (true, mark 0 3 2 (m.toNat / 2 ^ 0 % 2 ^ 6))) (fun _ => rfl) fun t => ?_
    simp only [waitMark, markState_eq]
  · have sends : SendsScreed (.swake a (.x b) g) a fun t => [.wake (t.reads b).toNat] := fun _ => rfl
    exact ⟨sends.raises, fun core slot => ⟨sends.sends core slot, sends.applies core slot⟩⟩
  · have sends : SendsScreed (.swake a (.v b) g) a fun t =>
        ((List.range 64).filter fun l => (t.guardMask t.cur (.swake a (.v b) g)).getLsbD l).map
          fun l => .wake (lane ((t.ctx t.cur).v b.val) l).toNat := fun _ => rfl
    exact ⟨sends.raises, fun core slot => ⟨sends.sends core slot, sends.applies core slot⟩⟩
  · have sends : SendsScreed (.skipset set a b g) a fun t => [.skip (t.reads b).toNat set] := fun _ => rfl
    exact ⟨sends.raises, fun core slot => ⟨sends.sends core slot, sends.applies core slot⟩⟩

end Sys2Proof.Machine
end

section
/-! # The steps of a sweep, and commands at its engine (R238 to R240, R242, R245 to R250) -/

namespace Sys2Proof.Machine

open Sys2Proof

/-! ### Registers that the engine writes (R240) -/

section
variable (c : Ctx)

/-- An x register that is not x24 to x27 is never in stream mode (R271). -/
theorem Ctx.bound?_x_of_low {r : Nat} (h : r < 24) : c.bound? .x r = none := by
  have number : streamNo .x r = none := if_neg (by simp; omega)
  rw [Ctx.bound?, number]

theorem Ctx.bound?_v_of_low {r : Nat} (h : r < 24) : c.bound? .v r = none := by
  have number : streamNo .v r = none := if_neg (by simp; omega)
  rw [Ctx.bound?, number]

theorem Ctx.x_of_low {r : Nat} (pos : r ≠ 0) (h : r < 24) : c.x r = if c.isLive r then Map.get 0 c.arch.xs r else 0 := by
  rw [Ctx.x, if_neg pos, c.bound?_x_of_low h]

theorem Ctx.v_of_low {r : Nat} (h : r < 24) : c.v r = c.vRaw r := by
  rw [Ctx.v, c.bound?_v_of_low h]
  rfl

/-- A write of an x register is read back, where the register has no stream mode. -/
theorem Ctx.x_setX_self {r : Nat} (pos : r ≠ 0) (h : r < 24) (v : Word) : (c.setX r v).x r = v := by
  rw [Ctx.x_of_low _ pos h, Ctx.setX, if_neg pos]
  have live : (c.arch.live ||| 1#64 <<< r).getLsbD r = true := by rw [getLsbD_or_bit _ _ (by omega)]; simp
  simp only [Ctx.isLive, live, if_true, Map.get_set_self]

/-- A write of an x register leaves what every other register reads. -/
theorem Ctx.x_setX_ne {r k : Nat} (ne : k ≠ r) (hk : k < 64) (v : Word) : (c.setX r v).x k = c.x k := by
  unfold Ctx.setX
  split
  · rfl
  · have live : (c.arch.live ||| 1#64 <<< r).getLsbD k = c.arch.live.getLsbD k := by
      rw [getLsbD_or_bit _ _ hk, beq_eq_false_iff_ne.2 ne, Bool.or_false]
    simp only [Ctx.x, Ctx.isLive, live, Map.get_set_ne _ _ v ne.symm]
    rfl

theorem Ctx.v_setX {r k : Nat} (ne : 32 + k ≠ r) (hk : k < 32) (v : Word) : (c.setX r v).v k = c.v k := by
  unfold Ctx.setX
  split
  · rfl
  · have live : (c.arch.live ||| 1#64 <<< r).getLsbD (32 + k) = c.arch.live.getLsbD (32 + k) := by
      rw [getLsbD_or_bit _ _ (by omega), beq_eq_false_iff_ne.2 ne, Bool.or_false]
    simp only [Ctx.v, Ctx.isLive, live]
    rfl

theorem Ctx.x_setV {r k : Nat} (ne : k ≠ 32 + r) (hk : k < 64) (m : Word) (l : Lanes) : (c.setV r m l).x k = c.x k := by
  have live : (c.arch.live ||| 1#64 <<< (32 + r)).getLsbD k = c.arch.live.getLsbD k := by
    rw [getLsbD_or_bit _ _ hk, beq_eq_false_iff_ne.2 ne, Bool.or_false]
  simp only [Ctx.x, Ctx.isLive, Ctx.setV, live]
  rfl

theorem Ctx.v_setV_ne {r k : Nat} (ne : k ≠ r) (hk : k < 32) (m : Word) (l : Lanes) : (c.setV r m l).v k = c.v k := by
  have live : (c.arch.live ||| 1#64 <<< (32 + r)).getLsbD (32 + k) = c.arch.live.getLsbD (32 + k) := by
    rw [getLsbD_or_bit _ _ (by omega), beq_eq_false_iff_ne.2 (by omega), Bool.or_false]
  simp only [Ctx.v, Ctx.isLive, Ctx.setV, live, Map.get_set_ne _ _ _ ne.symm]
  rfl

/-- The lanes that a mask names are read back, the others keep their values, where the register has no stream mode. -/
theorem Ctx.lane_v_setV_self {r i : Nat} (h : r < 24) (hi : i < 64) (m : Word) (l : Lanes) :
    lane ((c.setV r m l).v r) i = if m.getLsbD i then lane l i else lane (c.v r) i := by
  have live : (c.arch.live ||| 1#64 <<< (32 + r)).getLsbD (32 + r) = true := by rw [getLsbD_or_bit _ _ (by omega)]; simp
  rw [Ctx.v_of_low _ h, c.v_of_low h, Ctx.vRaw]
  simp only [Ctx.isLive, Ctx.setV, live, if_true, Map.get_set_self, mergeLanes, lane_lanesOf _ hi]

end

/-! ### The engine's steps (R239, R242, R245, R249) -/

section
variable {s : State} {n : Nat} {w : Sweep} {d : Desc} (sweeps : (s.core n).sweep = some w) (declared : s.desc? n w.slot = some d)
include sweeps declared

/-- A strip whose skip bit is clear is passed over, one whose bit is set is read (R242). -/
theorem exec_sweepDispatch_strip (acts : s.sweepActs n w = true) (none' : w.cur = none) (more : w.next < d.strips)
    (clean : s.poisoned (d.skipLoc n w.next) 1 = false) :
    exec (.sweepDispatch n) s = .next (if (s.homeByte (d.skipLoc n w.next)).getLsbD (w.next % 8) then
      s.setSweep n { s.openStrip n w d w.next with next := w.next + 1 } else s.setSweep n { w with next := w.next + 1 }) := by
  show execSweepDispatch n s = _
  simp only [execSweepDispatch, sweeps, declared, acts, none', Nat.not_le.2 more, clean, Bool.not_true, Bool.false_eq_true, if_false]

/-- The sweep of an open strip with no routine running, a round begun where none is left. -/
theorem exec_sweepDispatch_next {k : Nat} {r : Nat × Word} {rest : List (Nat × Word)} (acts : s.sweepActs n w = true)
    (opened : w.cur = some k) (idle : w.running = none) {w' : Sweep} (begins : w' = if w.round = [] then w.beginRound d.states else w)
    (round : w'.round = r :: rest) :
    exec (.sweepDispatch n) s = .next ((s.dispatch n w' d r).setSweep n { w' with round := rest, running := some r }) := by
  subst begins
  show execSweepDispatch n s = _
  simp only [execSweepDispatch, sweeps, declared, acts, opened, idle, List.isEmpty_iff, Option.isSome_none, Bool.false_and, Bool.not_true,
    Bool.false_eq_true, if_false, round]

theorem exec_sweepDispatch_roundless {k : Nat} (acts : s.sweepActs n w = true) (opened : w.cur = some k) (idle : w.running = none)
    {w' : Sweep} (begins : w' = if w.round = [] then w.beginRound d.states else w) (round : w'.round = []) :
    exec (.sweepDispatch n) s = .next (s.setSweep n w') := by
  subst begins
  show execSweepDispatch n s = _
  simp only [execSweepDispatch, sweeps, declared, acts, opened, idle, List.isEmpty_iff, Option.isSome_none, Bool.false_and, Bool.not_true,
    Bool.false_eq_true, if_false, round]

theorem exec_sweepStripWriteback {k : Nat} (acts : s.sweepActs n w = true) (opened : w.cur = some k) (idle : w.running = none)
    (ended : w.round = []) (quiet : w.active = 0) (clear : s.stripShut n d k = false) :
    exec (.sweepStripWriteback n) s = .next (s.writeStrip n w d k) := by
  show execSweepStripWriteback n s = _
  simp only [execSweepStripWriteback, sweeps, declared, acts, opened, idle, ended, quiet, clear, Option.isSome_none, List.isEmpty_nil,
    BEq.rfl, Bool.not_true, Bool.not_false, Bool.false_and, Bool.or_self, Bool.and_self, Bool.false_eq_true, if_false, if_true]

/-- A sweep that is over frees its helper and posts its completion, with the status of its end (R249). -/
theorem exec_sweepCompletion (begun : s.sweepBegun n w = true) (moving : s.moving (ctxOf n w.helper) = true)
    (ended : (w.ending.isSome || (s.sweepActs n w && (w.cur.isNone && decide (d.strips ≤ w.next)))) = true) :
    exec (.sweepCompletion n) s = .next (((s.retireCtx (ctxOf n w.helper)).modCore n fun k =>
      { k with sweep := none, dropped := Map.erase k.dropped w.slot }).complete n w.issuer d.tag
        (w.payload (w.ending.getD 0) (Map.get 0 (s.core n).dropped w.slot))) := by
  show execSweepCompletion n s = _
  simp only [execSweepCompletion, sweeps, declared, begun, moving, ended, Bool.not_true, Bool.or_self, Bool.false_eq_true, if_false,
    if_true]

end

/-- The fields of a completion's payload lie apart (R249). -/
theorem Sweep.fld_payload (w : Sweep) {st dr : Nat} (hst : st < 16) (hdr : dr < 256) :
    fld (w.payload st dr) 48 16 = Nat.min w.nFaulted 0xFFFF ∧ fld (w.payload st dr) 28 20 = w.nStepped % 2 ^ 20 ∧
      fld (w.payload st dr) 24 4 = st ∧ fld (w.payload st dr) 16 8 = dr ∧ fld (w.payload st dr) 0 16 = w.nStrips % 2 ^ 16 := by
  have faulted : Nat.min w.nFaulted 0xFFFF ≤ 0xFFFF := Nat.min_le_right ..
  simp only [fld, Sweep.payload, at', BitVec.toNat_ofNat]
  generalize Nat.min w.nFaulted 0xFFFF = f at faulted ⊢
  omega

/-! ### The registers of a dispatch (R240) -/

/-- A helper's registers as the engine leaves them at a dispatch of a strip that is not at its first. -/
def Ctx.dispatched (c : Ctx) (core : Word) (w : Sweep) (d : Desc) (r : Nat × Word) : Ctx :=
  ((((c.setV 8 (maskOf fun i => decide (i < d.lanes (w.cur.getD 0))) (lanesOf fun i => w.marks.getD i 0)).setX 1
    (BitVec.ofNat 64 (w.cur.getD 0))).setX 2 core).setX 3 r.2).setX 4 (BitVec.ofNat 64 r.1)

section
variable (c : Ctx) (core : Word) (w : Sweep) (d : Desc) (r : Nat × Word)

theorem Ctx.x_dispatched_arg {x : Nat} (hx : x ∈ [1, 2, 3, 4]) : (c.dispatched core w d r).x x =
    [BitVec.ofNat 64 (w.cur.getD 0), core, r.2, BitVec.ofNat 64 r.1].getD (x - 1) 0 := by
  simp only [List.mem_cons, List.not_mem_nil, or_false] at hx
  rcases hx with rfl | rfl | rfl | rfl
  · simp [Ctx.dispatched, Ctx.x_setX_ne, Ctx.x_setX_self]
  · simp [Ctx.dispatched, Ctx.x_setX_ne, Ctx.x_setX_self]
  · simp [Ctx.dispatched, Ctx.x_setX_ne, Ctx.x_setX_self]
  · simp [Ctx.dispatched, Ctx.x_setX_self]

theorem Ctx.x_dispatched {x : Nat} (low : 4 < x) (high : x < 32) : (c.dispatched core w d r).x x = c.x x := by
  rw [Ctx.dispatched, Ctx.x_setX_ne _ (by omega) (by omega), Ctx.x_setX_ne _ (by omega) (by omega),
    Ctx.x_setX_ne _ (by omega) (by omega), Ctx.x_setX_ne _ (by omega) (by omega), Ctx.x_setV _ (by omega) (by omega)]

theorem Ctx.v_dispatched {v : Nat} (ne : v ≠ 8) (high : v < 32) : (c.dispatched core w d r).v v = c.v v := by
  rw [Ctx.dispatched, Ctx.v_setX _ (by omega) high, Ctx.v_setX _ (by omega) high, Ctx.v_setX _ (by omega) high,
    Ctx.v_setX _ (by omega) high, Ctx.v_setV_ne _ ne high]

theorem Ctx.lane_dispatched {i : Nat} (hi : i < 64) : lane ((c.dispatched core w d r).v 8) i =
    if i < d.lanes (w.cur.getD 0) then w.marks.getD i 0 else lane (c.v 8) i := by
  rw [Ctx.dispatched, Ctx.v_setX _ (by omega) (by omega), Ctx.v_setX _ (by omega) (by omega), Ctx.v_setX _ (by omega) (by omega),
    Ctx.v_setX _ (by omega) (by omega), Ctx.lane_v_setV_self _ (by omega) hi, getLsbD_maskOf _ hi, lane_lanesOf _ hi]
  simp only [decide_eq_true_eq]

theorem Ctx.dispatched_ps : (c.dispatched core w d r).arch.ps = c.arch.ps := by
  simp [Ctx.dispatched, Ctx.setX, Ctx.setV]

end

/-- A helper whose next instruction is the first of a routine. -/
def Ctx.aimed (c : Ctx) (pc : Word) : Ctx := { c with stalled := false, ahead := [], arch := { c.arch with pc := pc, outs := [] } }

theorem Ctx.x_aimed (c : Ctx) (pc : Word) (x : Nat) : (c.aimed pc).x x = c.x x := rfl
theorem Ctx.v_aimed (c : Ctx) (pc : Word) (v : Nat) : (c.aimed pc).v v = c.v v := rfl

/-- The helper after a dispatch: its registers, and its program counter at the routine. -/
theorem State.ctx_dispatch (s : State) (n : Nat) {w : Sweep} (d : Desc) (r : Nat × Word) (later : w.first = false) :
    (s.dispatch n w d r).ctx (ctxOf n w.helper) =
      ((s.ctx (ctxOf n w.helper)).dispatched (BitVec.ofNat 64 (s.cidOf n * 4 + w.slot)) w d r).aimed (w.table.getD r.1 0) := by
  simp only [State.dispatch, later, State.ctx_modCtx_self, Bool.false_eq_true, if_false, Ctx.dispatched, Ctx.aimed]

/-! ### Commands at an engine (R246 to R248) -/

/-- The oldest command of its context is taken at a core that runs and does not let it wait (R246, R248). -/
theorem State.screedArrive_first {s : State} {p q : List Req} {a : Agent} {cid slot n : Nat} {rid : BitVec 16} {c : ScreedCmd}
    {r : Region} {is : ScreedCmd → Bool} (kind : is c = true) (queue : s.fabric = p ++ ⟨a, .screed cid slot rid c⟩ :: q)
    (behind : s.behindPort p.length = false) (first : p.all (fun r => r.src != a) = true) (region : s.region? rid = some r)
    (runs : r.run = .running) (core : r.coreOf cid = some n) (gated : s.gatedFrom a n = false)
    (waits : s.screedWaits n slot c = false) :
    s.screedArrive p.length is = ({ s with fabric := p ++ q } : State).receiveScreed n slot c := by
  have alone : (p.any fun r => r.src == a && match r.op with | .screed .. => true | _ => false) = false :=
    List.any_eq_false.2 fun e he => by
      have other := List.all_eq_true.1 first e he
      rw [bne_iff_ne] at other
      rw [beq_eq_false_iff_ne.2 other, Bool.false_and]
      decide
  simp only [State.screedArrive, queue, getElem?_append_cons, dropAt_append_cons, List.take_left, kind, behind, region, core, runs, gated,
    waits, Bool.not_true, Bool.false_or, Bool.or_self, bne_self_eq_false, Bool.false_eq_true, if_false]
  exact if_neg (ne_true_of_eq_false alone)

theorem State.receiveScreed_empty {s : State} {n slot : Nat} (c : ScreedCmd) (empty : s.desc? n slot = none) :
    s.receiveScreed n slot c = s.dropWake n slot := by
  rw [State.receiveScreed, empty]

section
variable {s : State} {n slot : Nat} {d : Desc} {c : ScreedCmd} (declared : s.desc? n slot = some d)
include declared

theorem State.receiveScreed_outside (out : c.outside d = true) : s.receiveScreed n slot c = s.dropWake n slot := by
  rw [State.receiveScreed, declared]
  exact if_pos out

theorem State.receiveScreed_open {w : Sweep} (inside : c.outside d = false) (sweeps : (s.core n).sweep = some w)
    (opens : w.opens slot c.strip = true) : s.receiveScreed n slot c =
      s.modCore n fun k => { k with sweep := some { w with buffered := w.buffered ++ [c] } } := by
  rw [State.receiveScreed, declared]
  simp only [inside, sweeps, opens, Bool.false_eq_true, if_false, if_true]

theorem State.receiveScreed_applied (inside : c.outside d = false)
    (shut : ∀ w, (s.core n).sweep = some w → w.opens slot c.strip = false) : s.receiveScreed n slot c = s.applyScreed n d c := by
  rw [State.receiveScreed, declared]
  simp only [inside, Bool.false_eq_true, if_false]
  split
  next w sweeps => exact if_neg (ne_true_of_eq_false (shut w sweeps))
  next => rfl

end

theorem Sweep.opens_iff {w : Sweep} {slot k : Nat} : w.opens slot k = true ↔ w.slot = slot ∧ w.cur = some k := by
  rw [Sweep.opens, Bool.and_eq_true, beq_iff_eq, beq_iff_eq]

/-- What becomes of a command at an engine, by where its target lies (R246 to R248). -/
theorem State.receiveScreed_cases {s : State} {n slot : Nat} {d : Desc} {c : ScreedCmd} (declared : s.desc? n slot = some d)
    {out : Prop} (outside : c.outside d = true ↔ out) {k : Nat} (strip : c.strip = k) :
    (out → s.receiveScreed n slot c = s.dropWake n slot) ∧
    (∀ w, ¬out → (s.core n).sweep = some w → w.slot = slot ∧ w.cur = some k → s.receiveScreed n slot c =
      s.modCore n fun k => { k with sweep := some { w with buffered := w.buffered ++ [c] } }) ∧
    (¬out → (∀ w, (s.core n).sweep = some w → ¬(w.slot = slot ∧ w.cur = some k)) →
      s.receiveScreed n slot c = s.applyScreed n d c) := by
  subst strip
  have within (h : ¬out) : c.outside d = false := Bool.eq_false_iff.2 fun o => h (outside.1 o)
  exact ⟨fun h => State.receiveScreed_outside declared (outside.2 h),
    fun w inside sweeps opens => State.receiveScreed_open declared (within inside) sweeps (Sweep.opens_iff.2 opens),
    fun inside shut => State.receiveScreed_applied declared (within inside) fun w sweeps =>
      Bool.eq_false_iff.2 fun h => shut w sweeps (Sweep.opens_iff.1 h)⟩

theorem State.dropped_dropWake (s : State) (n slot : Nat) :
    Map.get 0 ((s.dropWake n slot).core n).dropped slot = Nat.min (Map.get 0 (s.core n).dropped slot + 1) 255 := by
  rw [State.dropWake, State.core_modCore_self, Map.get_set_self]

/-- The mark of a wake: kind and operand 0, to run, and its state as it was. -/
theorem toNat_mark_woken (m : W32) : (mark 0 0 0 (markState m)).toNat = m.toNat % 64 := by
  rw [markState]
  simp only [mark, at', BitVec.toNat_ofNat]
  omega

theorem State.applyScreed_wake (s : State) (n : Nat) (d : Desc) (j : Nat) {m : W32}
    (own : m = BitVec.ofNat 32 (bytesNat (s.homeBytes (d.markLoc n j) 4))) : s.applyScreed n d (.wake j) =
      if markStatus m = 1 then (s.screedPut n (d.markLoc n j) (natBytes 4 (m.toNat % 64))).setSkip n d (j / 64) true
      else s.setSkip n d (j / 64) true := by
  subst own
  rw [State.applyScreed, State.applyWake, toNat_mark_woken]
  exact apply_ite (State.setSkip · n d (j / 64) true) ..

/-- The byte that a change of a strip's skip bit writes. -/
theorem State.setSkip_byte (s : State) (n : Nat) (d : Desc) (k : Nat) (on : Bool) : ∃ b : Byte,
    s.setSkip n d k on = s.screedPut n (d.skipLoc n k) [b] ∧
      ∀ i, i < 8 → b.getLsbD i = if i = k % 8 then on else (s.homeByte (d.skipLoc n k)).getLsbD i := by
  refine ⟨_, rfl, fun i hi => ?_⟩
  cases on with
  | true =>
    rw [if_pos rfl, getLsbD_or_bit _ _ hi]
    split
    next own => rw [own, BEq.rfl, Bool.or_true]
    next other => rw [beq_eq_false_iff_ne.2 other, Bool.or_false]
  | false =>
    rw [if_neg Bool.false_ne_true, getLsbD_and_not_bit _ _ hi]
    split
    next own => rw [own, bne_self_eq_false, Bool.and_false]
    next other => rw [bne_iff_ne.2 other, Bool.and_true]

/-- Settles O49: the phases of a sweep, the registers of a dispatch, and what a command does at its engine. -/
theorem sweepSteps : Obligations.SweepSteps := by
  refine ⟨⟨fun s n w d sweeps declared => ⟨?_, ?_, ?_, ?_, ?_, ?_⟩, fun w st dr hst hdr => w.fld_payload hst hdr,
    fun s n w d r later => ?_, ?_⟩, fun s n slot c => ⟨State.receiveScreed_empty c, fun d declared => ?_⟩⟩
  · exact fun waits goes moving other xd xa g parked => exec_sweepStart sweeps waits goes moving other.symm parked
  · intro acts none' more clean
    rw [exec_sweepDispatch_strip sweeps declared acts none' more clean]
    exact ⟨fun clear => congrArg _ (if_neg (ne_true_of_eq_false clear)), fun set => congrArg _ (if_pos set)⟩
  · intro k r rest acts opened idle
    exact ⟨exec_sweepDispatch_next sweeps declared acts opened idle rfl, exec_sweepDispatch_roundless sweeps declared acts opened idle rfl⟩
  · exact fun k => exec_sweepStripWriteback sweeps declared
  · intro acts goes none' last
    have both := acts
    simp only [State.sweepActs, Bool.and_eq_true] at both
    obtain ⟨⟨⟨begun, _⟩, moving⟩, _⟩ := both
    rw [exec_sweepCompletion sweeps declared begun moving (by simp [acts, none', last]), goes]
    rfl
  · intro st ended begun moving
    rw [exec_sweepCompletion sweeps declared begun moving (by simp [ended]), ended]
    rfl
  · rw [State.ctx_dispatch s n d r later]
    refine ⟨rfl, fun x hx => ?_, fun i hi => ?_, fun x low high => ?_, fun v ne high => ?_,
      Ctx.dispatched_ps _ (BitVec.ofNat 64 (s.cidOf n * 4 + w.slot)) w d r⟩
    · rw [Ctx.x_aimed, Ctx.x_dispatched_arg _ _ _ _ _ hx]
    · rw [Ctx.v_aimed, Ctx.lane_dispatched _ _ _ _ _ hi]
    · rw [Ctx.x_aimed, Ctx.x_dispatched _ _ _ _ _ low high]
    · rw [Ctx.v_aimed, Ctx.v_dispatched _ _ _ _ _ ne high]
  · intro s p q a cid slot rid c r n queue behind first region runs core gated waits
    cases c with
    | wake j => exact congrArg _ (State.screedArrive_first rfl queue behind first region runs core gated waits)
    | skip k on => exact congrArg _ (State.screedArrive_first rfl queue behind first region runs core gated waits)
  · intro strip out open'
    have outside : c.outside d = true ↔ out := by cases c <;> exact decide_eq_true_iff
    obtain ⟨dropped, buffered, applied⟩ := State.receiveScreed_cases declared outside (k := strip) (by cases c <;> rfl)
    refine ⟨dropped, buffered, applied, s.dropped_dropWake n slot, fun j m own => ?_, fun k on => ⟨rfl, s.setSkip_byte n d k on⟩⟩
    rw [s.applyScreed_wake n d j own]
    exact ⟨fun awake => if_neg awake, fun asleep => if_pos asleep⟩

end Sys2Proof.Machine
end

section
/-! # The rotation tick, its notices, and the stop, move and restart of a pause (R336, R339, R341, R343, R344) -/

namespace Sys2Proof.Machine

open Sys2Proof

/-! ### Places, courses and ashlars -/

theorem mem_coursesOf {x c : Nat} : c ∈ coursesOf x ↔ c / 32 = x := by
  simp only [coursesOf, List.mem_map, List.mem_range]
  exact ⟨fun ⟨i, hi, h⟩ => by omega, fun h => ⟨c % 32, Nat.mod_lt _ (by decide), by omega⟩⟩

theorem nodup_coursesOf (x : Nat) : (coursesOf x).Nodup :=
  List.nodup_range.map fun _ _ h => Nat.add_left_cancel h

/-- Where a course stands depends on its ashlar's site map and on the fuses alone. -/
theorem State.site_congr {s t : State} {c : Nat} (fuses : t.dev.fuses = s.dev.fuses)
    (sites : (t.ashlar (c / 32)).sites = (s.ashlar (c / 32)).sites) : t.site c = s.site c := by
  rw [State.site, State.site, State.siteEnabled, State.siteEnabled, fuses, sites]

theorem State.site_modAshlar (s : State) (x : Nat) {f : Ashlar → Ashlar} (keeps : (f (s.ashlar x)).sites = (s.ashlar x).sites)
    (c : Nat) : (s.modAshlar x f).site c = s.site c := by
  refine State.site_congr rfl ?_
  by_cases h : x = c / 32
  · rw [← h, State.ashlar_modAshlar_self, keeps]
  · rw [State.ashlar_modAshlar_ne _ _ h]

theorem State.site_modSite_ne (s : State) {c d : Nat} (f : SiteEntry → SiteEntry) (ne : c ≠ d) : (s.modSite c f).site d = s.site d := by
  by_cases same : c / 32 = d / 32
  · rw [State.site, State.modSite, ← same, State.ashlar_modAshlar_self, Map.get_set_ne _ _ _ (by omega), same]
    rfl
  · exact State.site_congr rfl (by rw [State.modSite, State.ashlar_modAshlar_ne _ _ same])

/-- A course depends on its own registers, on where it stands and on the site blocks. -/
theorem State.course_congr {s t : State} {c : Nat} (site : t.site c = s.site c) (fuses : t.dev.fuses = s.dev.fuses)
    (blocks : t.siteBlocks = s.siteBlocks) (courses : t.courses = s.courses) : t.course c = s.course c := by
  simp only [State.course, State.siteOf, State.block, State.siteEnabled, site, fuses, blocks, courses]

theorem State.course_modAshlar (s : State) (x : Nat) {f : Ashlar → Ashlar} (keeps : (f (s.ashlar x)).sites = (s.ashlar x).sites)
    (c : Nat) : (s.modAshlar x f).course c = s.course c :=
  State.course_congr (s.site_modAshlar x keeps c) rfl rfl rfl

theorem State.course_modSite_ne (s : State) {c d : Nat} (f : SiteEntry → SiteEntry) (ne : c ≠ d) :
    (s.modSite c f).course d = s.course d :=
  State.course_congr (s.site_modSite_ne f ne) rfl rfl rfl

/-- The rotations counted by a course do not depend on where it stands. -/
theorem State.rotnCount_modSite (s : State) (c d : Nat) (f : SiteEntry → SiteEntry) :
    ((s.modSite c f).course d).rotnCount = (s.course d).rotnCount := by
  have fresh (p q : BitVec 4) : ∀ m : List (Nat × Course), (Map.get (Course.fresh p) m d).rotnCount =
      (Map.get (Course.fresh q) m d).rotnCount := by
    intro m
    induction m with
    | nil => rfl
    | cons e m ih =>
      rw [Map.get, Map.get]
      split
      · rfl
      · exact ih
  exact fresh _ _ _

/-- One change of every course of a list. -/
theorem State.course_foldl_modCourse (f : Course → Course) {cs : List Nat} (nodup : cs.Nodup) (s : State) (c : Nat) :
    (cs.foldl (fun u d => u.modCourse d f) s).course c = if c ∈ cs then f (s.course c) else s.course c := by
  induction cs generalizing s with
  | nil => rw [List.foldl_nil, if_neg List.not_mem_nil]
  | cons d cs ih =>
    obtain ⟨fresh, nodup⟩ := List.nodup_cons.1 nodup
    rw [List.foldl_cons, ih nodup]
    by_cases h : d = c
    · subst h
      rw [if_neg fresh, if_pos List.mem_cons_self, State.course_modCourse_self]
    · rw [State.course_modCourse_ne _ _ h]
      exact if_congr (by rw [List.mem_cons, or_iff_right (Ne.symm h)]) rfl rfl

theorem State.foldl_modCourse_eq (f : Course → Course) (cs : List Nat) (s : State) :
    ∃ m, cs.foldl (fun u d => u.modCourse d f) s = { s with courses := m } := by
  induction cs generalizing s with
  | nil => exact ⟨_, rfl⟩
  | cons c cs ih =>
    obtain ⟨m, h⟩ := ih (s.modCourse c f)
    exact ⟨m, h⟩

/-- A write of a word of the plinth's registers reaches watches alone. -/
theorem State.regWritten_eq (s : State) (off : Nat) : ∃ fs ws,
    s.regWritten off = { s with filters := fs, dev := { s.dev with plinthWatches := ws } } := by
  rw [State.regWritten, State.reportLine]
  have step : ∀ (l : List Registration), (∀ r ∈ l, r.core = plinthCore) → ∀ (u : State) (p : Registration → Nat → Watch → Bool),
      ∃ ws, l.foldl (fun u r => u.latchWhere r.core (p r) 0) u = { u with dev := { u.dev with plinthWatches := ws } } := by
    intro l plinth u p
    induction l generalizing u with
    | nil => exact ⟨_, rfl⟩
    | cons r l ih =>
      obtain ⟨ws, rest⟩ := ih (fun r hr => plinth r (List.mem_cons_of_mem _ hr)) (u.latchWhere r.core (p r) 0)
      rw [List.foldl_cons, rest, plinth r List.mem_cons_self]
      exact ⟨ws, rfl⟩
  obtain ⟨ws, told⟩ := step (s.filters.filter fun r => r.line == lineOf (Home.loc (.regs off)) && r.core == plinthCore)
    (fun r hr => by
      simp only [List.mem_filter, Bool.and_eq_true, beq_iff_eq] at hr
      exact hr.2.2) _ fun r e w => e == r.entry && w.line == lineOf (Home.loc (.regs off))
  exact ⟨_, ws, told⟩

/-! ### Posting a rotation (R336, R339, R346) -/

/-- Every site on which a course of an ashlar stands is usable. -/
def State.Usable (s : State) (x : Nat) : Prop := ∀ c ∈ coursesOf x, (s.block (s.siteOf c)).usable = true

/-- A course of the ashlar would move. -/
def State.Would (s : State) (x : Nat) : Prop := s.dev.rotEnable = true ∧ ∃ c ∈ coursesOf x, s.moves c = true

theorem State.onFailed_of_usable {s : State} {x : Nat} (usable : s.Usable x) : s.onFailed x = [] :=
  List.filter_eq_nil_iff.2 fun c hc => by rw [usable c hc]; simp

/-- An ashlar whose rotation is posted. -/
def State.posted (s : State) (x : Nat) : State :=
  (s.modAshlar x fun x => { x with deferred := false }).modAshlar x fun x => { x with phase := .posted }

/-- An ashlar whose courses have taken the notice. -/
def State.noticed (s : State) (x : Nat) : State :=
  (coursesOf x).foldl (fun s c => s.modCourse c fun k => { k with stopped := true }) (s.posted x)

/-- Whether a course moves depends on where it stands and on its ashlar's circuits. -/
theorem State.moves_congr {s t : State} {c : Nat} (site : t.site c = s.site c)
    (circuits : (t.ashlar (c / 32)).circuits = (s.ashlar (c / 32)).circuits) : t.moves c = s.moves c := by
  simp only [State.moves, State.circuitOf, site, circuits]

theorem State.moves_modAshlar (s : State) (x : Nat) {f : Ashlar → Ashlar} (sites : (f (s.ashlar x)).sites = (s.ashlar x).sites)
    (circuits : (f (s.ashlar x)).circuits = (s.ashlar x).circuits) (c : Nat) : (s.modAshlar x f).moves c = s.moves c := by
  refine State.moves_congr (s.site_modAshlar x sites c) ?_
  by_cases h : x = c / 32
  · rw [← h, State.ashlar_modAshlar_self, circuits]
  · rw [State.ashlar_modAshlar_ne _ _ h]

theorem State.postRotation_unstopped {s : State} {x : Nat} (usable : s.Usable x) : s.postRotation x =
    if (s.dev.rotEnable && (coursesOf x).any s.moves) = true then s.noticed x
    else s.modAshlar x fun x => { x with deferred := false } := by
  have none' : (s.modAshlar x fun x => { x with deferred := false }).moves = s.moves :=
    funext fun c => s.moves_modAshlar x (by rfl) (by rfl) c
  simp only [State.postRotation, State.removeFailed, State.onFailed_of_usable usable, List.foldl_nil, List.any_nil, Bool.false_eq_true,
    if_false, State.modAshlar_dev, none']
  rfl

theorem State.would_iff {s : State} {x : Nat} : (s.dev.rotEnable && (coursesOf x).any s.moves) = true ↔ s.Would x := by
  rw [Bool.and_eq_true, List.any_eq_true]
  rfl

theorem State.postRotation_would {s : State} {x : Nat} (usable : s.Usable x) (would : s.Would x) : s.postRotation x = s.noticed x := by
  rw [State.postRotation_unstopped usable, if_pos (State.would_iff.2 would)]

theorem State.postRotation_idle {s : State} {x : Nat} (usable : s.Usable x) (idle : ¬s.Would x) :
    s.postRotation x = s.modAshlar x fun x => { x with deferred := false } := by
  rw [State.postRotation_unstopped usable, if_neg fun h => idle (State.would_iff.1 h)]

section
variable (s : State) (x : Nat)

theorem State.ashlar_posted (y : Nat) : (s.posted x).ashlar y =
    if x = y then { s.ashlar x with deferred := false, phase := .posted } else s.ashlar y := by
  rw [State.posted]
  split
  next h => rw [← h, State.ashlar_modAshlar_self, State.ashlar_modAshlar_self]
  next h => rw [State.ashlar_modAshlar_ne _ _ h, State.ashlar_modAshlar_ne _ _ h]

theorem State.site_posted (c : Nat) : (s.posted x).site c = s.site c := by
  rw [State.posted, State.site_modAshlar _ _ (by rfl), State.site_modAshlar _ _ (by rfl)]

theorem State.course_posted (c : Nat) : (s.posted x).course c = s.course c := by
  rw [State.posted, State.course_modAshlar _ _ (by rfl), State.course_modAshlar _ _ (by rfl)]

/-- The notice changes courses alone. -/
theorem State.noticed_eq : ∃ m, s.noticed x = { s.posted x with courses := m } := State.foldl_modCourse_eq ..

theorem State.course_noticed (c : Nat) : (s.noticed x).course c =
    if c ∈ coursesOf x then { s.course c with stopped := true } else s.course c := by
  rw [State.noticed, State.course_foldl_modCourse _ (nodup_coursesOf x), State.course_posted]

theorem State.ashlar_noticed (y : Nat) : (s.noticed x).ashlar y = (s.posted x).ashlar y := by
  obtain ⟨m, eq⟩ := s.noticed_eq x
  rw [eq]
  rfl

theorem State.site_noticed (c : Nat) : (s.noticed x).site c = s.site c := by
  obtain ⟨m, eq⟩ := s.noticed_eq x
  rw [eq]
  exact s.site_posted x c

end

/-! ### A tick at one ashlar (R336) -/

/-- What a tick does at an ashlar. -/
def State.tickAshlar (s : State) (x : Nat) : State :=
  if (s.ashlar x).deferred then s
  else if s.defers x then s.modAshlar x fun a => { a with deferred := true }
  else s.postRotation x

/-- What an ashlar's rotation depends on is the same in two states. -/
structure State.Alike (x : Nat) (s t : State) : Prop where
  mem : t.mem = s.mem
  dev : t.dev = s.dev
  regions : t.regions = s.regions
  blocks : t.siteBlocks = s.siteBlocks
  sites : ∀ c, t.site c = s.site c
  ashlar : t.ashlar x = s.ashlar x
  courses : ∀ c ∈ coursesOf x, t.course c = s.course c

theorem State.Alike.refl (x : Nat) (s : State) : State.Alike x s s :=
  ⟨rfl, rfl, rfl, rfl, fun _ => rfl, rfl, fun _ _ => rfl⟩

theorem State.Alike.trans {x : Nat} {s t u : State} (h : State.Alike x s t) (k : State.Alike x t u) : State.Alike x s u :=
  ⟨k.mem.trans h.mem, k.dev.trans h.dev, k.regions.trans h.regions, k.blocks.trans h.blocks, fun c => (k.sites c).trans (h.sites c),
    k.ashlar.trans h.ashlar, fun c hc => (k.courses c hc).trans (h.courses c hc)⟩

section
variable {x : Nat} {s t : State} (alike : State.Alike x s t)
include alike

theorem State.Alike.usable {y : Nat} (usable : s.Usable y) : t.Usable y := fun c hc => by
  have h := usable c hc
  rw [State.siteOf, State.block, State.siteEnabled] at h ⊢
  rwa [alike.sites, alike.dev, alike.blocks]

theorem State.Alike.would : t.Would x ↔ s.Would x := by
  refine and_congr (by rw [alike.dev]) (exists_congr fun c => and_congr_right fun hc => ?_)
  rw [State.moves_congr (alike.sites c) (by rw [mem_coursesOf.1 hc, alike.ashlar])]

theorem State.Alike.defers : t.defers x = s.defers x := by
  have under : t.stopUnderWay x = s.stopUnderWay x := by
    rw [State.stopUnderWay, State.stopUnderWay]
    refine Bool.eq_iff_iff.2 ?_
    rw [List.any_eq_true, List.any_eq_true]
    refine exists_congr fun c => and_congr_right fun hc => ?_
    rw [alike.courses c hc, State.ownerRegion, State.ownerRegion, State.ownerRid, State.ownerRid, State.region?, State.region?,
      alike.sites, alike.regions]
  rw [State.defers, State.defers, State.pausing, State.pausing, alike.ashlar, under, alike.dev]

end

/-- A tick at one ashlar leaves every other. -/
theorem State.alike_tickAshlar {s : State} {x y : Nat} (usable : s.Usable y) (ne : y ≠ x) : State.Alike x s (s.tickAshlar y) := by
  have set (f : Ashlar → Ashlar) (keeps : (f (s.ashlar y)).sites = (s.ashlar y).sites) : State.Alike x s (s.modAshlar y f) :=
    ⟨rfl, rfl, rfl, rfl, s.site_modAshlar y keeps, State.ashlar_modAshlar_ne _ _ ne, fun c _ => s.course_modAshlar y keeps c⟩
  rw [State.tickAshlar]
  split
  · exact State.Alike.refl x s
  split
  · exact set _ rfl
  by_cases would : s.Would y
  · rw [State.postRotation_would usable would]
    obtain ⟨m, eq⟩ := s.noticed_eq y
    refine ⟨by rw [eq]; rfl, by rw [eq]; rfl, by rw [eq]; rfl, by rw [eq]; rfl, s.site_noticed y, ?_, fun c hc => ?_⟩
    · rw [State.ashlar_noticed, State.ashlar_posted, if_neg ne]
    · rw [State.course_noticed, if_neg]
      exact fun h => ne ((mem_coursesOf.1 h).symm.trans (mem_coursesOf.1 hc))
  · rw [State.postRotation_idle usable would]
    exact set _ rfl

/-- A tick at one ashlar leaves usable what is usable. -/
theorem State.usable_tickAshlar {s : State} {y z : Nat} (usable : s.Usable y) (own : s.Usable z) : (s.tickAshlar y).Usable z :=
  (State.alike_tickAshlar (x := y + 1) usable (Nat.succ_ne_self y).symm).usable own

/-- A tick at several ashlars leaves every other. -/
theorem State.alike_tickAshlars {x : Nat} {l : List Nat} (out : x ∉ l) : ∀ {s : State}, (∀ y, y ∈ l → s.Usable y) →
    State.Alike x s (l.foldl State.tickAshlar s) := by
  induction l with
  | nil => exact fun _ => State.Alike.refl x _
  | cons y l ih =>
    intro s usable
    obtain ⟨ne, out⟩ := not_or.1 (List.mem_cons.not.1 out)
    have step := State.alike_tickAshlar (usable y List.mem_cons_self) (Ne.symm ne)
    exact step.trans (ih out fun z hz => step.usable (usable z (List.mem_cons_of_mem _ hz)))

/-- A tick at several ashlars does at each of them what it does there alone. -/
theorem State.tickAshlars_at {x : Nat} {p q : List Nat} (before : x ∉ p) (after : x ∉ q) {s : State} (usable : ∀ y, y < 8 → s.Usable y)
    (hx : x < 8) (hp : ∀ y ∈ p, y < 8) (hq : ∀ y ∈ q, y < 8) : ∃ t : State, State.Alike x s t ∧
      State.Alike x (t.tickAshlar x) ((p ++ x :: q).foldl State.tickAshlar s) := by
  have first := State.alike_tickAshlars before fun y hy => usable y (hp y hy)
  refine ⟨_, first, ?_⟩
  rw [List.foldl_append, List.foldl_cons]
  refine State.alike_tickAshlars after fun y hy => ?_
  exact State.usable_tickAshlar (first.usable (usable x hx)) (first.usable (usable y (hq y hy)))

/-! ### The tick (R335, R336) -/

/-- A device after the tick that was due at t. -/
def State.ticked (s : State) (t : Nat) : State :=
  ({ s with dev := { s.dev with
    rotTicks := s.dev.rotTicks + 1, prevTick := t, nextTick := some (t + s.dev.rotInterval.toNat * 10000000) } } : State).regWritten 0

theorem exec_rotationTick {s : State} {t : Nat} (next : s.dev.nextTick = some t) (due : t ≤ s.devTime) :
    exec .rotationTick s = .next ((List.range 8).foldl State.tickAshlar (s.ticked t)) := by
  show execRotationTick s = _
  simp only [execRotationTick, next, due, if_true]
  rfl

theorem State.ticked_eq (s : State) (t : Nat) : ∃ fs ws, s.ticked t = { s with filters := fs, dev := { s.dev with
    rotTicks := s.dev.rotTicks + 1, prevTick := t, nextTick := some (t + s.dev.rotInterval.toNat * 10000000),
    plinthWatches := ws } } := by
  obtain ⟨fs, ws, eq⟩ := State.regWritten_eq ({ s with dev := { s.dev with
    rotTicks := s.dev.rotTicks + 1, prevTick := t, nextTick := some (t + s.dev.rotInterval.toNat * 10000000) } } : State) 0
  exact ⟨fs, ws, eq⟩

/-- What a tick leaves as it is. -/
structure State.TickSame (s t : State) : Prop where
  mem : t.mem = s.mem
  regions : t.regions = s.regions
  blocks : t.siteBlocks = s.siteBlocks
  fuses : t.dev.fuses = s.dev.fuses
  enabled : t.dev.rotEnable = s.dev.rotEnable
  takeover : t.dev.takeover = s.dev.takeover
  ashlars : t.ashlars = s.ashlars
  courses : t.courses = s.courses

theorem State.tickSame_ticked (s : State) (t : Nat) : State.TickSame s (s.ticked t) := by
  obtain ⟨fs, ws, eq⟩ := s.ticked_eq t
  rw [eq]
  exact ⟨rfl, rfl, rfl, rfl, rfl, rfl, rfl, rfl⟩

section
variable {s t : State} (same : State.TickSame s t)
include same

theorem State.TickSame.ashlar (x : Nat) : t.ashlar x = s.ashlar x := by rw [State.ashlar, same.ashlars, State.ashlar]

theorem State.TickSame.site (c : Nat) : t.site c = s.site c := State.site_congr same.fuses (by rw [same.ashlar])

theorem State.TickSame.course (c : Nat) : t.course c = s.course c :=
  State.course_congr (same.site c) same.fuses same.blocks same.courses

theorem State.TickSame.usable {x : Nat} (usable : s.Usable x) : t.Usable x := fun c hc => by
  have h := usable c hc
  rw [State.siteOf, State.block, State.siteEnabled] at h ⊢
  rwa [same.site, same.fuses, same.blocks]

theorem State.TickSame.would (x : Nat) : t.Would x ↔ s.Would x :=
  and_congr (by rw [same.enabled]) (exists_congr fun c => and_congr_right fun _ => by
    rw [State.moves_congr (same.site c) (by rw [same.ashlar])])

theorem State.TickSame.defers (x : Nat) : t.defers x = s.defers x := by
  simp only [State.defers, State.pausing, State.stopUnderWay, State.ownerRegion, State.ownerRid, State.region?, same.ashlar,
    same.course, same.site, same.regions, same.takeover]

end

/-- What an ashlar is after a tick, by what it was before (R336). -/
structure State.Ticked (x : Nat) (s u : State) : Prop where
  dropped : (s.ashlar x).deferred = true → u.ashlar x = s.ashlar x ∧ ∀ c ∈ coursesOf x, u.course c = s.course c
  deferred : (s.ashlar x).deferred = false → s.defers x = true →
    u.ashlar x = { s.ashlar x with deferred := true } ∧ ∀ c ∈ coursesOf x, u.course c = s.course c
  posted : (s.ashlar x).deferred = false → s.defers x = false → s.Would x →
    (u.ashlar x).phase = .posted ∧ (u.ashlar x).deferred = false ∧ ∀ c ∈ coursesOf x, u.course c = { s.course c with stopped := true }
  idle : (s.ashlar x).deferred = false → s.defers x = false → ¬s.Would x →
    u.ashlar x = s.ashlar x ∧ ∀ c ∈ coursesOf x, u.course c = s.course c

/-- A tick at one ashlar does there what R336 says. -/
theorem State.ticked_tickAshlar {s : State} {x : Nat} (usable : s.Usable x) : State.Ticked x s (s.tickAshlar x) where
  dropped waits := by
    rw [State.tickAshlar, if_pos waits]
    exact ⟨rfl, fun _ _ => rfl⟩
  deferred free late := by
    rw [State.tickAshlar, if_neg (ne_true_of_eq_false free), if_pos late]
    exact ⟨State.ashlar_modAshlar_self .., fun c _ => s.course_modAshlar x (by rfl) c⟩
  posted free now would := by
    rw [State.tickAshlar, if_neg (ne_true_of_eq_false free), if_neg (ne_true_of_eq_false now), State.postRotation_would usable would,
      State.ashlar_noticed, State.ashlar_posted, if_pos rfl]
    exact ⟨rfl, rfl, fun c hc => by rw [State.course_noticed, if_pos hc]⟩
  idle free now would := by
    rw [State.tickAshlar, if_neg (ne_true_of_eq_false free), if_neg (ne_true_of_eq_false now), State.postRotation_idle usable would]
    refine ⟨?_, fun c _ => s.course_modAshlar x (by rfl) c⟩
    rw [State.ashlar_modAshlar_self, ← free]

/-- What a tick does at an ashlar carries over between states that are alike there. -/
theorem State.Ticked.of_eq {x : Nat} {s s' u u' : State} (ticked : State.Ticked x s u) (ashlar : s'.ashlar x = s.ashlar x)
    (defers : s'.defers x = s.defers x) (would : s'.Would x ↔ s.Would x) (courses : ∀ c ∈ coursesOf x, s'.course c = s.course c)
    (after : State.Alike x u u') : State.Ticked x s' u' where
  dropped h := by
    rw [ashlar] at h ⊢
    obtain ⟨a, k⟩ := ticked.dropped h
    exact ⟨after.ashlar.trans a, fun c hc => by rw [after.courses c hc, k c hc, courses c hc]⟩
  deferred h d := by
    rw [ashlar] at h ⊢
    rw [defers] at d
    obtain ⟨a, k⟩ := ticked.deferred h d
    exact ⟨after.ashlar.trans a, fun c hc => by rw [after.courses c hc, k c hc, courses c hc]⟩
  posted h d w := by
    rw [ashlar] at h
    rw [defers] at d
    rw [after.ashlar]
    obtain ⟨p, f, k⟩ := ticked.posted h d (would.1 w)
    exact ⟨p, f, fun c hc => by rw [after.courses c hc, k c hc, courses c hc]⟩
  idle h d w := by
    rw [ashlar] at h ⊢
    rw [defers] at d
    obtain ⟨a, k⟩ := ticked.idle h d (fun h => w (would.2 h))
    exact ⟨after.ashlar.trans a, fun c hc => by rw [after.courses c hc, k c hc, courses c hc]⟩

/-- A tick does at each ashlar what R336 says. -/
theorem State.ticked_tick {s : State} (t : Nat) (usable : ∀ y, y < 8 → s.Usable y) {x : Nat} (hx : x < 8) :
    State.Ticked x s ((List.range 8).foldl State.tickAshlar (s.ticked t)) := by
  have same := s.tickSame_ticked t
  have usable' (y : Nat) (hy : y < 8) : (s.ticked t).Usable y := same.usable (usable y hy)
  obtain ⟨p, q, split⟩ := List.append_of_mem (List.mem_range.2 hx)
  have nodup : (p ++ x :: q).Nodup := split ▸ List.nodup_range
  have bound (y : Nat) (hy : y ∈ p ++ x :: q) : y < 8 := List.mem_range.1 (split ▸ hy)
  have out := (List.nodup_middle.1 nodup).notMem
  obtain ⟨before, after⟩ := not_or.1 (List.mem_append.not.1 out)
  obtain ⟨u, pre, post⟩ := State.tickAshlars_at before after usable' hx
    (fun y hy => bound y (List.mem_append_left _ hy)) (fun y hy => bound y (List.mem_append_right _ (List.mem_cons_of_mem _ hy)))
  rw [split]
  exact (State.ticked_tickAshlar (pre.usable (usable' x hx))).of_eq ((same.ashlar x).symm.trans pre.ashlar.symm)
    ((same.defers x).symm.trans pre.defers.symm) ((same.would x).symm.trans pre.would.symm)
    (fun c hc => (same.course c).symm.trans (pre.courses c hc).symm) post

/-- A tick counts, and sets the next an interval later. -/
theorem State.tick_counts {s : State} (t : Nat) (usable : ∀ y, y < 8 → s.Usable y) :
    let u := (List.range 8).foldl State.tickAshlar (s.ticked t)
    u.mem = s.mem ∧ u.dev.rotTicks = s.dev.rotTicks + 1 ∧ u.dev.prevTick = t ∧
      u.dev.nextTick = some (t + s.dev.rotInterval.toNat * 10000000) := by
  have out : 8 ∉ List.range 8 := by simp
  have alike := State.alike_tickAshlars out fun y hy => (s.tickSame_ticked t).usable (usable y (List.mem_range.1 hy))
  obtain ⟨fs, ws, eq⟩ := s.ticked_eq t
  simp only [alike.mem, alike.dev]
  rw [eq]
  exact ⟨rfl, rfl, rfl, rfl⟩

theorem State.tickAshlars_deferred {s : State} (waits : ∀ x, x < 8 → (s.ashlar x).deferred = true) (t : Nat) :
    (List.range 8).foldl State.tickAshlar (s.ticked t) = s.ticked t := by
  have stays : ∀ l : List Nat, (∀ x ∈ l, x < 8) → l.foldl State.tickAshlar (s.ticked t) = s.ticked t := by
    intro l bound
    induction l with
    | nil => rfl
    | cons x l ih =>
      have own : ((s.ticked t).ashlar x).deferred = true := by
        rw [(s.tickSame_ticked t).ashlar]
        exact waits x (bound x List.mem_cons_self)
      rw [List.foldl_cons, State.tickAshlar, if_pos own, ih fun y hy => bound y (List.mem_cons_of_mem _ hy)]
  exact stays _ fun x => List.mem_range.1

/-! ### The restart (R343, R344) -/

/-- A pause of the watches of a course changes its cores alone. -/
theorem State.pauseWatches_eq (s : State) {c : Nat} (hc : c < 256) : ∃ ks, s.pauseWatches c = { s with cores := ks } := by
  have step : ∀ (l : List Nat), (∀ k ∈ l, k < 8) → ∀ u : State,
      ∃ ks, l.foldl (fun s k => s.latchWhere (coreId c k) (fun _ _ => true) 3) u = { u with cores := ks } := by
    intro l bound u
    induction l generalizing u with
    | nil => exact ⟨_, rfl⟩
    | cons k l ih =>
      have hk := bound k List.mem_cons_self
      obtain ⟨ks, rest⟩ := ih (fun j hj => bound j (List.mem_cons_of_mem _ hj)) (u.latchWhere (coreId c k) (fun _ _ => true) 3)
      rw [List.foldl_cons, rest, State.latchWhere_core _ (by rw [coreId]; omega)]
      exact ⟨ks, rfl⟩
  exact step _ (fun k => List.mem_range.1) s

theorem State.foldl_modCore_eq {α : Type} (g : α → Nat) (f : α → Core → Core) (l : List α) (s : State) :
    ∃ ks, l.foldl (fun u k => u.modCore (g k) (f k)) s = { s with cores := ks } := by
  induction l generalizing s with
  | nil => exact ⟨_, rfl⟩
  | cons k l ih =>
    obtain ⟨ks, h⟩ := ih (s.modCore (g k) (f k))
    exact ⟨ks, h⟩

/-- The bands, the array and the count of a course that goes on at its site. -/
def State.goOn (s : State) (c : Nat) (healthy : BitVec 4) (moved : Bool) : State :=
  (if s.held c then s.restoreArray c else s).modCourse c fun k =>
    { k.arrive healthy with stopped := false, rotnCount := if moved then k.rotnCount + 1 else k.rotnCount }

theorem State.goOn_eq (s : State) (c : Nat) (healthy : BitVec 4) (moved : Bool) : ∃ k, s.goOn c healthy moved = s.setCourse c k ∧
    k.stopped = false ∧ k.rotnCount = if moved then (s.course c).rotnCount + 1 else (s.course c).rotnCount := by
  rw [State.goOn]
  split
  · rw [State.restoreArray, State.modCourse_modCourse]
    exact ⟨_, rfl, rfl, rfl⟩
  · exact ⟨_, rfl, rfl, rfl⟩

/-- A course that restarts stands at its new place, goes on, and counts its move; its cores change, and nothing else. -/
theorem State.restartCourse_eq (s : State) {c : Nat} (hc : c < 256) (e : SiteEntry) (moved : Bool) : ∃ ks k,
    s.restartCourse c e moved = ({ s.modSite c (fun _ => e) with cores := ks } : State).setCourse c k ∧ k.stopped = false ∧
      k.rotnCount = if moved then (s.course c).rotnCount + 1 else (s.course c).rotnCount := by
  obtain ⟨ks, paused⟩ := (s.modSite c fun _ => e).pauseWatches_eq hc
  obtain ⟨ks', cleared⟩ := State.foldl_modCore_eq (fun k => coreId c k) (fun _ x => { x with l1 := [] }) (List.range 8)
    ((s.modSite c fun _ => e).pauseWatches c)
  rw [paused] at cleared
  obtain ⟨k, eq, goes, count⟩ := State.goOn_eq { s.modSite c (fun _ => e) with cores := ks' } c
    (((s.modSite c fun _ => e).pauseWatches c).block (((s.modSite c fun _ => e).pauseWatches c).siteOf c)).healthy moved
  refine ⟨ks', k, ?_, goes, count.trans ?_⟩
  · rw [← eq, State.restartCourse]
    simp only
    rw [paused, cleared]
    rfl
  · rw [← s.rotnCount_modSite c c fun _ => e]
    rfl

/-- What the restart of some courses leaves: each stands at its new place, goes on, and has counted its move; no other course
changes. -/
structure State.Restarted (E : Nat → SiteEntry) (M : Nat → Bool) (cs : List Nat) (s t : State) : Prop where
  mem : t.mem = s.mem
  mortar : t.mortar = s.mortar
  dev : t.dev = s.dev
  blocks : t.siteBlocks = s.siteBlocks
  moving : ∀ x, (t.ashlar x).moving = (s.ashlar x).moving
  phase : ∀ x, (t.ashlar x).phase = (s.ashlar x).phase
  others : ∀ c, c ∉ cs → t.course c = s.course c ∧ t.site c = s.site c
  own : ∀ c ∈ cs, t.site c = E c ∧ (t.course c).stopped = false ∧
    (t.course c).rotnCount = if M c then (s.course c).rotnCount + 1 else (s.course c).rotnCount

theorem State.restarted_one (E : Nat → SiteEntry) (M : Nat → Bool) {c : Nat} (hc : c < 256) (s : State) :
    State.Restarted E M [c] s (s.restartCourse c (E c) (M c)) := by
  obtain ⟨ks, k, eq, goes, count⟩ := s.restartCourse_eq hc (E c) (M c)
  have ashlar (x : Nat) : ((s.modSite c fun _ => E c).ashlar x).moving = (s.ashlar x).moving ∧
      ((s.modSite c fun _ => E c).ashlar x).phase = (s.ashlar x).phase := by
    by_cases h : c / 32 = x
    · rw [← h, State.modSite, State.ashlar_modAshlar_self]
      exact ⟨rfl, rfl⟩
    · rw [State.modSite, State.ashlar_modAshlar_ne _ _ h]
      exact ⟨rfl, rfl⟩
  generalize placed : ({ s.modSite c (fun _ => E c) with cores := ks } : State) = w at eq
  have site (d : Nat) : w.site d = (s.modSite c fun _ => E c).site d := placed ▸ rfl
  have course (d : Nat) : w.course d = (s.modSite c fun _ => E c).course d := placed ▸ rfl
  have same (x : Nat) : w.ashlar x = (s.modSite c fun _ => E c).ashlar x := placed ▸ rfl
  rw [eq]
  refine ⟨placed ▸ rfl, placed ▸ rfl, placed ▸ rfl, placed ▸ rfl, fun x => ?_, fun x => ?_, fun d out => ?_, fun d own => ?_⟩
  · rw [State.ashlar_setCourse, same, (ashlar x).1]
  · rw [State.ashlar_setCourse, same, (ashlar x).2]
  · have ne : c ≠ d := fun h => out (List.mem_singleton.2 h.symm)
    rw [State.course_setCourse_ne _ _ ne, State.site_setCourse, course, site]
    exact ⟨s.course_modSite_ne _ ne, s.site_modSite_ne _ ne⟩
  · rw [List.mem_singleton.1 own, State.course_setCourse_self, State.site_setCourse, site]
    exact ⟨State.site_modSite_self .., goes, count⟩

theorem State.Restarted.cons {E : Nat → SiteEntry} {M : Nat → Bool} {c : Nat} {cs : List Nat} {s t u : State} (fresh : c ∉ cs)
    (h : State.Restarted E M [c] s t) (k : State.Restarted E M cs t u) : State.Restarted E M (c :: cs) s u where
  mem := k.mem.trans h.mem
  mortar := k.mortar.trans h.mortar
  dev := k.dev.trans h.dev
  blocks := k.blocks.trans h.blocks
  moving x := (k.moving x).trans (h.moving x)
  phase x := (k.phase x).trans (h.phase x)
  others d out := by
    obtain ⟨ne, out⟩ := not_or.1 (List.mem_cons.not.1 out)
    obtain ⟨course, site⟩ := h.others d fun h => ne (List.mem_singleton.1 h)
    obtain ⟨course', site'⟩ := k.others d out
    exact ⟨course'.trans course, site'.trans site⟩
  own d own := by
    rcases List.mem_cons.1 own with rfl | own
    · obtain ⟨site, goes, count⟩ := h.own d List.mem_cons_self
      obtain ⟨course', site'⟩ := k.others d fresh
      rw [course', site']
      exact ⟨site, goes, count⟩
    · obtain ⟨site, goes, count⟩ := k.own d own
      have ne : d ∉ [c] := fun h => fresh (List.mem_singleton.1 h ▸ own)
      exact ⟨site, goes, by rw [count, (h.others d ne).1]⟩

theorem State.restarted_all (E : Nat → SiteEntry) (M : Nat → Bool) {cs : List Nat} (nodup : cs.Nodup) (bound : ∀ c ∈ cs, c < 256)
    (s : State) : State.Restarted E M cs s
      ((cs.map fun c => (c, E c, M c)).foldl (fun t e => t.restartCourse e.1 e.2.1 e.2.2) s) := by
  induction cs generalizing s with
  | nil => exact ⟨rfl, rfl, rfl, rfl, fun _ => rfl, fun _ => rfl, fun _ _ => ⟨rfl, rfl⟩, fun _ h => absurd h List.not_mem_nil⟩
  | cons c cs ih =>
    obtain ⟨fresh, nodup⟩ := List.nodup_cons.1 nodup
    exact (State.restarted_one E M (bound c List.mem_cons_self) s).cons fresh
      (ih nodup (fun d hd => bound d (List.mem_cons_of_mem _ hd)) _)

theorem State.endStills_eq (rids : List (BitVec 16)) (s : State) : ∃ rs, rids.foldl State.endStill s = { s with regions := rs } := by
  induction rids generalizing s with
  | nil => exact ⟨_, rfl⟩
  | cons r l ih =>
    obtain ⟨rs, rest⟩ := ih (s.endStill r)
    rw [List.foldl_cons, rest, State.endStill, State.modRegion]
    split
    · exact ⟨rs, rfl⟩
    · exact ⟨rs, rfl⟩

theorem State.forwardMortar_of_empty {s : State} (empty : s.mortar = []) (cs : List Nat) : s.forwardMortar cs = s := by
  rw [State.forwardMortar, empty]
  exact congrArg (fun m => ({ s with mortar := m } : State)) empty.symm

/-- The group that restarts next holds courses of its ashlar, each once. -/
theorem State.nextGroup_nodup (s : State) (x : Nat) : (s.nextGroup x).Nodup ∧ ∀ c ∈ s.nextGroup x, c ∈ coursesOf x := by
  have sub (n : Option Nat) : (s.group? x n).Sublist (coursesOf x) := List.filter_sublist.trans List.filter_sublist
  rw [State.nextGroup]
  split
  · exact ⟨(nodup_coursesOf x).sublist (sub _), fun c hc => (sub _).subset hc⟩
  · exact ⟨List.nodup_nil, fun c hc => absurd hc List.not_mem_nil⟩

/-- An ashlar some of whose courses have restarted: the pause ends with the last. -/
def Ashlar.restarted (a : Ashlar) (x : Nat) (cs : List Nat) : Ashlar :=
  let left := a.moving.filter fun i => !cs.contains (x * 32 + i)
  { a with moving := left, phase := if left.isEmpty then .none else a.phase }

/-- A device some of whose courses have restarted: errors and region times are carried over. -/
def State.moveDone (s : State) (x : Nat) (cs : List Nat) (ps : List Nat) (rs : List (BitVec 16 × Region)) : State :=
  { (({ s with poison := ps } : State).modAshlar x fun a => a.restarted x cs) with regions := rs }

section
variable (s : State) (x : Nat) (cs ps : List Nat) (rs : List (BitVec 16 × Region))

theorem State.site_moveDone (c : Nat) : (s.moveDone x cs ps rs).site c = s.site c :=
  State.site_modAshlar s x (f := fun a => a.restarted x cs) rfl c

theorem State.course_moveDone (c : Nat) : (s.moveDone x cs ps rs).course c = s.course c :=
  State.course_congr (s.site_moveDone x cs ps rs c) rfl rfl rfl

theorem State.ashlar_moveDone : (s.moveDone x cs ps rs).ashlar x = (s.ashlar x).restarted x cs :=
  State.ashlar_modAshlar_self s x fun a => a.restarted x cs

end

theorem State.restart_eq {s t : State} (x : Nat) {cs : List Nat}
    (places : (cs.map fun c => (c, s.newPlace c, s.moves c)).foldl (fun t e => t.restartCourse e.1 e.2.1 e.2.2) s = t)
    (quiet : t.mortar = []) : ∃ ps rs, s.restart x cs = t.moveDone x cs ps rs := by
  have forwarded := State.forwardMortar_of_empty (s := t.moveDone x cs (t.poison.map (s.stayed t cs)) t.regions) quiet cs
  rw [State.restart, places]
  obtain ⟨rs, still⟩ := State.endStills_eq _ ((t.moveDone x cs (t.poison.map (s.stayed t cs)) t.regions).forwardMortar cs)
  refine ⟨t.poison.map (s.stayed t cs), rs, still.trans ?_⟩
  rw [forwarded]
  rfl

/-- What a restart of some courses of an ashlar leaves, where nothing waits in its mortar buffers. -/
theorem State.restart_facts {s : State} (x : Nat) (moved : (s.ashlar x).phase = .moved) (quiet : s.mortar = []) {cs : List Nat}
    (nodup : cs.Nodup) (bound : ∀ c ∈ cs, c < 256) :
    let t := s.restart x cs
    t.mem = s.mem ∧ (t.ashlar x).moving = ((s.ashlar x).moving.filter fun i => !cs.contains (x * 32 + i)) ∧
      (t.ashlar x).phase = (if (t.ashlar x).moving = [] then .none else .moved) ∧
      (∀ c, c ∉ cs → t.course c = s.course c ∧ t.site c = s.site c) ∧
      ∀ c ∈ cs, t.site c = s.newPlace c ∧ (t.course c).stopped = false ∧
        (t.course c).rotnCount = if s.moves c then (s.course c).rotnCount + 1 else (s.course c).rotnCount := by
  have all := State.restarted_all s.newPlace s.moves nodup bound s
  generalize places : (cs.map fun c => (c, s.newPlace c, s.moves c)).foldl (fun t e => t.restartCourse e.1 e.2.1 e.2.2) s = u at all
  obtain ⟨ps, rs, eq⟩ := State.restart_eq x places (all.mortar.trans quiet)
  rw [eq]
  refine ⟨all.mem, ?_, ?_, fun c hc => ?_, fun c hc => ?_⟩
  · rw [State.ashlar_moveDone, Ashlar.restarted, all.moving]
  · rw [State.ashlar_moveDone, Ashlar.restarted, all.phase, moved]
    exact if_congr List.isEmpty_iff rfl rfl
  · rw [State.site_moveDone, State.course_moveDone]
    exact all.others c hc
  · rw [State.site_moveDone, State.course_moveDone]
    exact all.own c hc

/-- Where a course that moves stands next (R332, R344). -/
theorem State.newPlace_of_moves {s : State} {c : Nat} (moves : s.moves c = true) :
    (s.newPlace c).position.toNat = nextPos (s.circuitOf c) (s.site c).position.toNat % 8 ∧
      (s.newPlace c).site.toNat = ringSite (s.circuitOf c) (nextPos (s.circuitOf c) (s.site c).position.toNat) ∧
      (s.newPlace c).rid = (s.site c).rid := by
  have small (j : Nat) : ringSite (s.circuitOf c) j < 32 := Nat.mod_lt _ (by decide)
  have place : s.newPlace c = { s.site c with
      position := BitVec.ofNat 3 (nextPos (s.circuitOf c) (s.site c).position.toNat),
      site := BitVec.ofNat 5 (ringSite (s.circuitOf c) (nextPos (s.circuitOf c) (s.site c).position.toNat)) } := if_pos moves
  rw [place]
  exact ⟨BitVec.toNat_ofNat .., (BitVec.toNat_ofNat ..).trans (Nat.mod_eq_of_lt (small _)), rfl⟩

theorem State.newPlace_of_stays {s : State} {c : Nat} (stays : s.moves c = false) : s.newPlace c = s.site c :=
  if_neg (ne_true_of_eq_false stays)

/-- Settles O50: the tick ashlar by ashlar, the notice, and the restart course by course. -/
theorem rotationSteps : Obligations.RotationSteps := by
  refine fun s a => ⟨fun t next due waits => ?_, fun t next due usable => ?_, fun t next later => ?_, fun waits now => ?_,
    fun usable => ⟨fun enabled would => ?_, fun idle => ?_⟩, fun posted => ?_, fun stopped quiet => ?_, fun moved quiet => ?_⟩
  · rw [exec_rotationTick next due, State.tickAshlars_deferred waits]
    rfl
  · have usable' (y : Nat) (hy : y < 8) : s.Usable y := fun c hc => usable c (by have := mem_coursesOf.1 hc; omega)
    obtain ⟨mem, ticks, prev, next'⟩ := State.tick_counts t usable'
    refine ⟨_, exec_rotationTick next due, mem, ticks, prev, next', fun x hx => ?_⟩
    have ticked := State.ticked_tick t usable' hx
    exact ⟨ticked.dropped, ticked.deferred, ticked.posted, ticked.idle⟩
  · show execRotationTick s = _
    simp only [execRotationTick, next, Nat.not_le.2 later, if_false]
  · show execRotationDeferredPost a s = _
    simp only [execRotationDeferredPost, waits, now, Bool.not_false, Bool.and_self, if_true]
  · rw [State.postRotation_would usable ⟨enabled, would⟩, State.ashlar_noticed, State.ashlar_posted, if_pos rfl]
    exact ⟨rfl, fun c hc => by rw [State.course_noticed, if_pos hc]⟩
  · refine State.postRotation_idle usable fun ⟨enabled, c, hc, moves⟩ => ?_
    rcases idle with off | still
    · exact Bool.noConfusion (off.symm.trans enabled)
    · exact Bool.noConfusion ((still c hc).symm.trans moves)
  · show execRotationStop a s = _
    simp only [execRotationStop, posted, if_true]
  · refine congrArg _ (if_pos ?_)
    rw [Bool.and_eq_true, decide_eq_true_eq, Bool.not_eq_true']
    exact ⟨stopped, List.any_eq_false.2 fun q hq => ne_true_of_eq_false (quiet q hq)⟩
  · obtain ⟨nodup, own⟩ := s.nextGroup_nodup a.val
    obtain ⟨mem, moving, phase, others, group⟩ := State.restart_facts a.val moved quiet nodup fun c hc => by
      have := mem_coursesOf.1 (own c hc)
      omega
    refine ⟨s.restart a.val (s.nextGroup a.val), congrArg Host.Outcome.next (if_pos moved), mem, ?_, phase, others, fun c hc => ?_⟩
    · rw [moving, Nat.mul_comm]
    · obtain ⟨site, goes, count⟩ := group c hc
      refine ⟨goes, fun stays => ?_, fun moves => ?_⟩
      · rw [site, State.newPlace_of_stays stays, count, stays]
        exact ⟨rfl, rfl⟩
      · obtain ⟨position, place, rid⟩ := State.newPlace_of_moves moves
        rw [site, count, moves]
        exact ⟨position, place, rid, rfl⟩

end Sys2Proof.Machine
end

section
/-! # Steps of the copy unit, of stream read-ahead and of the collective engine (R274, R279 to R283, R287) -/

namespace Sys2Proof.Machine

open Sys2Proof

/-! ### The element that an engine performs next (R280; log entry 18) -/

/-- Counting k elements past those of a list. -/
def skipPast (k d : Nat) : Nat := if d ≤ k then k + 1 else k

theorem foldl_skipPast_of_lt {ps : List Nat} {k : Nat} (above : ∀ d ∈ ps, k < d) : ps.foldl skipPast k = k := by
  induction ps with
  | nil => rfl
  | cons d ps ih =>
    rw [List.foldl_cons, skipPast, if_neg (Nat.not_le.2 (above d List.mem_cons_self))]
    exact ih fun e he => above e (List.mem_cons_of_mem _ he)

/-- Counting past an ascending list gives a number that it does not hold. -/
theorem foldl_skipPast {ps : List Nat} (up : ps.Pairwise (· < ·)) (k : Nat) :
    k ≤ ps.foldl skipPast k ∧ ps.foldl skipPast k ≤ k + ps.length ∧ ps.foldl skipPast k ∉ ps := by
  induction ps generalizing k with
  | nil => exact ⟨Nat.le_refl _, Nat.le_refl _, List.not_mem_nil⟩
  | cons d ps ih =>
    obtain ⟨first, up⟩ := List.pairwise_cons.1 up
    rw [List.foldl_cons, List.length_cons, List.mem_cons, not_or]
    by_cases h : d ≤ k
    · rw [skipPast, if_pos h]
      obtain ⟨low, high, out⟩ := ih up (k + 1)
      exact ⟨by omega, by omega, by omega, out⟩
    · rw [skipPast, if_neg h, foldl_skipPast_of_lt fun e he => Nat.lt_trans (Nat.not_le.1 h) (first e he)]
      exact ⟨Nat.le_refl _, by omega, by omega, fun own => Nat.lt_asymm (first k own) (Nat.not_le.1 h)⟩

/-- The element performed next is one of those that are left. -/
theorem freePick_left (s : State) {n : Nat} {ps : List Nat} (up : ps.Pairwise (· < ·)) (more : ps.length < n) :
    freePick s n ps < n ∧ freePick s n ps ∉ ps := by
  have pick (k : Nat) (hk : k < n - ps.length) : ps.foldl skipPast k < n ∧ ps.foldl skipPast k ∉ ps := by
    obtain ⟨_, high, out⟩ := foldl_skipPast up k
    exact ⟨by omega, out⟩
  refine pick _ ?_
  split
  next => omega
  next many => exact Nat.mod_lt _ (by omega)

/-! ### Copies (R279 to R282) -/

section
variable {s : State} {c : Nat} {p q : List CopyJob} {j : CopyJob} (queue : (s.course c).copies = p ++ j :: q)
  (moving : s.moving j.who = true)
include queue moving

theorem exec_copyElement (goes : j.isOver = false) (here : s.engineParked j.who (.copy j.id) = false) :
    exec (.copyElement c p.length) s = .next (s.copyAt c p.length j (j.parked.getD (freePick s (copyTotal j.cmd) j.performed))) := by
  show execCopyElement c p.length s = _
  simp only [execCopyElement, queue, getElem?_append_cons, goes, here, moving, Bool.not_true, Bool.or_self, Bool.false_eq_true, if_false]

/-- A copy that is over leaves its unit and posts its completion (R281, R282). -/
theorem exec_copyCompletion (ended : j.isOver = true) : ∀ {payload : Word},
    (payload = match j.ended with
      | some (st, va) => engPayload st va.toNat
      | none => engPayload 0 (copySize j.cmd * copyTotal j.cmd)) →
    exec (.copyCompletion c p.length) s =
      .next ((s.setCourse c { s.course c with copies := p ++ q }).completeFor j.who j.cmd.tag payload) := by
  rintro _ rfl
  show execCopyCompletion c p.length s = _
  simp only [execCopyCompletion, State.modCourse, queue, getElem?_append_cons, dropAt_append_cons, ended, moving, Bool.and_self, if_true] <;> rfl

end

/-- An element of a copy outside the aperture, with nothing written before it, no barrier and no error in memory (R280). -/
theorem State.copyAt_element {s : State} (c i : Nat) {j : CopyJob} {k : Nat} {src dst : List Nat}
    (reads : s.engineLocs j.who .read (j.from k) (copySize j.cmd) j.cmd.sswz true = .ok src) (first : j.pre = []) (bar : j.bar = none)
    (outside : inAperture (j.to k) = false)
    (writes : s.engineLocs j.who .write (j.to k) (copySize j.cmd) j.cmd.dswz true = .ok dst) (clean : s.poison = [])
    (readWaits : s.readWaits j.who src = false) (writeWaits : s.engineWaits j.who dst = false) {u : State}
    (reached : u = ((s.touchCourse j.who (j.from k)).touchCourse j.who (j.to k)).ask j.who.core? (src.headD 0) (copySize j.cmd)) :
    s.copyAt c i j k = ((u.tick.modCopy c i fun j =>
        { j with performed := insertUp k j.performed, pre := keepOld u j.pre dst, parked := none }).enginePut j.who dst (src.map u.homeByte)).healBy
      (dst.headD 0) (j.to k) (copySize j.cmd) ((insertUp k j.performed).map j.to) := by
  have sound : s.anyPoison src = false := by simp [State.anyPoison, State.poisoned, clean]
  have whole : s.partPoison (writesAt dst (List.replicate (copySize j.cmd) 0)) (dst.headD 0) (copySize j.cmd) = false := by
    simp [State.partPoison, clean]
  have fresh (l : Nat) : (Map.find j.pre l).isSome = false := by rw [first]; rfl
  have none' : src.any (fun l => (Map.find j.pre l).isSome) = false := List.any_eq_false.2 fun l _ => ne_true_of_eq_false (fresh l)
  subst reached
  simp only [State.copyAt, reads, outside, Bool.false_and, Bool.not_false, writes, sound, whole, readWaits, writeWaits, bar, State.barShut,
    Bool.or_self, none', Bool.false_eq_true, if_false, State.lowerBar]

/-! ### Stream read-ahead (R273, R274) -/

theorem State.ctx_ask (s : State) (core : Option Nat) (loc n : Nat) (a : Agent) : (s.ask core loc n).ctx a = s.ctx a := by
  rw [State.ask]
  split
  · split
    · rfl
    · rfl
  · rfl

theorem State.ctx_touchCourse (s : State) (a : Agent) (va : Word) (b : Agent) : (s.touchCourse a va).ctx b = s.ctx b := by
  rw [State.touchCourse]
  split
  · exact (apply_ite (fun u : State => u.ctx b) ..).trans (ite_self _)
  · rfl

theorem State.ctx_touchSpan (s : State) (a : Agent) (va : Word) (n : Nat) (b : Agent) : (s.touchSpan a va n).ctx b = s.ctx b :=
  foldl_leaves (fun u : State => u.ctx b) (fun u _ => u.ctx_touchCourse ..) ..

/-- The lookup and the read of a stream's next element. -/
def State.refilled (s : State) (a : Agent) (va : Word) (n : Nat) : State :=
  match s.resolve a .read va with
  | .ok loc => (s.touchSpan a va n).ask a.core? loc n
  | _ => s.touchSpan a va n

theorem State.ctx_refilled (s : State) (a : Agent) (va : Word) (n : Nat) (b : Agent) : (s.refilled a va n).ctx b = s.ctx b := by
  rw [State.refilled]
  split
  · rw [State.ctx_ask, State.ctx_touchSpan]
  · rw [State.ctx_touchSpan]

/-- The next element of a stream is fetched ahead. -/
theorem exec_streamRefill {s : State} {a : Agent} {r : Fin 8} {f : Fetched} (empty : (s.ctx a).bufs = []) (fresh : (s.ctx a).arch.taken = [])
    {t : Stream} (own : t = (s.ctx a).stream r.val) (bound : t.bound = true) (more : t.done = false) (moving : s.moving a = true)
    (runs : (s.ctx a).run = 0) (here : s.engineParked a (.stream r.val) = false)
    (opened : ∀ loc, s.resolve a .read t.addr = .ok loc → s.gateShut a loc = false)
    (element : (if r.val < 4 then s.streamX a t else s.streamV a t) = .ok f) :
    exec (.streamRefill a r) s =
      .next ((s.refilled a t.addr (t.span (decide (4 ≤ r.val)))).modCtx a fun c => { c with bufs := [(r.val, [f])] }) := by
  subst own
  have gate : (match s.resolve a .read ((s.ctx a).stream r.val).addr with | .ok loc => s.gateShut a loc | _ => false) = false := by
    split
    next loc h => exact opened loc h
    next => rfl
  show execStreamRefill a r s = _
  simp only [execStreamRefill, empty, fresh, Map.get, Nat.sub_self, Stream.ahead, bound, more, moving, runs, here, element, List.length_nil,
    Bool.not_true, Bool.or_self, Bool.false_or, bne_self_eq_false, decide_false, Nat.le_zero_eq, OfNat.ofNat_ne_zero]
  refine congrArg _ ((if_neg (ne_true_of_eq_false gate)).trans ?_)
  show (s.refilled a ((s.ctx a).stream r.val).addr _).modCtx a (fun c => { c with bufs := Map.set c.bufs r.val ([] ++ [f]) }) = _
  simp only [State.modCtx, State.ctx_refilled, empty, Map.set, List.nil_append]

/-! ### Collectives (R283) -/

theorem State.modRegion_congr {s : State} {rid : BitVec 16} {r : Region} (region : s.region? rid = some r) {f g : Region → Region}
    (same : f r = g r) : s.modRegion rid f = s.modRegion rid g := by
  simp only [State.modRegion, region, same]

section
variable {s : State} {rid : Nat} {r : Region} {c : Coll} (region : s.region? (BitVec.ofNat 16 rid) = some r) (one : r.colls = [c])
include region one

/-- A collective with its P joins starts, or ends with status 2 where they make none. -/
theorem exec_collectiveStart {j : CollJoin} {js : List CollJoin} (joins : c.joins = j :: js) (waits : c.started = false)
    (full : j.cmd.ranks.toNat ≤ c.joins.length) :
    exec (.collectiveStart rid c.tag) s = .next (s.modRegion (BitVec.ofNat 16 rid) fun q => { q with colls := [{ c with
      started := true, joins := if c.sound then c.joins else c.joins.map fun j => { j with ended := some (2, 0) } }] }) := by
  have arrived : c.full = true := by
    rw [joins] at full
    rw [Coll.full, joins]
    exact decide_eq_true full
  refine congrArg _ (State.modRegion_congr region ?_)
  simp only [one, modFirst, BEq.rfl, waits, arrived, Bool.not_false, Bool.and_self, if_true]

/-- The element at which a collective of one rank was parked is performed. -/
theorem exec_collectiveElement_parked {j : CollJoin} {k : Nat} (joins : c.joins = [j]) (started : c.started = true)
    (goes : j.isOver = false) (parked : c.parked = some (j.cmd.rank.toNat, k)) (here : s.collParked r c.tag = false)
    (moving : s.moving j.who = true) :
    exec (.collectiveElement rid c.tag) s = .next (s.collAt (BitVec.ofNat 16 rid)
      (fun x => x.tag == c.tag && x.started && x.joins.any fun j => !j.isOver) c j k) := by
  show execCollectiveElement rid c.tag s = _
  simp only [execCollectiveElement, region, one, joins, started, parked, here, List.find?_cons, List.filter_cons, List.filter_nil, goes,
    List.any_cons, BEq.rfl, Bool.not_false, Bool.true_or, Bool.and_self, Option.bind_some, Option.map_some, Bool.false_eq_true, if_false,
    if_true, moving]

/-- A collective that is not parked performs an element, free among those left, of a rank that is free among the open ones. -/
theorem exec_collectiveElement_free (started : c.started = true) (left : c.joins.any (fun j => !j.isOver) = true)
    (moving : ∀ j ∈ c.joins, s.moving j.who = true) (parked : c.parked = none) (here : s.collParked r c.tag = false) :
    ∃ j ∈ c.joins, j.isOver = false ∧ exec (.collectiveElement rid c.tag) s = .next (s.tick.collAt (BitVec.ofNat 16 rid)
      (fun x => x.tag == c.tag && x.started && x.joins.any fun j => !j.isOver) c j
      (freePick s.tick (collOutputs j.op j.cmd) j.written)) := by
  have some' : 0 < (c.joins.filter fun j => !j.isOver).length := by
    obtain ⟨j, own, goes⟩ := List.any_eq_true.1 left
    exact List.length_pos_of_mem (List.mem_filter.2 ⟨own, goes⟩)
  have pick := (freePick_left s (n := (c.joins.filter fun j => !j.isOver).length) List.Pairwise.nil some').1
  obtain ⟨own, goes⟩ := List.mem_filter.1 (List.getElem_mem pick)
  refine ⟨_, own, by rwa [Bool.not_eq_true'] at goes, ?_⟩
  show execCollectiveElement rid c.tag s = _
  simp only [execCollectiveElement, region, one, started, left, parked, here, List.find?_cons, BEq.rfl, Bool.and_self, Option.bind_none,
    Bool.false_eq_true, if_false, if_true, List.getElem?_eq_getElem pick, moving _ own]

/-- A rank that is over posts its completion; a collective whose ranks have all posted is gone (R281, R283). -/
theorem exec_collectiveCompletion {j : CollJoin} (joins : c.joins = [j]) (started : c.started = true) (ended : j.isOver = true)
    (due : j.posted = false) (moving : s.moving j.who = true) {payload : Word}
    (pays : payload = match j.ended with
      | some (st, va) => engPayload st va.toNat
      | none => engPayload 0 (collBytes j.cmd.ty * collOutputs j.op j.cmd)) :
    exec (.collectiveCompletion rid c.tag j.cmd.rank.toNat) s =
      .next ((s.modRegion (BitVec.ofNat 16 rid) fun q => { q with colls := [] }).completeFor j.who c.tag payload) := by
  subst pays
  show execCollectiveCompletion rid c.tag j.cmd.rank.toNat s = _
  simp only [execCollectiveCompletion, region, one, joins, started, ended, due, moving, List.find?_cons, List.any_cons, BEq.rfl,
    Bool.not_false, Bool.and_self, Bool.true_or, Option.bind_some, if_true]
  refine congrArg _ (congrArg (fun u : State => u.completeFor j.who c.tag _) (State.modRegion_congr region ?_))
  simp [one, joins, modFirst, started, ended, due]

end

/-- Settles O47: copies, stream read-ahead and collectives, step by step. -/
theorem engineSteps : Obligations.EngineSteps := by
  refine ⟨fun s c p q j queue moving => ⟨exec_copyElement queue moving, fun ended => exec_copyCompletion queue moving ended rfl⟩,
    fun s c i j k src dst reads first bar outside writes clean readWaits writeWaits =>
      State.copyAt_element c i reads first bar outside writes clean readWaits writeWaits rfl,
    fun s n ps up _ more => freePick_left s up more,
    fun s a r f empty fresh bound more moving runs here opened element =>
      exec_streamRefill empty fresh rfl bound more moving runs here opened element,
    fun s rid r c region one => ⟨fun j js joins waits full sound => ?_, fun j js joins waits full unsound => ?_,
      fun j k => exec_collectiveElement_parked region one, exec_collectiveElement_free region one,
      fun j rank joins started own ended due moving => ?_⟩⟩
  · rw [exec_collectiveStart region one joins waits full, if_pos sound]
  · rw [exec_collectiveStart region one joins waits full, if_neg (ne_true_of_eq_false unsound)]
  · subst own
    exact exec_collectiveCompletion region one joins started ended due moving rfl

end Sys2Proof.Machine
end

section
/-! # Helpers, gangs, liveness and `yield` (R13, R71, R292, R304 to R309) -/

namespace Sys2Proof.Machine

open Sys2Proof

/-! ### How a helper begins (R13, R304) -/

section
variable {c : Ctx} (unbound : c.arch.streams = [])
include unbound

/-- Where no stream is bound, no register is in stream mode. -/
theorem Ctx.bound?_of_unbound (k : RKind) (r : Nat) : c.bound? k r = none := by
  rw [Ctx.bound?]
  split
  next j _ =>
    rw [Ctx.stream, unbound]
    rfl
  next => rfl

theorem Ctx.x_of_unbound {r : Nat} (pos : r ≠ 0) : c.x r = if c.isLive r then Map.get 0 c.arch.xs r else 0 := by
  rw [Ctx.x, if_neg pos, Ctx.bound?_of_unbound unbound]

theorem Ctx.v_of_unbound (r : Nat) : c.v r = c.vRaw r := by
  rw [Ctx.v, Ctx.bound?_of_unbound unbound]
  rfl

end

/-- The registers with which a helper begins (R240, R304). -/
def Ctx.begun (pc x1 : Word) (deleg : BitVec 32) (o : Origin) : Ctx := ({ Ctx.start pc deleg with origin := o } : Ctx).setX 1 x1

section
variable (pc x1 : Word) (deleg : BitVec 32) (o : Origin)

theorem Ctx.begun_live : (Ctx.begun pc x1 deleg o).arch.live = BitVec.allOnes 64 := by
  show BitVec.allOnes 64 ||| 1#64 <<< 1 = _
  decide

theorem Ctx.begun_x (r : Nat) : (Ctx.begun pc x1 deleg o).x r = if r = 1 then x1 else 0 := by
  by_cases zero : r = 0
  · rw [if_neg (by omega), zero]
    rfl
  rw [Ctx.x_of_unbound rfl zero]
  by_cases one : r = 1
  · rw [one, if_pos rfl]
    exact if_pos (by rw [Ctx.isLive, Ctx.begun_live]; decide)
  · have cleared : Map.get 0 (Ctx.begun pc x1 deleg o).arch.xs r = 0 := Map.get_set_ne 0 [] x1 (Ne.symm one)
    rw [cleared, ite_self, if_neg one]

theorem Ctx.begun_v (r j : Nat) : lane ((Ctx.begun pc x1 deleg o).v r) j = 0 := by
  have zero : (Ctx.begun pc x1 deleg o).vRaw r = [] := (if_congr Iff.rfl rfl rfl).trans (ite_self _)
  rw [Ctx.v_of_unbound rfl, zero]
  rfl

theorem Ctx.begun_status : (Ctx.begun pc x1 deleg o).status = BitVec.ofNat 64 (deleg.toNat * 2 ^ 32) := by
  have deleg' : (Ctx.begun pc x1 deleg o).deleg = deleg := rfl
  have pending : (Ctx.begun pc x1 deleg o).npend = 0 := rfl
  have run : (Ctx.begun pc x1 deleg o).run = 0 := rfl
  have nested : (Ctx.begun pc x1 deleg o).nested = false := rfl
  have intrap : (Ctx.begun pc x1 deleg o).intrap = false := rfl
  rw [Ctx.status, deleg', pending, run, nested, intrap]
  simp [at', bit']

theorem Ctx.begun_loopc : (Ctx.begun pc x1 deleg o).loopc = 0 := by
  have active : (Ctx.begun pc x1 deleg o).arch.loopActive = false := rfl
  have index : (Ctx.begun pc x1 deleg o).arch.loopIndex = 0 := rfl
  have len : (Ctx.begun pc x1 deleg o).arch.loopLen = 0 := rfl
  have left : (Ctx.begun pc x1 deleg o).arch.loopLeft = 0 := rfl
  rw [Ctx.loopc, active, index, len, left]
  decide

theorem State.ctx_startHelper (s : State) (core h : Nat) :
    (s.startHelper core h pc x1 deleg o).ctx (ctxOf core h) = Ctx.begun pc x1 deleg o := by
  rw [State.startHelper, State.ctx_modCore, State.ctx_setCtx_self, Ctx.begun]

theorem State.order_startHelper (s : State) (core h : Nat) :
    ((s.startHelper core h pc x1 deleg o).core core).order = (s.core core).order ++ [h] := by
  rw [State.startHelper, State.core_modCore_self]
  rfl

end

/-! ### `hstart` and `hend` (R304, R305) -/

section
variable {n k h : Nat} {d a : Reg} {off : W32} {g : PReg}

theorem denies_hstart (helper : h ≠ 0) : Denies (.hstart d a off g) (fun t => t.cur = .ctx n k h)
    (fun t => ⟨0x06, 1, (t.ctx t.cur).arch.pc, false⟩) := by
  obtain ⟨h, rfl⟩ := Nat.exists_eq_succ_of_ne_zero helper
  exact denies_of (fun _ => rfl) fun s cur => by rw [cur]; rfl

theorem denies_hend : Denies (.hend g) (fun t => t.cur = .ctx n k 0) (fun t => ⟨0x06, 1, (t.ctx t.cur).arch.pc, false⟩) :=
  denies_of (fun _ => rfl) fun s cur => by rw [cur]; rfl

theorem does_hstart_none : Does (.hstart d a off g) (fun t => t.cur = .ctx n k 0 ∧ t.freeSlot (coreId n k) = none) id
    (fun _ => [.toX d.val (BitVec.allOnes 64)]) := by
  refine does_of (fun _ => rfl) fun t ⟨cur, full⟩ => ?_
  simp only [cur, full]
  rfl

theorem does_hstart : Does (.hstart d a off g) (fun t => t.cur = .ctx n k 0 ∧ t.freeSlot (coreId n k) = some h ∧
      t.placeFree (coreId n k) = true ∧ t.performed t.cur false = true)
    (fun t => (t.reserve (coreId n k)).startHelper (coreId n k) h ((t.ctx t.cur).arch.pc + BitVec.ofInt 64 (4 * off.toInt)) (t.reads a)
      (t.ctx t.cur).deleg .hstart)
    (fun _ => [.toX d.val (BitVec.ofNat 64 h)]) := by
  refine does_of (fun _ => rfl) fun t ⟨cur, free, place, quiet⟩ => ?_
  rw [cur] at quiet
  simp only [← offsetFrom_signExtend _ off (by decide), State.reads, cur, free, place, quiet, Bool.not_true, Bool.false_eq_true, if_false]
  rfl

/-- The waits of an `hend` are over. -/
theorem State.hendDone_iff (t : State) (a : Agent) : t.hendDone a = true ↔
    (t.ctx a).arch.pend.all Pending.done = true ∧ t.performed a false = true ∧ t.noSend a = true := by
  have whole : (!(t.ctx a).incomplete) = (t.ctx a).arch.pend.all Pending.done := by
    rw [Ctx.incomplete, List.not_any_eq_all_not]
    simp only [Bool.not_not]
  rw [State.hendDone, whole, Bool.and_eq_true, Bool.and_eq_true, and_assoc]

theorem leaves_hend_ended {P : State → Prop} (ended : ∀ t, P t → t.cur = .ctx n k h ∧
      (t.modCtx t.cur Ctx.closeWindows).hendDone t.cur = true) :
    Leaves (.hend g) P (fun t => ((t.modCtx t.cur Ctx.closeWindows).retireCtx t.cur).postReserved (coreId n k)
      ⟨0, msgHeader ((t.modCtx t.cur Ctx.closeWindows).cidOf (coreId n k)) h 3 0, BitVec.ofNat 64 (h % 16)⟩) := by
  refine leaves_of (fun _ => rfl) fun t ht => ?_
  obtain ⟨cur, over'⟩ := ended t ht
  have payload : endPayload 0 h = BitVec.ofNat 64 (h % 16) := by simp [endPayload, at']
  refine (if_pos over').trans ?_
  simp only [State.modCtx_cur, State.finishHend, cur, Agent.core?, Agent.tid, payload]

theorem leaves_hend_waits {P : State → Prop} (waits : ∀ t, P t → (t.modCtx t.cur Ctx.closeWindows).hendDone t.cur = false) :
    Leaves (.hend g) P (fun t => (t.modCtx t.cur Ctx.closeWindows).modCtx t.cur fun c => { c with park := some .hend }) := by
  refine leaves_of_wait (fun _ => rfl) fun t ht => ?_
  simp only [State.modCtx_cur, waits t ht, Bool.false_eq_true, if_false, State.park]

end

/-! ### The masks of gangs (R306) -/

/-- An ascending list that is as long as the run from its first to its last element is that run. -/
theorem mem_of_run {l : List Nat} (up : l.Pairwise (· < ·)) {lo hi : Nat} (low : ∀ x ∈ l, lo ≤ x) (high : ∀ x ∈ l, x ≤ hi)
    (full : hi - lo + 1 = l.length) (some' : lo ≤ hi) (j : Nat) : j ∈ l ↔ lo ≤ j ∧ j ≤ hi := by
  have sub : l.toFinset ⊆ Finset.Icc lo hi := fun x hx =>
    Finset.mem_Icc.2 ⟨low x (List.mem_toFinset.1 hx), high x (List.mem_toFinset.1 hx)⟩
  have card : (Finset.Icc lo hi).card ≤ l.toFinset.card := by
    rw [Nat.card_Icc, List.toFinset_card_of_nodup (up.imp Nat.ne_of_lt)]
    omega
  rw [← List.mem_toFinset, Finset.eq_of_subset_of_card_le sub card, Finset.mem_Icc]

theorem head_le_of_up {l : List Nat} (up : l.Pairwise (· < ·)) (x : Nat) (hx : x ∈ l) : l.headD 0 ≤ x := by
  cases l with
  | nil => exact absurd hx List.not_mem_nil
  | cons a l =>
    rcases List.mem_cons.1 hx with rfl | h
    · exact Nat.le_refl _
    · exact Nat.le_of_lt ((List.pairwise_cons.1 up).1 x h)

theorem le_last_of_up {l : List Nat} (up : l.Pairwise (· < ·)) (x : Nat) (hx : x ∈ l) : x ≤ l.getLastD 0 := by
  induction l generalizing x with
  | nil => exact absurd hx List.not_mem_nil
  | cons a l ih =>
    obtain ⟨first, up⟩ := List.pairwise_cons.1 up
    cases l with
    | nil => exact Nat.le_of_eq (List.mem_singleton.1 hx)
    | cons b l =>
      have rest (y : Nat) (hy : y ∈ b :: l) : y ≤ l.getLastD b := by
        rw [← List.getLastD_cons]
        exact ih up y hy
      rw [List.getLastD_cons, List.getLastD_cons]
      rcases List.mem_cons.1 hx with rfl | h
      · exact (Nat.le_of_lt (first b List.mem_cons_self)).trans (rest b List.mem_cons_self)
      · exact rest x h

theorem mem_setBits {m : BitVec 8} {j : Nat} : j ∈ setBits m ↔ m.getLsbD j = true := by
  rw [setBits, List.mem_filter, List.mem_range]
  exact ⟨And.right, fun h => ⟨BitVec.lt_of_getLsbD h, h⟩⟩

theorem setBits_up (m : BitVec 8) : (setBits m).Pairwise (· < ·) := List.pairwise_lt_range.filter _

/-- A mask names a run of two or more cores. -/
def IsRun (m : BitVec 8) : Prop := ∃ lo hi, lo < hi ∧ hi < 8 ∧ ∀ j, m.getLsbD j = (decide (lo ≤ j) && decide (j ≤ hi))

theorem isRun_iff (m : BitVec 8) : IsRun m ↔
    2 ≤ (setBits m).length ∧ (setBits m).getLastD 0 - (setBits m).headD 0 + 1 = (setBits m).length := by
  constructor
  · rintro ⟨lo, hi, lt, small, run⟩
    have runs : ∀ lo hi : Fin 8, lo < hi → let b := (List.range 8).filter fun j => decide (lo.val ≤ j) && decide (j ≤ hi.val)
        2 ≤ b.length ∧ b.getLastD 0 - b.headD 0 + 1 = b.length := by decide
    rw [setBits, funext run]
    exact runs ⟨lo, by omega⟩ ⟨hi, small⟩ lt
  · rintro ⟨two, full⟩
    have up := setBits_up m
    obtain ⟨a, b, l, list⟩ : ∃ a b l, setBits m = a :: b :: l := by
      match setBits m, two with
      | a :: b :: l, _ => exact ⟨a, b, l, rfl⟩
    have first := head_le_of_up up
    have last := le_last_of_up up
    have inner : (setBits m).headD 0 < (setBits m).getLastD 0 := by
      have next := last b (by rw [list]; simp)
      have step : a < b := (List.pairwise_cons.1 (list ▸ up)).1 b List.mem_cons_self
      have head : (setBits m).headD 0 = a := by rw [list]; rfl
      omega
    have mem := mem_of_run up first last full (Nat.le_of_lt inner)
    have top : (setBits m).getLastD 0 < 8 := BitVec.lt_of_getLsbD (mem_setBits.1 ((mem _).2 ⟨Nat.le_of_lt inner, Nat.le_refl _⟩))
    refine ⟨_, _, inner, top, fun j => ?_⟩
    rw [Bool.eq_iff_iff, ← mem_setBits, mem j, Bool.and_eq_true, decide_eq_true_eq, decide_eq_true_eq]

theorem gangMask_iff (m : BitVec 8) (own : Nat) : gangMask m own = true ↔ m.getLsbD own = true ∧ IsRun m := by
  rw [isRun_iff, gangMask, Bool.and_eq_true, Bool.and_eq_true, decide_eq_true_eq, beq_iff_eq, and_assoc]

/-! ### `gang` (R306) -/

/-- The other control contexts that a mask names. -/
def gangPeers (n k : Nat) (m : BitVec 8) : List Agent :=
  ((List.range 8).filter fun j => m.getLsbD j && j != k).map fun j => ctxOf (coreId n j) 0

/-- The mask with which a context waits for its gang. -/
def State.gangWait (s : State) (b : Agent) : Option (BitVec 8) := match (s.ctx b).park with | some (.gang m _ _) => some m | _ => none

/-- The peers that wait with another mask. -/
def State.gangClash (s : State) (n k : Nat) (m : BitVec 8) : List Agent :=
  (gangPeers n k m).filter fun b => match s.gangWait b with | some x => x != m | none => false

/-- `gang` traps together with the cores that it clashes with. -/
def State.gangTrap (s : State) (a : Agent) (clash : List Agent) : State :=
  (clash.foldl (fun u b => u.deliver b ⟨0x10, 0xFF, 0, false⟩ (u.ctx b).arch.pc) s).deliver a ⟨0x10, 0xFF, 0, false⟩ (s.ctx a).arch.pc

theorem setBits_peers (m : BitVec 8) (n k : Nat) :
    ((setBits m).filter (· != k)).map (fun j => ctxOf (coreId n j) 0) = gangPeers n k m := by
  rw [setBits, List.filter_filter, gangPeers]
  simp only [Bool.and_comm]

/-- What `gang` does, by its mask and by the masks with which its peers wait (R306). -/
theorem exec_gang {s t : State} {a : Reg} {g : PReg} {n k : Nat} (hs : s.performs (.gang a g) = true)
    (before : s.before (.gang a g) = t) (cur : t.cur = .ctx n k 0) {m : BitVec 8} (mask : m = (t.reads a).setWidth 8) :
    exec (.gang a g) s = .next (s.conclude (.gang a g)
      (if (t.core (coreId n k)).gang.isSome || !gangMask m k then .trap ⟨0x10, 0xFF, 0, false⟩
      else if !(t.gangClash n k m).isEmpty then
        if (t.cur :: t.gangClash n k m).any t.amoOut then .wait (t.stall t.cur) else .leaves (t.gangTrap t.cur (t.gangClash n k m))
      else if (gangPeers n k m).all (fun b => t.gangWait b == some m) then .leaves (t.formGang n m (.gang a g))
      else .wait (t.park t.cur (.gang m a g)))) := by
  subst before mask
  refine (issue_performs hs _).trans (congrArg (fun r => Host.Outcome.next (s.conclude _ r)) ?_)
  have peers := setBits_peers ((((s.before (.gang a g)).ctx (.ctx n k 0)).x a.val).setWidth 8) n k
  simp only [cur, State.reads, peers]
  rfl

theorem State.gangClash_eq (t : State) (n k : Nat) (m : BitVec 8) : t.gangClash n k m =
    (gangPeers n k m).filter fun b => match (t.ctx b).park with | some (.gang x _ _) => x != m | _ => false := by
  refine List.filter_congr fun b _ => ?_
  rw [State.gangWait]
  obtain ⟨p, park⟩ : ∃ p, (t.ctx b).park = p := ⟨_, rfl⟩
  rw [park]
  cases p with
  | none => rfl
  | some p => cases p <;> rfl

theorem gangClash_eq_nil {t : State} {n k : Nat} {m : BitVec 8} (same : ∀ b ∈ gangPeers n k m, ∀ x, t.gangWait b = some x → x = m) :
    t.gangClash n k m = [] := by
  refine List.filter_eq_nil_iff.2 fun b hb => ?_
  split
  next x hx => simp [same b hb x hx]
  next => simp

/-- Where no peer waits with another mask, `gang` forms the gang if every peer waits with its mask, and parks if not. -/
theorem exec_gang_alike {s t : State} {a : Reg} {g : PReg} {n k : Nat} (hs : s.performs (.gang a g) = true)
    (before : s.before (.gang a g) = t) (cur : t.cur = .ctx n k 0) {m : BitVec 8} (mask : m = (t.reads a).setWidth 8)
    (free : (t.core (coreId n k)).gang = none) (run : gangMask m k = true)
    (same : ∀ b ∈ gangPeers n k m, ∀ x, t.gangWait b = some x → x = m) :
    exec (.gang a g) s = .next (s.conclude (.gang a g)
      (if (gangPeers n k m).all (fun b => t.gangWait b == some m) then .leaves (t.formGang n m (.gang a g))
      else .wait (t.park t.cur (.gang m a g)))) := by
  rw [exec_gang hs before cur mask, free, run, gangClash_eq_nil same]
  rfl

section
variable {t : State} {n k : Nat} {m : BitVec 8}

/-- The masks with which the peers of a mask wait. -/
def State.gangWaits (t : State) (n k : Nat) (m : BitVec 8) : List (Option (BitVec 8)) :=
  ((List.range 8).filter fun j => m.getLsbD j && j != k).map fun j => t.gangWait (ctxOf (coreId n j) 0)

theorem State.gangWaits_eq : t.gangWaits n k m = (gangPeers n k m).map t.gangWait := by
  rw [State.gangWaits, gangPeers, List.map_map]
  rfl

theorem gangWait_mem {b : Agent} (hb : b ∈ gangPeers n k m) : t.gangWait b ∈ t.gangWaits n k m := by
  rw [State.gangWaits_eq]
  exact List.mem_map_of_mem hb

theorem exists_of_gangWait {q : Option (BitVec 8)} (hq : q ∈ t.gangWaits n k m) : ∃ b ∈ gangPeers n k m, t.gangWait b = q := by
  rw [State.gangWaits_eq] at hq
  exact List.mem_map.1 hq

end

/-! ### `split`, `live` and `yield` (R71, R292, R307 to R309) -/

theorem exec_split {s t : State} {g : PReg} {n k : Nat} (hs : s.performs (.split g) = true) (before : s.before (.split g) = t)
    (cur : t.cur = .ctx n k 0) : exec (.split g) s = .next (if (t.core (coreId n k)).gang.isSome ∨ t.together
      then (t.leaveGang s.cur).leave s.cur (.split g) ((s.ctxAt (.split g)).arch.pc + 4) [] else s.completed (.split g) []) := by
  subst before
  have own : s.cur = .ctx n k 0 := (s.before_cur _).symm.trans cur
  refine (issue_performs hs _).trans (congrArg Host.Outcome.next ?_)
  simp only [cur, Bool.or_eq_true]
  split
  · rw [State.conclude, own, State.ctxAt, own]
  · rfl

theorem exec_live {s : State} {a : Reg} {g : PReg} (hs : s.performs (.live a g) = true) : exec (.live a g) s =
    .next ((s.before (.live a g)).retireLive s.cur (.live a g) ((s.ctxAt (.live a g)).x a.val) []) := by
  refine (issue_performs hs _).trans (congrArg Host.Outcome.next ?_)
  rw [State.conclude, State.before_cur]
  rfl

section
variable (c : Ctx) (w : Word)

theorem Ctx.setLive_dead {i : Nat} (pos : i ≠ 0) (dead : w.getLsbD i = false) : (c.setLive w).isLive i = false := by
  show (w ||| 1#64).getLsbD i = false
  rw [BitVec.getLsbD_or, dead, BitVec.getLsbD_one, Bool.false_or]
  simp [pos]

theorem Ctx.x_setLive_dead {r : Nat} (pos : r ≠ 0) (plain : (c.setLive w).bound? .x r = none) (dead : w.getLsbD r = false) :
    (c.setLive w).x r = 0 := by
  rw [Ctx.x, if_neg pos, plain, c.setLive_dead w pos dead]
  rfl

theorem Ctx.v_setLive_dead {r : Nat} (plain : (c.setLive w).bound? .v r = none) (dead : w.getLsbD (32 + r) = false) (j : Nat) :
    lane ((c.setLive w).v r) j = 0 := by
  have raw : (c.setLive w).v r = (c.setLive w).vRaw r := by
    rw [Ctx.v, plain]
    rfl
  rw [raw, Ctx.vRaw, c.setLive_dead w (by omega) dead]
  rfl

end

/-- `yield` outside a gang changes the issue order alone, by the core's policy. -/
theorem does_yield {g : PReg} {n k h : Nat} : Does (.yield g)
    (fun t => t.cur = .ctx n k h ∧ (h = 0 → (t.core (coreId n k)).gang = none))
    (fun t => t.modCore (coreId n k) fun x => if x.policy then { x with passes := addLines x.passes [h] }
      else { x with order := x.order.filter (· != h) ++ [h], current := none }) := by
  refine does_of (fun _ => rfl) fun t ⟨cur, free⟩ => ?_
  have alone : (decide (h = 0) && (t.core (coreId n k)).gang.isSome) = false := by
    by_cases own : h = 0
    · rw [free own]
      exact Bool.and_false _
    · rw [decide_eq_false own]
      rfl
  simp only [cur]
  exact if_neg (ne_true_of_eq_false alone)

/-- Where what a form does is the same state written otherwise. -/
theorem Does.congr {i : Instr} {cond cond' : State → Prop} {f f' : State → State} (does : Does i cond f)
    (implies : ∀ t, cond' t → cond t ∧ f t = f' t) : Does i cond' f' := fun s hs h => by
  obtain ⟨holds, same⟩ := implies _ h
  rw [does s hs holds, same]

/-- Settles O35: `hstart` and `hend` by their kind of context, a helper's registers, and the gang forms by their masks. -/
theorem helperGangForms : Obligations.HelperGangForms := by
  refine ⟨fun d a off g n k => ⟨does_hstart_none, fun h => does_hstart, fun h helper => denies_hstart helper, denies_hend,
      fun h _ => ⟨leaves_hend_ended fun t ⟨cur, ended⟩ => ⟨cur, (State.hendDone_iff _ _).2 ended⟩,
        leaves_hend_waits fun t ⟨_, waits⟩ => Bool.eq_false_iff.2 fun h => waits ((State.hendDone_iff _ _).1 h)⟩⟩,
    fun s core h pc x1 deleg o _ _ => ?_, fun a g n k => ⟨?_, ?_, ?_, ?_, fun s hs ⟨cur, _⟩ => exec_split hs rfl cur,
      fun s hs => exec_live hs, fun w c => ⟨rfl, fun r pos _ => c.x_setLive_dead w pos, fun r j _ plain dead =>
        c.v_setLive_dead w plain dead j⟩, fun h => ⟨?_, ?_⟩⟩⟩
  · intro u c
    have begun : c = Ctx.begun pc x1 deleg o := State.ctx_startHelper ..
    rw [begun]
    exact ⟨rfl, (Ctx.begun_x ..).trans (if_pos rfl), fun r other => (Ctx.begun_x ..).trans (if_neg other), Ctx.begun_v pc x1 deleg o,
      fun r other => if_neg other, Ctx.begun_live .., Ctx.begun_loopc .., rfl, Ctx.begun_status .., State.order_startHelper ..,
      State.startHelper_mem ..⟩
  · rintro s hs ⟨⟨cur, _⟩, unsound⟩
    rw [exec_gang hs rfl cur rfl, if_pos]
    · rfl
    · by_contra fine
      rw [Bool.not_eq_true, Bool.or_eq_false_iff, Option.isSome_eq_false_iff, Option.isNone_iff_eq_none, Bool.not_eq_false',
        gangMask_iff] at fine
      exact unsound fine
  · rintro s hs ⟨⟨cur, _⟩, ⟨free, own, run⟩, all⟩
    have alike (b : Agent) (hb : b ∈ gangPeers n k _) : (s.before (.gang a g)).gangWait b = some _ := all _ (gangWait_mem hb)
    rw [exec_gang_alike hs rfl cur rfl free ((gangMask_iff _ _).2 ⟨own, run⟩)
      fun b hb x hx => (Option.some.inj ((alike b hb).symm.trans hx)).symm, if_pos]
    · rfl
    · exact List.all_eq_true.2 fun b hb => beq_iff_eq.2 (alike b hb)
  · rintro s hs ⟨⟨cur, _⟩, ⟨free, own, run⟩, same, q, hq, waits⟩
    rw [exec_gang_alike hs rfl cur rfl free ((gangMask_iff _ _).2 ⟨own, run⟩)
      fun b hb x hx => same x (hx ▸ gangWait_mem hb), if_neg]
    · rfl
    · intro all
      obtain ⟨b, hb, eq⟩ := exists_of_gangWait hq
      exact waits (eq ▸ beq_iff_eq.1 (List.all_eq_true.1 all b hb))
  · rintro clash s hs ⟨⟨cur, _⟩, ⟨free, own, run⟩, some', quiet⟩
    have eq : (s.before (.gang a g)).gangClash n k (((s.before (.gang a g)).reads a).setWidth 8) = clash (s.before (.gang a g)) :=
      State.gangClash_eq ..
    rw [exec_gang hs rfl cur rfl, free, (gangMask_iff _ _).2 ⟨own, run⟩, if_neg (by decide), eq,
      if_pos (by rwa [Bool.not_eq_true', List.isEmpty_eq_false_iff]), quiet]
    rfl
  · exact does_yield.congr fun t ⟨cur, free, plain⟩ => ⟨⟨cur, free⟩, by simp only [State.modCore, plain]; rfl⟩
  · exact does_yield.congr fun t ⟨cur, free, plain⟩ => ⟨⟨cur, free⟩, by simp only [State.modCore, plain]; rfl⟩

end Sys2Proof.Machine
end

section
/-! # Translation: the forms of a quoin, the checks of an entry, and the answers to misses (R318 to R327, R331, R385) -/

namespace Sys2Proof.Machine

open Sys2Proof

/-! ### Entries (R319, R325) -/

/-- Bytes of the page that an entry word names (R319). -/
def pageSize (e : Word) : Nat := 2 ^ (match fld e 62 2 with | 0 => 12 | 1 => 16 | 2 => 21 | _ => 30 : Nat)

theorem pageSize_pos (e : Word) : 0 < pageSize e := Nat.two_pow_pos _

section
variable (o : BitVec 16) (va e : Word)

theorem entryFor_size : (entryFor o va e).size = pageSize e := rfl

theorem toNat_entryFor_base : (entryFor o va e).base.toNat = va.toNat / pageSize e * pageSize e :=
  (BitVec.toNat_ofNat ..).trans (Nat.mod_eq_of_lt (Nat.lt_of_le_of_lt (Nat.div_mul_le_self ..) va.isLt))

theorem entryFor_covers (w : Word) : (entryFor o va e).covers w = decide (w.toNat / pageSize e = va.toNat / pageSize e) := by
  show (w.toNat / pageSize e == (entryFor o va e).base.toNat / pageSize e) = _
  rw [toNat_entryFor_base, Nat.mul_div_cancel _ (pageSize_pos e)]
  rfl

end

section
variable {va e : Word} (word : Word)

/-- An address that an entry may map: below the top of the address space, and outside the aperture. -/
def Placed (va : Word) : Prop := va.toNat < 2 ^ 57 ∧ inAperture va = false

/-- An entry word whose fields are sound (R325). -/
def Formed (e : Word) : Prop := fld e 52 5 = 0 ∧ fld e 0 12 = 0 ∧ (fld e 60 2 = 3 → fld e 12 40 * 4096 = 0 ∧ fld e 57 3 = 0) ∧
  (fld e 60 2 = 0 → fld e 12 40 * 4096 < 640 * 2 ^ 30)

theorem placed_iff : (decide (va.toNat ≥ 2 ^ 57) || inAperture va) = false ↔ Placed va := by
  rw [Bool.or_eq_false_iff, decide_eq_false_iff_not, Nat.not_le, Placed]

theorem formed_iff : (fld e 52 5 != 0 || fld e 0 12 != 0 || (fld e 60 2 == 3 && (fld e 12 40 * 4096 != 0 || fld e 57 3 != 0)) ||
    (fld e 60 2 == 0 && decide (640 * 2 ^ 30 ≤ fld e 12 40 * 4096))) = false ↔ Formed e := by
  simp only [Bool.or_eq_false_iff, Bool.and_eq_false_imp, bne_eq_false_iff_eq, beq_iff_eq, decide_eq_false_iff_not, Nat.not_le, and_assoc,
    Formed]

/-- The checks of `tlbw` in their order (R325). -/
theorem tlbwTrap_eq (va e word : Word) : tlbwTrap va e word =
    if (decide (va.toNat ≥ 2 ^ 57) || inAperture va) = true then some ⟨0x06, 3, va, false⟩
    else if (fld e 52 5 != 0 || fld e 0 12 != 0 || (fld e 60 2 == 3 && (fld e 12 40 * 4096 != 0 || fld e 57 3 != 0)) ||
      (fld e 60 2 == 0 && decide (640 * 2 ^ 30 ≤ fld e 12 40 * 4096))) = true then some ⟨0x02, 0, word, false⟩
    else if (fld e 60 2 != 3 && fld e 12 40 * 4096 % pageSize e != 0) = true then some ⟨0x01, 0, va, false⟩ else none := by
  rw [tlbwTrap, hbmSize]
  rfl

theorem tlbwTrap_unplaced (out : ¬Placed va) : tlbwTrap va e word = some ⟨0x06, 3, va, false⟩ := by
  rw [tlbwTrap_eq, if_pos]
  exact Bool.not_eq_false _ ▸ placed_iff.not.2 out

theorem tlbwTrap_unformed (placed : Placed va) (bad : ¬Formed e) : tlbwTrap va e word = some ⟨0x02, 0, word, false⟩ := by
  rw [tlbwTrap_eq, if_neg (ne_true_of_eq_false (placed_iff.2 placed)), if_pos]
  exact Bool.not_eq_false _ ▸ formed_iff.not.2 bad

theorem tlbwTrap_formed (placed : Placed va) (formed : Formed e) : tlbwTrap va e word =
    if fld e 60 2 ≠ 3 ∧ fld e 12 40 * 4096 % pageSize e ≠ 0 then some ⟨0x01, 0, va, false⟩ else none := by
  rw [tlbwTrap_eq, if_neg (ne_true_of_eq_false (placed_iff.2 placed)), if_neg (ne_true_of_eq_false (formed_iff.2 formed))]
  simp only [Bool.and_eq_true, bne_iff_ne]

end

/-! ### What a removal or an installation leaves as it is -/

theorem State.course_setWatches (s : State) (n : Nat) (ws : List (Nat × Watch)) (c : Nat) : (s.setWatches n ws).course c = s.course c := by
  rw [State.setWatches]
  split
  · rw [State.modRegion]
    split
    · rfl
    · rfl
  · split
    · rfl
    split
    · rfl
    · rfl

/-- A removal of entries from the TLBs of a course changes the course's and its cores'. -/
theorem State.dropEntries_eq (s : State) (c : Nat) (p : TlbEntry → Bool) : ∃ ks, s.dropEntries c p =
    { s.modCourse c (fun k => { k with tlb := k.tlb.filter fun e => !p e }) with cores := ks } :=
  State.foldl_modCore_eq (fun k => coreId c k) (fun _ x => { x with l1 := x.l1.filter fun e => !p e }) (List.range 8) _

theorem State.dropEntries_cur (s : State) (c : Nat) (p : TlbEntry → Bool) : (s.dropEntries c p).cur = s.cur := by
  obtain ⟨ks, eq⟩ := s.dropEntries_eq c p
  rw [eq]
  rfl

theorem State.course_dropEntries (s : State) (c : Nat) (p : TlbEntry → Bool) :
    (s.dropEntries c p).course c = { s.course c with tlb := (s.course c).tlb.filter fun e => !p e } := by
  obtain ⟨ks, eq⟩ := s.dropEntries_eq c p
  rw [eq]
  exact s.course_modCourse_self c fun k => { k with tlb := k.tlb.filter fun e => !p e }

theorem State.course_unmap (s : State) (owner : BitVec 16) (p : TlbEntry → Bool) (c : Nat) : (s.unmap owner p).course c = s.course c := rfl
theorem State.unmap_cur (s : State) (owner : BitVec 16) (p : TlbEntry → Bool) : (s.unmap owner p).cur = s.cur := rfl

/-- A removal of an owner's entries, with what the pages' watches and streams have. -/
theorem State.course_shootDown (s : State) (c : Nat) (p : TlbEntry → Bool) : (s.shootDown c p).course c =
    { s.course c with tlb := (s.course c).tlb.filter fun e => !(e.owner == s.ownerRid c && p e) } := by
  rw [State.shootDown, foldl_leaves (fun u : State => u.course c), foldl_leaves (fun u : State => u.course c), State.course_unmap,
    State.course_dropEntries]
  · exact fun u a => (apply_ite (fun u : State => u.course c) ..).trans (ite_self _)
  · exact fun u k => u.course_setWatches ..

theorem State.shootDown_cur (s : State) (c : Nat) (p : TlbEntry → Bool) : (s.shootDown c p).cur = s.cur := by
  rw [State.shootDown, foldl_cur, foldl_cur, State.unmap_cur, State.dropEntries_cur]
  · exact fun u a => (apply_ite State.cur ..).trans (ite_self _)
  · exact fun u k => State.latchWhere_cur ..

theorem State.beginTlbi_cur (s : State) (c : Nat) (p : TlbEntry → Bool) : (s.beginTlbi c p).cur = s.cur := s.shootDown_cur c p

theorem State.retryMisses_cur (s : State) (c : Nat) (p : Word → Bool) : (s.retryMisses c p).cur = s.cur := by
  refine foldl_cur (fun u a => ?_) _ _
  split <;> rfl

theorem State.course_retryMisses (s : State) (c : Nat) (p : Word → Bool) : ((s.retryMisses c p).course c).tlb = (s.course c).tlb := by
  rw [State.retryMisses, foldl_leaves (fun u : State => u.course c), State.course_modCourse_self]
  intro u a
  split <;> rfl

theorem State.engineMiss_cur (s : State) (a : Agent) (op : EngineOp) (va : Word) : (s.engineMiss a op va).cur = s.cur := by
  rw [State.engineMiss]
  split
  · exact (apply_ite State.cur ..).trans (ite_self _)
  · rfl

theorem State.retryEngine_cur (s : State) (m : Miss) : (s.retryEngine m).cur = s.cur := by
  rw [State.retryEngine]
  split
  · exact State.engineMiss_cur ..
  · rfl

theorem State.serveReplay_cur (s : State) (c : Nat) : (s.serveReplay c).cur = s.cur := by
  rw [State.serveReplay]
  split
  · rfl
  · exact foldl_cur (fun u m => u.retryEngine_cur m) ..

theorem State.beginReplay_cur (s : State) (c : Nat) : (s.beginReplay c).cur = s.cur := by
  rw [State.beginReplay, State.serveReplay_cur]
  exact s.retryMisses_cur c _

theorem State.course_grant (s : State) (rid pkey : BitVec 16) (va base size c : Nat) : (s.grant rid pkey va base size).course c = s.course c :=
  (apply_ite (fun u : State => u.course c) ..).trans (ite_self _)

/-- Where a course's TLB is full, its least recently used entry goes. -/
def State.makeRoom (s : State) (c : Nat) : State :=
  match (s.course c).tlb.getLast? with
  | some o => if 2048 ≤ (s.course c).tlb.length then s.dropEntries c fun e => e == o else s
  | none => s

/-- HBM that an entry maps for a region belongs to the region's partition. -/
def State.regrant (s : State) (t : TlbEntry) : State :=
  if t.owner != 0 && fld t.e 60 2 == 0 then
    match s.region? t.owner with
    | some r => s.grant t.owner r.pkey t.base.toNat t.frame t.size
    | none => s
  else s

theorem State.install_eq (s : State) (c : Nat) (t : TlbEntry) : s.install c t =
    ((((s.dropEntries c fun e => e.owner == t.owner && e.overlaps t).makeRoom c).modCourse c fun k =>
      { k with tlb := t :: k.tlb }).regrant t).retryMisses c t.covers := rfl

theorem State.tlb_makeRoom (s : State) (c : Nat) : ((s.makeRoom c).course c).tlb ⊆ (s.course c).tlb := by
  rw [State.makeRoom]
  split
  · split
    · rw [State.course_dropEntries]
      exact List.filter_subset_self _
    · exact List.Subset.refl _
  · exact List.Subset.refl _

theorem State.course_regrant (s : State) (t : TlbEntry) (c : Nat) : (s.regrant t).course c = s.course c := by
  rw [State.regrant]
  split
  · split
    · exact State.course_grant ..
    · rfl
  · rfl

/-- After an installation the TLB holds the new entry, and no other entry of its owner meets it. -/
theorem State.tlb_install (s : State) (c : Nat) (t : TlbEntry) : t ∈ ((s.install c t).course c).tlb ∧
    ∀ x ∈ ((s.install c t).course c).tlb, x.owner = t.owner → x.overlaps t = true → x = t := by
  have tlb : ((s.install c t).course c).tlb =
      t :: (((s.dropEntries c fun e => e.owner == t.owner && e.overlaps t).makeRoom c).course c).tlb := by
    rw [State.install_eq, State.course_retryMisses, State.course_regrant, State.course_modCourse_self]
  rw [tlb]
  refine ⟨List.mem_cons_self, fun x hx own meets => ?_⟩
  rcases List.mem_cons.1 hx with rfl | old
  · rfl
  · have kept := State.tlb_makeRoom _ c old
    rw [State.course_dropEntries] at kept
    have apart := (List.mem_filter.1 kept).2
    rw [own, meets, BEq.rfl] at apart
    cases apart

/-! ### The forms of a quoin (R325 to R327) -/

section
variable {a b : Reg} {g : PReg} {c : Nat}

/-- Every form of a quoin is denied at program level. -/
theorem denies_translation {i : Instr} (hi : i ∈ [Instr.tlbw a b g, .tlbi a g, .tlbiAll g, .replay g]) :
    Denies i (fun t => t.cur.program = true) (fun t => ⟨0x06, 1, (t.ctx t.cur).arch.pc, false⟩) := by
  simp only [List.mem_cons, List.not_mem_nil, or_false] at hi
  rcases hi with rfl | rfl | rfl | rfl
  · exact denies_of (fun _ => rfl) fun s program => by rw [program]; rfl
  · exact denies_of (fun _ => rfl) fun s program => by rw [program]; rfl
  · exact denies_of (fun _ => rfl) fun s program => by rw [program]; rfl
  · exact denies_of (fun _ => rfl) fun s program => by rw [program]; rfl

/-- Every form of a quoin does nothing in a course without an owner. -/
theorem does_translation_unowned {i : Instr} (hi : i ∈ [Instr.tlbw a b g, .tlbi a g, .tlbiAll g, .replay g]) :
    Does i (fun t => t.cur = .quoin c ∧ t.ownerRid c = 0) id := by
  simp only [List.mem_cons, List.not_mem_nil, or_false] at hi
  rcases hi with rfl | rfl | rfl | rfl
  · exact does_of (fun _ => rfl) fun t ⟨cur, free⟩ => by simp only [cur, Agent.course?, free, if_true]; rfl
  · exact does_of (fun _ => rfl) fun t ⟨cur, free⟩ => by simp only [doTlbi, cur, Agent.course?, free, if_true]; rfl
  · exact does_of (fun _ => rfl) fun t ⟨cur, free⟩ => by simp only [doTlbi, cur, Agent.course?, free, if_true]; rfl
  · exact does_of (fun _ => rfl) fun t ⟨cur, free⟩ => by simp only [cur, Agent.course?, free, if_true]; rfl

theorem does_tlbw : Does (.tlbw a b g)
    (fun t => (t.cur = .quoin c ∧ t.ownerRid c ≠ 0) ∧ tlbwTrap (t.reads a) (t.reads b) (Instr.tlbw a b g).word = none)
    (fun t => t.install c (entryFor (t.ownerRid c) (t.reads a) (t.reads b))) := by
  refine does_of (fun _ => rfl) fun t ⟨⟨cur, owned⟩, sound⟩ => ?_
  simp only [State.reads, cur] at sound ⊢
  simp only [Agent.course?, owned, sound, if_false]

theorem raises_tlbw {x : Trap} : Raises (.tlbw a b g)
    (fun t => (t.cur = .quoin c ∧ t.ownerRid c ≠ 0) ∧ tlbwTrap (t.reads a) (t.reads b) (Instr.tlbw a b g).word = some x)
    (fun _ => x) := by
  refine raises_of (fun _ => rfl) fun t ⟨⟨cur, owned⟩, unsound⟩ => ?_
  simp only [State.reads, cur] at unsound
  simp only [cur, Agent.course?, owned, unsound, if_false]

end

/-- The key of the partition that owns a course. -/
theorem State.beginTlbi_eq (t : State) (c : Nat) (p : TlbEntry → Bool) : t.beginTlbi c p = (t.shootDown c p).modCourse c fun k =>
    { k with
      shot := ((t.course c).tlb.filter fun e => e.owner == t.ownerRid c && p e).filterMap
        (t.reach (((t.ownerRegion c).map (·.pkey)).getD 0)) } := by
  rw [State.beginTlbi]
  cases t.ownerRegion c <;> rfl

/-- A course whose quoin performs a `tlbi`, which removes its entries once. -/
def State.shooting (t : State) (c : Nat) (p : TlbEntry → Bool) : State := if (t.course c).shot = [] then t.beginTlbi c p else t

theorem State.shooting_cur (t : State) (c : Nat) (p : TlbEntry → Bool) : (t.shooting c p).cur = t.cur := by
  rw [State.shooting]
  split
  · exact t.beginTlbi_cur c p
  · rfl

/-- What a `tlbi` does at a quoin of an owned course, by whether an access through a removed entry is outstanding (R326). -/
theorem doTlbi_owned {t : State} {c : Nat} (cur : t.cur = .quoin c) (owned : t.ownerRid c ≠ 0) {p : Word → TlbEntry → Bool}
    {a : Option Reg} {q : TlbEntry → Bool} (test : q = p (match a with | some r => t.reads r | none => 0)) :
    doTlbi p a t = if (t.shooting c q).shotBusy c = true then .wait ((t.shooting c q).stall t.cur)
      else .done ((t.shooting c q).modCourse c fun k => { k with shot := [] }) [] := by
  have same : (t.shooting c q).cur = .quoin c := (t.shooting_cur c q).trans cur
  rw [State.shooting] at same ⊢
  subst test
  simp only [State.reads, cur] at same ⊢
  cases a with
  | none =>
    simp only at same ⊢
    simp only [doTlbi, cur, Agent.course?, owned, if_false, List.isEmpty_iff, same]
  | some r =>
    simp only at same ⊢
    simp only [doTlbi, cur, Agent.course?, owned, if_false, List.isEmpty_iff, same]

/-- The two forms of `tlbi`, by the entries that they remove (R326). -/
theorem tlbi_outcomes {a : Reg} {g : PReg} {c : Nat} {i : Instr} {p : State → TlbEntry → Bool}
    (form : (i = .tlbi a g ∧ p = fun t e => e.covers (t.reads a)) ∨ (i = .tlbiAll g ∧ p = fun _ _ => true)) :
    Does i (fun t => (t.cur = .quoin c ∧ t.ownerRid c ≠ 0) ∧ (t.shooting c (p t)).shotBusy c = false)
      (fun t => (t.shooting c (p t)).modCourse c fun k => { k with shot := [] }) ∧
    Leaves i (fun t => (t.cur = .quoin c ∧ t.ownerRid c ≠ 0) ∧ (t.shooting c (p t)).shotBusy c = true)
      (fun t => (t.shooting c (p t)).modCtx t.cur fun x => { x with stalled := true }) := by
  rcases form with ⟨rfl, rfl⟩ | ⟨rfl, rfl⟩
  · exact ⟨does_of (fun _ => rfl) fun t ⟨⟨cur, owned⟩, quiet⟩ => by
        rw [doTlbi_owned cur owned rfl, if_neg (ne_true_of_eq_false quiet)],
      leaves_of_wait (fun _ => rfl) fun t ⟨⟨cur, owned⟩, busy⟩ => by rw [doTlbi_owned cur owned rfl, if_pos busy, State.stall]⟩
  · exact ⟨does_of (fun _ => rfl) fun t ⟨⟨cur, owned⟩, quiet⟩ => by
        rw [doTlbi_owned cur owned rfl, if_neg (ne_true_of_eq_false quiet)],
      leaves_of_wait (fun _ => rfl) fun t ⟨⟨cur, owned⟩, busy⟩ => by rw [doTlbi_owned cur owned rfl, if_pos busy, State.stall]⟩

/-- A course whose quoin performs a `replay`, which begins once. -/
def State.replayed (t : State) (c : Nat) : State := if (t.course c).replay = none then t.beginReplay c else t

theorem State.replayed_cur (t : State) (c : Nat) : (t.replayed c).cur = t.cur := by
  rw [State.replayed]
  split
  · exact t.beginReplay_cur c
  · rfl

section
variable {g : PReg} {c : Nat}

theorem does_replay : Does (.replay g) (fun t => (t.cur = .quoin c ∧ t.ownerRid c ≠ 0) ∧ (t.replayed c).replaying c = [])
    (fun t => (t.replayed c).modCourse c fun k => { k with replay := none }) := by
  refine does_of (fun _ => rfl) fun t ⟨⟨cur, owned⟩, quiet⟩ => ?_
  rw [State.replayed] at quiet ⊢
  simp only [cur, Agent.course?, owned, if_false, Option.isNone_iff_eq_none, quiet, List.isEmpty_nil, if_true]

theorem leaves_replay : Leaves (.replay g) (fun t => (t.cur = .quoin c ∧ t.ownerRid c ≠ 0) ∧ (t.replayed c).replaying c ≠ [])
    (fun t => (t.replayed c).modCtx t.cur fun x => { x with stalled := true }) := by
  refine leaves_of_wait (fun _ => rfl) fun t ⟨⟨cur, owned⟩, busy⟩ => ?_
  have same := t.replayed_cur c
  rw [State.replayed] at busy same ⊢
  simp only [cur, Agent.course?, owned, if_false, Option.isNone_iff_eq_none, List.isEmpty_iff, busy, same, State.stall]

end

/-- Settles O36: each form at a quoin and at program level, the checks of `tlbw` in their order, and the entry that it installs. -/
theorem translationForms : Obligations.TranslationForms := by
  refine ⟨fun a b g c => ⟨fun i hi => denies_translation hi, fun i hi => does_translation_unowned hi, does_tlbw, fun x => raises_tlbw,
      fun i p form => ?_, does_replay, leaves_replay⟩,
    fun va e word o => ⟨tlbwTrap_unplaced word, tlbwTrap_unformed word, fun placed formed target odd => ?_,
      fun placed formed even => ?_, rfl, rfl, toNat_entryFor_base o va e, entryFor_covers o va e⟩⟩
  · intro key removed
    have eq : removed = fun t => t.shooting c (p t) := funext fun t => by rw [State.shooting, State.beginTlbi_eq]
    rw [eq]
    exact tlbi_outcomes form
  · rw [tlbwTrap_formed word placed formed]
    exact if_pos ⟨target, odd⟩
  · rw [tlbwTrap_formed word placed formed]
    exact if_neg fun ⟨target, odd⟩ => even.elim target odd

end Sys2Proof.Machine
end

section
/-! # The service of misses, page requests and invalidations (R318, R322, R323, R326, R331, R385) -/

namespace Sys2Proof.Machine

open Sys2Proof

/-! ### Miss notices (R322) -/

section
variable {p q : List Notice} {h x : Word} (first : ∀ n ∈ p, ∀ h' x', n ≠ .miss h' x')
include first

/-- The oldest miss notice leaves the others in their order. -/
theorem dropMiss_oldest : dropMiss (p ++ .miss h x :: q) = p ++ q := by
  induction p with
  | nil => rfl
  | cons n p ih =>
    have rest := ih fun m hm => first m (List.mem_cons_of_mem _ hm)
    have other := first n List.mem_cons_self
    cases n with
    | miss h' x' => exact absurd rfl (other h' x')
    | _ => exact congrArg _ rest

/-- The oldest miss notice is the one that is found. -/
theorem findSome?_miss_oldest {β : Type} {f : Notice → Option β} {v : β} (found : f (.miss h x) = some v)
    (others : ∀ n, (∀ h' x', n ≠ .miss h' x') → f n = none) : (p ++ .miss h x :: q).findSome? f = some v := by
  have skip : p.findSome? f = none := List.findSome?_eq_none_iff.2 fun n hn => others n (first n hn)
  rw [List.findSome?_append, skip, List.findSome?_cons, found]
  rfl

end

section
variable {s : State} {c : Nat}

/-- The quoin takes its oldest miss notice, where it does not wait and an answer can be given (R322, R385). -/
theorem exec_missNotice {h x : Word} {p q : List Notice} (notices : (s.course c).notices = p ++ .miss h x :: q)
    (first : ∀ n ∈ p, ∀ h' x', n ≠ .miss h' x') (free : s.quoinBusy c = false) (own : fld h 53 11 ≠ 0x7FF) (ans : MissAnswer) :
    exec (.missNotice c ans) s = .next (if (ans == .request && !s.mayRequest c) = true then s
      else (s.setCourse c { s.course c with notices := p ++ q }).answer c (s.ownerRid c) (BitVec.ofNat 64 (fld x 0 57)) ans) := by
  show execMissNotice c ans s = _
  have dropped : dropMiss (s.course c).notices = p ++ q := notices ▸ dropMiss_oldest first
  have oldest {f : Notice → Option (Word × Word)} (found : f (.miss h x) = some (h, x))
      (others : ∀ n, (∀ h' x', n ≠ .miss h' x') → f n = none) : (s.course c).notices.findSome? f = some (h, x) :=
    notices ▸ findSome?_miss_oldest first found others
  rw [execMissNotice]
  split
  next h' x' found =>
    have same := found.symm.trans (oldest rfl fun n other => by
      cases n with
      | miss h' x' => exact absurd rfl (other h' x')
      | _ => rfl)
    cases same
    simp only [free, Bool.false_or, own, if_false, State.modCourse, dropped]
  next found =>
    have same := found.symm.trans (oldest rfl fun n other => by
      cases n with
      | miss h' x' => exact absurd rfl (other h' x')
      | _ => rfl)
    cases same

theorem exec_missNotice_busy (busy : s.quoinBusy c = true) (ans : MissAnswer) : exec (.missNotice c ans) s = .next s := by
  show execMissNotice c ans s = _
  rw [execMissNotice]
  split
  · rw [busy, Bool.true_or, if_pos rfl]
  · rfl

/-! ### Answers (R322, R323, R331) -/

theorem State.answer_entry {va e : Word} (sound : tlbwTrap va e 0 = none) (owner : BitVec 16)
    (may : owner = 0 ∨ fld e 60 2 ≠ 0) : s.answer c owner va (.entry e) = s.install c (entryFor owner va e) := by
  have granted : (owner == 0 || fld e 60 2 != 0) = true := by
    rw [Bool.or_eq_true, beq_iff_eq, bne_iff_ne]
    exact may
  rw [State.answer, sound]
  simp only [granted, Bool.true_or, Option.isSome_none, Bool.false_eq_true, if_false, if_true]

/-- HBM is mapped within the owner's budgets, and else the page is absent (R331). -/
theorem State.answer_hbm {va e : Word} (sound : tlbwTrap va e 0 = none) {owner : BitVec 16} (owned : owner ≠ 0) (hbm : fld e 60 2 = 0)
    {r : Region} (region : s.region? owner = some r) : s.answer c owner va (.entry e) = s.install c (entryFor owner va
      (if s.mayGrant owner r (entryFor owner va e).base.toNat (entryFor owner va e).frame (entryFor owner va e).size then e
        else 0x3000000000000000)) := by
  rw [State.answer, sound]
  simp only [beq_eq_false_iff_ne.2 owned, hbm, bne_self_eq_false, Bool.false_or, region, Option.isSome_none, Bool.false_eq_true, if_false]
  rw [apply_ite (entryFor owner va)]
  rfl

/-- The host's answer for a page at which an access of the owner is parked is taken up at once, where the quoin does not wait. -/
theorem State.hostAnswer_now {va : Word} (free : s.quoinBusy c = false)
    (waits : ((s.course c).miss.find? fun m => pageOf m.va == pageOf va).any (·.who.program) = true) (ans : MissAnswer) :
    s.hostAnswer c va ans = s.answer c (s.ownerRid c) va ans := by
  obtain ⟨m, found⟩ : ∃ m, (s.course c).miss.find? (fun m => pageOf m.va == pageOf va) = some m := by
    rw [← Option.isSome_iff_exists]
    exact Option.isSome_of_any waits
  have program : m.who.program = true := by rw [found] at waits; exact waits
  have parked : s.canAnswer c va = true := by
    have own := List.find?_some found
    rw [State.canAnswer, Bool.or_eq_true, List.any_eq_true]
    exact .inr ⟨m, List.mem_of_find?_eq_some found, own⟩
  rw [State.hostAnswer, free, parked, State.missOwner, found]
  simp only [program, if_true, Bool.false_eq_true, if_false]

theorem State.hostAnswer_busy (busy : s.quoinBusy c = true) (va : Word) (ans : MissAnswer) :
    s.hostAnswer c va ans = s.notify c (.host va ans) := by
  rw [State.hostAnswer, if_pos busy]

end

/-! ### Page requests (R323, R385) -/

section
variable (s : State) (c : Nat) (va : Word)

theorem State.requestPage_full (full : s.mayRequest c = false) : s.requestPage c va = s := by
  rw [State.requestPage, full]
  rfl

/-- A request that may be made is outstanding from now on. -/
theorem State.requestPage_outstanding (may : s.mayRequest c = true) : (c, pageOf va) ∈ (s.requestPage c va).priOf (s.pageFn c) := by
  rw [State.requestPage]
  by_cases asked : (Map.get Fn.fresh s.fns (s.pageFn c)).pri.contains (c, pageOf va) = true
  · simp only [may, asked, Bool.not_true, Bool.and_false, Bool.false_eq_true, if_false]
    exact List.contains_iff_mem.1 asked
  · simp only [may, asked, Bool.not_false, Bool.and_self, if_true]
    rw [State.priOf, Map.get_set_self]
    exact List.mem_append_right _ List.mem_cons_self

theorem Map.get_map_val {κ α β : Type} [DecidableEq κ] (d : α) (f : α → β) (m : List (κ × α)) (k : κ) :
    Map.get (f d) (m.map fun e => (e.1, f e.2)) k = f (Map.get d m k) := by
  induction m with
  | nil => rfl
  | cons e m ih =>
    rw [List.map_cons, Map.get, Map.get]
    split
    · rfl
    · exact ih

/-- An answered request is outstanding for no function. -/
theorem State.requestDone_answered (fn : Nat) : (c, pageOf va) ∉ (s.requestDone c va).priOf fn := by
  have pri := Map.get_map_val Fn.fresh (fun f => { f with pri := f.pri.filter fun x => x != (c, pageOf va) }) s.fns fn
  rw [State.priOf, State.requestDone]
  intro own
  have kept : (c, pageOf va) ∈ (Map.get Fn.fresh s.fns fn).pri.filter fun x => x != (c, pageOf va) :=
    (congrArg (fun l => (c, pageOf va) ∈ l) (congrArg Fn.pri pri)).mp own
  exact bne_iff_ne.1 (List.mem_filter.1 kept).2 rfl

end

/-! ### Invalidations (R323, R326) -/

/-- An invalidation of pages of one course, at a quoin that does not wait (R323). -/
theorem exec_atsInvalidation {s : State} {c : Nat} {key : BitVec 16} {vas : List Word} (courses : s.coursesOfKey key = [c])
    (none' : s.invals = []) (free : s.quoinBusy c = false) {t : State} (removed : t = s.beginTlbi c fun e => vas.any e.covers) :
    exec (.atsInvalidation key vas) s = .next (if t.shotBusy c = true then { t with invals := t.invals ++ [⟨vas, [(c, true)]⟩] }
      else t.modCourse c fun k => { k with shot := [] }) := by
  have same : ({ s with invals := [] } : State) = s := by rw [← none']
  have names : (Invalidation.names ⟨vas, [(c, false)]⟩) = fun e => vas.any e.covers := rfl
  show execAtsInvalidation key vas s = _
  simp only [execAtsInvalidation, State.serveInvals, courses, none', List.nil_append, List.map_cons, List.map_nil, List.foldl_cons,
    List.foldl_nil, same, State.invalidate, free, names, ← removed, Bool.false_eq_true, if_false]
  split
  · simp only [List.isEmpty_cons, Bool.false_eq_true, if_false]
  · simp only [List.isEmpty_nil, if_true, List.append_nil]

/-- Settles O48: the answers of the quoin and of the host, page requests, and what an installation and a removal leave in a TLB. -/
theorem translationSteps : Obligations.TranslationSteps := by
  intro s c va e
  have absent (u : State) (o : BitVec 16) (w : Word) : u.answer c o w .absent = u.install c (entryFor o w 0x3000000000000000) := rfl
  refine ⟨fun free => ⟨fun h x p q notices first own page => ?_, fun waits => ⟨⟨?_, ?_, ?_⟩, fun sound target => ⟨?_, ?_⟩⟩,
      fun key vas courses none' => ⟨fun quiet => ?_, fun busy => ?_⟩⟩, fun ans busy => ⟨?_, ?_, exec_missNotice_busy busy ans⟩,
    ⟨rfl, s.requestPage_mem c va, s.requestPage_outstanding c va, s.requestPage_full c va, s.requestDone_answered c va⟩,
    fun t => s.tlb_install c t, fun p x hx => ?_⟩
  · have notice := exec_missNotice notices first free own
    rw [← page] at notice
    refine ⟨notice .absent, fun may => ?_, fun full => ?_, fun sound target => ?_, fun r sound hbm owned region => ?_⟩
    · rw [notice, may]
      rfl
    · rw [notice, full]
      rfl
    · exact (notice _).trans (congrArg _ (State.answer_entry sound _ (.inr target)))
    · exact (notice _).trans (congrArg _ (State.answer_hbm sound owned hbm region))
  · exact congrArg _ (State.hostAnswer_now (s := s.requestDone c va) free waits .absent)
  · exact congrArg _ (State.hostAnswer_now free waits .absent)
  · exact congrArg _ (State.hostAnswer_now free waits .request)
  · exact congrArg _ ((State.hostAnswer_now (s := s.requestDone c va) free waits _).trans (State.answer_entry sound _ (.inr target)))
  · exact congrArg _ ((State.hostAnswer_now free waits _).trans (State.answer_entry sound _ (.inr target)))
  · rw [exec_atsInvalidation courses none' free rfl, if_neg (ne_true_of_eq_false quiet)]
  · rw [exec_atsInvalidation courses none' free rfl, if_pos busy]
  · exact congrArg _ (State.hostAnswer_busy (s := s.requestDone c va) busy va ans)
  · exact congrArg _ (State.hostAnswer_busy busy va ans)
  · rw [State.course_shootDown] at hx
    rintro ⟨own, named⟩
    have kept := (List.mem_filter.1 hx).2
    rw [own, named, BEq.rfl] at kept
    cases kept

end Sys2Proof.Machine
end

section
/-! # Keystone completion, vote completion and the watchdog (R353, R354, R363) -/

namespace Sys2Proof.Machine

open Sys2Proof

/-! ### What completing an instruction leaves of a context -/

/-- A context's phase, its next vote and its wait. -/
def Ctx.phase (c : Ctx) : Bool × Nat × Option Park := (c.exchange, c.voteOrd, c.park)

theorem foldl_phase {α : Type} {f : Ctx → α → Ctx} (h : ∀ c x, (f c x).phase = c.phase) (l : List α) (c : Ctx) :
    (l.foldl f c).phase = c.phase :=
  List.foldlRecOn (motive := fun d : Ctx => d.phase = c.phase) l f rfl fun d hd x _ => (h d x).trans hd

theorem Ctx.write_phase (c : Ctx) (r : Result) : (c.write r).phase = c.phase := by
  rw [Ctx.write]
  split
  · rw [Ctx.setX]
    split <;> rfl
  · rfl
  · rw [Ctx.setP]
    split <;> rfl

theorem Ctx.count_phase (c : Ctx) : c.count.phase = c.phase := by
  rw [Ctx.count]
  split
  · rfl
  · rw [Ctx.settle, foldl_phase fun d p => Ctx.write_phase d _]
    rfl

theorem Ctx.popAll_phase (c : Ctx) (i : Instr) : (c.popAll i).phase = c.phase := by
  refine foldl_phase (fun d j => ?_) _ c
  rw [Ctx.pop]
  split <;> rfl

theorem Ctx.takeAll_phase (late : Bool) (pins : List RegRef) (c : Ctx) (rs : List Result) : (c.takeAll late pins rs).phase = c.phase := by
  refine foldl_phase (fun d r => ?_) _ c
  rw [Ctx.take]
  split
  · exact Ctx.write_phase d r
  · rfl

theorem Ctx.inChunk_phase (c : Ctx) : c.inChunk.phase = c.phase := by
  rw [Ctx.inChunk]
  split <;> rfl

theorem Ctx.finish_phase (c : Ctx) (i : Instr) (late : Bool) (rs : List Result) : (c.finish i late rs).phase = c.phase := by
  rw [Ctx.finish, Ctx.inChunk_phase, Ctx.takeAll_phase, Ctx.count_phase, Ctx.popAll_phase]

theorem Ctx.sinkSlot_phase (c : Ctx) (r : RegRef) : (c.sinkSlot r).phase = c.phase := by
  rw [Ctx.sinkSlot]
  split <;> rfl

/-! ### Steps that reach contexts and register files alone -/

/-- What a step on contexts, register files and courses leaves. -/
structure State.Quiet (s t : State) : Prop where
  mem : t.mem = s.mem
  regions : t.regions = s.regions
  ashlars : t.ashlars = s.ashlars
  poison : t.poison = s.poison
  journal : ∀ n, (t.core n).journal = (s.core n).journal

theorem State.Quiet.refl (s : State) : State.Quiet s s := ⟨rfl, rfl, rfl, rfl, fun _ => rfl⟩

theorem State.Quiet.trans {s t u : State} (h : State.Quiet s t) (k : State.Quiet t u) : State.Quiet s u :=
  ⟨k.mem.trans h.mem, k.regions.trans h.regions, k.ashlars.trans h.ashlars, k.poison.trans h.poison,
    fun n => (k.journal n).trans (h.journal n)⟩

theorem State.Quiet.modCtx (s : State) (a : Agent) (f : Ctx → Ctx) : State.Quiet s (s.modCtx a f) := ⟨rfl, rfl, rfl, rfl, fun _ => rfl⟩

theorem State.Quiet.modCourse (s : State) (c : Nat) (f : Course → Course) : State.Quiet s (s.modCourse c f) :=
  ⟨rfl, rfl, rfl, rfl, fun _ => rfl⟩

theorem State.Quiet.modCore (s : State) (n : Nat) {f : Core → Core} (keeps : ∀ k, (f k).journal = k.journal) :
    State.Quiet s (s.modCore n f) := by
  refine ⟨rfl, rfl, rfl, rfl, fun m => ?_⟩
  by_cases h : n = m
  · rw [← h, State.core_modCore_self, keeps]
  · rw [State.core_modCore_ne _ _ h]

theorem State.Quiet.foldl {α : Type} {f : State → α → State} (h : ∀ s x, State.Quiet s (f s x)) (l : List α) (s : State) :
    State.Quiet s (l.foldl f s) :=
  List.foldlRecOn (motive := State.Quiet s) l f (State.Quiet.refl s) fun t ht x _ => ht.trans (h t x)

theorem State.quiet_sink (s old : State) (a : Agent) : State.Quiet s (s.sink old a) := by
  rw [State.sink]
  split
  · exact (State.Quiet.foldl (fun u r => State.Quiet.modCtx ..) _ s).trans (State.Quiet.modCore _ _ fun _ => rfl)
  · exact State.Quiet.refl s

theorem State.quiet_completeParked (s : State) (a : Agent) (i : Instr) (rs : List Result) :
    State.Quiet s (s.completeParked a i rs) := by
  rw [State.completeParked, State.retire]
  exact ((State.Quiet.modCtx ..).trans (State.Quiet.modCtx ..)).trans (State.quiet_sink ..)

theorem State.quiet_takeKeystone (s : State) (n : Nat) : State.Quiet s (s.takeKeystone n) := by
  rw [State.takeKeystone]
  split
  · exact State.quiet_completeParked ..
  · exact State.Quiet.refl s

theorem State.quiet_takeVote (s : State) (n k : Nat) (x : Word) : State.Quiet s (s.takeVote n k x) := by
  rw [State.takeVote]
  split
  · split
    · exact State.quiet_completeParked ..
    · exact State.Quiet.refl s
  · exact State.Quiet.refl s

theorem State.quiet_notify (s : State) (c : Nat) (n : Notice) : State.Quiet s (s.notify c n) := State.Quiet.modCourse ..

theorem State.quiet_writeBack (s : State) (a : Agent) : State.Quiet s (s.writeBack a) := by
  unfold State.writeBack
  split
  · dsimp only
    split
    · exact (State.Quiet.modCtx ..).trans (State.Quiet.modCore _ _ fun _ => rfl)
    · refine (((State.Quiet.modCtx ..).trans (State.Quiet.modCore _ _ ?_)).trans (State.Quiet.modCtx ..)).trans
        (State.quiet_notify ..)
      exact fun _ => rfl
  · exact State.Quiet.refl s

/-! ### What becomes of a context's phase -/

theorem State.phase_sink (s old : State) (a b : Agent) : ((s.sink old a).ctx b).phase = (s.ctx b).phase := by
  rw [State.sink]
  split
  · rw [State.ctx_modCore]
    refine foldl_leaves (fun u : State => (u.ctx b).phase) (fun u r => ?_) _ s
    by_cases h : a = b
    · rw [← h, State.ctx_modCtx_self, Ctx.sinkSlot_phase]
    · rw [State.ctx_modCtx_ne _ _ h]
  · rfl

theorem State.phase_completeParked_self (s : State) (a : Agent) (i : Instr) (rs : List Result) :
    ((s.completeParked a i rs).ctx a).phase = ((s.ctx a).exchange, (s.ctx a).voteOrd, none) := by
  rw [State.completeParked, State.phase_sink, State.retire, State.ctx_modCtx_self, State.ctx_modCtx_self]
  exact Ctx.finish_phase ..

theorem State.phase_completeParked_ne (s : State) {a b : Agent} (ne : a ≠ b) (i : Instr) (rs : List Result) :
    ((s.completeParked a i rs).ctx b).phase = (s.ctx b).phase := by
  rw [State.completeParked, State.phase_sink, State.retire, State.ctx_modCtx_ne _ _ ne, State.ctx_modCtx_ne _ _ ne]

/-- A keystone leaves every context's phase and vote, and each context waits as it did, or no longer. -/
theorem State.phase_takeKeystone (s : State) (n : Nat) (b : Agent) : ((s.takeKeystone n).ctx b).phase = (s.ctx b).phase ∨
    ((s.takeKeystone n).ctx b).phase = ((s.ctx b).exchange, (s.ctx b).voteOrd, none) := by
  rw [State.takeKeystone]
  split
  · by_cases h : ctxOf n 0 = b
    · rw [← h]
      exact .inr (State.phase_completeParked_self ..)
    · exact .inl (State.phase_completeParked_ne _ h ..)
  · exact .inl rfl

/-- A context in the compute phase, at its first vote. -/
def Ctx.Computes (c : Ctx) : Prop := c.exchange = false ∧ c.voteOrd = 0

/-- A context that is not parked in `ssync`. -/
def Ctx.PastSsync (c : Ctx) : Prop := ∀ g, c.park ≠ some (.ssync g)

section
variable {c d : Ctx} (same : d.phase = c.phase)
include same

theorem Ctx.Computes.of_phase (h : c.Computes) : d.Computes :=
  ⟨(congrArg Prod.fst same).trans h.1, (congrArg (·.2.1) same).trans h.2⟩

theorem Ctx.PastSsync.of_phase (h : c.PastSsync) : d.PastSsync := fun g eq => h g ((congrArg (·.2.2) same).symm.trans eq)

end

theorem State.computes_takeKeystone {s : State} {b : Agent} (h : (s.ctx b).Computes) (n : Nat) : ((s.takeKeystone n).ctx b).Computes := by
  rcases s.phase_takeKeystone n b with same | done'
  · exact h.of_phase same
  · exact ⟨(congrArg Prod.fst done').trans h.1, (congrArg (·.2.1) done').trans h.2⟩

theorem State.pastSsync_takeKeystone {s : State} {b : Agent} (h : (s.ctx b).PastSsync) (n : Nat) :
    ((s.takeKeystone n).ctx b).PastSsync := by
  rcases s.phase_takeKeystone n b with same | done'
  · exact h.of_phase same
  · intro g eq
    cases (congrArg (·.2.2) done').symm.trans eq

theorem State.pastSsync_takeKeystone_self (s : State) (n : Nat) : ((s.takeKeystone n).ctx (ctxOf n 0)).PastSsync := by
  rw [State.takeKeystone]
  split
  · intro g eq
    cases (congrArg (·.2.2) (State.phase_completeParked_self s (ctxOf n 0) _ [])).symm.trans eq
  next other => exact other

/-- Where no memory error stands, a write-back leaves every context's phase. -/
theorem State.phase_writeBack {s : State} (sound : s.poison = []) (a b : Agent) : ((s.writeBack a).ctx b).phase = (s.ctx b).phase := by
  unfold State.writeBack
  split
  next c k t =>
    have none' : ((s.core (coreId c k)).rfile.filter fun e => e.tid == t && s.backFault (coreId c k) e) = [] :=
      List.filter_eq_nil_iff.2 fun e _ => by
        rw [State.backFault, State.slotPoison_eq_false sound]
        simp
    dsimp only
    rw [none']
    dsimp only
    rw [State.ctx_modCore]
    by_cases h : Agent.ctx c k t = b
    · rw [← h, State.ctx_modCtx_self]
      rfl
    · rw [State.ctx_modCtx_ne _ _ h]
  · rfl

/-! ### Loops over the cores of a region -/

/-- Messages of the control class reach every core of a list at once where none of them moves (R341). -/
theorem foldl_ungated {g f : State → Nat → State} (same : ∀ u n, u.gated n = false → g u n = f u n)
    (keeps : ∀ u n, State.Quiet u (f u n)) {l : List Nat} {s : State} (opened : ∀ n ∈ l, s.gated n = false) :
    l.foldl g s = l.foldl f s := by
  induction l generalizing s with
  | nil => rfl
  | cons n l ih =>
    rw [List.foldl_cons, List.foldl_cons, same _ _ (opened n List.mem_cons_self)]
    refine ih fun m hm => ?_
    rw [State.gated, State.ashlar, (keeps s n).ashlars]
    exact opened m (List.mem_cons_of_mem _ hm)

theorem State.control_ungated {s : State} {n : Nat} (opened : s.gated n = false) (m : MortarItem) (f : State → State) :
    s.control n m f = f s := if_neg (ne_true_of_eq_false opened)

/-! ### The keystone (R353) -/

/-- A core with no journal of its writes since the keystone (R183). -/
def Core.cleared (k : Core) : Core := { k with journal := Journal.clear }

/-- A region in its next superstep (R222, R353). -/
def Region.passed (r : Region) : Region :=
  { r with sscount := r.sscount + 1, arrived := [], wdFrom := none, wdFired := false, supSince := [],
           colls := r.colls.map fun c => { c with joins := c.joins.map fun j => { j with after := false } } }

/-- A context in the compute phase, at its first vote (R353, R363). -/
def Ctx.computing (c : Ctx) : Ctx := { c with exchange := false, voteOrd := 0 }

/-- A state whose keystone has passed in a region, before it reaches the cores (R353). -/
def State.keystoned (s : State) (rid : BitVec 16) (r : Region) : State :=
  (s.counted r).foldl (fun u n => u.modCtx (ctxOf n 0) Ctx.computing)
    (((r.cores.foldl (fun u n => u.modCore n Core.cleared) s).modRegion rid Region.passed).beforeNext r)

/-- Where nothing of some agents is on its way, waits at a port or for a reply slot, a drain has nothing to do. -/
theorem State.drain_of_quiet {s : State} {p : Agent → Bool} (ports : ∀ e ∈ s.cores, e.2.port = []) (fabric : s.fabric = [])
    (replies : s.replies = []) (unsent : ∀ a, (s.ctx a).unsent = []) : s.drain p = s := by
  have landed : s.drainPorts = s := by
    refine List.foldlRecOn (motive := fun t => t = s) s.cores _ rfl fun t ht e he => ?_
    rw [ht, ports e he]
    rfl
  have none' : s.unsentOf p = [] := List.filter_eq_nil_iff.2 fun a _ => by simp [unsent a]
  have sunk : s.sinkReplies p = s := by
    simp only [State.sinkReplies, replies, List.filter_nil, List.foldl_nil]
    rw [← replies]
  have settled : s.settleReplies p = s := by
    simp only [State.settleReplies, sunk, none', List.foldl_nil]
  simp only [State.drain, landed, none', fabric, List.length_nil, List.map_nil, List.sum_nil, Nat.add_zero, State.drainReqs, settled]

theorem State.hasAccess_of_quiet {s : State} {p : Agent → Bool} (ports : ∀ e ∈ s.cores, e.2.port = []) (fabric : s.fabric = [])
    (replies : s.replies = []) (unsent : ∀ a, (s.ctx a).unsent = []) : s.hasAccess p = false := by
  have none' : s.unsentOf p = [] := List.filter_eq_nil_iff.2 fun a _ => by simp [unsent a]
  have asked : s.requests = [] := by
    rw [State.requests, fabric, List.append_nil]
    exact List.flatMap_eq_nil_iff.2 fun e he => by rw [ports e he]; rfl
  simp [State.hasAccess, none', asked, replies]

/-- A helper is alone in its group. -/
theorem State.group_helper (s : State) {a : Agent} (helper : a.tid ≠ 0) : s.group a = [a] := by
  cases a with
  | ctx c k t =>
    cases t with
    | zero => exact absurd rfl helper
    | succ t => rfl
  | quoin c => rfl
  | plinth => rfl

theorem State.close_helper {s : State} {a : Agent} (helper : a.tid ≠ 0) (closed : (s.ctx a).chunkOpen = false) : s.close a = s := by
  simp [State.close, s.group_helper helper, closed]

theorem State.canClose_helper {s : State} {a : Agent} (helper : a.tid ≠ 0) (closed : (s.ctx a).chunkOpen = false) : s.canClose a = true := by
  simp [State.canClose, s.group_helper helper, closed]

theorem State.tid_of_mem_helpers {s : State} {r : Region} {a : Agent} (h : a ∈ s.helpers r) : a.tid ≠ 0 := by
  simpa using (List.mem_filter.1 h).2

/-- What the change that a keystone makes to its region, journals and contexts does (R353). -/
structure State.Keystoned (s : State) (rid : BitVec 16) (r : Region) (t : State) : Prop where
  mem : t.mem = s.mem
  ashlars : t.ashlars = s.ashlars
  poison : t.poison = s.poison
  region : ∃ q, t.region? rid = some q ∧ q.sscount = r.sscount + 1 ∧ q.arrived = [] ∧ q.wdFrom = none
  journal : ∀ n ∈ r.cores, (t.core n).journal = Journal.clear
  computes : ∀ n ∈ s.counted r, (t.ctx (ctxOf n 0)).Computes

theorem State.Keystoned.trans {s t u : State} {rid : BitVec 16} {r : Region} (h : State.Keystoned s rid r t) (k : State.Quiet t u)
    (computes : ∀ n ∈ s.counted r, (u.ctx (ctxOf n 0)).Computes) : State.Keystoned s rid r u where
  mem := k.mem.trans h.mem
  ashlars := k.ashlars.trans h.ashlars
  poison := k.poison.trans h.poison
  region := by
    rw [State.region?, k.regions]
    exact h.region
  journal := fun n hn => (k.journal n).trans (h.journal n hn)
  computes := computes

theorem State.computes_modCtx {s : State} {a b : Agent} (h : (s.ctx b).Computes) :
    ((s.modCtx a Ctx.computing).ctx b).Computes := by
  by_cases eq : a = b
  · rw [← eq, State.ctx_modCtx_self]
    exact ⟨rfl, rfl⟩
  · rw [State.ctx_modCtx_ne _ _ eq]
    exact h

/-- Clearing the journals of some cores clears those of each of them. -/
theorem State.foldl_cleared (l : List Nat) (s : State) : ∃ ks, l.foldl (fun s n => s.modCore n Core.cleared) s = { s with cores := ks } ∧
    ∀ n ∈ l, (({ s with cores := ks } : State).core n).journal = Journal.clear := by
  obtain ⟨ks, eq⟩ := State.foldl_modCore_eq id (fun _ => Core.cleared) l s
  refine ⟨ks, eq, fun n hn => ?_⟩
  rw [← eq]
  refine foldl_reaches (f := fun u m => u.modCore m Core.cleared) (P := fun t : State => (t.core n).journal = Journal.clear)
    (fun t x h => ?_) (fun t => ?_) hn s
  · by_cases same : x = n
    · rw [same, State.core_modCore_self]
      rfl
    · rwa [State.core_modCore_ne _ _ same]
  · rw [State.core_modCore_self]
    rfl

/-- Contexts keep their phase as the accesses of their region are put before the next `ssync`. -/
theorem State.quiet_beforeNext (s : State) (r : Region) : State.Quiet s (s.beforeNext r) := by
  obtain ⟨m, eq⟩ := State.foldl_modCourse_eq (fun k : Course =>
    { k with copies := k.copies.map fun j => { j with after := false }, miss := k.miss.map fun m => { m with after := false } }) r.courses s
  rw [State.beforeNext, eq]
  exact ⟨rfl, rfl, rfl, rfl, fun _ => rfl⟩

theorem State.keystoned_keystoned {s : State} {rid : BitVec 16} {r : Region} (region : s.region? rid = some r) :
    State.Keystoned s rid r (s.keystoned rid r) := by
  obtain ⟨ks, eq, clear⟩ := State.foldl_cleared r.cores s
  have changed : ∃ q, (({ s with cores := ks } : State).modRegion rid Region.passed).region? rid = some q ∧ q.sscount = r.sscount + 1 ∧
      q.arrived = [] ∧ q.wdFrom = none := by
    have same : ({ s with cores := ks } : State).region? rid = some r := region
    refine ⟨r.passed, ?_, rfl, rfl, rfl⟩
    rw [State.modRegion, same]
    exact Map.find_set_self ..
  have base : ∃ m, ({ s with cores := ks } : State).modRegion rid Region.passed = { s with cores := ks, regions := m } := by
    rw [State.modRegion]
    split <;> exact ⟨_, rfl⟩
  obtain ⟨m, eqm⟩ := base
  rw [eqm] at changed
  rw [State.keystoned, eq, eqm]
  have quiet := State.Quiet.trans (State.quiet_beforeNext { s with cores := ks, regions := m } r)
    (State.Quiet.foldl (f := fun u n => u.modCtx (ctxOf n 0) Ctx.computing) (fun t n => State.Quiet.modCtx ..) (s.counted r) _)
  refine ⟨quiet.mem, quiet.ashlars, quiet.poison, ?_, fun n hn => (quiet.journal n).trans (clear n hn), fun n hn => ?_⟩
  · rw [State.region?, quiet.regions]
    exact changed
  · exact foldl_reaches (P := fun u : State => (u.ctx (ctxOf n 0)).Computes) (fun u m hu => State.computes_modCtx hu)
      (fun u => by rw [State.ctx_modCtx_self]; exact ⟨rfl, rfl⟩) hn _

/-- The keystone as it completes at the cores of its region leaves what the change to the region has done. -/
theorem State.keystoned_control {s t : State} {rid : BitVec 16} {r : Region} (h : State.Keystoned s rid r t) :
    State.Keystoned s rid r (r.cores.foldl State.takeKeystone t) ∧
      ∀ n ∈ r.cores, ((r.cores.foldl State.takeKeystone t).ctx (ctxOf n 0)).PastSsync := by
  refine ⟨h.trans (State.Quiet.foldl State.quiet_takeKeystone _ _) fun n hn => ?_, fun n hn => ?_⟩
  · exact List.foldlRecOn (motive := fun u : State => (u.ctx (ctxOf n 0)).Computes) r.cores _ (h.computes n hn)
      fun u hu m _ => State.computes_takeKeystone hu m
  · exact foldl_reaches (P := fun u : State => (u.ctx (ctxOf n 0)).PastSsync) (fun u m hu => State.pastSsync_takeKeystone hu m)
      (fun u => u.pastSsync_takeKeystone_self n) hn t

/-- Where no memory error stands, the write-backs of a snapshot point leave every context's phase. -/
theorem State.phase_writeBackAll {s : State} (sound : s.poison = []) (r : Region) (b : Agent) :
    ((s.writeBackAll r).ctx b).phase = (s.ctx b).phase := by
  rw [State.writeBackAll]
  refine (List.foldlRecOn (motive := fun u : State => u.poison = [] ∧ (u.ctx b).phase = (s.ctx b).phase) _ _ ⟨sound, rfl⟩
    fun u hu a _ => ?_).2
  exact ⟨(u.quiet_writeBack a).poison.trans hu.1, (State.phase_writeBack hu.1 a b).trans hu.2⟩

theorem State.quiet_writeBackAll (s : State) (r : Region) : State.Quiet s (s.writeBackAll r) :=
  State.Quiet.foldl State.quiet_writeBack _ _

/-- A region that has a keystone due, and whose contexts have nothing on its way. -/
structure State.KeystoneReady (s : State) (r : Region) : Prop where
  run : r.run = .running
  opened : ∀ n ∈ r.cores, s.gated n = false
  due : s.keystoneDue r = true
  helpers : ∀ a ∈ s.helpers r, (s.ctx a).chunkOpen = false
  ports : ∀ e ∈ s.cores, e.2.port = []
  fabric : s.fabric = []
  replies : s.replies = []
  unsent : ∀ a, (s.ctx a).unsent = []

/-- R353: at such a region the keystone changes the region, completes at each of its cores, and ends in a snapshot. -/
theorem State.KeystoneReady.completes {s : State} {rid : Nat} {r : Region} (region : s.region? (BitVec.ofNat 16 rid) = some r)
    (h : s.KeystoneReady r) : ∃ p, exec (.keystoneCompletion rid) s = .next
      (((r.cores.foldl State.takeKeystone (s.keystoned (BitVec.ofNat 16 rid) r)).writeBackAll r).modRegion (BitVec.ofNat 16 rid)
        fun q => { q with snap := some p }) := by
  have closed : (s.helpers r).foldl (fun u a => u.close a) s = s :=
    List.foldlRecOn (motive := fun u => u = s) _ _ rfl fun u hu a ha => by
      rw [hu]
      exact State.close_helper (State.tid_of_mem_helpers ha) (h.helpers a ha)
  have ungated : ∀ t : State, t.ashlars = s.ashlars →
      r.cores.foldl (fun u n => u.control n .keystone fun u => u.takeKeystone n) t = r.cores.foldl State.takeKeystone t := fun t same =>
    foldl_ungated (fun u n opened => State.control_ungated opened _ _) State.quiet_takeKeystone fun n hn => by
      rw [State.gated, State.ashlar, same]
      exact h.opened n hn
  have reached := ungated (s.keystoned (BitVec.ofNat 16 rid) r) (State.keystoned_keystoned region).ashlars
  refine ⟨((r.cores.foldl State.takeKeystone (s.keystoned (BitVec.ofNat 16 rid) r)).writeBackAll r).snapshot r, ?_⟩
  show execKeystoneCompletion rid s = _
  simp only [execKeystoneCompletion, region, h.due, Bool.not_true, Bool.false_eq_true, if_false, closed,
    State.drain_of_quiet h.ports h.fabric h.replies h.unsent, State.hasAccess_of_quiet h.ports h.fabric h.replies h.unsent]
  exact congrArg (fun u : State => Host.Outcome.next ((u.writeBackAll r).modRegion (BitVec.ofNat 16 rid) fun q =>
    { q with snap := some (((r.cores.foldl State.takeKeystone (s.keystoned (BitVec.ofNat 16 rid) r)).writeBackAll r).snapshot r) })) reached

/-- R353: what a keystone that completes has done. -/
theorem State.KeystoneReady.effect {s : State} {rid : Nat} {r : Region} (region : s.region? (BitVec.ofNat 16 rid) = some r)
    (h : s.KeystoneReady r) (sound : s.poison = []) : ∃ t, exec (.keystoneCompletion rid) s = .next t ∧ t.mem = s.mem ∧
      (∃ q, t.region? (BitVec.ofNat 16 rid) = some q ∧ q.sscount = r.sscount + 1 ∧ q.arrived = [] ∧ q.wdFrom = none ∧
        q.snap.isSome = true) ∧
      (∀ n ∈ r.cores, (t.core n).journal = Journal.clear) ∧
      ∀ n ∈ s.counted r, (t.ctx (ctxOf n 0)).Computes ∧ (t.ctx (ctxOf n 0)).PastSsync := by
  obtain ⟨p, step⟩ := h.completes region
  obtain ⟨done', past⟩ := State.keystoned_control (State.keystoned_keystoned region)
  generalize r.cores.foldl State.takeKeystone (s.keystoned (BitVec.ofNat 16 rid) r) = u at step done' past
  have back := State.phase_writeBackAll (done'.poison.trans sound) r
  have kept := done'.trans (u.quiet_writeBackAll r) fun n hn => (done'.computes n hn).of_phase (back _)
  have gone : ∀ n ∈ r.cores, ((u.writeBackAll r).ctx (ctxOf n 0)).PastSsync := fun n hn => (past n hn).of_phase (back _)
  generalize u.writeBackAll r = w at step kept gone
  obtain ⟨q, found, count, arrived, watch⟩ := kept.region
  have last : w.modRegion (BitVec.ofNat 16 rid) (fun q => { q with snap := some p }) =
      { w with regions := Map.set w.regions (BitVec.ofNat 16 rid) { q with snap := some p } } := by
    simp only [State.modRegion, found]
  rw [last] at step
  exact ⟨_, step, kept.mem, ⟨_, Map.find_set_self .., count, arrived, watch, rfl⟩, kept.journal, fun n hn =>
    ⟨kept.computes n hn, gone n (List.mem_filter.1 hn).1⟩⟩

/-! ### Votes and the watchdog (R354, R363) -/

/-- R363: a vote of which every counted context has given its value completes at each core of the region. -/
theorem exec_voteCompletion {s : State} {rid : Nat} {r : Region} {v : Vote} (region : s.region? (BitVec.ofNat 16 rid) = some r)
    (run : r.run = .running) (opened : ∀ n ∈ r.cores, s.gated n = false) (only : r.votes = [v])
    (all : ∀ n ∈ s.counted r, (Map.find v.vals (s.cidOf n)).isSome = true) :
    exec (.voteCompletion rid v.ord) s = .next (r.cores.foldl
      (fun u n => u.takeVote n v.ord (u.voteResult n (v.vals.map (·.2))))
      (s.modRegion (BitVec.ofNat 16 rid) fun q => { q with votes := [] })) := by
  have left : s.modRegion (BitVec.ofNat 16 rid) (fun q => { q with votes := q.votes.filter fun w => w.ord != v.ord }) =
      s.modRegion (BitVec.ofNat 16 rid) fun q => { q with votes := [] } :=
    State.modRegion_congr region (by simp [only])
  have same : (s.modRegion (BitVec.ofNat 16 rid) fun q => { q with votes := [] }).ashlars = s.ashlars := by
    rw [State.modRegion]
    split <;> rfl
  show execVoteCompletion rid v.ord s = _
  simp only [execVoteCompletion, region, only, List.find?_cons, beq_self_eq_true, run, List.all_eq_true.2 all, Bool.and_self, if_true, left]
  congr 1
  refine foldl_ungated (fun u n open' => State.control_ungated open' _ _) (fun u n => u.quiet_takeVote n _ _) fun n hn => ?_
  rw [State.gated, State.ashlar, same]
  exact opened n hn

/-- R354: a watchdog whose time has come raises its cause in the counted contexts that have not arrived. -/
theorem exec_superstepWatchdog {s : State} {rid : Nat} {r : Region} {from' : Nat} (region : s.region? (BitVec.ofNat 16 rid) = some r)
    (run : r.run = .running) (began : r.wdFrom = some from') (first : r.wdFired = false) (limit : r.eff.watchdog ≠ 0)
    (past : from' + r.eff.watchdog.toNat * 10000 ≤ r.gtime10) (going : ∀ c ∈ r.courses, s.inStop c = false)
    (late : ∀ n ∈ s.counted r, s.cidOf n ∉ r.arrived → s.canClose (ctxOf n 0) = true ∧ s.amoOut (ctxOf n 0) = false) :
    exec (.superstepWatchdog rid) s = .next
      (((s.counted r).filter fun n => !r.arrived.contains (s.cidOf n)).foldl (fun u n => u.watchdogTrap n r.sscount)
        (s.modRegion (BitVec.ofNat 16 rid) fun q => { q with wdFired := true })) := by
  have still : (r.courses.any s.inStop) = false := List.any_eq_false.2 fun c hc => by simp [going c hc]
  have ready : (((s.counted r).filter fun n => !r.arrived.contains (s.cidOf n)).all fun n =>
      s.canClose (ctxOf n 0) && !s.amoOut (ctxOf n 0)) = true := by
    refine List.all_eq_true.2 fun n hn => ?_
    obtain ⟨counted, absent⟩ := List.mem_filter.1 hn
    obtain ⟨closes, none'⟩ := late n counted (by simpa using absent)
    rw [closes, none']
    rfl
  show execSuperstepWatchdog rid s = _
  simp only [execSuperstepWatchdog, region, began, first, bne_iff_ne.2 limit, decide_eq_true past, run, beq_self_eq_true, still, ready,
    Bool.not_false, Bool.and_self, if_true]

/-- Settles O44. -/
theorem superstepSteps : Obligations.SuperstepSteps := by
  unfold Obligations.SuperstepSteps
  intro s rid r region run
  refine ⟨?_, ?_, ?_⟩
  · intro opened arrived votes all colls copies helpers sound ports fabric replies unsent
    have engines : s.enginesQuiet r = true := by
      rw [State.enginesQuiet, colls]
      exact List.all_eq_true.2 fun c hc => by rw [copies c hc]; rfl
    have due : s.keystoneDue r = true := by
      have able : ((s.helpers r).all fun a => s.canClose a && !s.missing a) = true := List.all_eq_true.2 fun a ha => by
        rw [State.canClose_helper (State.tid_of_mem_helpers ha) (helpers a ha).1, (helpers a ha).2]
        rfl
      simp [State.keystoneDue, run, votes, engines, arrived, able]
      exact all
    have ready : s.KeystoneReady r :=
      ⟨run, opened, due, fun a ha => (helpers a ha).1, ports, fabric, replies, unsent⟩
    obtain ⟨t, step, mem, region', journal, ctxs⟩ := ready.effect region sound
    exact ⟨t, step, mem, region', journal, fun n hn => ⟨(ctxs n hn).1.1, (ctxs n hn).1.2, (ctxs n hn).2⟩⟩
  · intro v opened only all
    rw [exec_voteCompletion region run opened only all]
    refine congrArg (fun f => Host.Outcome.next (List.foldl f _ _)) (funext fun u => funext fun n => ?_)
    rw [State.takeVote, State.voteResult]
    cases (u.ctx (ctxOf n 0)).park with
    | none => rfl
    | some p => cases p <;> rfl
  · intro from' began first limit past going late
    exact exec_superstepWatchdog region run began first limit past going late

end Sys2Proof.Machine
end

section
/-! # Observer, sensors, current control, gating, boost, heat and shortfall (R366 to R371, R373, R378 to R382) -/

namespace Sys2Proof.Machine

open Sys2Proof

/-! ### Writes of the register block -/

/-- The registers and counts of the plinth that a write of its register block leaves: memory, the site blocks, and the device apart
from its watches. -/
structure State.Tower (s t : State) : Prop where
  mem : t.mem = s.mem
  block : ∀ x, t.block x = s.block x
  seq : t.dev.observerSeq = s.dev.observerSeq
  control : t.dev.controlAt = s.dev.controlAt

theorem State.Tower.trans {s t u : State} (h : State.Tower s t) (k : State.Tower t u) : State.Tower s u :=
  ⟨k.mem.trans h.mem, fun x => (k.block x).trans (h.block x), k.seq.trans h.seq, k.control.trans h.control⟩

theorem State.tower_regWritten (s : State) (off : Nat) : State.Tower s (s.regWritten off) := by
  obtain ⟨fs, ws, eq⟩ := s.regWritten_eq off
  rw [eq]
  exact ⟨rfl, fun _ => rfl, rfl, rfl⟩

theorem State.tower_endSprint (s : State) (site : Nat) : State.Tower s (s.endSprint site) := by
  rw [State.endSprint]
  split
  · split
    · exact ⟨rfl, fun _ => rfl, rfl, rfl⟩
    · exact ⟨rfl, fun _ => rfl, rfl, rfl⟩
  · exact ⟨rfl, fun _ => rfl, rfl, rfl⟩

/-- Registers of the device that a change of a site block leaves. -/
structure State.Beside (n : Nat) (s t : State) : Prop where
  mem : t.mem = s.mem
  block : ∀ x, n ≠ x → t.block x = s.block x
  seq : t.dev.observerSeq = s.dev.observerSeq
  control : t.dev.controlAt = s.dev.controlAt

theorem State.Tower.beside {s t : State} (h : State.Tower s t) (n : Nat) : State.Beside n s t :=
  ⟨h.mem, fun x _ => h.block x, h.seq, h.control⟩

theorem State.Beside.trans {n : Nat} {s t u : State} (h : State.Beside n s t) (k : State.Beside n t u) : State.Beside n s u :=
  ⟨k.mem.trans h.mem, fun x ne => (k.block x ne).trans (h.block x ne), k.seq.trans h.seq, k.control.trans h.control⟩

theorem State.beside_modBlock (s : State) (n : Nat) (f : SiteBlock → SiteBlock) : State.Beside n s (s.modBlock n f) :=
  ⟨rfl, fun _ ne => s.block_modBlock_ne f ne, rfl, rfl⟩

theorem State.beside_writeBlock (s : State) (n : Nat) (f : SiteBlock → SiteBlock) : State.Beside n s (s.writeBlock n f) :=
  (s.beside_modBlock n f).trans ((State.tower_regWritten ..).beside n)

theorem State.block_writeBlock_self (s : State) (n : Nat) (f : SiteBlock → SiteBlock) : (s.writeBlock n f).block n = f (s.block n) := by
  rw [State.writeBlock, (State.tower_regWritten ..).block, State.block_modBlock_self]

/-! ### The observer (R368, R375) -/

/-- The words of a site after a report (R368). -/
def SiteBlock.Reports (b : SiteBlock) (r : SiteReport) : Prop :=
  fld b.thermal 32 16 = r.est.toNat ∧ fld b.thermal 0 16 = r.pred.toNat ∧
    b.thermal.getLsbD 62 = decide (2000 ≤ r.est.toInt) ∧ b.power = r.mw.setWidth 64

/-- The thermal word of a report (R368). -/
def reportWord (r : SiteReport) (old : Word) : Word :=
  (old &&& 0x8000000000000000#64) ||| BitVec.ofNat 64 (bit' (decide (2000 ≤ r.est.toInt)) 62 + at' r.est.toNat 32 + r.pred.toNat)

/-- The bits of a thermal word below its valid bit are those of its fields. -/
theorem reportWord_low (r : SiteReport) (old : Word) :
    (reportWord r old).toNat % 2 ^ 63 = bit' (decide (2000 ≤ r.est.toInt)) 62 + r.est.toNat * 2 ^ 32 + r.pred.toNat := by
  have est := r.est.isLt
  have pred := r.pred.isLt
  have crit : bit' (decide (2000 ≤ r.est.toInt)) 62 ≤ 2 ^ 62 := by
    rw [bit']
    split <;> omega
  have high : (old.toNat &&& 0x8000000000000000) % 2 ^ 63 = 0 := by
    rw [← Nat.and_two_pow_sub_one_eq_mod, Nat.and_assoc]
    exact Nat.and_zero _
  rw [reportWord, BitVec.toNat_or, BitVec.toNat_and, BitVec.toNat_ofNat, at', ← Nat.and_two_pow_sub_one_eq_mod,
    Nat.and_or_distrib_right, Nat.and_two_pow_sub_one_eq_mod, Nat.and_two_pow_sub_one_eq_mod]
  rw [show 0x8000000000000000 % 2 ^ 64 = 0x8000000000000000 from rfl, high, Nat.zero_or, BitVec.toNat_ofNat]
  omega

/-- A site's words as a report writes them (R368). -/
def SiteBlock.reported (r : SiteReport) (old : Word) (b : SiteBlock) : SiteBlock :=
  { b with thermal := reportWord r old, power := r.mw.setWidth 64 }

/-- The fields of a thermal word are those of the report that wrote it. -/
theorem SiteBlock.reports_reported (r : SiteReport) (old : Word) (b : SiteBlock) : (b.reported r old).Reports r := by
  have low := reportWord_low r old
  have est := r.est.isLt
  have pred := r.pred.isLt
  have crit : bit' (decide (2000 ≤ r.est.toInt)) 62 = if 2000 ≤ r.est.toInt then 2 ^ 62 else 0 := by simp [bit']
  rw [crit] at low
  unfold SiteBlock.reported
  generalize reportWord r old = w at low
  refine ⟨?_, ?_, ?_, rfl⟩
  · simp only [fld]
    split at low <;> omega
  · simp only [fld]
    split at low <;> omega
  · rw [BitVec.getLsbD, Nat.testBit_eq_decide_div_mod_eq, decide_eq_decide]
    dsimp only
    split at low <;> omega

theorem State.observe_beside (s : State) (r : SiteReport) : State.Beside r.site s (s.observe r) := by
  rw [State.observe]
  split
  · exact ((s.beside_writeBlock ..).trans (State.beside_modBlock ..)).trans ((State.tower_endSprint ..).beside _)
  · exact s.beside_writeBlock ..

theorem State.reports_observe (s : State) (r : SiteReport) : ((s.observe r).block r.site).Reports r := by
  have written : ((s.writeBlock r.site (SiteBlock.reported r (s.block r.site).thermal)).block r.site).Reports r := by
    rw [State.block_writeBlock_self]
    exact SiteBlock.reports_reported ..
  rw [State.observe]
  split
  · rw [(State.tower_endSprint ..).block, State.block_modBlock_self]
    exact written
  · exact written

/-- The model values that an update sets leave memory, the sites and the counts. -/
theorem State.tower_models (ms : List (Nat × BitVec 16)) (s : State) : ∃ l,
    ms.foldl (fun s m => { s with sensors := Map.set s.sensors m.1 { s.sensor m.1 with model := m.2 } }) s = { s with sensors := l } := by
  induction ms generalizing s with
  | nil => exact ⟨_, rfl⟩
  | cons m ms ih =>
    obtain ⟨l, h⟩ := ih { s with sensors := Map.set s.sensors m.1 { s.sensor m.1 with model := m.2 } }
    exact ⟨l, h⟩

/-- R364, R368: an update writes its sites' words, then advances the sequence. -/
theorem exec_observerUpdate (rs : List SiteReport) (ms : List (Nat × BitVec 16)) (s : State) :
    ∃ t, exec (.observerUpdate rs ms) s = .next t ∧ t.mem = s.mem ∧ t.dev.observerSeq = s.dev.observerSeq + 1 ∧
      ∀ x r, x < 256 → rs.find? (fun r => r.site == x) = some r → (t.block x).Reports r := by
  obtain ⟨l, models⟩ := State.tower_models ms s
  have step : exec (.observerUpdate rs ms) s = execObserverUpdate rs ms s := rfl
  rw [step, execObserverUpdate, models]
  dsimp only
  generalize hu : ({ s with sensors := l } : State) = u
  have same : u.mem = s.mem ∧ u.dev.observerSeq = s.dev.observerSeq := by
    rw [← hu]
    exact ⟨rfl, rfl⟩
  refine ⟨_, rfl, ?_, ?_, fun x r small named => ?_⟩
  · rw [(State.tower_regWritten ..).mem]
    refine (foldl_mem (fun v n => ?_) _ u).trans same.1
    split
    · exact (v.observe_beside _).mem
    · exact (State.tower_regWritten ..).mem
  · rw [(State.tower_regWritten ..).seq]
    refine congrArg (· + 1) ((foldl_leaves (fun v : State => v.dev.observerSeq) (fun v n => ?_) _ u).trans same.2)
    split
    · exact (v.observe_beside _).seq
    · exact (State.tower_regWritten ..).seq
  · rw [(State.tower_regWritten ..).block]
    have at' : r.site = x := by simpa using List.find?_some named
    have sets : ∀ v : State, ((v.observe r).block x).Reports r := fun v => by
      rw [← at']
      exact v.reports_observe r
    have inside : x ∈ List.range 256 := List.mem_range.2 small
    generalize List.range 256 = sites at inside
    refine foldl_reaches (P := fun v : State => (v.block x).Reports r) (fun v n held => ?_) (fun v => ?_) inside u
    · by_cases ne : n = x
      · rw [ne, named]
        exact sets v
      · split
        next q other =>
          have far : q.site ≠ x := fun eq => ne ((show q.site = n by simpa using List.find?_some other).symm.trans eq)
          rw [(v.observe_beside q).block x far]
          exact held
        · rw [(State.tower_regWritten ..).block]
          exact held
    · rw [named]
      exact sets v

/-! ### Sensors (R366, R369, R370) -/

/-- A sensor holds its last reading. -/
theorem State.sense_reading (s : State) (i : Nat) (r : BitVec 16) : (s.sense i r).reading = r := by
  unfold State.sense
  dsimp only
  split
  · rw [apply_ite Sensor.reading]
    exact ite_self _
  · split
    · rfl
    · split
      · split
        · rfl
        · split <;> rfl
      · rfl

/-- R369: a sensor whose reading is out of range is suspect. -/
theorem State.sense_suspect (s : State) (i : Nat) {r : BitVec 16} (far : inRange r.toInt = false) : (s.sense i r).suspect = true := by
  unfold State.sense
  simp only [far, Bool.not_false, if_true, Bool.false_and, Bool.false_eq_true, if_false]
  split
  · split
    next clear => cases clear
    · rfl
  next held =>
    split
    · simpa using held
    · simpa using held

theorem State.sensor_setFloors (s : State) (x : Nat) : (s.setFloors x).mem = s.mem ∧ (s.setFloors x).sensors = s.sensors := by
  rw [State.setFloors]
  refine List.foldlRecOn (motive := fun t : State => t.mem = s.mem ∧ t.sensors = s.sensors) _ _ ⟨rfl, rfl⟩ fun t ht n _ => ?_
  dsimp only
  generalize (if t.suspectPair n = true then 4 else 1) = f
  split
  · exact ht
  · exact ht

/-- R366, R369: a sensor's report is its reading. -/
theorem exec_sensorReport (i : Fin 76) (reading : BitVec 16) (s : State) :
    ∃ t, exec (.sensorReport i reading) s = .next t ∧ t.mem = s.mem ∧ (t.sensor i.val).reading = reading ∧
      (reading.toInt < -640 ∨ 2400 < reading.toInt → (t.sensor i.val).suspect = true) := by
  have held : (({ s with sensors := Map.set s.sensors i.val (s.sense i.val reading) } : State).sensor i.val) = s.sense i.val reading :=
    Map.get_set_self ..
  have suspect (h : reading.toInt < -640 ∨ 2400 < reading.toInt) : (s.sense i.val reading).suspect = true :=
    s.sense_suspect _ (by simp only [inRange, Bool.and_eq_false_iff, decide_eq_false_iff_not]; omega)
  have step : exec (.sensorReport i reading) s = execSensorReport i reading s := rfl
  rw [step, execSensorReport]
  refine ⟨_, rfl, ?_⟩
  split
  · obtain ⟨mem, sensors⟩ := State.sensor_setFloors { s with sensors := Map.set s.sensors i.val (s.sense i.val reading) } (i.val / 8)
    rw [mem, State.sensor, sensors, Map.get_set_self]
    exact ⟨rfl, s.sense_reading _ _, suspect⟩
  · rw [held]
    exact ⟨rfl, s.sense_reading _ _, suspect⟩

/-! ### Current control (R371) -/

/-- Memory and the count of boundaries, which the demands' changes leave. -/
def State.paced (s : State) : Memory × Nat := (s.mem, s.dev.controlAt)

theorem State.paced_raiseDemands (n : Nat) (s : State) : (s.raiseDemands n).paced = s.paced := by
  induction n generalizing s with
  | zero => rfl
  | succ n ih =>
    rw [State.raiseDemands]
    split
    · rfl
    · dsimp only
      split
      · rw [ih]
        rfl
      · rfl

theorem State.paced_lowerDemand (s : State) : s.lowerDemand.paced = s.paced := by
  rw [State.lowerDemand]
  split <;> rfl

theorem State.paced_quiet (n : Nat) (s : State) : ({ s with dev := { s.dev with quiet := n } } : State).paced = s.paced := rfl

/-- A site whose cadence follows its demand and its floor. -/
def SiteBlock.Follows (b : SiteBlock) : Prop := b.cadence = BitVec.ofNat 5 (max b.demand b.floor)

/-- A site's cadence is written from its demand and its floor (R371). -/
def State.refreshCadence (s : State) (n : Nat) : State :=
  if (s.block n).cadence = BitVec.ofNat 5 (max (s.block n).demand (s.block n).floor) then s.regWritten (0x10000 + 64 * n)
  else s.writeBlock n fun b => { b with cadence := BitVec.ofNat 5 (max (s.block n).demand (s.block n).floor) }

theorem State.refreshCadence_beside (s : State) (n : Nat) : State.Beside n s (s.refreshCadence n) := by
  rw [State.refreshCadence]
  split
  · exact (State.tower_regWritten ..).beside n
  · exact s.beside_writeBlock ..

theorem State.follows_refreshCadence (s : State) (n : Nat) : ((s.refreshCadence n).block n).Follows := by
  rw [State.refreshCadence]
  split
  next same =>
    rw [(State.tower_regWritten ..).block]
    exact same
  · rw [State.block_writeBlock_self]
    rfl

theorem State.writeCadences_eq (s : State) : s.writeCadences = (List.range 256).foldl State.refreshCadence s := rfl

/-- R371: a write of every cadence leaves each the greater of demand and floor. -/
theorem State.writeCadences_spec (s : State) : s.writeCadences.paced = s.paced ∧ ∀ x, x < 256 → (s.writeCadences.block x).Follows := by
  rw [State.writeCadences_eq]
  refine ⟨foldl_leaves State.paced (fun t n => ?_) _ s, fun x small => ?_⟩
  · exact congrArg₂ Prod.mk (t.refreshCadence_beside n).mem (t.refreshCadence_beside n).control
  · have inside : x ∈ List.range 256 := List.mem_range.2 small
    generalize List.range 256 = sites at inside
    refine foldl_reaches (P := fun t : State => (t.block x).Follows) (fun t n held => ?_) (fun t => t.follows_refreshCadence x) inside s
    by_cases ne : n = x
    · rw [ne]
      exact t.follows_refreshCadence x
    · rw [(t.refreshCadence_beside n).block x ne]
      exact held

/-- R371: current control ends with a write of every cadence. -/
theorem exec_currentControl_writes {s : State} (due : s.dev.controlAt < s.devTime / 40000) :
    ∃ t : State, t.paced = (s.mem, s.dev.controlAt + 1) ∧ exec .currentControl s = .next t.writeCadences := by
  have step : exec .currentControl s = execCurrentControl s := rfl
  rw [step, execCurrentControl, if_neg (Nat.not_le_of_lt due)]
  refine ⟨_, ?_, rfl⟩
  split
  · rw [State.paced_quiet, State.paced_raiseDemands]
    rfl
  · split
    · split
      · rw [State.paced_quiet, State.paced_lowerDemand]
        rfl
      · rfl
    · rfl

/-- R371: current control at a boundary that has passed. -/
theorem exec_currentControl {s : State} (due : s.dev.controlAt < s.devTime / 40000) : ∃ t, exec .currentControl s = .next t ∧
    t.mem = s.mem ∧ t.dev.controlAt = s.dev.controlAt + 1 ∧ ∀ x, x < 256 → (t.block x).Follows := by
  obtain ⟨t, began, step⟩ := exec_currentControl_writes due
  obtain ⟨kept, follows⟩ := t.writeCadences_spec
  have same := kept.trans began
  generalize t.writeCadences = u at step follows same
  exact ⟨u, step, congrArg Prod.fst same, congrArg Prod.snd same, follows⟩

theorem exec_currentControl_early {s : State} (early : s.devTime / 40000 ≤ s.dev.controlAt) : exec .currentControl s = .next s :=
  congrArg Host.Outcome.next (if_pos early)

/-! ### Power gating and slots (R373, R378) -/

theorem exec_powerGateEntry_gates {s : State} {n t : Nat} (idle : s.coreIdle n = true) (since : (s.core n).idleFrom = some t)
    (long : t + 100000 ≤ s.devTime) : exec (.powerGateEntry n) s = .next (s.modCore n fun k => { k with gated := true }) := by
  show execPowerGateEntry n s = _
  simp only [execPowerGateEntry, idle, since, long, Bool.not_true, Bool.false_eq_true, if_false, if_true]

theorem exec_powerGateEntry_begins {s : State} {n : Nat} (idle : s.coreIdle n = true) (since : (s.core n).idleFrom = none) :
    exec (.powerGateEntry n) s = .next (s.modCore n fun k => { k with idleFrom := some s.devTime }) := by
  show execPowerGateEntry n s = _
  simp only [execPowerGateEntry, idle, since, Bool.not_true, Bool.false_eq_true, if_false]

theorem exec_powerGateEntry_busy {s : State} {n : Nat} (busy : s.coreIdle n = false) : exec (.powerGateEntry n) s = .next s := by
  show execPowerGateEntry n s = _
  simp only [execPowerGateEntry, busy, Bool.not_false, if_true]

theorem exec_slotsUpdate (a : Fin 8) (s : State) : exec (.slotsUpdate a) s = .next (s.modAshlar a.val fun x =>
    { x with slots := if Map.get 0 s.dev.heat a.val = 0 then 14 else if Map.get 0 s.dev.heat a.val = 1 then 1 else 0 }) := by
  show execSlotsUpdate a s = _
  rw [execSlotsUpdate]
  congr 2
  funext x
  congr 1
  split
  next cold => rw [if_pos cold]
  next warm => rw [warm]; rfl
  next other zero => rw [if_neg other, if_neg zero]

/-! ### Heat levels (R381) -/

section
variable {s : State} {a : Fin 8}

/-- R381: level 2 is entered at 95 °C, and no slot is left. -/
theorem exec_hbmHeatLevel_two (hot : 1520 ≤ s.stackTemp a.val) (below : Map.get 0 s.dev.heat a.val < 2) :
    ∃ t, exec (.hbmHeatLevel a) s = .next t ∧ Map.get 0 t.dev.heat a.val = 2 ∧ (t.ashlar a.val).slots = 0 ∧ t.mem = s.mem := by
  have step : exec (.hbmHeatLevel a) s = execHbmHeatLevel a s := rfl
  have enters : (1520 ≤ s.stackTemp a.val && Map.get 0 s.dev.heat a.val < 2 : Bool) = true := by simp [hot, below]
  rw [step, execHbmHeatLevel]
  refine ⟨_, congrArg Host.Outcome.next (if_pos enters), Map.get_set_self .., ?_, rfl⟩
  rw [State.ashlar_modAshlar_self]

/-- R381: level 1 is entered at 85 °C. -/
theorem exec_hbmHeatLevel_one (warm : 1360 ≤ s.stackTemp a.val) (below : s.stackTemp a.val < 1520) (cold : Map.get 0 s.dev.heat a.val = 0) :
    ∃ t, exec (.hbmHeatLevel a) s = .next t ∧ Map.get 0 t.dev.heat a.val = 1 ∧ t.mem = s.mem := by
  have step : exec (.hbmHeatLevel a) s = execHbmHeatLevel a s := rfl
  have not2 : ¬ (1520 ≤ s.stackTemp a.val && Map.get 0 s.dev.heat a.val < 2 : Bool) = true := by simp [Int.not_le.2 below]
  have enters : (1360 ≤ s.stackTemp a.val && Map.get 0 s.dev.heat a.val < 1 : Bool) = true := by simp [warm, cold]
  rw [step, execHbmHeatLevel]
  exact ⟨_, congrArg Host.Outcome.next ((if_neg not2).trans (if_pos enters)), Map.get_set_self .., rfl⟩

theorem exec_hbmHeatLevel_cold (below : s.stackTemp a.val < 1360) (cold : Map.get 0 s.dev.heat a.val = 0) :
    exec (.hbmHeatLevel a) s = .next s := by
  have not2 : ¬ (1520 ≤ s.stackTemp a.val && Map.get 0 s.dev.heat a.val < 2 : Bool) = true := by
    simp [show s.stackTemp a.val < 1520 by omega]
  have not1 : ¬ (1360 ≤ s.stackTemp a.val && Map.get 0 s.dev.heat a.val < 1 : Bool) = true := by simp [below]
  exact congrArg Host.Outcome.next ((if_neg not2).trans ((if_neg not1).trans (if_pos cold)))

/-- R381: level 1 is left after 10 ms at 82 °C or below. -/
theorem exec_hbmHeatLevel_falls {since : Nat} (level : Map.get 0 s.dev.heat a.val = 1) (cool : s.stackTemp a.val ≤ 1312)
    (found : Map.find s.dev.heatSince a.val = some since) (long : since + 100000000 ≤ s.devTime) :
    ∃ t, exec (.hbmHeatLevel a) s = .next t ∧ Map.get 0 t.dev.heat a.val = 0 := by
  have step : exec (.hbmHeatLevel a) s = execHbmHeatLevel a s := rfl
  have not2 : ¬ (1520 ≤ s.stackTemp a.val && Map.get 0 s.dev.heat a.val < 2 : Bool) = true := by
    simp [show s.stackTemp a.val < 1520 by omega]
  have not1 : ¬ (1360 ≤ s.stackTemp a.val && Map.get 0 s.dev.heat a.val < 1 : Bool) = true := by
    simp [show s.stackTemp a.val < 1360 by omega]
  have not0 : ¬ Map.get 0 s.dev.heat a.val = 0 := by omega
  have stays : ¬ (if Map.get 0 s.dev.heat a.val = 2 then 1520 else 1360 : Int) - 48 < s.stackTemp a.val := by
    rw [level, if_neg (by decide)]
    omega
  rw [step, execHbmHeatLevel]
  simp only [not2, not1, not0, stays, Bool.false_eq_true, if_false, found, long, if_true]
  exact ⟨_, rfl, by rw [Map.get_set_self, level]⟩

end

/-! ### Shortfall (R381, R382) -/

theorem homeOf_hbm {o : Nat} (inside : o < 640 * 2 ^ 30) : homeOf (Home.loc (.hbm o)) = .hbm o := by
  rw [Home.loc, homeOf, if_neg (by omega), if_pos (by omega), Nat.add_sub_cancel_left]

/-- What is requested in a microsecond adds to what has been. -/
theorem sum_addAsked (stack us n : Nat) (l : List (Nat × Nat × Nat)) :
    ((addAsked stack us n l).map (·.2.2)).sum = (l.map (·.2.2)).sum + n := by
  induction l with
  | nil => simp [addAsked]
  | cons e l ih =>
    rw [addAsked]
    split
    · simp only [List.map_cons, List.sum_cons]
      omega
    · simp only [List.map_cons, List.sum_cons, ih]
      omega

/-- A change of the value of one key of a table. -/
theorem Map.find_map_key {κ α : Type} [DecidableEq κ] (f : α → α) (m : List (κ × α)) (k : κ) :
    Map.find (m.map fun e => if e.1 = k then (e.1, f e.2) else e) k = (Map.find m k).map f := by
  induction m with
  | nil => rfl
  | cons e m ih =>
    rw [List.map_cons, Map.find]
    by_cases same : e.1 = k
    · simp [Map.find, same]
    · simp only [if_neg same, Map.find, ih]

section
variable {s : State} {n o k : Nat} {r : Region} {p : Partition} (owner : s.ownerRegion (n / 8) = some r) (inside : o < 640 * 2 ^ 30)
include owner inside

theorem State.ask_cold (cold : Map.get 0 s.dev.heat (o / (80 * 2 ^ 30)) = 0) : s.ask (some n) (Home.loc (.hbm o)) k = s := by
  rw [State.ask, homeOf_hbm inside, Option.bind_some, owner]
  exact if_pos cold

/-- R382: what a core requests of a warm stack counts for its partition. -/
theorem State.ask_warm (warm : Map.get 0 s.dev.heat (o / (80 * 2 ^ 30)) ≠ 0) (found : Map.find s.partitions r.pkey = some p) :
    ∃ q : Partition, Map.find (s.ask (some n) (Home.loc (.hbm o)) k).partitions r.pkey = some q ∧
      (q.asked.map (·.2.2)).sum = (p.asked.map (·.2.2)).sum + k := by
  have counted : s.ask (some n) (Home.loc (.hbm o)) k = { s with partitions := s.partitions.map fun e => if e.1 = r.pkey then
      (e.1, { e.2 with asked := addAsked (o / 0x1400000000) (s.devTime / 10000) k e.2.asked }) else e } := by
    rw [State.ask, homeOf_hbm inside, Option.bind_some, owner]
    exact if_neg warm
  rw [counted]
  refine ⟨{ p with asked := addAsked (o / 0x1400000000) (s.devTime / 10000) k p.asked }, ?_, sum_addAsked ..⟩
  refine (Map.find_map_key (fun q : Partition => { q with asked := addAsked (o / 0x1400000000) (s.devTime / 10000) k q.asked }) _ _).trans ?_
  rw [found]
  rfl

end

section
variable {s : State} {key : BitVec 16} {p : Partition} {a : Fin 8} {e : Nat × Nat × Nat} (found : Map.find s.partitions key = some p)
  (due : p.due a.val (s.devTime / 10000) = some e)
include found due

theorem exec_shortfallUpdate_other {req : Nat} (other : e.2.2 ≠ req) : exec (.shortfallUpdate key a req) s = .next s := by
  show execShortfallUpdate key a req s = _
  simp only [execShortfallUpdate, found, due, bne_iff_ne.2 other, if_true]

/-- R382: the bytes withheld of a microsecond are counted, up to one for a fraction. -/
theorem exec_shortfallUpdate : ∃ (t : State) (q : Partition) (up : Nat), exec (.shortfallUpdate key a e.2.2) s = .next t ∧
    Map.find t.partitions key = some q ∧ q.asked = p.asked.erase e ∧ up ≤ 1 ∧
    (withheld p.share.toNat (Map.get 0 s.dev.heat a.val) e.2.2 % 655360 = 0 → up = 0) ∧
    q.shortfall = p.shortfall + BitVec.ofNat 64 (withheld p.share.toNat (Map.get 0 s.dev.heat a.val) e.2.2 / 655360 + up) ∧
    t.mem = s.mem := by
  have step : exec (.shortfallUpdate key a e.2.2) s = execShortfallUpdate key a e.2.2 s := rfl
  rw [step]
  simp only [execShortfallUpdate, found, due, bne_self_eq_false, Bool.false_eq_true, if_false]
  generalize withheld p.share.toNat (Map.get 0 s.dev.heat a.val) e.2.2 = lost
  refine ⟨_, _, _, rfl, Map.find_set_self .., rfl, ?_, fun whole => ?_, rfl, rfl⟩
  · split <;> decide
  · rw [whole]
    rfl

end

theorem withheld_eq (share level d : Nat) : withheld share level d = Nat.min (d * 655360) (share * 36000000) -
    Nat.min (d * 655360) (share * 36000000 * (if level = 0 then 10 else if level = 1 then 8 else 5) / 10) := by
  match level with
  | 0 => rfl
  | 1 => rfl
  | _ + 2 => rfl

/-! ### A course after an interval (R379) -/

section
variable (k : Course) (claims : Bool) (now : Nat)

theorem Course.interval_sprint (sprint : k.step = 2) : (k.interval claims now).permits = k.permits - 1 ∧
    (k.interval claims now).step = if k.permits ≤ 1 ∨ claims = false ∨ k.sprintEnd = true then 1 else 2 := by
  rw [Course.interval, if_pos sprint]
  refine ⟨rfl, ?_⟩
  dsimp only
  congr 1
  simp [or_assoc, Nat.sub_eq_zero_iff_le]

theorem Course.interval_cool (cool : k.step = 1) : (k.interval claims now).step = 0 ∧ (k.interval claims now).permits = k.permits ∧
    (k.interval claims now).idle = 0 ∧ now + 10000000 ≤ (k.interval claims now).coolUntil ∧
    ∀ t, k.sprintFrom = some t → now + (now - t) ≤ (k.interval claims now).coolUntil := by
  rw [Course.interval, if_neg (by omega), if_pos cool]
  refine ⟨rfl, rfl, rfl, Nat.add_le_add_left (Nat.le_max_left ..) _, fun t began => ?_⟩
  dsimp only
  rw [began]
  exact Nat.add_le_add_left (Nat.le_max_right ..) _

theorem Course.interval_idle (slow : k.step = 0) (below : k.idle < 4) :
    (k.idle = 3 → (k.interval claims now).permits = Nat.min (k.permits + 1) 64 ∧ (k.interval claims now).idle = 0) ∧
    (k.idle < 3 → (k.interval claims now).permits = k.permits ∧ (k.interval claims now).idle = k.idle + 1) := by
  rw [Course.interval, if_neg (by omega), if_neg (by omega)]
  refine ⟨fun last => ?_, fun more => ?_⟩
  · rw [if_pos (by omega)]
    exact ⟨rfl, rfl⟩
  · rw [if_neg (by omega)]
    exact ⟨rfl, rfl⟩

end

end Sys2Proof.Machine
end

section
/-! # Boost boundaries (R378, R379) -/

namespace Sys2Proof.Machine

open Sys2Proof

/-! ### States that differ in courses and last grants alone -/

/-- What a boost boundary leaves. -/
structure State.Boosts (s t : State) : Prop where
  mem : t.mem = s.mem
  dev : t.dev = s.dev
  time : t.devTime = s.devTime
  blocks : t.siteBlocks = s.siteBlocks
  sites : ∀ a, (t.ashlar a).sites = (s.ashlar a).sites
  phase : ∀ a, (t.ashlar a).phase = (s.ashlar a).phase
  slots : ∀ a, (t.ashlar a).slots = (s.ashlar a).slots

theorem State.Boosts.refl (s : State) : State.Boosts s s := ⟨rfl, rfl, rfl, rfl, fun _ => rfl, fun _ => rfl, fun _ => rfl⟩

theorem State.Boosts.trans {s t u : State} (h : State.Boosts s t) (k : State.Boosts t u) : State.Boosts s u :=
  ⟨k.mem.trans h.mem, k.dev.trans h.dev, k.time.trans h.time, k.blocks.trans h.blocks, fun a => (k.sites a).trans (h.sites a),
    fun a => (k.phase a).trans (h.phase a), fun a => (k.slots a).trans (h.slots a)⟩

theorem State.Boosts.modCourse (s : State) (c : Nat) (f : Course → Course) : State.Boosts s (s.modCourse c f) :=
  ⟨rfl, rfl, rfl, rfl, fun _ => rfl, fun _ => rfl, fun _ => rfl⟩

/-- An ashlar notes its last grant (R378). -/
def State.noteGrant (s : State) (a c : Nat) : State := s.modAshlar a fun x => { x with lastGrant := some (c % 32) }

theorem State.ashlar_noteGrant {β : Type} (s : State) (a c : Nat) {g : Ashlar → β}
    (keeps : ∀ x : Ashlar, g { x with lastGrant := some (c % 32) } = g x) (b : Nat) : g ((s.noteGrant a c).ashlar b) = g (s.ashlar b) := by
  rw [State.noteGrant]
  by_cases h : a = b
  · rw [← h, State.ashlar_modAshlar_self, keeps]
  · rw [State.ashlar_modAshlar_ne _ _ h]

theorem State.Boosts.noteGrant (s : State) (a c : Nat) : State.Boosts s (s.noteGrant a c) :=
  ⟨rfl, rfl, rfl, rfl, s.ashlar_noteGrant a c (g := Ashlar.sites) fun _ => rfl, s.ashlar_noteGrant a c (g := Ashlar.phase) fun _ => rfl,
    s.ashlar_noteGrant a c (g := Ashlar.slots) fun _ => rfl⟩

theorem State.course_noteGrant (s : State) (a c d : Nat) : (s.noteGrant a c).course d = s.course d := s.course_modAshlar a rfl d

section
variable {s t : State} (h : State.Boosts s t)
include h

theorem State.Boosts.site (c : Nat) : t.site c = s.site c := State.site_congr (by rw [h.dev]) (h.sites _)

theorem State.Boosts.pausing (a : Nat) : t.pausing a = s.pausing a := by rw [State.pausing, State.pausing, h.phase]

/-- Whether a course claims depends on the course, where a boundary changes it, alone. -/
theorem State.Boosts.claims (c : Nat) : t.claims c = (s.setCourse c (t.course c)).claims c := by
  have gap : (t.block (t.siteOf c)).gap = (s.block (s.siteOf c)).gap := by
    rw [State.block, State.block, State.siteOf, State.siteOf, State.siteEnabled, State.siteEnabled, h.site, h.blocks, h.dev]
  rw [State.claims, State.claims, State.course_setCourse_self, gap, h.time, h.dev]
  rfl

end

/-! ### The interval that has ended (R379) -/

/-- A course at a boundary, its interval accounted for: a sprint in a rotation pause stays as it is (R379, R383). -/
def State.aged (s : State) (now c : Nat) : Course :=
  if (s.course c).stopped = true ∧ s.pausing (c / 32) = true ∧ (s.course c).step ≠ 0 then s.course c
  else (s.course c).interval (s.claims c) now

/-- One course of an ashlar at a boundary. -/
def State.age (now a : Nat) (s : State) (e : Nat × Bool) : State :=
  if (s.course e.1).stopped && s.pausing a && (s.course e.1).step != 0 then s else s.modCourse e.1 fun k => k.interval e.2 now

theorem State.age_boosts (now a : Nat) (s : State) (e : Nat × Bool) : State.Boosts s (s.age now a e) := by
  rw [State.age]
  split
  · exact .refl s
  · exact .modCourse ..

theorem State.course_age_ne (now a : Nat) (s : State) {e : Nat × Bool} {d : Nat} (ne : e.1 ≠ d) : (s.age now a e).course d = s.course d := by
  rw [State.age]
  split
  · rfl
  · exact s.course_modCourse_ne _ ne

theorem State.course_age_self {s t : State} (h : State.Boosts s t) (now c : Nat) (same : t.course c = s.course c) :
    (t.age now (c / 32) (c, s.claims c)).course c = s.aged now c := by
  have cond : ((t.course c).stopped && t.pausing (c / 32) && (t.course c).step != 0) = true ↔
      (s.course c).stopped = true ∧ s.pausing (c / 32) = true ∧ (s.course c).step ≠ 0 := by
    rw [same, h.pausing]
    simp [and_assoc]
  rw [State.age, State.aged]
  by_cases held : (s.course c).stopped = true ∧ s.pausing (c / 32) = true ∧ (s.course c).step ≠ 0
  · rw [if_pos (cond.2 held), if_pos held, same]
  · rw [if_neg (mt cond.1 held), if_neg held, State.course_modCourse_self, same]

/-- R379: the courses of an ashlar at a boundary. -/
theorem State.course_ages {s : State} (now a : Nat) {cs : List Nat} (nodup : cs.Nodup) (here : ∀ c ∈ cs, c / 32 = a) {t : State}
    (h : State.Boosts s t) (same : ∀ c ∈ cs, t.course c = s.course c) :
    let u := (cs.map fun c => (c, s.claims c)).foldl (State.age now a) t
    State.Boosts s u ∧ ∀ c, u.course c = if c ∈ cs then s.aged now c else t.course c := by
  induction cs generalizing t with
  | nil => exact ⟨h, fun c => (if_neg List.not_mem_nil).symm⟩
  | cons d cs ih =>
    obtain ⟨fresh, nodup⟩ := List.nodup_cons.1 nodup
    have first := State.course_age_self h now d (same d List.mem_cons_self)
    rw [here d List.mem_cons_self] at first
    obtain ⟨boosts, rest⟩ := ih nodup (fun c hc => here c (List.mem_cons_of_mem _ hc)) (h.trans (t.age_boosts now a (d, s.claims d)))
      fun c hc => (State.course_age_ne now a t (e := (d, s.claims d)) (ne_of_mem_of_not_mem hc fresh).symm).trans (same c (List.mem_cons_of_mem _ hc))
    refine ⟨boosts, fun c => (rest c).trans ?_⟩
    by_cases eq : d = c
    · subst eq
      rw [if_neg fresh, if_pos List.mem_cons_self, first]
    · rw [State.course_age_ne now a t (e := (d, s.claims d)) eq]
      exact if_congr (by rw [List.mem_cons, or_iff_right (Ne.symm eq)]) rfl rfl

/-! ### Grants (R378) -/

/-- Courses of an ashlar to which a sprint may be granted (R378). -/
def State.claimants (s : State) (a : Nat) : List Nat :=
  (coursesOf a).filter fun c => (s.site c).valid && s.claims c && (s.course c).step == 0 && !(s.course c).stopped

/-- A course to which a sprint is granted at a boundary (R378). -/
def Course.sprinting (now : Nat) (k : Course) : Course := { k with step := 2, sprintFrom := some now, sprintEnd := false, idle := 0 }

/-- A choice among candidates picks one of them where there is any. -/
theorem foldl_picks {f : Option Nat → Nat → Option Nat} (first : ∀ c, f none c = some c)
    (next : ∀ b c, f (some b) c = some c ∨ f (some b) c = some b) (l : List Nat) : ∀ b, (∃ c ∈ b :: l, l.foldl f (some b) = some c) ∧ (b :: l).foldl f none = l.foldl f (some b) := by
  induction l with
  | nil => exact fun b => ⟨⟨b, List.mem_cons_self, rfl⟩, first b⟩
  | cons d l ih =>
    intro b
    refine ⟨?_, congrArg (List.foldl f · (d :: l)) (first b)⟩
    rw [List.foldl_cons]
    rcases next b d with eq | eq
    · obtain ⟨⟨c, hc, picked⟩, _⟩ := ih d
      rw [eq]
      exact ⟨c, List.mem_cons_of_mem _ hc, picked⟩
    · obtain ⟨⟨c, hc, picked⟩, _⟩ := ih b
      rw [eq]
      refine ⟨c, ?_, picked⟩
      rcases List.mem_cons.1 hc with rfl | later
      · exact List.mem_cons_self
      · exact List.mem_cons_of_mem _ (List.mem_cons_of_mem _ later)

/-- R378: a claimant is picked where there is one. -/
theorem State.claimant_spec (s : State) (a : Nat) :
    (s.claimants a = [] ∧ s.claimant a = none) ∨ ∃ c ∈ s.claimants a, s.claimant a = some c := by
  have picks : ∀ (l : List Nat), ∀ f : Option Nat → Nat → Option Nat, (∀ c, f none c = some c) →
      (∀ b c, f (some b) c = some c ∨ f (some b) c = some b) → (l = [] ∧ l.foldl f none = none) ∨ ∃ c ∈ l, l.foldl f none = some c := by
    intro l f first next
    cases l with
    | nil => exact .inl ⟨rfl, rfl⟩
    | cons b l =>
      obtain ⟨⟨c, hc, picked⟩, eq⟩ := foldl_picks first next l b
      exact .inr ⟨c, hc, eq.trans picked⟩
  refine picks (s.claimants a) _ (fun c => rfl) fun b c => ?_
  dsimp only
  split
  · exact .inl rfl
  · exact .inr rfl

theorem State.mem_claimants {s : State} {a c : Nat} : c ∈ s.claimants a ↔ c / 32 = a ∧ (s.site c).valid = true ∧ s.claims c = true ∧
    (s.course c).step = 0 ∧ (s.course c).stopped = false := by
  simp [State.claimants, List.mem_filter, mem_coursesOf, and_assoc]

theorem State.nodup_claimants (s : State) (a : Nat) : (s.claimants a).Nodup := (nodup_coursesOf a).filter _

theorem State.length_claimants (s : State) (a : Nat) : (s.claimants a).length ≤ 32 :=
  (List.length_filter_le _ _).trans (by rw [coursesOf, List.length_map, List.length_range])

/-- A sprint is granted to a course (R378). -/
def State.grantSprint (s : State) (a now c : Nat) : State := (s.modCourse c (Course.sprinting now)).noteGrant a c

theorem State.grantSprint_boosts (s : State) (a now c : Nat) : State.Boosts s (s.grantSprint a now c) :=
  (State.Boosts.modCourse s c _).trans (.noteGrant ..)

theorem State.course_grantSprint (s : State) (a now c d : Nat) :
    (s.grantSprint a now c).course d = if d = c then (s.course c).sprinting now else s.course d := by
  rw [State.grantSprint, State.course_noteGrant]
  split
  next eq => rw [eq, State.course_modCourse_self]
  next ne => rw [State.course_modCourse_ne _ _ (Ne.symm ne)]

/-- Whoever is granted a sprint claims none any longer, and every other course claims as before. -/
theorem State.claimants_grantSprint (s : State) (a now c : Nat) : (s.grantSprint a now c).claimants a = (s.claimants a).erase c := by
  rw [List.Nodup.erase_eq_filter (s.nodup_claimants a), State.claimants, State.claimants, List.filter_filter]
  refine List.filter_congr fun d _ => ?_
  have boosts := s.grantSprint_boosts a now c
  have course := s.course_grantSprint a now c d
  by_cases eq : d = c
  · subst eq
    rw [if_pos rfl] at course
    have step : ((s.grantSprint a now d).course d).step = 2 := by
      rw [course]
      rfl
    simp [step]
  · rw [if_neg eq] at course
    have claims : (s.grantSprint a now c).claims d = s.claims d := by
      rw [boosts.claims, course, ← (State.Boosts.refl s).claims]
    simp [course, boosts.site, claims, eq]

/-- What granting sprints to an ashlar's claimants does to the courses and to the current, an amount for each grant (R378). -/
structure State.Grants (a now n i : Nat) (s t : State) (j : Nat) : Prop where
  boosts : State.Boosts s t
  course : ∀ c, t.course c = s.course c ∨ (t.course c = (s.course c).sprinting now ∧ c ∈ s.claimants a)
  full : 4800 * ampere < i + 45 * ampere / 10 → t.courses = s.courses ∧ j = i
  current : j ≤ i + (s.claimants a).length * (45 * ampere / 10)
  all : i + (s.claimants a).length * (45 * ampere / 10) ≤ 4800 * ampere → (s.claimants a).length ≤ n →
    ∀ c ∈ s.claimants a, t.course c = (s.course c).sprinting now

theorem State.grants_grantSprints (a now n i : Nat) (s : State) :
    State.Grants a now n i s (State.grantSprints a now n i s).1 (State.grantSprints a now n i s).2 := by
  have stays (s : State) (i n : Nat) (none' : i + (s.claimants a).length * (45 * ampere / 10) ≤ 4800 * ampere →
      (s.claimants a).length ≤ n → s.claimants a = []) : State.Grants a now n i s s i :=
    ⟨.refl s, fun c => .inl rfl, fun _ => ⟨rfl, rfl⟩, Nat.le_add_right .., fun room fits c hc => by
      rw [none' room fits] at hc
      cases hc⟩
  induction n generalizing i s with
  | zero => exact stays s i 0 fun _ none' => List.length_eq_zero_iff.1 (Nat.le_zero.1 none')
  | succ n ih =>
    rw [State.grantSprints]
    rcases s.claimant_spec a with ⟨empty, picked⟩ | ⟨c, hc, picked⟩
    · simp only [picked]
      exact stays s i (n + 1) fun _ _ => empty
    · simp only [picked]
      have some' : 0 < (s.claimants a).length := List.length_pos_of_mem hc
      split
      next full =>
        refine stays s i (n + 1) fun room _ => ?_
        have least := Nat.mul_le_mul_right (45 * ampere / 10) some'
        omega
      next admits =>
        have rest := ih (i + 45 * ampere / 10) (s.grantSprint a now c)
        obtain ⟨boosts, course, _, current, all⟩ := rest
        have claimants := s.claimants_grantSprint a now c
        have fewer : ((s.grantSprint a now c).claimants a).length + 1 = (s.claimants a).length := by
          rw [claimants, List.length_erase_of_mem hc]
          omega
        have amount := Nat.succ_mul ((s.grantSprint a now c).claimants a).length (45 * ampere / 10)
        rw [Nat.succ_eq_add_one, fewer] at amount
        have left' {d : Nat} (hd : d ∈ (s.grantSprint a now c).claimants a) : d ≠ c ∧ d ∈ s.claimants a :=
          (s.nodup_claimants a).mem_erase_iff.1 (claimants ▸ hd)
        have other {d : Nat} (ne : d ≠ c) : (s.grantSprint a now c).course d = s.course d :=
          (s.course_grantSprint a now c d).trans (if_neg ne)
        have self : (s.grantSprint a now c).course c = (s.course c).sprinting now :=
          (s.course_grantSprint a now c c).trans (if_pos rfl)
        have granted : (State.grantSprints a now n (i + 45 * ampere / 10) (s.grantSprint a now c)).1.course c = (s.course c).sprinting now := by
          rcases course c with eq | ⟨_, again⟩
          · exact eq.trans self
          · exact absurd rfl (left' again).1
        refine ⟨(s.grantSprint_boosts a now c).trans boosts, fun d => ?_, fun full => absurd full admits, ?_, fun room fits d hd => ?_⟩
        · by_cases eq : d = c
          · rw [eq]
            exact .inr ⟨granted, hc⟩
          · rcases course d with same | ⟨sprints, hd⟩
            · exact .inl (same.trans (other eq))
            · exact .inr ⟨other eq ▸ sprints, (left' hd).2⟩
        · exact current.trans (by omega)
        · by_cases eq : d = c
          · rw [eq]
            exact granted
          · rw [← other eq]
            refine all (by omega) (by omega) d ?_
            rw [claimants]
            exact (s.nodup_claimants a).mem_erase_iff.2 ⟨eq, hd⟩

/-! ### A boundary on an ashlar, and on every ashlar (R378, R379) -/

/-- Whether a course claims a sprint once its interval is accounted for (R378). -/
def State.wants (s : State) (now c : Nat) : Bool :=
  (s.site c).valid && decide ((s.aged now c).step = 0) && !(s.aged now c).stopped && (s.setCourse c (s.aged now c)).claims c

/-- Slots of an ashlar that its claimants and its courses that do not run at the first step need (R378). -/
def State.slotsNeeded (s : State) (now a : Nat) : Nat :=
  ((coursesOf a).filter fun c => (s.site c).valid && decide ((s.aged now c).step ≠ 0)).length + ((coursesOf a).filter (s.wants now)).length

/-- What a boundary does to the courses of some ashlars, from a state whose courses there stand as they did before it (R378, R379). -/
structure State.Bounded (s : State) (now : Nat) (l : List Nat) (i : Nat) (t u : State) (j : Nat) : Prop where
  boosts : State.Boosts t u
  other : ∀ c, c / 32 ∉ l → u.course c = t.course c
  invalid : ∀ c, c / 32 ∈ l → (s.site c).valid = false → u.course c = s.course c
  valid : ∀ c, c / 32 ∈ l → (s.site c).valid = true →
    u.course c = s.aged now c ∨ (u.course c = (s.aged now c).sprinting now ∧ s.wants now c = true)
  full : 4800 * ampere < i + 45 * ampere / 10 → j = i ∧ ∀ c, c / 32 ∈ l → (s.site c).valid = true → u.course c = s.aged now c
  current : j ≤ i + 32 * l.length * (45 * ampere / 10)
  all : i + 32 * l.length * (45 * ampere / 10) ≤ 4800 * ampere → ∀ a ∈ l, s.slotsNeeded now a ≤ (s.ashlar a).slots →
    ∀ c, c / 32 = a → s.wants now c = true → u.course c = (s.aged now c).sprinting now

theorem State.wants_valid {s : State} {now c : Nat} (h : s.wants now c = true) : (s.site c).valid = true := by
  simp only [State.wants, Bool.and_eq_true] at h
  exact h.1.1.1

section
variable {s t : State} (h : State.Boosts s t) (now a : Nat) (same : ∀ c, c / 32 = a → t.course c = s.course c)
include h same

/-- The courses of an ashlar with their intervals accounted for, before the grants. -/
theorem State.course_agesAt : ∃ u, (((coursesOf a).filter fun c => (t.site c).valid).map fun c => (c, t.claims c)).foldl (State.age now a) t = u ∧
    State.Boosts t u ∧ ∀ c, u.course c = if c / 32 = a ∧ (s.site c).valid = true then s.aged now c else t.course c := by
  have claims : (((coursesOf a).filter fun c => (t.site c).valid).map fun c => (c, t.claims c)) =
      (((coursesOf a).filter fun c => (t.site c).valid).map fun c => (c, s.claims c)) := by
    refine List.map_congr_left fun c hc => ?_
    have here := mem_coursesOf.1 (List.mem_filter.1 hc).1
    rw [h.claims, same c here, ← (State.Boosts.refl s).claims]
  have member {c : Nat} : c ∈ (coursesOf a).filter (fun c => (t.site c).valid) ↔ c / 32 = a ∧ (s.site c).valid = true := by
    rw [List.mem_filter, mem_coursesOf, h.site]
  obtain ⟨_, course⟩ := State.course_ages (s := s) now a ((nodup_coursesOf a).filter fun c => (t.site c).valid)
    (fun c hc => (member.1 hc).1) h fun c hc => same c (member.1 hc).1
  refine ⟨_, rfl, ?_, fun c => ?_⟩
  · exact List.foldlRecOn (motive := State.Boosts t) _ _ (.refl t) fun v hv e _ => hv.trans (v.age_boosts now a e)
  · rw [claims, course c]
    exact if_congr member rfl rfl

end

/-- R378, R379: a boundary on one ashlar. -/
theorem State.bounded_boostAshlar {s t : State} (h : State.Boosts s t) (now i a : Nat) (same : ∀ c, c / 32 = a → t.course c = s.course c) :
    State.Bounded s now [a] i t (t.boostAshlar now i a).1 (t.boostAshlar now i a).2 := by
  obtain ⟨u, ages, boosts, course⟩ := State.course_agesAt h now a same
  have valid {c : Nat} (here : c / 32 = a) (v : (s.site c).valid = true) : u.course c = s.aged now c := (course c).trans (if_pos ⟨here, v⟩)
  have all := h.trans boosts
  have claimants : u.claimants a = (coursesOf a).filter (s.wants now) := by
    refine List.filter_congr fun c hc => ?_
    have here := mem_coursesOf.1 hc
    rw [State.wants, all.site, all.claims]
    cases v : (s.site c).valid with
    | false => simp
    | true =>
      rw [valid here v, show ((s.aged now c).step == 0) = decide ((s.aged now c).step = 0) from Bool.eq_iff_iff.2 (by simp)]
      cases (s.setCourse c (s.aged now c)).claims c <;> simp
  have busy : (((coursesOf a).filter fun c => (t.site c).valid).filter fun c => (u.course c).step != 0).length =
      ((coursesOf a).filter fun c => (s.site c).valid && decide ((s.aged now c).step ≠ 0)).length := by
    rw [List.filter_filter]
    refine congrArg List.length (List.filter_congr fun c hc => ?_)
    rw [h.site]
    cases v : (s.site c).valid with
    | false => simp
    | true =>
      rw [valid (mem_coursesOf.1 hc) v]
      exact Bool.eq_iff_iff.2 (by simp)
  have step : t.boostAshlar now i a = State.grantSprints a now ((u.ashlar a).slots -
      (((coursesOf a).filter fun c => (t.site c).valid).filter fun c => (u.course c).step != 0).length) i u := by
    rw [← ages]
    rfl
  obtain ⟨grants, outcome, full, current, every⟩ := u.grants_grantSprints a now ((u.ashlar a).slots -
    (((coursesOf a).filter fun c => (t.site c).valid).filter fun c => (u.course c).step != 0).length) i
  rw [← step] at grants outcome full current every
  rw [busy, all.slots] at every
  generalize t.boostAshlar now i a = r at grants outcome full current every
  have few := u.length_claimants a
  have amount := Nat.mul_le_mul_right (45 * ampere / 10) few
  have claims {c : Nat} (hc : c ∈ u.claimants a) : c / 32 = a ∧ s.wants now c = true := by
    rw [claimants, List.mem_filter, mem_coursesOf] at hc
    exact hc
  refine ⟨boosts.trans grants, fun c away => ?_, fun c here v => ?_, fun c here v => ?_, fun above => ?_, ?_,
    fun room b hb fits c here wants => ?_⟩
  · have far : ¬ c / 32 = a := fun eq => away (List.mem_singleton.2 eq)
    rcases outcome c with eq | ⟨_, hc⟩
    · rw [eq, course c, if_neg fun both => far both.1]
    · exact absurd (claims hc).1 far
  · rw [List.mem_singleton] at here
    rcases outcome c with eq | ⟨_, hc⟩
    · rw [eq, course c, if_neg (by simp [v]), same c here]
    · rw [State.wants_valid (claims hc).2] at v
      cases v
  · rw [List.mem_singleton] at here
    rcases outcome c with eq | ⟨eq, hc⟩
    · exact .inl (eq.trans (valid here v))
    · exact .inr ⟨eq.trans (by rw [valid here v]), (claims hc).2⟩
  · obtain ⟨courses, amount⟩ := full above
    refine ⟨amount, fun c here v => ?_⟩
    rw [← valid (List.mem_singleton.1 here) v]
    exact State.course_congr (grants.site c) (by rw [grants.dev]) grants.blocks courses
  · refine current.trans (Nat.add_le_add_left ?_ i)
    exact amount
  · rw [List.mem_singleton] at hb
    subst hb
    have hc : c ∈ u.claimants b := by
      rw [claimants, List.mem_filter, mem_coursesOf]
      exact ⟨here, wants⟩
    rw [← valid here (State.wants_valid wants)]
    refine every ?_ ?_ c hc
    · exact (Nat.add_le_add_left amount i).trans room
    · rw [claimants]
      rw [State.slotsNeeded] at fits
      omega

/-- R378, R379: a boundary on one ashlar after another. -/
theorem State.bounded_foldl (s : State) (now : Nat) {l : List Nat} (nodup : l.Nodup) {t : State} (h : State.Boosts s t) (i : Nat)
    (same : ∀ c, c / 32 ∈ l → t.course c = s.course c) :
    State.Bounded s now l i t (l.foldl (fun (x : State × Nat) a => x.1.boostAshlar now x.2 a) (t, i)).1
      (l.foldl (fun (x : State × Nat) a => x.1.boostAshlar now x.2 a) (t, i)).2 := by
  induction l generalizing t i with
  | nil =>
    exact ⟨.refl t, fun _ _ => rfl, fun _ hc => absurd hc List.not_mem_nil, fun _ hc => absurd hc List.not_mem_nil,
      fun _ => ⟨rfl, fun _ hc => absurd hc List.not_mem_nil⟩, Nat.le_add_right .., fun _ _ ha => absurd ha List.not_mem_nil⟩
  | cons a l ih =>
    obtain ⟨fresh, nodup⟩ := List.nodup_cons.1 nodup
    have first := State.bounded_boostAshlar h now i a fun c hc => same c (hc ▸ List.mem_cons_self)
    rw [List.foldl_cons]
    generalize t.boostAshlar now i a = r at first
    have apart {c : Nat} (hc : c / 32 ∈ l) : c / 32 ∉ [a] := fun eq => fresh (List.mem_singleton.1 eq ▸ hc)
    have rest := ih nodup (h.trans first.boosts) r.2 fun c hc =>
      (first.other c (apart hc)).trans (same c (List.mem_cons_of_mem _ hc))
    generalize l.foldl (fun (x : State × Nat) a => x.1.boostAshlar now x.2 a) (r.1, r.2) = z at rest
    have here {c : Nat} (hc : c / 32 = a) : c / 32 ∈ [a] ∧ c / 32 ∉ l := ⟨List.mem_singleton.2 hc, fun h => fresh (hc ▸ h)⟩
    have size : 32 * (a :: l).length * (45 * ampere / 10) = 32 * [a].length * (45 * ampere / 10) + 32 * l.length * (45 * ampere / 10) := by
      rw [← Nat.add_mul, ← Nat.mul_add, List.length_cons, List.length_singleton, Nat.add_comm]
    have within := first.current
    refine ⟨first.boosts.trans rest.boosts, fun c away => ?_, fun c hc v => ?_, fun c hc v => ?_, fun above => ?_, ?_,
      fun room b hb fits c hc wants => ?_⟩
    · obtain ⟨ne, out⟩ := not_or.1 (mt List.mem_cons.2 away)
      exact (rest.other c out).trans (first.other c fun eq => ne (List.mem_singleton.1 eq))
    · rcases List.mem_cons.1 hc with at' | later
      · exact (rest.other c (here at').2).trans (first.invalid c (here at').1 v)
      · exact rest.invalid c later v
    · rcases List.mem_cons.1 hc with at' | later
      · rw [rest.other c (here at').2]
        exact first.valid c (here at').1 v
      · exact rest.valid c later v
    · obtain ⟨same', aged⟩ := first.full above
      obtain ⟨same'', ageds⟩ := rest.full (by rw [same']; exact above)
      refine ⟨same''.trans same', fun c hc v => ?_⟩
      rcases List.mem_cons.1 hc with at' | later
      · exact (rest.other c (here at').2).trans (aged c (here at').1 v)
      · exact ageds c later v
    · rw [size]
      exact rest.current.trans (by omega)
    · rw [size] at room
      rcases List.mem_cons.1 hb with rfl | later
      · exact (rest.other c (here hc).2).trans (first.all (by omega) b (List.mem_singleton.2 rfl) fits c hc wants)
      · exact rest.all (by omega) b later fits c hc wants

/-- A state whose next boost boundary has come (R378). -/
def State.boostCome (s : State) : State := { s with dev := { s.dev with boostAt := s.dev.boostAt + 1 } }

/-- R378, R379: a boundary that has passed changes the courses as `State.Bounded` says, memory and the other registers not at all. -/
theorem exec_boostBoundary {s : State} (due : s.dev.boostAt < s.devTime / 40000) : ∃ (u : State) (j : Nat),
    exec .boostBoundary s = .next u ∧
      State.Bounded s.boostCome ((s.dev.boostAt + 1) * 40000) (List.range 8) s.current s.boostCome u j := by
  have step : exec .boostBoundary s = execBoostBoundary s := rfl
  refine ⟨_, _, step.trans (congrArg Host.Outcome.next (if_neg (Nat.not_le_of_lt due))),
    State.bounded_foldl s.boostCome ((s.dev.boostAt + 1) * 40000) List.nodup_range (.refl _) s.boostCome.current fun _ _ => rfl⟩

theorem exec_boostBoundary_early {s : State} (early : s.devTime / 40000 ≤ s.dev.boostAt) : exec .boostBoundary s = .next s :=
  congrArg Host.Outcome.next (if_pos early)

/-- Settles O51: `exec_boostBoundary` for the boost boundary, and one lemma for each other step of the plinth. -/
theorem powerSteps : Obligations.PowerSteps := by
  unfold Obligations.PowerSteps
  refine ⟨fun s i reading a n => ⟨?_, ?_, ?_, ?_, ?_, ?_, ?_, ?_, ?_, ?_, ?_, ?_, ?_, ?_, ?_, ?_⟩, fun k claims now =>
    ⟨k.interval_sprint claims now, k.interval_cool claims now, fun slow _ below => k.interval_idle claims now slow below⟩⟩
  · exact fun rs ms => exec_observerUpdate rs ms s
  · exact exec_sensorReport i reading s
  · exact exec_currentControl
  · exact exec_currentControl_early
  · intro due
    obtain ⟨u, j, step, bounded⟩ := exec_boostBoundary due
    have ashlar {c : Nat} (small : c < 256) : c / 32 ∈ List.range 8 := List.mem_range.2 (by omega)
    refine ⟨u, step, bounded.boosts.mem, congrArg Device.boostAt bounded.boosts.dev, ?_⟩
    intro now after granted wants
    refine ⟨fun c small => bounded.invalid c (ashlar small), fun c small => bounded.valid c (ashlar small),
      fun full c small => (bounded.full full).2 c (ashlar small), fun x small room fits c hc wanted => ?_⟩
    have all : s.current + 32 * (List.range 8).length * (45 * ampere / 10) ≤ 4800 * ampere := by
      rw [List.length_range]
      exact room
    exact bounded.all all x (List.mem_range.2 small) fits c (mem_coursesOf.1 hc) wanted
  · exact exec_boostBoundary_early
  · exact exec_slotsUpdate a s
  · exact fun _ => exec_powerGateEntry_gates
  · exact exec_powerGateEntry_begins
  · exact exec_powerGateEntry_busy
  · exact exec_hbmHeatLevel_two
  · exact exec_hbmHeatLevel_one
  · exact exec_hbmHeatLevel_cold
  · exact fun _ => exec_hbmHeatLevel_falls
  · rintro key p r o k owner rfl found inside
    exact ⟨State.ask_cold owner inside, fun warm => State.ask_warm owner inside warm found⟩
  · intro key p e req found due
    refine ⟨exec_shortfallUpdate_other found due, ?_⟩
    intro d g low lost
    have lost' : lost = withheld p.share.toNat low e.2.2 := (withheld_eq ..).symm
    rw [lost']
    exact exec_shortfallUpdate found due

end Sys2Proof.Machine
end
